-- ==== Sys2Proof/Word.lean ====
section
/-! DEFINITION. Words, bytes, the index types of the replicated units, and the sparse table type.
Only types stand here; every operation on them stands in Machine/Bits.lean and Machine/Table.lean. -/

namespace Sys2Proof

/-- One byte of storage. -/
abbrev Byte := BitVec 8
/-- One register (R9: every register is 32 bits wide). -/
abbrev W32 := BitVec 32
/-- One 64-bit word. -/
abbrev W64 := BitVec 64
/-- A 64-byte line of a message, a descriptor or a queue word: eight little-endian 64-bit words. -/
abbrev Line := List W64
/-- A sparse table: entries in rising key order, none equal to the table's default value. -/
abbrev Tbl (α : Type) := List (Nat × α)

/-- Tower, partition or Marl stack number (R23, R24). -/
abbrev Tower := Fin 4
/-- Site number, 24 × tower + site-in-tower (R26). -/
abbrev Site := Fin 96
/-- Loess slice number: the number of the site above it (R26). -/
abbrev Slice := Fin 96
/-- Array number, 2 × site + a (R26). -/
abbrev Ary := Fin 192
/-- Group slot of a site (Table 5.1). -/
abbrev Slot := Fin 24
/-- DMA channel number, 4 × site + ch (R278). -/
abbrev Chan := Fin 384
/-- Context number (R243). -/
abbrev Ctx := Fin 64
/-- Class label (Table 0.7). -/
abbrev Cls := Fin 16
/-- Message queue number (R37). -/
abbrev Que := Fin 512
/-- Sync object number (R37). -/
abbrev Syn := Fin 4096
/-- Fabric port: 0 X+, 1 X-, 2 Y+, 3 Y-, 4 Z+, 5 Z- (R325). -/
abbrev Port := Fin 6
/-- Register requester (Table 0.5). -/
abbrev Req := Fin 7
/-- Marl physical channel, 17 × stack + channel (chapter 07, Registers). -/
abbrev MCh := Fin 68
/-- Temperature sensor number (Table 15.1). -/
abbrev Sensor := Fin 256
/-- Entry of a partition's admitted-task table (R281: 256 entries). -/
abbrev TaskIx := Fin 256

end Sys2Proof
end

