-- ==== Sys2Proof/Syntax.lean ====
section
/-! DEFINITION. The commands of the block, one constructor of `Instr` for each row of
spec/opcode_table.json, and the operand types they carry. The table gives its rows no operands and no
bits: the operands here are what the rules of each row name (the unit acted on, the value written, the
packet received) and what the physics outside the block decides (a sensor's reading, an error pattern,
whether a handshake stood). -/

namespace Sys2Proof

/-- The agents that issue requests to memory, queues and sync objects (R306, Table 10.11). -/
inductive Agent where
  | host
  | mgmt
  | pc (p : Tower)
  | group (site : Site) (slot : Slot)
  | array (a : Ary)
  | dma (ch : Chan)
  | remote (src : BitVec 16) (vl : Fin 6) (tid : BitVec 16)
  | coll (port : Port)
  | notice (q : Que)
deriving DecidableEq, Repr

/-- The access kinds a translation checks (Table 8.3, and the ACCESS codes of Table 8.5). -/
inductive Access where
  | read | write | fetch | atomic | hint | reduce
deriving DecidableEq, Repr

/-- Uses of a core's vertical port that come after the arrays: L1 fills and DMA reads on its read side, L1 and DMA writes on
its write side (R81, Table 2.10). -/
inductive PortUse where
  | l1Fill | dmaRead | l1Write | dmaWrite
deriving DecidableEq, Repr

/-- What the SEC-DED check of one stored word found beyond what the stored poison says (R217, R218). -/
inductive WordErr where
  | correctable | uncorrectable
deriving DecidableEq, Repr

/-- An error that has struck a stored 64-bit word: the word of the slice (in a walk's table line, of the line), its bit
position, and what the word's check finds from then on. -/
structure WordFault where
  word : Nat
  bit  : Fin 72
  err  : WordErr
deriving DecidableEq, Repr

/-- A symbol of a received codeword that differs from what was sent: its position and the difference. -/
structure SymErr where
  pos : Nat
  val : Byte
deriving DecidableEq, Repr

/-- Fabric packet: the header of Table 12.1 and the payload. -/
structure Pkt where
  op      : Byte
  flags   : Byte
  dl      : W32
  dst     : BitVec 16
  src     : BitVec 16
  tid     : BitVec 16
  status  : Byte
  arg     : Byte
  addr    : W64
  aux     : W64
  payload : List Byte
deriving DecidableEq, Repr

/-- Element type and operation of an atomic (Table 5.10). -/
structure AtomOp where
  aop : BitVec 4
  ty  : BitVec 3
deriving DecidableEq, Repr

/-- A home operation (R211): an atomic on one element, or a line reduction under an element mask. -/
inductive HomeOp where
  | atomic (op : AtomOp) (operand cmp : W64)
  | reduce (redOp redType : BitVec 2) (mask : List Byte) (line : List Byte)
deriving DecidableEq, Repr

/-- A request to a home: its address, size, agent, class label, RT flag and deadline field (R279). -/
structure HomeReq where
  who : Agent
  cls : Cls
  rt  : Bool
  dl  : W32
deriving DecidableEq, Repr

/-- Forms of the arithmetic classes of which R178 says something: integer division, and FP32 arithmetic, which honours
subnormals (Table 5.2 names divide, reciprocal and square root). Every other opcode is `other`; `unused` says that a field to
which its listing gives no use is not 0 (R180, log 7). -/
inductive VectorKind where
  | other (unused : Bool)
  | quotient | remainder
  | fadd | fsub | fmul | fma | fdiv | frecip | fsqrt
deriving DecidableEq, Repr

/-- Registers that an instruction of the classes 0x00 to 0x5F reads and writes: its listing is the toolchain's (log 7). -/
structure RegUse where
  reads  : List (Fin 256)
  writes : List (Fin 256)
deriving DecidableEq, Repr

/-- The values of the special-read instruction (R140). -/
inductive SpecialReg where
  | lane | group | slot | site | context | cls | deadlineLo | deadlineHi
deriving DecidableEq, Repr

/-- The shape of a load, store or line-discard instruction, whose listing is outside the manual:
direction and bytes per lane as a power of two (R155). -/
structure MemForm where
  store : Bool
  discard : Bool
  log2  : Fin 5
deriving DecidableEq, Repr

/-- The reconvergence point that the listing reads in a branch's word (R151, R152); `unused` says that a field to which it
gives no use is not 0 (R180, log 7). -/
structure JoinAt where
  at_    : BitVec 48
  unused : Bool
deriving DecidableEq, Repr

/-- An instruction word whose opcode's listing is outside the manual, with what the listing says of it (log 7). -/
structure ListedOp where
  word : W64
  kind : VectorKind
deriving DecidableEq, Repr

/-- A home operation as it is asked for: `ret` says that it returns a value, `later` that it only becomes pending at its line now
and commits in a later step (log 18). -/
structure HomeAsk where
  op    : HomeOp
  ret   : Bool
  later : Bool
deriving DecidableEq, Repr

/-- What one scrub access of a slice meets: errors that have struck stored words, and the copies of the tag entries that it finds
lost (R222). -/
structure ScrubErrs where
  words : List WordFault
  tags  : BitVec 2
deriving DecidableEq, Repr

/-- The next row of a stack's move, whether it takes the channel's scrub reservation or an idle slot, and the symbol errors that
its codewords meet, by codeword (R236, R287). -/
structure RowCopy where
  stack : Tower
  reserved : Bool
  errs  : List (BitVec 34 × SymErr)
deriving DecidableEq, Repr

/-- What the sweeps of BUNDLE_CAL find, as lowest passing tap and window: for the bundles listed, and for every other (R402). -/
structure CalSweeps where
  listed : List (Site × Fin 8 × Fin 33 × BitVec 7 × Byte)
  rest   : BitVec 7 × Byte
deriving DecidableEq, Repr

/-- The kinds of array access that a walk serves (save area offset 0x0060 of Table 3.8). -/
inductive ArrayAccess where
  | stationary | streamed | scale | destination
deriving DecidableEq, Repr

/-- An event of training and what it found (Table 11.6 events 1 to 6): beacons seen; lane directions that locked; lane
directions that equalised, as both ends agree over the back channel; the markers read on the receive lanes and the pairs found
inverted; bit errors of each lane direction in the 10 ms of test frames; the PHY's asymmetry and the duration in µs. -/
inductive TrainStage where
  | detect (seen : BitVec 9)
  | lock (tx rx : BitVec 9)
  | equalise (tx rx : BitVec 9)
  | order (markers : List Byte) (flip : BitVec 9)
  | verify (errTx errRx : List Nat)
  | timing (asym micros : W32)
deriving DecidableEq, Repr

/-- Time exchange payload fields used by R384 and R385 (Table 12.7). -/
structure TimeXPayload where
  txTs  : W64
  rxTs  : W64
  txSeq : BitVec 16
  rxSeq : BitVec 16
  asym  : W32
  root  : BitVec 16
  dist  : Byte
deriving DecidableEq, Repr

/-- A PCIe configuration register as the function answers it (R472, R473). -/
inductive CfgReg where
  | ids | commandStatus | classRevision | bar0Lo | bar0Hi | bar2Lo | bar2Hi | otherBar | subsystem
  | msixControl | pmControl | devControl | serialLo | serialHi | aerUncorrectable | aerCorrectable
  | vsecHstId | vsecBruStatus | other (offset : BitVec 12)
deriving DecidableEq, Repr

/-- A BAR access: a read of `len` bytes or a write of `data` with its byte enables. -/
inductive BarOp where
  | read (len : Nat)
  | write (data : List Byte) (enables : List Bool)
deriving DecidableEq, Repr

/-- A cold or warm result of one spare or test engine: the failing units that MEMORY_TEST reports. -/
inductive MemFail where
  | loessRow (slice : Slice) (bank : Fin 64) (row : BitVec 16)
  | loessColumn (slice : Slice) (bank : Fin 64) (group : BitVec 16)
  | marlRow (ch : MCh) (layer : Fin 12) (bank : Fin 16) (row : BitVec 12)
  | marlChannel (ch : MCh)
  | loessDie (t : Tower)
deriving DecidableEq, Repr

/-- An engine that failed Kaolin (Table 13.10). -/
inductive KaolinFail where
  | security
  | site (s : Site)
  | coll (p : Port)
  | governor (p : Tower)
  | hashUnit (p : Tower)
deriving DecidableEq, Repr

/-- FW packet payload (Table 13.11). -/
structure FwPayload where
  kind    : Byte
  fwDist  : Byte
  seq     : W32
  imageId : W64
  size    : W32
  chunks  : W32
  body    : List Byte
deriving DecidableEq, Repr

/-- The commands of the block. Each constructor's comment gives its row's mnemonic. -/
inductive Instr where
  -- registers, selectors, time (chapters 00, 02, 10)
  | registerWrite (r : Req) (win : Fin 4096) (off : BitVec 16) (val : W32) (narrow : Bool)
  | selectorWrite (r : Req) (unit : Fin 16) (val : W32)
  | sktTimeLoRead (r : Req)
  | synValueLoRead (r : Req)
  -- tasks and admission (chapters 01, 09)
  | taskNoticeTake (p : Tower)
  | windowSetup (p : Tower) (e : TaskIx)
  | groupPlace (p : Tower) (e : TaskIx)
  | taskCompletion (p : Tower) (e : TaskIx)
  | windowEndDemote (p : Tower) (e : TaskIx)
  | deadlineExpiry (p : Tower) (e : TaskIx)
  | taskFaultEnd (p : Tower) (e : TaskIx)
  | beWorkRestore (p : Tower)
  -- rates, power, time base (chapters 02, 15)
  | probeReading (probe : Fin 192) (last low : BitVec 11)
  | governorPeriod (p : Tower)
  | floorFault (p : Tower)
  | floorFaultClear (p : Tower)
  | pacerRelease (p : Tower) (pipe : Nat)
  | allotmentUpdate
  | ladderStageDown (p : Tower)
  | avsCommand (iface : Fin 5) (rail : Fin 6) (cmd : Fin 5) (data : BitVec 16)
  | avsResponseTimeout (iface : Fin 5)
  | regulatorStatusPoll (iface : Fin 5) (rail : Fin 6) (fault : Bool)
  | vmonSample (t : Tower) (m : Fin 6) (mv : BitVec 11)
  | ageingDetect (p : Tower)
  | tbRefLoss
  | tbRefRestore
  | timeMarkSend (port : Port)
  | timeX (port : Port) (x : TimeXPayload) (flags : Byte)
  -- vertical bundles (chapter 02)
  | bundleRotationStart (site : Site) (group : Fin 8) (low : BitVec 32)
  | rotationCompare (site : Site) (group : Fin 8) (equal : Bool)
  | bundleSweep (site : Site) (group : Fin 8) (bundle : Fin 33) (pass : Option (BitVec 7 × Byte))
  | bundleRepair (site : Site) (group : Fin 8) (bundle : Fin 33) (failing : List (Fin 34))
  | groupSpareLost (site : Site) (group : Fin 8)
  -- matrix arrays (chapter 03)
  | apost (site : Site) (slot : Slot) (w : W64)
  | apostSlotFree (site : Site) (slot : Slot)
  | arrayPass (a : Ary)
  | arraySync (a : Ary)
  | accOut (a : Ary)
  | arrayStep (a : Ary) (feed scales : Bool)
  | drainBlockCommit (a : Ary)
  | arrayPassComplete (a : Ary)
  | arrayWalkDone (a : Ary) (kind : ArrayAccess) (va : BitVec 48)
  | arrayReadError (a : Ary)
  | aryStop (r : Req) (a : Ary) (cause : BitVec 3)
  | arySaveDone (a : Ary)
  | aryResume (r : Req) (a : Ary) (cause : BitVec 3)
  | aryRestoreDone (a : Ary) (returned : Bool)
  | aryDiscard (r : Req) (a : Ary)
  | aryFlush (r : Req) (a : Ary)
  | aryClrHalt (r : Req) (a : Ary)
  | arySaveBaseWrite (r : Req) (a : Ary) (hi : Bool) (val : W32)
  | arySrSeedHiWrite (r : Req) (a : Ary) (val : W32)
  -- thread groups (chapter 05)
  | instructionIssue (site : Site) (ready : List (Slot × RegUse))
  | groupActivate (site : Site) (ready : List Slot)
  | activeSlotRelease (site : Site) (ready : List Slot)
  | vectorArith (site : Site) (slot : Slot) (w : W64) (kind : VectorKind) (wide : Bool)
  | specialFunction (site : Site) (slot : Slot) (op : ListedOp)
  | contextLoadStore (site : Site) (slot : Slot) (w : W64) (form : MemForm) (parity : Bool)
  | sharedLoadStore (site : Site) (slot : Slot) (w : W64) (store : Bool) (log2 : Fin 5)
  | branch (site : Site) (slot : Slot) (w : W64) (target : BitVec 48) (join : JoinAt) (cond : Fin 16) (neg : Bool)
  | indirectBranch (site : Site) (slot : Slot) (w : W64) (join : JoinAt)
  | exit (site : Site) (slot : Slot) (w : W64)
  | trap (site : Site) (slot : Slot) (w : W64)
  | specialRead (site : Site) (slot : Slot) (w : W64) (which : SpecialReg)
  | shfl (site : Site) (slot : Slot) (w : W64)
  | vote (site : Site) (slot : Slot) (w : W64)
  | mma (site : Site) (slot : Slot) (w : W64)
  | atom (site : Site) (slot : Slot) (w : W64)
  | red (site : Site) (slot : Slot) (w : W64)
  | atomSerial (site : Site) (slot : Slot) (w : W64)
  | fence (site : Site) (slot : Slot) (w : W64)
  | bar (site : Site) (slot : Slot) (w : W64)
  | time (site : Site) (slot : Slot) (w : W64)
  | loadReply (site : Site) (slot : Slot) (ix : Nat)
  | homePortGuardGrant (site : Site) (use : PortUse)
  | slmDmaGuardGrant (site : Site) (bank : Fin 32) (needed : Bool)
  -- Loess memory (chapter 06)
  | sliceRead (slice : Slice) (x : BitVec 26) (len : Nat) (who : Agent) (errs : List WordFault)
  | sliceWrite (slice : Slice) (x : BitVec 26) (data : List Byte) (who : Agent)
  | cacheRead (addr : BitVec 40) (len : Nat) (rq : HomeReq) (errs : List WordFault)
  | cacheWrite (addr : BitVec 40) (data : List Byte) (rq : HomeReq)
  | marlFillReturn (slice : Slice) (line : BitVec 32)
  | writebackAck (slice : Slice) (line : BitVec 32)
  | sliceInputRelease (slice : Slice)
  | homeOperation (addr : BitVec 40) (ask : HomeAsk) (rq : HomeReq)
  | deadLineHint (addr : BitVec 40) (ctx : Ctx)
  | lssFlushStart (r : Req) (val : W32)
  | lssFlushDone (t : Tower)
  | loessCorrectionWriteback (slice : Slice)
  | tagLoss (slice : Slice) (set : BitVec 14)
  | scrubAccess (slice : Slice) (reserved : Bool) (errs : ScrubErrs)
  -- Marl memory (chapter 07)
  | marlRead (line : BitVec 32) (errs : List (Fin 4 × SymErr))
  | marlWrite (cw : BitVec 34) (data : List Byte) (poison : Bool)
  | marlPartialWrite (cw : BitVec 34) (words : BitVec 8) (data : List Byte) (errs : List SymErr)
  | marlCorrectionWriteback (ch : MCh)
  | wireCounterDecay
  | wireMark (ch : MCh) (wire : Fin 68)
  | migrationRowCopy (copy : RowCopy)
  | refreshCommand (stack : Tower) (layer : Fin 12) (bank : Fin 16)
  | marlScrubAccess (ch : MCh) (reserved : Bool) (errs : List (Fin 4 × SymErr))
  | marlRowRepair (ch : MCh) (layer : Fin 12) (bank : Fin 16) (row : BitVec 12)
  -- contexts, translation, faults, pre-emption (chapter 08)
  | xltCtxCfgWrite (r : Req) (ctx : Ctx) (val : W32)
  | translationWalk (site : Site) (who : Agent) (ctx : Ctx) (va : BitVec 48) (acc : Access) (err : Bool)
  | faultRecordDeliver (p : Tower)
  | invalidationStart (r : Req) (val : W32)
  | invalidationDone (r : Req)
  | preempt (r : Req) (site : Site)
  | coreSaveDone (site : Site)
  | restore (r : Req) (site : Site)
  | coreRestoreDone (site : Site)
  | grpResume (r : Req) (site : Site) (slot : Slot)
  | grpKill (r : Req) (site : Site) (slot : Slot)
  -- DMA (chapter 08)
  | dpost (site : Site) (slot : Slot) (w : W64)
  | dpostSlotFree (site : Site) (slot : Slot)
  | dmaCopy (ch : Chan)
  | dmaFill (ch : Chan)
  | dmaReduce (ch : Chan)
  | dmaDiscard (ch : Chan)
  | dmaSync (ch : Chan)
  | dmaElementIssue (ch : Chan)
  | dmaElementCommit (ch : Chan) (k : Nat)
  | dmaBusError (ch : Chan) (k : Nat)
  | dmaCtrlResume (r : Req) (ch : Chan)
  | dmaCtrlDiscard (r : Req) (ch : Chan)
  | dmaCtrlFlush (r : Req) (ch : Chan)
  | dmaCtrlClrHalt (r : Req) (ch : Chan)
  -- abort (chapter 08)
  | abortContext (r : Req) (ctx : Ctx) (tag : BitVec 16)
  | abortPartition (r : Req) (target : BitVec 6) (tag : BitVec 16)
  | abortDevice (r : Req) (tag : BitVec 16)
  | abortForceHoldouts (ix : Nat)
  | abortComplete (ix : Nat)
  | abortEscalation (site : Site)
  -- queues and sync objects (chapter 10)
  | queueAppend (who : Agent) (q : Que) (word : Line) (bad : Bool)
  | queueClose (who : Agent) (q : Que) (word : Line) (bad : Bool)
  | queueTake (who : Agent) (q : Que)
  | queueClear (who : Agent) (q : Que) (val : W64)
  | queueSpaceRelease (p : Tower) (who : Agent) (q : Que)
  | packetTimeout (p : Tower) (who : Agent) (q : Que)
  | syncSignal (who : Agent) (o : Syn) (val : W64)
  | syncWait (who : Agent) (o : Syn) (threshold : W64) (timeout : BitVec 12)
  | syncTest (who : Agent) (o : Syn)
  | syncReset (who : Agent) (o : Syn)
  | syncArm (who : Agent) (o : Syn) (threshold : W64)
  | syncWaitTimeout (o : Syn) (who : Agent)
  | syncObjectFail (o : Syn)
  | qput (site : Site) (slot : Slot) (w : W64)
  | qget (site : Site) (slot : Slot) (w : W64)
  | ssig (site : Site) (slot : Slot) (w : W64)
  | swait (site : Site) (slot : Slot) (w : W64)
  | stest (site : Site) (slot : Slot) (w : W64)
  | srst (site : Site) (slot : Slot) (w : W64)
  -- lanes and links (chapter 11)
  | frameReceive (port : Port) (lanes : List (List Byte)) (dark : BitVec 9)
  | markerCodeAccept (port : Port)
  | flitReceive (port : Port) (flit : List Byte)
  | flitSlotTransmit (port : Port)
  | replayStart (port : Port)
  | noDecodeTimeout (port : Port)
  | retrain (port : Port)
  | portTraining (port : Port) (x : TrainStage)
  | initReceive (port : Port) (payload : List Byte)
  | laneFail (port : Port) (logical : Fin 8)
  | laneReplace (port : Port) (rx : Bool) (logical : Fin 8)
  | widthDegrade (port : Port)
  | standbyRetune (port : Port) (lane : Fin 9)
  | linkEnable (r : Req) (port : Port)
  | linkDisable (r : Req) (port : Port)
  | linkRetrain (r : Req) (port : Port)
  | mgmtQueueArrive (src : Fin 7) (pkt : Pkt)
  -- network and transport (chapter 12)
  | packetRoute (inPort : Option Port) (vl : Fin 6) (pkt : Pkt)
  | fabricPut (vl : Fin 6) (pkt : Pkt)
  | fabricGet (vl : Fin 6) (pkt : Pkt)
  | fabricAtomic (vl : Fin 6) (pkt : Pkt)
  | fabricReduce (vl : Fin 6) (pkt : Pkt)
  | fabricSyncSignal (vl : Fin 6) (pkt : Pkt)
  | fabricSyncWait (vl : Fin 6) (pkt : Pkt)
  | fabricSyncTest (vl : Fin 6) (pkt : Pkt)
  | fabricSyncReset (vl : Fin 6) (pkt : Pkt)
  | fabricQmsg (vl : Fin 6) (pkt : Pkt)
  | collReady (port : Port) (pkt : Pkt)
  | collChunk (port : Port) (pkt : Pkt)
  | collCancel (port : Port) (pkt : Pkt)
  | fabricRequestIssue (t : Tower) (who : Agent) (pkt : Pkt)
  | fabricAck (t : Tower) (pkt : Pkt)
  | fabricData (t : Tower) (pkt : Pkt)
  | fabricNack (t : Tower) (pkt : Pkt)
  | requestTimeout (t : Tower) (tid : Fin 4096)
  | nackRetry (t : Tower) (tid : Fin 4096)
  | requestGiveUp (t : Tower) (tid : Fin 4096)
  | collQueueTake (p : Tower) (copyAt : BitVec 40)
  | abfCollPostHiWrite (r : Req) (port : Port) (val : W32)
  | collStart (port : Port)
  | collRound (port : Port)
  | collTimeout (port : Port)
  | mgmtHello (port : Port) (payload : List Byte)
  | mgmtLink (payload : List Byte)
  | cmdRegRead (cmd : List Byte)
  | cmdRegWrite (cmd : List Byte)
  | cmdAbort (cmd : List Byte)
  | cmdReset (cmd : List Byte)
  | cmdAttest (cmd : List Byte)
  -- bring-up (chapter 13)
  | powerOn (tbRef : Bool) (straps : BitVec 4)
  | optionsRead
  | imageVerify
  | memoryTest (fails : List MemFail)
  | bundleCal (sweeps : CalSweeps)
  | kaolin (fails : List KaolinFail)
  | distribute
  | config
  | ready
  | fwAnnounce (port : Port) (x : FwPayload)
  | fwRequest (port : Port) (x : FwPayload)
  | fwData (port : Port) (x : FwPayload)
  | fwEnd (port : Port) (x : FwPayload)
  | fwNeed (port : Port) (x : FwPayload)
  | fwDone (port : Port) (x : FwPayload)
  | announceTimer
  | fwChunkTimeout
  | noUpstreamTimeout
  | stageHoldEnd
  | fuseWindowOpen
  | flashWindowOpen
  | attestSignDone
  -- reset and repair (chapter 14)
  | perstNAssert
  | perstNDeassert
  | rstRequestL0 (r : Req) (key : Byte) (target : Byte)
  | rstRequestL1 (r : Req) (key : Byte) (target : Byte)
  | rstRequestL2 (r : Req) (key : Byte) (target : Byte)
  | rstRequestL3 (r : Req) (key : Byte)
  | rstRequestL4 (r : Req) (key : Byte)
  | partitionResetRelease (p : Tower) (hashOk : Bool)
  | l3DrainEnd
  | l4Release
  | partitionWatchdogExpiry (p : Tower)
  | mgmtWatchdogExpiry
  | rstWdogKick (r : Req) (val : W32)
  | blockResetAry0 (r : Req) (site : Site)
  | blockResetAry1 (r : Req) (site : Site)
  | blockResetDma (r : Req) (site : Site)
  | blockResetTge (r : Req) (site : Site)
  | blockResetL1 (r : Req) (site : Site)
  | blockResetXlt (r : Req) (site : Site)
  | blockResetColl (r : Req) (port : Port)
  | blockResetDone (coll : Bool) (unit : Fin 96) (block : Fin 6)
  | siteRetire (r : Req) (site : Site)
  | retireSpareReady (site : Site) (pass : Bool)
  | siltTrapDiscard (who : Agent) (gen : BitVec 2)
  | loessRowRepair (slice : Slice) (bank : Fin 64) (row : BitVec 16)
  | loessColumnRepair (slice : Slice) (bank : Fin 64) (group : BitVec 16)
  | repairLogWrite
  -- thermal (chapter 15)
  | sensorSample (i : Sensor) (raw : Option (BitVec 16))
  | sensorSuspect (i : Sensor)
  | sensorRecover (i : Sensor)
  | orderlyStopCutoff
  | orderlyStopHalt
  | haltRecovery
  | tripLatchClear
  -- host port (chapter 16)
  | pcieConfigRequest (reg : CfgReg) (write : Option W32)
  | bar0Access (off : BitVec 26) (op : BarOp)
  | bar2Access (off : BitVec 32) (op : BarOp) (ep : Bool)
  | functionLevelReset
  | hotReset
  | pcieLinkDown
  | d3hotEntry
  | d0Return
  | msixPendingSend (v : Fin 64)
  | hstEventWrite (r : Req) (val : W32)
  | hstSynFiredRead (r : Req)
  | doeDiscovery (index : Byte)
  | doeAttest (payload : List Byte)
  | doeIdkey (payload : List Byte)
  | doeAbort
  | flashRead (r : Req) (ctrl : W32)
  | flashProgram (r : Req) (ctrl : W32)
  | flashErase4k (r : Req) (ctrl : W32)
  | flashErase64k (r : Req) (ctrl : W32)
  | flashOpDone (error : Bool)
  | i3cDynamicAddress (setdasa : Bool) (addr : BitVec 7)
  | i3cSetIndex (ix : Byte)
  | i3cRead (words : Nat)
  | i3cTelemetryRefresh
  | jtagBypass
  | jtagIdcode
  | jtagSamplePreload (preload : Option (List (Nat × Bool)))
  | jtagExtest
  | jtagClamp
  | jtagHighz
  | jtagExtestPulse
  | jtagExtestTrain
  | jtagRegAccess (win : Fin 4096) (off : BitVec 16) (write : Option W32)
  | jtagTestLogicReset
  -- supplies and links after reset (chapters 05, 13, 14, 16, 17)
  | vaonLoss
  | vioLoss
  | siteResetDone (site : Site)
  | mgmtWatchdogRearm
  | storeAcknowledge (site : Site) (slot : Slot) (err : Option (BitVec 48))
  | persistWriteDone
  | pcieLinkUp (flitMode : Bool)
  | vioReturn
deriving DecidableEq, Repr

end Sys2Proof
end

