-- ==== Sys2Proof/Decode.lean ====
section
/-! DEFINITION. The table's words. spec/opcode_table.json gives none of its rows any bits (every row's
`fields` list is empty and none has a match or a mask), so no word spells a command. -/

namespace Sys2Proof

/-- The command that the word `w` of `nbits` bits spells by the table's bits: none, for every word, since
the table gives no row bits (log 15). -/
def decodeTableWord (_nbits _w : Nat) : Option Instr := none

end Sys2Proof
end

