-- ==== Sys2Proof/Machine/Bits.lean ====
section
/-! DEFINITION. Bit fields, byte order, and the words of a 64-byte line. -/

namespace Sys2Proof.Machine
open Sys2Proof

/-- Bits `hi` to `lo` of the number `v`. -/
def bits (v hi lo : Nat) : Nat := (v >>> lo) % 2 ^ (hi + 1 - lo)

/-- Bit `i` of the number `v`. -/
def bit (v i : Nat) : Bool := v.testBit i

/-- 1 for `true`. -/
def b2n (b : Bool) : Nat := if b then 1 else 0

/-- The register whose fields, each a value and the place of its lowest bit, do not overlap. -/
def pack (fs : List (Nat × Nat)) : W32 :=
  BitVec.ofNat 32 (fs.foldl (fun a f => a + f.1 * 2 ^ f.2) 0)

/-- `n` bytes of the number `v`, least significant first (R9, Table 0.3). -/
def leBytes : Nat → Nat → List Byte
  | 0, _ => []
  | n + 1, v => BitVec.ofNat 8 v :: leBytes n (v / 256)

/-- The number whose bytes, least significant first, are given. -/
def ofLe : List Byte → Nat
  | [] => 0
  | b :: bs => b.toNat + 256 * ofLe bs

/-- Word `i` of a line; 0 where the list is shorter. -/
def lw (l : Line) (i : Nat) : W64 := l.getD i 0

/-- Bits `hi` to `lo` of word `i` of a line. -/
def lf (l : Line) (i hi lo : Nat) : Nat := bits (lw l i).toNat hi lo

/-- The 64 bytes of a line. -/
def lineBytes (l : Line) : List Byte := (List.range 8).flatMap fun i => leBytes 8 (lw l i).toNat

/-- The 64-bit words of a byte list, least significant byte first. -/
def bytesWords : List Byte → List W64
  | b0 :: b1 :: b2 :: b3 :: b4 :: b5 :: b6 :: b7 :: r =>
    BitVec.ofNat 64 (ofLe [b0, b1, b2, b3, b4, b5, b6, b7]) :: bytesWords r
  | _ => []

/-- A 64-byte line of the given words, filled with 0. -/
def mkLine (ws : List W64) : Line := (List.range 8).map fun i => ws.getD i 0

/-- The line of 64 bytes. -/
def bytesLine (b : List Byte) : Line := mkLine (bytesWords (b ++ List.replicate (64 - b.length) 0))

/-- Set bytes from offset `o` of a byte list. -/
def setBytes (l : List Byte) (o : Nat) (bs : List Byte) : List Byte :=
  l.take o ++ bs ++ l.drop (o + bs.length)

/-- A two's-complement number of `n` bits as an integer. -/
def toInt (n v : Nat) : Int := if v % 2 ^ n < 2 ^ (n - 1) then (v % 2 ^ n : Nat) else (v % 2 ^ n : Nat) - (2 ^ n : Nat)

/-- An integer reduced to `n` bits. -/
def ofInt (n : Nat) (i : Int) : Nat := (i % (2 ^ n : Nat)).toNat

/-- Saturating increment of a 32-bit counter. -/
def incW (c : W32) (n : Nat := 1) : W32 :=
  if c.toNat + n < 2 ^ 32 then BitVec.ofNat 32 (c.toNat + n) else BitVec.allOnes 32

/-- The CRC-32C register after one byte (reflected form, polynomial 0x82F6_3B78). -/
def crcByte (c : Nat) (b : Byte) : Nat :=
  (List.range 8).foldl (fun c _ => if c % 2 = 1 then (c / 2) ^^^ 0x82F63B78 else c / 2) (c ^^^ b.toNat)

/-- CRC-32C of a byte list (initial value and final inversion all ones). -/
def crc32c (bs : List Byte) : Nat := (bs.foldl crcByte 0xFFFFFFFF) ^^^ 0xFFFFFFFF

/-- Replace element `i` of a list. -/
def setAt {α : Type} : List α → Nat → α → List α
  | [], _, _ => []
  | _ :: l, 0, v => v :: l
  | x :: l, n + 1, v => x :: setAt l n v

/-- Remove element `i` of a list. -/
def dropAt {α : Type} : List α → Nat → List α
  | [], _ => []
  | _ :: l, 0 => l
  | x :: l, n + 1 => x :: dropAt l n

/-- Remove the first element that satisfies `p`. -/
def dropFirst {α : Type} (p : α → Bool) : List α → List α
  | [] => []
  | x :: l => if p x then l else x :: dropFirst p l

/-- Set bit `i` of a bit vector. -/
def setBit {n : Nat} (v : BitVec n) (i : Nat) (b : Bool) : BitVec n :=
  if b then v ||| (1#n <<< i) else v &&& ~~~(1#n <<< i)

/-- Whether a bit vector's bit `i` is set. -/
def getBit {n : Nat} (v : BitVec n) (i : Nat) : Bool := v.getLsbD i

/-- `v` rounded up to a multiple of `m`. -/
def roundUp (v m : Nat) : Nat := (v + m - 1) / m * m

end Sys2Proof.Machine
end

