-- ==== Sys2Proof/Machine/Codes.lean ====
section
/-! DEFINITION. The symbol codes of the block over GF(2⁸): the RS(68,64) code of a Marl codeword
(R230 to R232) and the RS(167,160) code of a frame (R330). Symbols are numbers below 256. -/

namespace Sys2Proof.Machine
open Sys2Proof

/-- One doubling modulo the field polynomial x⁸ + x⁴ + x³ + x² + 1 (R230). -/
def gfDouble (a : Nat) : Nat := if a < 128 then 2 * a else ((2 * a) ^^^ 0x11D) % 256

/-- Product in GF(2⁸), Horner's rule over the bits of `b`. -/
def gfMul (a b : Nat) : Nat :=
  (List.range 8).foldl (fun acc i => (gfDouble acc) ^^^ (if b.testBit (7 - i) then a else 0)) 0

/-- `n` doublings of 1: α to the power `n`. -/
def gfExp : Nat → Nat
  | 0 => 1
  | n + 1 => gfDouble (gfExp n)

/-- The `n`-th power. -/
def gfPow (a : Nat) : Nat → Nat
  | 0 => 1
  | n + 1 => gfMul a (gfPow a n)

/-- The inverse of a symbol that is not 0: its 254th power, by squares. -/
def gfInv (a : Nat) : Nat :=
  let a2 := gfMul a a
  let a4 := gfMul a2 a2
  let a8 := gfMul a4 a4
  let a16 := gfMul a8 a8
  let a32 := gfMul a16 a16
  let a64 := gfMul a32 a32
  let a128 := gfMul a64 a64
  gfMul a2 (gfMul a4 (gfMul a8 (gfMul a16 (gfMul a32 (gfMul a64 a128)))))

/-- Value at `x` of the polynomial whose coefficients are given, highest power first. -/
def gfEval (x : Nat) (cs : List Nat) : Nat := cs.foldl (fun acc c => (gfMul acc x) ^^^ c) 0

/-- The generator's coefficients below its leading 1, highest power first: the product of
x + α⁰ up to x + α^(n − 1). -/
def rsGen : Nat → List Nat
  | 0 => []
  | n + 1 =>
    let g := rsGen n
    let r := gfExp n
    -- (x^n + g) (x + r): shift and add
    (List.range (n + 1)).map fun i =>
      (g.getD i 0) ^^^ gfMul r (if i = 0 then 1 else g.getD (i - 1) 0)

/-- Check symbols, highest power first: the remainder of the message (highest power first) times
x^n divided by the generator. -/
def rsCheck (n : Nat) (msg : List Nat) : List Nat :=
  let g := rsGen n
  msg.foldl (fun rem m =>
    let f := m ^^^ rem.headD 0
    (List.range n).map fun i => (rem.getD (i + 1) 0) ^^^ gfMul f (g.getD i 0))
    (List.replicate n 0)

/-- The syndromes of a received word, highest power first: its values at α⁰ up to α^(n − 1). -/
def rsSyndromes (n : Nat) (word : List Nat) : List Nat :=
  (List.range n).map fun j => gfEval (gfExp j) word

/-- Syndromes with the contribution of the locator `x` removed; one fewer of them. -/
def gfKill (x : Nat) : List Nat → List Nat
  | a :: b :: r => (b ^^^ gfMul x a) :: gfKill x (b :: r)
  | _ => []

/-- The working values of the locator search. -/
structure Bm where
  c : List Nat
  b : List Nat
  l : Nat
  m : Nat
  d : Nat
deriving DecidableEq, Repr

/-- `c + k x^m b` on coefficient lists, lowest power first. -/
def gfAddShift (c b : List Nat) (k m : Nat) : List Nat :=
  (List.range (max c.length (b.length + m))).map fun i =>
    (c.getD i 0) ^^^ (if i < m then 0 else gfMul k (b.getD (i - m) 0))

/-- One step of the locator search (Berlekamp and Massey) at syndrome `n`. -/
def bmStep (s : List Nat) (x : Bm) (n : Nat) : Bm :=
  let dis := (List.range x.l).foldl
    (fun a i => a ^^^ gfMul (x.c.getD (i + 1) 0) (s.getD (n - (i + 1)) 0)) (s.getD n 0)
  if dis = 0 then { x with m := x.m + 1 }
  else
    let c' := gfAddShift x.c x.b (gfMul dis (gfInv x.d)) x.m
    if 2 * x.l ≤ n then { c := c', b := x.c, l := n + 1 - x.l, m := 1, d := dis }
    else { x with c := c', m := x.m + 1 }

/-- The error locator of a list of syndromes, lowest power first, and its degree. -/
def bmRun (s : List Nat) : List Nat × Nat :=
  let r := (List.range s.length).foldl (bmStep s) { c := [1], b := [1], l := 0, m := 1, d := 1 }
  (r.c, r.l)

/-- The value at locator `x` of an error pattern on the locators `xs` with syndromes `s`. -/
def rsValue (s xs : List Nat) (x : Nat) : Nat :=
  let others := xs.filter (· ≠ x)
  let t := others.foldl (fun t y => gfKill y t) s
  let den := others.foldl (fun a y => gfMul a (x ^^^ y)) 1
  gfMul (t.headD 0) (gfInv den)

/-- Decode a word of `len` positions (position `i` is the power x^i) with syndromes `s`: symbol errors
at unknown positions together with erasures at the marked positions `marks`, while twice the errors
plus the erasures is at most the number of syndromes (R232). The answer lists the positions with the
differences found there; none when decoding fails. -/
def rsDecode (len : Nat) (marks s : List Nat) : Option (List (Nat × Nat)) :=
  if s.all (· = 0) then some []
  else
    let mx := marks.map gfExp
    let t := mx.foldl (fun t y => gfKill y t) s
    let (lam, l) := bmRun t
    if (s.length - marks.length) / 2 < l then none
    else
      let roots := (List.range len).filter fun i =>
        l ≠ 0 && !(marks.contains i) && gfEval (gfInv (gfExp i)) (lam.reverse) = 0
      if roots.length ≠ l then none
      else
        let ps := marks ++ roots
        let xs := ps.map gfExp
        let vs := ps.map fun i => (i, rsValue s xs (gfExp i))
        let back := (List.range s.length).map fun j =>
          vs.foldl (fun a v => a ^^^ gfMul v.2 (gfPow (gfExp v.1) j)) 0
        if back = s then some (vs.filter (·.2 ≠ 0)) else none

/-! ### The Marl codeword (Table 7.2) -/

/-- The 69 symbols of a codeword in position order: check symbols, data bytes, poison symbol. -/
def marlEncode (data : List Byte) (poison : Bool) : List Nat :=
  let msg := (if poison then 1 else 0) :: (data.reverse.map (·.toNat))
  (rsCheck 4 msg).reverse ++ data.map (·.toNat) ++ [if poison then 1 else 0]

/-- What decoding of a codeword found (R232). -/
inductive MarlOutcome where
  | clean
  | corrected (positions : List Nat)
  | poisoned (positions : List Nat)
  | uncorrectable
deriving DecidableEq, Repr

/-- Decode a stored codeword: the 68 stored symbols with the poison symbol implied 0, marked positions
as erasures. The second part is the 64 data symbols after correction, or as read (R232 to R234). -/
def marlDecode (marks : List Nat) (word68 : List Nat) : MarlOutcome × List Byte :=
  let s := rsSyndromes 4 (0 :: word68.reverse)
  let asRead := (word68.drop 4).map fun v => BitVec.ofNat 8 v
  match rsDecode 69 marks s with
  | none => (.uncorrectable, asRead)
  | some es =>
    let fixed := es.foldl (fun w e => setAt w e.1 ((w.getD e.1 0) ^^^ e.2)) word68
    let data := (fixed.drop 4).map fun v => BitVec.ofNat 8 v
    match es.find? (·.1 = 68) with
    | some (_, v) => if v = 1 then (.poisoned ((es.map (·.1)).filter (· ≠ 68)), data) else (.uncorrectable, asRead)
    | none => (if es = [] then .clean else .corrected (es.map (·.1)), data)

/-- The positions of the wires marked on a channel: check wire `k` is position `k`, data wire `j` is
position `4 + j` (Tables 7.2, 7.8). -/
def wirePos (w : Nat) : Nat := if w < 64 then w + 4 else w - 64

/-- The wire of a position. -/
def posWire (p : Nat) : Nat := if p < 4 then 64 + p else p - 4

/-! ### The frame codeword (R330) -/

/-- Encode 160 data symbols: code position p is the power x^(166 − p). -/
def frameEncode (data : List Byte) : List Byte :=
  data ++ ((rsCheck 7 (data.map (·.toNat))).map fun v => BitVec.ofNat 8 v)

/-- Decode a received codeword of 167 symbols: the 160 data symbols and the code positions corrected;
none when uncorrectable. -/
def frameDecode (word : List Byte) : Option (List Byte × List Nat) :=
  let w := word.map (·.toNat)
  match rsDecode 167 [] (rsSyndromes 7 w) with
  | none => none
  | some es =>
    let fixed := es.foldl (fun w e => setAt w (166 - e.1) ((w.getD (166 - e.1) 0) ^^^ e.2)) w
    some ((fixed.take 160).map fun v => BitVec.ofNat 8 v, es.map fun e => 166 - e.1)

end Sys2Proof.Machine
end

