-- ==== Sys2Proof/Machine/Numerics.lean ====
section
/-! DEFINITION. Numbers as the arithmetic of the block computes them (chapter 04): every operand is
decoded to an exact value, sums and products are exact, and one rounding narrows the result. -/

namespace Sys2Proof.Machine
open Sys2Proof

/-- An exact value: NaN, an infinity, or sign, magnitude `m` and power of two `e`. -/
inductive Num where
  | nan
  | inf (neg : Bool)
  | fin (neg : Bool) (m : Nat) (e : Int)
deriving DecidableEq, Repr

/-- +0. -/
def Num.zero : Num := .fin false 0 0

/-- An integer as an exact value. -/
def Num.ofInt (i : Int) : Num := .fin (decide (i < 0)) i.natAbs 0

/-- Exact product (R120, R123: an infinity times zero is NaN). -/
def Num.mul : Num → Num → Num
  | .nan, _ => .nan
  | _, .nan => .nan
  | .inf a, .inf b => .inf (a != b)
  | .inf a, .fin b m _ => if m = 0 then .nan else .inf (a != b)
  | .fin a m _, .inf b => if m = 0 then .nan else .inf (a != b)
  | .fin a m e, .fin b n f => .fin (a != b) (m * n) (e + f)

/-- Exact sum (R123: opposite infinities give NaN). An exact zero from operands that are not both
negative is +0. -/
def Num.add : Num → Num → Num
  | .nan, _ => .nan
  | _, .nan => .nan
  | .inf a, .inf b => if a = b then .inf a else .nan
  | .inf a, .fin _ _ _ => .inf a
  | .fin _ _ _, .inf b => .inf b
  | .fin a m e, .fin b n f =>
    let g := min e f
    let x : Nat := m * 2 ^ (e - g).toNat
    let y : Nat := n * 2 ^ (f - g).toNat
    let i : Int := (if a then -(x : Int) else x) + (if b then -(y : Int) else y)
    if i = 0 then .fin (a && b) 0 g else .fin (decide (i < 0)) i.natAbs g

/-- Sum of a list, from +0. -/
def Num.sum (l : List Num) : Num := l.foldl Num.add .zero

/-- Order of two finite or infinite values; −0 lies below +0 (R156). -/
def Num.lt : Num → Num → Bool
  | .nan, _ => false
  | _, .nan => false
  | .inf a, .inf b => a && !b
  | .inf a, .fin _ _ _ => a
  | .fin _ _ _, .inf b => !b
  | .fin a m e, .fin b n f =>
    if m = 0 ∧ n = 0 then a && !b
    else
      let g := min e f
      let x : Nat := m * 2 ^ (e - g).toNat
      let y : Nat := n * 2 ^ (f - g).toNat
      decide ((if a then -(x : Int) else x) < (if b then -(y : Int) else (y : Int)))

/-- How a value is rounded: to nearest even, or with a 16-bit draw (R133). -/
inductive RoundMode where
  | rne
  | draw (r : Nat)
deriving DecidableEq, Repr

/-- The multiple of 2^q that the magnitude `m` times 2^e rounds to. -/
def roundAt (rm : RoundMode) (m : Nat) (e q : Int) : Nat :=
  if q ≤ e then m * 2 ^ (e - q).toNat
  else
    let d := (q - e).toNat
    let k := m / 2 ^ d
    let f := m % 2 ^ d
    match rm with
    | .rne =>
      if 2 * f < 2 ^ d then k
      else if 2 * f > 2 ^ d then k + 1
      else if k % 2 = 0 then k else k + 1
    | .draw r => if (f * 2 ^ 16) / 2 ^ d + r ≥ 2 ^ 16 then k + 1 else k

/-- The power of two of the leading bit of the magnitude `m` times 2^e, `m` not 0. -/
def topExp (m : Nat) (e : Int) : Int := (Nat.log2 m : Int) + e

/-- A floating-point format (Table 4.1): mantissa bits, bias, total bits, the magnitude encoding of the
largest finite value, of infinity where it has one, and of NaN where it has one. -/
structure Fmt where
  mant : Nat
  bias : Nat
  bits : Nat
  maxEnc : Nat
  infEnc : Option Nat
  nanEnc : Option Nat
deriving DecidableEq, Repr

def fmtFP32 : Fmt := ⟨23, 127, 32, 0x7F7FFFFF, some 0x7F800000, some 0x7FC00000⟩
def fmtBF16 : Fmt := ⟨7, 127, 16, 0x7F7F, some 0x7F80, some 0x7FC0⟩
def fmtFP16 : Fmt := ⟨10, 15, 16, 0x7BFF, some 0x7C00, some 0x7E00⟩
def fmtE4M3 : Fmt := ⟨3, 7, 8, 0x7E, none, some 0x7F⟩
def fmtE5M2 : Fmt := ⟨2, 15, 8, 0x7B, some 0x7C, some 0x7E⟩
def fmtE3M2 : Fmt := ⟨2, 3, 6, 0x1F, none, none⟩
def fmtE2M3 : Fmt := ⟨3, 1, 6, 0x1F, none, none⟩
def fmtE2M1 : Fmt := ⟨1, 1, 4, 0x7, none, none⟩

/-- Value of an encoding (R116, R117). -/
def Fmt.decode (f : Fmt) (enc : Nat) : Num :=
  let neg := enc.testBit (f.bits - 1)
  let mag := enc % 2 ^ (f.bits - 1)
  if f.infEnc = some mag then .inf neg
  else if f.maxEnc < mag then .nan
  else
    let ex := mag / 2 ^ f.mant
    let fr := mag % 2 ^ f.mant
    if ex = 0 then .fin neg fr (1 - (f.bias : Int) - f.mant)
    else .fin neg (fr + 2 ^ f.mant) ((ex : Int) - f.bias - f.mant)

/-- Magnitude encoding of a finite magnitude after rounding, without limit above. -/
def Fmt.roundMag (f : Fmt) (rm : RoundMode) (m : Nat) (e : Int) : Nat :=
  if m = 0 then 0
  else
    let emin : Int := 1 - (f.bias : Int)
    let q := max (topExp m e) emin - f.mant
    let k := roundAt rm m e q
    -- k counts spacings of 2^q; fields follow because encodings of rising values rise by one
    if k < 2 ^ f.mant then k
    else k - 2 ^ f.mant + ((q + f.mant + f.bias).toNat) * 2 ^ f.mant

/-- Encode a value, rounding once (R122, R128, Table 4.3). -/
def Fmt.encode (f : Fmt) (rm : RoundMode) : Num → Nat
  | .nan => f.nanEnc.getD 0
  | .inf neg => b2n neg * 2 ^ (f.bits - 1) + f.infEnc.getD f.maxEnc
  | .fin neg m e =>
    let k := f.roundMag rm m e
    b2n neg * 2 ^ (f.bits - 1) + (if f.maxEnc < k then f.infEnc.getD f.maxEnc else k)

/-- Encode with saturation to the largest finite magnitude (R130). -/
def Fmt.encodeSat (f : Fmt) (rm : RoundMode) : Num → Nat
  | .fin neg m e => b2n neg * 2 ^ (f.bits - 1) + min (f.roundMag rm m e) f.maxEnc
  | x => f.encode rm x

/-- Round to an integer number of 2^q and limit it to `lo` and `hi` (R129, R130). -/
def roundInt (rm : RoundMode) (q : Int) (lo hi : Int) : Num → Int
  | .nan => 0
  | .inf neg => if neg then lo else hi
  | .fin neg m e =>
    let k := roundAt rm m e q
    max lo (min hi (if neg then -(k : Int) else k))

/-- FP32 of a value, rounded to nearest even. -/
def toF32 (x : Num) : W32 := BitVec.ofNat 32 (fmtFP32.encode .rne x)

/-- Value of an FP32 word. -/
def ofF32 (w : W32) : Num := fmtFP32.decode w.toNat

/-- Round a partial sum to 24 significand bits, to nearest even (R120). A zero is +0 (R124). -/
def round24 : Num → Num
  | .fin neg m e =>
    if m = 0 then .zero
    else
      let q := topExp m e - 23
      .fin neg (roundAt .rne m e q) q
  | x => x

/-! ### Element formats of the arrays (Tables 3.6 and 4.1) -/

/-- The floating-point format of a code; none for the integer formats. -/
def fmtOfCode (c : Nat) : Option Fmt :=
  if c = 0 then some fmtBF16 else if c = 1 then some fmtFP16
  else if c = 2 ∨ c = 0xA then some fmtE4M3 else if c = 3 ∨ c = 0xB then some fmtE5M2
  else if c = 4 then some fmtE3M2 else if c = 5 then some fmtE2M3 else if c = 6 then some fmtE2M1
  else if c = 9 then some fmtFP32 else none

/-- The format takes MX block scales (R118). -/
def isMX (c : Nat) : Bool := decide (2 ≤ c ∧ c ≤ 7)

/-- Value of an element encoding without its scale (R116, R117, R119). -/
def elemValue (c enc : Nat) : Num :=
  match fmtOfCode c with
  | some f => f.decode enc
  | none =>
    let i := toInt 8 enc
    .fin (decide (i < 0)) i.natAbs (if c = 7 then -6 else 0)

/-- Value of an E8M0 scale byte (R118). -/
def scaleValue (b : Nat) : Num := if b = 0xFF then .nan else .fin false 1 ((b : Int) - 127)

/-- emax of an MX format (Table 4.1). -/
def emaxOf (c : Nat) : Int :=
  if c = 2 then 8 else if c = 3 then 15 else if c = 4 then 4 else if c = 5 then 2 else if c = 6 then 2 else 0

/-! ### The epilogue (R127 to R135) -/

/-- v of R127: the scale times s, limited to ±C when CLAMP is 1 and C is finite. -/
def epiValue (scale : W32) (clamp : Bool) (clampC : Nat) (s : Num) : Num :=
  let v := (ofF32 scale).mul s
  if !clamp then v
  else
    match fmtBF16.decode (clampC % 2 ^ 15) with
    | .fin _ m e =>
      match v with
      | .nan => .nan
      | .inf neg => .fin neg m e
      | .fin neg a b =>
        if Num.lt (.fin false m e) (.fin false a b) then .fin neg m e else v
    | _ => v

/-- One element in a format without MX scaling (R128, R129). -/
def epiPlain (c : Nat) (rm : RoundMode) (v : Num) : Nat :=
  match fmtOfCode c with
  | some f => f.encode rm v
  | none => ofInt 8 (roundInt rm 0 (-128) 127 v)

/-- Whether a value is finite. -/
def Num.isFin : Num → Bool
  | .fin _ _ _ => true
  | _ => false

/-- Magnitude of a value. -/
def Num.abs : Num → Num
  | .fin _ m e => .fin false m e
  | .inf _ => .inf false
  | .nan => .nan

/-- The larger magnitude of two finite values. -/
def Num.maxAbs (a b : Num) : Num := if Num.lt a.abs b.abs then b.abs else a.abs

/-- Scale of an MX block: none where a value is NaN or an infinity (R131); else the scale byte and X
(R130). -/
def mxScale (c : Nat) (vs : List Num) : Option (Nat × Int) :=
  if vs.all Num.isFin then
    match vs.foldl Num.maxAbs .zero with
    | .fin _ m e =>
      if m = 0 then some (0, 0)
      else
        let x := max (-127) (min 127 (topExp m e - emaxOf c))
        some ((x + 127).toNat, x)
    | _ => none
  else none

/-- One element of an MX block with scale exponent `x` (R130). -/
def mxElem (c : Nat) (rm : RoundMode) (x : Int) : Num → Nat
  | .fin neg m e =>
    match fmtOfCode c with
    | some f => f.encodeSat rm (.fin neg m (e - x))
    | none => ofInt 8 (roundInt rm (-6) (-127) 127 (.fin neg m (e - x)))
  | _ => 0

/-! ### The stochastic generator (R134) -/

/-- One step of the generator: new s0 and s1, and the 64-bit word. -/
def next64 (s0 s1 : W64) : W64 × W64 × W64 :=
  let a := s0 ^^^ (s0 <<< 23)
  let t := a ^^^ s1 ^^^ (a >>> 17) ^^^ (s1 >>> 26)
  (s1, t, t + s1)

end Sys2Proof.Machine
end

