-- ==== Sys2Proof/Machine/Atomics.lean ====
section
/-! DEFINITION. The arithmetic of atomics and line reductions (R156, R158, R159, R211, R212). -/

namespace Sys2Proof.Machine
open Sys2Proof

/-- Bytes of an atomic's element (R155): types 0 u32, 1 s32, 2 u64, 3 s64, 4 f32, 5 bf16 (Table 5.10). -/
def atomSize (ty : Nat) : Nat := if ty = 2 ∨ ty = 3 then 8 else if ty = 5 then 2 else 4

/-- Minimum or maximum of two floating-point values: −0 below +0, a NaN loses against a number, two NaNs
give NaN (R156). -/
def fpMinMax (max : Bool) (a b : Num) : Num :=
  match a, b with
  | .nan, y => y
  | x, .nan => x
  | x, y => if Num.lt x y then (if max then y else x) else (if max then x else y)

/-- Minimum or maximum of two integers of `n` bits, signed or not. -/
def intMinMax (max sgn : Bool) (n a b : Nat) : Nat :=
  let lt := if sgn then decide (toInt n a < toInt n b) else decide (a < b)
  if lt then (if max then b else a) else (if max then a else b)

/-- Integer operation of `aop` 0 add, 1 min, 2 max, 3 and, 4 or, 5 xor on `n` bits (Table 5.10). -/
def intOp (aop : Nat) (sgn : Bool) (n a b : Nat) : Nat :=
  if aop = 0 then (a + b) % 2 ^ n
  else if aop = 1 then intMinMax false sgn n a b
  else if aop = 2 then intMinMax true sgn n a b
  else if aop = 3 then a &&& b
  else if aop = 4 then a ||| b
  else a ^^^ b

/-- Floating-point add, min or max of values, before rounding (R212). -/
def fpOp (op : Nat) (a b : Num) : Num :=
  if op = 0 then a.add b else fpMinMax (op == 2) a b

/-- The new element that one atomic leaves (Table 5.12). `old`, `v` and `c` are the stored element, the
operand and the compare value as bits; a BF16 operand is an FP32 value (R159). -/
def atomApply (aop ty old v c : Nat) : Nat :=
  let n := 8 * atomSize ty
  if aop = 6 then v % 2 ^ n
  else if aop = 7 then (if old = c % 2 ^ n then v % 2 ^ n else old)
  else if ty = 4 then
    fmtFP32.encode .rne (fpOp aop (fmtFP32.decode old) (fmtFP32.decode (v % 2 ^ 32)))
  else if ty = 5 then
    fmtBF16.encode .rne (fpOp aop (fmtBF16.decode old) (fmtFP32.decode (v % 2 ^ 32)))
  else intOp aop (ty == 1 || ty == 3) n old (v % 2 ^ n)

/-- The combinations of Table 5.12 that ATOM (`ret`) and RED accept (R181). -/
def atomAllowed (ret : Bool) (aop ty : Nat) : Bool :=
  if ty ≤ 3 then (if aop ≤ 5 then true else if aop ≤ 7 then ret else false)
  else if ty = 4 then
    (if aop ≤ 2 then true else if aop = 6 ∨ aop = 7 then ret else false)
  else if ty = 5 then decide (aop ≤ 2) && !ret
  else false

/-- Bytes of a line reduction's element: 0 FP32, 1 BF16, 2 INT32 (Table 8.7). -/
def redSize (ty : Nat) : Nat := if ty = 1 then 2 else 4

/-- One element of a line reduction: `op` 0 add, 1 min, 2 max (R211, R212). -/
def redApply (op ty old v : Nat) : Nat :=
  if ty = 2 then intOp op true 32 old v
  else if ty = 1 then fmtBF16.encode .rne (fpOp op (fmtBF16.decode old) (fmtBF16.decode v))
  else fmtFP32.encode .rne (fpOp op (fmtFP32.decode old) (fmtFP32.decode v))

/-- The 256 bytes of a line after a reduction under an element mask, element `e` by bit `e` (R211). -/
def lineReduce (op ty : Nat) (mask : List Byte) (old v : List Byte) : List Byte :=
  let sz := redSize ty
  (List.range (256 / sz)).flatMap fun e =>
    let o := ofLe ((old.drop (e * sz)).take sz)
    if (mask.getD (e / 8) 0).getLsbD (e % 8) then
      leBytes sz (redApply op ty o (ofLe ((v.drop (e * sz)).take sz)))
    else leBytes sz o

end Sys2Proof.Machine
end

