-- ==== Sys2Proof/Config.lean ====
section
/-! DEFINITION. Free values: results the spec leaves open or takes from outside itself. Each is a constant
without a body, so no proof can use a value of it; a statement holds whatever it is. -/

namespace Sys2Proof.Config
open Sys2Proof

/-- A 64-bit free value, by the number of the draw (log 6). -/
opaque freeValue : Nat → W64

/-- Row of the word at a byte offset of a 1 MiB Loess bank: the spec gives no row length (log 19). -/
opaque loessRow : Nat → Nat

/-- Column group of a bit position of the words of a Loess bank (log 19). -/
opaque loessColumnGroup : Nat → Nat

/-- Verification of SLH-DSA-SHAKE-256s of FIPS 205, pure mode, context "JEFEN-IMAGE": the public key, the message, the
signature (R396, log 5). -/
opaque slhVerify : List Byte → List Byte → List Byte → Bool

/-- Signing with SLH-DSA-SHAKE-256f of FIPS 205, pure mode, context "CHEXUS-ATTEST": the identity seeds and the message;
the 49,856 bytes of the signature (R414, log 5). -/
opaque slhSign : List (BitVec 256) → List Byte → List Byte

/-- The SLH-DSA-SHAKE-256f public key of the identity seeds (R413, log 5). -/
opaque slhPublic : List (BitVec 256) → BitVec 512

/-- Measurement M0 of the boot ROM, whose bytes the spec does not give (R414). -/
opaque bootRom : BitVec 256

/-- Neighbour `k` of a temperature sensor in the conduction model of the boot ROM (R453); none where it has fewer. -/
opaque thermNbr : Nat → Nat → Option (Fin 256)

/-- The conduction model: sensor, effective values of the neighbours used (number and 1/16 K), measured power of its
partition (0.1 W); the estimate in 1/16 K (R453). -/
opaque thermModel : Nat → List (Nat × Int) → Nat → Int

/-- What a PCIe configuration register that the spec leaves to the PCI Express specification answers, by its offset and the
last value written to it (R472). -/
opaque cfgOther : Nat → W32 → W32

end Sys2Proof.Config
end

