-- ==== Sys2Proof/Machine/Keccak.lean ====
section
/-! DEFINITION. SHAKE256 of FIPS 202 and KMAC256 of NIST SP 800-185, which the spec names (R388, R396, R398, R399, R414). -/

namespace Sys2Proof.Machine
open Sys2Proof

/-- Lane x + 5 y of a Keccak state. -/
def kLane (a : List W64) (x y : Nat) : W64 := a.getD (x % 5 + 5 * (y % 5)) 0

/-- The θ step. -/
def kTheta (a : List W64) : List W64 :=
  let c := (List.range 5).map fun x => kLane a x 0 ^^^ kLane a x 1 ^^^ kLane a x 2 ^^^ kLane a x 3 ^^^ kLane a x 4
  let d := (List.range 5).map fun x => c.getD ((x + 4) % 5) 0 ^^^ (c.getD ((x + 1) % 5) 0).rotateLeft 1
  a.zipIdx.map fun e => e.1 ^^^ d.getD (e.2 % 5) 0

/-- Rotations of the ρ step, lane x + 5 y. -/
def kRho : List Nat := [0, 1, 62, 28, 27, 36, 44, 6, 55, 20, 3, 10, 43, 25, 39, 41, 45, 15, 21, 8, 18, 2, 61, 56, 14]

/-- The ρ and π steps: lane (x, y) comes from lane (x + 3 y, x). -/
def kRhoPi (a : List W64) : List W64 :=
  let r := (a.zip kRho).map fun e => e.1.rotateLeft e.2
  (List.range 25).map fun i => kLane r (i % 5 + 3 * (i / 5)) (i % 5)

/-- The χ step. -/
def kChi (a : List W64) : List W64 :=
  (List.range 25).map fun i => kLane a i (i / 5) ^^^ (~~~(kLane a (i + 1) (i / 5)) &&& kLane a (i + 2) (i / 5))

/-- Round constants of the ι step. -/
def kIota : List W64 := [
  0x0000000000000001, 0x0000000000008082, 0x800000000000808A, 0x8000000080008000, 0x000000000000808B, 0x0000000080000001,
  0x8000000080008081, 0x8000000000008009, 0x000000000000008A, 0x0000000000000088, 0x0000000080008009, 0x000000008000000A,
  0x000000008000808B, 0x800000000000008B, 0x8000000000008089, 0x8000000000008003, 0x8000000000008002, 0x8000000000000080,
  0x000000000000800A, 0x800000008000000A, 0x8000000080008081, 0x8000000000008080, 0x0000000080000001, 0x8000000080008008]

/-- One round. -/
def kRound (a : List W64) (c : W64) : List W64 :=
  match kChi (kRhoPi (kTheta a)) with
  | l :: r => (l ^^^ c) :: r
  | [] => []

/-- The permutation Keccak-f[1600]. -/
def keccakF (a : List W64) : List W64 := kIota.foldl kRound a

/-- Bytes of a block at capacity 512. -/
def kRate : Nat := 136

/-- Absorb one block of 136 bytes. -/
def kAbsorb (a : List W64) (block : List Byte) : List W64 :=
  keccakF (a.zipIdx.map fun e => e.1 ^^^ BitVec.ofNat 64 (ofLe ((block.drop (8 * e.2)).take 8)))

/-- Cut a message into blocks, at most `fuel` of them. -/
def kBlocks : Nat → List Byte → List (List Byte)
  | 0, _ => []
  | n + 1, b => if b = [] then [] else b.take kRate :: kBlocks n (b.drop kRate)

/-- Pad a message: the suffix byte, zeros up to a whole block, and the last bit. -/
def kPad (suffix : Byte) (m : List Byte) : List Byte :=
  let z := (kRate - (m.length + 1) % kRate) % kRate
  if z = 0 then m ++ [suffix ||| 0x80] else m ++ [suffix] ++ List.replicate (z - 1) 0 ++ [0x80]

/-- The sponge: `n` bytes out, at most one block. -/
def kSponge (suffix : Byte) (m : List Byte) (n : Nat) : List Byte :=
  let p := kPad suffix m
  let a := (kBlocks (p.length / kRate) p).foldl kAbsorb (List.replicate 25 0)
  (a.flatMap fun l => leBytes 8 l.toNat).take n

/-- SHAKE256, `n` bytes out (up to 136). -/
def shakeBytes (m : List Byte) (n : Nat) : List Byte := kSponge 0x1F m n

/-- SHAKE256 with 32 bytes out, as a number whose first byte is the lowest. -/
def shake256 (m : List Byte) : BitVec 256 := BitVec.ofNat 256 (ofLe (shakeBytes m 32))

/-- Big-endian bytes of a number below 2^16, without leading zeros, at least one. -/
def kEnc (n : Nat) : List Byte := if n < 256 then [BitVec.ofNat 8 n] else [BitVec.ofNat 8 (n / 256), BitVec.ofNat 8 n]

/-- left_encode of SP 800-185. -/
def leftEncode (n : Nat) : List Byte := BitVec.ofNat 8 (kEnc n).length :: kEnc n
/-- right_encode. -/
def rightEncode (n : Nat) : List Byte := kEnc n ++ [BitVec.ofNat 8 (kEnc n).length]
/-- encode_string. -/
def encodeString (b : List Byte) : List Byte := leftEncode (8 * b.length) ++ b
/-- bytepad to a block. -/
def bytePad (b : List Byte) : List Byte :=
  let x := leftEncode kRate ++ b
  x ++ List.replicate ((kRate - x.length % kRate) % kRate) 0

/-- KMAC256: key, message, bytes out, customisation string. -/
def kmacBytes (key m : List Byte) (n : Nat) (custom : List Byte) : List Byte :=
  kSponge 0x04 (bytePad (encodeString [0x4B, 0x4D, 0x41, 0x43] ++ encodeString custom) ++ bytePad (encodeString key) ++ m
    ++ rightEncode (8 * n)) n

/-- "ABAIFA-CMD" and "ABAIFA-RSP" (R388). -/
def kmacCustom (rsp : Bool) : List Byte :=
  [0x41, 0x42, 0x41, 0x49, 0x46, 0x41, 0x2D] ++ (if rsp then [0x52, 0x53, 0x50] else [0x43, 0x4D, 0x44])

/-- The MAC of a command or of a reply under a command key (R388), a number whose first byte is the lowest. -/
def kmac (key : BitVec 256) (rsp : Bool) (m : List Byte) : BitVec 256 :=
  BitVec.ofNat 256 (ofLe (kmacBytes (leBytes 32 key.toNat) m 32 (kmacCustom rsp)))

/-- KMAC256 with 128 bits out and the customisation string "JEFEN-KEYTAG" (R398). -/
def kmacTag (key : BitVec 256) (m : List Byte) : BitVec 128 :=
  BitVec.ofNat 128 (ofLe (kmacBytes (leBytes 32 key.toNat) m 16
    [0x4A, 0x45, 0x46, 0x45, 0x4E, 0x2D, 0x4B, 0x45, 0x59, 0x54, 0x41, 0x47]))

end Sys2Proof.Machine
end

