-- ==== Sys2Proof/Machine/State.lean ====
section
/-! DEFINITION. The state of the block: every register, FIFO, buffer, counter, mode and pin the spec
gives the CX-7680, as plain data, and the queue of waiting commands. Each field's comment names the file
and rule of spec/ that gives it and its reset value; `own` marks a field of the model's own (NOTES.md and the
assumption log name each). Fields of replicated units stand in sparse tables (`Tbl`) whose unlisted
entries hold the unit's default record, which is its reset value. -/

namespace Sys2Proof.Machine
open Sys2Proof

/-- What the block sends out of itself or hands to an outside observer (a register value read, an MSI-X
message, a packet), newest first in `State.tx`. -/
inductive Sent where
  | ack (who : Agent)                                -- acknowledge of a write or home operation (R213)
  | discarded (who : Agent)                          -- DISCARDED fault to a requester (R209)
  | resetting (who : Agent)                          -- "target resetting" to a requester (R29)
  | regData (r : Req) (val : W32)                    -- value a register read returns (R11)
  | data (who : Agent) (bytes : List Byte)           -- bytes returned to a requester
  | busError (who : Agent)                           -- bus error in the form of the requester (R218)
  | ticket (who : Agent) (counter : W64) (sat own : W32) -- a sync operation's reply (R316, R317)
  | msix (v : Nat)                                   -- MSI-X vector sent (R485)
  | packet (port : Option Port) (vl : Nat) (p : Pkt) -- packet sent on a port, or delivered locally
  | reply (dest : BitVec 56) (word : Line)           -- one-word reply packet of R315, as it is presented
  | fault (p : Tower) (word : Line)                  -- fault record written to a fault queue (R253)
  | avs (iface rail cmd : Nat) (data : BitVec 16)    -- AVSBus command frame (R62)
  | frame (port : Port) (lanes : List (List Byte))   -- frame transmitted: the bytes of each physical lane (R329, R331, R334)
  | mgmtBusy (p : Pkt)                               -- "busy" to the host, whose management packet found no entry (R354)
  | notify (what : Nat)                              -- notice to the management core
  | floorReport (p : Tower) (rMin : BitVec 11) (vcore : BitVec 10) -- report of a floor fault (R60)
  | collEnd (p : Tower) (id : BitVec 16) (code : Byte) -- collective-end message (R382)
  | flash (op : Nat) (addr : Nat) (data : List Byte) -- command issued to the configuration flash
  | flashReset                                       -- XSPI_RESET_N driven low for 10 µs (R511)
  | ibi (byte : Byte)                                -- I3C in-band interrupt (R493)
  | i3c (words : List W32)                           -- words of an I3C private read
  | i3cId (pid : BitVec 48) (bcr dcr : Byte)         -- identity given in ENTDAA (R492)
  | doe (status : Nat) (words : List W32)            -- DOE response
  | jtag (val : W32)                                 -- value shifted out of the test port
  | cfg (val : W32)                                  -- PCIe configuration completion
  | unsupported                                      -- PCIe completion with Unsupported Request (R487)
  | completerAbort                                   -- PCIe read completion with Completer Abort (R482)
  | poisonedRead (bytes : List Byte)                 -- PCIe read completion with the EP bit set (R482)
  | timeValue (who : Agent) (t : W64)
deriving DecidableEq, Repr

/-- A task of a partition's admitted-task table (R281). -/
structure TaskRef where
  p : Tower
  e : TaskIx
deriving DecidableEq, Repr

/-! ### Skotrum: time base, selectors -/

structure Skt where
  time      : W64 := 0          -- 02 R65, R66; reset 0 (device time starts at 0 at L4)
  latch     : Tbl W32 := []     -- 02 R69, Table 2.5 TIME_HI per requester; reset 0x0000_0000
  upstream  : BitVec 4 := 0xF   -- 02 Table 2.6 UPSTREAM; reset 0xF
  stepped   : Bool := false     -- 02 Table 2.6 STEPPED; reset 0
  refLoss   : Bool := false     -- 02 Table 2.6 REF_LOSS; reset 0
  holdover  : Bool := false     -- 02 Table 2.6 HOLDOVER; reset 0
  synced    : Bool := false     -- 02 Table 2.6 SYNCED; reset 0
  offset    : W32 := 0          -- 02 Table 2.7 OFFSET; reset 0x0000_0000
  slew      : Int := 0          -- 02 R66, R67: phase still to be slewed, 1/16 ns; reset DESIGN CHOICE 0 (log 2)
  slewAt    : W64 := 0          -- 02 R66: device time of the last 1 ns of slewing; own
  trim      : Int := 0          -- 02 R67: frequency trim, 0.01 ppm; reset DESIGN CHOICE 0 (log 2)
  pllLocked : Bool := false     -- 17 R508, 13 Table 13.8: SerDes PLLs locked; reset DESIGN CHOICE false (log 2)
deriving DecidableEq, Repr

/-! ### Host port -/

/-- One MSI-X table entry (R477): message address, data, mask bit. -/
structure MsixEntry where
  addr : W64 := 0               -- 16 R474, R477; reset DESIGN CHOICE 0 (log 2)
  data : W32 := 0               -- 16 R474, R477; reset DESIGN CHOICE 0 (log 2)
  mask : Bool := true           -- 16 R485; reset PRESUMED 1 (the PCI Express specification's value, log 2)
deriving DecidableEq, Repr

structure Pcie where
  linkUp      : Bool := false   -- 16 R472; reset DESIGN CHOICE false (log 2)
  perst       : Bool := true    -- 16 R473, 17 Table 17.5: PERST_N asserted; reset DESIGN CHOICE asserted (log 2)
  d3hot       : Bool := false   -- 16 R475; reset PRESUMED D0 (PCI Express, log 2)
  memEnable   : Bool := false   -- 16 R473: memory space enable; reset PRESUMED 0 (PCI Express, log 2)
  busMaster   : Bool := false   -- 16 R485: Bus Master Enable; reset PRESUMED 0 (PCI Express, log 2)
  bar0        : W64 := 0        -- 16 R477: BAR0 base; reset PRESUMED 0 (PCI Express, log 2)
  bar2        : W64 := 0        -- 16 R479: BAR2 base; reset PRESUMED 0 (PCI Express, log 2)
  msixOn      : Bool := false   -- 16 R485: MSI-X enable; reset PRESUMED 0 (PCI Express, log 2)
  msixMaskAll : Bool := false   -- 16 R485: function mask; reset PRESUMED 0 (PCI Express, log 2)
  msix        : Tbl MsixEntry := [] -- 16 R477: MSI-X table, 64 entries
  pba         : BitVec 64 := 0  -- 16 R477, R485: pending bits; reset DESIGN CHOICE 0 (log 2)
  aerUncor    : W32 := 0        -- 16 R487: uncorrectable error status; reset PRESUMED 0 (PCI Express, log 2)
  aerCor      : W32 := 0        -- 16 R487: correctable error status; reset PRESUMED 0 (PCI Express, log 2)
  devCtl      : W32 := 0        -- 16 Table 16.1: device control; reset PRESUMED 0 (PCI Express, log 2)
  other       : Tbl W32 := []   -- 16 R472: the remaining configuration registers; reset DESIGN CHOICE 0 (log 2)
  doeBusy     : Bool := false   -- 16 R488, R489: DOE mailbox holds a request; reset DESIGN CHOICE false (log 2)
deriving DecidableEq, Repr

/-- A flash operation of the host, as its START write found the registers (R490). -/
structure FlashRun where
  op : Nat
  addr : Nat
  data : List Byte
  len : Nat
deriving DecidableEq, Repr

structure Hst where
  bar2Base  : BitVec 40 := 0    -- 16 Table 16.9 BASE; reset 0
  event     : BitVec 12 := 0    -- 16 Table 16.10 EVENTS; reset 0x000
  eventEn   : BitVec 12 := 0    -- 16 Table 16.10 EVENTS (enable); reset 0x000
  synFired  : List (BitVec 13) := [] -- 16 R484: FIFO of 256; reset empty (Table 16.11 COUNT 0)
  synOver   : Bool := false     -- 16 Table 16.11 OVERFLOW; reset 0
  refReason : BitVec 4 := 0     -- 16 Table 16.12 REASON; reset 0
  refQueue  : BitVec 9 := 0     -- 16 Table 16.12 QUEUE; reset 0
  refSeq    : BitVec 16 := 0    -- 16 Table 16.12 SEQ; reset 0
  dropping  : List Nat := []    -- 16 R483: queues whose host words are discarded up to the next CLOSE; reset DESIGN CHOICE none (log 2)
  busErr    : W32 := 0          -- 16 Table 16.8 HST_BUS_ERR; reset 0
  busErrAt  : BitVec 40 := 0    -- 16 Table 16.8 HST_BUS_ERR_ADDR; reset 0
  regErr    : Tbl W32 := []     -- 16 Table 16.8 HST_REG_ERR0 to 3 and DEV (4); reset 0
  lastReq   : BitVec 3 := 0     -- 16 Table 16.13 REQUESTER; reset 0
  lastWin   : BitVec 13 := 0    -- 16 Table 16.13 WINDOW; reset 0
  lastOff   : BitVec 16 := 0    -- 16 Table 16.13 OFFSET; reset 0
  flashAddr : BitVec 27 := 0    -- 16 Table 16.14 ADDR; reset 0
  flashBusy : Bool := false     -- 16 Table 16.14 BUSY; reset 0
  flashStat : BitVec 3 := 0     -- 16 Table 16.14 STATUS; reset 0
  flashLen  : BitVec 7 := 0     -- 16 Table 16.14 LEN_M1; reset 0
  flashOp   : BitVec 3 := 0     -- 16 Table 16.14 OP; reset 0
  flashData : Tbl W32 := []     -- 16 Table 16.15 DATA, 32 words; reset 0
  flashRun  : Option FlashRun := none -- 16 R490: the operation running or held; reset none
  flashHeld : Bool := false     -- 16 R491: operation waits for the write window; reset DESIGN CHOICE false (log 2)
deriving DecidableEq, Repr

/-! ### Fuses and flash-held configuration -/

structure Fuses where
  serial    : W64 := 0              -- 16 Table 16.8 HST_SERIAL, per fuse; DESIGN CHOICE 0 (log 10)
  variant   : BitVec 16 := 0x7680   -- 00 Table 0.1, R5: variant code; DESIGN CHOICE CX-7680 (log 10)
  sitesOff  : List Nat := []        -- 00 R1: fused-off sites; DESIGN CHOICE none (log 10)
  slicesOff : List Nat := []        -- 00 R3: fused-off slices; DESIGN CHOICE none (log 10)
  spares    : List Nat := [5,11,17,23,29,35,41,47,53,59,65,71,77,83,89,95] -- 00 R2, 01 R27: spare sites; DESIGN CHOICE last of each cluster (log 10)
  portsOff  : List Nat := []        -- 00 R4: fused-off ports; DESIGN CHOICE none (log 10)
  rstEntry  : List Byte := [0xC3, 0xFF, 0xC7, 0x62, 0xC3, 0x71, 0x84, 0x07] -- 14 Table 14.2 as shipped
  svnMin    : BitVec 6 := 0         -- 13 R399: security-version minimum; DESIGN CHOICE 0 (log 10)
  keyDigest : List (Option (BitVec 256)) := [] -- 13 Verification: four signing-key slots; DESIGN CHOICE unprogrammed (log 10)
  keyRevoked : List Nat := []       -- 13 R399: revoked slots; DESIGN CHOICE none (log 10)
  wrapKey   : BitVec 256 := 0       -- 13 R398: owner wrap key; DESIGN CHOICE 0 (log 10)
  idSeeds   : List (BitVec 256) := [] -- 13 R413: SK.seed, SK.prf, PK.seed; DESIGN CHOICE none (log 10)
  debugFuse : Bool := false         -- 16 R494: ships unprogrammed
  probeFactor : Tbl Nat := []       -- 02 R53: correction factor of each speed probe, 1/1024; DESIGN CHOICE 1024 (log 10)
  repairs   : List W64 := []        -- 14 R447: repair fuses, 2,048 entries; DESIGN CHOICE none (log 10)
deriving DecidableEq, Repr

/-- One class table entry (Table 9.1). -/
structure ClassEntry where
  enabled  : Bool := false          -- 09 Table 9.1, Table 9.12 ENABLED; reset 0
  realtime : Bool := false          -- 09 Table 9.1, Table 9.12 REALTIME; reset 0
  loessMin : Nat := 0               -- 09 Table 9.1 LOESS_MIN; reset 0
  loessW   : Nat := 1               -- 09 Table 9.12 LOESS_W; reset 0x01
  marlW    : Nat := 1               -- 09 Table 9.12 MARL_W; reset 0x01
  portW    : Nat := 1               -- 09 Table 9.1 PORT_W; reset DESIGN CHOICE 1, as MARL_W (log 2)
  seamW    : Nat := 1               -- 09 Table 9.1 SEAM_W; reset DESIGN CHOICE 1, as MARL_W (log 2)
  slotsMin : Nat := 0               -- 09 Table 9.14 MIN; reset 0
  marlMin  : List Nat := []         -- 09 Table 9.1 MARL_MIN[0..3]; reset DESIGN CHOICE 0 (log 2)
  portMin  : List Nat := []         -- 09 Table 9.1 PORT_MIN[0..5]; reset DESIGN CHOICE 0 (log 2)
  seamMin  : List Nat := []         -- 09 Table 9.1 SEAM_MIN[0..3]; reset DESIGN CHOICE 0 (log 2)
  reserved : Bool := false          -- 09 R283: a reserved bit or byte of the entry is not 0
deriving DecidableEq, Repr

/-! ### Matrix arrays (chapter 03) -/

/-- A descriptor in an array's FIFO with the task that posted it. -/
structure ADesc where
  words : Line                      -- 03 Table 3.4
  ctx   : Ctx                       -- 08 R244: the posting task's context
  cls   : Cls                       -- 03 R98, R105: the posting task's class label
  task  : Option TaskRef            -- 01 R46
  made  : Nat := 0                  -- 03 R113, R518: accumulator columns it had updated when it went back to the FIFO
deriving DecidableEq, Repr

/-- A stationary tile in the cells, with the descriptor words that R110 records. -/
structure Tile where
  w0 : W64                          -- 03 Table 3.8 offset 0x0068
  w3 : W64
  w6 : W64
  mask : W64                        -- 03 R97: ROW_MASK of the pass that loaded it
  ctx : Ctx                         -- 03 Table 3.8 offset 0x0080
  codes : Tbl (BitVec 16)           -- 03 R84: element encoding of cell (m, j), value i, at (64 i + m) 64 + j
  scales : Tbl Byte                 -- 03 R89: scale byte k of the d records of 128 bytes
deriving DecidableEq, Repr

/-- A pass taken from the FIFO and not ended. -/
structure PassRun where
  desc : ADesc
  t    : Nat                        -- 03 R90: completed steps since column 0 entered lane 0
  loaded : Bool                     -- 03 R91: its stationary tile is in the cells or their shadow
  left : Nat                        -- 03 R97: bytes of the stationary load that the home port has still to bring
  tile : Tile
  psum : Tbl (BitVec 40)            -- 03 R114: partial sum that left position j for row r, at 64 r + j
  done : Nat                        -- 03 R113: N_done
  lost : Bool                       -- 03 R97, R518: positions of its tile were given to a pass that went back or was aborted
  bad  : Bool                       -- 03 R112: a read of it met an error; it ends BUS_ERR when it heads the FIFO
deriving DecidableEq, Repr

/-- An ACC_OUT in progress (R517). -/
structure AccRun where
  desc : ADesc
  n    : Nat                        -- 03 R517: next accumulator column to read
  done : Nat                        -- 03 R113: N_done
deriving DecidableEq, Repr

/-- A 64-byte read of another device's memory: its fabric address, the request it waits for, its bytes. -/
structure FarRead where
  addr : Nat
  tid  : Option Nat
  data : List Byte
  bad  : Bool := false              -- 03 R112: answered with an error
deriving DecidableEq, Repr

inductive AryMode where
  | idle | running | stopping | parked | restoring | halted
deriving DecidableEq, Repr

structure Array where
  mode      : AryMode := .idle      -- 03 Table 3.11 STATE; reset 0 IDLE
  cause     : BitVec 3 := 0         -- 03 Table 3.11 CAUSE; reset 0
  fifo      : List ADesc := []      -- 03 R104; reset empty (FIFO_COUNT 0)
  code      : Byte := 0             -- 03 Table 3.12 CODE; reset 0x00
  nDone     : BitVec 16 := 0        -- 03 Table 3.12 N_DONE; reset 0x0000
  saveBase  : BitVec 40 := 0        -- 03 Tables 3.13, 3.14 BASE; reset 0
  seedLo    : W32 := 0              -- 03 Table 3.15 SEED (LO); reset 0
  seedHi    : W32 := 0              -- 03 Table 3.15 SEED (HI); reset 0
  seedNew   : Option W64 := none    -- 04 R136: seed waiting for the next descriptor taken
  s0        : W64 := 0              -- 04 R134, R136: seed(0) at L0
  s1        : W64 := 0x9E3779B97F4A7C15 -- 04 R134, R136: seed(0) at L0
  drawWord  : W64 := 0              -- 04 R134: current 64-bit word; reset DESIGN CHOICE 0, no draw left (log 2)
  drawLeft  : Nat := 0              -- 04 R134: spare; reset DESIGN CHOICE 0 (log 2)
  feed      : W32 := 0              -- 03 Table 3.16 ARY_FREEZE_FEED; reset 0
  drain     : W32 := 0              -- 03 Table 3.16 ARY_FREEZE_DRAIN; reset 0
  passes    : W32 := 0              -- 03 Table 3.16 ARY_PASS_COUNT; reset 0
  faultAddr : BitVec 48 := 0        -- 03 Table 3.17 ADDR; reset 0
  faultKind : BitVec 3 := 0         -- 03 Table 3.8 offset 0x0060; reset 0 none
  active    : Option Tile := none   -- 03 R97: no valid active tile after L0
  cur       : Option PassRun := none -- 03 R90: the pass whose columns drain
  next      : List PassRun := []    -- 03 R91: its successors in FIFO order, in the cells or loading the shadow
  got       : Nat := 0              -- 02 R81, 03 R92: bytes of its next step that the home port has brought; own
  fifoTok   : Nat := 0              -- 02 R79, 03 R104: token of its command FIFO over group slots; reset input 0
  acc       : Tbl W32 := []         -- 03 R101: accumulator column c of row r at 512 r + c; reset +0 (Table 14.5)
  accRun    : Option AccRun := none -- 03 R517
  stA       : Tbl W32 := []         -- 03 R114: staging block A, at 64 r + c
  stB       : Tbl W32 := []         -- 03 R114: staging block B
  far       : List FarRead := []    -- 12 R372: the array's reads of other devices
  out       : Option (List Nat) := none -- 12 R372: TIDs of the block write that awaits other devices
  haltNext  : Bool := false         -- 03 R112: enters HALTED when it leaves PARKED
  haltBy    : Option TaskRef := none -- 08 R276: task whose descriptor halted it; own
  retryFrom : Option W64 := none    -- 14 R429: device time since which a "target resetting" is retried
  busy      : Bool := false         -- 14 R431: block reset running
deriving DecidableEq, Repr

/-! ### Thread groups (chapter 05) -/

inductive GMode where
  | empty | ready | held | parked | halted
deriving DecidableEq, Repr

/-- A reconvergence stack entry (R150, R152): the path's start, its lanes, the reconvergence point and
the lanes that join there; `st` 0 waiting, 1 running, 2 the join entry of a conditional branch. -/
structure StackEnt where
  pc   : BitVec 48
  mask : W32
  reconv : BitVec 48
  join : W32
  st   : Nat
deriving DecidableEq, Repr

/-- A pending load or returning atomic: its destination writes once the reply is in. -/
structure LoadPend where
  writes : List (Nat × Nat × W32)   -- register, lane, value
  tid    : Option Nat               -- fabric TID whose reply is awaited
  log2   : Nat                      -- bytes per lane of a load, as a power of two
  dst    : Nat                      -- destination register
  lanes  : W32                      -- lanes the reply serves
  addr   : BitVec 48                -- context address of the lowest of them
  atom   : Bool                     -- the reply is the old value of an atomic
  open_  : Bool                     -- its instruction is not done until the reply is in
  err    : Bool := false            -- 05 R175: answered with an error; reported with the instruction's last answer
  dest   : Nat := 0                 -- 05 R158: fabric address of a serial operation
  ask    : Option (List Byte) := none -- 05 R158: its operands, while it waits for the lane before it; own
  later  : List (Nat × List Nat) := [] -- 05 R174: local updates made once no other part of the atomic can fail: address, lanes
deriving DecidableEq, Repr

/-- Why a group is held (R49). -/
inductive Hold where
  | none
  | apost (a : Ary) (desc : Line)   -- 03 R104
  | dpost (ch : Chan) (desc : Line) -- 08 R256
  | fence (acq : Bool) (scope : Nat) -- 05 R168: a FENCE that is not yet done
  | release (scope : Nat)           -- 05 R168, R170: an instruction waits for the release it performs
  | barrier (bid : Nat)             -- 05 R171
  | queue (q : Que) (word : Line) (close : Bool) -- 10 R307
  | wait (o : Syn) (dst pd scope : Nat) (lanes : W32) -- 10 R323 SWAIT: destination, predicate, scope, active lanes
  | arrive                          -- 10 R318, R319: an SWAIT that its object has not taken: the pool is full, or its partition in reset
deriving DecidableEq, Repr

structure Group where
  mode     : GMode := .empty        -- 05 Table 5.16 STATE; reset 0 empty
  slotted  : Bool := false          -- 05 R144: holds an active slot; reset none (ACTIVE 0)
  task     : Option TaskRef := none -- 05 R138
  ctx      : BitVec 6 := 0          -- 05 Table 5.16 CONTEXT; reset 0
  cls      : BitVec 4 := 0          -- 05 Table 5.16 CLASS; reset 0
  number   : Nat := 0               -- 05 R140: group number within the task
  regs     : Nat := 0               -- 05 Table 5.16 REGS, registers ÷ 8; reset 0
  regBase  : Nat := 0               -- 08 Table 8.31 REG_BASE
  pc       : BitVec 48 := 0         -- 05 Table 5.17 PC; reset 0
  exec     : W32 := 0               -- 05 R140: execution mask
  exited   : W32 := 0               -- 05 R140: lanes that have exited
  reg      : Tbl W32 := []          -- 05 R139: register v of lane l at 32 v + l; 0 at launch
  pred     : Tbl W32 := []          -- 05 R139: lane mask of predicate p; p15 reads all ones
  stack    : List StackEnt := []    -- 05 R150, top first
  cache    : List (Nat × Bool) := [] -- 05 R145, R146: cached registers and dirty bits, most recent first
  heldFor  : Nat := 0               -- 05 R144: consecutive held steps
  hold     : Hold := .none          -- 05 R49
  exc      : Byte := 0              -- 05 Table 5.18 CODE; reset 0x00
  excLane  : Byte := 0xFF           -- 05 Table 5.18 LANE; reset 0xFF
  excAddr  : BitVec 48 := 0         -- 05 Table 5.19 ADDR; reset 0
  storeErr : Option (BitVec 48) := none -- 05 R176: error of an earlier store not yet reported
  stores   : Nat := 0               -- 05 R168: local stores and no-return updates not yet acknowledged
  remote   : Nat := 0               -- 12 R375: fabric requests without a final response
  loads    : List LoadPend := []    -- 05 R185: replies awaited
  posted   : List (Nat × BitVec 48 × Nat) := [] -- 05 R166, R176, 12 R375: posted fabric requests: TID, context address, fabric address
  issued   : Option W64 := none     -- 05 R141: the instruction issued in this step
  stall    : Bool := false          -- 02 R49, 05 R144: it waits for a load's register, an endpoint entry or an own earlier store; own
  faultRec : Option Line := none    -- 08 R253, R254: held fault record
  retryFrom : Option W64 := none    -- 14 R429: device time since which a "target resetting" is retried
  ends     : Bool := false          -- 08 R271: stopped without save; it ends once its issued accesses are answered; own
deriving DecidableEq, Repr

/-- One L1 line (R191): its line address and 128 bytes. -/
structure L1Line where
  addr : Nat
  data : List Byte
deriving DecidableEq, Repr

/-- A shared allocation of a task on a site (R147). -/
structure SlmAlloc where
  task : TaskRef
  first : Nat
  granules : Nat
deriving DecidableEq, Repr

/-- A barrier of a task on a site (R171, R519). -/
structure Barrier where
  task : TaskRef
  bid  : Nat
  count : Nat
  arrived : List Nat
deriving DecidableEq, Repr

/-- A cached leaf translation (R250). -/
structure Leaf where
  ctx  : Nat
  base : Nat
  size : Nat
  pte  : W64
deriving DecidableEq, Repr

/-- A walk-cache entry: the table that serves `level` for the addresses under `base`. -/
structure WalkEnt where
  ctx : Nat
  level : Nat
  base : Nat
  table : Nat
deriving DecidableEq, Repr

/-- A walk in progress (R250: up to 4 at once). -/
structure Walk where
  who : Agent
  ctx : Ctx
  va : BitVec 48
  acc : Access
  level : Nat
  table : Nat
deriving DecidableEq, Repr

structure Site_ where
  mode     : BitVec 3 := 0          -- 08 Table 8.19 STATE; reset 0 running
  saveBase : BitVec 40 := 0         -- 08 Table 8.20 BASE; reset 0
  saveTime : W32 := 0               -- 08 Table 8.23 XLT_SAVE_TIME; reset 0
  saveFrom : W64 := 0               -- 08 R264: device time of the PREEMPT write; own
  saveBe   : Bool := false          -- 09 R291: the running save is of best-effort work that a window displaced; own
  saveDrop : List (BitVec 6) := []  -- 08 R272: contexts whose state the running save discards; own
  dropTasks : List TaskRef := []    -- 08 R272, R276: tasks whose state it discards; own
  tlbMiss  : W32 := 0               -- 08 Table 8.23 XLT_TLB_MISS; reset 0
  faults   : W32 := 0               -- 08 Table 8.23 XLT_FAULT_COUNT; reset 0
  late     : W32 := 0               -- 08 Table 8.23 XLT_PREEMPT_LATE; reset 0
  tlb      : List Leaf := []        -- 08 R250: 1,024 leaf translations, newest first
  walkc    : List WalkEnt := []     -- 08 R250: 64 non-leaf entries, newest first
  walks    : List Walk := []        -- 08 R250: walks in progress, at most 4
  rcMiss   : W32 := 0               -- 05 Table 5.15 TGE_RC_MISS; reset 0
  replay   : W32 := 0               -- 05 Table 5.15 TGE_SLM_REPLAY; reset 0
  idle     : W32 := 0               -- 05 Table 5.15 TGE_ISSUE_IDLE; reset 0
  token    : Nat := 0               -- 02 R79, 05 R142: issue token; reset input 0
  portTok  : Nat := 0               -- 02 R79, Table 2.10: token of the home port between array 0 and array 1; reset input 0
  portGuard : BitVec 2 := 0         -- 02 R81: arrays whose next port step the guard takes 64 bytes of; own
  slm      : List Host.Cell := []   -- 05 R147: shared local memory, 256 KiB, unlisted bytes 0; reset 0 (Table 14.5)
  allocs   : List SlmAlloc := []    -- 05 R147
  bars     : List Barrier := []     -- 05 R171
  l1       : Tbl (List L1Line) := [] -- 05 Table 5.1, 06 R191: lines of set k, most recent first; reset invalid
  l1Parity : W32 := 0               -- 06 R192: parity errors on hits; reset 0 (Table 14.5 clears it)
  passL1   : Nat := 0               -- 02 R81: port steps an L1 fill has been passed over
  passDma  : Nat := 0               -- 02 R81: port steps a DMA read has been passed over
  passSt   : Nat := 0               -- 02 R81: port steps an L1 write has been passed over
  passDw   : Nat := 0               -- 02 R81: port steps a DMA write has been passed over
  portGot  : List PortUse := []     -- 02 R81: uses that the port has granted and that have not gone yet; own
  portWait : List PortUse := []     -- 02 R81: uses that the port has turned back; own
  slmPass  : Tbl Nat := []          -- 05 R149: steps bank b has been refused to the DMA
  slmTaken : W32 := 0               -- 05 R149: banks that the DMA takes from the instructions in their next step; own
  status   : BitVec 4 := 0          -- 14 Table 14.18 STATE; reset 0 enabled (spares and fused sites by the fuse map)
  byFuse   : Bool := true           -- 14 R448: status still as the fuse map gives it; own
  replacedBy : Byte := 0xFF         -- 14 Table 14.18 REPLACED_BY; reset 0xFF
  outBundles : Nat := 0             -- 14 Table 14.6 site map byte 1; reset 0
  lostGroups : Nat := 0             -- 14 Table 14.6 site map byte 2; reset 0
  half     : Bool := false          -- 14 R439: vertical port at half width; reset false (retained in the repair map)
  blkBusy  : BitVec 6 := 0          -- 14 Table 14.19 BUSY; reset 0
  blkRefused : Bool := false        -- 14 Table 14.19 REFUSED; reset 0
  gen      : BitVec 2 := 0          -- 14 R427: generation of the site's request tags
  retireTo : Option Nat := none     -- 14 R438: spare being brought in
  retireDue : Bool := false         -- 14 R437: retirement waiting for a window's end
  retiring : Bool := false          -- 14 Table 14.9: a retirement runs
  readySince : W64 := 0             -- 14 R416: device time of the running site reset; own
  byAbort  : Bool := false          -- 14 R423: the running L0 was ordered by an abort; own
  restoreDue : Option (BitVec 40 × BitVec 40 × BitVec 40) := none -- 08 R272: bases written again before the RESTORE that follows its L0; own
deriving DecidableEq, Repr

/-! ### DMA (chapter 08) -/

structure DDesc where
  words : Line                      -- 08 Table 8.7
  ctx   : Ctx
  cls   : Cls
  task  : Option TaskRef
deriving DecidableEq, Repr

/-- Where an element's destination lies (R259): a shared offset, a local address, or one of another device. -/
inductive DmaTo where
  | shm (a : Nat)
  | mem (pa : Nat)
  | far (dest : Nat)
deriving DecidableEq, Repr

/-- An element issued and not yet committed (R259): its data, the GET it waits for, whether its write is out
and the request that carries it. -/
structure DmaEl where
  k    : Nat
  to_  : DmaTo                      -- 08 R259: where its destination address was translated to at its issue
  data : List Byte
  get  : Option Nat
  sent : Bool
  put  : Option Nat
  held : Bool := false              -- 10 R307: its word waits at a queue
  bad  : Bool := false              -- 08 R261: its word ended in an error
deriving DecidableEq, Repr

inductive DmaMode where
  | idle | running | parked | halted
deriving DecidableEq, Repr

structure Dma where
  mode      : DmaMode := .idle      -- 08 Table 8.26 STATE; reset 0
  cause     : BitVec 2 := 0         -- 08 Table 8.26 CAUSE; reset 0
  fifo      : List DDesc := []      -- 08 R262; reset empty (FIFO_COUNT 0)
  code      : Byte := 0             -- 08 Table 8.27 CODE; reset 0
  faultCause : Byte := 0            -- 08 Table 8.27 CAUSE; reset 0
  index     : W64 := 0              -- 08 Table 8.28 DMA_INDEX; reset 0
  faultAddr : BitVec 48 := 0        -- 08 Table 8.28 DMA_FAULT_ADDR; reset 0
  elements  : W32 := 0              -- 08 Table 8.28 DMA_ELEMENTS; reset 0
  taken     : Bool := false         -- 08 R258: the head descriptor has passed its checks
  next      : Nat := 0              -- 08 R259: next element index to translate
  inFlight  : List DmaEl := []      -- 08 R259: elements issued and not yet committed
  faultAt   : Option Nat := none    -- 08 R260: element whose translation faulted
  busAt     : Option Nat := none    -- 08 R261: lowest element in error, while the elements below it commit
  fifoTok   : Nat := 0              -- 02 R79, 08 R256: token of the channel's FIFO over group slots; reset input 0
  haltBy    : Option TaskRef := none -- 08 R276: task whose descriptor halted it; own
  retryFrom : Option W64 := none    -- 14 R429: device time since which a "target resetting" is retried
  faultRec  : Option Line := none   -- 08 R254: held fault record
deriving DecidableEq, Repr

/-! ### Loess (chapter 06) -/

inductive LineSt where
  | clean | dirty | poisoned | tombstone
deriving DecidableEq, Repr

/-- A form of Table 6.4; `rep n` repeats the first `n` words. -/
inductive CompForm where
  | zero | rep (n : Nat) | b8d1 | b4d1 | b8d2 | b8d3
deriving DecidableEq, Repr

/-- A home operation queued at its line (R214): the requester, the byte of the line, whether a value returns. -/
structure PendOp where
  who : Agent
  off : Nat
  ret : Bool
  op  : HomeOp
deriving DecidableEq, Repr

/-- What the arbiter of a point keeps (R79, R284, R286). -/
structure Arb where
  shares : Tbl Nat := []            -- 09 R284: share counter of each class; reset DESIGN CHOICE 0 (log 2)
  at_    : W64 := 0                 -- 09 R284: device time up to which the counters stand; own
  cls    : Nat := 0                 -- 09 R286: class being served in tier 3; reset DESIGN CHOICE 0 (log 2)
  left   : Tbl Nat := []            -- 09 R286: bytes that each class has left of its quanta; reset DESIGN CHOICE 0 (log 2)
  token  : Nat := 0                 -- 02 R79: input that wins the next tie; reset input 0
deriving DecidableEq, Repr

/-- A tag entry (R195) with the words it holds; INVALID entries are not listed. -/
structure Tag where
  line  : Nat                       -- 06 R195: line address PA[39:8]
  st    : LineSt                    -- 06 Table 6.3
  cls   : Nat                       -- 06 R195: class that allocated the line
  valid : W32                       -- 06 R195: valid mask, one bit per 64-bit word
  dirty : W32                       -- 06 R195: dirty mask
  poison : W32                      -- 06 R219: poisoned words
  words : Tbl W64                   -- 06 R195: the line's words
  form  : Option CompForm           -- 06 R195, R203: compression form; none in a full slot
  ops   : List PendOp               -- 06 R195, R214: pending home operations, oldest first; their number is the count
  slot  : Nat                       -- 06 R195: data slot, 0 to 15
  half  : Nat                       -- 06 R195: half of the slot
  ctx   : Nat                       -- 06 R208: context of the hint, for a TOMBSTONE
  bad   : List Nat := []            -- 06 R219, R224: stored words of a compressed form that the scrubber has rewritten poisoned; own
deriving DecidableEq, Repr

/-- A request joined to a miss entry (R205). -/
inductive Joined where
  | read (who : Agent) (addr len : Nat)
  | write (who : Agent) (addr : Nat) (data : List Byte)
  | op (who : Agent) (addr : Nat) (ret : Bool) (o : HomeOp)
deriving DecidableEq, Repr

structure Miss where
  line : Nat                        -- 06 R205
  reqs : List Joined                -- 06 R205: at most 64, in join order
  cls  : Nat                        -- 06 R206
  rt   : Bool
  dl   : W32
  sent : Bool                       -- 06 R206: the Marl read has been issued
  got  : List (W64 × Bool)          -- 07 R229, R233: words of the line and their poison as the served read gives them
deriving DecidableEq, Repr

/-- A line in the write-back buffer (R200). -/
structure WbEnt where
  line : Nat
  valid : W32
  dirty : W32
  poison : W32
  words : Tbl W64
  cls  : Nat                        -- 06 R195: class that allocated the line
deriving DecidableEq, Repr

structure Slice_ where
  ce       : W32 := 0               -- 06 Table 6.12 LSS_CE_COUNT; reset 0
  ue       : W32 := 0               -- 06 Table 6.12 LSS_UE_COUNT; reset 0
  poisonRd : W32 := 0               -- 06 Table 6.12 LSS_POISON_COUNT; reset 0
  errKind  : BitVec 2 := 0          -- 06 Table 6.11 KIND; reset 0
  errWord  : BitVec 26 := 0         -- 06 Table 6.11 WORD; reset 0
  rmw      : W32 := 0               -- 06 Table 6.12 LSS_RMW_COUNT; reset 0
  merged   : W32 := 0               -- 06 Table 6.12 LSS_MISS_MERGED; reset 0
  missWait : W32 := 0               -- 06 Table 6.12 LSS_MISS_WAIT; reset 0
  lockWait : W32 := 0               -- 06 Table 6.12 LSS_LOCK_WAIT; reset 0
  tombDrop : W32 := 0               -- 06 Table 6.12 LSS_TOMB_DROP; reset 0
  laps     : BitVec 16 := 0         -- 06 Table 6.13 LAPS; reset 0
  scrubAt  : Nat := 0               -- 06 R222: accesses done in this lap, 0 to 131,071 (PROGRESS reset 0x00)
  behind   : Bool := false          -- 06 Table 6.13 BEHIND; reset 0
  lapFrom  : W64 := 0               -- 06 R224: device time the lap began; own
  lapLast  : W32 := 0               -- 06 Table 6.14 MS (0x130); reset 0
  lapMax   : W32 := 0               -- 06 Table 6.14 MS (0x134); reset 0
  sets     : Tbl (List Tag) := []   -- 06 R195: tag entries of a set, most recently used first; reset INVALID (R202)
  miss     : List Miss := []        -- 06 R205: miss table, 128 entries
  wb       : List WbEnt := []       -- 06 R200: write-back buffer, 64 lines
  input    : List (Joined × HomeReq) := [] -- 06 R207: requests waiting at the slice input
  fix      : List Nat := []         -- 06 R217: words whose correction awaits an idle slot
  hurt     : List WordFault := []   -- 06 R217, R218: stored words whose check finds an error when they are next read
  held_    : List (Nat × Nat) := [] -- 06 R215: set and line of requests that wait for a victim
  tagLost  : List Nat := []         -- 06 R220, R222: sets with a tag entry lost in both copies, not yet reported
  arb      : Arb := {}              -- 02 Table 2.10, 09 R285: arbiter of the slice input
  rowErr   : Tbl (List W64) := []   -- 14 R440: device times of the correctable errors of row (bank 2^16 + row)
  colErr   : Tbl (List Nat) := []   -- 14 R440: rows of bank b with a failing word at bit k, at 72 b + k
  rowsUsed : Tbl Nat := []          -- 14 Table 14.7: spare rows used per bank
  colsUsed : Tbl Nat := []          -- 14 Table 14.7: spare column groups used per bank
  due      : List (Nat × Nat) := [] -- 14 R440: rows due for replacement (bank, row)
  colDue   : List (Nat × Nat) := [] -- 14 R440: column groups due (bank, group)
  exhausted : Bool := false         -- 14 Table 14.18 EXHAUSTED; reset 0
  resAt    : W64 := 0               -- 06 R222: device time of the last reserved scrub slot; own
deriving DecidableEq, Repr

structure Lss where
  target   : BitVec 17 := 0x0E10    -- 06 Table 6.8 SECONDS; reset 0x0_0E10
  busy     : BitVec 4 := 0          -- 06 Table 6.9 BUSY; reset 0
  roles    : Tbl Byte := []         -- 13 Table 13.5 type 0x06: role of each slice; unlisted as the default split (R188)
  imageRoles : Bool := false        -- 06 R187: roles given by an applied image; own
deriving DecidableEq, Repr

/-! ### Marl (chapter 07) -/

/-- A codeword in a write queue (R229): its data and poison, and whether it came from a partial write (R238). -/
structure MWrite where
  cw     : Nat
  data   : List Byte
  poison : Bool
  part   : Bool
deriving DecidableEq, Repr

structure MChan where
  role    : BitVec 4 := 0           -- 07 Table 7.8 ROLE; reset 0 active (the spare: DESIGN CHOICE channel 16, log 10)
  logical : BitVec 4 := 0           -- 07 Table 7.8 LOGICAL; reset 0x0 (assignment DESIGN CHOICE, log 10)
  given   : Bool := false           -- 07 R226: role and logical differ from the production assignment; own
  mark0   : Byte := 0xFF            -- 07 Table 7.8 MARK0; reset 0xFF
  mark1   : Byte := 0xFF            -- 07 Table 7.8 MARK1; reset 0xFF
  ce      : W32 := 0                -- 07 Table 7.9; reset 0
  ue      : W32 := 0                -- 07 Table 7.9; reset 0
  poison  : W32 := 0                -- 07 Table 7.9; reset 0
  rmw     : W32 := 0                -- 07 Table 7.9; reset 0
  rows    : BitVec 20 := 0          -- 07 Table 7.10 ROWS; reset 0
  errAddr : BitVec 40 := 0          -- 07 Tables 7.11, 7.12 ADDR; reset 0
  errKind : BitVec 2 := 0           -- 07 Table 7.11 KIND; reset 0
  pos0    : Byte := 0xFF            -- 07 Table 7.12 POS0; reset 0xFF
  pos1    : Byte := 0xFF            -- 07 Table 7.12 POS1; reset 0xFF
  laps    : BitVec 16 := 0          -- 07 Table 7.13 LAPS; reset 0
  scrubAt : Nat := 0                -- 07 R242: lines done in this lap (PROGRESS reset 0)
  behind  : Bool := false           -- 07 Table 7.13 BEHIND; reset 0
  lapFrom : W64 := 0                -- 07 R242: device time the lap began; own
  lapLast : W32 := 0                -- 07 Table 7.13 MS (0x124); reset 0
  lapMax  : W32 := 0                -- 07 Table 7.13 MS (0x128); reset 0
  wires   : Tbl Nat := []           -- 07 R235: wire error counters; reset DESIGN CHOICE 0 (log 2)
  queue   : List MWrite := []       -- 07 R229: write queue, 64 lines, oldest first
  arb     : Arb := {}               -- 02 Table 2.10, 09 R284 to R286: arbiter of the channel
  fix     : List (Nat × List Byte) := [] -- 07 R233: codewords whose correction awaits an idle slot, with the corrected data
  resAt   : W64 := 0                -- 07 R242: device time of the last reserved scrub slot; own
deriving DecidableEq, Repr

/-- A channel move to the spare (R236). -/
structure Migr where
  logical : Nat
  src : Nat
  dst : Nat
deriving DecidableEq, Repr

structure Mrl where
  target  : BitVec 17 := 0x0E10     -- 07 Table 7.5 SECONDS; reset 0x0_0E10
  selfRef : BitVec 4 := 0xF         -- 07 Table 7.6 SELF_REFRESH; reset 0x0, but stacks of partitions held in reset are in self-refresh (log 9)
  fast    : Tbl (BitVec 12) := []   -- 07 Table 7.7 FAST per stack; reset 0x000
  migr    : Tbl (Option Migr) := [] -- 07 R236, Table 7.6 MIGRATING; reset none
  spareUsed : BitVec 4 := 0         -- 07 Table 7.6 SPARE_USED; reset 0
  degraded : BitVec 4 := 0          -- 07 Table 7.6 DEGRADED; reset 0
  refRow  : Tbl Nat := []           -- 07 R240: next row to refresh of stack, layer, bank; reset DESIGN CHOICE 0 (log 2)
  hurt    : Tbl (List SymErr) := [] -- 07 R232: symbol errors that a read of a codeword in the array meets
  decayAt : W64 := 0                -- 07 R235: device time of the last decay of the wire counters; own
  rowErr  : Tbl (List W64) := []    -- 14 R442: device times of the corrected codewords of a row
  rowsDue : List Nat := []          -- 14 R442: rows due for replacement
  rowsUsed : Tbl Nat := []          -- 14 Table 14.7: spare rows used per bank per layer
deriving DecidableEq, Repr

/-! ### Contexts and translation unit-wide state (chapter 08) -/

structure Context where
  valid    : Bool := false          -- 08 Table 8.21 VALID; reset 0
  aborting : Bool := false          -- 08 Table 8.21 ABORTING; reset 0
  root     : BitVec 40 := 0         -- 08 Table 8.22 ROOT; reset 0
  strict   : Bool := false          -- 06 Table 6.15 STRICT; reset 0
  reread   : W32 := 0               -- 06 Table 6.12 LSS_CTX_REREAD; reset 0
deriving DecidableEq, Repr

/-- An access translated with a dropped entry and not yet performed (R252): an element of a DMA channel, or a group's word
or atomic part. -/
inductive InvWait where
  | dma (ch k : Nat)
  | group (g : Nat)
  | packet (tid : Nat)              -- a request that stands in a transmit queue of a port
deriving DecidableEq, Repr

/-- A requester's copies of the invalidation and abort registers (R252, R277). -/
structure XltReq where
  addr  : BitVec 48 := 0            -- 08 Table 8.14 ADDR; reset 0
  busy  : Bool := false             -- 08 Table 8.15 BUSY; reset 0
  pages : BitVec 16 := 0            -- 08 Table 8.15 PAGES; reset 0
  all   : Bool := false             -- 08 Table 8.15 ALL; reset 0
  ctx   : BitVec 6 := 0             -- 08 Table 8.15 CTX; reset 0
  waits : List InvWait := []        -- 08 R252: accesses that BUSY waits for; own
  abTag : BitVec 16 := 0            -- 08 Table 8.17 TAG; reset 0
  abForced : BitVec 4 := 0          -- 08 Table 8.17 FORCED; reset 0
  abPhase : BitVec 2 := 0           -- 08 Table 8.17 PHASE; reset 0
  abState : BitVec 4 := 0           -- 08 Table 8.17 STATE; reset 0
deriving DecidableEq, Repr

inductive AbortKind where
  | context (c : Ctx) | partition (p : Tower) | device
deriving DecidableEq, Repr

/-- A command that an abort serves (R269, R274): its requester, its tag, whether it is that requester's last
command, whether it merged, and the fabric command it came by. -/
structure AbortAsk where
  req : Req
  tag : BitVec 16
  shown : Bool
  merged : Bool
  remote : Option (List Byte)
deriving DecidableEq, Repr

/-- A running abort (R269 to R271). -/
structure Abort where
  kind : AbortKind
  t0   : W64                        -- 08 R270: device time of the write
  phase : BitVec 2                  -- 08 Table 8.17 PHASE
  forced : Nat                      -- 08 Table 8.17 FORCED
  ctxs : List Nat                   -- 08 Table 8.12 event 1: affected contexts
  asks : List AbortAsk
deriving DecidableEq, Repr

/-! ### Tasks and partition controllers (chapters 01, 09, 10) -/

/-- Where the completion signal of a task stands (R315). -/
inductive SyncPhase where
  | due
  | retry (since : W64)             -- "target resetting" since (R429)
  | sent (tid : Nat)                -- a fabric signal that awaits its response
  | done
  | posting                         -- 09 R281, 10 R307: its message is presented and not stored yet
deriving DecidableEq, Repr

/-- An admitted task. -/
structure Task where
  ctx : Ctx
  cls : Cls
  sites : Nat
  groups : Nat
  regs : Nat
  slm : Nat
  deadline : Nat
  steps : Nat
  marl : List Nat
  seam : List Nat
  port : List Nat
  entry : BitVec 48
  threads : Nat
  complMsg : Bool
  complSync : Bool
  reply : BitVec 56
  syncAddr : BitVec 56
  tag : W64
  args : List Line
  rt : Bool                         -- 09 R279: real-time class
  demoted : Bool                    -- 09 R295
  winS : Nat                        -- 09 R291: window start
  winE : Nat                        -- 09 R291: window end
  chosen : List Nat                 -- 09 R291: sites chosen for the window
  placed : Nat                      -- 05 R138: groups placed
  ended : Nat                       -- 01 R46: groups ended
  ending : Option (Nat × Nat × Nat) -- 09 Table 9.6: status, reason and EXC of a task being ended
  late : Bool                       -- 09 R291, R296: capacity was lost while it was accepted
  sync : SyncPhase                  -- 10 R315: its completion signal
  endFrom : W64 := 0                -- 08 R276: device time from which the budget of its end counts; own
  endForced : Bool := false         -- 08 R276, Table 8.12 event 5: its holdouts have been forced; own
deriving DecidableEq, Repr

/-- An open packet in an assembly buffer (R306). -/
structure OpenPkt where
  who : Agent
  q   : Nat
  words : List (Line × Byte)        -- 10 R306, R312: words and the parity kept with them
  last : W64                        -- 10 R308: device time of the last word
  dest : Option (BitVec 56)         -- 10 R322: a packet for a remote queue
deriving DecidableEq, Repr

/-- A word a held source presents (R307). -/
structure HeldPut where
  who : Agent
  q : Nat
  word : Line
  bad : Bool
  close : Bool
  dest : Option (BitVec 56)
  since : W64                       -- 14 R429: device time it was first held
  task : Option TaskRef := none     -- 09 R281: the task whose completion it is
  label : Option (Nat × Bool × W32) := none   -- 09 R279: class, real-time flag and deadline field of the task it is sent for
  elem : Option Nat := none         -- 08 R259: the DMA element whose write it is
deriving DecidableEq, Repr

/-- A wait of a local agent that its sync object has not taken yet (R318, R429). -/
structure HeldWait where
  who : Agent
  obj : Nat
  threshold : W64
  us : Nat                          -- its timeout
  since : Option W64                -- device time of the first "target resetting"; none while the pool is full
deriving DecidableEq, Repr

/-- A task message that the controller has taken and not yet answered, as its table of admitted tasks records it with its reply
address and tag (R43): the answer it is to get, and the entry of the task where it is accepted and has not completed. -/
structure Asked where
  task : Task
  word : Line
  ref  : Option TaskRef
deriving DecidableEq, Repr

/-- A fault message from a halted group or unit (R177, R112, R276). -/
structure FaultMsg where
  task : TaskRef
  reason : Nat
  exc : Nat
deriving DecidableEq, Repr

/-- A saved core (R264), kept as the units' records beside the memory image of Table 8.10. -/
structure Saved where
  site : Nat
  base : BitVec 40
  groups : Tbl Group
  arrays : List Array
  dmas : List Dma
  slm : List Host.Cell
  allocs : List SlmAlloc
  bars : List Barrier
  be : Bool
  time : W64 := 0                   -- 08 Table 8.29 TIME: device time of the save
deriving DecidableEq, Repr

structure Part where
  started  : Bool := false          -- 13 R406: controller started; reset DESIGN CHOICE false (log 9)
  held     : Bool := true           -- 13 Table 13.8 event 5: partition domain held in reset; reset held (log 9)
  tasks    : Tbl (Option Task) := [] -- 09 R281: admitted-task table, 256 entries; reset empty
  notices  : List Nat := []         -- 10 R309: pending complete-packet notices (queue numbers), oldest first
  noticeTok : Nat := 0              -- 02 R79: notice token; reset input 0
  asm      : List OpenPkt := []     -- 10 R306: 16 assembly buffers
  held_    : List HeldPut := []     -- 10 R307: held sources
  asked    : List Asked := []       -- 01 R43: task messages taken and not yet answered; reset none
  arrivals : List HeldWait := []    -- 10 R318, 14 R429: waits of local agents on the partition's objects that are held; reset none
  faultMsgs : List FaultMsg := []   -- 08 R276: fault messages not yet handled
  heldRecs : List (Agent × Line × Option TaskRef) := [] -- 08 R254, R273: fault records held by their requesters, with the task of each
  saved    : List Saved := []       -- 08 R264, 09 R291: saved cores, oldest first
  spent    : List Saved := []       -- 08 R266, R267: cores restored already, which their areas still hold
  stage    : BitVec 2 := 0          -- 09 Table 9.9 STAGE; reset 0
  calm     : Nat := 0               -- 09 Table 9.5 event 5: consecutive updates at or below 0.95 a
  floorFault : Bool := false        -- 09 Table 9.10 FAULT; reset 0
  floorSeen : Bool := false         -- 09 Table 9.10 SEEN; reset 0
  floorFixed : Bool := false        -- 09 R297: floor fault from a governor that failed Kaolin
  clearRun : Nat := 0               -- 09 R297: consecutive periods with r_min at or above 1,260
  admitted : Tbl W32 := []          -- 09 Table 9.13 SVC_ADMITTED per class; reset 0
  refused  : Tbl W32 := []          -- 09 Table 9.13 SVC_REFUSED per class; reset 0
  voided   : Tbl W32 := []          -- 09 Table 9.13 SVC_VOIDED per class; reset 0
  surplus  : Tbl W32 := []          -- 09 Table 9.13 SVC_SURPLUS per class; reset 0
  kick     : W64 := 0               -- 14 R422: device time of the last kick
  gen      : BitVec 2 := 0          -- 14 R427: generation of the partition's endpoint entries
  memory   : List (Nat × List Byte) := [] -- 13 R406, 14 Table 14.1: the sections in the controller's local memory, by type; reset none
deriving DecidableEq, Repr

structure Svc where
  cfgFault : Bool := false          -- 09 Table 9.8 CFG_FAULT; reset 0
  cls      : Byte := 0xFF           -- 09 Table 9.8 CLASS; reset 0xFF
  where_   : Byte := 0xFF           -- 09 Table 9.8 WHERE; reset 0xFF
  reason   : Byte := 0              -- 09 Table 9.8 REASON; reset 0x00
  classes  : Tbl ClassEntry := []   -- 09 R281: class table, entry 16 p + c
deriving DecidableEq, Repr

/-! ### Queues and sync objects (chapter 10) -/

/-- A queue word: its 64 bytes, whether it ends its packet, whether its parity or ring copy failed. -/
structure QWord where
  data : Line
  last : Bool
  par  : Byte                       -- 10 R312: the 8 parity bits computed as the word was staged
  ring : Option Nat := none         -- 10 R304: its word of the ring; none on-chip
deriving DecidableEq, Repr

structure Queue where
  owner    : BitVec 2 := 0          -- 10 Table 10.8 OWNER; reset 0
  consumer : BitVec 2 := 0          -- 10 Table 10.8 CONSUMER; reset 0
  notice   : BitVec 2 := 0          -- 10 Table 10.8 NOTICE; reset 0
  target   : BitVec 12 := 0         -- 10 Table 10.8 TARGET; reset 0
  ringUnits : BitVec 10 := 0        -- 10 Table 10.9 UNITS; reset 0
  ringBase : BitVec 22 := 0         -- 10 Table 10.9 BASE; reset 0
  shown    : Bool := false          -- 10 R324: QUE_CFG and QUE_RING show the image's description; reset false: they read 0
  ringNext : Nat := 0               -- 10 R304: ring word that the next word to go there takes; reset DESIGN CHOICE 0 (log 2)
  owed     : List W64 := []         -- 10 R309, 14 R429: notices whose signal met "target resetting", with the device time of the first try; reset none
  words    : List QWord := []       -- 10 Table 10.10 WORDS, head first; reset 0
  lastWord : Line := []             -- 10 R311: word the last TAKE returned; reset 64 bytes of 0
  lastPoison : Bool := false        -- 10 Table 10.1 LAST_POISON; reset DESIGN CHOICE false (log 2)
  lastEnd  : Bool := false          -- 10 Table 10.1 LAST_END; reset DESIGN CHOICE false (log 2)
  underrun : Bool := false          -- 10 Table 10.10 UNDERRUN; reset 0
  committed : W32 := 0              -- 10 Table 10.12; reset 0
  discard  : W32 := 0               -- 10 Table 10.12; reset 0
  refused  : W32 := 0               -- 10 Table 10.12; reset 0
  poisoned : W32 := 0               -- 10 Table 10.12; reset 0
  underruns : W32 := 0              -- 10 Table 10.12; reset 0
  token    : Nat := 0               -- 02 R79: queue-write token; reset input 0
deriving DecidableEq, Repr

/-- A waiter of a sync object (R318). -/
structure Waiter where
  who : Agent
  threshold : W64
  ticket : W32
  until_ : Option W64               -- device time of its timeout
  hw : Bool                         -- one of the 16 hardware entries
  pkt : Option Pkt                  -- the fabric wait to answer
deriving DecidableEq, Repr

/-- An entry of the operation log (Table 10.11). -/
structure SynLog where
  op : BitVec 2
  source : BitVec 6
  ticket : BitVec 24
deriving DecidableEq, Repr

structure SyncObj where
  counter  : W64 := 0               -- 10 Table 10.11 VALUE; reset 0
  ticket   : W32 := 0               -- 10 Table 10.11 TICKET; reset 0
  armed    : Option W64 := none     -- 10 Table 10.11 ARMED; reset 0
  waiters  : List Waiter := []      -- 10 Table 10.11 WAITERS, OVERFLOW; reset none
  log      : List SynLog := []      -- 10 Table 10.11 SYN_LOG0 to 3; reset 0
  failed   : Bool := false          -- 10 Table 10.11 FAILED; reset 0
  replacing : Option (BitVec 12) := none -- 10 Table 10.11 REPLACING, FAIL_SLOT; reset 0
  token    : Nat := 0               -- 02 R79: token over sources; reset input 0
deriving DecidableEq, Repr

/-! ### Vertical bundles (chapter 02) -/

structure Bundle where
  tap   : BitVec 7 := 0             -- 02 R72, 14 Table 14.6 bundle settings; reset 0, not valid
  valid : Bool := false             -- 14 Table 14.6; reset 0
  width : Nat := 0                  -- 02 R72: width of the passing window; reset DESIGN CHOICE 0 (log 2)
  temp  : BitVec 16 := 0            -- 02 R72: slice temperature of the calibration point, 0.5 K from −40 °C; reset DESIGN CHOICE 0 (log 2)
  vcore : Nat := 0                  -- 02 R72: VCORE of the calibration point, mV; reset DESIGN CHOICE 0 (log 2)
  vloess : Nat := 0                 -- 02 R72: VLOESS of the calibration point, mV; reset DESIGN CHOICE 0 (log 2)
  bonds : Nat := 0                  -- 02 R75: spare bonds used; reset 0
  out   : Bool := false             -- 02 R75: out of service; reset 0
deriving DecidableEq, Repr

inductive RotPhase where
  | mirror | spare | sweep | verify
deriving DecidableEq, Repr

structure Rotation where
  bundle : Nat
  phase : RotPhase
  again : Bool                      -- 02 R75: the rotation has restarted once
deriving DecidableEq, Repr

structure BundleGroup where
  rot   : Option Rotation := none   -- 02 R73; reset none
  next  : Nat := 0                  -- 02 R73: round-robin order; reset DESIGN CHOICE 0 (log 2)
  repair : List Nat := []           -- 02 R76: bundles under repair, the one that has the spare first; reset none
  lost  : Bool := false             -- 02 R77: no usable spare bundle
  spareBad : Bool := false          -- 02 R77: the spare bundle failed and its own bonds do not suffice; reset DESIGN CHOICE false (log 2)
  lastRot : Option W64 := none      -- 02 R73: device time at which the last rotation started; reset none
  temp  : BitVec 16 := 0            -- 14 Table 14.6 group calibration point; reset 0
deriving DecidableEq, Repr

/-- The cold-start sweep of the bundles whose window BUNDLE_CAL did not list one by one: one window, with the slice
temperature of each site and the voltages of each partition at that time (R72). -/
structure ColdSweep where
  t0 : Nat
  width : Nat
  temp : Tbl (BitVec 16)
  vcore : Tbl Nat
  vloess : Tbl Nat
deriving DecidableEq, Repr

/-! ### Governors, probes, monitors, AVSBus (chapters 02, 15) -/

structure Gov where
  vcore  : BitVec 10 := 0           -- 15 Table 15.15 VCORE_MV; reset 0x000
  vloess : BitVec 10 := 0           -- 15 Table 15.15 VLOESS_MV; reset 0x000
  vmaxDiv : BitVec 6 := 0           -- 15 Table 15.15 VMAX_DIV; reset 0
  floorBad : BitVec 2 := 0          -- 15 Table 15.15 FLOOR_BAD; reset 0
  pacer  : Bool := false            -- 15 Table 15.15 PACER; reset 0
  due    : List (Nat × Nat) := []   -- 02 R62, R64: voltage writes not yet sent, rail select and mV, oldest first
  back   : Tbl Nat := []            -- 02 R62: voltage read back per rail select, mV; reset DESIGN CHOICE 0, none yet (log 2)
  amps   : Tbl Nat := []            -- 02 R62: last current read per rail select, 10 mA; reset DESIGN CHOICE 0 (log 2)
  rMin   : BitVec 11 := 0           -- 15 Table 15.16 R_MIN; reset 0
  sMin   : BitVec 11 := 0           -- 15 Table 15.16 S_MIN; reset 0
  power  : BitVec 16 := 0           -- 15 Table 15.17 VALUE (0x108); reset 0
  allot  : BitVec 16 := 0           -- 15 Table 15.17 ALLOT; reset 0
  cap    : BitVec 16 := 0xFFFF      -- 15 Table 15.17 VALUE (0x10C); reset 0xFFFF
  overAll : Bool := true            -- 09 R298: over in every period since the last update
  periods : Nat := 0                -- 09 R298: periods since the last update
  weight : Byte := 1                -- 13 Table 13.6 POWER_W; reset DESIGN CHOICE 1 (log 2)
  ageing : Bool := false            -- 15 Table 15.5 AGEING; reset 0
  highFrom : Option W64 := none     -- 15 R469: device time since which VCORE is at or above 0.880 V
  starts : Tbl (List W64) := []     -- 02 R57: wavefront starts of each pipeline in the trailing 1 µs
  waits  : Tbl Nat := []            -- 02 R57: delayed wavefronts of each pipeline
  lastAt : Option W64 := none       -- 02 Table 2.2: device time of the last control period; own
deriving DecidableEq, Repr

structure Probe where
  last : BitVec 11 := 0             -- 15 Table 15.18 LAST; reset 0
  low  : BitVec 11 := 0             -- 15 Table 15.18 LOW; reset 0
  laps : Nat := 0                   -- 02 R53: laps counted in the last 1 µs; reset DESIGN CHOICE 0 (log 2)
  seen : Bool := false              -- 02 R53: the probe has reported; own
  fresh : Bool := false             -- 02 R54: a reading since the governor last read it; own
deriving DecidableEq, Repr

structure Vmon where
  last : BitVec 11 := 0             -- 15 Table 15.18 LAST; reset 0
  low  : BitVec 11 := 0             -- 15 Table 15.18 LOW; reset 0
  seen : Bool := false              -- 15 Table 15.18: a sample since the last read; own
  outRun : Nat := 0                 -- 15 R468: consecutive samples outside the range
  out  : Bool := false              -- 15 Table 15.18 OUT; reset 0
  misRun : Nat := 0                 -- 15 R468: consecutive control periods that differ
  mismatch : Bool := false          -- 15 Table 15.18 MISMATCH; reset 0
  at_  : Option W64 := none         -- 15 R468: device time of the last sample; reset none
deriving DecidableEq, Repr

structure Pwr where
  pkg     : BitVec 16 := 0          -- 15 Table 15.13 POWER; reset 0
  pkgMax  : BitVec 16 := 0          -- 15 Table 15.13 MAX; reset 0
  vrFault : BitVec 6 := 0           -- 15 Table 15.14 VR_FAULT; reset 0
  noResp  : BitVec 5 := 0           -- 02 R63, 15 Table 15.14 AVS_FAULT: no valid response; reset 0
  regFault : BitVec 5 := 0          -- 15 R467, Table 15.14 AVS_FAULT: regulator fault on AVS0 to AVS3; reset 0
  tries   : Tbl Nat := []           -- 02 R63: retries of the running command per interface; reset 0
  amps    : Tbl Nat := []           -- 15 R466: last current read per AVS4 rail select, 10 mA; reset DESIGN CHOICE 0 (log 2)
  vioDown : Bool := false           -- 17 R507: AVSBus and xSPI pins undriven
  rateSet : Byte := 0               -- 02 R62: Vout transition rate written, bit 2 n + r for rail select r of AVSn; reset DESIGN CHOICE 0 (log 2)
  allotAt : Option W64 := none      -- 02 R59: device time of the last allotment update; own
  down    : List (Nat × Nat) := []  -- 17 R506: interface and rail select of the rails that hold bring-up; reset none
  polled  : Tbl (Option W64) := []  -- 15 R467: device time of the last status read of rail select r of AVSn at 6 n + r; reset none
deriving DecidableEq, Repr

/-! ### Thermal (chapter 15) -/

structure Sens where
  eff     : BitVec 16 := 0          -- 15 Table 15.9 EFFECTIVE; reset 0x0000
  raw     : BitVec 16 := 0          -- 15 Table 15.9 RAW; reset 0x0000
  events  : Byte := 0               -- 15 Table 15.10 EVENTS; reset 0
  bad     : Byte := 0               -- 15 Table 15.10 BAD; reset 0
  est     : BitVec 16 := 0          -- 15 Table 15.10 ESTIMATE; reset 0x0000
  good    : Nat := 0                -- 15 R453 good[i]; reset DESIGN CHOICE 0 (log 2)
  invalid : Bool := false           -- 15 Table 15.11 INVALID; reset 0
  latched : Bool := false           -- 15 Table 15.11 LATCHED; reset 0
  suspect : Bool := false           -- 15 Table 15.11 SUSPECT; reset 0
  hist    : List (W64 × BitVec 16) := [] -- 15 R458: its last samples, newest first, at most 5
deriving DecidableEq, Repr

structure Thm where
  halted  : Bool := false           -- 15 Table 15.5 HALTED; reset 0
  stopping : Bool := false          -- 15 Table 15.5 STOPPING; reset 0
  trip    : Bool := false           -- 15 Table 15.5 TRIP; reset 0 (R463: power-on only)
  throttle : BitVec 4 := 0          -- 15 Table 15.5 THROTTLE; reset 0
  voided  : BitVec 16 := 0          -- 15 Table 15.6 VOIDED; reset 0
  sensor  : Byte := 0xFF            -- 15 Table 15.6 SENSOR; reset 0xFF
  event   : BitVec 3 := 0           -- 15 Table 15.6 EVENT; reset 0
  noFlush : Bool := false           -- 15 Table 15.6 NO_FLUSH; reset 0
  cause   : BitVec 2 := 0           -- 15 Table 15.6 CAUSE; reset 0
  t0      : W64 := 0                -- 15 R458 T0
  haltAt  : Nat := 0                -- 15 R458 H
  tripAt  : Option Nat := none      -- 15 R458 t_trip
  coolFrom : Option W64 := none     -- 15 R460: device time since which every value is below 85 °C
  tripFrom : Option W64 := none     -- 15 R463: device time since which every value is below 90 °C
  diode   : Bool := false           -- 15 Table 15.8 FLASH_DIODE; reset 0
  cut     : Bool := false           -- 15 Table 15.3 event 5 done; own
deriving DecidableEq, Repr

/-! ### Links (chapter 11) and collective engines (chapter 12) -/

inductive LinkSt where
  | off | detect | train | upNotReady | up | repair | degrade | retrain | failed
deriving DecidableEq, Repr

/-- A collective in its lead engine (R376 to R382). -/
structure Coll where
  desc : Line
  started : W64                     -- device time the engine started it
  phase : Nat                       -- index into the list of its dimensions, reduce-scatter then all-gather
  round : Nat                       -- 12 R379
  sentPlus : Nat                    -- bytes of this round's chunk sent on the + ring
  sentMinus : Nat                   -- and on the - ring
  recv : Tbl Nat                    -- 12 R380: bytes committed, by phase, round and ring: 256 phase + 2 round + ring
  out : List Nat                    -- 12 R380: TIDs of its packets not yet acknowledged
  part : Tower                      -- posting partition
deriving DecidableEq, Repr

inductive CollMode where
  | idle | waitReady | running | ending
deriving DecidableEq, Repr

structure PortSt where
  st        : LinkSt := .detect     -- 11 Table 11.10 STATE; reset 0x1 DETECT
  peerPort  : BitVec 4 := 0xF       -- 11 Table 11.10 PEER_PORT; reset 0xF
  peerId    : BitVec 16 := 0        -- 11 Table 11.10 PEER_ID; reset 0
  peerReady : Bool := false         -- 11 Table 11.10 PEER_READY; reset 0
  localReady : Bool := false        -- 11 Table 11.10 LOCAL_READY; reset 0
  width     : BitVec 4 := 0         -- 11 Table 11.10 WIDTH; reset 0
  mapTx     : List Nat := []        -- 11 Table 11.12 MAP (TX); reset 0xFFFF_FFFF (none)
  mapRx     : List Nat := []        -- 11 Table 11.12 MAP (RX); reset 0xFFFF_FFFF (none)
  failTx    : BitVec 9 := 0         -- 11 Table 11.13 TX; reset 0
  failRx    : BitVec 9 := 0         -- 11 Table 11.13 RX; reset 0
  okTx      : BitVec 9 := 0         -- 11 R346: healthy transmit directions of the last training
  okRx      : BitVec 9 := 0         -- 11 R346: healthy receive directions of the last training
  spareTx   : Bool := false         -- 11 Table 11.10 SPARE_TX; reset 0
  spareRx   : Bool := false         -- 11 Table 11.10 SPARE_RX; reset 0
  limit     : Tbl Nat := []         -- 11 Table 11.14 LIMIT per VL; reset 0
  avail     : Tbl Nat := []         -- 11 Table 11.14 AVAIL per VL; reset 0
  fecCorr   : W32 := 0              -- 11 Table 11.15; reset 0
  fecUncorr : W32 := 0              -- 11 Table 11.15; reset 0
  crcErr    : W32 := 0              -- 11 Table 11.15; reset 0
  replays   : W32 := 0              -- 11 Table 11.15 ABF_REPLAY; reset 0
  repairs   : W32 := 0              -- 11 Table 11.15; reset 0
  retrains  : W32 := 0              -- 11 Table 11.15; reset 0
  trainTime : W32 := 0              -- 11 Table 11.15; reset 0
  asym      : W32 := 0              -- 11 Table 11.15; reset 0
  txSeq     : BitVec 12 := 0        -- 11 R338, R346: next sequence number; reset 0
  rxSeq     : BitVec 12 := 0        -- 11 R338, R346: expected sequence number; reset 0
  retry     : List (List Byte) := [] -- 11 R338: retry buffer, 512 flits, oldest first
  replayAt  : Option Nat := none    -- 11 R338: next retry-buffer entry to resend
  replayFrom : W64 := 0             -- 11 R338: device time the last replay began
  replayRun : Nat := 0              -- 11 R339: replays from the same SEQ
  replaySeq : BitVec 12 := 0        -- 11 R339
  rplAsk    : Bool := false         -- 11 R338: set RPL until the expected flit arrives
  rplSeen   : Bool := false         -- 11 R338: a flit with RPL has arrived
  initDue   : List Bool := []       -- 11 R342: INITs to send, oldest first, `true` for the second
  initWait  : Bool := false         -- 11 R342, R346: the peer's first INIT since training has yet to come
  kept      : Bool := false         -- 11 R346: KEPT of the INIT to send
  txq       : Tbl (List (List Byte)) := [] -- 11 R343: flits waiting per VL
  txTid     : Tbl Nat := []         -- 08 R252: per VL, 1 + TID of a request of this device of which flits are being sent; own
  rxq       : Tbl (List (List Byte)) := [] -- 11 R341: received flits per VL
  returned  : Tbl Nat := []         -- 11 R341: credits returned per VL since link-up
  taken     : Tbl Nat := []         -- 11 R341: peer's returned count last taken per VL
  mgmtRun   : List Bool := []       -- 11 R343: whether each of the last 8 slots carried a management flit while other lanes had flits waiting
  vlTok     : Nat := 0              -- 11 R343: token over virtual lanes; reset input 0
  advert    : Tbl Nat := []         -- 11 R341: returned count last advertised per VL
  cur       : Tbl (Nat × Bool × W32) := [] -- 11 R343: class, RT and DL of the packet being sent per VL
  shares    : Tbl Nat := []         -- 09 R284: share counter of each class at the outbound side, 1/10 byte; reset DESIGN CHOICE 0 (log 2)
  sharesAt  : W64 := 0              -- 09 R284: device time up to which the counters stand; own
  drrCls    : Nat := 0              -- 09 R286: class being served in tier 3; reset DESIGN CHOICE 0 (log 2)
  drrLeft   : Tbl Nat := []         -- 09 R286: bytes that each class has left of its quanta; reset DESIGN CHOICE 0 (log 2)
  markRun   : Nat := 0              -- 11 R332: consecutive frames with the marker below
  mark      : Byte := 0             -- 11 R332: marker of the last frame
  rxState   : Bool := false         -- 11 R333: the peer's last state marker was NORMAL
  txDue     : List Byte := []       -- 11 R333: marker codes due to be sent
  txMark    : Byte := 0x08          -- 11 R332, R333: marker of the frame being sent, or of the last one
  txRun     : Nat := 0              -- 11 R333: frames begun with that marker, up to 3
  txFrame   : List (List Byte) := [] -- 11 R329: flits of the frame being filled
  markDue   : Option W64 := none    -- 11 R333, 12 R383: device time at which the last TS_MARK fell due
  failRun   : Nat := 0              -- 11 R348: consecutive uncorrectable frames
  decodeAt  : W64 := 0              -- 11 R339: device time of the last frame that decoded
  dark      : BitVec 9 := 0         -- 11 R348: receive lanes without signal or lock
  lostLane  : Option Nat := none    -- 11 R349: logical receive lane being replaced
  switched  : Bool := false         -- 11 R349: TX_SWITCHED for the lane being replaced has come
  txLost    : Option Nat := none    -- 11 R349: logical transmit lane the peer reported
  txNote    : Option (Nat × Nat) := none -- 11 Table 11.7 event 6: transmit lane replaced and its spare, not yet recorded
  degSent   : Bool := false         -- 11 R350: DEGRADE_REQ sent
  degSeen   : Bool := false         -- 11 R350: DEGRADE_REQ received
  retrainFails : Nat := 0           -- 11 R347: retrains in succession without 1 s of service
  upFrom    : W64 := 0              -- 11 R347: device time the port entered service
  retrainDue : Bool := false        -- 11 R351: retrain waiting for a repair to finish
  trainStep : Nat := 0              -- 11 Table 11.6: events of the training that have ended
  rxId      : List Nat := []        -- 11 R325: the peer's physical lane on each receive lane, from TRAIN_ID
  rxFlip    : BitVec 9 := 0         -- 11 R325: receive pairs of inverted polarity, set by training
  miswired  : Bool := false         -- 12 Table 12.18 MISWIRED; reset 0
  hdrErr    : Bool := false         -- 12 Table 12.18 HDR_ERR; reset 0
  txPkts    : W32 := 0              -- 12 Table 12.19; reset 0
  rxPkts    : W32 := 0              -- 12 Table 12.19; reset 0
  transit   : W32 := 0              -- 12 Table 12.19; reset 0
  nackSent  : W32 := 0              -- 12 Table 12.19; reset 0
  nackRcvd  : W32 := 0              -- 12 Table 12.19; reset 0
  giveUp    : W32 := 0              -- 12 Table 12.19; reset 0
  markSeq   : BitVec 16 := 0        -- 12 Table 12.7 TX_SEQ; reset DESIGN CHOICE 0 (log 2)
  markTx    : W64 := 0              -- 12 R383: device time of the last mark sent, 1/16 ns
  markAt    : W64 := 0              -- 12 R383: device time at the start of the first frame of the marker run being received, 1/16 ns
  heard     : Option W64 := none    -- 12 R383: that time for the peer's last TS_MARK, until its TIME_X names the mark
  peerMark  : W64 := 0              -- 12 Table 12.7 RX_TS: device time of the peer's mark named below, 1/16 ns
  peerSeq   : BitVec 16 := 0        -- 12 Table 12.7 RX_SEQ
  peerDist  : Byte := 0xFF          -- 12 R385: peer's DIST; none until an exchange
  peerRoot  : BitVec 16 := 0        -- 12 R385: peer's ROOT
  collLo    : W32 := 0              -- 12 Table 12.20 ADDR (LO); reset 0
  coll      : CollMode := .idle     -- 12 Table 12.21 STATE; reset 0
  collFifo  : List (Line × Tower) := [] -- 12 R376; reset empty (FIFO_COUNT 0)
  collNow   : Option Coll := none   -- 12 R377
  collReady : List Nat := []        -- 12 R378: COLL_IDs of the READYs received on this port and not yet used
  collSeen  : Option (BitVec 16 × Nat) := none -- 12 R378: TID and COLL_ID of the last READY received on this port
  collOwed  : List (Nat × Nat × Line) := [] -- 12 R378, R382: READYs and CANCELs for want of a TID entry not yet sent: port, kind, descriptor
  collSig   : Option (Nat × W64) := none -- 12 R382: signal of OK whose object is resetting, with the time it was first sent
  collId    : BitVec 16 := 0        -- 12 Table 12.21 LAST_ID; reset 0
  collCode  : Byte := 0             -- 12 Table 12.21 LAST_CODE; reset 0
  collDone  : W32 := 0              -- 12 Table 12.19 (0x1AC); reset 0
  collTlb   : List Leaf := []       -- 12 R381: 256 leaf entries
  collOff   : Bool := false         -- 13 Table 13.10: engine disabled after a Kaolin failure
  blkBusy   : Bool := false         -- 14 Table 14.19 BUSY (port); reset 0
  blkRefused : Bool := false        -- 14 Table 14.19 REFUSED (port); reset 0
deriving DecidableEq, Repr

structure LaneSt where
  eyeWidth  : BitVec 16 := 0        -- 11 Table 11.17 WIDTH; reset 0
  eyeHeight : BitVec 16 := 0        -- 11 Table 11.17 HEIGHT; reset 0
  ser       : W32 := 0              -- 11 Table 11.15 ABF_LN_SER; reset 0
  tuning    : Bool := false         -- 11 R348: standby lane in its retune
  tuneAt    : W64 := 0              -- 11 R348: device time the last retune began
  serAt     : List W64 := []        -- 11 R348: device times of the symbol errors located in the last 10 ms
deriving DecidableEq, Repr

/-! ### Network and transport (chapter 12) -/

structure Ring where
  v0 : Bool := false                -- 12 Table 12.14 V0; reset 0
  b0 : BitVec 6 := 0                -- 12 Table 12.14 BREAK0; reset 0
  v1 : Bool := false                -- 12 Table 12.14 V1; reset 0
  b1 : BitVec 6 := 0                -- 12 Table 12.14 BREAK1; reset 0
deriving DecidableEq, Repr

/-- A TID entry of a tower's endpoint (R372). -/
structure TidEnt where
  pkt  : Pkt
  who  : Agent
  first : W64                       -- 12 R374: device time first sent
  last : W64                        -- 12 R372: device time last sent
  wait : Nat                        -- 12 R373: last retry wait before it was drawn, ns; 0 before the first
  until_ : W64                      -- 12 R373: device time the wait expires; 0 while a response is awaited
  gen  : BitVec 2                   -- 14 R427
  port : Option Port                -- port it was first sent on
  dead : Option TaskRef             -- 08 R271, R275: aborted task for which it was sent; it is not sent again
deriving DecidableEq, Repr

/-- A response record (R371). -/
structure RespRec where
  src : BitVec 16
  tid : BitVec 16
  resp : Pkt
  at_ : W64
deriving DecidableEq, Repr

/-- A command counter entry (R389, Table 14.6). -/
structure CmdCount where
  sender : BitVec 16
  key : Nat
  counter : W64
  used : W64
deriving DecidableEq, Repr

/-- A command key (R398): the permitted codes and the key the security engine holds. -/
structure CmdKey where
  valid : Bool := false
  permit : W32 := 0
  key : BitVec 256 := 0
deriving DecidableEq, Repr

structure Net where
  inbox    : List (Nat × Pkt) := [] -- 12 R370: requests delivered here and not yet answered, with their lane; own
  idValid  : Bool := false          -- 12 Table 12.12 VALID; reset 0
  placed   : Bool := false          -- 12 R356: CONFIG has set the torus dimensions and the root; own
  id       : BitVec 16 := 0         -- 12 Table 12.12 ID; reset 0
  dx       : BitVec 5 := 0          -- 12 Table 12.13 DX_M1; reset 0
  dy       : BitVec 5 := 0          -- 12 Table 12.13 DY_M1; reset 0
  dz       : BitVec 6 := 0          -- 12 Table 12.13 DZ_M1; reset 0
  rings    : Tbl Ring := []         -- 12 Table 12.14 ABF_RING_X, Y, Z; reset 0
  limit    : BitVec 6 := 0x14       -- 12 Table 12.15 MS; reset 0x14
  dist     : Byte := 0xFF           -- 12 Table 12.16 DIST; reset 0xFF
  root     : BitVec 16 := 0         -- 12 Table 12.16 ROOT; reset 0
  busySent : BitVec 16 := 0         -- 12 Table 12.17 BUSY_SENT; reset 0
  dropped  : Byte := 0              -- 12 Table 12.17 DROPPED; reset 0
  mgmtq    : List (Nat × Pkt) := [] -- 11 R354: management queue, 32 packets, by source; reset empty (USED 0)
  authFail : W32 := 0               -- 12 Table 12.19 (0x024); reset 0
  mgmtHeld : List (Option Nat × Pkt) := [] -- 12 R372, R386: management packets held for want of a TID entry, with their port; own
  tids     : Tbl (Tbl TidEnt) := [] -- 12 R372: TID entries of each tower's endpoint, 4,096
  recs     : Tbl (List RespRec) := [] -- 12 R371: response records of each delivery tower, 8,192
  keys     : Tbl CmdKey := []       -- 12 R388: command keys, 8; reset none
  keysIn   : Bool := false          -- 13 R409: CONFIG has loaded the command keys; reset false
  drawn    : Nat := 0               -- 12 R373: waits drawn so far (index of the free draw); own (log 6)
deriving DecidableEq, Repr

/-! ### Bring-up, flash, attestation (chapter 13) -/

/-- The 8D-8D-8D read of the configuration flash (Table 13.3): FL_READ, FL_DUMMY, FL_FREQ. -/
structure FastRead where
  command : BitVec 16               -- the first command byte in bits [7:0]
  dummy   : Byte
  freq    : BitVec 2
deriving DecidableEq, Repr

structure Option_ where
  defaults : Bool := false          -- 13 Table 13.16 DEFAULTS; reset 0
  mirror   : Bool := false          -- 13 Table 13.16 MIRROR; reset 0
  slot     : Bool := false          -- 13 Table 13.16 SLOT; reset 0
  fallback : Bool := false          -- 13 Table 13.16 FALLBACK; reset 0
  source   : Bool := false          -- 13 Table 13.16 SOURCE; reset 0
  persist  : Bool := false          -- 13 Table 13.16 PERSIST; reset 0
  keyIndex : BitVec 2 := 0          -- 13 Table 13.16 KEY_INDEX; reset 0
  warmMode : BitVec 2 := 0          -- 13 Table 13.16 WARM_MODE; reset 0
  recalAll : Bool := false          -- 13 Table 13.16 RECAL_ALL; reset 0
  ignored  : Byte := 0              -- 13 Table 13.16 OVR_IGNORED; reset 0
  override : List Byte := []        -- 13 Table 13.3 RESET_OVR; reset none
  fast     : Option FastRead := none -- 13 R393: reads in 8D-8D-8D mode; reset none, 1S-1S-1S (R511)
deriving DecidableEq, Repr

/-- The warm token (R434). -/
structure Token where
  m3 : BitVec 256
  imageId : W64
  at_ : W64
deriving DecidableEq, Repr

/-- A repair map entry (Table 14.8). -/
structure Repair where
  kind : Byte
  logged : Bool
  fused : Bool
  unit : BitVec 16
  index : BitVec 24
  spare : Byte
deriving DecidableEq, Repr

/-- The last fault record (R435). -/
structure FaultRecord where
  source : Byte := 0                -- 14 R435; reset 0, SOURCE 0xFF after L4
  level  : Byte := 0
  target : BitVec 16 := 0
  lost   : W32 := 0                 -- 14 R417: lost-completion count
  time   : W64 := 0
  stage  : Byte := 0
  discarded : Byte := 0             -- 13 R411: requests discarded in bring-up
  detail : W32 := 0
deriving DecidableEq, Repr

/-- An entry of the reset history (Table 14.6). -/
structure HistEnt where
  source : Byte
  level : Byte
  target : Byte
  time : W64
  discarded : Bool
deriving DecidableEq, Repr

/-- What the last ANNOUNCE of a port offered (Table 13.11). -/
structure FwOffer where
  dist : Nat
  imageId : W64
  size : W32
  chunks : W32
deriving DecidableEq, Repr

structure Bru where
  stage    : BitVec 4 := 0          -- 13 Table 13.15 STAGE; reset 0 POWER_ON
  progress : BitVec 4 := 0          -- 13 Table 13.15 PROGRESS; reset 0
  unit     : Byte := 0xFF           -- 13 Table 13.15 UNIT; reset 0xFF
  fault    : Byte := 0              -- 13 Table 13.15 FAULT; reset 0
  fabric   : Bool := false          -- 13 Table 13.15 FABRIC; reset 0
  warm     : Bool := false          -- 13 Table 13.15 WARM; reset 0
  held     : Bool := false          -- 13 Table 13.15 STAGE_HELD; reset 0
  ready    : Bool := false          -- 13 Table 13.15 READY; reset 0
  opt      : Option_ := {}          -- 13 Table 13.16
  slotUsed : Bool := false          -- 13 Table 13.17 SLOT_USED; reset 0
  svn      : BitVec 6 := 0          -- 13 Table 13.17 SVN; reset 0
  svnPend  : Bool := false          -- 13 Table 13.17 SVN_PENDING; reset 0
  persPend : Bool := false          -- 13 Table 13.17 PERSIST_PENDING; reset 0
  persRun  : Bool := false          -- 16 R491: a PERSIST write runs; own
  upstream : BitVec 4 := 0xF        -- 13 Table 13.17 UPSTREAM; reset 0xF
  fwDist   : Byte := 0xFF           -- 13 Table 13.17 FW_DIST; reset 0xFF
  duration : W32 := 0               -- 13 Table 13.18 BRU_DURATION; reset 0
  digest   : BitVec 256 := 0        -- 13 Table 13.18 BRU_DIGEST; reset 0
  idkey    : BitVec 512 := 0        -- 13 Table 13.18 BRU_IDKEY; reset 0
  kaolin   : Tbl (BitVec 27) := []  -- 13 Table 13.20 per tower; reset 0
  from_    : W64 := 0               -- 13 Table 13.18: device time this bring-up started
  count    : W32 := 1               -- 13 Table 13.13: bring-up count since L4
  image    : List Byte := []        -- 13 R406: the verified image (device copy); reset none
  imageId  : W64 := 0               -- 13 R407 IMAGE_ID
  burnSvn  : Bool := false          -- 13 R400 BURN_SVN of the verified image
  revoke   : Bool := false          -- 13 R400 REVOKE of the verified image
  imageKey : BitVec 2 := 0          -- 13 R400: key slot the image verified under
  rx       : Tbl (List Byte) := []  -- 13 R406: chunks received over the fabric
  rxChunks : W32 := 0               -- 13 Table 13.11 CHUNKS
  rxSize   : W32 := 0               -- 13 Table 13.11 IMAGE_SIZE
  rxLast   : W64 := 0               -- 13 R408: device time of the last packet
  rxNew    : Bool := false          -- 13 R408: a chunk has come since the last NEED
  needs    : Nat := 0               -- 13 R408: NEEDs in succession that brought no chunk
  ann      : Tbl FwOffer := []      -- 13 R407: ANNOUNCE taken per port
  askers   : List Nat := []         -- 13 R407: ports that sent REQUEST and not yet DONE
  hold     : Byte := 1              -- 13 Table 13.6 STAGE_HOLD; reset DESIGN CHOICE 1 (log 2)
  readyAt  : W64 := 0               -- 13 R407: device time of READY
  kaolinAt : W64 := 0               -- 13 R408: device time KAOLIN ended
  tested   : Bool := false          -- 13 R401: MEMORY_TEST has run in this bring-up; own
  tokenWas : Option Token := none   -- 13 R403: the warm token found when this bring-up started; own
  cause    : Byte := 0xFF           -- 13 Table 13.3 WARM.MODE: source of the reset that started this bring-up; own
  faultQ   : List (BitVec 16) := [] -- 13 Table 13.6 FAULT_Q; reset DESIGN CHOICE 0 (log 2)
  collQ    : List (BitVec 16) := [] -- 13 Table 13.6 COLL_Q; reset DESIGN CHOICE 0 (log 2)
  pool     : W64 := 0               -- 13 Table 13.6 WAITER_POOL; reset DESIGN CHOICE 0 (log 2)
  attest   : W64 := 0               -- 13 Table 13.6 ATTEST_BUF; reset DESIGN CHOICE 0 (log 2)
  hashBad  : List Nat := []         -- 13 Table 13.10: partitions whose staging hash unit failed
  annAt    : Option W64 := none     -- 13 R407: device time of the last ANNOUNCE; reset none
  optIn    : Bool := false          -- 13 R393: the options of this bring-up have been read; own
  -- attestation
  signing  : Option (Bool × BitVec 256 × List Byte) := none -- 13 R415: DOE?, nonce, command being signed
  signQ    : List (Bool × BitVec 256 × List Byte) := [] -- 13 R415: requests in order of arrival
  signDrop : Bool := false          -- 16 R489: the finished signature is to be discarded
  m3       : BitVec 256 := 0        -- 13 Table 13.13 M3; reads 0 until taken
  m1       : BitVec 256 := 0        -- 13 Table 13.13 M1; reads 0 until taken
  m5       : BitVec 256 := 0        -- 13 Table 13.13 M5; reads 0 until taken
  m6       : BitVec 256 := 0        -- 13 Table 13.13 M6; reads 0 until taken
deriving DecidableEq, Repr

/-! ### Resets (chapter 14) -/

/-- A running reset (R425): its level, target, source and start. -/
structure Reset where
  level : Nat
  target : Nat
  source : Nat
  t0 : W64
  drained : Bool
deriving DecidableEq, Repr

/-- A task of a partition in reset whose completion the management core has yet to post: its signal waits or is out (R315,
R417, R429). -/
structure OwedEnd where
  p     : Tower
  task  : Task
  word  : Line
deriving DecidableEq, Repr

structure Rst where
  lastSource : Byte := 0xFF         -- 14 Table 14.12 SOURCE; reset 0xFF
  lastTarget : Byte := 0            -- 14 Table 14.12 TARGET; reset 0
  lastLevel : BitVec 3 := 4         -- 14 Table 14.12 LEVEL; reset 0x4
  timeout  : BitVec 16 := 0x64      -- 14 Table 14.14 TIMEOUT; reset 0x0064
  refused  : Bool := false          -- 14 Table 14.15 REFUSED; reset 0
  wdog     : BitVec 4 := 0          -- 14 Table 14.15 WDOG; reset 0
  inReset  : BitVec 4 := 0          -- 14 Table 14.15 IN_RESET; reset 0
  backup   : Tbl W64 := []          -- 14 Table 14.16, R432: 16 backup registers; 0 after L4
  token    : Option Token := none   -- 14 R434; 0 after L4
  record   : FaultRecord := { source := 0xFF } -- 14 R435; SOURCE 0xFF after L4
  history  : List HistEnt := []     -- 14 Table 14.6; 0 after L4
  repairs  : List Repair := []      -- 14 R444: repair map; 0 after L4
  mapOk    : Bool := true           -- 14 Table 14.15 RM_VALID: an empty map reads 1
  logTail  : List Repair := []      -- 14 R445: entries in the repair log
  logSeq   : W32 := 0               -- 14 R445 SEQ; reset DESIGN CHOICE 0, an empty log (log 10)
  logHalf  : Bool := false          -- 14 R445: half that takes records; reset DESIGN CHOICE first (log 10)
  logPos   : Nat := 0               -- 14 R445: records in it; reset DESIGN CHOICE 0 (log 10)
  l4count  : W32 := 0               -- 14 R445: L4 count; reset DESIGN CHOICE 0 (log 2)
  fw       : List Host.Cell := []   -- 14 Table 14.6: firmware use, 12 KiB; 0 after L4
  cmds     : List CmdCount := []    -- 12 R389, 14 Table 14.6: command counter table, 1,024 entries; 0 after L4
  running  : List Reset := []       -- 14 R425: resets that run
  owed     : List OwedEnd := []     -- 14 R417, 10 R315: completions that wait for their signal; own
  mgmtKick : W64 := 0               -- 14 R422: device time of the last rearm
  l4held   : Bool := false          -- 14 R418: every domain held in reset
  l4From   : W64 := 0               -- 14 R418: device time the hold began
  powered  : Bool := true           -- 17 R507: VAON within tolerance
deriving DecidableEq, Repr

/-! ### Board interfaces (chapter 16) -/

inductive JtagIr where
  | bypass | idcode | samplePreload | extest | clamp | highz | extestPulse | extestTrain | regAccess
deriving DecidableEq, Repr

structure Board where
  straps  : BitVec 4 := 0           -- 17 R510: I3C_ADDR straps sampled at L4; DESIGN CHOICE 0 (log 10)
  i3cAddr : Option (BitVec 7) := none -- 16 R492: dynamic address; none until assigned
  i3cIx   : Byte := 0               -- 16 R493: telemetry index; reset DESIGN CHOICE 0 (log 2)
  i3cTab  : List W32 := []          -- 16 R493: the table of the last refresh
  i3cAt   : Option W64 := none      -- 16 R493: device time of that refresh; reset none
  ir      : JtagIr := .idcode       -- 16 R494: instruction register; PRESUMED IDCODE (IEEE 1149.1, log 2)
  bsr     : Tbl Bool := []          -- 16 R494: boundary cells preloaded
  jhold   : Bool := false           -- 16 R494: domains held in reset by the test port
  driven  : Bool := false           -- 16 R494: an EXTEST form or CLAMP drives the outputs from the boundary cells
  floated : Bool := false           -- 16 R494: HIGHZ floats the outputs
  flash   : List Host.Cell := []    -- 13 Table 13.2: configuration flash, 128 MiB; unlisted bytes read 0xFF (log 12)
deriving DecidableEq, Repr

/-! ### The state -/

structure State where
  skt     : Skt := {}
  sel     : Tbl (BitVec 16) := []   -- 00 R16, Table 0.6 INSTANCE: copy of requester r and unit u at 16 r + u; reset 0
  synLatch : Tbl W32 := []          -- 10 Table 10.11 VALUE HI latch per requester; reset 0
  winTok  : Tbl Nat := []           -- 00 R20, 02 R79: window access token per unit; reset input 0; moves only at a tie, and
                                    -- the queue gives every access its place, so no tie arises (log 17)
  hst     : Hst := {}
  pcie    : Pcie := {}
  fuses   : Fuses := {}
  arys    : Tbl Array := []         -- 192 arrays (R26)
  groups  : Tbl Group := []         -- 2,304 group slots, 24 × site + slot
  sites   : Tbl Site_ := []         -- 96 sites
  dmas    : Tbl Dma := []           -- 384 channels (R278)
  slices  : Tbl Slice_ := []        -- 96 slices
  lss     : Lss := {}
  loess   : List Host.Cell := []    -- 06 R182: byte x of slice s at s 2^26 + x; unlisted bytes 0 (R401, log 13)
  loessBad : List Nat := []         -- 06 R219: poisoned scratch words, (s 2^26 + x) / 8
  seams   : Tbl Arb := []           -- 01 R23, 09 R284: arbiters of the seam link directions 0→1, 1→0, 1→2, … 0→3
  routers : Tbl Arb := []           -- 02 Table 2.10: arbiters of the transit routers, one per tower
  mchans  : Tbl MChan := []         -- 68 Marl channels
  mrl     : Mrl := {}
  marl    : List Host.Cell := []    -- 07 R225: byte at Marl address PA; unlisted bytes 0 (R401, log 13)
  marlBad : List Nat := []          -- 07 R230, R239: poisoned codewords, PA / 64
  ctxs    : Tbl Context := []       -- 64 contexts
  xreqs   : Tbl XltReq := []        -- per-requester copies
  aborts  : List Abort := []        -- 08 R269: running aborts, at most 8
  parts   : Tbl Part := []          -- 4 partitions
  svc     : Svc := {}
  queues  : Tbl Queue := []         -- 512 queues
  syncs   : Tbl SyncObj := []       -- 4,096 objects and 128 spare slots (R324)
  bundles : Tbl Bundle := []        -- bundle b of group k of site s at (8 s + k) 33 + b (R71)
  coldSweep : Option ColdSweep := none -- 02 R72: what the bundles not listed hold since the last cold start; reset none
  bgroups : Tbl BundleGroup := []   -- group k of site s at 8 s + k
  govs    : Tbl Gov := []           -- 4 governors
  probes  : Tbl Probe := []         -- 0 to 95 sites, 96 to 191 slices
  vmons   : Tbl Vmon := []          -- monitor m of tower t at 8 t + m
  pwr     : Pwr := {}
  sens    : Tbl Sens := []          -- 256 sensors
  thm     : Thm := {}
  ports   : Tbl PortSt := []        -- 6 ports
  lanes   : Tbl LaneSt := []        -- lane k of port p at 9 p + k
  net     : Net := {}
  bru     : Bru := {}
  rst     : Rst := {}
  board   : Board := {}
  tick    : Nat := 0                -- own: number of free values drawn so far (log 6); reset DESIGN CHOICE 0
  tx      : List Sent := []         -- own: what the block has sent, newest first (log 14)
  pending : List Instr := []        -- own: commands waiting, first in, first out
deriving DecidableEq, Repr

/-- Reasons a step stops with a fault. The model raises none: every command of the table has an effect in
every state (log 3), and an access to an address the spec says does not exist ends in the bus error
the spec gives it (R36). The one constructor is kept for the interface's type. -/
inductive Fault where
  /-- Raised by no meaning; safe, since nothing reaches it. -/
  | none
deriving DecidableEq, Repr

/-- Reasons a command is refused. -/
inductive Refusal where
  /-- Raised by an arm of `exec` whose command has no meaning yet; safe (the model stops). -/
  | notModelled (mnemonic : String)
deriving DecidableEq, Repr

/-- The block right after reset: the release of the power-on L4 (R418, T0 of Table 13.8), before the first
bring-up command; every table empty, so every unit stands at its default record. -/
def State.reset : State := {}

end Sys2Proof.Machine
end

