-- ==== Sys2Proof/Machine/Table.lean ====
section
/-! DEFINITION. Operations on sparse tables (`Tbl`): entries in rising key order, none equal to the
table's default, so that equal tables are equal data. Memory lists are tables of bytes. -/

namespace Sys2Proof.Machine
open Sys2Proof

/-- The value at key `k`; the default `d` where no entry has that key. -/
def Tbl.get {α : Type} (d : α) : Tbl α → Nat → α
  | [], _ => d
  | (a, v) :: t, k => if a = k then v else Tbl.get d t k

/-- Insert or replace the entry of key `k`, keeping the key order. -/
def Tbl.ins {α : Type} (k : Nat) (v : α) : Tbl α → Tbl α
  | [] => [(k, v)]
  | (a, w) :: t =>
    if a < k then (a, w) :: Tbl.ins k v t
    else if a = k then (k, v) :: t
    else (k, v) :: (a, w) :: t

/-- Remove the entry of key `k`. -/
def Tbl.del {α : Type} (k : Nat) : Tbl α → Tbl α
  | [] => []
  | (a, w) :: t => if a = k then Tbl.del k t else (a, w) :: Tbl.del k t

/-- Set the value at key `k`; the default value removes the entry. -/
def Tbl.put {α : Type} [DecidableEq α] (d : α) (t : Tbl α) (k : Nat) (v : α) : Tbl α :=
  if v = d then Tbl.del k t else Tbl.ins k v t

/-- Change the value at key `k` by `f`. -/
def Tbl.mod {α : Type} [DecidableEq α] (d : α) (t : Tbl α) (k : Nat) (f : α → α) : Tbl α :=
  Tbl.put d t k (f (Tbl.get d t k))

/-- Every key of the table is at least `n`, keys rise, and no entry is the default. -/
def Tbl.wfFrom {α : Type} [DecidableEq α] (d : α) : Nat → Tbl α → Bool
  | _, [] => true
  | n, (a, v) :: t => decide (n ≤ a) && !decide (v = d) && Tbl.wfFrom d (a + 1) t

/-- The canonical form of a table. -/
def Tbl.wf {α : Type} [DecidableEq α] (d : α) (t : Tbl α) : Bool := Tbl.wfFrom d 0 t

/-- Write the bytes `bs` from address `a` up; `d` is what an unlisted byte reads as. -/
def putBytes (d : Byte) : Tbl Byte → Nat → List Byte → Tbl Byte
  | m, _, [] => m
  | m, a, b :: bs => putBytes d (Tbl.put d m a b) (a + 1) bs

/-- Read `n` bytes from address `a` up. -/
def getBytes (d : Byte) (m : Tbl Byte) (a n : Nat) : List Byte :=
  (List.range n).map fun i => Tbl.get d m (a + i)

/-- Fold `f` over the numbers below `n`, lowest first. -/
def forN {σ : Type} (n : Nat) (f : Nat → σ → σ) (s : σ) : σ :=
  (List.range n).foldl (fun s i => f i s) s

/-- Fold `f` over a list, first element first. -/
def forL {σ α : Type} (l : List α) (f : α → σ → σ) (s : σ) : σ :=
  l.foldl (fun s a => f a s) s

end Sys2Proof.Machine
end

