-- ==== Sys2Proof/Machine/Ops.lean ====
section
/-! DEFINITION. The named operations every meaning is written over: access to the record of one unit of
a replicated kind, device time, events and vectors of the host port, counted register writes, free
values, and the fuse map. -/

namespace Sys2Proof.Machine
open Sys2Proof

/-! ### Records of replicated units -/

/-- The record of array `i` (R26). -/
def State.getAry (s : State) (i : Nat) : Array := Tbl.get {} s.arys i

/-- `s` with the record of array `i` (R26) changed by `f`. -/
def State.modAry (s : State) (i : Nat) (f : Array → Array) : State :=
  { s with arys := Tbl.mod {} s.arys i f }

/-- The record of group slot `i` = 24 × site + slot (Table 5.1). -/
def State.getGrp (s : State) (i : Nat) : Group := Tbl.get {} s.groups i

/-- `s` with the record of group slot `i` = 24 × site + slot (Table 5.1) changed by `f`. -/
def State.modGrp (s : State) (i : Nat) (f : Group → Group) : State :=
  { s with groups := Tbl.mod {} s.groups i f }

/-- The record of site `i` (R26). -/
def State.getSite (s : State) (i : Nat) : Site_ := Tbl.get {} s.sites i

/-- `s` with the record of site `i` (R26) changed by `f`. -/
def State.modSite (s : State) (i : Nat) (f : Site_ → Site_) : State :=
  { s with sites := Tbl.mod {} s.sites i f }

/-- The record of DMA channel `i` (R278). -/
def State.getDma (s : State) (i : Nat) : Dma := Tbl.get {} s.dmas i

/-- `s` with the record of DMA channel `i` (R278) changed by `f`. -/
def State.modDma (s : State) (i : Nat) (f : Dma → Dma) : State :=
  { s with dmas := Tbl.mod {} s.dmas i f }

/-- The record of slice `i` (R26). -/
def State.getSlc (s : State) (i : Nat) : Slice_ := Tbl.get {} s.slices i

/-- `s` with the record of slice `i` (R26) changed by `f`. -/
def State.modSlc (s : State) (i : Nat) (f : Slice_ → Slice_) : State :=
  { s with slices := Tbl.mod {} s.slices i f }

/-- The record of Marl channel `i` = 17 × stack + channel. -/
def State.getMCh (s : State) (i : Nat) : MChan := Tbl.get {} s.mchans i

/-- `s` with the record of Marl channel `i` = 17 × stack + channel changed by `f`. -/
def State.modMCh (s : State) (i : Nat) (f : MChan → MChan) : State :=
  { s with mchans := Tbl.mod {} s.mchans i f }

/-- The record of context `i` (R243). -/
def State.getCtx (s : State) (i : Nat) : Context := Tbl.get {} s.ctxs i

/-- `s` with the record of context `i` (R243) changed by `f`. -/
def State.modCtx (s : State) (i : Nat) (f : Context → Context) : State :=
  { s with ctxs := Tbl.mod {} s.ctxs i f }

/-- The record of the copies of requester `i` (R252, R277). -/
def State.getXrq (s : State) (i : Nat) : XltReq := Tbl.get {} s.xreqs i

/-- `s` with the record of the copies of requester `i` (R252, R277) changed by `f`. -/
def State.modXrq (s : State) (i : Nat) (f : XltReq → XltReq) : State :=
  { s with xreqs := Tbl.mod {} s.xreqs i f }

/-- The record of partition `i`. -/
def State.getPart (s : State) (i : Nat) : Part := Tbl.get {} s.parts i

/-- `s` with the record of partition `i` changed by `f`. -/
def State.modPart (s : State) (i : Nat) (f : Part → Part) : State :=
  { s with parts := Tbl.mod {} s.parts i f }

/-- The record of queue `i` (R304). -/
def State.getQue (s : State) (i : Nat) : Queue := Tbl.get {} s.queues i

/-- `s` with the record of queue `i` (R304) changed by `f`. -/
def State.modQue (s : State) (i : Nat) (f : Queue → Queue) : State :=
  { s with queues := Tbl.mod {} s.queues i f }

/-- The record of sync object or spare slot `i` (R316, R324). -/
def State.getSyn (s : State) (i : Nat) : SyncObj := Tbl.get {} s.syncs i

/-- `s` with the record of sync object or spare slot `i` (R316, R324) changed by `f`. -/
def State.modSyn (s : State) (i : Nat) (f : SyncObj → SyncObj) : State :=
  { s with syncs := Tbl.mod {} s.syncs i f }

/-- The tap of a passing window: t0 + max(8, ⌈w ÷ 4⌉), at most the last of 128 taps (R72). -/
def tapOf (t0 w : Nat) : Nat := min 127 (t0 + max 8 ((w + 3) / 4))

/-- What a bundle that the table does not list holds: its reset value, or the point of the last cold start (R72). -/
def State.bunDefault (s : State) (i : Nat) : Bundle :=
  match s.coldSweep with
  | none => {}
  | some c =>
    { tap := BitVec.ofNat 7 (tapOf c.t0 c.width), valid := true, width := c.width, temp := Tbl.get 0 c.temp (i / 264)
      vcore := Tbl.get 0 c.vcore (i / 6336), vloess := Tbl.get 0 c.vloess (i / 6336) }

/-- The record of bundle `i` (R71). -/
def State.getBun (s : State) (i : Nat) : Bundle := Tbl.get (s.bunDefault i) s.bundles i

/-- `s` with the record of bundle `i` (R71) changed by `f`. -/
def State.modBun (s : State) (i : Nat) (f : Bundle → Bundle) : State :=
  { s with bundles := Tbl.mod (s.bunDefault i) s.bundles i f }

/-- The record of bundle group `i` = 8 × site + group. -/
def State.getBgr (s : State) (i : Nat) : BundleGroup := Tbl.get {} s.bgroups i

/-- `s` with the record of bundle group `i` = 8 × site + group changed by `f`. -/
def State.modBgr (s : State) (i : Nat) (f : BundleGroup → BundleGroup) : State :=
  { s with bgroups := Tbl.mod {} s.bgroups i f }

/-- The record of the governor of partition `i`. -/
def State.getGov (s : State) (i : Nat) : Gov := Tbl.get {} s.govs i

/-- `s` with the record of the governor of partition `i` changed by `f`. -/
def State.modGov (s : State) (i : Nat) (f : Gov → Gov) : State :=
  { s with govs := Tbl.mod {} s.govs i f }

/-- The record of probe `i`. -/
def State.getPrb (s : State) (i : Nat) : Probe := Tbl.get {} s.probes i

/-- `s` with the record of probe `i` changed by `f`. -/
def State.modPrb (s : State) (i : Nat) (f : Probe → Probe) : State :=
  { s with probes := Tbl.mod {} s.probes i f }

/-- The record of monitor `i`. -/
def State.getVmn (s : State) (i : Nat) : Vmon := Tbl.get {} s.vmons i

/-- `s` with the record of monitor `i` changed by `f`. -/
def State.modVmn (s : State) (i : Nat) (f : Vmon → Vmon) : State :=
  { s with vmons := Tbl.mod {} s.vmons i f }

/-- The record of temperature sensor `i`. -/
def State.getSen (s : State) (i : Nat) : Sens := Tbl.get {} s.sens i

/-- `s` with the record of temperature sensor `i` changed by `f`. -/
def State.modSen (s : State) (i : Nat) (f : Sens → Sens) : State :=
  { s with sens := Tbl.mod {} s.sens i f }

/-- The record of fabric port `i` (R325). -/
def State.getPort (s : State) (i : Nat) : PortSt := Tbl.get {} s.ports i

/-- `s` with the record of fabric port `i` (R325) changed by `f`. -/
def State.modPort (s : State) (i : Nat) (f : PortSt → PortSt) : State :=
  { s with ports := Tbl.mod {} s.ports i f }

/-- The record of lane `i` = 9 × port + lane. -/
def State.getLane (s : State) (i : Nat) : LaneSt := Tbl.get {} s.lanes i

/-- `s` with the record of lane `i` = 9 × port + lane changed by `f`. -/
def State.modLane (s : State) (i : Nat) (f : LaneSt → LaneSt) : State :=
  { s with lanes := Tbl.mod {} s.lanes i f }


/-! ### Device time, free values, what is sent -/

/-- Device time in ns (R65). -/
def now (s : State) : Nat := s.skt.time.toNat

/-- Record what the block sends or returns (newest first). -/
def send (x : Sent) (s : State) : State := { s with tx := x :: s.tx }

/-- The number of the next free value, and the state that has used it up (log 6). -/
def draw (s : State) : Nat × State := (s.tick, { s with tick := s.tick + 1 })

/-! ### Host events and vectors (R485) -/

/-- MSI-X message sending is allowed for vector `v`: enabled, not masked, Bus Master Enable set and the
function not in D3hot (R475, R485). -/
def msixAllowed (s : State) (v : Nat) : Bool :=
  s.pcie.msixOn && s.pcie.busMaster && !s.pcie.msixMaskAll && !s.pcie.d3hot
    && !(Tbl.get {} s.pcie.msix v).mask

/-- Send vector `v`, or leave it pending while it may not be sent (R485). -/
def sendVector (v : Nat) (s : State) : State :=
  if msixAllowed s v then send (.msix v) s
  else { s with pcie := { s.pcie with pba := setBit s.pcie.pba v true } }

/-- Set bit `k` of HST_EVENT; a change from 0 to 1 of an enabled bit sends vector `k` (R485). -/
def raiseEvent (k : Nat) (s : State) : State :=
  if getBit s.hst.event k then s
  else
    let s1 := { s with hst := { s.hst with event := setBit s.hst.event k true } }
    if getBit s.hst.eventEn k then sendVector k s1 else s1

/-- Count a bus error met by a BAR2 request: HST_BUS_ERR, its address, HST_EVENT.BUS_ERR (R482). -/
def hostBusError (addr : Nat) (s : State) : State :=
  raiseEvent 10 { s with hst := { s.hst with
    busErr := s.hst.busErr + 1, busErrAt := BitVec.ofNat 40 addr } }

/-- Count a refused register write in HST_REG_ERRp, or in HST_REG_ERR_DEV where `part` is none, with the
requester, window and offset in HST_REG_ERR_LAST, and raise REG_ERR (R495). -/
def countRegErr (r : Nat) (win off : Nat) (part : Option Nat) (s : State) : State :=
  let k := part.getD 4
  raiseEvent 11 { s with hst := { s.hst with
    regErr := Tbl.mod 0 s.hst.regErr k (· + 1),
    lastReq := BitVec.ofNat 3 r, lastWin := BitVec.ofNat 13 win, lastOff := BitVec.ofNat 16 off } }

/-- Deadline field `a` is earlier than `b` (R280). -/
def dlEarlier (a b : W32) : Bool := decide (2 ^ 31 ≤ (a - b).toNat)

/-! ### Sites, towers, the fuse map -/

/-- RST_SITE_STATE.STATE of a site (Table 14.18): by the fuse map until a repair changes it. -/
def siteStatus (s : State) (j : Nat) : Nat :=
  let x := s.getSite j
  if x.byFuse then
    if j ∈ s.fuses.sitesOff then 6 else if j ∈ s.fuses.spares then 1 else 0
  else x.status.toNat

/-- Set RST_SITE_STATE.STATE of a site. -/
def setSiteStatus (j v : Nat) (s : State) : State :=
  s.modSite j fun x => { x with status := BitVec.ofNat 4 v, byFuse := false }

/-- The site runs work: enabled, spare active or degraded (Table 14.18). -/
def siteInService (s : State) (j : Nat) : Bool :=
  siteStatus s j == 0 || siteStatus s j == 2 || siteStatus s j == 3

/-- The slice is visible (R3). -/
def sliceVisible (s : State) (j : Nat) : Bool := decide (j < 96) && !(s.fuses.slicesOff.contains j)

/-- The port is not fused off (R4). -/
def portPresent (s : State) (k : Nat) : Bool := decide (k < 6) && !(s.fuses.portsOff.contains k)

/-- The tower that hosts a fabric port (Table 1.1). -/
def portTower (k : Nat) : Nat :=
  if k = 0 ∨ k = 2 then 0 else if k = 1 then 1 else if k = 3 then 2 else 3

/-- The sites of tower `p`. -/
def towerSites (p : Nat) : List Nat := (List.range 24).map (24 * p + ·)

/-- Partition `p` is fenced: in L2, covered by a running L3 drain, halted (R460), or held by an L4 or by the test port
(R418, R494). -/
def inReset (s : State) (p : Nat) : Bool := getBit s.rst.inReset p || s.thm.halted || s.rst.l4held || s.board.jhold

/-! ### The repair map (R436, R444) -/

/-- Add an entry to the repair map; it waits for the log and, for the kinds of Table 14.7 that are fused,
for the fuses. A map of 1,023 entries takes no more (Table 14.6). -/
def addRepair (kind unit index spare : Nat) (s : State) : State :=
  if s.rst.repairs.length < 1023 then
    { s with rst := { s.rst with repairs := s.rst.repairs ++
        [{ kind := BitVec.ofNat 8 kind, logged := false, fused := false, unit := BitVec.ofNat 16 unit,
           index := BitVec.ofNat 24 index, spare := BitVec.ofNat 8 spare }] } }
  else s

/-- The kinds of repair that are programmed into the repair fuses (Tables 14.7, 14.8): core site, Loess
row and column group, spare bond, Marl row. -/
def kindFused (kind : Nat) : Bool := [1, 2, 4, 7, 8, 9].contains kind

/-- Notify the management core. -/
def notifyMgmt (what : Nat) (s : State) : State := send (.notify what) s

/-- The meaning of a command that only changes the state. -/
def ok (s : State) : Host.Outcome State Fault Refusal := .next s

end Sys2Proof.Machine
end

