-- ==== Sys2Proof/Machine/Arbiter.lean ====
section
/-! DEFINITION. Arbitration points (R78 to R80, R284 to R286): the token, the share counters of the classes, the tiers and
the deficit round robin, as the Marl channels and the slice inputs use them; the fabric ports have their own in Links. -/

namespace Sys2Proof.Machine
open Sys2Proof

/-- Distance of an input from the token, cyclically. -/
def fromToken (n tok i : Nat) : Nat := (i + n - tok % n) % n

/-- The first of the requesters in cyclic order from the token; 0 when there is none. -/
def tokenFirst (n tok : Nat) (l : List Nat) : Nat :=
  match l with
  | [] => 0
  | a :: r => r.foldl (fun b i => if fromToken n tok i < fromToken n tok b then i else b) a

/-- The label of a request: class, real-time flag, deadline field (R279). -/
abbrev Label := Nat × Bool × W32

/-- The label of background work, of firmware and of flushes: class 0, best-effort (R202, R287). -/
def backLabel : Label := (0, false, 0)

/-- A request that waits at a point: its input, label and bytes (R279). -/
structure Cand where
  input : Nat
  cls   : Nat
  rt    : Bool
  dl    : W32
  bytes : Nat
deriving DecidableEq, Repr

/-- A request of label `l`. -/
def Label.cand (l : Label) (input bytes : Nat) : Cand := { input := input, cls := l.1, rt := l.2.1, dl := l.2.2, bytes := bytes }

/-- Input that a requester uses at a slice: its site, or a number of its own after the 96 sites (DESIGN CHOICE, log 84: the
spec does not number the inputs). -/
def agentInput : Agent → Nat
  | .group site _ => site.val
  | .array a => a.val / 2
  | .dma ch => ch.val / 4
  | .host => 96
  | .mgmt => 97
  | .pc p => 98 + p.val
  | .remote _ _ _ => 102
  | .coll port => 103 + port.val
  | .notice _ => 109

/-- Inputs of a slice. -/
def agentInputs : Nat := 110

/-- Counter of class `c`, in 1/`unit` byte, brought up to time `t`: it stops at the share of 2 µs, or at 512 bytes (R284). -/
def arbShare (share : Nat → Nat) (unit t : Nat) (a : Arb) (c : Nat) : Nat :=
  min (Tbl.get 0 a.shares c + share c * (t - a.at_.toNat)) (max (share c * 2000) (512 * unit))

/-- The request is within share; at a point with no class minimum every request is (R284). -/
def arbWithin (share : Nat → Nat) (unit t : Nat) (a : Arb) (c : Cand) : Bool :=
  (List.range 16).all (fun k => decide (share k = 0)) || decide (c.bytes * unit ≤ arbShare share unit t a c.cls)

/-- The candidate whose input the token names first, the oldest of that input, and the token after it: unmoved when no
other input tied (R79). -/
def arbToken (inputs token : Nat) (cs : List Cand) : Option (Cand × Nat) :=
  let ins := (cs.map (·.input)).eraseDups
  let w := tokenFirst inputs token ins
  let losers := ins.filter (· ≠ w)
  (cs.find? fun c => c.input = w).map fun c => (c, if losers = [] then token else tokenFirst inputs (w + 1) losers)

/-- The request the point serves: the tier and token with it (R285, R286). -/
def arbPick (share : Nat → Nat) (unit t inputs : Nat) (a : Arb) (cs : List Cand) : Option (Cand × Nat × Nat) :=
  let inShare := arbWithin share unit t a
  let t1 := cs.filter fun c => c.rt && inShare c
  let best := t1.filter fun c => !t1.any fun d => dlEarlier d.dl c.dl || (d.dl == c.dl && decide (d.cls < c.cls))
  let t2 := cs.filter fun c => !c.rt && inShare c
  let tier (n : Nat) (l : List Cand) : Option (Cand × Nat × Nat) := (arbToken inputs a.token l).map fun r => (r.1, n, r.2)
  match tier 1 best, tier 2 t2 with
  | some r, _ => some r
  | none, some r => some r
  | none, none =>
    let has (k : Nat) : Bool := cs.any fun c => c.cls == k
    let fits := cs.any fun c => c.cls == a.cls && decide (c.bytes ≤ Tbl.get 0 a.left a.cls)
    let k := if fits then a.cls else (((List.range 16).map fun i => (a.cls + 1 + i) % 16).find? has).getD 0
    tier 3 (cs.filter fun c => c.cls == k)

/-- Bytes left to each class once a request of `bytes` of class `c` is served in tier 3: a class whose turn begins gains its
quantum of 256 × weight bytes, and serves one request at least; `more` says which classes still wait there, and a class that
does not keeps nothing (R286; both DESIGN CHOICE, log 84). -/
def drrLeftAfter (weight : Nat → Nat) (left : Tbl Nat) (cur c bytes : Nat) (more : Nat → Bool) : Tbl Nat :=
  let l := Tbl.get 0 left c
  let v := if cur = c ∧ bytes ≤ l then l - bytes else l + 256 * weight c - bytes
  (Tbl.put 0 left c v).filter fun e => more e.1

/-- The arbiter after it served `c` of the candidates `cs` in tier `n`: the bytes are deducted from the class's counter, or in
tier 3 from the class's quantum (R284, R286). -/
def arbServed (share : Nat → Nat) (unit : Nat) (now_ : W64) (weight : Nat → Nat) (a : Arb) (cs : List Cand) (c : Cand) (n token : Nat) : Arb :=
  let sh := (List.range 16).foldl (fun t k =>
    let v := arbShare share unit now_.toNat a k
    Tbl.put 0 t k (if k = c.cls ∧ n ≤ 2 then v - c.bytes * unit else v)) ([] : Tbl Nat)
  let more (k : Nat) : Bool := decide (1 < (cs.filter fun d => d.cls == k).length) || (k != c.cls && cs.any fun d => d.cls == k)
  let left := drrLeftAfter weight a.left a.cls c.cls c.bytes more
  { shares := sh, at_ := now_, cls := if n = 3 then c.cls else a.cls, left := if n = 3 then left else a.left, token := token }

/-- One service of a point by its arbiter: the request that is served of those that wait, its tier, and the arbiter after it. -/
def arbServe (share : Nat → Nat) (unit inputs : Nat) (now_ : W64) (weight : Nat → Nat) (a : Arb) (cs : List Cand) :
    Option (Cand × Nat × Arb) :=
  (arbPick share unit now_.toNat inputs a cs).map fun r => (r.1, r.2.1, arbServed share unit now_ weight a cs r.1 r.2.1 r.2.2)

/-- A request of class `c` was served at a point of tower `p` out of surplus: SVC_SURPLUS counts it (R303). -/
def countSurplus (p c tier : Nat) (s : State) : State :=
  if tier = 3 then s.modPart p fun x => { x with surplus := Tbl.mod 0 x.surplus c (· + 1) } else s

end Sys2Proof.Machine
end

