-- ==== Sys2Proof/Machine/Marl.lean ====
section
/-! DEFINITION. Marl: the address map, the write queues, the codeword decoder with wire marks and poison,
migration to the spare channel, refresh, scrubbing and row repair (chapter 07; R442). -/

namespace Sys2Proof.Machine
open Sys2Proof

/-! ### Placement (Table 7.1) -/

/-- Bytes of Marl (Table 1.5). -/
def marlBytes : Nat := 0x30_0000_0000

/-- Stack of a Marl address (R225). -/
def marlStack (pa : Nat) : Nat := pa / 0xC_0000_0000

/-- Logical channel of a stack offset. -/
def marlCh (o : Nat) : Nat :=
  let q := o >>> 8
  (q ^^^ (q >>> 4) ^^^ (q >>> 8) ^^^ (q >>> 12)) &&& 0xF

/-- Channel line r of a stack offset. -/
def marlR (o : Nat) : Nat := o >>> 12

/-- Layer, bank and row of a channel line. -/
def marlLayer (r : Nat) : Nat := r >>> 20
def marlBank (r : Nat) : Nat := bits r 3 0
def marlRow (r : Nat) : Nat := bits r 19 8

/-- Place of a row in the order of layer, bank and row (R236). -/
def marlRowIx (r : Nat) : Nat := (marlLayer r * 16 + marlBank r) * 4096 + marlRow r

/-- The stack offset of channel line `r` of logical channel `ch`, its line number being 16 r + n for the
`n` whose channel is `ch`. -/
def marlLineOff (ch r : Nat) : Nat :=
  let n := (ch ^^^ r ^^^ (r >>> 4) ^^^ (r >>> 8)) &&& 0xF
  (16 * r + n) * 256

/-- Role of a physical channel (Table 7.8): by the production assignment until a migration changes it. -/
def chRole (s : State) (m : Nat) : Nat :=
  let x := s.getMCh m
  if x.given then x.role.toNat else if m % 17 = 16 then 1 else 0

/-- Logical channel a physical channel serves; 15 when none. -/
def chLogical (s : State) (m : Nat) : Nat :=
  let x := s.getMCh m
  if x.given then x.logical.toNat else if m % 17 = 16 then 15 else m % 17

/-- The running migration of a stack (R236). -/
def migrOf (s : State) (st : Nat) : Option Migr := Tbl.get none s.mrl.migr st

/-- Physical channel that serves row `row` of logical channel `ch` of a stack (R236). -/
def physOf (s : State) (st ch row : Nat) : Nat :=
  match migrOf s st with
  | some g =>
    if g.logical = ch then
      (if row < (s.getMCh g.dst).rows.toNat then g.dst else g.src)
    else ((List.range 17).find? fun p =>
      let m := 17 * st + p
      (chRole s m == 0 || chRole s m == 5) && chLogical s m == ch).getD 0 + 17 * st
  | none => ((List.range 17).find? fun p =>
      let m := 17 * st + p
      (chRole s m == 0 || chRole s m == 5) && chLogical s m == ch).getD 0 + 17 * st

/-- Physical channel of codeword `cw`. -/
def chanOf (s : State) (cw : Nat) : Nat :=
  let pa := cw * 64
  let o := pa % 0xC_0000_0000
  physOf s (marlStack pa) (marlCh o) (marlRowIx (marlR o))

/-! ### Array and write queues (R229) -/

/-- A codeword in the array: its 64 bytes and its poison. -/
def arrayCw (s : State) (cw : Nat) : List Byte × Bool :=
  (getBytes 0 s.marl (cw * 64) 64, s.marlBad.contains cw)

/-- Write a codeword into the array; the stored symbols are good again. -/
def putArrayCw (cw : Nat) (data : List Byte) (poison : Bool) (s : State) : State :=
  { s with
    marl := putBytes 0 s.marl (cw * 64) (data.take 64)
    marlBad := if poison then (if s.marlBad.contains cw then s.marlBad else cw :: s.marlBad)
      else s.marlBad.filter (· ≠ cw)
    mrl := { s.mrl with hurt := Tbl.put [] s.mrl.hurt cw [] } }

/-- The youngest queued write of a codeword. -/
def queuedCw (s : State) (cw : Nat) : Option MWrite := (s.getMCh (chanOf s cw)).queue.reverse.find? fun e => e.cw = cw

/-- The codeword as any later read sees it: the youngest queued write, else the array (R229). -/
def marlCw (s : State) (cw : Nat) : List Byte × Bool :=
  match queuedCw s cw with
  | some e => (e.data, e.poison)
  | none => arrayCw s cw

/-- Move every queued write of a channel to the array, oldest first. -/
def drainChannel (m : Nat) (s : State) : State :=
  let s1 := forL (s.getMCh m).queue (fun e s => putArrayCw e.cw e.data e.poison s) s
  s1.modMCh m fun x => { x with queue := [] }

/-- Lines of 256 bytes that a write queue holds. -/
def queueLines (q : List MWrite) : List Nat := (q.map fun e => e.cw / 4).eraseDups

/-- Make room for line `l` in the write queue of channel `m`: a queue of 64 other lines sends its oldest line's writes to
the array (R229). -/
def queueRoom (m l : Nat) (s : State) : State :=
  let q := (s.getMCh m).queue
  let ls := queueLines q
  if l ∈ ls ∨ ls.length < 64 then s
  else
    let old (e : MWrite) : Bool := decide (e.cw / 4 = ls.headD 0)
    (forL (q.filter old) (fun e s => putArrayCw e.cw e.data e.poison s) s).modMCh m fun x => { x with queue := x.queue.filter fun e => !old e }

/-- Accept a codeword into its channel's write queue, as a partial write or a whole one. A pending correction of the
codeword is dropped (R229, R233). -/
def marlEnqueue (cw : Nat) (data : List Byte) (poison part : Bool) (s : State) : State :=
  let m := chanOf s cw
  (queueRoom m (cw / 4) s).modMCh m fun x => { x with
    queue := x.queue ++ [{ cw := cw, data := data.take 64, poison := poison, part := part }], fix := x.fix.filter (·.1 ≠ cw) }

/-- Accept a whole codeword (R229). -/
def marlAccept (cw : Nat) (data : List Byte) (poison : Bool) (s : State) : State := marlEnqueue cw data poison false s

/-! ### Reading and decoding (R232 to R235) -/

/-- Positions of the wires marked on a channel. -/
def chMarks (s : State) (m : Nat) : List Nat :=
  let x := s.getMCh m
  (if x.mark0 = 0xFF then [] else [wirePos x.mark0.toNat])
    ++ (if x.mark1 = 0xFF then [] else [wirePos x.mark1.toNat])

/-- Symbol errors strike codeword `cw`: until it is written again every read from the array meets them (log 84). -/
def strikeCw (cw : Nat) (errs : List SymErr) (s : State) : State :=
  { s with mrl := { s.mrl with hurt := Tbl.mod [] s.mrl.hurt cw (· ++ errs) } }

/-- Decode the codeword that holds `d` and the poison symbol `p`, received with the symbol errors `errs` on channel `m`. With
no error the received word is the sent one and decodes to it. -/
def decodeWith (s : State) (m : Nat) (d : List Byte) (p : Bool) (errs : List SymErr) : MarlOutcome × List Byte :=
  if errs = [] then (if p then .poisoned [] else .clean, d)
  else
    let word := (marlEncode d p).take 68
    marlDecode (chMarks s m)
      (errs.foldl (fun w e => if e.pos < 68 then setAt w e.pos ((w.getD e.pos 0) ^^^ e.val.toNat) else w) word)

/-- Decode codeword `cw`: forwarded from the write queue as it was written, or read from the array with the errors that
have struck it (R229, R232). -/
def decodeCw (s : State) (cw : Nat) : MarlOutcome × List Byte :=
  let (d, p) := marlCw s cw
  decodeWith s (chanOf s cw) d p (if (queuedCw s cw).isSome then [] else Tbl.get [] s.mrl.hurt cw)

/-- Nanoseconds of 24 hours. -/
def dayNs : Nat := 86400 * 1000000000

/-- Rows are keyed by physical channel, layer, bank and row. -/
def marlRowKey (m : Nat) (r : Nat) : Nat := m * 786432 + marlRowIx r

/-- Count a corrected codeword of a row; 16 within 24 h make the row due (R442). -/
def marlRowCorrected (key : Nat) (s : State) : State :=
  let l := (s.skt.time :: Tbl.get [] s.mrl.rowErr key).filter fun t => now s - t.toNat ≤ dayNs
  { s with mrl := { s.mrl with
    rowErr := Tbl.put [] s.mrl.rowErr key l
    rowsDue := if 16 ≤ l.length ∧ key ∉ s.mrl.rowsDue then s.mrl.rowsDue ++ [key] else s.mrl.rowsDue } }

/-- Make a row due for replacement (R442). -/
def marlRowDue (key : Nat) (s : State) : State :=
  if key ∈ s.mrl.rowsDue then s
  else { s with mrl := { s.mrl with rowsDue := s.mrl.rowsDue ++ [key] } }

/-- Each corrected symbol adds 1 to the counter of its wire (R235). -/
def wiresSeen (m : Nat) (ps : List Nat) (s : State) : State :=
  s.modMCh m fun x => { x with wires := ps.foldl (fun t p => Tbl.mod 0 t (posWire p) (· + 1)) x.wires }

/-- Count an outcome on channel `m` and record where it was met (R233, R234, R235). Only a corrected read records positions: after a
poisoned one that also corrected symbols POS0 and POS1 read 0xFF (DESIGN CHOICE, log 39). -/
def marlCount (addr : BitVec 40) (m : Nat) (o : MarlOutcome) (s : State) : State :=
  match o with
  | .clean => s
  | .corrected ps =>
    wiresSeen m ps (s.modMCh m fun x => { x with
      ce := x.ce + 1, errAddr := addr, errKind := 1
      pos0 := BitVec.ofNat 8 (ps.getD 0 0xFF), pos1 := BitVec.ofNat 8 (ps.getD 1 0xFF) })
  | .poisoned ps =>
    wiresSeen m ps (s.modMCh m fun x => { x with
      poison := x.poison + 1, errAddr := addr, errKind := 3, pos0 := 0xFF, pos1 := 0xFF })
  | .uncorrectable => s.modMCh m fun x => { x with ue := x.ue + 1, errAddr := addr, errKind := 2, pos0 := 0xFF, pos1 := 0xFF }

/-- What the logic die does about the outcome of one read of codeword `cw` on channel `m` (R233, R234, R235, R442). -/
def marlOutcomeActs (cw m : Nat) (o : MarlOutcome × List Byte) (s : State) : State :=
  let key := marlRowKey m (marlR (cw * 64 % 0xC_0000_0000))
  let s1 := marlCount (BitVec.ofNat 40 (cw * 64)) m o.1 s
  match o.1 with
  | .clean => s1
  | .corrected _ => marlRowCorrected key (s1.modMCh m fun x => { x with
      fix := if x.fix.any fun f => f.1 = cw then x.fix else x.fix ++ [(cw, o.2)] })
  | .poisoned _ => s1
  | .uncorrectable => marlRowDue key (marlAccept cw o.2 true s1)

/-- One read of codeword `cw`: decode and act (R228, R232 to R235). -/
def marlReadCw (cw : Nat) (s : State) : State := marlOutcomeActs cw (chanOf s cw) (decodeCw s cw) s

/-- The read gives its data as poisoned (R234). -/
def MarlOutcome.bad : MarlOutcome → Bool
  | .clean => false
  | .corrected _ => false
  | .poisoned _ => true
  | .uncorrectable => true

/-- The errors of codeword `k` of a line. -/
def errsOf (errs : List (Fin 4 × SymErr)) (k : Nat) : List SymErr :=
  (errs.filter fun e => e.1.val = k).map (·.2)

/-! ### Channel lines of the home slice (R193, R194) -/

/-- Role of a slice: 0 scratch, 1 cache, 255 absent. By the image in force, or the default split (R187,
R188). -/
def defaultCache (s : State) (j : Nat) : Bool :=
  let cl := j % 24 / 6
  let vis := (List.range 6).filter fun k => sliceVisible s (j - j % 6 + k)
  let above := (vis.filter fun k => j % 6 < k).length
  if s.fuses.variant = 0x7648 then decide (above = 0) || (decide (above = 1) && decide (cl < 2))
  else decide (above < 2)

def sliceRole (s : State) (j : Nat) : Nat :=
  if !sliceVisible s j then 255
  else if s.lss.imageRoles then (Tbl.get 0 s.lss.roles j).toNat
  else b2n (defaultCache s j)

/-- Cache slices of a tower, ascending (R194). -/
def cacheSlices (s : State) (t : Nat) : List Nat := (towerSites t).filter fun j => sliceRole s j == 1

/-- Scratch slices of a tower, ascending (R189). -/
def scratchSlices (s : State) (t : Nat) : List Nat := (towerSites t).filter fun j => sliceRole s j == 0

/-- Home slice of line address `l` = PA[39:8] (R194). -/
def homeSlice (s : State) (l : Nat) : Option Nat :=
  let cs := cacheSlices s (marlStack (l * 256))
  if cs.length = 0 then none else cs[(l ^^^ (l >>> 9) ^^^ (l >>> 18)) % cs.length]?

/-! ### Migration (R236, R237) -/

/-- Report the channel `m` degraded: a wire is marked and no spare is left (R237). -/
def degradeChannel (m : Nat) (s : State) : State :=
  let lg := chLogical s m
  let s1 := s.modMCh m fun x => { x with role := 5, logical := BitVec.ofNat 4 lg, given := true }
  raiseEvent 6 (notifyMgmt 8 { s1 with mrl := { s1.mrl with degraded := setBit s1.mrl.degraded (m / 17) true } })

/-- Event 2 of Table 7.3: the copy of the logical channel of `m` to the spare `d` starts at row 0. What the idle spare held is
written over. -/
def copyFromStart (m d : Nat) (s : State) : State :=
  let lg := chLogical s m
  let s1 := s.modMCh d fun x => { x with role := 2, logical := BitVec.ofNat 4 lg, given := true, rows := 0, fix := [] }
  let s2 := s1.modMCh m fun x => { x with role := 3, logical := BitVec.ofNat 4 lg, given := true, rows := 0 }
  { s2 with mrl := { s2.mrl with migr := Tbl.put none s2.mrl.migr (m / 17) (some { logical := lg, src := m, dst := d }) } }

/-- The idle spare channel of a stack. -/
def idleSpare (s : State) (st : Nat) : Option Nat := ((List.range 17).map (17 * st + ·)).find? fun m => chRole s m == 1

/-- Start moving the logical channel of physical channel `m` to the spare of its stack, or report the channel degraded when
the spare is gone (R236, R237). -/
def startMigration (m : Nat) (s : State) : State :=
  match idleSpare s (m / 17) with
  | some d => raiseEvent 6 (notifyMgmt 7 (copyFromStart m d s))
  | none => degradeChannel m s

/-- Rows of 4 KiB in a channel (Table 7.10). -/
def channelRows : Nat := 786432

/-- End of a move: the spare serves the logical channel, the old channel is retired (Table 7.3 events 4
and 5). A spare with a wire marked during the move runs on degraded (R237). -/
def endMigration (st : Nat) (g : Migr) (s : State) : State :=
  let s1 := s.modMCh g.dst fun x => { x with role := 0, scrubAt := 0, lapFrom := s.skt.time }
  let s2 := s1.modMCh g.src fun x => { x with role := 4, logical := 15 }
  let s3 := raiseEvent 6 (addRepair 0x0B g.src g.logical (g.dst % 17) { s2 with mrl := { s2.mrl with
    migr := Tbl.put none s2.mrl.migr st none
    spareUsed := setBit s2.mrl.spareUsed st true } })
  if (s3.getMCh g.dst).mark0 = 0xFF then s3 else degradeChannel g.dst s3

/-! ### Arbitration at a channel (Table 2.10, R284 to R287) -/

/-- Share of class `c` at a channel of stack `st`, in 1/160 byte per ns: a sixteenth of the minima (R284). -/
def marlShare (s : State) (st c : Nat) : Nat :=
  ((List.range 4).map fun p => (Tbl.get {} s.svc.classes (16 * p + c)).marlMin.getD st 0).sum

/-- A request of a slice that waits for its channel: the read of a line, or the write of an entry of the write-back buffer. -/
inductive MarlWait where
  | read (line : Nat)
  | write (e : WbEnt)
deriving DecidableEq, Repr

/-- Codewords of a line that have a word of the mask. -/
def dirtyCws (dirty : W32) : List Nat := (List.range 4).filter fun k => BitVec.ofNat 8 (dirty.toNat >>> (8 * k)) ≠ 0

/-- The write of a buffered line as its channel sees it: its dirty codewords, best-effort under the class that allocated the line
(R200; the label is DESIGN CHOICE, log 84). -/
def wbCand (j : Nat) (e : WbEnt) : Cand := Label.cand (e.cls, false, 0) (j % 24) (64 * (dirtyCws e.dirty).length)

/-- Requests that wait for channel `m`: line reads not issued, and the oldest buffered write of each line; the slices of the tower
are its inputs (R193, R200, R206, R229). -/
def marlWaiting (s : State) (m : Nat) : List (MarlWait × Cand) :=
  (towerSites (m / 17)).flatMap fun j =>
    let x := s.getSlc j
    ((x.miss.filter fun e => !e.sent && chanOf s (4 * e.line) == m).map fun e =>
      (.read e.line, { input := j % 24, cls := e.cls, rt := e.rt, dl := e.dl, bytes := 256 }))
    ++ ((x.wb.filter fun e => chanOf s (4 * e.line) == m && x.wb.find? (fun f => f.line = e.line) == some e).map fun e =>
      (.write e, wbCand j e))

/-- Channel `m` serves one request of `cs` (R284 to R286). -/
def marlServe (m : Nat) (cs : List Cand) (s : State) : Option (Cand × State) :=
  (arbServe (marlShare s (m / 17)) 160 24 s.skt.time (fun c => (Tbl.get {} s.svc.classes c).marlW) (s.getMCh m).arb cs).map fun r =>
    (r.1, countSurplus (m / 17) r.1.cls r.2.1 (s.modMCh m fun x => { x with arb := r.2.2 }))

/-- The waiting request that the channel serves next, and the channel after it. -/
def marlPick (s : State) (m : Nat) : Option (MarlWait × State) :=
  let w := marlWaiting s m
  (marlServe m (w.map (·.2)) s).bind fun r => (w.find? fun e => decide (e.2 = r.1)).map fun e => (e.1, r.2)

/-- Channel `m` serves a request that nothing waits beside: it comes and is served within one command. -/
def marlTake (m : Nat) (c : Cand) (s : State) : State :=
  match marlServe m [c] s with
  | some r => r.2
  | none => s

/-- The stack is in self-refresh or its partition in reset: its channels serve nothing (R30, R237). -/
def stackAsleep (s : State) (st : Nat) : Bool := getBit s.mrl.selfRef st || inReset s st

/-! ### Meanings -/

/-- Errors strike the codewords of a line. -/
def strikeLine (line : Nat) (errs : List (Fin 4 × SymErr)) (s : State) : State :=
  forN 4 (fun k s => strikeCw (line * 4 + k) (errsOf errs k) s) s

/-- The four codewords of a line are read and decoded, with the errors that strike them (R228, R232 to R235). -/
def readLine (line : Nat) (errs : List (Fin 4 × SymErr)) (s : State) : State :=
  forN 4 (fun k s => marlReadCw (line * 4 + k) s) (strikeLine line errs s)

/-- Word `i` of the line in the codeword bytes `d` that hold it. -/
def cwWord (d : List Byte) (i : Nat) : W64 := BitVec.ofNat 64 (ofLe ((d.drop (8 * (i % 8))).take 8))

/-- Word `i` of line `l` in the write-back buffer: of the youngest entry that holds it (R201). -/
def wbWord (s : State) (j l i : Nat) : Option (W64 × Bool) :=
  (s.getSlc j).wb.reverse.findSome? fun e =>
    if e.line = l ∧ getBit e.valid i then some (Tbl.get 0 e.words i, getBit e.poison i) else none

/-- The words of a line as a read that is served now gives them: from the write-back buffer, else as the codewords decode (R201,
R229, R233, R234). -/
def lineNow (s : State) (j l : Nat) : List (W64 × Bool) :=
  let cs := (List.range 4).map fun k => decodeCw s (4 * l + k)
  (List.range 32).map fun i =>
    match wbWord s j l i with
    | some w => w
    | none => let o := cs.getD (i / 8) (.clean, []); (cwWord o.2 i, o.1.bad)

/-- The miss entry of the line has its Marl read, which gave the words `ws` (R206, R229). -/
def missSent (j line : Nat) (ws : List (W64 × Bool)) (s : State) : State :=
  s.modSlc j fun x => { x with miss := x.miss.map fun m => if m.line = line then { m with sent := true, got := ws } else m }

/-- A miss entry of the line waits at its channel (R206). -/
def readWaits (s : State) (line : Nat) : Option Nat :=
  (homeSlice s line).filter fun j => (s.getSlc j).miss.any fun m => m.line == line && !m.sent

/-- MARL_READ (R228, R232 to R235): the channel serves the read of a line. A miss entry's read is served when the channel's
arbiter takes it, and waits otherwise (R285); the read is then issued (R206) and gives the data as it stands then (R229). -/
def execMarlRead (line : BitVec 32) (errs : List (Fin 4 × SymErr)) (s : State) : Host.Outcome State Fault Refusal :=
  let l := line.toNat
  if marlBytes ≤ l * 256 ∨ stackAsleep s (marlStack (l * 256)) then ok s
  else
    match readWaits s l with
    | none => ok (readLine l errs s)
    | some j =>
      let m := chanOf s (4 * l)
      match marlPick s m with
      | none => ok s
      | some (w, s1) =>
        if w = .read l then
          let s2 := strikeLine l errs s1
          ok (missSent j l (lineNow s2 j l) (readLine l [] s2))
        else ok s

/-- Input of a write that names no slice: the home slice of its line (R193). -/
def bareInput (s : State) (cw : Nat) : Nat := (homeSlice s (cw / 4)).getD 0 % 24

/-- MARL_WRITE (R229, R239): accept a whole codeword. The command names no requester: it bears class 0, best-effort (DESIGN CHOICE,
log 84). -/
def execMarlWrite (cw : BitVec 34) (data : List Byte) (poison : Bool) (s : State) : Host.Outcome State Fault Refusal :=
  if marlBytes ≤ cw.toNat * 64 ∨ data.length ≠ 64 ∨ stackAsleep s (marlStack (cw.toNat * 64)) then ok s
  else
    let m := chanOf s cw.toNat
    ok (marlAccept cw.toNat data poison (marlTake m (backLabel.cand (bareInput s cw.toNat) 64) s))

/-- Merge the 64-bit words of `d` chosen by `words` into `old`. -/
def mergeWords (words : BitVec 8) (old d : List Byte) : List Byte :=
  (List.range 8).flatMap fun i =>
    if getBit words i then (d.drop (8 * i)).take 8 else (old.drop (8 * i)).take 8

/-- A partial write-back (R238, R239), with poison when it holds a poisoned word. It merges into a partial write of the
codeword that is still in the queue; otherwise the codeword is read, decoded and counted once. -/
def marlPartial (cw : Nat) (words : BitVec 8) (data : List Byte) (poison : Bool) (s : State) : State :=
  let m := chanOf s cw
  match (queuedCw s cw).filter (·.part) with
  | some e =>
    let f : MWrite := { e with data := (mergeWords words e.data data).take 64, poison := e.poison || poison }
    s.modMCh m fun x => { x with queue := x.queue.map fun a => if a = e then f else a }
  | none =>
    let o := decodeCw s cw
    let s1 := (marlReadCw cw s).modMCh m fun x => { x with rmw := x.rmw + 1 }
    marlEnqueue cw (mergeWords words o.2 data) (o.1.bad || poison) true s1

/-- MARL_PARTIAL_WRITE (R238), under the label of MARL_WRITE. -/
def execMarlPartialWrite (cw : BitVec 34) (words : BitVec 8) (data : List Byte) (errs : List SymErr) (s : State) :
    Host.Outcome State Fault Refusal :=
  if marlBytes ≤ cw.toNat * 64 ∨ data.length ≠ 64 ∨ stackAsleep s (marlStack (cw.toNat * 64)) then ok s
  else
    let m := chanOf s cw.toNat
    ok (marlPartial cw.toNat words data false (strikeCw cw.toNat errs (marlTake m (backLabel.cand (bareInput s cw.toNat) 64) s)))

/-- MARL_CORRECTION_WRITEBACK (R233): the oldest pending correction of the channel is written back: the array holds the corrected
data, and the errors that had struck the stored codeword are gone. -/
def execMarlCorrectionWriteback (ch : MCh) (s : State) : Host.Outcome State Fault Refusal :=
  match (s.getMCh ch.val).fix with
  | [] => ok s
  | f :: _ => ok ((putArrayCw f.1 f.2 false s).modMCh ch.val fun x => { x with fix := x.fix.drop 1 })

/-- Nanoseconds between two decays of the wire counters (R235). -/
def decayNs : Nat := 10000000

/-- WIRE_COUNTER_DECAY (R235): every 10 ms of device time every counter above 0 falls by 1. -/
def execWireCounterDecay (s : State) : Host.Outcome State Fault Refusal :=
  if now s < s.mrl.decayAt.toNat + decayNs then ok s
  else
    let s1 := { s with mrl := { s.mrl with decayAt := s.mrl.decayAt + BitVec.ofNat 64 decayNs } }
    ok (forN 68 (fun m s => s.modMCh m fun x =>
      { x with wires := (x.wires.map fun e => (e.1, e.2 - 1)).filter fun e => e.2 ≠ 0 }) s1)

/-- Mark wire `w` of channel `m`: its counter has reached 64, it is not yet marked and fewer than two are
(R235). Migration follows where the stack has its spare (R236), else the channel is degraded (R237). -/
def wireMarkNow (m w : Nat) (s : State) : State :=
  let x := s.getMCh m
  if Tbl.get 0 x.wires w < 64 ∨ x.mark0.toNat = w ∨ x.mark1.toNat = w then s
  else if x.mark0 ≠ 0xFF ∧ x.mark1 ≠ 0xFF then s
  else
    let s1 := s.modMCh m fun x =>
      if x.mark0 = 0xFF then { x with mark0 := BitVec.ofNat 8 w } else { x with mark1 := BitVec.ofNat 8 w }
    let s2 := addRepair 0x0A m w 0xFF s1
    if chRole s2 m ≠ 0 then s2
    else if (migrOf s2 (m / 17)).isNone then startMigration m s2
    else degradeChannel m s2

/-- WIRE_MARK (R235, R236). -/
def execWireMark (ch : MCh) (wire : Fin 68) (s : State) : Host.Outcome State Fault Refusal :=
  ok (wireMarkNow ch.val wire.val s)

/-- First codeword of line `n` of row `row` (in the order of layer, bank and row) of logical channel `ch` of a stack. -/
def rowCw (st ch row n : Nat) : Nat :=
  let layer := row / 65536
  let bank := row / 4096 % 16
  let r := layer * 2 ^ 20 + row % 4096 * 256 + n * 16 + bank
  (st * 0xC_0000_0000 + marlLineOff ch r) / 64

/-- Codeword `cw` is read and checked on the old channel `src`, and what it decodes to is written on the spare, with its poison; a
correction or a rewrite that the read has left due is thereby done (R232 to R234, R236). -/
def copyCw (src cw : Nat) (s : State) : State :=
  let o := decodeCw s cw
  (putArrayCw cw o.2 o.1.bad (marlReadCw cw s)).modMCh src fun x =>
    { x with queue := x.queue.filter fun e => e.cw ≠ cw, fix := x.fix.filter fun f => f.1 ≠ cw }

/-- Copy the next row of the running move of stack `st`: its 64 codewords are read and checked on the old channel, with the
errors that strike them, and stand on the spare from then on with their poison (R236, Table 7.3 events 3 and 4). -/
def copyRow (st : Nat) (errs : List (BitVec 34 × SymErr)) (s : State) : State :=
  match migrOf s st with
  | none => s
  | some g =>
    let s0 := drainChannel g.src s
    let s1 := forN 64 (fun k s =>
      let cw := rowCw st g.logical (s0.getMCh g.dst).rows.toNat (k / 4) + k % 4
      copyCw g.src cw (strikeCw cw ((errs.filter fun e => e.1.toNat = cw).map (·.2)) s)) s0
    let s2 := s1.modMCh g.dst fun x => { x with rows := x.rows + 1 }
    let s3 := s2.modMCh g.src fun x => { x with rows := x.rows + 1 }
    if (s3.getMCh g.dst).rows.toNat = channelRows then endMigration st g s3 else s3

/-- The channel's scrub reservation, 1% of 96.0 GB/s (R227, R242), has `n` lines for background work: 800/3 ns a line since it was
last used. -/
def marlReserve (s : State) (m n : Nat) : Bool := decide (n * 800 ≤ 3 * (now s - (s.getMCh m).resAt.toNat))

/-- Reserved slots of a channel are used. -/
def marlReserved (m : Nat) (reserved : Bool) (s : State) : State :=
  if reserved then s.modMCh m fun x => { x with resAt := s.skt.time } else s

/-- MIGRATION_ROW_COPY (R236, R237): in idle slots, of which there are none while a request waits at either channel, or in the old
channel's scrub reservation, for 16 lines of it (R287). -/
def execMigrationRowCopy (copy : RowCopy) (s : State) : Host.Outcome State Fault Refusal :=
  let st := copy.stack.val
  match migrOf s st with
  | none => ok s
  | some g =>
    let may := if copy.reserved then marlReserve s g.src 16 else (marlWaiting s g.src).isEmpty && (marlWaiting s g.dst).isEmpty
    if stackAsleep s st || !may then ok s else ok (copyRow st copy.errs (marlReserved g.src copy.reserved s))

/-- After L3 or L4 a move that had not ended starts again at event 2 (R237). -/
def restartMoves (s : State) : State :=
  forN 4 (fun st s => match migrOf s st with
    | some g => copyFromStart g.src g.dst s
    | none => s) s

/-- Channels with a marked wire, in the order of their marks in the repair map. -/
def markedChannels (s : State) : List Nat := ((s.rst.repairs.filter fun r => r.kind = 0x0A).map fun r => r.unit.toNat).eraseDups

/-- At L4 the channels are rebuilt from the repair map: in the order in which they were marked, a channel with a marked wire starts
its move to the idle spare again at event 2, or runs degraded (R237). -/
def resumeMarks (s : State) : State :=
  forL (markedChannels s) (fun m s =>
    if (s.getMCh m).mark0 = 0xFF ∨ chRole s m ≠ 0 then s
    else
      match migrOf s (m / 17), idleSpare s (m / 17) with
      | none, some d => copyFromStart m d s
      | _, _ =>
        let lg := chLogical s m
        let s1 := s.modMCh m fun x => { x with role := 5, logical := BitVec.ofNat 4 lg, given := true }
        { s1 with mrl := { s1.mrl with degraded := setBit s1.mrl.degraded (m / 17) true } }) s

/-- Refresh rate of a layer from a temperature in 1/16 K from 0 °C: faster above 85 °C, back below 82 °C
(R240). -/
def refreshRate (stack layer : Nat) (t16 : Int) (s : State) : State :=
  let f := Tbl.get 0 s.mrl.fast stack
  if t16 > 85 * 16 then
    { s with mrl := { s.mrl with fast := Tbl.put 0 s.mrl.fast stack (setBit f layer true) } }
  else if t16 < 82 * 16 then
    { s with mrl := { s.mrl with fast := Tbl.put 0 s.mrl.fast stack (setBit f layer false) } }
  else s

/-- REFRESH_COMMAND (R240, R241): the bank's next row is refreshed. In self-refresh the logic die uses the
layer's sensor directly to choose the rate. -/
def execRefreshCommand (stack : Tower) (layer : Fin 12) (bank : Fin 16) (s : State) :
    Host.Outcome State Fault Refusal :=
  let k := (stack.val * 12 + layer.val) * 16 + bank.val
  let s1 := { s with mrl := { s.mrl with refRow := Tbl.mod 0 s.mrl.refRow k fun r => (r + 1) % 4096 } }
  if getBit s.mrl.selfRef stack.val then
    let x := s.getSen (192 + 12 * stack.val + layer.val)
    ok (if x.invalid then s1 else refreshRate stack.val layer.val x.raw.toInt s1)
  else ok s1

/-- A scrubber that has done `done` of `total` accesses of a lap begun at `t0` is behind the lap target of
`target` seconds at time `t` (R223). -/
def scrubBehind (done total t0 t target : Nat) : Bool :=
  decide (done * (target * 1000000000) < (t - t0) * total)

/-- Lines of a channel's 3 GiB (R242). -/
def channelLines : Nat := 12582912

/-- Lap report of a channel (R224, R242). -/
def marlLapEnd (m : Nat) (s : State) : State :=
  s.modMCh m fun x =>
    if x.scrubAt = channelLines then
      let ms := BitVec.ofNat 32 ((now s - x.lapFrom.toNat) / 1000000)
      { x with
        scrubAt := 0, lapFrom := s.skt.time, lapLast := ms
        lapMax := if x.lapMax.toNat < ms.toNat then ms else x.lapMax, laps := x.laps + 1 }
    else x

/-- Number of codeword `k` of channel line `r` of an idle spare channel `m`, which holds no logical address: it stands above the
numbers of the codewords of Marl. -/
def spareCw (m r k : Nat) : Nat := 2 ^ 34 + m * 2 ^ 26 + 4 * r + k

/-- A codeword of the idle spare is checked, with the errors that have struck it, as any other (R233, R234); until it is first
rewritten it holds the zero codeword, and the recorded address is that of the same line of logical channel 15 (DESIGN CHOICE, log
84). -/
def spareCheck (m r : Nat) (errs : List (Fin 4 × SymErr)) (k : Nat) (s : State) : State :=
  let at_ := BitVec.ofNat 40 (m / 17 * 0xC_0000_0000 + marlLineOff 15 r + 64 * k)
  let cw := spareCw m r k
  let s0 := strikeCw cw (errsOf errs k) s
  let (d, p) := arrayCw s0 cw
  let o := decodeWith s0 m d p (Tbl.get [] s0.mrl.hurt cw)
  let s1 := marlCount at_ m o.1 s0
  match o.1 with
  | .clean => s1
  | .corrected _ => marlRowCorrected (marlRowKey m r) (s1.modMCh m fun x => { x with
      fix := if x.fix.any fun f => f.1 = cw then x.fix else x.fix ++ [(cw, o.2)] })
  | .poisoned _ => s1
  | .uncorrectable => marlRowDue (marlRowKey m r) (putArrayCw cw o.2 true s1)

/-- MARL_SCRUB_ACCESS (R242): read and check one line, in a reserved slot only while behind and as far as the reservation goes,
otherwise in an idle slot, which there is none of while a read or a write waits at the channel (R287); pauses in self-refresh and
while the channel is being moved. A retired channel is not scrubbed (DESIGN CHOICE, log 39). -/
def execMarlScrubAccess (ch : MCh) (reserved : Bool) (errs : List (Fin 4 × SymErr)) (s : State) :
    Host.Outcome State Fault Refusal :=
  let m := ch.val
  let x := s.getMCh m
  let role := chRole s m
  let behind (x : MChan) : Bool := role != 1 && scrubBehind x.scrubAt channelLines x.lapFrom.toNat (now s) s.mrl.target.toNat
  if stackAsleep s (m / 17) || role == 2 || role == 3 || role == 4 then ok s
  else if (reserved && (!behind x || !marlReserve s m 1)) || (!reserved && !(marlWaiting s m).isEmpty) then
    ok (s.modMCh m fun x => { x with behind := behind x })
  else
    let s1 :=
      if role = 1 then forN 4 (fun k s => spareCheck m x.scrubAt errs k s) s
      else readLine ((m / 17 * 0xC_0000_0000 + marlLineOff (chLogical s m) x.scrubAt) / 256) errs s
    let s2 := marlLapEnd m ((marlReserved m reserved s1).modMCh m fun x => { x with scrubAt := x.scrubAt + 1 })
    ok (s2.modMCh m fun x => { x with behind := behind x })

/-- Index bytes of a row repair: bank in bits [7:0], row above it (log 21). -/
def rowIndex (bank row : Nat) : Nat := (bank + row * 256) % 2 ^ 24

/-- Copy the codewords of a row that physical channel `ch` serves, as R236 gives for channels: each is read and checked, and what it
decodes to stands in the spare row, with its poison (R442). A channel without a logical channel holds none. -/
def copyToSpareRow (ch row : Nat) (s : State) : State :=
  let lg := chLogical s ch
  if chRole s ch = 1 ∨ chRole s ch = 4 then s
  else
    forN 64 (fun k s =>
      let cw := rowCw (ch / 17) lg row (k / 4) + k % 4
      if chanOf s cw = ch then copyCw ch cw s else s) s

/-- Replace a due row: it is copied to a spare row of its bank and layer, 16 of them; with none left the exhaustion is
reported (R442). -/
def repairMarlRow (ch layer bank row : Nat) (s : State) : State :=
  let bk := (ch * 12 + layer) * 16 + bank
  let key := bk * 4096 + row
  if key ∉ s.mrl.rowsDue then s
  else
    let s1 := { s with mrl := { s.mrl with
      rowsDue := s.mrl.rowsDue.filter (· ≠ key), rowErr := Tbl.put [] s.mrl.rowErr key [] } }
    let used := Tbl.get 0 s.mrl.rowsUsed bk
    if used < 16 then
      let s2 := copyToSpareRow ch ((layer * 16 + bank) * 4096 + row) s1
      let fresh := s2.mrl.rowsDue.filter (· ≠ key)
      addRepair 0x09 ch (rowIndex (bank + 16 * layer) row) used
        { s2 with mrl := { s2.mrl with rowsDue := fresh, rowErr := Tbl.put [] s2.mrl.rowErr key [], rowsUsed := Tbl.put 0 s2.mrl.rowsUsed bk (used + 1) } }
    else raiseEvent 6 (notifyMgmt 9 s1)

/-- MARL_ROW_REPAIR (R442). -/
def execMarlRowRepair (ch : MCh) (layer : Fin 12) (bank : Fin 16) (row : BitVec 12) (s : State) :
    Host.Outcome State Fault Refusal := ok (repairMarlRow ch.val layer.val bank.val row.toNat s)

/-- Every queued write of a stack reaches the array (before self-refresh). -/
def drainStack (st : Nat) (s : State) : State :=
  forN 17 (fun p s => drainChannel (17 * st + p) s) s

end Sys2Proof.Machine
end

