-- ==== Sys2Proof/Machine/Pacer.lean ====
section
/-! DEFINITION. The pacer of a partition (R51, R57): pipelines 0 to 47 are its arrays, 48 to 71 the issue pipelines of
its sites, 72 to 95 its Loess slices, 96 to 119 the DMA engines of its sites. -/

namespace Sys2Proof.Machine
open Sys2Proof

/-- Wavefronts a pipeline may start in the trailing 1 µs (R51). -/
def paceLimit : Nat := 1800

/-- Wavefronts that pipeline `pipe` of partition `p` started in the trailing 1 µs of device time. -/
def recentStarts (s : State) (p pipe : Nat) : List W64 :=
  (Tbl.get [] (s.getGov p).starts pipe).filter fun t => decide (now s < t.toNat + 1000)

/-- The pacer holds the next wavefront of the pipeline: one is already delayed, or a start would bring the count above
1,800. -/
def paceHolds (s : State) (p pipe : Nat) : Bool :=
  decide (0 < Tbl.get 0 (s.getGov p).waits pipe) || decide (paceLimit ≤ (recentStarts s p pipe).length)

/-- Delay the wavefront: a hold under R49, shown in PWR_GOV.PACER. -/
def paceDelay (p pipe : Nat) (s : State) : State :=
  s.modGov p fun g => { g with pacer := true, waits := Tbl.put 0 g.waits pipe 1 }

/-- Count the start of a wavefront. -/
def paceStart (p pipe : Nat) (s : State) : State :=
  let l := recentStarts s p pipe
  s.modGov p fun g => { g with starts := Tbl.put [] g.starts pipe (s.skt.time :: l) }

/-- Pacer pipeline of a slice in its tower. -/
def slicePipe (j : Nat) : Nat := 72 + j % 24

/-- A slice access that is made within another command starts its wavefront now, or where that would bring the trailing count above
1,800, at the first moment at which it may: the delay stands in its start's time and in PWR_GOV.PACER (R51, R57; DESIGN CHOICE, log
84). -/
def sliceStart (j : Nat) (s : State) : State :=
  let p := j / 24
  let pipe := slicePipe j
  let l := recentStarts s p pipe
  if l.length < paceLimit then paceStart p pipe s
  else s.modGov p fun g => { g with
    pacer := true, starts := Tbl.put [] g.starts pipe ((l.getD (paceLimit - 1) 0 + 1000) :: l) }

/-- PACER_RELEASE (R57): a delayed wavefront may start once the trailing count allows it. -/
def execPacerRelease (p : Tower) (pipe : Nat) (s : State) : Host.Outcome State Fault Refusal :=
  if 0 < Tbl.get 0 (s.getGov p.val).waits pipe ∧ (recentStarts s p.val pipe).length < paceLimit then
    ok (s.modGov p.val fun g => { g with waits := Tbl.put 0 g.waits pipe 0 })
  else ok s

end Sys2Proof.Machine
end

