-- ==== Sys2Proof/Machine/Loess.lean ====
section
/-! DEFINITION. Loess: scratch slices, the cache lines of the cache slices, the write-back buffer, the
local memory as the requesters read and write it, poison and errors (chapter 06). -/

namespace Sys2Proof.Machine
open Sys2Proof

/-- Why a memory access gives no data: bus error (R218, R219, R36), or DISCARDED (R209). -/
inductive MemErr where
  | bus | discarded
deriving DecidableEq, Repr

/-! ### The scratch window (R189) -/

/-- The granule list: scratch slices of the towers in turn. -/
def granuleList (s : State) : List Nat :=
  let ls := (List.range 4).map (scratchSlices s)
  (List.range 24).flatMap fun i => ls.flatMap fun l => (l[i]?).toList

/-- Bytes of a slice. -/
def sliceBytes : Nat := 0x400_0000

/-- The slice and byte that a scratch address names; none at or beyond the configured size (R35). -/
def scratchOf (s : State) (pa : Nat) : Option (Nat × Nat) :=
  if pa < 0x40_0000_0000 ∨ 0x41_8000_0000 ≤ pa then none
  else
    let o := pa - 0x40_0000_0000
    ((granuleList s)[o >>> 26]?).map fun j => (j, o % sliceBytes)

/-! ### Words of a scratch slice (R217 to R221) -/

/-- Key of byte `x` of slice `j` in `State.loess`. -/
def loessKey (j x : Nat) : Nat := j * sliceBytes + x

/-- Word `w` of a slice is poisoned. -/
def wordBad (s : State) (j w : Nat) : Bool := s.loessBad.contains (loessKey j (8 * w) / 8)

/-- Set or clear the poison of word `w` of a slice. -/
def setWordBad (j w : Nat) (b : Bool) (s : State) : State :=
  let k := loessKey j (8 * w) / 8
  { s with loessBad := if b then (if s.loessBad.contains k then s.loessBad else k :: s.loessBad)
                       else s.loessBad.filter (· ≠ k) }

/-- Record an error event in LSS_ERR_ADDR (Table 6.11). -/
def sliceErr (j kind off : Nat) (s : State) : State :=
  s.modSlc j fun x => { x with errKind := BitVec.ofNat 2 kind, errWord := BitVec.ofNat 26 (off / 8 * 8) }

/-- Feed an error at byte `off` of a slice to the repair process (R440). -/
def loessRepairFeed (j off bitNo : Nat) (uncorr : Bool) (s : State) : State :=
  let bank := off / 0x100000
  let row := Config.loessRow (off % 0x100000) % 65536
  let x := s.getSlc j
  let key := bank * 65536 + row
  let times := if uncorr then Tbl.get [] x.rowErr key
    else (s.skt.time :: Tbl.get [] x.rowErr key).filter fun t => now s - t.toNat ≤ dayNs
  let rows0 := Tbl.get [] x.colErr (bank * 72 + bitNo)
  let rows := if rows0.contains row then rows0 else row :: rows0
  let rowNow := uncorr || decide (8 ≤ times.length)
  let grp := Config.loessColumnGroup bitNo % 65536
  s.modSlc j fun x => { x with
    rowErr := Tbl.put [] x.rowErr key times
    colErr := Tbl.put [] x.colErr (bank * 72 + bitNo) rows
    due := if rowNow && !(x.due.contains (bank, row)) then x.due ++ [(bank, row)] else x.due
    colDue := if decide (4 ≤ rows.length) && !(x.colDue.contains (bank, grp)) then x.colDue ++ [(bank, grp)] else x.colDue }

/-- A correctable error at byte `off` of a slice (R217). -/
def sliceCorrectable (j off bitNo : Nat) (s : State) : State :=
  loessRepairFeed j off bitNo false (sliceErr j 1 off (s.modSlc j fun x => { x with
    ce := x.ce + 1, fix := if (off / 8) ∈ x.fix then x.fix else x.fix ++ [off / 8] }))

/-- An uncorrectable error at byte `off` of a slice, counted (R218). -/
def sliceUncorrectable (j off bitNo : Nat) (s : State) : State :=
  loessRepairFeed j off bitNo true (sliceErr j 2 off (s.modSlc j fun x => { x with ue := x.ue + 1 }))

/-- A read of a poisoned word at byte `off` (R219). -/
def slicePoisonRead (j off : Nat) (s : State) : State :=
  sliceErr j 3 off (s.modSlc j fun x => { x with poisonRd := x.poisonRd + 1 })

/-- Errors strike stored words of a slice: every later read of such a word meets them, until it is written (log 84). -/
def strikeSlice (j : Nat) (errs : List WordFault) (s : State) : State :=
  s.modSlc j fun x => { x with hurt := errs ++ x.hurt.filter fun f => !errs.any fun e => e.word == f.word }

/-- The error that a read of word `w` of a slice meets. -/
def hurtAt (s : State) (j w : Nat) : Option WordFault := (s.getSlc j).hurt.find? fun f => f.word = w

/-- The stored words `ws` of a slice are written: nothing is wrong with them, and a pending correction is dropped (R217). -/
def wordsWritten (j : Nat) (ws : List Nat) (s : State) : State :=
  s.modSlc j fun x => { x with
    hurt := x.hurt.filter fun f => !ws.contains f.word, fix := x.fix.filter fun w => !ws.contains w }

/-- The words that `len` bytes at `x` touch. -/
def wordsOf (x len : Nat) : List Nat :=
  if len = 0 then [] else (List.range ((x + len - 1) / 8 - x / 8 + 1)).map (x / 8 + ·)

/-- The check of one scratch word as it is read, poison first (R217, R218): an uncorrectable word is rewritten poisoned. The
Bool is a bus error. -/
def scratchMeet (j w : Nat) (sb : State × Bool) : State × Bool :=
  match hurtAt sb.1 j w with
  | none => sb
  | some f =>
    match f.err with
    | .correctable => (sliceCorrectable j (8 * w) f.bit.val sb.1, sb.2)
    | .uncorrectable => (wordsWritten j [w] (setWordBad j w true (sliceUncorrectable j (8 * w) f.bit.val sb.1)), true)

/-- One word of a scratch read: stored poison first, then the error it meets (R217 to R219). -/
def scratchReadWord (j w : Nat) (sb : State × Bool) : State × Bool :=
  if wordBad sb.1 j w then (slicePoisonRead j (8 * w) sb.1, true) else scratchMeet j w sb

/-- Read `len` bytes at byte `x` of a scratch slice. -/
def scratchRead (j x len : Nat) (s : State) : State × Option MemErr × List Byte :=
  let r := (wordsOf x len).foldl (fun sb w => scratchReadWord j w sb) (s, false)
  if r.2 then (r.1, some .bus, []) else (r.1, none, getBytes 0 s.loess (loessKey j x) len)

/-- Word `w` is covered whole by the bytes `x` to `x + len`. -/
def wordFull (x len w : Nat) : Bool := decide (x ≤ 8 * w ∧ 8 * w + 8 ≤ x + len)

/-- The bytes of `data` (written at `x`) that fall in word `w`, and where they start. -/
def wordPart (x : Nat) (data : List Byte) (w : Nat) : Nat × List Byte :=
  let lo := max x (8 * w)
  let hi := min (x + data.length) (8 * w + 8)
  (lo, (data.drop (lo - x)).take (hi - lo))

/-- One word of a scratch write: a full word clears poison; a partial write reads the word first (R221), and is refused where
it is poisoned (R219) or its read meets an uncorrectable error (R218). -/
def scratchWriteWord (j x : Nat) (data : List Byte) (w : Nat) (sb : State × Bool) : State × Bool :=
  let (lo, part) := wordPart x data w
  let put (s : State) : State := wordsWritten j [w] { s with loess := putBytes 0 s.loess (loessKey j lo) part }
  if wordFull x data.length w then (put (setWordBad j w false sb.1), sb.2)
  else if wordBad sb.1 j w then (sb.1, true)
  else
    let (s1, b) := scratchMeet j w (sb.1, false)
    if b then (s1, true) else (put s1, sb.2)

/-- Write `data` at byte `x` of a scratch slice (R219, R221); a transaction with any partial word is
counted. -/
def scratchWrite (j x : Nat) (data : List Byte) (s : State) : State × Option MemErr :=
  let ws := wordsOf x data.length
  let r := ws.foldl (fun sb w => scratchWriteWord j x data w sb) (s, false)
  let s1 := if ws.all (wordFull x data.length) then r.1 else r.1.modSlc j fun y => { y with rmw := y.rmw + 1 }
  (s1, if r.2 then some .bus else none)

/-! ### Cache lines (R194 to R204) -/

/-- Set of a line (R194). -/
def setOf (l : Nat) : Nat := (l ^^^ (l >>> 14)) &&& 0x3FFF

/-- The tag entries of a set, most recently used first. -/
def tagsOf (s : State) (j set : Nat) : List Tag := Tbl.get [] (s.getSlc j).sets set

/-- Replace the tag entries of a set. -/
def setTags (j set : Nat) (ts : List Tag) (s : State) : State :=
  s.modSlc j fun x => { x with sets := Tbl.put [] x.sets set ts }

/-- Tag entry of line `l`, a tombstone included. -/
def findTag (s : State) (j l : Nat) : Option Tag := (tagsOf s j (setOf l)).find? fun t => t.line = l

/-- All 32 bits. -/
def allW : W32 := BitVec.allOnes 32

/-- State of a line by its masks (Table 6.3); a fill that brings poison makes the line POISONED too (R234). -/
def lineState (t : Tag) : LineSt :=
  if t.poison ≠ 0 then .poisoned else if t.dirty ≠ 0 then .dirty else .clean

/-- Words of a line, 0 where none is held. -/
def lineWords (t : Tag) : List Nat := (List.range 32).map fun i => (Tbl.get 0 t.words i).toNat

/-- Every word is the word `p` places before it, from word `p` on. -/
def repeatsBy (ws : List Nat) (p : Nat) : Bool := (List.range 32).all fun i => ws.getD i 0 == ws.getD (i % p) 0

/-- Every delta from the first value, modulo 2^n, read as signed, fits in `d` bits. -/
def deltasFit (n d : Nat) (vs : List Nat) : Bool :=
  let v0 := vs.headD 0
  vs.all fun v =>
    let i := toInt n (v + 2 ^ n - v0)
    decide (-(2 ^ (d - 1) : Int) ≤ i ∧ i < (2 ^ (d - 1) : Int))

/-- The first form of Table 6.4 that fits the line's words (R203). -/
def compForm (ws : List Nat) : Option CompForm :=
  if ws.all (· == 0) then some .zero
  else
    match [1, 2, 4, 8].find? (repeatsBy ws) with
    | some n => some (.rep n)
    | none =>
      if deltasFit 64 8 ws then some .b8d1
      else if deltasFit 32 8 (ws.flatMap fun w => [w % 2 ^ 32, w / 2 ^ 32]) then some .b4d1
      else if deltasFit 64 16 ws then some .b8d2
      else if deltasFit 64 24 ws then some .b8d3
      else none

/-- The form the line is to be stored in: none while a word is invalid or poisoned, as poison marks a whole stored word (R203;
the latter DESIGN CHOICE, log 84). -/
def lineForm (t : Tag) : Option CompForm := if t.valid = allW ∧ t.poison = 0 then compForm (lineWords t) else none

/-- The line is stored compressed in a half slot (R203). -/
def Tag.comp (t : Tag) : Bool := t.form.isSome

/-- Stored words of the form that word `i` of the line is made from: the base first, then the deltas in ascending order
(Table 6.4 gives the sizes; the order is DESIGN CHOICE, log 84). -/
def storedAt (f : CompForm) (i : Nat) : List Nat :=
  match f with
  | .zero => []
  | .rep n => [i % n]
  | .b8d1 => [0, 1 + i / 8]
  | .b4d1 => [0, (4 + 2 * i) / 8].eraseDups
  | .b8d2 => [0, 1 + i / 4]
  | .b8d3 => [0, (8 + 3 * i) / 8, (10 + 3 * i) / 8].eraseDups

/-- Words of the slot that word `i` of the line is made from (R195). -/
def slotWords (t : Tag) (i : Nat) : List Nat :=
  match t.form with
  | none => [i]
  | some f => (storedAt f i).map (16 * t.half + ·)

/-- Word of the slice at word `k` of the line's slot (R195). -/
def slotWord (t : Tag) (k : Nat) : Nat := setOf t.line * 512 + t.slot * 32 + k

/-- Words of the line that stored word `k` of its slot holds part of: those that an error there hits (R224 gives no map; DESIGN
CHOICE, log 84). -/
def wordsHit (t : Tag) (k : Nat) : List Nat := (List.range 32).filter fun i => k ∈ slotWords t i

/-- The entry holds a data slot. -/
def Tag.data (t : Tag) : Bool := t.st != .tombstone

/-- The line is locked: it has a pending home operation (R214). -/
def Tag.locked (t : Tag) : Bool := !t.ops.isEmpty

/-- Entries that use slot `k`. -/
def inSlot (ts : List Tag) (k : Nat) : List Tag := ts.filter fun t => t.data && t.slot == k

/-- A free half of a slot that holds one compressed line (R198). -/
def freeHalf (ts : List Tag) : Option (Nat × Nat) :=
  (List.range 16).findSome? fun k =>
    match inSlot ts k with
    | [t] => if t.comp then some (k, 1 - t.half) else none
    | _ => none

/-- A free slot. -/
def freeSlot (ts : List Tag) : Option Nat := (List.range 16).find? fun k => (inSlot ts k).isEmpty

/-- Class table entry of class `c` in the tower of slice `j`. -/
def classOf (s : State) (j c : Nat) : ClassEntry := Tbl.get {} s.svc.classes (16 * (j / 24) + c)

/-- Occupancy of class `c` in a set, in half slots (R198). -/
def occH (ts : List Tag) (c : Nat) : Nat :=
  ((ts.filter fun t => t.data && t.cls == c).map fun t => if t.comp then 1 else 2).sum

/-- A victim candidate: class, place of its less recently used line, lines to evict. -/
structure Victim where
  cls : Nat
  age : Nat
  lines : List Nat
deriving DecidableEq, Repr

/-- Candidates in a set (R198): a line in a full slot; either line of a slot that holds two compressed lines when the new
line needs only a half slot (`half`), both together otherwise. -/
def candidates (ts : List Tag) (half : Bool) : List Victim :=
  let ix := ts.zipIdx
  (List.range 16).flatMap fun k =>
    match ix.filter fun e => e.1.data && e.1.slot == k with
    | [] => []
    | [e] => if e.1.comp then [] else [⟨e.1.cls, e.2, [e.1.line]⟩]
    | e :: r =>
      if half then (e :: r).map fun a => ⟨a.1.cls, a.2, [a.1.line]⟩
      else
        let o := (e :: r).foldl (fun b a => if b.2 < a.2 then a else b) e
        [⟨o.1.cls, o.2, (e :: r).map (·.1.line)⟩]

/-- Slots of a class's occupancy of the set beyond its minimum, in half slots: a class with none is protected (R198). -/
def surplusH (s : State) (j : Nat) (ts : List Tag) (c : Nat) : Nat := occH ts c - 2 * (classOf s j c).loessMin

/-- The candidates that are not of a protected class; `lockedToo` counts those that a lock bars as well (R198, R215). -/
def openTo (s : State) (j : Nat) (ts : List Tag) (half lockedToo : Bool) : List Victim :=
  (candidates ts half).filter fun v => decide (0 < surplusH s j ts v.cls)
    && (lockedToo || !ts.any fun t => v.lines.contains t.line && t.locked)

/-- The victim of R198: of the class with the largest (occupancy − m) ÷ w, ties to the higher class, its
least recently used candidate. -/
def chooseVictim (s : State) (j : Nat) (ts : List Tag) (half : Bool) : Option Victim :=
  let w (c : Nat) : Nat := (classOf s j c).loessW
  (openTo s j ts half false).foldl (fun b v =>
    match b with
    | none => some v
    | some u =>
      let x := surplusH s j ts v.cls * w u.cls
      let y := surplusH s j ts u.cls * w v.cls
      if y < x ∨ (x = y ∧ u.cls < v.cls) ∨ (v.cls = u.cls ∧ u.age < v.age) then some v else some u) none

/-! #### The write-back buffer (R200, R201) and what is below the cache -/

/-- Bytes of 8 words from word `8 k` of an entry. -/
def wbBytes (ws : Tbl W64) (k : Nat) : List Byte :=
  (List.range 8).flatMap fun i => leBytes 8 (Tbl.get 0 ws (8 * k + i)).toNat

/-- Bits `8 k` to `8 k + 7` of a mask. -/
def mask8 (m : W32) (k : Nat) : BitVec 8 := BitVec.ofNat 8 (m.toNat >>> (8 * k))

/-- Write a line's dirty codewords to Marl: whole where every word is valid, by a partial write where one is not, marked
poisoned where one is poisoned (R200, R239). -/
def writeBack (l : Nat) (valid dirty poison : W32) (ws : Tbl W64) (s : State) : State :=
  forN 4 (fun k s =>
    let bad := decide (mask8 poison k ≠ 0)
    if mask8 dirty k = 0 then s
    else if mask8 valid k = 0xFF then marlAccept (4 * l + k) (wbBytes ws k) bad s
    else marlPartial (4 * l + k) (mask8 valid k) (wbBytes ws k) bad s) s

/-- The words of a served read, with those of a write-back of the line that reaches Marl before the read's fill returns (R201). -/
def gotAfter (e : WbEnt) (ws : List (W64 × Bool)) : List (W64 × Bool) :=
  ws.zipIdx.map fun w => if getBit e.valid w.2 then (Tbl.get 0 e.words w.2, getBit e.poison w.2) else w.1

/-- The write of buffer entry `e` of slice `j` is performed, and the entry is freed. -/
def wbPut (j : Nat) (e : WbEnt) (s : State) : State :=
  (writeBack e.line e.valid e.dirty e.poison e.words s).modSlc j fun x =>
    { x with
      wb := dropFirst (fun a => decide (a = e)) x.wb
      miss := x.miss.map fun m => if m.line = e.line ∧ m.sent then { m with got := gotAfter e m.got } else m }

/-- Marl takes and acknowledges buffer entry `e` of slice `j`. -/
def wbDone (j : Nat) (e : WbEnt) (s : State) : State := wbPut j e (marlTake (chanOf s (4 * e.line)) (wbCand j e) s)

/-- Every buffered write of line `l` is performed, oldest first. -/
def wbDrain (j l : Nat) (s : State) : State :=
  forL ((s.getSlc j).wb.filter fun e => e.line = l) (fun e s => wbDone j e s) s

/-- An access that is served whole in its command waits here for room in the write-back buffer: until Marl has acknowledged
the oldest write (R200). -/
def wbRoom (j : Nat) (s : State) : State :=
  match (s.getSlc j).wb with
  | e :: _ => if 64 ≤ (s.getSlc j).wb.length then wbDone j e s else s
  | [] => s

/-- Word `i` of line `l` as it stands below the cache: in the write-back buffer, else in Marl. -/
def wordBelow (s : State) (j l i : Nat) : W64 × Bool :=
  match wbWord s j l i with
  | some w => w
  | none => let (d, p) := marlCw s (4 * l + i / 8); (cwWord d i, p)

/-- Where a fill takes the words that the write-back buffer lacks: from Marl now, under a label, or from the read that MARL_READ
has served (R206, R229). -/
inductive FillSrc where
  | marl (lab : Label)
  | got (ws : List (W64 × Bool))

/-- Read codeword `cw` of Marl for slice `j`: its channel serves, decodes and counts it (R232 to R235, R284). -/
def marlFetch (j : Nat) (lab : Label) (cw : Nat) (s0 : State) : State × List Byte × Bool :=
  let s := marlTake (chanOf s0 cw) (lab.cand (j % 24) 64) s0
  let o := decodeCw s cw
  (marlReadCw cw s, o.2, o.1.bad)

/-- Supply the words `ws` of line `t` from below: from the write-back buffer, and from Marl those that the buffer lacks
(R197, R201). -/
def fetchWords (src : FillSrc) (j : Nat) (ws : List Nat) (t : Tag) (s : State) : State × Tag :=
  (List.range 4).foldl (fun st k =>
    let mine := ws.filter fun i => i / 8 = k
    let put (t : Tag) (i : Nat) (w : W64 × Bool) : Tag :=
      { t with words := Tbl.put 0 t.words i w.1, valid := setBit t.valid i true, poison := setBit t.poison i w.2 }
    let t1 := mine.foldl (fun t i => match wbWord s j t.line i with | some w => put t i w | none => t) st.2
    let lack := mine.filter fun i => (wbWord s j t.line i).isNone
    if lack = [] then (st.1, t1)
    else
      match src with
      | .got g => (st.1, lack.foldl (fun t i => put t i (g.getD i (0, false))) t1)
      | .marl lab =>
        let (s1, d, p) := marlFetch j lab (4 * t.line + k) st.1
        (s1, lack.foldl (fun t i => put t i (cwWord d i, p)) t1)) (s, t)

/-- A line with its invalid words supplied from below; its valid words keep their contents (R197). -/
def fillTag (src : FillSrc) (j : Nat) (t : Tag) (s : State) : State × Tag :=
  fetchWords src j ((List.range 32).filter fun i => !getBit t.valid i) t s

/-- Byte offset in the slice that is reported for word `i` of a line: of the stored word, the last where it has several
(R195). -/
def lineOff (t : Tag) (i : Nat) : Nat := 8 * slotWord t ((slotWords t i).getLastD (16 * t.half))

/-- Reading the words `ws` of a line meets the errors of the stored words they are made from (R217, R218): a clean word that
is lost is fetched again, a dirty one becomes poisoned. `held` are the words that stand in the line's slot; the others have
just come from below, and a word fetched again bears the label `lab`. -/
def lineMeet (lab : Label) (j : Nat) (held : W32) (ws : List Nat) (t : Tag) (s : State) : State × Tag :=
  let ks := ((ws.filter fun i => getBit held i && !getBit t.poison i).flatMap (slotWords t)).eraseDups
  let r := ks.foldl (fun (a : State × List Nat) k =>
    match hurtAt a.1 j (slotWord t k) with
    | none => a
    | some f =>
      match f.err with
      | .correctable => (sliceCorrectable j (8 * slotWord t k) f.bit.val a.1, a.2)
      | .uncorrectable =>
        (wordsWritten j [slotWord t k] (sliceUncorrectable j (8 * slotWord t k) f.bit.val a.1), a.2 ++ wordsHit t k)) (s, [])
  let lost := r.2.eraseDups.filter fun i => getBit held i && !getBit t.poison i
  let t1 := (lost.filter (getBit t.dirty)).foldl (fun t i => { t with poison := setBit t.poison i true }) t
  fetchWords (.marl lab) j (lost.filter fun i => !getBit t.dirty i) t1 r.1

/-- A requester reads the words `ws` of a line: reads of poisoned words are counted, then the errors are met. The Bool is a
bus error (R217 to R219). -/
def lineCheck (lab : Label) (j : Nat) (held : W32) (ws : List Nat) (t : Tag) (s : State) : State × Tag × Bool :=
  let s1 := forL (ws.filter (getBit t.poison)) (fun i s => slicePoisonRead j (lineOff t i) s) s
  let (s2, t2) := lineMeet lab j held ws t s1
  (s2, t2, ws.any (getBit t2.poison))

/-! #### Placing a line (R198 to R200, R203, R204, R215) -/

/-- Evict line `l` of a set: a CLEAN line is dropped, any other is copied to the buffer with the home operations committed on
it (R200, R216). -/
def evictLine (j set l : Nat) (s : State) : State :=
  match (tagsOf s j set).find? fun t => t.line = l with
  | none => s
  | some t =>
    let out (s : State) : State := setTags j set ((tagsOf s j set).filter fun a => a.line ≠ l) s
    if t.st = .clean then out s
    else
      let (s1, t1) := lineMeet (t.cls, false, 0) j t.valid (List.range 32) t (wbRoom j s)
      (out s1).modSlc j fun x => { x with
        wb := x.wb ++ [{ line := l, valid := t1.valid, dirty := t1.dirty, poison := t1.poison, words := t1.words, cls := t.cls }] }

/-- Free a tag entry where the set's 32 are all in use: the oldest tombstone goes, counted (R199, R210). -/
def tagRoom (j set : Nat) (s : State) : State :=
  let ts := tagsOf s j set
  if ts.length < 32 then s
  else
    match ts.reverse.find? fun t => t.st == .tombstone with
    | some t =>
      (setTags j set (ts.filter fun a => a.line ≠ t.line) s).modSlc j fun x => { x with tombDrop := x.tombDrop + 1 }
    | none => s

/-- The tag entries of the line's set but its own: its half slot counts as free (R204). -/
def otherTags (s : State) (j : Nat) (t : Tag) : List Tag := (tagsOf s j (setOf t.line)).filter fun a => a.line ≠ t.line

/-- Where a line would go among the entries `ts` and which lines leave for it. -/
def slotFor (s : State) (j : Nat) (ts : List Tag) (half : Bool) : Option (Nat × Nat × List Nat) :=
  match (if half then freeHalf ts else none), freeSlot ts with
  | some (k, h), _ => some (k, h, [])
  | none, some k => some (k, 0, [])
  | none, none =>
    match chooseVictim s j ts half with
    | none => none
    | some v =>
      let p := match ts.find? fun t => t.line = v.lines.headD 0 with
        | some t => (t.slot, if t.comp then t.half else 0)
        | none => (0, 0)
      some (p.1, (if half ∧ v.lines.length = 1 then p.2 else 0), v.lines)

/-- The stored words of a line are written as it is put into its slot. -/
def slotWritten (j : Nat) (t : Tag) (s : State) : State :=
  wordsWritten j ((((List.range 32).filter (getBit t.valid)).flatMap (slotWords t)).eraseDups.map (slotWord t)) s

/-- Put line `t` into its set as the most recently used entry, in the first form that fits; an older entry of the line gives
way. None where no slot can be had. -/
def placeLine (j : Nat) (t : Tag) (s : State) : Option State :=
  let set := setOf t.line
  let f := lineForm t
  match slotFor s j (otherTags s j t) f.isSome with
  | none => none
  | some (k, h, out) =>
    let s0 := setTags j set (otherTags s j t) s
    let s1 := tagRoom j set (forL out (fun l s => evictLine j set l s) s0)
    let nt := { t with slot := k, half := h, form := f, st := lineState t, bad := [] }
    some (slotWritten j nt (setTags j set (nt :: tagsOf s1 j set) s1))

/-- Put back a line that keeps its slot, as the most recently used. -/
def keepLine (j : Nat) (t : Tag) (s : State) : State :=
  setTags j (setOf t.line) ({ t with st := lineState t } :: otherTags s j t) s

/-- A line in a full slot that now fits a form moves only to a free half slot (R204). -/
def shrinkTo (s : State) (j : Nat) (t : Tag) : Option Tag :=
  match t.form, lineForm t, freeHalf (otherTags s j t) with
  | none, some f, some (k, h) => some { t with form := some f, slot := k, half := h, bad := [] }
  | _, _, _ => none

/-- The line needs a slot it does not have: it is new, or compressed and fits no form any more (R204). -/
def wantsSlot (was : Bool) (t : Tag) : Bool := !was || (t.comp && (lineForm t).isNone)

/-- What the slot that a line needs waits for: room in the write-back buffer (R200), or the locks of its set (R215). -/
inductive SlotWait where
  | ready | buffer | locked
deriving DecidableEq, Repr

/-- The slot that storing line `t` needs; `was` says that the line is resident. -/
def slotWait (s : State) (j : Nat) (was : Bool) (t : Tag) : SlotWait :=
  let ts := otherTags s j t
  let half := (lineForm t).isSome
  if !wantsSlot was t then .ready
  else
    match slotFor s j ts half with
    | some (_, _, out) =>
      let copies := (ts.filter fun a => out.contains a.line && a.st != .clean).length
      if copies = 0 ∨ (s.getSlc j).wb.length + copies ≤ 64 then .ready else .buffer
    | none => if openTo s j ts half true = [] then .ready else .locked

/-- A line for which no slot exists leaves by way of the write-back buffer. -/
def leaveLine (j : Nat) (t : Tag) (s : State) : State :=
  let s1 := setTags j (setOf t.line) (otherTags s j t) s
  if t.dirty = 0 then s1
  else (wbRoom j s1).modSlc j fun x => { x with
    wb := x.wb ++ [{ line := t.line, valid := t.valid, dirty := t.dirty, poison := t.poison, words := t.words, cls := t.cls }] }

/-- Put back a changed line in its slot: the words `ws` are written there, or all of them. -/
def keepSlot (j : Nat) (ws : List Nat) (t : Tag) (all : Bool) (s : State) : State :=
  let u := if t.comp then { t with form := lineForm t, bad := [] } else t
  let s1 := keepLine j u s
  if all || u.comp then slotWritten j u s1 else wordsWritten j (ws.map (slotWord u)) s1

/-- Put back a changed line where nothing waits: it keeps its slot, changes it or is placed. Where no slot exists for it, it
leaves (DESIGN CHOICE, log 84: a set whose slots hold one compressed line each). `ws` are the
words just written. -/
def settleLine (j : Nat) (was : Bool) (ws : List Nat) (t : Tag) (s : State) : State :=
  if wantsSlot was t then
    match placeLine j t s with
    | some s' => s'
    | none => leaveLine j t s
  else
    match shrinkTo s j t with
    | some u => keepSlot j ws u true s
    | none => keepSlot j ws t false s

/-- Words that a home operation at byte `o` of a line reads and writes (R211). -/
def opWords (o : Nat) (op : HomeOp) : List Nat :=
  match op with
  | .atomic a _ _ => wordsOf o (atomSize a.ty.toNat)
  | .reduce _ rty mask _ =>
    let sz := redSize rty.toNat
    (List.range 32).filter fun i => (List.range (8 / sz)).any fun e =>
      (mask.getD ((8 * i / sz + e) / 8) 0).getLsbD ((8 * i / sz + e) % 8)

/-- An entry with no word yet. -/
def newTag (l cls : Nat) : Tag :=
  { line := l, st := .clean, cls := cls, valid := 0, dirty := 0, poison := 0, words := [], form := none, ops := [],
    slot := 0, half := 0, ctx := 0 }

/-- The resident line `l`, a tombstone not counting; none when it is not resident. -/
def resident (s : State) (j l : Nat) : Option Tag :=
  match findTag s j l with
  | some t => if t.data then some t else none
  | none => none

/-- The line as a fill leaves it, before it is placed: every word valid. -/
def filledLine (src : FillSrc) (j l cls : Nat) (s : State) : State × Tag :=
  fillTag src j ((resident s j l).getD (newTag l cls)) s

/-- Bytes of a line. -/
def tagBytes (t : Tag) : List Byte := (List.range 32).flatMap fun i => leBytes 8 (Tbl.get 0 t.words i).toNat

/-- Write `data` at byte `o` of a line: full words become valid, dirty and free of poison, partial words are
merged into valid ones, a partial write of a poisoned word is refused (R197, R219). -/
def lineWrite (o : Nat) (data : List Byte) (t : Tag) : Tag × Bool :=
  (wordsOf o data.length).foldl (fun a i =>
    let (t, b) := a
    let (lo, part) := wordPart o data i
    if wordFull o data.length i then
      ({ t with words := Tbl.put 0 t.words i (BitVec.ofNat 64 (ofLe part)), valid := setBit t.valid i true,
                dirty := setBit t.dirty i true, poison := setBit t.poison i false }, b)
    else if getBit t.poison i then (t, true)
    else
      let old := leBytes 8 (Tbl.get 0 t.words i).toNat
      ({ t with words := Tbl.put 0 t.words i (BitVec.ofNat 64 (ofLe (setBytes old (lo - 8 * i) part))),
                dirty := setBit t.dirty i true }, b)) (t, false)

/-- The write touches part of a word that the line does not hold (R197). -/
def needsFill (o len : Nat) (t : Tag) : Bool :=
  (wordsOf o len).any fun i => !wordFull o len i && !getBit t.valid i

/-- A home operation on a line all of whose words are valid (R211 to R213): the new line, the old element's bytes, and
whether a poisoned word stopped it. `o` is the byte offset in the line. A reduction leaves its poisoned words. -/
def lineOp (o : Nat) (op : HomeOp) (t : Tag) : Tag × List Byte × Bool :=
  let bad := (opWords o op).any (getBit t.poison)
  match op with
  | .atomic a v c =>
    let n := atomSize a.ty.toNat
    let old := ((tagBytes t).drop o).take n
    if bad then (t, [], true)
    else ((lineWrite o (leBytes n (atomApply a.aop.toNat a.ty.toNat (ofLe old) v.toNat c.toNat)) t).1, old, false)
  | .reduce rop rty mask v =>
    let new := lineReduce rop.toNat rty.toNat mask (tagBytes t) v
    (((opWords o op).filter fun i => !getBit t.poison i).foldl (fun t i =>
      (lineWrite (8 * i) ((new.drop (8 * i)).take 8) t).1) t, [], bad)

/-- A home operation on a resident or filled line: the words it reads, of a compressed line all, are checked and their poison
counted, then it is applied (R213, R217 to R219). -/
def homeOn (lab : Label) (j : Nat) (held : W32) (o : Nat) (op : HomeOp) (t : Tag) (s : State) : State × Tag × List Byte × Bool :=
  let (s0, t0) := lineMeet lab j held (if t.comp then List.range 32 else []) t s
  let (s1, t1, _) := lineCheck lab j held (opWords o op) t0 s0
  let (t2, old, b) := lineOp o op t1
  (s1, t2, old, b)

/-! ### Answers to requesters -/

/-- Deliver data or an error to the requester. -/
def reply (who : Agent) (e : Option MemErr) (bs : List Byte) (s : State) : State :=
  match e with
  | none => send (.data who bs) s
  | some .bus => send (.busError who) s
  | some .discarded => send (.discarded who) s

/-- Acknowledge a write, or give its error. -/
def replyWrite (who : Agent) (e : Option MemErr) (s : State) : State :=
  match e with
  | none => send (.ack who) s
  | some .bus => send (.busError who) s
  | some .discarded => send (.discarded who) s

/-- The answer of a home operation: its value where it returns one, else the acknowledge (R213). -/
def replyOp (who : Agent) (ret : Bool) (e : Option MemErr) (old : List Byte) (s : State) : State :=
  if ret then reply who e old s else replyWrite who e s

/-! ### Pending home operations (R213 to R216) -/

/-- The first `n` pending operations of a resident line are applied in order and answered. -/
def applyOps (j n : Nat) (t : Tag) (s : State) : State × Tag :=
  let r := (t.ops.take n).foldl (fun (a : State × Tag) p =>
    let (s1, t1, old, b) := homeOn (t.cls, false, 0) j t.valid p.off p.op a.2 a.1
    (replyOp p.who p.ret (if b then some .bus else none) old s1, t1)) (s, t)
  (r.1, { r.2 with ops := t.ops.drop n })

/-- Commit the first `n` pending operations of line `l`; the line keeps its slot for now. -/
def applyPend (j l n : Nat) (s : State) : State :=
  match resident s j l with
  | none => s
  | some t => let r := applyOps j n t s; keepLine j r.2 r.1

/-- The resident line `l` settles after a change (R204). -/
def resettle (j l : Nat) (s : State) : State :=
  match resident s j l with
  | none => s
  | some t => settleLine j true (List.range 32) t s

/-- Every pending operation of a set's lines other than `l` commits, and each lock clears (R214). -/
def unlockSet (j set l : Nat) (s : State) : State :=
  let ls := ((tagsOf s j set).filter fun t => t.locked && t.line != l).map (·.line)
  forL ls (resettle j) (forL ls (fun a s => applyPend j a 4 s) s)

/-- A request that waits for a victim is counted once, and holds the operations that arrive for its set (R215). -/
def lockWaits (j set l : Nat) (s : State) : State :=
  if (set, l) ∈ (s.getSlc j).held_ then s
  else s.modSlc j fun x => { x with lockWait := x.lockWait + 1, held_ := x.held_ ++ [(set, l)] }

/-- The request of line `l` has its victim. -/
def lockOver (j l : Nat) (s : State) : State := s.modSlc j fun x => { x with held_ := x.held_.filter fun e => e.2 ≠ l }

/-- The line needs a slot and none can be had for it: it is about to leave. -/
def leaves (s : State) (j : Nat) (was : Bool) (t : Tag) : Bool :=
  wantsSlot was t && (slotFor s j (otherTags s j t) (lineForm t).isSome).isNone

/-- Put back a changed line. An access served whole in its command waits here where every candidate is locked: the pending
operations of the set commit first, and the wait is counted (R215). The operations still pending on a line that leaves are applied
before it does (R214, R216). -/
def storeLine (j : Nat) (was : Bool) (ws : List Nat) (t0 : Tag) (s0 : State) : State :=
  let (s, t) := if leaves s0 j was t0 then applyOps j 4 t0 s0 else (s0, t0)
  match slotWait s j was t with
  | .locked => lockOver j t.line (settleLine j was ws t (unlockSet j (setOf t.line) t.line (lockWaits j (setOf t.line) t.line s)))
  | .ready => lockOver j t.line (settleLine j was ws t s)
  | .buffer => lockOver j t.line (settleLine j was ws t s)

/-- Every pending operation of line `l` commits for an access that is served whole in its command, and the line settles (R213,
R214). -/
def commitAll (j l : Nat) (s : State) : State :=
  if (resident s j l).any Tag.locked then
    let s1 := applyPend j l 4 s
    match resident s1 j l with
    | none => s1
    | some t => storeLine j true (List.range 32) t s1
  else s

/-- The oldest pending operation of line `l` commits, and the line settles; an operation that makes the line need a slot waits until
there is one (R200, R204, R213 to R215). -/
def commitOne (j l : Nat) (s : State) : State :=
  if (resident s j l).any Tag.locked then
    let s1 := applyPend j l 1 s
    match resident s1 j l with
    | none => s1
    | some t =>
      match slotWait s1 j true t with
      | .ready => storeLine j true (List.range 32) t s1
      | .buffer => s
      | .locked => lockWaits j (setOf l) l s
  else s

/-- The first `n` pending operations of line `l` commit. -/
def commitOps (j l n : Nat) (s : State) : State := forN n (fun _ s => commitOne j l s) s

/-! ### Tombstones (R208 to R210) -/

/-- What a read or home operation that finds a tombstone does: the tombstone goes and is counted for its
context; with STRICT the requester gets DISCARDED (R209). -/
def tombstoneRead (j l : Nat) (s : State) : State × Option MemErr :=
  match findTag s j l with
  | some t =>
    if t.data then (s, none)
    else
      let s1 := setTags j (setOf l) ((tagsOf s j (setOf l)).filter fun a => a.line ≠ l) s
      let s2 := s1.modCtx t.ctx fun x => { x with reread := x.reread + 1 }
      (s2, if (s.getCtx t.ctx).strict then some .discarded else none)
  | none => (s, none)

/-- Dead-line hint to local address `pa` by context `c`, after the line's pending home operations (R208). -/
def deadLine (pa c : Nat) (s : State) : State :=
  if marlBytes ≤ pa then s
  else
    let l := pa / 256
    match homeSlice s l with
    | none => s
    | some j =>
      let s1 := commitAll j l s
      match resident s1 j l with
      | none => s1
      | some t => setTags j (setOf l) ({ newTag l t.cls with st := .tombstone, ctx := c } :: otherTags s1 j t) s1

/-! ### The local memory as a requester sees it (R36, R193) -/

/-- Words whose stored contents a write of `len` bytes at `o` reads: those it covers in part, and every word of a compressed
line (R203, R221). -/
def writeReads (o len : Nat) (t : Tag) : List Nat :=
  if t.comp then List.range 32 else (wordsOf o len).filter fun i => !wordFull o len i

/-- Write `data` at byte `o` of a line that needs no fill: the line, and whether a poisoned word refused part of it (R219,
R221). -/
def writeOn (lab : Label) (j : Nat) (held : W32) (o : Nat) (data : List Byte) (t : Tag) (s : State) : State × Tag × Bool :=
  let (s1, t1) := lineMeet lab j held (writeReads o data.length t) t s
  let (t2, b) := lineWrite o data t1
  (s1, t2, b)

/-- Line of a joined request. -/
def Joined.line : Joined → Nat
  | .read _ a _ => a / 256
  | .write _ a _ => a / 256
  | .op _ a _ _ => a / 256

/-- Who sent a joined request. -/
def Joined.who : Joined → Agent
  | .read w _ _ => w
  | .write w _ _ => w
  | .op w _ _ _ => w

/-- One joined request on the filled line, in join order (R205); `held` are the words that stood in the line's slot. -/
def applyJoined (lab : Label) (j : Nat) (held : W32) (jn : Joined) (st : State × Tag) : State × Tag :=
  match jn with
  | .read who a len =>
    let (s2, t2, b) := lineCheck lab j held (wordsOf (a % 256) len) st.2 st.1
    (reply who (if b then some .bus else none) (((tagBytes t2).drop (a % 256)).take len) s2, t2)
  | .write who a data =>
    let (s1, t2, b) := writeOn lab j held (a % 256) data st.2 st.1
    (replyWrite who (if b then some .bus else none) s1, t2)
  | .op who a ret o =>
    let (s1, t2, old, b) := homeOn lab j held (a % 256) o st.2 st.1
    (replyOp who ret (if b then some .bus else none) old s1, t2)

/-- Label of a miss entry's read (R206). -/
def Miss.label (m : Miss) : Label := (m.cls, m.rt, m.dl)

/-- The words of a miss entry's fill: those its served read gave, or Marl's now. -/
def Miss.src (m : Miss) : FillSrc := if m.sent then .got m.got else .marl m.label

/-- The fill of miss entry `m` of slice `j` returns and its requests are applied in join order (R205). -/
def fillEntry (j : Nat) (m : Miss) (s : State) : State × Tag :=
  let held := ((resident s j m.line).map (·.valid)).getD 0
  let (s0, t) := filledLine m.src j m.line m.cls s
  forL m.reqs (applyJoined m.label j held) (s0.modSlc j fun x => { x with miss := x.miss.filter fun a => a.line ≠ m.line }, t)

/-- The entry of line `l`, if there is one, is filled for an access that is served whole in its command. -/
def fillNow (j l : Nat) (s : State) : State :=
  match (s.getSlc j).miss.find? fun m => m.line = l with
  | none => s
  | some m => let r := fillEntry j m s; storeLine j (resident s j l).isSome (List.range 32) r.2 r.1

/-- An access that is served whole in its command misses line `l`: it joins the line's entry, which is filled first, or waits at the
slice input, counted, until a full table's oldest entry or a full entry has been filled (R205, R207). -/
def meetMiss (j l : Nat) (s : State) : State :=
  let x := s.getSlc j
  match x.miss.find? fun m => m.line = l with
  | some m =>
    fillNow j l (s.modSlc j fun x =>
      if m.reqs.length < 64 then { x with merged := x.merged + 1 } else { x with missWait := x.missWait + 1 })
  | none =>
    if x.miss.length < 128 then s
    else fillNow j ((x.miss.head?.map (·.line)).getD 0) (s.modSlc j fun x => { x with missWait := x.missWait + 1 })

/-- Every word of line `l` is held. -/
def lineFull (s : State) (j l : Nat) : Bool := (resident s j l).any fun t => t.valid == allW

/-- A request for the set waits for its victim, and the home operations that arrive for the set wait too (R215). -/
def setHeld (s : State) (j l : Nat) : Bool := (s.getSlc j).held_.any fun e => e.1 == setOf l

/-- Where a request waits for a victim of the set of `l`, an operation that is served whole in its command waits first: the pending
operations of the set commit, and the fills that wait get their victims (R215). -/
def freeSet (j l : Nat) (s : State) : State :=
  forL ((s.getSlc j).held_.filter fun e => e.1 = setOf l) (fun e s =>
    lockOver j e.2 (fillNow j e.2 (unlockSet j e.1 e.2 s))) s

/-- Read bytes `o` to `o + len` of line `l` at once: hit, or fill and placement, then delivery. -/
def cacheReadNow (l o len : Nat) (lab : Label) (s : State) : State × Option MemErr × List Byte :=
  match homeSlice s l with
  | none => (s, some .bus, [])
  | some j =>
    let (s0, e) := tombstoneRead j l s
    if e.isSome then (s0, e, [])
    else
      let ws := wordsOf o len
      let s1 := if lineFull s0 j l then s0 else meetMiss j l s0
      let held := ((resident s1 j l).map (·.valid)).getD 0
      let (s2, t) := filledLine (.marl lab) j l lab.1 s1
      let (s3, t2, b) := lineCheck lab j held ws t s2
      (if held = allW then keepLine j t2 s3
        else storeLine j (resident s1 j l).isSome ((List.range 32).filter fun i => !getBit held i) t2 s3, if b then some .bus else none,
        if b then [] else ((tagBytes t2).drop o).take len)

/-- Write bytes `o` on of line `l` at once (R197, R219, R221). -/
def cacheWriteNow (l o : Nat) (lab : Label) (data : List Byte) (s0 : State) : State × Option MemErr :=
  match homeSlice s0 l with
  | none => (s0, some .bus)
  | some j =>
    let s := if needsFill o data.length ((resident s0 j l).getD (newTag l lab.1)) then meetMiss j l s0 else s0
    let was := (resident s j l).isSome
    let t0 := (resident s j l).getD (newTag l lab.1)
    let ws := wordsOf o data.length
    let partly := !(ws.all (wordFull o data.length))
    let fill := needsFill o data.length t0
    let (s1, t1) := if fill then fillTag (.marl lab) j t0 s else (s, t0)
    let (s2, t2, b) := writeOn lab j t0.valid o data t1 s1
    let s3 := storeLine j was (if fill then List.range 32 else ws) t2 s2
    (if partly && !fill then s3.modSlc j fun x => { x with rmw := x.rmw + 1 } else s3,
      if b then some .bus else none)

/-- A home operation on line `l` at once, after those pending there (R211 to R214). -/
def cacheOpNow (l o : Nat) (lab : Label) (op : HomeOp) (s : State) : State × Option MemErr × List Byte :=
  match homeSlice s l with
  | none => (s, some .bus, [])
  | some j =>
    let (s0, e) := tombstoneRead j l (commitAll j l (if setHeld s j l then freeSet j l s else s))
    if e.isSome then (s0, e, [])
    else
      let s1 := if lineFull s0 j l then s0 else meetMiss j l s0
      let (s2, t) := filledLine (.marl lab) j l lab.1 s1
      let (s3, t2, old, b) := homeOn lab j (((resident s1 j l).map (·.valid)).getD 0) o op t s2
      (storeLine j (resident s1 j l).isSome (List.range 32) t2 s3, if b then some .bus else none, old)

/-- Pieces of `len` bytes at `pa` that do not cross a 256-byte line. -/
def linePieces : Nat → Nat → Nat → List (Nat × Nat)
  | 0, _, _ => []
  | fuel + 1, pa, len =>
    if len = 0 then []
    else
      let n := min len (256 - pa % 256)
      (pa, n) :: linePieces fuel (pa + n) (len - n)

/-- All pieces. -/
def pieces (pa len : Nat) : List (Nat × Nat) := linePieces (len / 256 + 2) pa len

/-- The device copy is held there: every access but the device's own receives a bus error (R401, R407). -/
def copyHeld (s : State) (pa : Nat) : Bool := s.bru.held && decide (0x23_FD00_0000 ≤ pa ∧ pa < 0x24_0000_0000)

/-- The slice that serves a local memory address: the home slice of a Marl line, or the scratch slice. -/
def sliceOf (s : State) (pa : Nat) : Option Nat := if pa < marlBytes then homeSlice s (pa / 256) else (scratchOf s pa).map (·.1)

/-- Each slice that serves part of an access starts a wavefront for every 512 bytes of it (R51, R57; the width is that of R222,
DESIGN CHOICE, log 84). -/
def sliceStarts (pa len : Nat) (s : State) : State :=
  forL ((pieces pa len).filterMap fun p => (sliceOf s p.1).map fun j => (j, p.1 / 512)).eraseDups (fun e s => sliceStart e.1 s) s

/-- Read `len` bytes of local memory at `pa` (Marl through its home slice, scratch, else a bus error), under the label of the
request (R279). -/
def memRead (pa len : Nat) (lab : Label) (s : State) : State × Option MemErr × List Byte :=
  (pieces pa len).foldl (fun a p =>
    let (s, e, bs) := a
    let r :=
      if copyHeld s p.1 then (s, some .bus, [])
      else if p.1 + p.2 ≤ marlBytes then cacheReadNow (p.1 / 256) (p.1 % 256) p.2 lab s
      else match scratchOf s p.1 with
        | some (j, x) => scratchRead j x p.2 s
        | none => (s, some .bus, [])
    (r.1, if e.isSome then e else r.2.1, bs ++ r.2.2)) (sliceStarts pa len s, none, [])

/-- Write bytes to local memory at `pa`. -/
def memWrite (pa : Nat) (data : List Byte) (lab : Label) (s : State) : State × Option MemErr :=
  (pieces pa data.length).foldl (fun a p =>
    let (s, e) := a
    let d := (data.drop (p.1 - pa)).take p.2
    let r :=
      if copyHeld s p.1 then (s, some .bus)
      else if p.1 + p.2 ≤ marlBytes then cacheWriteNow (p.1 / 256) (p.1 % 256) lab d s
      else match scratchOf s p.1 with
        | some (j, x) => scratchWrite j x d s
        | none => (s, some .bus)
    (r.1, if e.isSome then e else r.2)) (sliceStarts pa data.length s, none)

/-- A home operation at byte `x` of scratch slice `j`, on the 256 bytes around it as a line of words with their poison. -/
def scratchOp (j x : Nat) (op : HomeOp) (s : State) : State × Option MemErr × List Byte :=
  let base := x / 256 * 256
  let r := (opWords (x % 256) op).foldl (fun sb i => scratchReadWord j (base / 8 + i) sb) (s, false)
  let t := (List.range 32).foldl (fun t i =>
    { t with words := Tbl.put 0 t.words i (BitVec.ofNat 64 (ofLe (getBytes 0 s.loess (loessKey j (base + 8 * i)) 8))),
             poison := setBit t.poison i (wordBad r.1 j (base / 8 + i)) })
    { newTag 0 0 with valid := allW }
  let (t2, old, b) := lineOp (x % 256) op t
  let s1 := forN 32 (fun i s =>
    if getBit t2.dirty i then
      wordsWritten j [base / 8 + i]
        { s with loess := putBytes 0 s.loess (loessKey j (base + 8 * i)) (leBytes 8 (Tbl.get 0 t2.words i).toNat) }
    else s) r.1
  (s1, if b then some .bus else none, old)

/-- A home operation on local memory at `pa` (R211): at the line's cache slice, or at the scratch slice. -/
def memOp (pa : Nat) (lab : Label) (op : HomeOp) (s0 : State) : State × Option MemErr × List Byte :=
  let s := sliceStarts pa 1 s0
  if copyHeld s pa then (s, some .bus, [])
  else if pa < marlBytes then cacheOpNow (pa / 256) (pa % 256) lab op s
  else
    match scratchOf s pa with
    | none => (s, some .bus, [])
    | some (j, x) => scratchOp j x op s

/-- The word of local memory at `pa` is poisoned. -/
def memPoisoned (s : State) (pa : Nat) : Bool :=
  if pa < marlBytes then
    match homeSlice s (pa / 256) with
    | none => false
    | some j =>
      let i := pa % 256 / 8
      match resident s j (pa / 256) with
      | some t => if getBit t.valid i then getBit t.poison i else (wordBelow s j (pa / 256) i).2
      | none => (wordBelow s j (pa / 256) i).2
  else
    match scratchOf s pa with
    | some (j, x) => wordBad s j (x / 8)
    | none => false

/-- Bytes of local memory as a read would give them, without the read's effects: the view the laws are
stated in. None at an address that is no memory. -/
def memByte (s : State) (pa : Nat) : Option Byte :=
  if pa < marlBytes then
    match homeSlice s (pa / 256) with
    | none => none
    | some j =>
      let i := pa % 256 / 8
      let w := match resident s j (pa / 256) with
        | some t => if getBit t.valid i then Tbl.get 0 t.words i else (wordBelow s j (pa / 256) i).1
        | none => (wordBelow s j (pa / 256) i).1
      some ((leBytes 8 w.toNat).getD (pa % 8) 0)
  else
    match scratchOf s pa with
    | some (j, x) => some (Tbl.get 0 s.loess (loessKey j x))
    | none => none

end Sys2Proof.Machine
end

