-- ==== Sys2Proof/Machine/Fabric.lean ====
section
/-! DEFINITION. The fabric as the units of the block use it: packets and their flits, dimension-order
routing, responses, and the transport endpoint that issues requests (R335, R359 to R368, R372). -/

namespace Sys2Proof
open Machine

/-! ### Packets and flits (Tables 11.3, 12.1) -/

/-- Class label of a packet. -/
def Pkt.cls (p : Pkt) : Nat := bits p.flags.toNat 3 0
/-- RT flag. -/
def Pkt.rt (p : Pkt) : Bool := bit p.flags.toNat 4
/-- Label of a packet (R279). -/
def Pkt.label (p : Pkt) : Nat × Bool × W32 := (p.cls, p.rt, p.dl)
/-- RETRY flag. -/
def Pkt.retry (p : Pkt) : Bool := bit p.flags.toNat 5
/-- NBR flag. -/
def Pkt.nbr (p : Pkt) : Bool := bit p.flags.toNat 6
/-- The operation is a response (Table 12.2). -/
def Pkt.isResp (p : Pkt) : Bool := p.op == 0x81 || p.op == 0x82 || p.op == 0x83

/-- The bytes of a packet: the header of Table 12.1, then the payload. -/
def Pkt.bytes (p : Pkt) : List Byte :=
  [p.op, p.flags] ++ leBytes 2 p.payload.length ++ leBytes 4 p.dl.toNat ++ leBytes 2 p.dst.toNat
    ++ leBytes 2 p.src.toNat ++ leBytes 2 p.tid.toNat ++ [p.status, p.arg]
    ++ leBytes 8 p.addr.toNat ++ leBytes 8 p.aux.toNat ++ p.payload

/-- A packet from its bytes. -/
def Pkt.ofBytes (b : List Byte) : Pkt :=
  let g (o n : Nat) := ofLe ((b.drop o).take n)
  { op := b.getD 0 0, flags := b.getD 1 0, dl := BitVec.ofNat 32 (g 4 4), dst := BitVec.ofNat 16 (g 8 2),
    src := BitVec.ofNat 16 (g 0xA 2), tid := BitVec.ofNat 16 (g 0xC 2), status := b.getD 0xE 0, arg := b.getD 0xF 0,
    addr := BitVec.ofNat 64 (g 0x10 8), aux := BitVec.ofNat 64 (g 0x18 8), payload := (b.drop 32).take (g 2 2) }

end Sys2Proof

namespace Sys2Proof.Machine
open Sys2Proof

/-- FLAGS of a class label, RT and RETRY. -/
def pktFlags (cls : Nat) (rt retry : Bool) : Byte := BitVec.ofNat 8 (cls % 16 + 16 * b2n rt + 32 * b2n retry)

/-- Fields of a flit header (Table 11.3). -/
structure FlitHdr where
  type : Nat
  vl : Nat
  first : Bool
  last : Bool
  rpl : Bool
  ackV : Bool
  seq : Nat
  ack : Nat
  craVl : Nat
  craCnt : Nat
  crbVl : Nat
  crbCnt : Nat
  len : Nat
deriving DecidableEq, Repr

/-- The 12 header bytes. -/
def FlitHdr.bytes (h : FlitHdr) : List Byte :=
  leBytes 12 (h.type + h.vl * 2 ^ 4 + b2n h.first * 2 ^ 7 + b2n h.last * 2 ^ 8 + b2n h.rpl * 2 ^ 9
    + b2n h.ackV * 2 ^ 10 + h.seq * 2 ^ 12 + h.ack * 2 ^ 24 + h.craVl * 2 ^ 36 + h.craCnt * 2 ^ 39
    + h.crbVl * 2 ^ 47 + h.crbCnt * 2 ^ 50 + h.len * 2 ^ 58)

/-- The header number of a flit. -/
def flitNum (f : List Byte) : Nat := ofLe (f.take 12)

/-- The header of a flit. -/
def flitHdr (f : List Byte) : FlitHdr :=
  let v := flitNum f
  { type := bits v 3 0, vl := bits v 6 4, first := bit v 7, last := bit v 8, rpl := bit v 9, ackV := bit v 10,
    seq := bits v 23 12, ack := bits v 35 24, craVl := bits v 38 36, craCnt := bits v 46 39,
    crbVl := bits v 49 47, crbCnt := bits v 57 50, len := bits v 65 58 }

/-- The flit of a header and payload bytes, with its CRC (R335, R336). -/
def mkFlit (h : FlitHdr) (payload : List Byte) : List Byte :=
  let body := h.bytes ++ payload.take 240 ++ List.replicate (240 - payload.length) 0
  body ++ leBytes 4 (crc32c body)

/-- Cut bytes into chunks of 240, at most `fuel` of them. -/
def chunk240 : Nat → List Byte → List (List Byte)
  | 0, _ => []
  | n + 1, b => if b = [] then [] else b.take 240 :: chunk240 n (b.drop 240)

/-- The DATA flits of a packet before they have a sequence number; the byte 252 of the first holds 1
where the packet enters a ring (R366) until the flit is sent. -/
def pktFlits (vl : Nat) (enters : Bool) (p : Pkt) : List (List Byte) :=
  let cs := chunk240 19 p.bytes
  cs.zipIdx.map fun e =>
    let h : FlitHdr := { type := 1, vl := vl, first := e.2 == 0, last := e.2 + 1 == cs.length, rpl := false, ackV := false,
                         seq := 0, ack := 0, craVl := 0, craCnt := 0, crbVl := 0, crbCnt := 0, len := e.1.length }
    h.bytes ++ e.1 ++ List.replicate (240 - e.1.length) 0
      ++ [if enters && e.2 == 0 then 1 else 0, 0, 0, 0]

/-- Flits of the packet at the head of a lane, when all of them are there. -/
def headFlits (fs : List (List Byte)) : List (List Byte) :=
  match fs.findIdx? fun f => (flitHdr f).last with
  | some i => fs.take (i + 1)
  | none => []

/-- The packet that flits carry. -/
def flitsPkt (fs : List (List Byte)) : Pkt :=
  Pkt.ofBytes (fs.flatMap fun f => (f.drop 12).take (flitHdr f).len)

/-- The whole packets among the flits of a lane. -/
def waitingPkts : Nat → List (List Byte) → List Pkt
  | 0, _ => []
  | n + 1, fs =>
    let r := fs.dropWhile fun f => !(flitHdr f).first
    let h := headFlits r
    if h = [] then [] else flitsPkt h :: waitingPkts n (r.drop h.length)

/-- 1 + TID of a request of this device; 0 for any other packet. -/
def ownTid (s : State) (p : Pkt) : Nat := if p.src = s.net.id ∧ !p.isResp ∧ p.op ≠ 8 then p.tid.toNat + 1 else 0

/-- The requests of this device that stand, whole or in part, in a transmit queue of a port: they have not left it (R252). -/
def unsent (s : State) : List Nat :=
  ((List.range 6).flatMap fun k =>
    (s.getPort k).txTid.map (·.2) ++ (s.getPort k).txq.flatMap fun e => (waitingPkts e.2.length e.2).map (ownTid s)).filterMap fun n =>
      if n = 0 then none else some (n - 1)

/-! ### Routing (R364 to R367) -/

/-- Coordinate of dimension `d` (0 X, 1 Y, 2 Z) of a device id (R38). -/
def coord (id : Nat) (d : Nat) : Nat :=
  if d = 0 then bits id 15 11 else if d = 1 then bits id 10 6 else bits id 5 0

/-- Size of dimension `d` (Table 12.13). -/
def dimSize (s : State) (d : Nat) : Nat :=
  if d = 0 then s.net.dx.toNat + 1 else if d = 1 then s.net.dy.toNat + 1 else s.net.dz.toNat + 1

/-- A port is broken for routing: fused off, OFF, FAILED or MISWIRED (R358, R367). -/
def portBroken (s : State) (k : Nat) : Bool :=
  let x := s.getPort k
  !portPresent s k || decide (x.st = .off) || decide (x.st = .failed) || x.miswired

/-- The link between coordinates `c` and `c + 1` of dimension `d` is recorded broken (Table 12.14). -/
def linkBroken (s : State) (d c : Nat) : Bool :=
  let r := Tbl.get {} s.net.rings d
  (r.v0 && r.b0.toNat == c) || (r.v1 && r.b1.toNat == c)

/-- Links crossed from coordinate `own`: `n` hops in the + direction, or in the − direction. -/
def pathLinks (plus : Bool) (dd own n : Nat) : List Nat :=
  (List.range n).map fun i => if plus then (own + i) % dd else (own + dd - 1 - i) % dd

/-- Where a packet goes from this device. -/
inductive Route where
  | here
  | port (k : Nat) (enters : Bool)
  | noRoute
deriving DecidableEq, Repr

/-- Next port of a packet to device `dst` that came in on `inp` (R364, R367). -/
def route (s : State) (inp : Option Nat) (dst : Nat) : Route :=
  let own := s.net.id.toNat
  if dst = own then .here
  else
    match (List.range 3).find? fun d => coord dst d != coord own d with
    | none => .here
    | some d =>
      let dd := dimSize s d
      let t := coord dst d
      let o := coord own d
      if dd ≤ t then .noRoute
      else
        let go (k : Nat) (e : Bool) : Route := if portBroken s k then .noRoute else .port k e
        match inp with
        | some i =>
          if i / 2 = d then go (2 * d + (1 - i % 2)) false
          else
            let f := (t + dd - o) % dd
            let plus := decide (f < dd - f) || (decide (f = dd - f) && decide (o % 2 = 0))
            let bad (b : Bool) := (pathLinks b dd o (if b then f else dd - f)).any (linkBroken s d)
            if !bad plus then go (2 * d + b2n (!plus)) true
            else if !bad (!plus) then go (2 * d + b2n plus) true
            else .noRoute
        | none =>
          let f := (t + dd - o) % dd
          let plus := decide (f < dd - f) || (decide (f = dd - f) && decide (o % 2 = 0))
          let bad (b : Bool) := (pathLinks b dd o (if b then f else dd - f)).any (linkBroken s d)
          if !bad plus then go (2 * d + b2n (!plus)) true
          else if !bad (!plus) then go (2 * d + b2n plus) true
          else .noRoute

/-- The hop from this device out of port `k` crosses the dateline of its dimension (R365). -/
def crossesDateline (s : State) (k : Nat) : Bool :=
  let d := k / 2
  let o := coord s.net.id.toNat d
  if k % 2 = 0 then o + 1 == dimSize s d else o == 0

/-- Virtual lane on which a packet starts a dimension (R362, R365). -/
def baseVl (p : Pkt) : Nat :=
  if p.isResp then 2 else if p.op = 0x08 then 5 else if p.rt then 4 else 0

/-- Virtual lane of the hop out of port `k` (R365); `cur` is the lane it came on in this dimension. -/
def hopVl (s : State) (p : Pkt) (k : Nat) (cur : Option Nat) : Nat :=
  let b := baseVl p
  if 4 ≤ b then b
  else if crossesDateline s k then b + 1
  else cur.getD b

/-! ### Targets of this device (Tables 1.5, 12.3) -/

/-- Partition that holds object `o`. -/
def synPart (o : Nat) : Nat := o / 1024

/-- Owning partition. -/
def queOwner (s : State) (q : Nat) : Nat := (s.getQue q).owner.toNat

/-- The regions of Table 1.5 that serve accesses. -/
inductive Region where
  | memory | queue (q off : Nat) | sync (o off : Nat) | regs | reserved
deriving DecidableEq, Repr

/-- The region of a local address (Table 1.5). -/
def regionOf (pa : Nat) : Region :=
  if pa < marlBytes then .memory
  else if pa < 0x40_0000_0000 then .reserved
  else if pa < 0x41_8000_0000 then .memory
  else if pa < 0x60_0000_0000 then .reserved
  else if pa < 0x60_1000_0000 then .regs
  else if pa < 0x70_0000_0000 then .reserved
  else if pa < 0x70_0020_0000 then .queue ((pa - 0x70_0000_0000) / 4096) (pa % 4096)
  else if pa < 0x71_0000_0000 then .reserved
  else if pa < 0x71_0004_0000 then .sync ((pa - 0x71_0000_0000) / 64) (pa % 64)
  else .reserved

/-- Delivery tower of a local target (Table 12.3); none where nothing serves the address. -/
def targetTower (s : State) (pa : Nat) : Option Nat :=
  match regionOf pa with
  | .memory =>
    if pa < marlBytes then some (marlStack pa)
    else (scratchOf s pa).map fun r => r.1 / 24
  | .queue q _ => some (queOwner s q)
  | .sync o _ => some (synPart o)
  | .regs => some 2
  | .reserved => none

/-! ### Between the towers (R23, R29, R368) -/

/-- The tower across the seam link of its row: 0–1 and 2–3. -/
def rowMate (t : Nat) : Nat := if t % 2 = 0 then t + 1 else t - 1

/-- The seam links that a packet crosses from tower `a` to tower `b`, in order: none, the one between neighbours, or the one
of the row and then the one of the column, through the transit domain of the tower between them (R23, R368). -/
def seamPath (a b : Nat) : List (Nat × Nat) :=
  if a = b then [] else if (a + 2) % 4 = b then [(a, rowMate a), (rowMate a, b)] else [(a, b)]

/-- Direction of a seam link: 2 i from tower `i` to the next one, 2 i + 1 back (links 0–1, 1–2, 2–3, 3–0). -/
def seamIx (h : Nat × Nat) : Nat := if (h.1 + 1) % 4 = h.2 then 2 * h.1 else 2 * h.2 + 1

/-- Share of class `c` at a seam link, in 1/10 byte per ns (R284). -/
def seamShare (s : State) (link c : Nat) : Nat :=
  ((List.range 4).map fun p => (Tbl.get {} s.svc.classes (16 * p + c)).seamMin.getD link 0).sum

/-- Inputs of a seam link and of a transit router: the six ports, and the base mesh of the tower (DESIGN CHOICE, log 84: the spec
numbers no input). -/
def routerInputs : Nat := 7

/-- Seam direction `k` serves one of the requests `cs` (R284 to R286). -/
def seamServe (k : Nat) (cs : List Cand) (s : State) : Option (Cand × State) :=
  (arbServe (seamShare s (k / 2)) 10 routerInputs s.skt.time (fun i => (Tbl.get {} s.svc.classes i).seamW)
    (Tbl.get {} s.seams k) cs).map fun r =>
      (r.1, countSurplus (if k % 2 = 0 then k / 2 else (k / 2 + 1) % 4) r.1.cls r.2.1 { s with seams := Tbl.put {} s.seams k r.2.2 })

/-- The transit router of tower `t` serves one of the requests `cs`; it has no class minimum (R284). -/
def routerServe (t : Nat) (cs : List Cand) (s : State) : Option (Cand × State) :=
  (arbServe (fun _ => 0) 1 routerInputs s.skt.time (fun _ => 1) (Tbl.get {} s.routers t) cs).map fun r =>
    (r.1, { s with routers := Tbl.put {} s.routers t r.2.2 })

/-- The hops after the first: the transit router of the tower between serves the bytes, then its seam direction (R23, R284 to
R286). A transit domain runs through the reset of its tower's partition (R29). -/
def crossRest (hs : List (Nat × Nat)) (lab : Label) (bytes : Nat) (s : State) : State :=
  forL (hs.drop 1) (fun h s =>
    let s1 := ((routerServe h.1 [lab.cand 6 bytes] s).map (·.2)).getD s
    ((seamServe (seamIx h) [lab.cand 6 bytes] s1).map (·.2)).getD s1) s

/-- `bytes` bytes of label `lab` move from tower `a` to tower `b`: every seam direction on the way serves them. -/
def crossBytes (a b : Nat) (lab : Label) (bytes : Nat) (s : State) : State :=
  let hs := seamPath a b
  crossRest hs lab bytes (match hs.head? with
    | none => s
    | some h => ((seamServe (seamIx h) [lab.cand 6 bytes] s).map (·.2)).getD s)

/-- A packet of this device's own crosses from tower `a` to tower `b`. -/
def crossSeams (a b : Nat) (p : Pkt) (s : State) : State := crossBytes a b p.label p.bytes.length s

/-- Port on which a collective packet arrives: across from the one that AUX names, + from − (Table 12.2, R357). -/
def collPort (q : Pkt) : Nat := let k := bits q.aux.toNat 35 32 % 6; if k % 2 = 0 then k + 1 else k - 1

/-- Tower that answers a request: the one it was delivered at (Table 12.3); a collective packet goes to the engine of its port,
in the transit domain of the port's tower. -/
def replyTower (s : State) (q : Pkt) : Nat :=
  if q.op = 8 then 2 else if q.op = 7 then portTower (collPort q) else (targetTower s q.addr.toNat).getD 2

/-- Tower at which a packet to this device is delivered: a response goes to the requester's endpoint (Tables 12.1, 12.3). -/
def deliveryTower (s : State) (p : Pkt) : Nat := if p.isResp then p.tid.toNat / 0x4000 else replyTower s p

/-- Give a packet to port `k` on lane `vl`: its flits wait there. -/
def enqueuePkt (k vl : Nat) (enters : Bool) (p : Pkt) (s : State) : State :=
  send (.packet (some ⟨k % 6, Nat.mod_lt _ (by omega)⟩) vl p) (s.modPort k fun x => { x with
    txq := Tbl.mod [] x.txq vl (· ++ pktFlits vl enters p) })

/-- Deliver a packet to this device's own units. -/
def deliver (vl : Nat) (p : Pkt) (s : State) : State :=
  send (.packet none vl p) { s with net := { s.net with inbox := s.net.inbox ++ [(vl, p)] } }

/-- Send a packet that this device originates at tower `t`; the Bool says whether it found a route. A packet to this device
itself is served locally and goes onto no link (R38). -/
def sendFrom (t : Nat) (p : Pkt) (s : State) : State × Bool :=
  match route s none p.dst.toNat with
  | .here => (deliver (baseVl p) p (crossSeams t (deliveryTower s p) p s), true)
  | .noRoute => (s, false)
  | .port k e => (enqueuePkt k (hopVl s p k none) e p (crossSeams t (portTower k) p s), true)

/-- Send a packet of the Skotrum domain, in tower 2 (Table 12.3). -/
def sendPkt (p : Pkt) (s : State) : State × Bool := sendFrom 2 p s

/-! ### Responses (R360) -/

/-- The response to request `q`: DST names the requester, TID is copied (R360). -/
def respPkt (q : Pkt) (op status : Byte) (payload : List Byte) : Pkt :=
  { op := op, flags := BitVec.ofNat 8 (q.flags.toNat % 32), dl := q.dl, dst := q.src, src := q.dst, tid := q.tid,
    status := status, arg := 0, addr := 0, aux := 0, payload := payload }

/-- Send the response to a request. -/
def respond (q : Pkt) (op status : Byte) (payload : List Byte) (s : State) : State :=
  (sendFrom (replyTower s q) (respPkt q op status payload) s).1

/-- Answer ACK. -/
def respAck (q : Pkt) (s : State) : State := respond q 0x81 0 [] s
/-- Answer DATA. -/
def respData (q : Pkt) (b : List Byte) (s : State) : State := respond q 0x82 0 b s
/-- Answer NACK with a status of Table 12.5. -/
def respNack (q : Pkt) (st : Nat) (s : State) : State := respond q 0x83 (BitVec.ofNat 8 st) [] s

/-! ### Response records (R371) -/

/-- 60 ms, the least time a record is kept. -/
def recordNs : Nat := 60000000

/-- Records of tower `t` still within 60 ms. -/
def liveRecords (s : State) (t : Nat) : List RespRec :=
  (Tbl.get [] s.net.recs t).filter fun r => now s - r.at_.toNat ≤ recordNs

/-- The store of tower `t` has a free entry. -/
def recordRoom (s : State) (t : Nat) : Bool := decide ((liveRecords s t).length < 8192)

/-- The record of request `q` at tower `t`. -/
def findRecord (s : State) (t : Nat) (q : Pkt) : Option RespRec :=
  (Tbl.get [] s.net.recs t).find? fun r => r.src = q.src ∧ r.tid = q.tid

/-- Send a response and keep it on record at tower `t`, in place of an older record of the request. -/
def respondRec (t : Nat) (q r : Pkt) (s : State) : State :=
  let l := (liveRecords s t).filter fun x => ¬(x.src = q.src ∧ x.tid = q.tid)
  let s1 := { s with net := { s.net with
    recs := Tbl.put [] s.net.recs t ({ src := q.src, tid := q.tid, resp := r, at_ := s.skt.time } :: l) } }
  (sendFrom t r s1).1

/-! ### The transport endpoint (R372) -/

/-- Entries of an endpoint. -/
def tidCount : Nat := 4096

/-- What became of a request given to the endpoint. -/
inductive Issue where
  | held                          -- no TID entry free: the agent is held (R372)
  | noRoute                       -- NACK NO_ROUTE from this device
  | sent (s : State) (tid : Nat)  -- the request is out under this entry

/-- The lowest free entry of tower `t`'s endpoint. -/
def freeTid (s : State) (t : Nat) : Option Nat :=
  let es := Tbl.get [] s.net.tids t
  -- entries rise by number, so the first gap is the lowest free one
  let n := es.foldl (fun n e => if e.1 = n then n + 1 else n) 0
  if n < tidCount then some n else none

/-- Generation under which an agent's requests go out (R427). -/
def agentGen (s : State) (who : Agent) : BitVec 2 :=
  match who with
  | .group site _ => (s.getSite site.val).gen
  | .array a => (s.getSite (a.val / 2)).gen
  | .dma ch => (s.getSite (ch.val / 4)).gen
  | .pc p => (s.getPart p.val).gen
  | _ => 0

/-- Issue a request of agent `who` through the endpoint of tower `t` (R372); one to this device itself is delivered here
(R38). -/
def issueRequest (t : Nat) (who : Agent) (p : Pkt) (s : State) : Issue :=
  match freeTid s t with
  | none => .held
  | some n =>
    let q := { p with src := s.net.id, tid := BitVec.ofNat 16 (t * 0x4000 + n), status := 0 }
    let ent : TidEnt := { pkt := q, who := who, first := s.skt.time, last := s.skt.time, wait := 0, until_ := 0,
                          gen := agentGen s who, port := none, dead := none }
    let keep (e : TidEnt) (s : State) : State :=
      { s with net := { s.net with tids := Tbl.put [] s.net.tids t (Tbl.ins n e (Tbl.get [] s.net.tids t)) } }
    match route s none q.dst.toNat with
    | .here => .sent (keep ent (deliver (baseVl q) q (crossSeams t (deliveryTower s q) q s))) n
    | .noRoute => .noRoute
    | .port k e =>
      .sent (keep { ent with port := some ⟨k % 6, Nat.mod_lt _ (by omega)⟩ }
        (enqueuePkt k (hopVl s q k none) e q (crossSeams t (portTower k) q s))) n

/-- Requests of one instruction to other devices. -/
inductive IssueAll where
  | held                            -- no entry is free for one of them: the group is held (R372)
  | sent (s : State) (tids : List (Nat × Nat)) (bad : List Nat) -- lane and TID; lanes without a route
deriving DecidableEq, Repr

/-- Issue one request per entry, in order; all or none wait for entries (R372). -/
def issueAll (t : Nat) (who : Agent) : List (Nat × Pkt) → State → IssueAll
  | [], s => .sent s [] []
  | (lane, p) :: r, s =>
    match issueRequest t who p s with
    | .held => .held
    | .noRoute =>
      match issueAll t who r s with
      | .held => .held
      | .sent s2 l bad => .sent s2 l (lane :: bad)
    | .sent s1 n =>
      match issueAll t who r s1 with
      | .held => .held
      | .sent s2 l bad => .sent s2 ((lane, n) :: l) bad

/-- Send a management packet of this device under an entry of tower 2's endpoint: across port `k` to the peer (NBR), or routed by
DST (R386). It never gives up: a BUSY makes it wait and go again while its port stays in service (R374). No answer tells that it
was taken, so its entry is free again after 2 ms without a BUSY (DESIGN CHOICE, log 87). With no entry free it is held (R372). -/
def issueMgmt (port : Option Nat) (p : Pkt) (s : State) : State :=
  match freeTid s 2 with
  | none => { s with net := { s.net with mgmtHeld := s.net.mgmtHeld ++ [(port, p)] } }
  | some n =>
    let q := { p with tid := BitVec.ofNat 16 (0x8000 + n) }
    let keep (k : Option Nat) (s : State) : State :=
      let e : TidEnt := { pkt := q, who := .mgmt, first := s.skt.time, last := s.skt.time, wait := 0, until_ := 0, gen := 0
                          port := k.map fun k => ⟨k % 6, Nat.mod_lt _ (by omega)⟩, dead := none }
      { s with net := { s.net with tids := Tbl.put [] s.net.tids 2 (Tbl.ins n e (Tbl.get [] s.net.tids 2)) } }
    match port with
    | some k => keep (some k) (enqueuePkt k 5 true q (crossSeams 2 (portTower k) q s))
    | none =>
      match route s none q.dst.toNat with
      | .here => keep none (deliver 5 q s)
      | .noRoute => s
      | .port k e => keep (some k) (enqueuePkt k 5 e q (crossSeams 2 (portTower k) q s))

/-- The requests of agent `who` that satisfy `p`, at tower `t`'s endpoint, are those of an aborted task: they are not sent
again, and their answers are dropped (R271, R275). -/
def killRequests (t : Nat) (who : Agent) (p : Nat → Bool) (task : Option TaskRef) (s : State) : State :=
  { s with net := { s.net with tids := Tbl.mod [] s.net.tids t (fun l =>
      l.map fun e => if e.2.who = who ∧ e.2.dead.isNone ∧ p e.1 then (e.1, { e.2 with dead := task }) else e) } }

/-- A request of an ended pass or descriptor of the task that has yet to be answered (R271). -/
def deadRequest (s : State) (r : TaskRef) : Bool :=
  s.net.tids.any fun l => l.2.any fun e => decide (e.2.dead = some r) && e.2.gen == agentGen s e.2.who

/-- The tower of an agent, whose endpoint issues its requests (R372). -/
def agentTower (who : Agent) : Nat :=
  match who with
  | .group site _ => site.val / 24
  | .array a => a.val / 48
  | .dma ch => ch.val / 96
  | .pc p => p.val
  | .coll k => portTower k.val
  | .notice q => q.val / 128
  | _ => 2

end Sys2Proof.Machine
end

