-- ==== Sys2Proof/Machine/GroupBase.lean ====
section
/-! DEFINITION. A thread group's registers, predicates, lanes, program counter with its reconvergence
stack, holds and exceptions (R138 to R140, R150 to R152, R168, R174 to R177). -/

namespace Sys2Proof.Machine
open Sys2Proof

/-- Index of a group slot. -/
def gIx (site slot : Nat) : Nat := 24 * site + slot

/-! ### Registers and predicates (R139) -/

/-- Register `v` of lane `l`. -/
def getReg (g : Group) (v l : Nat) : W32 := Tbl.get 0 g.reg (32 * v + l)

/-- What the replies awaited would still write to register `v` of lane `l` is dropped: a later instruction writes it (R141). -/
def dropWrite (v l : Nat) (ls : List LoadPend) : List LoadPend :=
  ls.map fun p => { p with writes := p.writes.filter fun e => !decide (e.1 = v ∧ e.2.1 = l) }

/-- Write register `v` of lane `l`, in program order with the loads whose replies are awaited. -/
def setReg (g : Group) (v l : Nat) (x : W32) : Group :=
  { g with reg := Tbl.put 0 g.reg (32 * v + l) x, loads := dropWrite v l g.loads }

/-- The 64-bit value of the register pair `v`, `v + 1` of lane `l`. -/
def getPair (g : Group) (v l : Nat) : Nat := (getReg g v l).toNat + (getReg g (v + 1) l).toNat * 2 ^ 32

/-- Write a register pair of lane `l`. -/
def setPair (g : Group) (v l : Nat) (x : Nat) : Group :=
  setReg (setReg g v l (BitVec.ofNat 32 x)) (v + 1) l (BitVec.ofNat 32 (x / 2 ^ 32))

/-- Lane mask of predicate `p`; p15 is true in every lane. -/
def getPred (g : Group) (p : Nat) : W32 := if p = 15 then BitVec.allOnes 32 else Tbl.get 0 g.pred p

/-- Write predicate `p` in the lanes `m` from the mask `v`; writes to p15 are ignored. -/
def setPred (g : Group) (p : Nat) (m v : W32) : Group :=
  if p = 15 then g else { g with pred := Tbl.put 0 g.pred p ((getPred g p &&& ~~~m) ||| (v &&& m)) }

/-- Lanes of a mask, ascending. -/
def lanesOf (m : W32) : List Nat := (List.range 32).filter fun l => getBit m l

/-- Write register `v` in the lanes of `m` from a function of the lane. -/
def setRegs (g : Group) (v : Nat) (m : W32) (f : Nat → W32) : Group :=
  (lanesOf m).foldl (fun g l => setReg g v l (f l)) g

/-- Write a register pair in the lanes of `m`. -/
def setPairs (g : Group) (v : Nat) (m : W32) (f : Nat → Nat) : Group :=
  (lanesOf m).foldl (fun g l => setPair g v l (f l)) g

/-! ### Instruction fields (Table 5.6) -/

/-- Bits `hi` to `lo` of an instruction word. -/
def ib (w : W64) (hi lo : Nat) : Nat := bits w.toNat hi lo
def iOpc (w : W64) : Nat := ib w 7 0
def iDst (w : W64) : Nat := ib w 15 8
def iSa (w : W64) : Nat := ib w 23 16
def iSb (w : W64) : Nat := ib w 31 24
def iSc (w : W64) : Nat := ib w 39 32
def iPg (w : W64) : Nat := ib w 43 40
def iPgn (w : W64) : Bool := bit w.toNat 44

/-- Active lanes of an instruction: the execution mask under the guard (R140). -/
def actLanes (g : Group) (w : W64) : W32 :=
  g.exec &&& (if iPgn w then ~~~(getPred g (iPg w)) else getPred g (iPg w))

/-- The group stands ready with instruction `w` issued. -/
def runs (s : State) (site slot : Nat) (w : W64) : Bool :=
  let g := s.getGrp (gIx site slot)
  decide (g.mode = .ready) && decide (g.issued = some w)

/-- Registers `rs` lie below the group's allocation (R139). -/
def regsOk (g : Group) (rs : List Nat) : Bool := rs.all fun r => decide (r < 8 * g.regs)

/-! ### Program counter and reconvergence (R150, R152) -/

/-- The running lanes are done at the top entry's reconvergence point: run the next waiting path, or pop
and continue with the union of the lanes that have not exited. -/
def unwind : Nat → Group → Group
  | 0, g => g
  | n + 1, g =>
    match g.stack with
    | [] => g
    | e :: r =>
      let again (x : Group) : Group :=
        if x.exec = 0 then unwind n x
        else match x.stack with
          | a :: _ => if a.reconv = x.pc ∧ a.st ≠ 2 then unwind n x else x
          | [] => x
      if e.st = 0 then
        again { g with stack := { e with st := 1 } :: r, pc := e.pc, exec := e.mask &&& ~~~g.exited }
      else if e.st = 1 then
        match r with
        | [] => { g with stack := [], pc := e.reconv, exec := e.join &&& ~~~g.exited }
        | f :: r' =>
          if f.st = 2 then again { g with stack := r', pc := f.reconv, exec := f.join &&& ~~~g.exited }
          else if f.st = 0 ∧ f.reconv = e.reconv ∧ f.join = e.join then
            again { g with stack := { f with st := 1 } :: r', pc := f.pc, exec := f.mask &&& ~~~g.exited }
          else again { g with stack := r, pc := e.reconv, exec := e.join &&& ~~~g.exited }
      else again { g with stack := r }

/-- Continue at `pc`; where it is the current path's reconvergence point, the next path runs (R150). -/
def goTo (pc : BitVec 48) (g : Group) : Group :=
  let x := { g with pc := pc, issued := none, heldFor := 0, retryFrom := none, stall := false }
  match x.stack with
  | e :: _ => if e.reconv = pc ∧ e.st ≠ 2 then unwind (2 * x.stack.length + 2) x else x
  | [] => x

/-- Continue with the next word. -/
def advance (g : Group) : Group := goTo (g.pc + 8) g

/-- The group's instruction is done: `f` on the group, then the next word. -/
def finish (i : Nat) (f : Group → Group) (s : State) : State := s.modGrp i fun g => advance (f g)

/-! ### Holds, acquire and release (R49, R168) -/

/-- Hold a group (R49); its instruction stays issued. -/
def holdGroup (i : Nat) (h : Hold) (s : State) : State :=
  s.modGrp i fun g => { g with mode := .held, hold := h, heldFor := if g.mode = .held then g.heldFor else 0 }

/-- The instruction waits at its unit for something outside the pipeline, and is tried again (R49). -/
def stallGroup (i : Nat) (s : State) : State := s.modGrp i fun g => { g with stall := true }

/-- A held pipeline stage stands behind the group (R49): a hold, replies that its instruction or its next one needs, an
endpoint entry, or a target that resets. -/
def waits (g : Group) : Bool :=
  decide (g.mode = .held) || (decide (g.mode = .ready) && (g.stall || g.retryFrom.isSome || g.loads.any (·.open_)))

/-- End a hold. -/
def unhold (g : Group) : Group :=
  { g with mode := if g.mode = .held then .ready else g.mode, hold := .none, heldFor := 0 }

/-- The instruction meets "target resetting": it waits and tries again, and takes the error once ABF_RETRY_LIMIT has passed
(R429); `run` is what it does then, or where no target is resetting. -/
def retryOr (i : Nat) (resetting : Bool) (run : State → State) (s : State) : State :=
  if !resetting then run s
  else
    match (s.getGrp i).retryFrom with
    | none => s.modGrp i fun g => { g with retryFrom := some s.skt.time }
    | some t => if s.net.limit.toNat * 1000000 ≤ now s - t.toNat then run s else s

/-- First error of a store, kept until it is reported (R176). -/
def noteStoreErr (i : Nat) (va : BitVec 48) (s : State) : State :=
  s.modGrp i fun g => { g with storeErr := match g.storeErr with | none => some va | x => x }

/-- Context address in the pair SB:SB + 1 of a lane. -/
def winAddr (g : Group) (w : W64) (lane : Nat) : BitVec 48 := BitVec.ofNat 48 (getPair g (iSb w) lane)

/-- An acquire at partition scope or wider invalidates the core's L1 context-space lines (R168). -/
def acquire (site scope : Nat) (s : State) : State :=
  if 2 ≤ scope then s.modSite site fun x => { x with l1 := [] } else s

/-- A release at a scope may take effect: every earlier access has been performed for the scope's agents
(R168, R375). -/
def released (g : Group) (scope : Nat) : Bool :=
  if scope ≤ 1 then true
  else decide (g.stores = 0) && g.loads.isEmpty && (decide (scope < 4) || decide (g.remote = 0))

/-! ### Exceptions (R174 to R177) -/

/-- A fault message to the controller of the task's partition (R177, R276). -/
def faultMessage (t : Option TaskRef) (reason exc : Nat) (s : State) : State :=
  match t with
  | none => s
  | some t => s.modPart t.p.val fun x => { x with faultMsgs := x.faultMsgs ++ [{ task := t, reason := reason, exc := exc }] }

/-- Raise exception `code` on a group: it halts and the controller gets a fault message. A halted group keeps its active slot
(DESIGN CHOICE, log 83). -/
def groupHalt (i code lane : Nat) (addr : Nat) (s : State) : State :=
  let g := s.getGrp i
  faultMessage g.task 1 code (s.modGrp i fun g => { g with
    mode := .halted, hold := .none, issued := none, retryFrom := none
    exc := BitVec.ofNat 8 code, excLane := BitVec.ofNat 8 lane, excAddr := BitVec.ofNat 48 addr })

/-- Park a group on XLT_FAULT at its instruction (R177). It keeps its active slot (DESIGN CHOICE, log 83: R144 names held
groups only). -/
def groupPark (i lane : Nat) (addr : Nat) (s : State) : State :=
  s.modGrp i fun g => { g with
    mode := .parked, hold := .none, issued := none, retryFrom := none
    exc := 7, excLane := BitVec.ofNat 8 lane, excAddr := BitVec.ofNat 48 addr }

/-- The lowest lane of a mask. -/
def lowLane (m : W32) : Nat := (lanesOf m).headD 0

/-- Lane that an exception reports: the lowest active lane, 0xFF where there is none (R175, Table 5.18). -/
def excLaneOf (m : W32) : Nat := if m = 0 then 0xFF else lowLane m

/-- Report an earlier store's error at instruction `w`, in place of it: the lane is its lowest active one (R175), the
address that of the store (R176). -/
def storeHalt (i : Nat) (w : W64) (addr : BitVec 48) (s : State) : State :=
  groupHalt i 9 (excLaneOf (actLanes (s.getGrp i) w)) addr.toNat (s.modGrp i fun g => { g with storeErr := none })

/-- After an acknowledge or a reply: a FENCE whose conditions now hold is done, or reports the error that came with them
(R176), and an instruction that waits for its release may run (R168). -/
def tryRelease (site slot : Nat) (s : State) : State :=
  let i := gIx site slot
  let g := s.getGrp i
  match g.hold with
  | .fence acq scope =>
    if g.mode = .held ∧ released g scope then
      match g.storeErr with
      | some a => storeHalt i (g.issued.getD 0) a s
      | none => (if acq then acquire site scope s else s).modGrp i fun g => advance (unhold g)
    else s
  | .release scope => if g.mode = .held ∧ released g scope then s.modGrp i unhold else s
  | _ => s

/-- An instruction that performs a release first reports an earlier store's error (R176), then waits until
the release can take effect (R168), then runs. -/
def withRelease (site slot scope : Nat) (run : State → State) (s : State) : State :=
  let i := gIx site slot
  let g := s.getGrp i
  match g.storeErr with
  | some a => storeHalt i (g.issued.getD 0) a s
  | none => if released g scope then run s else holdGroup i (.release scope) s

end Sys2Proof.Machine
end

