-- ==== Sys2Proof/Machine/Queues.lean ====
section
/-! DEFINITION. Message queues and sync objects: open packets, commits and their notices, takes, the
operations of a sync object with its waiters and its log, and the commands on both (chapter 10; R429,
R443, R483, R484). -/

namespace Sys2Proof.Machine
open Sys2Proof

/-! ### Errors back to a requester (R218, R482) -/

/-- Local address of queue window `q` (Table 1.5). -/
def queueAddr (q off : Nat) : Nat := 0x70_0000_0000 + 0x1000 * q + off

/-- Local address of sync-object window `o` (Table 1.5). -/
def syncAddr (o off : Nat) : Nat := 0x71_0000_0000 + 64 * o + off

/-- A bus error to the agent: counted and recorded for the host (R482), an error response to a remote
device, an error answer to a local agent. -/
def errorTo (who : Agent) (addr : Nat) (s : State) : State :=
  match who with
  | .host => hostBusError addr s
  | .remote src _ tid =>
    (sendPkt { op := 0x83, flags := 0, dl := 0, dst := src, src := s.net.id, tid := tid, status := 0x10, arg := 0,
               addr := 0, aux := 0, payload := [] } s).1
  | w => send (.busError w) s

/-- A retryable negative acknowledge to a remote device (Table 12.5). -/
def nackTo (who : Agent) (st : Nat) (s : State) : State :=
  match who with
  | .remote src _ tid =>
    (sendPkt { op := 0x83, flags := 0, dl := 0, dst := src, src := s.net.id, tid := tid, status := BitVec.ofNat 8 st,
               arg := 0, addr := 0, aux := 0, payload := [] } s).1
  | _ => s

/-- ABF_RETRY_LIMIT in ns (R374, R429). -/
def retryLimitNs (s : State) : Nat := s.net.limit.toNat * 1000000

/-! ### Sync objects (R316 to R321) -/

/-- Storage that serves window `o`: its own, or the spare slot that replaces it (R37, R443). -/
def synStore (s : State) (o : Nat) : Option Nat :=
  if !(s.getSyn o).failed then some o
  else
    ((List.range 32).map fun k => 4096 + 32 * synPart o + k).find? fun i =>
      decide ((s.getSyn i).replacing = some (BitVec.ofNat 12 o)) && !(s.getSyn i).failed

/-- SOURCE code of an agent (Table 10.11). -/
def synSource : Agent → Nat
  | .host => 0
  | .mgmt => 1
  | .pc p => 2 + p.val
  | .group _ _ => 8
  | .array _ => 9
  | .dma _ => 10
  | .remote _ _ _ => 11
  | .notice _ => 12
  | .coll _ => 13

/-- The payload of a sync reply (Table 12.2). -/
def syncBytes (counter : W64) (sat own : W32) : List Byte :=
  leBytes 8 counter.toNat ++ leBytes 4 sat.toNat ++ leBytes 4 own.toNat

/-- A group's sync reply arrives: the counter to DST, the satisfying ticket to DST + 2, its own ticket to
DST + 3 (Table 10.5), then the acquire (R323), and the group goes on. -/
def groupWaitEnd (site slot : Nat) (counter : W64) (sat own : W32) (met : Bool) (s : State) : State :=
  let i := gIx site slot
  match (s.getGrp i).hold with
  | .wait _ dst pd scope m =>
    let s1 := s.modGrp i fun g =>
      let g1 := setPairs g dst m fun _ => counter.toNat
      let g2 := setRegs g1 (dst + 2) m fun _ => sat
      let g3 := setRegs g2 (dst + 3) m fun _ => own
      advance (unhold (setPred g3 pd m (if met then BitVec.allOnes 32 else 0)))
    acquire site scope s1
  | _ => s

/-- Answer a waiter: a fabric wait through its response record, a group at its instruction, any other
agent with the ticket. -/
def answerWait (o : Nat) (w : Waiter) (counter : W64) (sat : W32) (met : Bool) (s : State) : State :=
  match w.pkt with
  | some q => respondRec (synPart o) q (respPkt q 0x82 0 (syncBytes counter sat w.ticket)) s
  | none =>
    match w.who with
    | .group site slot =>
      match (s.getGrp (gIx site.val slot.val)).hold with
      | .wait h _ _ _ _ =>
        if h.val = o then groupWaitEnd site.val slot.val counter sat w.ticket met s
        else send (.ticket w.who counter sat w.ticket) s
      | _ => send (.ticket w.who counter sat w.ticket) s
    | a => send (.ticket a counter sat w.ticket) s

/-- A fired host waiter (R484). -/
def synFire (o : Nat) (s : State) : State :=
  let h := s.hst
  raiseEvent 9 { s with hst :=
    if h.synFired.length < 256 then { h with synFired := h.synFired ++ [BitVec.ofNat 13 o] }
    else { h with synOver := true } }

/-- Release every satisfied waiter of the storage `ix` that serves object `o`, hardware entries before
overflow entries, each in order of arrival; then the host waiter (R317, R318, R320). -/
def releaseWaiters (ix o : Nat) (sat : W32) (s : State) : State :=
  let x := s.getSyn ix
  let met (w : Waiter) : Bool := decide (w.threshold.toNat ≤ x.counter.toNat)
  let out := x.waiters.filter met
  let s1 := s.modSyn ix fun y => { y with waiters := y.waiters.filter fun w => !met w }
  let s2 := forL (out.filter (·.hw) ++ out.filter fun w => !w.hw) (fun w s => answerWait o w x.counter sat true s) s1
  match x.armed with
  | some th =>
    if th.toNat ≤ x.counter.toNat then synFire o (s2.modSyn ix fun y => { y with armed := none }) else s2
  | none => s2

/-- What an operation on a sync object gives. -/
inductive SynRes where
  | done (s : State) (counter : W64) (ticket : W32)
  | bus
  | resetting
deriving DecidableEq, Repr

/-- Apply one operation: the counter changes by `f`, the operation takes the next ticket and is logged,
satisfied waiters are released (R316, R317). `op` is the log's code; `arm` places the host waiter. -/
def synApply (o src op : Nat) (f : W64 → W64) (arm : Option W64) (s : State) : SynRes :=
  if inReset s (synPart o) then .resetting
  else
    match synStore s o with
    | none => .bus
    | some ix =>
      let x := s.getSyn ix
      let e : SynLog := { op := BitVec.ofNat 2 op, source := BitVec.ofNat 6 src, ticket := BitVec.ofNat 24 x.ticket.toNat }
      let s1 := s.modSyn ix fun y => { y with
        counter := f y.counter, ticket := y.ticket + 1, log := (e :: y.log).take 4
        armed := if arm.isSome then arm else y.armed }
      .done (releaseWaiters ix o x.ticket s1) (f x.counter) x.ticket

/-- Signal by `v`. -/
def synSignal (o src : Nat) (v : W64) (s : State) : SynRes := synApply o src 0 (· + v) none s
/-- Test. -/
def synTest (o src : Nat) (s : State) : SynRes := synApply o src 2 id none s
/-- Reset. -/
def synReset (o src : Nat) (s : State) : SynRes := synApply o src 3 (fun _ => 0) none s
/-- Arm a host waiter. -/
def synArm (o src : Nat) (th : W64) (s : State) : SynRes := synApply o src 3 id (some th) s

/-- Overflow waiters of the device (R318). -/
def overflowCount (s : State) : Nat :=
  (s.syncs.map fun e => (e.2.waiters.filter fun w => !w.hw).length).sum

/-- What a wait gives on arrival. -/
inductive WaitRes where
  | released (s : State) (counter : W64) (ticket : W32)
  | waiting (s : State)
  | poolFull
  | bus
  | resetting
deriving DecidableEq, Repr

/-- A wait arrives (R316 to R318): satisfied at once with its own ticket, or entered as a waiter. -/
def synWait (o : Nat) (who : Agent) (th : W64) (us : Nat) (pkt : Option Pkt) (s : State) : WaitRes :=
  if inReset s (synPart o) then .resetting
  else
    match synStore s o with
    | none => .bus
    | some ix =>
      let x := s.getSyn ix
      if th.toNat ≤ x.counter.toNat then
        match synApply o (synSource who) 1 id none s with
        | .done s1 c t => .released s1 c t
        | .bus => .bus
        | .resetting => .resetting
      else
        let hw := decide ((x.waiters.filter (·.hw)).length < 16)
        if !hw && decide (65536 ≤ overflowCount s) then .poolFull
        else
          let w : Waiter := { who := who, threshold := th, ticket := x.ticket, hw := hw, pkt := pkt
                              until_ := if us = 0 then none else some (s.skt.time + BitVec.ofNat 64 (1000 * us)) }
          match synApply o (synSource who) 1 id none s with
          | .done s1 _ _ => .waiting (s1.modSyn ix fun y => { y with waiters := y.waiters ++ [w] })
          | .bus => .bus
          | .resetting => .resetting

/-! ### Waits that are held (R318, R319, R429) -/

/-- A local agent's wait is held before its object: the pool is full, or, from device time `since`, the partition in reset. A
remote device is answered instead. -/
def holdWait (who : Agent) (o : Nat) (th : W64) (us : Nat) (since : Option W64) (s : State) : State :=
  s.modPart (synPart o) fun x => { x with arrivals := x.arrivals ++ [{ who := who, obj := o, threshold := th, us := us, since := since }] }

/-- A held wait is presented again: it enters, or ends with a bus error once ABF_RETRY_LIMIT has passed (R429), or is held on. -/
def arriveAgain (h : HeldWait) (s : State) : State :=
  let hold (since : Option W64) : State := holdWait h.who h.obj h.threshold h.us since s
  match synWait h.obj h.who h.threshold h.us none s with
  | .released s1 c t => send (.ticket h.who c t t) s1
  | .waiting s1 => s1
  | .poolFull => hold none
  | .bus => errorTo h.who (syncAddr h.obj 0) s
  | .resetting => match h.since with
    | none => hold (some s.skt.time)
    | some t => if retryLimitNs s ≤ now s - t.toNat then errorTo h.who (syncAddr h.obj 0) s else hold h.since

/-- Every held wait of partition `p` is presented again, in order. -/
def arriveTick (p : Nat) (s : State) : State :=
  let l := (s.getPart p).arrivals
  if l.isEmpty then s else forL l arriveAgain (s.modPart p fun x => { x with arrivals := [] })

/-! ### The commands on sync objects -/

/-- What an agent other than a thread group meets when its operation cannot be applied: a bus error, or
"target resetting", which the host takes as a bus error (R482), a remote device as a NACK, and a local agent
retries (R429): it presents the operation again later. -/
def synRefused (who : Agent) (o off : Nat) (resetting : Bool) (s : State) : State :=
  if resetting then
    match who with
    | .host => hostBusError (syncAddr o off) s
    | w => nackTo w 1 s
  else errorTo who (syncAddr o off) s

/-- SYNC_SIGNAL (R316): a posted signal. -/
def execSyncSignal (who : Agent) (o : Syn) (val : W64) (s : State) : Host.Outcome State Fault Refusal :=
  match synSignal o.val (synSource who) val s with
  | .done s1 _ _ => ok s1
  | .bus => ok (synRefused who o.val 0x10 false s)
  | .resetting => ok (synRefused who o.val 0x10 true s)

/-- SYNC_WAIT (R316 to R318). -/
def execSyncWait (who : Agent) (o : Syn) (threshold : W64) (timeout : BitVec 12) (s : State) :
    Host.Outcome State Fault Refusal :=
  match synWait o.val who threshold timeout.toNat none s with
  | .released s1 c t => ok (send (.ticket who c t t) s1)
  | .waiting s1 => ok s1
  | .poolFull => ok (match who with
    | .remote _ _ _ => nackTo who 3 s
    | _ => holdWait who o.val threshold timeout.toNat none s)
  | .bus => ok (synRefused who o.val 0 false s)
  | .resetting => ok (match who with
    | .host => synRefused who o.val 0 true s
    | .remote _ _ _ => synRefused who o.val 0 true s
    | _ => holdWait who o.val threshold timeout.toNat (some s.skt.time) s)

/-- SYNC_TEST (R316): the counter and the test's ticket. -/
def execSyncTest (who : Agent) (o : Syn) (s : State) : Host.Outcome State Fault Refusal :=
  match synTest o.val (synSource who) s with
  | .done s1 c t => ok (send (.ticket who c t t) s1)
  | .bus => ok (synRefused who o.val 0 false s)
  | .resetting => ok (synRefused who o.val 0 true s)

/-- SYNC_RESET (R316). -/
def execSyncReset (who : Agent) (o : Syn) (s : State) : Host.Outcome State Fault Refusal :=
  match synReset o.val (synSource who) s with
  | .done s1 _ _ => ok s1
  | .bus => ok (synRefused who o.val 0x20 false s)
  | .resetting => ok (synRefused who o.val 0x20 true s)

/-- SYNC_ARM (R320): the host waiter; an older one is replaced. -/
def execSyncArm (who : Agent) (o : Syn) (threshold : W64) (s : State) : Host.Outcome State Fault Refusal :=
  match synArm o.val (synSource who) threshold s with
  | .done s1 _ _ => ok s1
  | .bus => ok (synRefused who o.val 0x18 false s)
  | .resetting => ok (synRefused who o.val 0x18 true s)

/-- A waiter of `who` whose timeout has expired. -/
def expired (s : State) (who : Agent) (w : Waiter) : Bool :=
  decide (w.who = who) && (match w.until_ with | some t => decide (t.toNat ≤ now s) | none => false)

/-- SYNC_WAIT_TIMEOUT (R319): the waiter is removed without release and answered with satisfying ticket
0xFFFF_FFFF; the counter and the tickets stay. -/
def execSyncWaitTimeout (o : Syn) (who : Agent) (s : State) : Host.Outcome State Fault Refusal :=
  match synStore s o.val with
  | none => ok s
  | some ix =>
    match (s.getSyn ix).waiters.find? (expired s who) with
    | none => ok s
    | some w =>
      ok (answerWait o.val w (s.getSyn ix).counter (BitVec.allOnes 32) false
        (s.modSyn ix fun y => { y with waiters := dropFirst (fun a => decide (a = w)) y.waiters }))

/-- Remove the waiters of an object that satisfy `p`, without an answer (R319). -/
def dropWaiters (ix : Nat) (p : Waiter → Bool) (s : State) : State :=
  s.modSyn ix fun y => { y with waiters := y.waiters.filter fun w => !p w }

/-- A removed waiter's requester receives a bus error (R443): BUS_ERR for a group at its SWAIT. -/
def failWaiter (o : Nat) (w : Waiter) (s : State) : State :=
  match w.pkt with
  | some q => respNack q 0x10 s
  | none =>
    match w.who with
    | .group site slot => groupHalt (gIx site.val slot.val) 8 0xFF (syncAddr o 0) s
    | a => errorTo a (syncAddr o 0) s

/-- SYNC_OBJECT_FAIL (R321, R443): the storage that serves the object fails, its waiters receive a bus error,
and the lowest free spare slot of the partition takes over the window. -/
def execSyncObjectFail (o : Syn) (s : State) : Host.Outcome State Fault Refusal :=
  match synStore s o.val with
  | none => ok s
  | some ix =>
    let x := s.getSyn ix
    let p := synPart o.val
    let s1 := s.modSyn ix fun y => { y with failed := true, waiters := [], armed := none, replacing := none }
    let s2 := forL x.waiters (failWaiter o.val) s1
    let s3 := if x.armed.isSome then hostBusError (syncAddr o.val 0x18) s2 else s2
    match (List.range 32).find? fun k =>
        let y := s3.getSyn (4096 + 32 * p + k)
        decide (y.replacing = none) && !y.failed with
    | none => ok s3
    | some k =>
      let i := 4096 + 32 * p + k
      ok (raiseEvent 6 (addRepair 0x0F o.val i k
        (s3.modSyn i fun y => { y with
          counter := 0, ticket := 0, waiters := [], armed := none, log := [], replacing := some (BitVec.ofNat 12 o.val) })))

/-! ### Queues (R304 to R313) -/

/-- One parity bit for each 8 bytes of a word (R312; its sense DESIGN CHOICE, log 88). -/
def wordParity (w : Line) : Byte :=
  BitVec.ofNat 8 ((List.range 8).map fun i =>
    let a := (lw w i).toNat
    let b := a ^^^ (a >>> 32)
    let c := b ^^^ (b >>> 16)
    let d := c ^^^ (c >>> 8)
    let e := d ^^^ (d >>> 4)
    let f := e ^^^ (e >>> 2)
    ((f ^^^ (f >>> 1)) &&& 1) * 2 ^ i).sum

/-- The parity kept with a word that is staged; `bad`: an error has struck it since (R312). -/
def stagedParity (w : Line) (bad : Bool) : Byte := if bad then ~~~(wordParity w) else wordParity w

/-- The parity of a stored word fails (R312). -/
def QWord.poison (w : QWord) : Bool := w.par != wordParity w.data

/-- Local address of word `k` of a queue's ring (Table 10.9). -/
def ringAddr (x : Queue) (k : Nat) : Nat := 0x40_0000_0000 + 4096 * x.ringBase.toNat + 64 * k

/-- Words of a queue's ring (R304). -/
def ringWords (x : Queue) : Nat := 64 * x.ringUnits.toNat

/-- A word of the ring as it is read: 8 bytes at a time, those in error as free values; whether one was in error, or the parity
fails (R312). -/
def ringRead (at_ : Nat) (par : Byte) (s : State) : State × Line × Bool :=
  let r := (List.range 8).foldl (fun (a : State × List W64 × Bool) i =>
    let (s1, e, bs) := memRead (at_ + 8 * i) 8 backLabel a.1
    if e.isSome then ({ s1 with tick := s1.tick + 1 }, a.2.1 ++ [Config.freeValue s1.tick], true)
    else (s1, a.2.1 ++ [BitVec.ofNat 64 (ofLe bs)], a.2.2)) (s, [], false)
  (r.1, r.2.1, r.2.2 || par != wordParity r.2.1)

/-- A queued word as it is read: its bytes, and whether it is poisoned (R312). -/
def wordRead (x : Queue) (w : QWord) (s : State) : State × Line × Bool :=
  match w.ring with
  | none => (s, w.data, w.poison)
  | some k => ringRead (ringAddr x k) w.par s

/-- Capacity in words (R304). -/
def queCapacity (x : Queue) : Nat := 32 + 64 * x.ringUnits.toNat

/-- HEAD_LEFT: words left in the head packet. -/
def headLeft (x : Queue) : Nat :=
  match x.words.findIdx? (·.last) with
  | some i => i + 1
  | none => x.words.length

/-- Signal the object of queue `q` for a notice first tried at `t`. Where its partition is in reset the queue resends it later;
it is lost when the object is failed, or once ABF_RETRY_LIMIT has passed (R309, R429). -/
def noticeSignal (q : Nat) (t : W64) (s : State) : State :=
  match synSignal (s.getQue q).target.toNat 12 1 s with
  | .done s1 _ _ => s1
  | .bus => s
  | .resetting =>
    if retryLimitNs s ≤ now s - t.toNat ∧ t ≠ s.skt.time then s else s.modQue q fun x => { x with owed := x.owed ++ [t] }

/-- Notices that a sync object has yet to take are signalled again, oldest first. -/
def noticeTick (s : State) : State :=
  forL (s.queues.filter fun e => !e.2.owed.isEmpty) (fun e s =>
    forL e.2.owed (noticeSignal e.1) (s.modQue e.1 fun x => { x with owed := [] })) s

/-- Raise the complete-packet notice of queue `q` (R309); a signal stands behind those not taken yet. -/
def queNotice (q : Nat) (s : State) : State :=
  let x := s.getQue q
  if x.notice = 0 then s.modPart x.owner.toNat fun y => { y with notices := y.notices ++ [q] }
  else if x.notice = 1 then
    if x.owed.isEmpty then noticeSignal q s.skt.time s else s.modQue q fun y => { y with owed := y.owed ++ [s.skt.time] }
  else if x.notice = 2 then sendVector x.target.toNat s
  else s

/-- Put one word at the queue's end: on-chip while fewer than 32 words are, else into the next word of the ring (R304, R312; which
words stand where is DESIGN CHOICE, log 88). -/
def pushWord (q : Nat) (w : Line) (par : Byte) (last : Bool) (s : State) : State :=
  let x := s.getQue q
  if (x.words.filter (·.ring.isNone)).length < 32 then
    s.modQue q fun x => { x with words := x.words ++ [{ data := w, last := last, par := par }] }
  else
    (memWrite (ringAddr x x.ringNext) (lineBytes w) backLabel s).1.modQue q fun x => { x with
      words := x.words ++ [{ data := w, last := last, par := par, ring := some x.ringNext }]
      ringNext := (x.ringNext + 1) % ringWords x }

/-- Link a whole packet into the queue and raise its notice (R307, R309). -/
def queCommit (q : Nat) (ws : List (Line × Byte)) (s : State) : State :=
  let s1 := forL ws.zipIdx (fun e s => pushWord q e.1.1 e.1.2 (e.2 + 1 == ws.length) s) s
  queNotice q (s1.modQue q fun x => { x with committed := x.committed + 1 })

/-- What presenting a word gives. -/
inductive PutRes where
  | stored (s : State)
  | full                            -- the queue lacks space, or the endpoint has no entry for a remote packet
  | noBuffer                        -- no assembly buffer is free
  | overlong (s : State)            -- the 65th word: the packet is discarded, the write receives a bus error
  | resetting                       -- the owning partition is in L2
  | bus (s : State)                 -- a remote packet that cannot be sent
deriving DecidableEq, Repr

/-- Partition whose assembly buffers stage a source's packet: the queue's owner, or, for a remote queue, the
source's own partition (R306, R322). -/
def asmPart (s : State) (who : Agent) (q : Nat) (dest : Option (BitVec 56)) : Nat :=
  match dest with
  | some _ => agentTower who
  | none => queOwner s q

/-- The source that an agent is: a remote device on one virtual lane, whatever the TID (R306). -/
def sourceOf : Agent → Agent
  | .remote src vl _ => .remote src vl 0
  | a => a

/-- The open packet is of `who`'s source, for this queue. -/
def isOpen (who : Agent) (q : Nat) (dest : Option (BitVec 56)) (o : OpenPkt) : Bool :=
  decide (o.who = sourceOf who ∧ o.q = q ∧ o.dest = dest)

/-- Label of work of class `c` for the task of a reference: class, real-time flag, deadline field (R279). -/
def refLabel (s : State) (c : Nat) (t : Option TaskRef) : Label :=
  match t.bind fun t => Tbl.get none (s.getPart t.p.val).tasks t.e.val with
  | some k => (c, k.rt && !k.demoted, if k.rt && !k.demoted then BitVec.ofNat 32 (k.deadline / 256) else 0)
  | none => (c, false, 0)

/-- Label of an agent's task: class, real-time flag, deadline field (R279). -/
def agentLabel (s : State) (who : Agent) : Label :=
  match who with
  | .group site slot => let g := s.getGrp (gIx site.val slot.val); refLabel s g.cls.toNat g.task
  | .array a =>
    match (s.getAry a.val).fifo with
    | d :: _ => refLabel s d.cls.val d.task
    | [] => (0, false, 0)
  | .dma ch =>
    match (s.getDma ch.val).fifo with
    | d :: _ => refLabel s d.cls.val d.task
    | [] => (0, false, 0)
  | _ => (0, false, 0)

/-- Label of a task (R279). -/
def taskLabel (t : Task) : Label :=
  (t.cls.val, t.rt && !t.demoted, if t.rt && !t.demoted then BitVec.ofNat 32 (t.deadline / 256) else 0)

/-- A request packet of an agent (Table 12.1); `label` is the label of the task it is sent for, where that is not the
agent's own (R279). -/
def reqPkt (s : State) (who : Agent) (op : Nat) (dest : Nat) (arg aux : Nat) (payload : List Byte)
    (label : Option (Nat × Bool × W32) := none) : Pkt :=
  let (c, rt, dl) := label.getD (agentLabel s who)
  { op := BitVec.ofNat 8 op, flags := pktFlags c rt false, dl := dl, dst := BitVec.ofNat 16 (dest / 2 ^ 40),
    src := s.net.id, tid := 0, status := 0, arg := BitVec.ofNat 8 arg,
    addr := BitVec.ofNat 64 (dest % 2 ^ 40), aux := BitVec.ofNat 64 aux, payload := payload }

/-- Present one word of `who` for queue `q` (R306 to R308, R322). -/
def putWord (who : Agent) (q : Nat) (word : Line) (bad close : Bool) (dest : Option (BitVec 56)) (s : State)
    (label : Option (Nat × Bool × W32) := none) : PutRes :=
  let p := asmPart s who q dest
  if dest.isNone && inReset s p then .resetting
  else
    let asm := (s.getPart p).asm
    let drop (x : Part) : Part := { x with asm := x.asm.filter fun o => !isOpen who q dest o }
    let old := (asm.find? (isOpen who q dest)).map (·.words)
    if old.isNone && decide (16 ≤ asm.length) then .noBuffer
    else
      let ws := old.getD [] ++ [(word, stagedParity word bad)]
      if 64 < ws.length then
        let s1 := s.modPart p drop
        .overlong (if dest.isNone then s1.modQue q fun x => { x with discard := x.discard + 1 } else s1)
      else if !close then
        .stored (s.modPart p fun x =>
          let y := drop x
          { y with asm := y.asm ++ [{ who := sourceOf who, q := q, words := ws, last := s.skt.time, dest := dest }] })
      else
        match dest with
        | none =>
          let x := s.getQue q
          if x.words.length + ws.length ≤ queCapacity x then .stored (queCommit q ws (s.modPart p drop)) else .full
        | some d =>
          let pkt := reqPkt s who 6 d.toNat 0 0 (ws.flatMap fun w => lineBytes w.1) label
          match issueRequest (agentTower who) who pkt s with
          | .held => .full
          | .noRoute => .bus (s.modPart p drop)
          | .sent s1 tid =>
            let s2 := s1.modPart p drop
            .stored (match who with
              | .group site slot => s2.modGrp (gIx site.val slot.val) fun g => { g with
                  remote := g.remote + 1, posted := g.posted ++ [(tid, BitVec.ofNat 48 d.toNat, d.toNat)] }
              | _ => s2)

/-- The host's refused write (R483): recorded, its open packet gone, later words dropped up to the next
CLOSE. -/
def hostRefuse (q reason : Nat) (close : Bool) (s : State) : State :=
  let s1 := s.modPart (queOwner s q) fun x => { x with asm := x.asm.filter fun o => !isOpen .host q none o }
  let s2 := if reason = 1 then s1 else s1.modQue q fun x => { x with refused := x.refused + 1 }
  let h := s2.hst
  raiseEvent 8 { s2 with hst := { h with
    refReason := BitVec.ofNat 4 reason, refQueue := BitVec.ofNat 9 q, refSeq := h.refSeq + 1
    dropping := if close then h.dropping else q :: h.dropping } }

/-- A host word to a queue (R307, R483). -/
def hostPut (q : Nat) (word : Line) (bad close : Bool) (s : State) : State :=
  if q ∈ s.hst.dropping then
    if close then { s with hst := { s.hst with dropping := s.hst.dropping.filter (· ≠ q) } } else s
  else
    match putWord .host q word bad close none s with
    | .stored s1 => s1
    | .full => hostRefuse q 2 close s
    | .noBuffer => hostRefuse q 3 close s
    | .resetting => hostRefuse q 1 close s
    | .overlong s1 => hostBusError (queueAddr q (if close then 0x40 else 0)) s1
    | .bus s1 => s1

/-- The word a local source presents waits (R307, R429). -/
def holdWord (who : Agent) (q : Nat) (word : Line) (bad close : Bool) (dest : Option (BitVec 56)) (s : State)
    (task : Option TaskRef := none) (label : Option (Nat × Bool × W32) := none) (elem : Option Nat := none) : State :=
  s.modPart (asmPart s who q dest) fun x => { x with held_ := x.held_ ++
    [{ who := who, q := q, word := word, bad := bad, close := close, dest := dest, since := s.skt.time
       task := task, label := label, elem := elem }] }

/-- Number of a source at a queue's write arbiter (Table 2.10; the spec does not number the sources: DESIGN CHOICE, log 84). -/
def sourceNo : Agent → Nat
  | .host => 0
  | .mgmt => 1
  | .pc p => 2 + p.val
  | .coll port => 6 + port.val
  | .notice q => 12 + q.val
  | .group site slot => 524 + gIx site.val slot.val
  | .array a => 2828 + a.val
  | .dma ch => 3020 + ch.val
  | .remote src vl _ => 3404 + 6 * src.toNat + vl.val

/-- Sources of a queue's write arbiter. -/
def sources : Nat := 3404 + 6 * 65536

/-- The source whose turn it is among those that wait, and the token after it (R79). -/
def sourceTurn (token : Nat) (l : List Agent) : Nat × Nat :=
  let ns := (l.map sourceNo).eraseDups
  let w := tokenFirst sources token ns
  let losers := ns.filter (· ≠ w)
  (w, if losers = [] then token else tokenFirst sources (w + 1) losers)

/-- Other sources wait for the queue: a word that comes now waits with them (R78). -/
def othersHeld (s : State) (who : Agent) (q : Nat) : Bool :=
  (List.range 4).any fun p => (s.getPart p).held_.any fun h => h.who != who && h.q == q && h.dest.isNone

/-- The source already has a word held. -/
def wordHeld (s : State) (who : Agent) : Bool :=
  (List.range 4).any fun p => (s.getPart p).held_.any fun h => decide (h.who = who)

/-- A word that a source presents for the first time: behind sources that wait for the queue it waits too (R78, R307). -/
def putNew (who : Agent) (q : Nat) (word : Line) (bad close : Bool) (dest : Option (BitVec 56)) (s : State)
    (label : Option (Nat × Bool × W32) := none) : PutRes :=
  if dest.isNone && othersHeld s who q && !inReset s (queOwner s q) then .full else putWord who q word bad close dest s label

/-- A word of an agent at the window (R307). -/
def agentPut (who : Agent) (q : Nat) (word : Line) (bad close : Bool) (s : State) : State :=
  match who with
  | .host => hostPut q word bad close s
  | _ =>
    if wordHeld s who then s
    else
      match putNew who q word bad close none s with
      | .stored s1 => s1
      | .overlong s1 => errorTo who (queueAddr q 0) s1
      | .bus s1 => s1
      | .resetting => match who with
        | .remote _ _ _ => nackTo who 1 s
        | _ => holdWord who q word bad close none s
      | _ => match who with
        | .remote _ _ _ => nackTo who 2 s
        | _ => holdWord who q word bad close none s

/-- QUEUE_APPEND (R306 to R308). -/
def execQueueAppend (who : Agent) (q : Que) (word : Line) (bad : Bool) (s : State) : Host.Outcome State Fault Refusal :=
  ok (agentPut who q.val word bad false s)

/-- QUEUE_CLOSE (R307, R309). -/
def execQueueClose (who : Agent) (q : Que) (word : Line) (bad : Bool) (s : State) : Host.Outcome State Fault Refusal :=
  ok (agentPut who q.val word bad true s)

/-- The fault queue of a partition (Table 13.6). -/
def faultQueue (s : State) (p : Nat) : Nat := (s.bru.faultQ.getD p 0).toNat % 512

/-- A reply or signal of partition `p` is lost: it is counted in QUE_DISCARD of the partition's fault queue
(R315). -/
def lostReply (p : Nat) (s : State) : State :=
  s.modQue (faultQueue s p) fun x => { x with discard := x.discard + 1 }

/-- A task's completion has been posted: it leaves the table, its queue slot and its window with it (R46, R281, R301); a
voided one is counted. -/
def releaseTask (r : TaskRef) (voided : Bool) (s : State) : State :=
  match Tbl.get none (s.getPart r.p.val).tasks r.e.val with
  | none => s
  | some t => s.modPart r.p.val fun y => { y with
      tasks := Tbl.put none y.tasks r.e.val none
      asked := y.asked.map fun a => if a.ref = some r then { a with ref := none } else a
      voided := if voided then Tbl.mod 0 y.voided t.cls.val (· + 1) else y.voided
      faultMsgs := y.faultMsgs.filter fun m => !decide (m.task = r) }

/-- A completion that cannot be posted is counted in the last fault record (R417). -/
def countLost (s : State) : State :=
  { s with rst := { s.rst with record := { s.rst.record with lost := s.rst.record.lost + 1 } } }

/-- A held completion has been stored or is lost: its task is released (R281). A held answer to a task message has been: the
message is answered (R43). -/
def endPosting (h : HeldPut) (s : State) : State :=
  if lf h.word 0 7 0 ≠ 3 then
    match h.who with
    | .pc p => s.modPart p.val fun x => { x with asked := dropFirst (fun a => decide (a.word = h.word)) x.asked }
    | _ => s
  else
    match h.task with
    | none => s
    | some r => releaseTask r (((Tbl.get none (s.getPart r.p.val).tasks r.e.val).bind (·.ending)).any fun x => x.1 == 3) s

/-- A held source's word has been taken: a group held on QPUT goes on, and a DMA element may commit (R307). -/
def endHold (h : HeldPut) (s : State) : State :=
  match h.who with
  | .group site slot =>
    let i := gIx site.val slot.val
    match (s.getGrp i).hold with
    | .queue _ _ _ => s.modGrp i fun g => advance (unhold g)
    | _ => s
  | .dma ch => s.modDma ch.val fun x => { x with
      inFlight := x.inFlight.map fun e => if e.held && h.elem == some e.k then { e with held := false, sent := true } else e }
  | _ => s

/-- A held source's word ends in an error: reported as a store's for a group (R176, R323), at the element for a DMA channel
(R261), as a lost reply or message for the controllers (R315, R417). -/
def failHold (h : HeldPut) (s : State) : State :=
  match h.who with
  | .group site slot =>
    let i := gIx site.val slot.val
    let g := s.getGrp i
    endHold h (noteStoreErr i (winAddr g (g.issued.getD 0) 0) s)
  | .dma ch => s.modDma ch.val fun x => { x with
      inFlight := x.inFlight.map fun e => if e.held && h.elem == some e.k then { e with held := false, bad := true } else e }
  | .pc t => lostReply t.val s
  | .mgmt => if h.label.isSome then countLost s else errorTo .mgmt (queueAddr h.q 0) s
  | w => errorTo w (queueAddr h.q 0) s

/-- The word as it is posted: a reply carries the device time at which it is (Table 10.3, R301). Only replies are held with a
label of their own. -/
def postedWord (s : State) (h : HeldPut) : Line :=
  if h.label.isSome then h.word.set 1 s.skt.time else h.word

/-- A held word can be taken now, or ends: there is room for it, or its wait on a resetting queue is over. -/
def heldReady (s : State) (h : HeldPut) : Bool :=
  match putWord h.who h.q h.word h.bad h.close h.dest s h.label with
  | .stored _ => true
  | .overlong _ => true
  | .bus _ => true
  | .resetting => decide (retryLimitNs s ≤ now s - h.since.toNat)
  | .full => false
  | .noBuffer => false

/-- A remote device's packet delivered for queue `q` that could be taken now (R306, R307). -/
def qmsgReady (s : State) (q : Nat) (e : Nat × Pkt) : Bool :=
  let n := e.2.payload.length
  decide (e.2.op = 6) && !e.2.isResp && regionOf e.2.addr.toNat == .queue q 0 && decide (64 ≤ n ∧ n ≤ 4096 ∧ n % 64 = 0)
    && decide ((s.getQue q).words.length + n / 64 ≤ queCapacity (s.getQue q)) && decide ((s.getPart (queOwner s q)).asm.length < 16)

/-- The source of a packet from another device. -/
def qmsgSource (e : Nat × Pkt) : Agent := .remote e.2.src ⟨e.1 % 6, Nat.mod_lt _ (by omega)⟩ 0

/-- Sources that wait for queue `q` and could commit to it now: those held, and remote ones whose packet is delivered (R307). -/
def queueRivals (s : State) (q : Nat) : List Agent :=
  ((List.range 4).flatMap fun p => ((s.getPart p).held_.filter fun x => x.q == q && x.dest.isNone && heldReady s x).map (·.who))
    ++ (s.net.inbox.filter (qmsgReady s q)).map qmsgSource

/-- Of the sources that wait for queue `q`, `who` among them, it is `who`'s turn by the queue's token: the token after it
(Table 2.10). -/
def queueTurn (s : State) (q : Nat) (who : Agent) : Option Nat :=
  let (w, tok) := sourceTurn (s.getQue q).token (queueRivals s q ++ [who])
  if w = sourceNo who then some tok else none

/-- The turn of a held word: the token after it. A word for another device's queue contends at no queue of this one. -/
def releaseTurn (s : State) (h : HeldPut) : Option Nat :=
  if h.dest.isSome then some (s.getQue h.q).token else queueTurn s h.q h.who

/-- QUEUE_SPACE_RELEASE (R307, R429): the word that `who` presents is stored once there is room and its turn has come. -/
def execQueueSpaceRelease (p : Tower) (who : Agent) (q : Que) (s : State) : Host.Outcome State Fault Refusal :=
  match (s.getPart p.val).held_.find? fun h => decide (h.who = who ∧ h.q = q.val) && heldReady s h with
  | none => ok s
  | some h =>
    let drop (s : State) : State :=
      endPosting h (s.modPart p.val fun x => { x with held_ := dropFirst (fun a => decide (a = h)) x.held_ })
    match releaseTurn s h with
    | none => ok s
    | some tok =>
      let s0 := s.modQue h.q fun x => { x with token := tok }
      match putWord h.who h.q (postedWord s h) h.bad h.close h.dest s0 h.label with
      | .stored s1 => ok (endHold h (drop s1))
      | .overlong s1 => ok (failHold h (drop s1))
      | .bus s1 => ok (failHold h (drop s1))
      | .resetting => if retryLimitNs s ≤ now s - h.since.toNat then ok (failHold h (drop s0)) else ok s
      | _ => ok s

/-- PACKET_TIMEOUT (R308): no word for 100 µs while the source presents none. -/
def execPacketTimeout (p : Tower) (who : Agent) (q : Que) (s : State) : Host.Outcome State Fault Refusal :=
  let presents (o : OpenPkt) : Bool := (s.getPart p.val).held_.any fun h => decide (h.who = o.who ∧ h.q = o.q ∧ h.dest = o.dest)
  match (s.getPart p.val).asm.find? fun o =>
      decide (o.who = sourceOf who ∧ o.q = q.val ∧ 100000 ≤ now s - o.last.toNat) && !presents o with
  | none => ok s
  | some o =>
      let s1 := s.modPart p.val fun x => { x with asm := dropFirst (fun a => decide (a = o)) x.asm }
      ok (if o.dest.isNone then s1.modQue q.val fun x => { x with discard := x.discard + 1 } else s1)

/-- The agent is of the queue's consumer kind (R304, R310). -/
def isConsumer (s : State) (who : Agent) (q : Nat) : Bool :=
  let x := s.getQue q
  match who with
  | .pc p => x.consumer == 0 && p.val == x.owner.toNat
  | .group site _ => x.consumer == 1 && site.val / 24 == x.owner.toNat
  | .dma ch => x.consumer == 1 && ch.val / 96 == x.owner.toNat
  | .host => x.consumer == 2
  | _ => false

/-- 64 bytes of 0. -/
def zeroLine : Line := mkLine []

/-- Take the head word (R310 to R312): the word, its poison, whether it ends its packet, whether the queue
was empty. -/
def takeWord (q : Nat) (s : State) : State × Line × Bool × Bool × Bool :=
  let x := s.getQue q
  match x.words with
  | [] =>
    (s.modQue q fun y => { y with underrun := true, underruns := y.underruns + 1 },
      if x.lastWord = [] then zeroLine else x.lastWord, x.lastPoison, x.lastEnd, true)
  | w :: r =>
    let (s1, d, poison) := wordRead x w s
    (s1.modQue q fun y => { y with
      words := r, lastWord := d, lastPoison := poison, lastEnd := w.last
      poisoned := if poison then y.poisoned + 1 else y.poisoned }, d, poison, w.last, false)

/-- QUEUE_TAKE (R310 to R312). A consumer meets "target resetting" while the owner is in L2 (R29). -/
def execQueueTake (who : Agent) (q : Que) (s : State) : Host.Outcome State Fault Refusal :=
  if inReset s (queOwner s q.val) then
    match who with
    | .host => ok (hostBusError (queueAddr q.val 0x80) s)
    | _ => ok (nackTo who 1 s)
  else if !isConsumer s who q.val then ok (errorTo who (queueAddr q.val 0x80) s)
  else
    let (s1, w, poison, _, _) := takeWord q.val s
    match who with
    | .host => ok (send (if poison then .poisonedRead (lineBytes w) else .data .host (lineBytes w)) s1)
    | a => ok (send (.data a (lineBytes w)) s1)

/-- QSTATE (Table 10.1). -/
def qstate (x : Queue) : W64 :=
  BitVec.ofNat 64 (x.words.length % 65536 + headLeft x * 2 ^ 16 + b2n (x.words.isEmpty) * 2 ^ 24
    + b2n x.underrun * 2 ^ 25 + b2n x.lastPoison * 2 ^ 26 + b2n x.lastEnd * 2 ^ 27)

/-- Agents whose clear of UNDERRUN takes effect (R305, R324). -/
def mayClear (s : State) (who : Agent) (q : Nat) : Bool :=
  isConsumer s who q || decide (who = .mgmt) || decide (who = .host)

/-- Clear UNDERRUN where the value sets bit 25. -/
def queClear (who : Agent) (q : Nat) (val : W64) (s : State) : State :=
  if mayClear s who q && getBit val 25 then s.modQue q fun x => { x with underrun := false } else s

/-- QUEUE_CLEAR (R305). -/
def execQueueClear (who : Agent) (q : Que) (val : W64) (s : State) : Host.Outcome State Fault Refusal :=
  if inReset s (queOwner s q.val) then
    match who with
    | .host => ok (hostBusError (queueAddr q.val 0xC8) s)
    | _ => ok (nackTo who 1 s)
  else ok (queClear who q.val val s)

/-- Discard the open packets and held words of the sources that satisfy `p`, as an abort of their task does
(R308). -/
def discardOpen (p : Agent → Bool) (s : State) : State :=
  forN 4 (fun t s =>
    let out := (s.getPart t).asm.filter fun o => p o.who
    let s1 := s.modPart t fun x => { x with asm := x.asm.filter fun o => !p o.who, held_ := x.held_.filter fun h => !p h.who }
    forL out (fun o s => if o.dest.isNone then s.modQue o.q fun x => { x with discard := x.discard + 1 } else s) s1) s

end Sys2Proof.Machine
end

