-- ==== Sys2Proof/Machine/Phys.lean ====
section
/-! DEFINITION. The local physical map as an agent's access meets it (Table 1.5): memory, queue windows,
sync-object windows, everything else a bus error; and "target resetting" while the target's partition is in
L2 (R29, R30, R36, R305, R320, R370). -/

namespace Sys2Proof.Machine
open Sys2Proof

/-- Why an access is not performed. -/
inductive PhysErr where
  | bus | discarded
  | resetting                       -- "target resetting" (R29)
  | held                            -- a queue cannot take the word yet (R307)
deriving DecidableEq, Repr

/-- A memory error as a physical one. -/
def physErr : MemErr → PhysErr
  | .bus => .bus
  | .discarded => .discarded

/-- The target is inside a partition in L2 reset (R29, R30, R370). -/
def targetResetting (s : State) (pa : Nat) : Bool :=
  match regionOf pa with
  | .regs => false
  | _ => match targetTower s pa with
    | some t => inReset s t
    | none => false

/-- Bytes of an access of `who` move between its tower and the target's, `back` from the target (R23); what came over the fabric
has already crossed to the target. -/
def moveBytes (who : Agent) (pa n : Nat) (back : Bool) (lab : Label) (s : State) : State :=
  match who, targetTower s pa with
  | .remote _ _ _, _ => s
  | _, none => s
  | a, some t => if back then crossBytes t (agentTower a) lab n s else crossBytes (agentTower a) t lab n s

/-- Read `len` bytes at a local address, under the label of the request (R279). The last Bool is the Poisoned bit of a queue word
(R312). -/
def physRead (who : Agent) (pa len : Nat) (lab : Label) (s0 : State) : State × Option PhysErr × List Byte × Bool :=
  if targetResetting s0 pa then (s0, some .resetting, [], false)
  else
    let s := moveBytes who pa len true lab s0
    match regionOf pa with
    | .memory =>
      let (s1, e, bs) := memRead pa len lab s
      (s1, e.map physErr, bs, false)
    | .queue q off =>
      if off = 0x080 ∧ len = 64 then
        if isConsumer s who q then
          let (s1, w, poison, _, _) := takeWord q s
          (s1, none, lineBytes w, poison)
        else (s, some .bus, [], false)
      else if off = 0x0C0 ∧ len = 8 then (s, none, leBytes 8 (qstate (s.getQue q)).toNat, false)
      else (s, some .bus, [], false)
    | .sync o off =>
      if off = 0 ∧ (len = 16 ∨ len = 8) then
        match synTest o (synSource who) s with
        | .done s1 c t => (s1, none, (leBytes 8 c.toNat ++ leBytes 8 t.toNat).take len, false)
        | .bus => (s, some .bus, [], false)
        | .resetting => (s, some .resetting, [], false)
      else (s, some .bus, [], false)
    | .regs => (s, some .bus, [], false)
    | .reserved => (s, some .bus, [], false)

/-- The result of a posted sync operation. -/
def synWritten (s : State) : SynRes → State × Option PhysErr
  | .done s1 _ _ => (s1, none)
  | .bus => (s, some .bus)
  | .resetting => (s, some .resetting)

/-- Write bytes at a local address. A host word that a queue refuses is recorded and ends without a bus
error (R483). -/
def physWrite (who : Agent) (pa : Nat) (data : List Byte) (lab : Label) (s0 : State) : State × Option PhysErr :=
  let s := moveBytes who pa data.length false lab s0
  match regionOf pa with
  | .queue q off =>
    if (off = 0x000 ∨ off = 0x040) ∧ data.length = 64 then
      match who with
      | .host => (hostPut q (bytesLine data) false (off == 0x040) s, none)
      | _ =>
        match putNew who q (bytesLine data) false (off == 0x040) none s with
        | .stored s1 => (s1, none)
        | .overlong s1 => (s1, some .bus)
        | .bus s1 => (s1, some .bus)
        | .resetting => (s, some .resetting)
        | .full => (s, some .held)
        | .noBuffer => (s, some .held)
    else if off = 0x0C8 ∧ data.length = 8 then
      if inReset s (queOwner s q) then (s, some .resetting)
      else (queClear who q (BitVec.ofNat 64 (ofLe data)) s, none)
    else (s, some .bus)
  | .sync o off =>
    if data.length ≠ 8 then (s, some .bus)
    else if off = 0x10 then synWritten s (synSignal o (synSource who) (BitVec.ofNat 64 (ofLe data)) s)
    else if off = 0x18 then synWritten s (synArm o (synSource who) (BitVec.ofNat 64 (ofLe data)) s)
    else if off = 0x20 then synWritten s (synReset o (synSource who) s)
    else (s, some .bus)
  | .memory =>
    if targetResetting s pa then (s, some .resetting)
    else
      let (s1, e) := memWrite pa data lab s
      (s1, e.map physErr)
  | .regs => (s, some .bus)
  | .reserved => (s, some .bus)

/-- Bytes that a home operation brings: two values of 8 bytes, or an element mask and a line. -/
def opBytes : HomeOp → Nat
  | .atomic _ _ _ => 16
  | .reduce _ _ _ _ => 272

/-- A home operation at a local address: memory only (R211, R369). -/
def physOp (who : Agent) (pa : Nat) (lab : Label) (op : HomeOp) (s0 : State) : State × Option PhysErr × List Byte :=
  let s := moveBytes who pa (opBytes op) false lab s0
  match regionOf pa with
  | .memory =>
    if targetResetting s pa then (s, some .resetting, [])
    else
      let (s1, e, old) := memOp pa lab op s
      (s1, e.map physErr, old)
  | _ => (s, some .bus, [])

/-- The `len` bytes at `pa` are memory whose words are good. -/
def memGood (s : State) (pa len : Nat) : Bool :=
  !copyHeld s pa && (memByte s pa).isSome && (wordsOf pa len).all fun w => !memPoisoned s (8 * w)

/-- `len` bytes of memory as they stand. -/
def memBytes (s : State) (pa len : Nat) : List Byte := (List.range len).map fun i => (memByte s (pa + i)).getD 0

/-- An access of `len` bytes that is not made, as its instruction meets an error elsewhere, reads memory as far as the home had to:
what the read counts, records and rewrites stands (R218, R219). -/
def probeRead (pa len : Nat) (lab : Label) (s : State) : State :=
  match regionOf pa with
  | .memory => if targetResetting s pa then s else (memRead pa len lab s).1
  | _ => s

/-- A write that is not made for the same reason has read the words that it covers in part and that are not poisoned (R221). -/
def probeWrite (pa len : Nat) (lab : Label) (s : State) : State :=
  forL ((wordsOf pa len).filter fun w => !wordFull pa len w) (fun w s =>
    if memPoisoned s (8 * w) then s else probeRead (8 * w) 8 lab s) s

end Sys2Proof.Machine
end

