-- ==== Sys2Proof/Machine/Translate.lean ====
section
/-! DEFINITION. Page tables, the translation units and translation faults (R244 to R254, R516). -/

namespace Sys2Proof.Machine
open Sys2Proof

/-- What a translation gives: a local address, an address on another device, or a fault with its cause
(Table 8.4), the entry found and its level. -/
inductive XRes where
  | local_ (pa : Nat)
  | fabric (dest : Nat)             -- 56-bit fabric address (R38)
  | fault (cause : Nat) (entry : W64) (level : Nat)
deriving DecidableEq, Repr

/-! ### Page-table entries (Table 8.2) -/

def pteV (e : Nat) : Bool := bit e 0
def pteLeaf (e : Nat) : Bool := bit e 1
def pteRd (e : Nat) : Bool := bit e 2
def pteWr (e : Nat) : Bool := bit e 3
def pteEx (e : Nat) : Bool := bit e 4
def pteFab (e : Nat) : Bool := bit e 5
def pteC64 (e : Nat) : Bool := bit e 6
def pteAddr (e : Nat) : Nat := bits e 39 12 * 4096
def pteDev (e : Nat) : Nat := bits e 63 48

/-- The entry is malformed at this level (R246). -/
def badEntry (e level : Nat) : Bool :=
  bit e 7 || bits e 47 40 != 0
    || (pteLeaf e && decide (2 ≤ level)) || (!pteLeaf e && level == 0)
    || (!pteLeaf e && (pteRd e || pteWr e || pteEx e || pteFab e || pteC64 e || pteDev e != 0))
    || (pteLeaf e && pteFab e && pteEx e)
    || (pteLeaf e && !pteFab e && pteDev e != 0)
    || (pteC64 e && level != 0)

/-- Bytes that a leaf maps (Table 8.1, R247). -/
def leafSize (e level : Nat) : Nat := if level = 1 then 0x200000 else if pteC64 e then 0x10000 else 0x1000

/-- Index of an address at a level (Table 8.1). -/
def vaIndex (va level : Nat) : Nat := (va >>> (12 + 9 * level)) % 512

/-- The permission that an access lacks on a leaf (Table 8.3, R516). -/
def permFault (acc : Access) (e : Nat) : Option Nat :=
  let rd := if pteRd e then none else some 2
  let wr := if pteWr e then none else some 3
  match acc with
  | .read => rd
  | .write => wr
  | .fetch => if pteEx e then none else some 4
  | .atomic => rd.orElse fun _ => wr
  | .hint => wr
  | .reduce => rd.orElse fun _ => wr

/-- Local address a leaf gives for `va` (R247, R248). -/
def leafTarget (e level va : Nat) : Nat :=
  let sz := leafSize e level
  (if pteC64 e then pteAddr e / 0x10000 * 0x10000 else pteAddr e) + va % sz

/-- Check an access on a leaf: permissions, then BAD_TARGET (R516); `lv` is 0xFF when no walk ran, and a fault then names no
entry (Table 8.5). -/
def leafCheck (s : State) (acc : Access) (e : W64) (level lv va : Nat) : XRes :=
  let found : W64 := if lv = 0xFF then 0 else e
  match permFault acc e.toNat with
  | some c => .fault c found lv
  | none =>
    let pa := leafTarget e.toNat level va % 2 ^ 40
    let here := !pteFab e.toNat || pteDev e.toNat == s.net.id.toNat
    if here then
      if decide (regionOf pa = .regs) then .fault 6 found lv else .local_ pa
    else .fabric (pteDev e.toNat * 2 ^ 40 + pa)

/-! ### Walks (R245, R250, R251) -/

/-- Read entry `ix` of the table at `table` with the 64-byte read of R250; none is TABLE_ERR. -/
def readEntry (table ix : Nat) (err : Bool) (s : State) : State × Option W64 :=
  match scratchOf s (table + 8 * ix) with
  | none => (s, none)
  | some (j, x) =>
    let (s1, e, bs) := scratchRead j (x / 64 * 64) 64
      (if err then strikeSlice j [{ word := x / 8, bit := 0, err := .uncorrectable }] s else s)
    (s1, if e.isSome then none else some (BitVec.ofNat 64 (ofLe ((bs.drop (x % 64)).take 8))))

/-- What one level's read gives. -/
inductive LevelRes where
  | fault (cause : Nat) (entry : W64)
  | leaf (e : W64)
  | next (table : Nat)
deriving DecidableEq, Repr

/-- Read and check the entry of one level (R516 step 1). -/
def walkLevel (table level va : Nat) (err : Bool) (s : State) : State × LevelRes :=
  let (s1, e) := readEntry table (vaIndex va level) err s
  match e with
  | none => (s1, .fault 7 0)
  | some e =>
    if !pteV e.toNat then (s1, .fault 1 e)
    else if badEntry e.toNat level then (s1, .fault 5 e)
    else if pteLeaf e.toNat then (s1, .leaf e)
    else (s1, .next (pteAddr e.toNat))

/-- Key of the addresses that one table of `level` serves. -/
def walkKey (va level : Nat) : Nat := va >>> (12 + 9 * (level + 1))

/-- Where a walk starts: the lowest table held in the walk cache, else the root. -/
def walkStart (s : State) (cache : List WalkEnt) (ctx va : Nat) : Nat × Nat :=
  match (List.range 3).findSome? fun l =>
      cache.find? fun e => decide (e.ctx = ctx ∧ e.level = l ∧ e.base = walkKey va l) with
  | some e => (e.level, e.table)
  | none => (3, (s.getCtx ctx).root.toNat)

/-- Walk from `table` at `level` to the leaf; the entries passed are those to cache. -/
def walkDown : Nat → Nat → Nat → Nat → Nat → State → State × LevelRes × Nat × List WalkEnt
  | 0, _, _, table, level, s => (s, .next table, level, [])
  | fuel + 1, ctx, va, table, level, s =>
    match walkLevel table level va false s with
    | (s1, .next t) =>
      let r := walkDown fuel ctx va t (level - 1) s1
      (r.1, r.2.1, r.2.2.1, { ctx := ctx, level := level - 1, base := walkKey va (level - 1), table := t } :: r.2.2.2)
    | (s1, r) => (s1, r, level, [])

/-- The leaf as it is cached (R247, R250). -/
def mkLeaf (ctx va level : Nat) (e : W64) : Leaf :=
  let sz := leafSize e.toNat level
  { ctx := ctx, base := va / sz * sz, size := sz, pte := e }

/-- Level of a leaf of this size. -/
def leafLevel (l : Leaf) : Nat := if l.size = 0x200000 then 1 else 0

/-- A cached leaf that covers the address. -/
def findLeaf (tlb : List Leaf) (ctx va : Nat) : Option Leaf :=
  tlb.find? fun l => decide (l.ctx = ctx ∧ l.base ≤ va ∧ va < l.base + l.size)

/-- Result of a completed level read, for an access. -/
def levelResult (s : State) (acc : Access) (va level : Nat) : LevelRes → XRes
  | .fault c e => .fault c e level
  | .leaf e => leafCheck s acc e level level va
  | .next _ => .fault 7 0 level

/-- Translate for an agent of site `site` (R250, R516): a cached leaf is checked from step 2; else a walk. The
unit caches the tables passed and, where the access does not fault, the leaf. -/
def translate (site ctx : Nat) (va : BitVec 48) (acc : Access) (s : State) : State × XRes :=
  let x := s.getSite site
  let v := va.toNat
  match findLeaf x.tlb ctx v with
  | some l => (s, leafCheck s acc l.pte (leafLevel l) 0xFF v)
  | none =>
    let (l0, t0) := walkStart s x.walkc ctx v
    let (s1, r, lv, ents) := walkDown 4 ctx v t0 l0 s
    let res := levelResult s1 acc v lv r
    let s2 := s1.modSite site fun y => { y with
      tlbMiss := y.tlbMiss + 1
      walkc := (ents.reverse ++ y.walkc).take 64
      tlb := match r, res with
        | .leaf _, .fault _ _ _ => y.tlb
        | .leaf e, _ => (mkLeaf ctx v lv e :: y.tlb).take 1024
        | _, _ => y.tlb }
    (s2, res)

/-- The collective engine's translation: its own 256 leaf entries, no walk cache (R381). -/
def translateColl (port ctx : Nat) (va : BitVec 48) (acc : Access) (s : State) : State × XRes :=
  let v := va.toNat
  match findLeaf (s.getPort port).collTlb ctx v with
  | some l => (s, leafCheck s acc l.pte (leafLevel l) 0xFF v)
  | none =>
    let (s1, r, lv, _) := walkDown 4 ctx v (s.getCtx ctx).root.toNat 3 s
    let res := levelResult s1 acc v lv r
    (match r, res with
      | .leaf _, .fault _ _ _ => s1
      | .leaf e, _ => s1.modPort port fun y => { y with collTlb := (mkLeaf ctx v lv e :: y.collTlb).take 256 }
      | _, _ => s1, res)

/-! ### Fault records (R253, R254, Table 8.5) -/

/-- ACCESS code of a faulting access; a TABLE_ERR is the walk's own read. -/
def accessCode (acc : Access) (cause : Nat) : Nat :=
  if cause = 7 then 6
  else match acc with
    | .read => 0
    | .write => 1
    | .fetch => 2
    | .atomic => 3
    | .hint => 4
    | .reduce => 5

/-- A fault record. -/
def mkFaultRec (source cause access ctx site unit cls : Nat) (va t resume : Nat) (entry : W64) (level : Nat) : Line :=
  bytesLine ([BitVec.ofNat 8 source, BitVec.ofNat 8 cause, BitVec.ofNat 8 access, BitVec.ofNat 8 ctx]
    ++ leBytes 2 site ++ [BitVec.ofNat 8 unit, BitVec.ofNat 8 cls]
    ++ leBytes 8 va ++ leBytes 8 t ++ leBytes 8 resume ++ leBytes 8 entry.toNat ++ [BitVec.ofNat 8 level])

/-- The fault queue of partition `p` takes one more word. -/
def faultRoom (s : State) (p : Nat) : Bool :=
  let x := s.getQue (faultQueue s p)
  decide (x.words.length + 1 ≤ queCapacity x)

/-- Post a fault record as a one-word packet, or hold it, behind the records already held (R78, R253, R254).
`t` is the task that it is of (R273). -/
def postFault (p : Nat) (who : Agent) (rec : Line) (t : Option TaskRef) (s : State) : State :=
  if !(s.getPart p).heldRecs.isEmpty || !faultRoom s p then
    s.modPart p fun x => { x with heldRecs := x.heldRecs ++ [(who, rec, t)] }
  else
    let s1 := queCommit (faultQueue s p) [(rec, wordParity rec)] s
    match p with
    | 0 => send (.fault 0 rec) s1
    | 1 => send (.fault 1 rec) s1
    | 2 => send (.fault 2 rec) s1
    | _ => send (.fault 3 rec) s1

/-- FAULT_RECORD_DELIVER (R254): once the fault queue takes one, the oldest held record of the requester that the queue's token
names is delivered (Table 2.10). -/
def execFaultRecordDeliver (p : Tower) (s : State) : Host.Outcome State Fault Refusal :=
  let l := (s.getPart p.val).heldRecs
  let q := faultQueue s p.val
  let (w, tok) := sourceTurn (s.getQue q).token (l.map (·.1))
  match l.find? fun e => sourceNo e.1 = w with
  | none => ok s
  | some e =>
    if faultRoom s p.val then
      ok (send (.fault p e.2.1) (queCommit q [(e.2.1, wordParity e.2.1)]
        ((s.modPart p.val fun x => { x with heldRecs := dropFirst (fun a => decide (a = e)) x.heldRecs }).modQue q fun x =>
          { x with token := tok })))
    else ok s

/-- Count a fault of a site (Table 8.23). -/
def countFault (site : Nat) (s : State) : State := s.modSite site fun x => { x with faults := x.faults + 1 }

/-- A thread group's translation fault: the group parks, its record goes to the fault queue (R177, R253). -/
def groupFault (site slot lane : Nat) (va : BitVec 48) (acc : Access) (cause : Nat) (entry : W64) (level : Nat) (s : State) :
    State :=
  let i := gIx site slot
  let g := s.getGrp i
  let rec_ := mkFaultRec 1 cause (accessCode acc cause) g.ctx.toNat site slot g.cls.toNat va.toNat (now s) g.pc.toNat entry level
  let s1 := countFault site ((groupPark i lane va.toNat s).modGrp i fun g => { g with faultRec := some rec_ })
  postFault (site / 24) (.group ⟨site % 96, Nat.mod_lt _ (by omega)⟩ ⟨slot % 24, Nat.mod_lt _ (by omega)⟩) rec_ g.task s1

end Sys2Proof.Machine
end

