-- ==== Sys2Proof/Machine/Arrays.lean ====
section
/-! DEFINITION. The matrix arrays: pass descriptors and their checks, the reads and writes an array makes, the
stationary tile, the partial sums, the drain, the staging blocks and the epilogue (chapters 03 and 04). -/

namespace Sys2Proof.Machine
open Sys2Proof

/-! ### Descriptor fields (Table 3.4) -/

def dOp (w : Line) : Nat := lf w 0 3 0
def dPsumAxis (w : Line) : Bool := bit (lw w 0).toNat 4
def dWTrans (w : Line) : Bool := bit (lw w 0).toNat 5
def dSTrans (w : Line) : Bool := bit (lw w 0).toNat 6
def dSKeep (w : Line) : Bool := bit (lw w 0).toNat 7
def dSFmt (w : Line) : Nat := lf w 0 11 8
def dWFmt (w : Line) : Nat := lf w 0 15 12
def dOutFmt (w : Line) : Nat := lf w 0 19 16
def dAccum (w : Line) : Bool := bit (lw w 0).toNat 20
def dZeroFill (w : Line) : Bool := bit (lw w 0).toNat 21
def dDest (w : Line) : Bool := bit (lw w 0).toNat 22
def dRound (w : Line) : Nat := lf w 0 24 23
def dClamp (w : Line) : Bool := bit (lw w 0).toNat 25
def dSyncEn (w : Line) : Bool := bit (lw w 0).toNat 26
def dRdFence (w : Line) : Bool := bit (lw w 0).toNat 27
def dClass (w : Line) : Nat := lf w 0 31 28
def dSyncId (w : Line) : Nat := lf w 0 43 32
def dK (w : Line) : Nat := lf w 0 52 44
def dAccOff (w : Line) : Nat := lf w 0 61 53
def dN (w : Line) : Nat := lf w 1 15 0
def dClampC (w : Line) : Nat := lf w 1 31 16
def dScale (w : Line) : W32 := BitVec.ofNat 32 (lf w 1 63 32)
def dMask (w : Line) : W64 := lw w 2
def dSAddr (w : Line) : Nat := lf w 3 41 0 * 64
def dSStride (w : Line) : Nat := lf w 3 63 42 * 64
def dWAddr (w : Line) : Nat := lf w 4 41 0 * 64
def dWKStride (w : Line) : Nat := lf w 4 63 42 * 64
def dWscAddr (w : Line) : Nat := lf w 5 41 0 * 64
def dWNStride (w : Line) : Nat := lf w 5 63 42 * 64
def dSscAddr (w : Line) : Nat := lf w 6 41 0 * 64
def dWscKStride (w : Line) : Nat := lf w 6 63 42 * 64
def dDAddr (w : Line) : Nat := lf w 7 41 0 * 64
def dDNStride (w : Line) : Nat := lf w 7 63 42 * 64

/-- Density of a streamed format (R82, Table 3.1). -/
def density (wf : Nat) : Nat := if wf ≤ 1 then 1 else if wf = 6 then 4 else 2

/-- The pair of stationary and streamed formats is allowed (Table 3.1). -/
def pairOk (sf wf : Nat) : Bool :=
  if wf ≤ 1 then decide (sf ≤ 1)
  else if wf = 6 then [4, 5, 6].contains sf
  else if wf = 7 ∨ wf = 8 then decide (sf = 7 ∨ sf = 8)
  else if [2, 3, 4, 5, 0xA, 0xB].contains wf then [2, 3, 4, 5, 6, 0xA, 0xB].contains sf
  else false

/-- Both operands are INT8: the integer path (R121). -/
def intPath (w : Line) : Bool := dSFmt w == 8 && dWFmt w == 8

/-- Bits of an element of a stored tile (R88); FP32 takes 32. -/
def elemBits (c : Nat) : Nat :=
  if c ≤ 1 then 16 else if c = 4 ∨ c = 5 then 6 else if c = 6 then 4 else if c = 9 then 32 else 8

/-- Bytes of a stored tile (R88). -/
def tileBytes (c : Nat) : Nat := 512 * elemBits c

/-- Bits of an element of a streamed tile: MXFP6 sits in a byte (R88). -/
def streamBits (c : Nat) : Nat := if c = 4 ∨ c = 5 then 8 else elemBits c

/-- Index of an array as an agent. -/
def aryAgent (a : Nat) : Agent := .array ⟨a % 192, Nat.mod_lt _ (by omega)⟩

/-- The save area is valid: in Loess scratch of the array's own tower (R114). The base register keeps only
multiples of 64 KiB. -/
def saveValid (s : State) (a : Nat) : Bool :=
  match scratchOf s (s.getAry a).saveBase.toNat with
  | some (j, _) => j / 24 == a / 48
  | none => false

/-- The checks of R105 on a descriptor; `prev` is the active tile that its S_KEEP would use. -/
def descOk (s : State) (a : Nat) (d : ADesc) (prev : Option Tile) : Bool :=
  let w := d.words
  let common := lf w 0 63 62 == 0 && dClass w == d.cls.val && saveValid s a
  let out := decide (dOutFmt w < 0xC)
  if dOp w = 2 then common && dSyncEn w
  else if dOp w = 3 then
    common && out && decide (dRound w ≤ 1) && dN w != 0 && dMask w != 0 && decide (dN w + dAccOff w ≤ 512)
  else if dOp w = 1 then
    common && pairOk (dSFmt w) (dWFmt w) && (!dDest w || out) && decide (dRound w ≤ 1)
      && decide (32 ≤ dK w ∧ dK w ≤ 64 * density (dWFmt w) ∧ dK w % 32 = 0)
      && dN w != 0 && dMask w != 0
      && ((dDest w && !dAccum w) || decide (dN w + dAccOff w ≤ 512))
      && (!dSKeep w || match prev with
        | none => false
        | some t =>
          let l : Line := [t.w0]
          dSFmt l == dSFmt w && dSTrans l == dSTrans w && dPsumAxis l == dPsumAxis w && t.mask == dMask w
            && decide (dK w ≤ dK l))
  else false

/-! ### Reads of an array (R98, R244) -/

/-- What a read gives: the bytes, not yet, a translation fault, a bus error. -/
inductive ARes where
  | ok (bytes : List Byte)
  | wait
  | fault (va : Nat) (cause : Nat) (entry : W64) (level : Nat)
  | bus
deriving DecidableEq, Repr

/-- A "target resetting" reply: the array tries again, until ABF_RETRY_LIMIT has passed (R429). -/
def aryRetry (a : Nat) (s : State) : State × ARes :=
  match (s.getAry a).retryFrom with
  | none => (s.modAry a fun x => { x with retryFrom := some s.skt.time }, .wait)
  | some t => if retryLimitNs s ≤ now s - t.toNat then (s, .bus) else (s, .wait)

/-- Label of a descriptor's requests: its class and the deadline of the task that posted it (R98). -/
def descLabel (s : State) (d : ADesc) : Label := refLabel s d.cls.val d.task

/-- Read from another device: 64 bytes at a time, kept until the pass ends (R372). -/
def aryFar (a : Nat) (d : ADesc) (dest len : Nat) (s : State) : State × ARes :=
  let base := dest / 64 * 64
  match (s.getAry a).far.find? fun f => decide (f.addr = base) with
  | some f => (s, if f.bad then .bus else if f.tid.isSome then .wait else .ok ((f.data.drop (dest % 64)).take len))
  | none =>
    match issueRequest (a / 48) (aryAgent a) (reqPkt s (aryAgent a) 2 base 0 64 [] (some (descLabel s d))) s with
    | .held => (s, .wait)
    | .noRoute => (s, .bus)
    | .sent s1 n => (s1.modAry a fun x => { x with far := x.far ++ [{ addr := base, tid := some n, data := [] }] }, .wait)

/-- Read `len` bytes within one 64-byte block of context space. -/
def aryGet1 (a : Nat) (d : ADesc) (va len : Nat) (s : State) : State × ARes :=
  let (s1, r) := translate (a / 2) d.ctx.val (BitVec.ofNat 48 va) .read s
  match r with
  | .fault c e lv => (s1, .fault va c e lv)
  | .fabric dest => aryFar a d dest len s1
  | .local_ pa =>
    let (s2, e, bs, poison) := physRead (aryAgent a) pa len (descLabel s1 d) s1
    match e with
    | none => (s2, if poison then .bus else .ok bs)
    | some .discarded => (s2, .fault va 8 0 0xFF)
    | some .resetting => aryRetry a s2
    | some _ => (s2, .bus)

/-- Read bytes of context space, block by block. -/
def aryGetFrom : Nat → Nat → ADesc → Nat → Nat → State → State × ARes
  | 0, _, _, _, _, s => (s, .ok [])
  | fuel + 1, a, d, va, len, s =>
    if len = 0 then (s, .ok [])
    else
      let n := min len (64 - va % 64)
      let (s1, r) := aryGet1 a d va n s
      match r with
      | .ok bs =>
        match aryGetFrom fuel a d (va + n) (len - n) s1 with
        | (s2, .ok rest) => (s2, .ok (bs ++ rest))
        | x => x
      | e => (s1, e)

/-- Read `len` bytes (at most 256) at context address `va`. -/
def aryGet (a : Nat) (d : ADesc) (va len : Nat) (s : State) : State × ARes := aryGetFrom 6 a d (va % 2 ^ 48) len s

/-! ### The stationary tile (R84, R88, R89, R94, R95, R97) -/

/-- What a load or a feed gives, beside its data. -/
inductive Got (α : Type) where
  | ok (v : α)
  | wait
  | fault (kind va cause : Nat) (entry : W64) (level : Nat)
  | bus
deriving DecidableEq, Repr

/-- An array read as part of a larger one, with the fault kind of Table 3.8. -/
def Got.ofRes {α : Type} (kind : Nat) (r : ARes) (v : List Byte → α) : Got α :=
  match r with
  | .ok bs => .ok (v bs)
  | .wait => .wait
  | .fault va c e lv => .fault kind va c e lv
  | .bus => .bus

/-- Run reads in order, collecting their data; the first that is not ready ends the sequence. -/
def gather {α : Type} : List (State → State × Got α) → State → State × Got (List α)
  | [], s => (s, .ok [])
  | f :: r, s =>
    match f s with
    | (s1, .ok v) =>
      match gather r s1 with
      | (s2, .ok vs) => (s2, .ok (v :: vs))
      | x => x
    | (s1, .wait) => (s1, .wait)
    | (s1, .bus) => (s1, .bus)
    | (s1, .fault k va c e lv) => (s1, .fault k va c e lv)

/-- Cell of element (a, b) of a stored tile. -/
def cellOf (w : Line) (ra cb : Nat) : Nat × Nat := if dSTrans w then (cb, ra) else (ra, cb)

/-- Output row and reduction coordinate of a cell (R83). -/
def cellRow (w : Line) (c : Nat × Nat) : Nat × Nat := if dPsumAxis w then (c.2, c.1) else (c.1, c.2)

/-- Value `i` of the cell takes part: its row is enabled and its reduction index lies below K. -/
def cellUsed (w : Line) (i : Nat) (c : Nat × Nat) : Bool :=
  let rl := cellRow w c
  getBit (dMask w) rl.1 && decide (64 * i + rl.2 < dK w)

/-- Elements of stored row `ra` of tile `i` that are loaded. -/
def rowLoads (w : Line) (i ra : Nat) : List Nat := (List.range 64).filter fun cb => cellUsed w i (cellOf w ra cb)

/-- Runs of consecutive numbers of an ascending list: first number and length. -/
def elemRuns (l : List Nat) : List (Nat × Nat) :=
  l.foldl (fun r k =>
    match r.getLast? with
    | some (b, n) => if b + n = k then r.dropLast ++ [(b, n + 1)] else r ++ [(k, 1)]
    | none => [(k, 1)]) []

/-- Bytes of `n` elements of a stored row from element `b` on: offset in the row and length. -/
def runBytes (eb : Nat) (p : Nat × Nat) : Nat × Nat := (p.1 * eb / 8, ((p.1 + p.2) * eb + 7) / 8 - p.1 * eb / 8)

/-- Read one stored row of a tile: the encodings of its cells. Only the elements that are loaded are read, so that neither
orientation adds reads (R86). -/
def loadRow (a : Nat) (d : ADesc) (i ra : Nat) (s : State) : State × Got (List (Nat × BitVec 16)) :=
  let w := d.words
  let eb := elemBits (dSFmt w)
  let code (bs : List Byte) (b k : Nat) : Nat × BitVec 16 :=
    let c := cellOf w ra (b + k)
    ((64 * i + c.1) * 64 + c.2, BitVec.ofNat 16 ((ofLe bs >>> (b * eb % 8 + eb * k)) % 2 ^ eb))
  let (s1, g) := gather ((elemRuns (rowLoads w i ra)).map fun p => fun s =>
    let (s1, r) := aryGet a d (dSAddr w + i * dSStride w + ra * (8 * eb) + (runBytes eb p).1) (runBytes eb p).2 s
    (s1, Got.ofRes 1 r fun bs => (List.range p.2).map (code bs p.1))) s
  match g with
  | .ok v => (s1, .ok v.flatten)
  | .wait => (s1, .wait)
  | .bus => (s1, .bus)
  | .fault k va c e lv => (s1, .fault k va c e lv)

/-- Enabled rows of a mask. -/
def rowsOf (m : W64) : List Nat := (List.range 64).filter fun r => getBit m r

/-- Read the scale records of the stationary operand that are needed. -/
def loadScales (a : Nat) (d : ADesc) (s : State) : State × Got (List (Nat × Byte)) :=
  let w := d.words
  if !isMX (dSFmt w) || dSscAddr w == 0 then (s, .ok [])
  else
    let need := (List.range ((dK w + 31) / 32)).flatMap fun q =>
      (rowsOf (dMask w)).map fun c => (128 * (q / 2) + 64 * (q % 2) + c)
    let (s1, g) := gather (need.map fun k => fun s =>
      let (s1, r) := aryGet a d (dSscAddr w + k) 1 s
      (s1, Got.ofRes 3 r fun bs => (k, bs.headD 0))) s
    (s1, g)

/-- A table from a list of entries. -/
def tblFrom {α : Type} [DecidableEq α] (d : α) (l : List (Nat × α)) : Tbl α :=
  l.foldl (fun t e => Tbl.put d t e.1 e.2) []

/-- Load the stationary operand of a pass. -/
def loadTile (a : Nat) (d : ADesc) (s : State) : State × Got Tile :=
  let w := d.words
  let rows := (List.range (density (dWFmt w))).flatMap fun i =>
    (List.range 64).filterMap fun ra => if rowLoads w i ra = [] then none else some (i, ra)
  match gather (rows.map fun e => loadRow a d e.1 e.2) s with
  | (s1, .ok cells) =>
    match loadScales a d s1 with
    | (s2, .ok sc) =>
      (s2, .ok { w0 := lw w 0, w3 := lw w 3, w6 := lw w 6, mask := dMask w, ctx := d.ctx,
                 codes := tblFrom 0 cells.flatten, scales := tblFrom 0 sc })
    | (s2, .wait) => (s2, .wait)
    | (s2, .bus) => (s2, .bus)
    | (s2, .fault k va c e lv) => (s2, .fault k va c e lv)
  | (s1, .wait) => (s1, .wait)
  | (s1, .bus) => (s1, .bus)
  | (s1, .fault k va c e lv) => (s1, .fault k va c e lv)

/-- No tile. -/
def noTile : Tile := { w0 := 0, w3 := 0, w6 := 0, mask := 0, ctx := 0, codes := [], scales := [] }

/-- Value `i` of the cell of output row `r` at reduction position `l`, with its block scale (R119). -/
def tileValue (t : Tile) (r l i : Nat) : Num :=
  let w0 : Line := [t.w0]
  let c := if dPsumAxis w0 then (l, r) else (r, l)
  let v := elemValue (dSFmt w0) (Tbl.get 0 t.codes ((64 * i + c.1) * 64 + c.2)).toNat
  if isMX (dSFmt w0) && bits t.w6.toNat 41 0 != 0 then
    v.mul (scaleValue (Tbl.get 0 t.scales (128 * i + 64 * (l / 32) + r)).toNat)
  else v

/-! ### The streamed operand (R85, R89, R95) -/

/-- Element number of value (lane `l`, column `n`) in its stored streamed tile (R85, R88). -/
def feedElem (w : Line) (l n : Nat) : Nat := if dWTrans w then 64 * (n % 64) + l else 64 * l + n % 64

/-- Context address of the bytes of the value `i` that lane `l` offers for column `n` (R85). -/
def feedAddr (w : Line) (l i n : Nat) : Nat :=
  dWAddr w + i * dWKStride w + (n / 64) * dWNStride w + feedElem w l n * streamBits (dWFmt w) / 8

/-- Context address of its block scale (R89). -/
def feedScaleAddr (w : Line) (l i n : Nat) : Nat :=
  dWscAddr w + i * dWscKStride w + (n / 64) * 128 + 64 * (l / 32) + n % 64

/-- The streamed operand has scale records (R89). -/
def feedScaled (w : Line) : Bool := isMX (dWFmt w) && dWscAddr w != 0

/-- Read the value `i` that lane `l` offers for column `n`, with its block scale. -/
def feedValue (a : Nat) (d : ADesc) (l i n : Nat) (s : State) : State × Got Num :=
  let w := d.words
  let f := dWFmt w
  let sb := streamBits f
  let e := feedElem w l n
  let (s1, r) := aryGet a d (feedAddr w l i n) ((sb + 7) / 8) s
  match Got.ofRes 2 r fun bs => elemValue f (((ofLe bs) >>> (e * sb % 8)) % 2 ^ elemBits f) with
  | .ok v =>
    if feedScaled w then
      let (s2, r2) := aryGet a d (feedScaleAddr w l i n) 1 s1
      (s2, Got.ofRes 3 r2 fun bs => v.mul (scaleValue (ofLe bs)))
    else (s1, .ok v)
  | g => (s1, g)

/-- Lanes that carry a column in step `t` of a pass of `n` columns (R90). -/
def busyLanes (t n : Nat) : List Nat := (List.range 64).filter fun l => decide (l ≤ t ∧ t - l < n)

/-- Values (lane, value number, column) that lane `l` offers for column `n`: those whose reduction index lies below
K (R85, R95). -/
def offeredValues (w : Line) (l n : Nat) : List (Nat × Nat × Nat) :=
  (List.range (density (dWFmt w))).filterMap fun i => if 64 * i + l < dK w then some (l, i, n) else none

/-- The values that the lanes with a column offer in the pass's next step (R90). -/
def stepValues (r : PassRun) : List (Nat × Nat × Nat) :=
  (busyLanes r.t (dN r.desc.words)).flatMap fun l => offeredValues r.desc.words l (r.t - l)

/-- Read values of the streamed operand: lane, value number, value. -/
def feedValues (a : Nat) (d : ADesc) (need : List (Nat × Nat × Nat)) (s : State) :
    State × Got (List (Nat × Nat × Num)) :=
  gather (need.map fun e => fun s =>
    match feedValue a d e.1 e.2.1 e.2.2 s with
    | (s1, .ok v) => (s1, .ok (e.1, e.2.1, v))
    | (s1, .wait) => (s1, .wait)
    | (s1, .bus) => (s1, .bus)
    | (s1, .fault k va c en lv) => (s1, .fault k va c en lv)) s

/-- The values that all lanes with a column offer in the pass's next step. -/
def feedPass (a : Nat) (r : PassRun) (s : State) : State × Got (List (Nat × Nat × Num)) :=
  feedValues a r.desc (stepValues r) s

/-- Bytes that the feeders of the pass take from the home port in its next step: its values and their scale bytes
(R32, Table 3.1, R89). -/
def feedBytes (r : PassRun) : Nat :=
  let w := r.desc.words
  let n := (stepValues r).length
  (n * streamBits (dWFmt w) + 7) / 8 + (if feedScaled w then (n + 31) / 32 else 0)

/-- Bytes that the stationary load of a pass reads: of the elements of its cells, the same in either S_TRANS orientation (R84,
R86, R89, R94, R95). -/
def loadBytes (w : Line) : Nat :=
  let rows (i : Nat) : Nat := (List.range 64).foldl (fun n ra => n + (rowLoads w i ra).length) 0
  ((List.range (density (dWFmt w))).foldl (fun n i => n + rows i) 0 * elemBits (dSFmt w) + 7) / 8
    + if isMX (dSFmt w) && dSscAddr w != 0 then (dK w + 31) / 32 * (rowsOf (dMask w)).length else 0

/-! ### Partial sums (R114, R120, R121) -/

/-- The 5-byte entry of a partial sum. -/
def sumEntry (int : Bool) (x : Num) : BitVec 40 :=
  match x with
  | .nan => BitVec.ofNat 40 (3 * 2 ^ 35)
  | .inf neg => BitVec.ofNat 40 ((if neg then 2 else 1) * 2 ^ 35)
  | .fin neg m e =>
    if int then BitVec.ofNat 40 (ofInt 32 (let v : Int := m * 2 ^ e.toNat; if neg then -v else v))
    else if m = 0 then BitVec.ofNat 40 (b2n neg * 2 ^ 34)
    else
      let top := topExp m e
      let sig := if top - 23 ≤ e then m * 2 ^ (e - (top - 23)).toNat else m / 2 ^ ((top - 23) - e).toNat
      BitVec.ofNat 40 (sig + (top + 511).toNat * 2 ^ 24 + b2n neg * 2 ^ 34)

/-- The sum of an entry. -/
def entrySum (int : Bool) (v : BitVec 40) : Num :=
  let n := v.toNat
  if int then Num.ofInt (toInt 32 (bits n 31 0))
  else
    match bits n 36 35 with
    | 0 =>
      let sig := bits n 23 0
      if sig = 0 then .fin (bit n 34) 0 0 else .fin (bit n 34) sig ((bits n 33 24 : Int) - 511 - 23)
    | 1 => .inf false
    | 2 => .inf true
    | _ => .nan

/-- Sum that leaves reduction position `l` for output row `r` in this step. -/
def leaveSum (x : PassRun) (vals : List (Nat × Nat × Num)) (r l : Nat) : Num :=
  let int := intPath x.desc.words
  let old := if l = 0 then Num.zero else entrySum int (Tbl.get 0 x.psum (64 * r + (l - 1)))
  if dK x.desc.words ≤ l then old
  else
    let ps := (vals.filter fun v => v.1 == l).map fun v => (tileValue x.tile r l v.2.1).mul v.2.2
    let sum := Num.add old (Num.sum ps)
    if int then sum else round24 sum

/-- The partial sums after the pass's next step; position 63's sum is in the drain. -/
def nextSums (x : PassRun) (vals : List (Nat × Nat × Num)) : Tbl (BitVec 40) :=
  let w := x.desc.words
  let ls := (busyLanes x.t (dN w)).filter (· < 63)
  (List.range 64).flatMap fun r =>
    if getBit (dMask w) r then
      ls.filterMap fun l =>
        let e := sumEntry (intPath w) (leaveSum x vals r l)
        if e = 0 then none else some (64 * r + l, e)
    else []

/-! ### Staging blocks and what a run still has to write (R113, R114) -/

/-- Columns that the drain has accepted of a pass. -/
def accepted (r : PassRun) : Nat := min (dN r.desc.words) (r.t - 63)

/-- Blocks closed for writing, of `n` columns with `k` accepted. -/
def closedBlocks (k n : Nat) : Nat := if k = n then (n + 63) / 64 else k / 64

/-- Blocks already committed, of `n` columns with N_done `k`. -/
def doneBlocks (k n : Nat) : Nat := if k = n then (n + 63) / 64 else k / 64

/-- Closed blocks of a pass not yet committed. -/
def passOpen (r : PassRun) : Nat :=
  let n := dN r.desc.words
  if dDest r.desc.words then closedBlocks (accepted r) n - doneBlocks r.done n else 0

/-- Closed blocks of an ACC_OUT not yet committed. -/
def accOpen (r : AccRun) : Nat :=
  let n := dN r.desc.words
  closedBlocks r.n n - doneBlocks r.done n

/-- The passes taken and not ended, in FIFO order (R91). -/
def passRuns (x : Array) : List PassRun := x.cur.toList ++ x.next

/-- Replace pass `i` of them. -/
def setRun (i : Nat) (r : PassRun) (x : Array) : Array :=
  match i with
  | 0 => { x with cur := some r }
  | k + 1 => { x with next := setAt x.next k r }

/-- Full staging blocks, 0 to 2 (Table 3.8). -/
def fullBlocks (x : Array) : Nat :=
  (passRuns x).foldl (fun n r => n + passOpen r) ((x.accRun.map accOpen).getD 0)

/-- Columns of a pass in the block being filled. -/
def passFill (r : PassRun) : Nat :=
  if dDest r.desc.words && decide (accepted r < dN r.desc.words) then accepted r % 64 else 0

/-- Columns in the block being filled. -/
def fillCols (x : Array) : Nat :=
  let ps := (((passRuns x).map passFill).find? (0 < ·)).getD 0
  match x.accRun with
  | some r => if r.n < dN r.desc.words then r.n % 64 else ps
  | none => ps

/-- A pass has done everything but end: all columns drained and, with DEST 1, all blocks committed. -/
def passDone (r : PassRun) : Bool :=
  let n := dN r.desc.words
  decide (n + 63 ≤ r.t) && (!dDest r.desc.words || decide (r.done = n))

/-- Memory writes of the descriptors before pass `i` are still to come. -/
def writesDue (x : Array) (i : Nat) : Bool :=
  (match x.accRun with | some r => decide (r.done < dN r.desc.words) | none => false)
    || ((passRuns x).take i).any fun r => dDest r.desc.words && decide (r.done < dN r.desc.words)

/-- Pass `i` may read: with RD_FENCE, once every memory write of the earlier descriptors has committed (Table 3.4, R106). -/
def mayRead (x : Array) (i : Nat) (r : PassRun) : Bool := !dRdFence r.desc.words || !writesDue x i

/-- Put one column of values into the filling block. -/
def stageCol (x : Array) (full c : Nat) (vals : List (Nat × W32)) : Array :=
  let put (t : Tbl W32) : Tbl W32 := vals.foldl (fun t v => Tbl.put 0 t (64 * v.1 + c) v.2) t
  if full = 0 then { x with stA := put x.stA } else { x with stB := put x.stB }

/-- The drain accepts column `n` of a pass: the sums that leave position 63 (R101, R122). A column whose accumulator
update was made before the pass went back to the FIFO is not updated again (R113, R518; DESIGN CHOICE, log 81). -/
def drainCol (x : Array) (full : Nat) (r : PassRun) (n : Nat) (sums : List (Nat × Num)) : Array :=
  let w := r.desc.words
  let key (row : Nat) : Nat := 512 * row + dAccOff w + n
  let res (v : Nat × Num) : Nat × W32 :=
    (v.1, toF32 (if dAccum w then Num.add (ofF32 (Tbl.get 0 x.acc (key v.1))) v.2 else v.2))
  let out := sums.map res
  if dDest w then stageCol x full (n % 64) out
  else if n < r.desc.made then x
  else
    let zero := if dZeroFill w then ((List.range 64).filter fun row => !getBit (dMask w) row).map fun row => (row, (0 : W32)) else []
    { x with acc := (out ++ zero).foldl (fun t v => Tbl.put 0 t (key v.1) v.2) x.acc }

/-- One completed step of a pass: the sums move, and the drain accepts where a column leaves. -/
def movePass (x : Array) (full : Nat) (r : PassRun) (vals : List (Nat × Nat × Num)) : Array × PassRun :=
  let w := r.desc.words
  let r1 := { r with t := r.t + 1, psum := nextSums r vals }
  if 63 ≤ r.t ∧ r.t - 63 < dN w then
    let n := r.t - 63
    let x1 := drainCol x full r n ((rowsOf (dMask w)).map fun row => (row, leaveSum r vals row 63))
    (x1, if dDest w then r1 else { r1 with done := max r.done (n + 1) })
  else (x, r1)

/-! ### The epilogue of one block (R102, R103, R127 to R136) -/

/-- One 16-bit draw (R134). -/
def draw16 (x : Array) : Nat × Array :=
  if x.drawLeft = 0 then
    let (a, b, w) := next64 x.s0 x.s1
    (w.toNat % 65536, { x with s0 := a, s1 := b, drawWord := w >>> 16, drawLeft := 3 })
  else (x.drawWord.toNat % 65536, { x with drawWord := x.drawWord >>> 16, drawLeft := x.drawLeft - 1 })

/-- v of staged element (r, c) (R127). -/
def stagedV (x : Array) (w : Line) (r c : Nat) : Num :=
  epiValue (dScale w) (dClamp w) (dClampC w) (ofF32 (Tbl.get 0 x.stA (64 * r + c)))

/-- The block's scale for row `r`, half `h`, of `cols` columns: none where it reads as NaN (R130, R131). -/
def blockScale (x : Array) (w : Line) (cols r h : Nat) : Option (Nat × Int) :=
  mxScale (dOutFmt w) (((List.range 32).filter fun k => 32 * h + k < cols).map fun k => stagedV x w r (32 * h + k))

/-- Every staged value of the half is zero. -/
def blockZero (x : Array) (w : Line) (cols r h : Nat) : Bool :=
  ((List.range 32).filter fun k => 32 * h + k < cols).all fun k =>
    match stagedV x w r (32 * h + k) with
    | .fin _ m _ => m == 0
    | _ => false

/-- Encoding of element (r, c) under a rounding mode. -/
def encodeElem (x : Array) (w : Line) (cols r c : Nat) (rm : RoundMode) : Nat :=
  let f := dOutFmt w
  let v := stagedV x w r c
  if isMX f then
    match blockScale x w cols r (c / 32) with
    | none => 0
    | some (_, e) => if blockZero x w cols r (c / 32) then 0 else mxElem f rm e v
  else epiPlain f rm v

/-- Encodings of the block, columns ascending and enabled rows ascending within a column, drawing one value
for each where ROUND is 1 (R133, R135). -/
def encodeBlock (x : Array) (w : Line) (cols : Nat) : Array × Tbl Nat :=
  ((List.range cols).flatMap fun c => (rowsOf (dMask w)).map fun r => (r, c)).foldl (fun p e =>
    if dRound w = 1 then
      let (v, y) := draw16 p.1
      (y, Tbl.put 0 p.2 (64 * e.1 + e.2) (encodeElem x w cols e.1 e.2 (.draw v)))
    else (p.1, Tbl.put 0 p.2 (64 * e.1 + e.2) (encodeElem x w cols e.1 e.2 .rne))) (x, [])

/-- A piece of a block write: context address, bytes, and how many bits of the last byte are written. -/
structure Piece where
  va : Nat
  data : List Byte
  tail : Nat
deriving DecidableEq, Repr

/-- Pieces of the write of block `b` with `cols` columns from its encodings (R88, R94, R96, R103, R130). -/
def blockPieces (x : Array) (w : Line) (b cols : Nat) (enc : Tbl Nat) : List Piece :=
  let f := dOutFmt w
  let eb := elemBits f
  let base := dDAddr w + b * dDNStride w
  let rows := (List.range 64).filter fun r => getBit (dMask w) r || dZeroFill w
  let rowNum (r : Nat) : Nat := (List.range cols).foldl (fun n c => n + Tbl.get 0 enc (64 * r + c) * 2 ^ (eb * c)) 0
  let data := rows.map fun r =>
    ({ va := base + r * (8 * eb), data := leBytes ((cols * eb + 7) / 8) (rowNum r), tail := cols * eb % 8 } : Piece)
  let scale (r h : Nat) : Byte :=
    if !getBit (dMask w) r then 0
    else match blockScale x w cols r h with
      | none => 0xFF
      | some (k, _) => if blockZero x w cols r h then 0 else BitVec.ofNat 8 k
  let scales := if isMX f then
      ((List.range 2).filter fun h => 32 * h < cols).flatMap fun h =>
        rows.map fun r => ({ va := base + tileBytes f + 64 * h + r, data := [scale r h], tail := 0 } : Piece)
    else []
  data ++ scales

/-- Cut a piece at 64-byte boundaries. -/
def cutPiece : Nat → Piece → List Piece
  | 0, _ => []
  | n + 1, p =>
    if p.data = [] then []
    else
      let k := min p.data.length (64 - p.va % 64)
      if k = p.data.length then [p]
      else { p with data := p.data.take k, tail := 0 } :: cutPiece n { p with va := p.va + k, data := p.data.drop k }

/-- Where a piece goes. -/
structure Target where
  far : Bool
  addr : Nat
  piece : Piece
deriving DecidableEq, Repr

/-- Translate every piece of a block before any is written. -/
def xlatePieces (a : Nat) (d : ADesc) : List Piece → State → State × Got (List Target)
  | [], s => (s, .ok [])
  | p :: r, s =>
    let (s1, x) := translate (a / 2) d.ctx.val (BitVec.ofNat 48 p.va) .write s
    match x with
    | .fault c e lv => (s1, .fault 4 (p.va % 2 ^ 48) c e lv)
    | .local_ pa =>
      match xlatePieces a d r s1 with
      | (s2, .ok ts) => (s2, .ok ({ far := false, addr := pa, piece := p } :: ts))
      | z => z
    | .fabric dest =>
      match xlatePieces a d r s1 with
      | (s2, .ok ts) => (s2, .ok ({ far := true, addr := dest, piece := p } :: ts))
      | z => z

/-- Merge the last byte of a piece with what memory holds above its written bits (R96). -/
def mergeTail (p : Piece) (old : Byte) : List Byte :=
  if p.tail = 0 then p.data
  else setAt p.data (p.data.length - 1)
    (BitVec.ofNat 8 ((p.data.getLast?.getD 0).toNat % 2 ^ p.tail + old.toNat / 2 ^ p.tail * 2 ^ p.tail))

/-- Fill in the last bytes of the pieces that are read before they are written. -/
def readTails (a : Nat) (d : ADesc) : List Target → State → State × Got (List Target)
  | [], s => (s, .ok [])
  | t :: r, s =>
    let done (s : State) (old : Byte) : State × Got (List Target) :=
      match readTails a d r s with
      | (s2, .ok ts) => (s2, .ok ({ t with piece := { t.piece with data := mergeTail t.piece old, tail := 0 } } :: ts))
      | z => z
    if t.piece.tail = 0 then done s 0
    else
      let at_ := t.addr + t.piece.data.length - 1
      if t.far then
        match aryFar a d at_ 1 s with
        | (s1, .ok bs) => done s1 (bs.headD 0)
        | (s1, .wait) => (s1, .wait)
        | (s1, _) => (s1, .bus)
      else
        let (s1, e, bs, _) := physRead (aryAgent a) at_ 1 (descLabel s d) s
        match e with
        | none => done s1 (bs.headD 0)
        | some .resetting => match aryRetry a s1 with
          | (s2, .bus) => (s2, .bus)
          | (s2, _) => (s2, .wait)
        | some .discarded => (s1, .fault 4 ((t.piece.va + t.piece.data.length - 1) % 2 ^ 48) 8 0 0xFF)
        | some _ => (s1, .bus)

/-- Write the local targets; the Bool says that one of them met an error. -/
def writeTargets (a : Nat) (d : ADesc) (ts : List Target) (s : State) : State × Bool :=
  ts.foldl (fun p t =>
    if t.far then p
    else
      let (s1, e) := physWrite (aryAgent a) t.addr t.piece.data (descLabel p.1 d) p.1
      (s1, p.2 || e.isSome)) (s, false)

/-- Write block `b` of a run from staging block A: the encodings are made, every piece is translated, then
all are written; pieces for other devices go out as PUTs whose TIDs are answered. Where a local piece meets an error or a
piece has no route, no piece is written (R113: columns at or beyond N_done stay untouched). -/
def writeBlock (a : Nat) (d : ADesc) (b cols : Nat) (s : State) : State × Got (List Nat) :=
  let x := s.getAry a
  let (y, enc) := encodeBlock x d.words cols
  match xlatePieces a d ((blockPieces x d.words b cols enc).flatMap (cutPiece 6)) s with
  | (s1, .ok ts) =>
    if (ts.any fun t => !t.far && targetResetting s1 t.addr) then
      match aryRetry a s1 with
      | (s2, .bus) => (s2, .bus)
      | (s2, _) => (s2, .wait)
    else
      match readTails a d ts s1 with
      | (s2, .ok ts) =>
        let drawn (s : State) : State := s.modAry a fun z =>
          { z with s0 := y.s0, s1 := y.s1, drawWord := y.drawWord, drawLeft := y.drawLeft }
        let far := ((ts.filter (·.far)).zipIdx).map fun t =>
          (t.2, reqPkt s2 (aryAgent a) 1 t.1.addr 0 0 t.1.piece.data (some (descLabel s2 d)))
        match issueAll (a / 48) (aryAgent a) far s2 with
        | .held => (s2, .wait)
        | .sent s3 tids bad =>
          let (s4, err) := writeTargets a d ts s3
          if err || !bad.isEmpty then
            let local_ := ts.filter fun t => !t.far
            (drawn (forL local_ (fun t s => probeWrite t.addr t.piece.data.length (descLabel s d) s) s2), .bus)
           else (drawn s4, .ok (tids.map (·.2)))
      | (s2, .wait) => (s2, .wait)
      | (s2, .bus) => (s2, .bus)
      | (s2, .fault k va c e lv) => (s2, .fault k va c e lv)
  | (s1, .wait) => (s1, .wait)
  | (s1, .bus) => (s1, .bus)
  | (s1, .fault k va c e lv) => (s1, .fault k va c e lv)

end Sys2Proof.Machine
end

