-- ==== Sys2Proof/Machine/GroupIssue.lean ====
section
/-! DEFINITION. Issue: which groups issue, the fetch of their instructions, the register cache, and the
active slots (R140 to R146, R180). -/

namespace Sys2Proof.Machine
open Sys2Proof

/-! ### Tasks and the issue order (R142) -/

/-- An entry of a partition's admitted-task table. -/
def taskAt (s : State) (t : TaskRef) : Option Task := Tbl.get none (s.getPart t.p.val).tasks t.e.val

/-- The task of a group. -/
def groupTask (s : State) (g : Group) : Option Task := g.task.bind (taskAt s)

/-- The task is served as real-time: a real-time class, not demoted (R279, R295). -/
def Task.live (t : Task) : Bool := t.rt && !t.demoted

/-- Standing of a slot in the order of R142: real-time first, then deadline, then class. -/
def issueKey (s : State) (site slot : Nat) : Bool × Nat × Nat :=
  let g := s.getGrp (gIx site slot)
  match groupTask s g with
  | some t => if t.live then (true, t.deadline, t.cls.val) else (false, 0, 0)
  | none => (false, 0, 0)

/-- Key `a` goes before key `b`. -/
def keyBefore (a b : Bool × Nat × Nat) : Bool :=
  if a.1 != b.1 then a.1
  else decide (a.2.1 < b.2.1) || (decide (a.2.1 = b.2.1) && decide (a.2.2 < b.2.2))

/-- Choose among requesters: the best keys, ties by the token; the token then stands at the first losing
input after the winner (R79). -/
def pickSlot (s : State) (site tok : Nat) (l : List Nat) : Option (Nat × Nat) :=
  match l with
  | [] => none
  | _ =>
    let best := l.filter fun i => l.all fun j => !keyBefore (issueKey s site j) (issueKey s site i)
    let w := tokenFirst 24 tok best
    let losers := best.filter (· ≠ w)
    some (w, if losers.isEmpty then tok else tokenFirst 24 (w + 1) losers)

/-! ### Instruction classes (Table 5.2) -/

/-- Units of Table 5.2: 0 VALU, 1 SFU, 2 LSU, 3 CTRL, 4 XU, 5 DOT; none for an unlisted opcode. -/
def opUnit (op : Nat) : Option Nat :=
  if op ≤ 0x2F then some 0
  else if op ≤ 0x3F then some 1
  else if op ≤ 0x4F then some 2
  else if op ≤ 0x5F then some 3
  else if op = 0x60 ∨ op = 0x61 then some 4
  else if op = 0x62 then some 5
  else if op = 0x68 ∨ op = 0x69 then some 2
  else if op = 0x6C ∨ op = 0x6D ∨ op = 0x6E then some 3
  else if op = 0x70 ∨ op = 0x71 then some 3
  else if 0x78 ≤ op ∧ op ≤ 0x7D then some 3
  else none

/-- Units per core (Table 5.2). -/
def unitCount (u : Nat) : Nat := if u = 0 then 2 else 1

/-- Source registers of an instruction. Those of the classes whose listing is outside the manual are the listing's (`u`), with
the address of a context or shared access, which the model places in SA (log 7). A 64-bit operand counts as two (R145). -/
def srcRegs (u : RegUse) (w : W64) : List Nat :=
  let op := iOpc w
  if op ≤ 0x5F then
    (if 0x40 ≤ op ∧ op ≤ 0x47 then [iSa w, iSa w + 1] else if 0x48 ≤ op ∧ op ≤ 0x4F then [iSa w] else []) ++ u.reads.map (·.val)
  else if op = 0x60 then
    (if bit w.toNat 53 then [iSa w, iSa w + 1] else [iSa w]) ++ (if bit w.toNat 47 then [] else [iSb w])
  else if op = 0x61 then
    (if ib w 46 45 = 3 then (if bit w.toNat 52 then [iSa w, iSa w + 1] else [iSa w]) else [])
  else if op = 0x68 ∨ op = 0x69 then
    let d := ib w 51 49 = 2 ∨ ib w 51 49 = 3
    (if bit w.toNat 52 then [iSa w] else [iSa w, iSa w + 1])
      ++ (if d then [iSb w, iSb w + 1] else [iSb w])
      ++ (if ib w 48 45 = 7 then (if d then [iSc w, iSc w + 1] else [iSc w]) else [])
  else if op = 0x70 ∨ op = 0x71 then [iSa w, iSa w + 1]
  else if op = 0x78 ∨ op = 0x7A ∨ op = 0x7B then [iSa w, iSa w + 1, iSb w, iSb w + 1]
  else if op = 0x79 ∨ op = 0x7C ∨ op = 0x7D then [iSb w, iSb w + 1]
  else []

/-- Destination registers of an instruction. -/
def dstRegs (u : RegUse) (w : W64) : List Nat :=
  let op := iOpc w
  let d := iDst w
  if op ≤ 0x5F then u.writes.map (·.val)
  else if op = 0x60 then (if bit w.toNat 53 then [d, d + 1] else [d])
  else if op = 0x61 then (if 2 ≤ ib w 46 45 then [d] else [])
  else if op = 0x68 then (if ib w 51 49 = 2 ∨ ib w 51 49 = 3 then [d, d + 1] else [d])
  else if op = 0x6E ∨ op = 0x79 then [d, d + 1]
  else if op = 0x7A ∨ op = 0x7D then (if bit w.toNat 45 then [d] else [])
  else if op = 0x7B then [d, d + 1, d + 2, d + 3]
  else if op = 0x7C then [d, d + 1, d + 2]
  else []

/-- Source registers of the group matrix instruction (R161, Table 5.9). -/
def mmaSources (w : W64) : List Nat :=
  let n := if ib w 48 45 ≤ 1 then 4 else 2
  (List.range n).map (iSa w + ·) ++ (List.range n).map (iSb w + ·) ++ (if bit w.toNat 49 then (List.range 8).map (iSc w + ·) else [])

/-! ### The register cache (R145, R146) -/

/-- Make register `v` the most recently used entry of a cache of 8; a write marks it dirty. -/
def touchReg (c : List (Nat × Bool)) (v : Nat) (write : Bool) : List (Nat × Bool) :=
  let was := (c.find? fun e => e.1 = v).map (·.2)
  ((v, write || was.getD false) :: c.filter fun e => e.1 ≠ v).take 8

/-- The cache after an instruction: sources, then destinations. The group matrix instruction goes round the
cache: its operands are written back, copies of its destination dropped. -/
def cacheAfter (c : List (Nat × Bool)) (u : RegUse) (w : W64) : List (Nat × Bool) :=
  if iOpc w = 0x62 then
    let opd := mmaSources w
    let d := (List.range 8).map (iDst w + ·)
    (c.map fun e => if e.1 ∈ opd then (e.1, false) else e).filter fun e => !(d.contains e.1)
  else
    let c1 := (srcRegs u w).foldl (fun c v => touchReg c v false) c
    (dstRegs u w).foldl (fun c v => touchReg c v true) c1

/-- Misses of an instruction in each of the 4 banks. -/
def bankMisses (c : List (Nat × Bool)) (u : RegUse) (w : W64) : List Nat :=
  let miss := ((srcRegs u w).eraseDups).filter fun v => !(c.any fun e => e.1 = v)
  (List.range 4).map fun b => (miss.filter fun v => v % 4 = b).length

/-- Steps added to an instruction whose bank reads follow the reads `before` of the step's earlier one. -/
def missSteps (before mine : List Nat) : Nat :=
  (List.range 4).foldl (fun m b => if mine.getD b 0 = 0 then m else max m (before.getD b 0 + mine.getD b 0)) 0

/-! ### Fetch and issue (R141, R174) -/

/-- Registers that a pending load has still to write. -/
def pendingRegs (g : Group) : List Nat := g.loads.flatMap fun l => l.writes.map (·.1)

/-- The site's engine may issue: the site is running, in service and not in a block reset (Table 8.19,
R431). -/
def siteIssues (s : State) (site : Nat) : Bool :=
  let x := s.getSite site
  decide (x.mode ≠ 1 ∧ x.mode ≠ 3 ∧ x.mode ≠ 4) && !getBit x.blkBusy 3 && !inReset s (site / 24)

/-- Slot `k` can be asked for an instruction. -/
def canIssue (s : State) (site k : Nat) : Bool :=
  let g := s.getGrp (gIx site k)
  g.slotted && decide (g.mode = .ready) && g.issued.isNone && siteIssues s site

/-- Fetch of a group's next word. -/
inductive Fetch where
  | word (w : W64)
  | stop                            -- the group has parked or halted, or its fetch waits
deriving DecidableEq, Repr

/-- Fetch the word at the group's program counter through translation with fetch permission; a word that is
no valid opcode raises ILLEGAL (R140, R143, R174). -/
def fetchWord (site k : Nat) (s : State) : State × Fetch :=
  let i := gIx site k
  let g := s.getGrp i
  let lane := lowLane g.exec
  let (s1, r) := translate site g.ctx.toNat g.pc .fetch s
  match r with
  | .fault c e lv => (groupFault site k lane g.pc .fetch c e lv s1, .stop)
  | .fabric _ => (groupHalt i 8 lane g.pc.toNat s1, .stop)
  | .local_ pa =>
    let (s2, e, bs, _) := physRead (.group ⟨site % 96, Nat.mod_lt _ (by omega)⟩ ⟨k % 24, Nat.mod_lt _ (by omega)⟩) pa 8 (refLabel s1 g.cls.toNat g.task) s1
    match e with
    | some .resetting => (s2, .stop)
    | some .discarded => (groupFault site k lane g.pc .fetch 8 0 0xFF s2, .stop)
    | some _ => (groupHalt i 8 lane g.pc.toNat s2, .stop)
    | none =>
      let w := BitVec.ofNat 64 (ofLe bs)
      if (opUnit (iOpc w)).isNone then (groupHalt i 1 lane g.pc.toNat s2, .stop)
      else (s2, .word w)

/-- The instruction waits for a source register that a load has still to write (R141). -/
def waitsForLoad (g : Group) (u : RegUse) (w : W64) : Bool :=
  (srcRegs u w ++ (if iOpc w = 0x62 then mmaSources w else [])).any fun v => (pendingRegs g).contains v

/-- Issue instruction `w` of slot `k`: it stands issued, its cache is updated and its missing fills are
counted; answers the bank reads so far. -/
def issueOne (site k : Nat) (u : RegUse) (w : W64) (before : List Nat) (s : State) : State × List Nat :=
  let i := gIx site k
  let c := (s.getGrp i).cache
  let mine := bankMisses c u w
  let steps := missSteps before mine
  let s1 := s.modGrp i fun g => { g with issued := some w, stall := false, cache := cacheAfter c u w }
  (s1.modSite site fun x => { x with rcMiss := x.rcMiss + BitVec.ofNat 32 steps },
    (List.range 4).map fun b => before.getD b 0 + mine.getD b 0)

/-- Register use that the listing gives for the next instruction of slot `k`. -/
def useOf (ready : List (Slot × RegUse)) (k : Nat) : RegUse :=
  match ready.find? fun r => r.1.val = k with
  | some r => r.2
  | none => { reads := [], writes := [] }

/-- Take up to two instructions in the order of R142; `used` are the units taken. -/
def issueLoop (ready : List (Slot × RegUse)) : Nat → Nat → List Nat → List Nat → List Nat → Nat → State → State × Nat
  | 0, _, _, _, _, n, s => (s, n)
  | fuel + 1, site, cand, used, banks, n, s =>
    if 2 ≤ n then (s, n)
    else
      match pickSlot s site (s.getSite site).token cand with
      | none => (s, n)
      | some (k, tok) =>
        let rest := cand.filter (· ≠ k)
        let (s1, f) := fetchWord site k s
        match f with
        | .stop => issueLoop ready fuel site rest used banks n s1
        | .word w =>
          let u := (opUnit (iOpc w)).getD 0
          if waitsForLoad (s1.getGrp (gIx site k)) (useOf ready k) w then
            issueLoop ready fuel site rest used banks n (stallGroup (gIx site k) s1)
          else if unitCount u ≤ used.count u then issueLoop ready fuel site rest used banks n s1
          else
            let s2 := s1.modSite site fun x => { x with token := tok }
            let (s3, b) := issueOne site k (useOf ready k) w banks s2
            issueLoop ready fuel site rest (u :: used) b (n + 1) s3

/-- INSTRUCTION_ISSUE (R141, R142, R145, R146): one issue step of a site; `ready` are the slots whose result
latencies and fills have elapsed, with the register use that the listing gives for an instruction of the classes 0x00 to 0x5F.
Active groups that wait count a held step, and one that does not starts anew (R49, R144). -/
def execInstructionIssue (site : Site) (ready : List (Slot × RegUse)) (s : State) : Host.Outcome State Fault Refusal :=
  let j := site.val
  if !siteInService s j || !siteIssues s j then ok s
  else if paceHolds s (j / 24) (48 + j % 24) then ok (paceDelay (j / 24) (48 + j % 24) s)
  else
    let cand := ((List.range 24).filter fun k => ready.any fun r => r.1.val = k).filter (canIssue s j)
    let (s1, n) := issueLoop ready 24 j cand [] [0, 0, 0, 0] 0 (paceStart (j / 24) (48 + j % 24) s)
    let s2 := forN 24 (fun k s =>
      let g := s.getGrp (gIx j k)
      if g.slotted then s.modGrp (gIx j k) fun g => { g with heldFor := if waits g then g.heldFor + 1 else 0 } else s) s1
    ok (s2.modSite j fun x => { x with idle := x.idle + BitVec.ofNat 32 (2 - n) })

/-- Active slots in use. -/
def activeCount (s : State) (site : Nat) : Nat :=
  ((List.range 24).filter fun k => (s.getGrp (gIx site k)).slotted).length

/-- A resident group that is ready and has no active slot. -/
def waitsForSlot (s : State) (site k : Nat) : Bool :=
  let g := s.getGrp (gIx site k)
  decide (g.mode = .ready) && !g.slotted && !waits g

/-- GROUP_ACTIVATE (R142, R144): a ready resident group takes a free active slot. -/
def execGroupActivate (site : Site) (ready : List Slot) (s : State) : Host.Outcome State Fault Refusal :=
  let j := site.val
  let cand := ((List.range 24).filter fun k => ready.any fun r => r.val = k).filter (waitsForSlot s j)
  if 6 ≤ activeCount s j || !siteIssues s j then ok s
  else
    match pickSlot s j (s.getSite j).token cand with
    | none => ok s
    | some (k, tok) =>
      ok ((s.modSite j fun x => { x with token := tok }).modGrp (gIx j k) fun g => { g with slotted := true, cache := [] })

/-- ACTIVE_SLOT_RELEASE (R144, R146): with every active slot taken and an inactive group ready, the active
group held longest, for at least 32 steps, gives up its slot. -/
def execActiveSlotRelease (site : Site) (ready : List Slot) (s : State) : Host.Outcome State Fault Refusal :=
  let j := site.val
  let waiting := (List.range 24).any fun k => (ready.any fun r => r.val = k) && waitsForSlot s j k
  let old := (List.range 24).filter fun k =>
    let g := s.getGrp (gIx j k)
    g.slotted && waits g && decide (32 ≤ g.heldFor)
  if activeCount s j < 6 || !waiting then ok s
  else
    match old with
    | [] => ok s
    | a :: r =>
      let k := r.foldl (fun b i =>
        if (s.getGrp (gIx j b)).heldFor < (s.getGrp (gIx j i)).heldFor then i else b) a
      ok (s.modGrp (gIx j k) fun g => { g with slotted := false, cache := [] })

end Sys2Proof.Machine
end

