-- ==== Sys2Proof/Machine/GroupExec.lean ====
section
/-! DEFINITION. Instructions that act on a group alone: arithmetic, special reads, shuffles, votes, the group
matrix instruction, branches, exit, trap, fences, barriers and device time (R138 to R140, R150 to R154,
R161 to R164, R168, R171, R172, R178, R180). -/

namespace Sys2Proof.Machine
open Sys2Proof

/-- ILLEGAL at an instruction (Table 5.5). -/
def illegal (i : Nat) (w : W64) (s : State) : State :=
  let g := s.getGrp i
  groupHalt i 1 (excLaneOf (actLanes g w)) g.pc.toNat s

/-- Raise an exception that is no memory exception: R175 gives it no address, and the model reports the program counter (DESIGN
CHOICE, log 83). -/
def raise (i code : Nat) (w : W64) (s : State) : State :=
  let g := s.getGrp i
  groupHalt i code (excLaneOf (actLanes g w)) g.pc.toNat s

/-- Instruction `w` with opcode in `lo` to `hi` runs on the slot. -/
def runsOp (s : State) (site slot : Nat) (w : W64) (lo hi : Nat) : Bool :=
  runs s site slot w && decide (lo ≤ iOpc w ∧ iOpc w ≤ hi)

/-- `n` free values from the draw counter on (log 6). -/
def freeAt (s : State) (k : Nat) : Nat := (Config.freeValue (s.tick + k)).toNat

/-- Use up `n` free values. -/
def useFree (n : Nat) (s : State) : State := { s with tick := s.tick + n }

/-! ### Arithmetic (R143, R178) -/

/-- Square root of a number, rounded down, from bit `b` on. -/
def rootFrom : Nat → Nat → Nat → Nat
  | 0, _, r => r
  | b + 1, n, r => rootFrom b n (if (r + 2 ^ b) * (r + 2 ^ b) ≤ n then r + 2 ^ b else r)

/-- FP32 encoding of the nonzero value m · 2^e, or of a little more where `more` holds: the value itself where FP32 has it, a
subnormal one included (R178), else one of the two FP32 values next to it. Which of the two, the listing says: a free value
(DESIGN CHOICE, log 7). -/
def fpNear (neg : Bool) (m : Nat) (e : Int) (more : Bool) (free : Nat) : Nat :=
  let lo := max (topExp m e - 23) (-149)
  let q := if lo ≤ e then m * 2 ^ (e - lo).toNat else m / 2 ^ (lo - e).toNat
  let exact := !more && decide (lo ≤ e ∨ m % 2 ^ (lo - e).toNat = 0)
  let c := (lo + 149).toNat * 2 ^ 23 + q
  b2n neg * 2 ^ 31 + (if 0x7F800000 ≤ c then 0x7F7FFFFF + free % 2 else c + (if exact then 0 else free % 2))

/-- FP32 result from its exact value. What a special value gives, and the sign of a zero that is no product's or like-signed
sum's, are the listing's: free values (log 7). `zero` is the sign of a zero result, where it is known. -/
def fpResult (v : Num) (zero : Option Bool) (free : Nat) : Nat :=
  match v with
  | .fin neg m e => if m = 0 then b2n (zero.getD (free % 2 == 1)) * 2 ^ 31 else fpNear neg m e false free
  | _ => free % 2 ^ 32

/-- FP32 quotient; of a zero divisor or a special value a free value. -/
def fpQuot (x y : Num) (free : Nat) : Nat :=
  match x, y with
  | .fin n1 m1 e1, .fin n2 m2 e2 =>
    if m2 = 0 then free % 2 ^ 32
    else if m1 = 0 then b2n (n1 != n2) * 2 ^ 31
    else fpNear (n1 != n2) (m1 * 2 ^ 400 / m2) (e1 - e2 - 400) (decide (m1 * 2 ^ 400 % m2 ≠ 0)) free
  | _, _ => free % 2 ^ 32

/-- FP32 square root; of a zero, a negative or a special value a free value. -/
def fpRoot (x : Num) (free : Nat) : Nat :=
  match x with
  | .fin false m e =>
    if m = 0 then free % 2 ^ 32
    else
      let n := m * 2 ^ (300 + (e % 2).toNat)
      let r := rootFrom 200 n 0
      fpNear false r ((e - e % 2 - 300) / 2) (decide (r * r ≠ n)) free
  | _ => free % 2 ^ 32

/-- Sign of a zero sum of two operands: theirs, where they agree. -/
def sumSign (a b : Nat) : Option Bool := if bit a 31 = bit b 31 then some (bit a 31) else none

/-- The result of an FP32 form (R178). -/
def fpForm (kind : VectorKind) (a b c free : Nat) : Nat :=
  let num (n : Nat) : Num := ofF32 (BitVec.ofNat 32 n)
  match kind with
  | .fadd => fpResult ((num a).add (num b)) (sumSign a b) free
  | .fsub => fpResult ((num a).add (num (b ^^^ 2 ^ 31))) (sumSign a (b ^^^ 2 ^ 31)) free
  | .fmul => fpResult ((num a).mul (num b)) (some (bit a 31 != bit b 31)) free
  | .fma => fpResult (((num a).mul (num b)).add (num c)) none free
  | .fdiv => fpQuot (num a) (num b) free
  | .frecip => fpQuot (num 0x3F800000) (num a) free
  | .fsqrt => fpRoot (num a) free
  | _ => free % 2 ^ 32

/-- The result of an arithmetic instruction in one lane. Integer division by zero gives all ones and the
dividend; where dividend and divisor have their sign bits clear, signed and unsigned division agree; FP32 arithmetic honours
subnormals; any other result is the toolchain's listing's, a free value (log 7). R178 says what
division does, Table 5.2 puts divides in the class 0x30 to 0x3F and 64-bit integers in 0x00 to 0x2F, and the listing says
which opcodes divide: both classes take the kinds (DESIGN CHOICE, log 7). -/
def arithResult (kind : VectorKind) (n a b c free : Nat) : Nat :=
  let pos := decide (a < 2 ^ (n - 1) ∧ b < 2 ^ (n - 1))
  match kind with
  | .quotient => if b = 0 then 2 ^ n - 1 else if pos then a / b else free % 2 ^ n
  | .remainder => if b = 0 then a else if pos then a % b else free % 2 ^ n
  | .other _ => free % 2 ^ n
  | k => if n = 32 then fpForm k a b c free else free % 2 ^ n

/-- A field that an instruction of the form does not use is not 0 (R180). Of an `other` opcode the listing says so. -/
def strayField (kind : VectorKind) (w : W64) : Bool :=
  match kind with
  | .other u => u
  | .fma => false
  | .frecip | .fsqrt => iSb w != 0 || iSc w != 0
  | _ => iSc w != 0

/-- VECTOR_ARITH (R143, R178). -/
def execVectorArith (site : Site) (slot : Slot) (w : W64) (kind : VectorKind) (wide : Bool) (s : State) :
    Host.Outcome State Fault Refusal :=
  if !runsOp s site.val slot.val w 0 0x2F then ok s
  else
    let i := gIx site.val slot.val
    let g := s.getGrp i
    let m := actLanes g w
    let d := b2n wide
    if strayField kind w || !regsOk g [iDst w + d, iSa w + d, iSb w + d, iSc w + d] then ok (illegal i w s)
    else
      let val (l : Nat) : Nat :=
        let src (v : Nat) : Nat := if wide then getPair g v l else (getReg g v l).toNat
        arithResult kind (if wide then 64 else 32) (src (iSa w)) (src (iSb w)) (src (iSc w)) (freeAt s l)
      ok (useFree 32 (finish i (fun g =>
        if wide then setPairs g (iDst w) m val else setRegs g (iDst w) m fun l => BitVec.ofNat 32 (val l)) s))

/-- SPECIAL_FUNCTION (R143, R178): divide, reciprocal and square root honour subnormals; the results of its other forms are
given by no rule: free values (log 7). -/
def execSpecialFunction (site : Site) (slot : Slot) (op : ListedOp) (s : State) : Host.Outcome State Fault Refusal :=
  let w := op.word
  if !runsOp s site.val slot.val w 0x30 0x3F then ok s
  else
    let i := gIx site.val slot.val
    let g := s.getGrp i
    if strayField op.kind w || !regsOk g [iDst w, iSa w, iSb w, iSc w] then ok (illegal i w s)
    else
      let src (v l : Nat) : Nat := (getReg g v l).toNat
      let val (l : Nat) : Nat := arithResult op.kind 32 (src (iSa w) l) (src (iSb w) l) (src (iSc w) l) (freeAt s l)
      ok (useFree 32 (finish i (fun g => setRegs g (iDst w) (actLanes g w) fun l => BitVec.ofNat 32 (val l)) s))

/-- A value of the special read (R140). -/
def specialValue (s : State) (site slot : Nat) (g : Group) (which : SpecialReg) (lane : Nat) : Nat :=
  let dl := match groupTask s g with
    | some t => t.deadline
    | none => 0
  match which with
  | .lane => lane
  | .group => g.number
  | .slot => slot
  | .site => site
  | .context => g.ctx.toNat
  | .cls => g.cls.toNat
  | .deadlineLo => dl % 2 ^ 32
  | .deadlineHi => dl / 2 ^ 32

/-- SPECIAL_READ (R140). Of bits [39:8] it uses DST only (DESIGN CHOICE, log 7). -/
def execSpecialRead (site : Site) (slot : Slot) (w : W64) (which : SpecialReg) (s : State) :
    Host.Outcome State Fault Refusal :=
  if !runsOp s site.val slot.val w 0x50 0x5F then ok s
  else
    let i := gIx site.val slot.val
    let g := s.getGrp i
    if ib w 39 16 ≠ 0 ∨ !regsOk g [iDst w] then ok (illegal i w s)
    else
      ok (finish i (fun g => setRegs g (iDst w) (actLanes g w) fun l =>
        BitVec.ofNat 32 (specialValue s site.val slot.val g which l)) s)

/-! ### Shuffle and vote (R153, R154) -/

/-- Source lane of lane `l` with lane operand `b`; none outside 0 to 31. -/
def shflSource (mode l b : Nat) : Option Nat :=
  if 31 < b then none
  else if mode = 0 then some b
  else if mode = 1 then (if l < b then none else some (l - b))
  else if mode = 2 then (if 31 < l + b then none else some (l + b))
  else some (l ^^^ b)

/-- SHFL (R153, Table 5.7). -/
def execShfl (site : Site) (slot : Slot) (w : W64) (s : State) : Host.Outcome State Fault Refusal :=
  if !runsOp s site.val slot.val w 0x60 0x60 then ok s
  else
    let i := gIx site.val slot.val
    let g := s.getGrp i
    let imm := bit w.toNat 47
    let wide := bit w.toNat 53
    let d := b2n wide
    let badFields := ib w 63 54 != 0 || iSc w != 0 || (imm && iSb w != 0) || (!imm && ib w 52 48 != 0)
      || (wide && (iSa w % 2 != 0 || iDst w % 2 != 0))
    if badFields || !regsOk g [iSa w + d, iDst w + d, iSb w] then ok (illegal i w s)
    else
      let m := actLanes g w
      let src (l : Nat) : Nat :=
        let b := if imm then ib w 52 48 else (getReg g (iSb w) l).toNat
        match shflSource (ib w 46 45) l b with
        | some k => if getBit m k then k else l
        | none => l
      ok (finish i (fun x =>
        if wide then setPairs x (iDst w) m fun l => getPair g (iSa w) (src l)
        else setRegs x (iDst w) m fun l => getReg g (iSa w) (src l)) s)

/-- Lanes of `m` whose source equals lane `l`'s. -/
def matchMask (g : Group) (m : W32) (v : Nat) (wide : Bool) (l : Nat) : W32 :=
  let val (k : Nat) : Nat := if wide then getPair g v k else (getReg g v k).toNat
  (lanesOf m).foldl (fun a k => if val k = val l then setBit a k true else a) 0

/-- VOTE (R154, Table 5.8). Table 5.8 asks no even base of a match over a register pair, so an odd SA is taken (DEDUCED, log
83). -/
def execVote (site : Site) (slot : Slot) (w : W64) (s : State) : Host.Outcome State Fault Refusal :=
  if !runsOp s site.val slot.val w 0x61 0x61 then ok s
  else
    let i := gIx site.val slot.val
    let g := s.getGrp i
    let mode := ib w 46 45
    let wide := bit w.toNat 52
    let badFields := ib w 63 53 != 0 || iSb w != 0 || iSc w != 0
      || (decide (mode ≤ 1) && ib w 15 12 != 0)
      || (decide (mode ≠ 3) && (iSa w != 0 || wide))
      || (decide (mode = 3) && ib w 51 47 != 0)
    if badFields || !regsOk g (if mode = 3 then [iSa w + b2n wide, iDst w] else if mode = 2 then [iDst w] else []) then
      ok (illegal i w s)
    else
      let m := actLanes g w
      let p0 := getPred g (ib w 50 47)
      let p := if bit w.toNat 51 then ~~~p0 else p0
      let all (b : Bool) : W32 := if b then BitVec.allOnes 32 else 0
      ok (finish i (fun x =>
        if mode = 0 then setPred x (ib w 11 8) m (all (decide (p &&& m = m)))
        else if mode = 1 then setPred x (ib w 11 8) m (all (decide (p &&& m ≠ 0)))
        else if mode = 2 then setRegs x (iDst w) m fun _ => p &&& m
        else setRegs x (iDst w) m fun l => matchMask g m (iSa w) wide l) s)

/-! ### The group matrix instruction (R161 to R164) -/

/-- Element `k` of the 8 that a lane holds from register `v` on, of `n` bits each. -/
def mmaElem (g : Group) (v lane n k : Nat) : Nat :=
  bits (getReg g (v + k * n / 32) lane).toNat (k * n % 32 + n - 1) (k * n % 32)

/-- A[r][c]: row r, column c of the operand at `v` (Table 5.3): lane r + 16 (c div 8). -/
def mmaOperand (g : Group) (v n r c : Nat) : Nat := mmaElem g v (r + 16 * (c / 8)) n (c % 8)

/-- One element of D. -/
def mmaResult (g : Group) (w : W64) (r c : Nat) : W32 :=
  let f := ib w 48 45
  let n := if f ≤ 1 then 16 else 8
  let acc := bit w.toNat 49
  let cv := getReg g (iSc w + c % 8) (r + 16 * (c / 8))
  -- B is held by column: lane c + 16 (k div 8) holds rows 8h to 8h + 7 of column c
  let a (k : Nat) : Nat := mmaOperand g (iSa w) n r k
  let b (k : Nat) : Nat := mmaOperand g (iSb w) n c k
  if f = 4 then
    let sum : Int := (List.range 16).foldl (fun t k => t + toInt 8 (a k) * toInt 8 (b k)) 0
    BitVec.ofNat 32 (ofInt 32 (sum + (if acc then toInt 32 cv.toNat else 0)))
  else
    let code := if f = 2 then 0xA else if f = 3 then 0xB else f
    let sum := Num.sum ((List.range 16).map fun k => (elemValue code (a k)).mul (elemValue code (b k)))
    toF32 (if acc then sum.add (ofF32 cv) else sum)

/-- Register ranges overlap. -/
def overlap (a n b m : Nat) : Bool := decide (a < b + m ∧ b < a + n)

/-- MMA (R161 to R163, Table 5.9). -/
def execMma (site : Site) (slot : Slot) (w : W64) (s : State) : Host.Outcome State Fault Refusal :=
  if !runsOp s site.val slot.val w 0x62 0x62 then ok s
  else
    let i := gIx site.val slot.val
    let g := s.getGrp i
    let f := ib w 48 45
    let n := if f ≤ 1 then 4 else 2
    let acc := bit w.toNat 49
    let bad := ib w 63 50 != 0 || decide (4 < f) || (!acc && iSc w != 0)
      || iSa w % 4 != 0 || iSb w % 4 != 0 || iSc w % 8 != 0 || iDst w % 8 != 0
      || overlap (iDst w) 8 (iSa w) n || overlap (iDst w) 8 (iSb w) n
      || !regsOk g ([iSa w + n - 1, iSb w + n - 1, iDst w + 7] ++ (if acc then [iSc w + 7] else []))
    if bad then ok (illegal i w s)
    else if actLanes g w ≠ BitVec.allOnes 32 then ok (raise i 2 w s)
    else
      ok (finish i (fun x =>
        (List.range 8).foldl (fun x k =>
          setRegs x (iDst w + k) (BitVec.allOnes 32) fun l => mmaResult g w (l % 16) (8 * (l / 16) + k)) x) s)

/-! ### Branches (R150 to R152) -/

/-- Push a divergent branch's two entries and run the fall-through lanes (R150). -/
def diverge (target reconv : BitVec 48) (taken : W32) (g : Group) : Group :=
  let all := g.exec
  advance { g with
    exec := all &&& ~~~taken
    stack := { pc := target, mask := taken, reconv := reconv, join := all, st := 0 }
      :: { pc := reconv, mask := all, reconv := reconv, join := all, st := 2 } :: g.stack }

/-- BRANCH (R150, R151): the active lanes whose condition predicate holds take it; a lane the guard excludes
does not. -/
def execBranch (site : Site) (slot : Slot) (w : W64) (target : BitVec 48) (join : JoinAt) (cond : Fin 16) (neg : Bool) (s : State) :
    Host.Outcome State Fault Refusal :=
  if !runsOp s site.val slot.val w 0x50 0x5F then ok s
  else
    let i := gIx site.val slot.val
    let g := s.getGrp i
    let m := actLanes g w
    let p := if neg then ~~~(getPred g cond.val) else getPred g cond.val
    let taken := m &&& p
    if join.unused then ok (illegal i w s)
    else if taken = 0 then ok (finish i id s)
    else if taken = m then ok (s.modGrp i (goTo target))
    else if 32 < g.stack.length + 2 then ok (raise i 3 w s)
    else ok (s.modGrp i (diverge target join.at_ taken))

/-- Distinct targets of the lanes, in the order of their lowest lane, with their lanes. -/
def targetSets (g : Group) (v : Nat) (m : W32) : List (BitVec 48 × W32) :=
  (lanesOf m).foldl (fun l k =>
    let t := BitVec.ofNat 48 (getPair g v k)
    if l.any fun e => e.1 = t then l.map fun e => if e.1 = t then (t, setBit e.2 k true) else e
    else l ++ [(t, setBit 0 k true)]) []

/-- INDIRECT_BRANCH (R152): the lanes of each target run in turn; each extra target pushes one entry. The
target stands in the pair SA:SA + 1 (log 7). A lane that the guard excludes runs on no path and rejoins at the reconvergence
point (DESIGN CHOICE, log 83). -/
def execIndirectBranch (site : Site) (slot : Slot) (w : W64) (join : JoinAt) (s : State) :
    Host.Outcome State Fault Refusal :=
  if !runsOp s site.val slot.val w 0x50 0x5F then ok s
  else
    let i := gIx site.val slot.val
    let g := s.getGrp i
    if join.unused || !regsOk g [iSa w + 1] then ok (illegal i w s)
    else
      match targetSets g (iSa w) (actLanes g w) with
      | [] => ok (finish i id s)
      | [e] => ok (s.modGrp i (goTo e.1))
      | e :: r =>
        if 32 < g.stack.length + r.length then ok (raise i 3 w s)
        else
          let ents := r.map fun t => ({ pc := t.1, mask := t.2, reconv := join.at_, join := g.exec, st := 0 } : StackEnt)
          ok (s.modGrp i fun x => goTo e.1 { x with exec := e.2, stack := ents ++ x.stack })

/-! ### Exit and trap (R140, R176) -/

/-- Release the shared allocation and barriers of a task on a site whose last group there has ended (R147). -/
def releaseAlloc (site : Nat) (t : TaskRef) (s : State) : State :=
  if (List.range 24).any fun k => decide ((s.getGrp (gIx site k)).task = some t) then s
  else
    s.modSite site fun x => { x with
      allocs := x.allocs.filter fun a => !decide (a.task = t), bars := x.bars.filter fun b => !decide (b.task = t) }

/-- A group has ended: its slot is empty and the task counts it (R140, R46). -/
def endGroup (site slot : Nat) (s : State) : State :=
  let i := gIx site slot
  let g := s.getGrp i
  let s1 := s.modGrp i fun _ => {}
  match g.task with
  | none => s1
  | some t =>
    let count (k : Task) : Task := { k with ended := k.ended + 1 }
    let s2 := s1.modPart t.p.val fun x => { x with tasks := Tbl.mod none x.tasks t.e.val (Option.map count) }
    releaseAlloc site t s2

/-- After an answer to one of the group's accesses: what waits for its release goes on, and a group that was stopped without save
ends with the last answer (R168, R271). -/
def answered (site slot : Nat) (s : State) : State :=
  let s1 := tryRelease site slot s
  let g := s1.getGrp (gIx site slot)
  if g.ends && g.loads.isEmpty && g.stores == 0 && g.remote == 0 then endGroup site slot s1 else s1

/-- EXIT (R140, R176): the active lanes leave for good. The group ends with its last lane, once its accesses
are acknowledged; an unreported store error is raised then. It uses no field of bits [39:8] (DESIGN CHOICE, log 7). -/
def execExit (site : Site) (slot : Slot) (w : W64) (s : State) : Host.Outcome State Fault Refusal :=
  if !runsOp s site.val slot.val w 0x50 0x5F then ok s
  else
    let i := gIx site.val slot.val
    let g := s.getGrp i
    let m := actLanes g w
    let gone := g.exited ||| m
    if ib w 39 8 ≠ 0 then ok (illegal i w s)
    else if gone = BitVec.allOnes 32 then
      match g.storeErr with
      | some a => ok (storeHalt i w a s)
      | none => if g.stores ≠ 0 ∨ g.loads ≠ [] ∨ g.remote ≠ 0 then ok s else ok (endGroup site.val slot.val s)
    else
      ok (s.modGrp i fun x =>
        let y := { x with exited := gone, exec := x.exec &&& ~~~m }
        if y.exec ≠ 0 then advance y
        else unwind (2 * y.stack.length + 2) { y with issued := none, heldFor := 0 })

/-- TRAP (Table 5.5): an active lane raises exception 0x0A. It uses no field of bits [39:8] (DESIGN CHOICE, log 7). -/
def execTrap (site : Site) (slot : Slot) (w : W64) (s : State) : Host.Outcome State Fault Refusal :=
  if !runsOp s site.val slot.val w 0x50 0x5F then ok s
  else
    let i := gIx site.val slot.val
    if ib w 39 8 ≠ 0 then ok (illegal i w s)
    else if actLanes (s.getGrp i) w = 0 then ok (finish i id s)
    else ok (raise i 0x0A w s)

/-! ### Fence, barrier, device time (R168, R169, R171, R172) -/

/-- FENCE (R168, R169, Table 5.11). With no active lane it orders nothing (DESIGN CHOICE, log 83). -/
def execFence (site : Site) (slot : Slot) (w : W64) (s : State) : Host.Outcome State Fault Refusal :=
  if !runsOp s site.val slot.val w 0x6C 0x6C then ok s
  else
    let i := gIx site.val slot.val
    let g := s.getGrp i
    let kind := ib w 46 45
    let scope := ib w 49 47
    match (if kind = 0 then none else g.storeErr) with
    | some a => ok (storeHalt i w a s)
    | none =>
    if ib w 63 50 ≠ 0 ∨ 4 < scope ∨ ib w 39 8 ≠ 0 then ok (illegal i w s)
    else if actLanes g w = 0 then ok (finish i id s)
    else
      let acq := decide (kind ≠ 1)
      let done (s : State) : State := finish i id (if acq then acquire site.val scope s else s)
      if kind = 0 ∨ released g scope then ok (done s) else ok (holdGroup i (.fence acq scope) s)

/-- The group arrives at barrier `bid` of its task on the site (R171). -/
def barArrive (site slot bid count : Nat) (t : TaskRef) (w : W64) (s : State) : State :=
  let i := gIx site slot
  let b := (s.getSite site).bars.find? fun b => decide (b.task = t ∧ b.bid = bid)
  let others := (s.getSite site).bars.filter fun b => !decide (b.task = t ∧ b.bid = bid)
  let put (x : Barrier) (s : State) : State :=
    if x.arrived.length = x.count + 1 then
      let s1 := s.modSite site fun y => { y with bars := others }
      forL x.arrived (fun k s => if k = slot then finish i id s else s.modGrp (gIx site k) fun g => advance (unhold g)) s1
    else holdGroup i (.barrier bid) (s.modSite site fun y => { y with bars := others ++ [x] })
  match b with
  | none => put { task := t, bid := bid, count := count, arrived := [slot] } s
  | some x => if x.count = count then put { x with arrived := x.arrived ++ [slot] } s else raise i 4 w s

/-- BAR (R171, Table 5.11). With no active lane it is no arrival, and the group goes on (DESIGN CHOICE, log 83). -/
def execBar (site : Site) (slot : Slot) (w : W64) (s : State) : Host.Outcome State Fault Refusal :=
  if !runsOp s site.val slot.val w 0x6D 0x6D then ok s
  else
    let i := gIx site.val slot.val
    let g := s.getGrp i
    let go (s : State) : State :=
      if ib w 63 55 ≠ 0 ∨ 23 < ib w 53 49 ∨ ib w 39 8 ≠ 0 then illegal i w s
      else if actLanes g w = 0 then finish i id s
      else match g.task with
        | none => s
        | some t => barArrive site.val slot.val (ib w 48 45) (ib w 53 49) t w s
    ok (if bit w.toNat 54 then withRelease site.val slot.val 1 go s else go s)

/-- TIME (R172, Table 5.11). -/
def execTime (site : Site) (slot : Slot) (w : W64) (s : State) : Host.Outcome State Fault Refusal :=
  if !runsOp s site.val slot.val w 0x6E 0x6E then ok s
  else
    let i := gIx site.val slot.val
    let g := s.getGrp i
    if ib w 63 45 ≠ 0 ∨ iDst w % 2 ≠ 0 ∨ ib w 39 16 ≠ 0 ∨ !regsOk g [iDst w + 1] then ok (illegal i w s)
    else ok (finish i (fun x => setPairs x (iDst w) (actLanes g w) fun _ => now s) s)

/-- Lanes 0 to 7 are active. -/
def lowEight (m : W32) : Bool := m &&& 0xFF == 0xFF

/-- Word of lanes 0 to 7 from a register pair. -/
def laneWord (g : Group) (v : Nat) : Line := (List.range 8).map fun l => BitVec.ofNat 64 (getPair g v l)

end Sys2Proof.Machine
end

