-- ==== Sys2Proof/Machine/ArrayCmds.lean ====
section
/-! DEFINITION. The commands of a matrix array: posts, passes, steps, commits, stops with their save area,
resumes, discards, and its control registers (R90 to R115, R136, R173, R517, R518). -/

namespace Sys2Proof.Machine
open Sys2Proof

/-! ### Endings (R106, R112) -/

/-- A successor has taken cells of its predecessor's tile: it has columns in the cells and a tile of its own (R91, R97). -/
def swaps (r : PassRun) : Bool := decide (0 < r.t) && !dSKeep r.desc.words

/-- The pass's tile once the pass has ended before its last step: valid where the wavefront has swapped every
position to it, or none (R91, R97). -/
def tileAfter (x : Array) : Option Tile :=
  match x.cur with
  | none => x.active
  | some r =>
    if r.lost || x.next.any swaps then none
    else if r.t = 0 then x.active
    else if dSKeep r.desc.words ∨ 64 ≤ r.t then some r.tile
    else none

/-- The entries of passes `k` and later, as they go back to the FIFO: each keeps the accumulator columns it has
updated (R113, R518). `f` is how many descriptors before them hold slots. -/
def entriesBack (f : Nat) (rs : List PassRun) (fifo : List ADesc) : List ADesc :=
  fifo.zipIdx.map fun e =>
    match if f ≤ e.2 then rs[e.2 - f]? else none with
    | some r => if dDest r.desc.words then e.1 else { e.1 with made := max e.1.made r.done }
    | none => e.1

/-- The pass's tile with the cells that the passes of `rs` have swapped holding theirs (R518). -/
def mixedTile (rs : List PassRun) (t : Tile) : Tile :=
  rs.foldl (fun t q =>
    let taken (k : Nat) : Bool := decide ((cellRow q.desc.words (k / 64 % 64, k % 64)).2 < q.t)
    if swaps q then
      { t with codes := (q.tile.codes.filter fun e => taken e.1).foldl (fun c e => Tbl.put 0 c e.1 e.2) (t.codes.filter fun e => !taken e.1) }
    else t) t

/-- Passes `k` and later go back to the FIFO unstarted, their columns discarded; the pass before them keeps the cells
they had swapped, which no later step of it uses (R518). -/
def returnRuns (k : Nat) (x : Array) : Array :=
  let rs := (passRuns x).drop k
  let y := { x with fifo := entriesBack (k + b2n x.accRun.isSome) rs x.fifo }
  match k with
  | 0 => { y with cur := none, next := [], active := if rs.any swaps then none else x.active, got := 0 }
  | j + 1 =>
    let mark (r : PassRun) : PassRun :=
      if rs.any swaps then { r with tile := mixedTile rs r.tile, lost := true } else r
    if j = 0 then { y with cur := y.cur.map mark, next := [], got := 0 }
    else { y with next := (x.next.take (j - 1)) ++ ((x.next.drop (j - 1)).take 1).map mark, got := 0 }

/-- End the descriptor at the head of the FIFO. -/
def endHead (code done : Nat) (x : Array) : Array :=
  { x with
    fifo := x.fifo.drop 1, code := BitVec.ofNat 8 code, nDone := BitVec.ofNat 16 done
    far := [], out := none, retryFrom := none }

/-- The head's columns and blocks are discarded; its successors go back to the FIFO (R112, R518). -/
def discardHead (x : Array) : Array :=
  let act := tileAfter x
  let y := returnRuns (if x.accRun.isSome then 0 else 1) x
  { y with active := act, cur := none, next := [], accRun := none, stA := [], stB := [], got := 0 }

/-- The head descriptor ends with an error: the array halts, keeps its other entries, and the controller
gets a fault message (R105, R112, R276). An array that stops meanwhile parks first and halts when it leaves PARKED. -/
def failHead (a code reason exc done : Nat) (s : State) : State :=
  let x := s.getAry a
  let t := (x.fifo.head?).bind (·.task)
  faultMessage t reason exc (s.modAry a fun x =>
    let y := { endHead code done (discardHead x) with haltBy := t }
    if x.mode = .stopping then { y with haltNext := true } else { y with mode := .halted })

/-- A descriptor error (R105). -/
def descErr (a : Nat) (s : State) : State := failHead a 1 5 1 0 s

/-- A read or write of the array's oldest pass or ACC_OUT met an error: it ends with BUS_ERR (R112). -/
def busErr (a : Nat) (s : State) : State :=
  let x := s.getAry a
  let done := match x.accRun, x.cur with
    | some r, _ => r.done
    | none, some r => r.done
    | none, none => 0
  failHead a 3 3 0 done s

/-- N_REC: next column to enter lane 0, counted on past N while the last columns are in the cells (R114; DEDUCED, log 45), or
the accumulator column that an ACC_OUT reads next (R517). -/
def nRec (x : Array) : Nat :=
  match x.accRun, x.cur with
  | some r, _ => dAccOff r.desc.words + r.n
  | none, some r => r.t
  | none, none => 0

/-- The passes behind the head go back to the FIFO (R518); the shadow tile is not kept. -/
def dropNext (x : Array) : Array :=
  if x.accRun.isSome then { returnRuns 0 x with far := [] } else returnRuns 1 x

/-- The pass at the head is at its last step, or only its blocks are still to commit, and no later descriptor has a
column in the cells: it completes although the array stops (R109). -/
def finishing (x : Array) : Bool :=
  match x.accRun, x.cur with
  | none, some r => decide (dN r.desc.words + 63 ≤ r.t) && x.next.all fun q => q.t == 0
  | _, _ => false

/-- The array stops at this step boundary with a cause (R108, R109). -/
def stopNow (cause : Nat) (x : Array) : Array :=
  let y := dropNext x
  let z := { y with cause := x.cause ||| BitVec.ofNat 3 cause, drawLeft := 0, retryFrom := none, got := 0 }
  { z with mode := .stopping, out := if finishing z then x.out else none, haltNext := x.haltNext || decide (x.mode = .halted) }

/-- A translation fault on an access of the array (R108, R253): the record, the stop with cause FAULT. -/
def faultStop (a : Nat) (d : ADesc) (kind va cause : Nat) (entry : W64) (level : Nat) (s : State) : State :=
  let x := s.getAry a
  let acc : Access := if kind = 4 then .write else .read
  let rec_ := mkFaultRec 2 cause (accessCode acc cause) d.ctx.val (a / 2) (a % 2) d.cls.val va (now s) (nRec x) entry level
  let s1 := s.modAry a fun x =>
    let y := if x.mode = .stopping then { x with cause := x.cause ||| 4#3 } else stopNow 4 x
    { y with faultAddr := BitVec.ofNat 48 va, faultKind := BitVec.ofNat 3 kind }
  postFault (a / 48) (aryAgent a) rec_ d.task (countFault (a / 2) s1)

/-! ### Posts (R104, R173) -/

/-- Enter a group's descriptor into the array's FIFO. -/
def aryEnter (a : Nat) (g : Group) (w : Line) (s : State) : State :=
  s.modAry a fun x => { x with fifo := x.fifo ++
    [{ words := w, ctx := ⟨g.ctx.toNat % 64, Nat.mod_lt _ (by omega)⟩, cls := ⟨g.cls.toNat % 16, Nat.mod_lt _ (by omega)⟩, task := g.task }] }

/-- Group slots of a site held on a post to array `a`. -/
def apostWaiters (s : State) (site a : Nat) : List Nat :=
  (List.range 24).filter fun k =>
    let g := s.getGrp (gIx site k)
    decide (g.mode = .held) && match g.hold with
      | .apost b _ => decide (b.val = a)
      | _ => false

/-- APOST (R170, R173): a release at partition scope, then the descriptor enters the FIFO; a full FIFO holds
the group (R104), and so does one that held groups wait for, whose order its token decides (R78, R79). -/
def execApost (site : Site) (slot : Slot) (w : W64) (s : State) : Host.Outcome State Fault Refusal :=
  if !runsOp s site.val slot.val w 0x70 0x70 then ok s
  else
    let i := gIx site.val slot.val
    let g := s.getGrp i
    let a := 2 * site.val + b2n (bit w.toNat 45)
    ok (withRelease site.val slot.val 2 (fun s =>
      if ib w 63 46 ≠ 0 ∨ iDst w ≠ 0 ∨ iSb w ≠ 0 ∨ iSc w ≠ 0 ∨ iSa w % 2 ≠ 0 ∨ !regsOk g [iSa w + 1] then illegal i w s
      else if !lowEight (actLanes g w) then raise i 2 w s
      else if (s.getAry a).fifo.length < 8 ∧ apostWaiters s site.val a = [] then finish i id (aryEnter a g (laneWord g (iSa w)) s)
      else holdGroup i (.apost ⟨a % 192, Nat.mod_lt _ (by omega)⟩ (laneWord g (iSa w))) s) s)

/-- APOST_SLOT_FREE (R104): with a slot free, the held group that the FIFO's token names posts its descriptor
(Table 2.10). -/
def execApostSlotFree (site : Site) (slot : Slot) (s : State) : Host.Outcome State Fault Refusal :=
  let i := gIx site.val slot.val
  let g := s.getGrp i
  match g.mode, g.hold with
  | .held, .apost a w =>
    let ws := apostWaiters s site.val a.val
    let tok := (s.getAry a.val).fifoTok
    if 8 ≤ (s.getAry a.val).fifo.length ∨ tokenFirst 24 tok ws ≠ slot.val then ok s
    else
      let losers := ws.filter (· ≠ slot.val)
      let s1 := if losers.isEmpty then s
        else s.modAry a.val fun x => { x with fifoTok := tokenFirst 24 (slot.val + 1) losers }
      ok (aryEnter a.val g w (s1.modGrp i fun g => advance (unhold g)))
  | _, _ => ok s

/-! ### Taking descriptors (R91, R104, R105, R136) -/

/-- Descriptors taken and not ended. -/
def takenCount (x : Array) : Nat := b2n x.accRun.isSome + (passRuns x).length

/-- The array takes descriptors. -/
def takes (x : Array) : Bool := (decide (x.mode = .idle) || decide (x.mode = .running)) && !x.busy

/-- The next descriptor that is not taken. -/
def nextDesc (x : Array) : Option ADesc := x.fifo[takenCount x]?

/-- Seed the generator where a seed waits (R134, R136). Draws left of the current word stay, as seed() leaves them. -/
def seedNow (x : Array) : Array :=
  match x.seedNew with
  | none => x
  | some v => { x with seedNew := none, s0 := v, s1 := v ^^^ 0x9E3779B97F4A7C15 }

/-- Number of the pass whose stationary tile is still to be loaded: the passes behind it are not taken yet. -/
def loadingIx (x : Array) : Option Nat := (passRuns x).findIdx? fun r => !r.loaded

/-- A read of pass `i` met an error: it ends with BUS_ERR once it heads the FIFO, its columns are discarded and the
passes behind it go back (R106, R112). -/
def passErr (a i : Nat) (s : State) : State :=
  let x := s.getAry a
  if i = 0 ∧ x.accRun.isNone then busErr a s
  else s.modAry a fun x =>
    let y := returnRuns (i + 1) x
    match (passRuns y)[i]? with
    | some r => setRun i { r with bad := true } y
    | none => y

/-- Load the stationary tile of the pass that waits for it, once the home port has brought its bytes (R91, R97). -/
def tryLoad (a : Nat) (s : State) : State :=
  let x := s.getAry a
  match loadingIx x with
  | none => s
  | some i =>
    match (passRuns x)[i]? with
    | none => s
    | some r =>
      if r.bad ∨ 0 < r.left ∨ !mayRead x i r then s
      else
        match loadTile a r.desc s with
        | (s1, .ok t) => s1.modAry a (setRun i { r with tile := t, loaded := true })
        | (s1, .wait) => s1
        | (s1, .fault k va c e lv) => faultStop a r.desc k va c e lv s1
        | (s1, .bus) => passErr a i s1

/-- The tile that an S_KEEP of the next descriptor would use (R97). -/
def keptTile (x : Array) : Option Tile :=
  match (passRuns x).getLast? with
  | some r => if r.loaded ∧ !r.lost then some r.tile else none
  | none => x.active

/-- The shadow is free for the next tile: every position has swapped to the tile of each pass taken (R91, Table 3.2). -/
def shadowFree (x : Array) : Bool := (passRuns x).all fun r => dSKeep r.desc.words || decide (64 ≤ r.t)

/-- ARRAY_PASS (R91, R97, R105): the array takes its next descriptor, a PASS or one whose OP is no operation,
checks it and starts its stationary load. A failed check is answered once the descriptor heads the FIFO; a pass with a tile
of its own is taken when the shadow is free for it. -/
def execArrayPass (a : Ary) (s : State) : Host.Outcome State Fault Refusal :=
  let x := s.getAry a.val
  match nextDesc x with
  | none => ok s
  | some d =>
    if !takes x || dOp d.words == 2 || dOp d.words == 3 then ok s
    else if !descOk s a.val d (keptTile x) then
      if takenCount x = 0 then ok (descErr a.val (if dOp d.words = 1 then s.modAry a.val seedNow else s)) else ok s
    else
      let keep := dSKeep d.words
      if !keep && !shadowFree x then ok s
      else
        let r : PassRun :=
          { desc := d, t := 0, loaded := keep, left := if keep then 0 else loadBytes d.words
            tile := if keep then (keptTile x).getD noTile else noTile
            psum := [], done := if dDest d.words then 0 else d.made, lost := false, bad := false }
        ok (s.modAry a.val fun x =>
          let y := { seedNow x with mode := .running }
          if y.cur.isSome then { y with next := y.next ++ [r] } else { y with cur := some r })

/-- ARRAY_SYNC (R100, R106): with every earlier descriptor ended, the SYNC descriptor signals its object. -/
def execArraySync (a : Ary) (s : State) : Host.Outcome State Fault Refusal :=
  let x := s.getAry a.val
  match nextDesc x with
  | none => ok s
  | some d =>
    if !takes x || takenCount x != 0 || dOp d.words != 2 then ok s
    else if !descOk s a.val d none then ok (descErr a.val s)
    else
      let done (s : State) : State := s.modAry a.val fun x =>
        let y := { endHead 0 0 x with nDone := x.nDone }
        { y with mode := if y.fifo.isEmpty then .idle else .running }
      match synSignal (dSyncId d.words) 9 1 s with
      | .done s1 _ _ => ok (done s1)
      | .bus => ok (done s)
      | .resetting => ok s

/-- ACC_OUT (R517): with every earlier descriptor ended, the array takes an ACC_OUT, whose start invalidates the
active stationary tile. -/
def execAccOut (a : Ary) (s : State) : Host.Outcome State Fault Refusal :=
  let x := s.getAry a.val
  match nextDesc x with
  | none => ok s
  | some d =>
    if !takes x || takenCount x != 0 || dOp d.words != 3 then ok s
    else if !descOk s a.val d none then ok (descErr a.val (s.modAry a.val seedNow))
    else ok (s.modAry a.val fun x =>
      { seedNow x with mode := .running, active := none, accRun := some { desc := d, n := 0, done := 0 } })

/-! ### Steps (R90 to R96, R101, R517) -/

/-- Pass `i` may enter or go on in the cells: its tile is loaded, its reads may be made, no read of it has met an
error (R91, R99, R112). -/
def runReady (x : Array) (i : Nat) (r : PassRun) : Bool := r.loaded && !r.bad && mayRead x i r

/-- Of the passes from number `i` on, those that work in the next step; `open_` says that lane 0 is free for the first of
them: every column of the pass before it has entered (R90, R91). -/
def stepsFrom (x : Array) : Nat → Bool → List PassRun → List (Nat × PassRun)
  | _, _, [] => []
  | i, open_, r :: rest =>
    let later := stepsFrom x (i + 1) (decide (dN r.desc.words ≤ r.t) && !r.bad) rest
    if open_ && runReady x i r && decide (r.t < dN r.desc.words + 63) then (i, r) :: later else later

/-- The passes that work in the array's next step: each follows its predecessor once the predecessor's last column has
entered lane 0 (R91); behind an ACC_OUT, from the step after its step 0 (R517). -/
def steppers (x : Array) : List (Nat × PassRun) :=
  stepsFrom x 0 (match x.accRun with | some q => decide (0 < q.n) | none => true) (passRuns x)

/-- The ACC_OUT reads its next column in this step: one is left, and a staging block has room for it (R517). -/
def accReads (x : Array) : Bool :=
  match x.accRun with
  | some q => decide (q.n < dN q.desc.words) && decide (fullBlocks x < 2)
  | none => false

/-- Column `c` of the accumulator is still to be read by the ACC_OUT that runs (R517). -/
def accUnread (x : Array) (c : Nat) : Bool :=
  match x.accRun with
  | some q => decide (dAccOff q.desc.words + q.n ≤ c ∧ c < dAccOff q.desc.words + dN q.desc.words)
  | none => false

/-- The ACC_OUT has columns left to stage: its blocks come before those of the following pass (R517). -/
def accStages (x : Array) : Bool :=
  match x.accRun with
  | some q => decide (q.n < dN q.desc.words)
  | none => false

/-- A column leaves the pass in this step. -/
def drains (r : PassRun) : Bool := decide (63 ≤ r.t ∧ r.t - 63 < dN r.desc.words)

/-- The drain cannot take the column that leaves the pass in this step (Table 3.3, R517): both staging blocks are full or
belong to an ACC_OUT first, or the accumulator's port or column is the ACC_OUT's. -/
def drainBlocked (x : Array) (r : PassRun) : Bool :=
  let w := r.desc.words
  drains r &&
    ((dDest w && (decide (2 ≤ fullBlocks x) || accStages x))
      || ((!dDest w || dAccum w) && (accReads x || accUnread x (dAccOff w + (r.t - 63)))))

/-- The ACC_OUT reads its next column, where a staging block has room (R517). -/
def accStep (x : Array) : Array :=
  match x.accRun with
  | none => x
  | some q =>
    if accReads x then
      let w := q.desc.words
      let col := (rowsOf (dMask w)).map fun r => (r, Tbl.get 0 x.acc (512 * r + dAccOff w + q.n))
      { stageCol x (fullBlocks x) (q.n % 64) col with accRun := some { q with n := q.n + 1 } }
    else x

/-- Count a step frozen by its feeders. -/
def freezeFeed (a : Nat) (s : State) : State := s.modAry a fun x => { x with feed := x.feed + 1 }

/-! #### The home port (R32, R80, R81, R92, R439) -/

/-- Bytes that the feeders of the array need for its next step and do not have (R32). -/
def feedDemand (x : Array) : Nat :=
  if x.mode = .running ∧ !x.busy then (steppers x).foldl (fun n r => n + feedBytes r.2) 0 - x.got else 0

/-- Bytes that its stationary load takes from a port step: at most 128 (R97). -/
def loadDemand (x : Array) : Nat :=
  if x.mode = .running ∧ !x.busy then
    match loadingIx x with
    | some i => match (passRuns x)[i]? with
      | some r => if mayRead x i r && !r.bad then min 128 r.left else 0
      | none => 0
    | none => 0
  else 0

/-- Read bytes of one port step of a site: 512, or 256 at half width (R32, R439). -/
def portBytes (s : State) (j : Nat) : Nat := if (s.getSite j).half then 256 else 512

/-- What array `a` gets in its port step: bytes for its feeders and for its stationary load. Feeders come before
stationary loads, and between the arrays the token decides; in a guard step an L1 fill or DMA read has taken 64 bytes
first (Table 2.10, R81). -/
def portGrant (s : State) (a : Nat) : Nat × Nat :=
  let j := a / 2
  let o := a / 2 * 2 + (1 - a % 2)
  let cap := portBytes s j - (if getBit (s.getSite j).portGuard (a % 2) then 64 else 0)
  let f := feedDemand (s.getAry a)
  let fo := feedDemand (s.getAry o)
  let l := loadDemand (s.getAry a)
  let lo := loadDemand (s.getAry o)
  let first := decide ((s.getSite j).portTok % 2 = a % 2)
  let rest := cap - (f + fo)
  (min f (if first then cap else cap - fo), min l (if first then rest else rest - lo))

/-- The port step of array `a`: its grants are taken, a contended token passes to the other array, and a guard step is
used up. -/
def portStep (a : Nat) (s : State) : State :=
  let j := a / 2
  let (f, l) := portGrant s a
  let o := s.getAry (a / 2 * 2 + (1 - a % 2))
  let full := decide (portBytes s j - (if getBit (s.getSite j).portGuard (a % 2) then 64 else 0)
    < feedDemand (s.getAry a) + loadDemand (s.getAry a) + feedDemand o + loadDemand o)
  (s.modAry a fun x =>
    let y := { x with got := x.got + f }
    match loadingIx x with
    | some i => match (passRuns x)[i]? with
      | some r => setRun i { r with left := r.left - l } y
      | none => y
    | none => y).modSite j fun x =>
      { x with
        portGuard := x.portGuard &&& ~~~(1#2 <<< (a % 2))
        portTok := if full ∧ x.portTok % 2 = a % 2 then 1 - a % 2 else x.portTok }

/-- In this port step the array's feeders lack bytes, or in a guard step its stationary load does: the array is held under
R92 (R81). A stationary load left short in another step only takes longer (DEDUCED, log 82). -/
def portShort (s : State) (a : Nat) : Bool :=
  let (f, l) := portGrant s a
  decide (f < feedDemand (s.getAry a))
    || (getBit (s.getSite (a / 2)).portGuard (a % 2) && decide (l < loadDemand (s.getAry a)))

/-- Bytes that the arrays of a site take from its next port step (R81). -/
def portTaken (s : State) (j : Nat) : Nat :=
  feedDemand (s.getAry (2 * j)) + loadDemand (s.getAry (2 * j)) + feedDemand (s.getAry (2 * j + 1)) + loadDemand (s.getAry (2 * j + 1))

/-- Bytes that the array drains of a site take from the write side of its next port step: all of it while a whole staging
block stands, which goes first (R32, R81, Table 2.10). -/
def drainTaken (s : State) (j : Nat) : Nat :=
  if 0 < fullBlocks (s.getAry (2 * j)) ∨ 0 < fullBlocks (s.getAry (2 * j + 1)) then portBytes s j / 2 else 0

/-- The use is on the read side of the port. -/
def useReads : PortUse → Bool
  | .l1Fill | .dmaRead => true
  | .l1Write | .dmaWrite => false

/-- The use of the same side that comes before it (Table 2.10: L1 before DMA). -/
def useAfter : PortUse → Option PortUse
  | .dmaRead => some .l1Fill
  | .dmaWrite => some .l1Write
  | _ => none

/-- The port's next step leaves the use 64 bytes: the arrays come first, and an L1 access that waits comes before the DMA's.
The write side is half as wide as the read side (R32, R81, R439). -/
def portSpare (s : State) (j : Nat) (use : PortUse) : Bool :=
  let first := if (useAfter use).any (s.getSite j).portWait.contains then 64 else 0
  if useReads use then decide (portTaken s j + first + 64 ≤ portBytes s j)
  else decide (drainTaken s j + first + 64 ≤ portBytes s j / 2)

/-- A core's Loess or Marl access may use its port: it has the port's grant, or the port has room (R81, R183). -/
def portMay (s : State) (j : Nat) (use : PortUse) : Bool := (s.getSite j).portGot.contains use || portSpare s j use

/-- The access goes: the grant is used, and it waits no longer. -/
def portTake (j : Nat) (use : PortUse) (s : State) : State :=
  s.modSite j fun x => { x with portGot := x.portGot.erase use, portWait := x.portWait.erase use }

/-- The access waits at the port. -/
def portHold (j : Nat) (use : PortUse) (s : State) : State :=
  s.modSite j fun x => { x with portWait := if x.portWait.contains use then x.portWait else x.portWait ++ [use] }

/-- Steps in a row that the use has been passed over. -/
def portPassed (x : Site_) : PortUse → Nat
  | .l1Fill => x.passL1
  | .dmaRead => x.passDma
  | .l1Write => x.passSt
  | .dmaWrite => x.passDw

/-- Set that count. -/
def setPassed (k : Nat) (use : PortUse) (x : Site_) : Site_ :=
  match use with
  | .l1Fill => { x with passL1 := k }
  | .dmaRead => { x with passDma := k }
  | .l1Write => { x with passSt := k }
  | .dmaWrite => { x with passDw := k }

/-- HOME_PORT_GUARD_GRANT (R81): a port step with such an access waiting. It is granted where the port has 64 bytes for it;
else it is passed over and counted; after 7 such steps in a row it is granted first, and on the read side the arrays' next
port step has 64 bytes less. -/
def execHomePortGuardGrant (site : Site) (use : PortUse) (s : State) : Host.Outcome State Fault Refusal :=
  let j := site.val
  let n := portPassed (s.getSite j) use
  let grant (x : Site_) : Site_ :=
    { setPassed 0 use x with portGot := if x.portGot.contains use then x.portGot else x.portGot ++ [use] }
  if portSpare s j use then ok (s.modSite j grant)
  else if n < 7 then ok (s.modSite j (setPassed (n + 1) use))
  else ok (s.modSite j fun x => { grant x with portGuard := if useReads use then 3 else x.portGuard })

/-! #### The step -/

/-- What the feeders of a step give: the values of every pass, or the first pass whose reads are not all there. -/
inductive Fed where
  | ok (v : List (Nat × PassRun × List (Nat × Nat × Num)))
  | wait
  | err (i : Nat)
  | fault (d : ADesc) (kind va cause : Nat) (entry : W64) (level : Nat)
deriving DecidableEq, Repr

/-- Feed the passes of a step: the values each offers. -/
def feedAll (a : Nat) : List (Nat × PassRun) → State → State × Fed
  | [], s => (s, .ok [])
  | (b, r) :: rest, s =>
    match feedPass a r s with
    | (s1, .ok v) =>
      match feedAll a rest s1 with
      | (s2, .ok vs) => (s2, .ok ((b, r, v) :: vs))
      | z => z
    | (s1, .wait) => (s1, .wait)
    | (s1, .bus) => (s1, .err b)
    | (s1, .fault k va c e lv) => (s1, .fault r.desc k va c e lv)

/-- Move the passes of a completed step. -/
def moveAll (vs : List (Nat × PassRun × List (Nat × Nat × Num))) (full : Nat) (x : Array) : Array :=
  vs.foldl (fun x v =>
    let (y, r) := movePass x full v.2.1 v.2.2
    setRun v.1 r y) { x with got := 0 }

/-- The values that a pass needs in this step have not returned: its elements without `feed`, its scales without `scales`
(Table 3.3). -/
def readsOut (r : PassRun) (feed scales : Bool) : Bool :=
  !(stepValues r).isEmpty && (!feed || (feedScaled r.desc.words && !scales))

/-- The cells' part of a step; `short` says that the home port left bytes missing in it. Lanes and drain lanes that R94
and R95 exclude take no part in the condition. -/
def cellStep (a : Nat) (feed scales short : Bool) (s : State) : State :=
  let x := s.getAry a
  let rs := steppers x
  let noFeed := short || rs.any fun r => readsOut r.2 feed scales
  let noDrain := rs.any fun r => drainBlocked x r.2
  if rs = [] then s
  else if noFeed || noDrain then
    s.modAry a fun x => { x with feed := x.feed + BitVec.ofNat 32 (b2n noFeed), drain := x.drain + BitVec.ofNat 32 (b2n noDrain) }
  else
    match feedAll a rs s with
    | (s1, .ok vs) => s1.modAry a (moveAll vs (fullBlocks x))
    | (s1, .wait) => freezeFeed a s1
    | (s1, .err i) => passErr a i s1
    | (s1, .fault d k va c e lv) => faultStop a d k va c e lv s1

/-- ARRAY_STEP (R90 to R96, R101, R517): a port step brings what the home port grants, and the array's step completes
where no condition of R92 holds it. `feed` and `scales` say that the weight and the scale reads of the step have returned
(Table 3.3). -/
def execArrayStep (a : Ary) (feed scales : Bool) (s : State) : Host.Outcome State Fault Refusal :=
  let x := s.getAry a.val
  if x.mode ≠ .running ∨ x.busy then ok s
  else
    let short := portShort s a.val
    let s1 := portStep a.val s
    if paceHolds s1 (a.val / 48) (a.val % 48) then ok (paceDelay (a.val / 48) (a.val % 48) s1)
    else
      let x1 := s1.getAry a.val
      let reads := accReads x1
      let s2 := (cellStep a.val feed scales short s1).modAry a.val fun y => if reads ∧ y.mode = .running then accStep y else y
      let y := s2.getAry a.val
      let s3 := if y.feed = x1.feed ∧ y.drain = x1.drain then paceStart (a.val / 48) (a.val % 48) s2 else s2
      ok (if y.mode = .running then tryLoad a.val s3 else s3)

/-! ### Commits and completions (R103, R106, R113) -/

/-- Which run's block staging block A holds: 0 the ACC_OUT's, `i` + 1 that of pass `i`. -/
def openRun (x : Array) : Option Nat :=
  if 0 < (x.accRun.map accOpen).getD 0 then some 0
  else ((passRuns x).findIdx? fun r => decide (0 < passOpen r)).map (· + 1)

/-- The descriptor and N_done of that run. -/
def openDesc (x : Array) : Nat → Option (ADesc × Nat)
  | 0 => x.accRun.map fun r => (r.desc, r.done)
  | i + 1 => (passRuns x)[i]?.map fun r => (r.desc, r.done)

/-- The block in staging block A has committed. -/
def blockDone (k : Nat) (x : Array) : Array :=
  let up (n d : Nat) : Nat := min n (d + 64)
  let y := { x with stA := x.stB, stB := [], out := none, retryFrom := none }
  match k with
  | 0 => { y with accRun := x.accRun.map fun r => { r with done := up (dN r.desc.words) r.done } }
  | i + 1 => match (passRuns x)[i]? with
    | some r => setRun i { r with done := up (dN r.desc.words) r.done } y
    | none => y

/-- DRAIN_BLOCK_COMMIT (R96, R103, R113): the oldest full block goes through the epilogue to memory; its N_done
counts once every write has been acknowledged. An array that stops still commits the blocks of a pass that completes at
the stop's boundary (R109). -/
def execDrainBlockCommit (a : Ary) (s : State) : Host.Outcome State Fault Refusal :=
  let x := s.getAry a.val
  if !(decide (x.mode = .running) || (decide (x.mode = .stopping) && finishing x)) || x.busy then ok s
  else
    match openRun x with
    | none => ok s
    | some k =>
      match x.out with
      | some [] => ok (s.modAry a.val (blockDone k))
      | some _ => ok s
      | none =>
        match openDesc x k with
        | none => ok s
        | some (d, done) =>
          let b := doneBlocks done (dN d.words)
          match writeBlock a.val d b (min 64 (dN d.words - 64 * b)) s with
          | (s1, .ok []) => ok (s1.modAry a.val (blockDone k))
          | (s1, .ok tids) => ok (s1.modAry a.val fun x => { x with out := some tids })
          | (s1, .wait) => ok s1
          | (s1, .bus) => ok (if k = 0 then busErr a.val s1 else passErr a.val (k - 1) s1)
          | (s1, .fault kind va c e lv) => ok (faultStop a.val d kind va c e lv s1)

/-- The tile that a pass which has ended leaves in the cells (R97). -/
def leftTile (r : PassRun) : Option Tile := if r.lost then none else some r.tile

/-- The descriptor at the head has completed: it ends with code OK (R106). A successor whose read met an error then ends with
BUS_ERR (R112). -/
def passEnds (a : Nat) (isPass : Bool) (d : ADesc) (s : State) : State :=
  let end_ (s : State) : State :=
    let s1 := s.modAry a fun x =>
      let y := endHead 0 (dN d.words) x
      let z := if isPass then
          { y with passes := x.passes + 1, active := x.cur.bind leftTile, cur := x.next.head?, next := x.next.drop 1 }
        else { y with accRun := none, active := none }
      if x.mode = .stopping then z else { z with mode := if z.fifo.isEmpty then .idle else .running }
    if ((s1.getAry a).cur.map (·.bad)).getD false then busErr a s1 else s1
  if dSyncEn d.words then
    match synSignal (dSyncId d.words) 9 1 s with
    | .done s1 _ _ => end_ s1
    | .bus => end_ s
    | .resetting => s
  else end_ s

/-- The descriptor at the head has done everything but end. -/
def headDone (x : Array) : Bool :=
  match x.accRun, x.cur with
  | some r, _ => decide (r.done = dN r.desc.words)
  | none, some r => passDone r
  | none, none => false

/-- The head descriptor's completion, where it has completed. -/
def completeHead (a : Nat) (s : State) : State :=
  let x := s.getAry a
  if !headDone x then s
  else
    match x.accRun, x.cur with
    | some r, _ => passEnds a false r.desc s
    | none, some r => passEnds a true r.desc s
    | none, none => s

/-- No descriptor behind the head has a column in the cells. -/
def alone (x : Array) : Bool := (if x.accRun.isSome then passRuns x else x.next).all fun q => q.t == 0

/-- ARRAY_PASS_COMPLETE (R106, R107). -/
def execArrayPassComplete (a : Ary) (s : State) : Host.Outcome State Fault Refusal :=
  let x := s.getAry a.val
  if !(decide (x.mode = .running) || (decide (x.mode = .stopping) && finishing x)) || x.busy then ok s else ok (completeHead a.val s)

/-! ### Walks and errors from outside the step (R108, R112) -/

/-- The address lies in the `n` bytes from `base`. -/
def inBytes (va base n : Nat) : Bool := decide (base % 2 ^ 48 ≤ va ∧ va < base % 2 ^ 48 + n)

/-- The stationary load of pass `i` runs: its reads are issued (R91, R97). -/
def loadsNow (x : Array) (i : Nat) (r : PassRun) : Bool := !r.loaded && !r.bad && mayRead x i r

/-- A stationary load reads the address: a byte of an element to load (R84, R86, R94, R95). -/
def readsTile (w : Line) (va : Nat) : Bool :=
  let eb := elemBits (dSFmt w)
  (List.range (density (dWFmt w))).any fun i => (List.range 64).any fun ra => (rowLoads w i ra).any fun cb =>
    inBytes va (dSAddr w + i * dSStride w + ra * (8 * eb) + (runBytes eb (cb, 1)).1) (runBytes eb (cb, 1)).2

/-- A stationary load reads the scale byte at the address (R89). -/
def readsTileScale (w : Line) (va : Nat) : Bool :=
  isMX (dSFmt w) && dSscAddr w != 0 && inBytes va (dSscAddr w) (128 * density (dWFmt w))

/-- The blocks of a descriptor whose last column has been accepted into staging and that have not committed: the translation
of their writes is walked (R108). -/
def walksBlock (w : Line) (k done va : Nat) : Bool :=
  (List.range (closedBlocks k (dN w) - doneBlocks done (dN w))).any fun b =>
    inBytes va (dDAddr w + (doneBlocks done (dN w) + b) * dDNStride w) (tileBytes (dOutFmt w) + if isMX (dOutFmt w) then 128 else 0)

/-- An access of the kind at this address is one that pass `i` makes now (R108): a read of its stationary load, a read of
the step it works in, or the write of a block that is complete in staging. -/
def passUses (x : Array) (i : Nat) (r : PassRun) (kind : ArrayAccess) (va : Nat) : Bool :=
  let w := r.desc.words
  let steps := (steppers x).any fun e => e.1 == i
  match kind with
  | .stationary => loadsNow x i r && readsTile w va
  | .streamed => steps && (stepValues r).any fun e => inBytes va (feedAddr w e.1 e.2.1 e.2.2) ((streamBits (dWFmt w) + 7) / 8)
  | .scale => (loadsNow x i r && readsTileScale w va)
      || (steps && feedScaled w && (stepValues r).any fun e => inBytes va (feedScaleAddr w e.1 e.2.1 e.2.2) 1)
  | .destination => dDest w && walksBlock w (accepted r) r.done va

/-- Fault kind of Table 3.8. -/
def faultKindOf : ArrayAccess → Nat
  | .stationary => 1
  | .streamed => 2
  | .scale => 3
  | .destination => 4

/-- The run whose walk this is. -/
def walkDesc (x : Array) (kind : ArrayAccess) (va : Nat) : Option ADesc :=
  match (passRuns x).zipIdx.find? fun e => passUses x e.2 e.1 kind va with
  | some e => some e.1.desc
  | none =>
    match x.accRun with
    | some r => if decide (kind = .destination) && walksBlock r.desc.words r.n r.done va then some r.desc else none
    | none => none

/-- ARRAY_WALK_DONE (R108): the walk of an access ends; a fault stops the array with cause FAULT. -/
def execArrayWalkDone (a : Ary) (kind : ArrayAccess) (va : BitVec 48) (s : State) : Host.Outcome State Fault Refusal :=
  let x := s.getAry a.val
  if (x.mode ≠ .running ∧ x.mode ≠ .stopping) ∨ x.busy then ok s
  else
    match walkDesc x kind va.toNat with
    | none => ok s
    | some d =>
      let (s1, r) := translate (a.val / 2) d.ctx.val va (if kind = .destination then .write else .read) s
      match r with
      | .fault c e lv => ok (faultStop a.val d (faultKindOf kind) va.toNat c e lv s1)
      | _ => ok s1

/-- ARRAY_READ_ERROR (R112): a read of the oldest pass taken met an uncorrectable error or poison. Behind an ACC_OUT the
pass ends once it heads the FIFO. -/
def execArrayReadError (a : Ary) (s : State) : Host.Outcome State Fault Refusal :=
  let x := s.getAry a.val
  if x.mode ≠ .running ∨ x.cur.isNone ∨ x.busy then ok s
  else ok (passErr a.val 0 s)

/-! ### The save area (Table 3.8) -/

/-- A parked pass or ACC_OUT is in the array. -/
def holdsPass (x : Array) : Bool := x.cur.isSome || x.accRun.isSome

/-- The tile whose words, scales and cells the save records. At positions that a parked pass with N_REC from 1 to 63 has not
swapped yet, where the earlier tile still stands, the save records the pass's own values, which its restore takes from there
(R110, R518; DESIGN CHOICE, log 81). -/
def savedTile (x : Array) : Option Tile :=
  match x.cur with
  | some r => if r.t = 0 then x.active else some r.tile
  | none => x.active

/-- Bytes of the active tile in cell order (R88); none where they do not fit (R110). An encoding of a successor in a swapped cell
has the width of the tile's elements: the layout has no room for a wider one (DESIGN CHOICE, log 81). -/
def tileImage (t : Tile) : List Byte :=
  let l : Line := [t.w0]
  let eb := elemBits (dSFmt l)
  let d := density (dWFmt l)
  if eb = 6 ∧ d = 4 then []
  else
    (List.range d).flatMap fun i => (List.range 64).flatMap fun m =>
      leBytes (8 * eb) ((List.range 64).foldl (fun n j => n + (Tbl.get 0 t.codes ((64 * i + m) * 64 + j)).toNat % 2 ^ eb * 2 ^ (eb * j)) 0)

/-- The pieces of the save area: offset and bytes. The scale bytes of a tile without scale records, the tile bytes of cells
that load no value, and an eighth FIFO entry with no pass parked (Table 3.8 has room for seven) are the model's: 0, 0, and left
out (DESIGN CHOICE, log 81). -/
def saveImage (x : Array) : List (Nat × List Byte) :=
  let d : Option ADesc := match x.accRun, x.cur with
    | some r, _ => some r.desc
    | none, some r => some r.desc
    | none, none => none
  let done := match x.accRun, x.cur with
    | some r, _ => r.done
    | none, some r => r.done
    | none, none => 0
  let rest := if holdsPass x then x.fifo.drop 1 else x.fifo
  let fault := getBit x.cause 2
  let t := savedTile x
  let block (b : Tbl W32) : List Byte := (List.range 4096).flatMap fun k => leBytes 4 (Tbl.get 0 b k).toNat
  let sums := match x.accRun, x.cur with
    | none, some r => (List.range 4096).flatMap fun k => leBytes 5 (Tbl.get 0 r.psum k).toNat
    | _, _ => List.replicate 20480 0
  [(0, match d with | some d => lineBytes d.words | none => List.replicate 64 0),
   (0x40, leBytes 2 (nRec x) ++ leBytes 2 done ++ [BitVec.ofNat 8 x.cause.toNat, BitVec.ofNat 8 (min 7 rest.length)]
      ++ leBytes 2 (fullBlocks x + fillCols x * 4) ++ leBytes 8 x.s0.toNat ++ leBytes 8 x.s1.toNat
      ++ leBytes 8 (if fault then x.faultAddr.toNat else 0) ++ [if fault then BitVec.ofNat 8 x.faultKind.toNat else 0]
      ++ List.replicate 7 0
      ++ (match t with
          | some t => leBytes 8 t.w0.toNat ++ leBytes 8 t.w3.toNat ++ leBytes 8 t.w6.toNat ++ [BitVec.ofNat 8 t.ctx.val]
          | none => List.replicate 25 0)
      ++ List.replicate 127 0),
   (0x100, match t with
      | some t => (List.range 512).map fun k => Tbl.get 0 t.scales k
      | none => List.replicate 512 0),
   (0x400, match t with | some t => tileImage t | none => []),
   (0x2400, sums),
   (0x7400, block x.stA),
   (0xB400, block x.stB),
   (0xF400, (rest.take 7).flatMap fun d => lineBytes d.words)]

/-- Write pieces of a save area in Loess scratch at local address `base`. -/
def writeSave (base : Nat) (ps : List (Nat × List Byte)) (s : State) : State :=
  match scratchOf s base with
  | none => s
  | some (j, x) => forL ps (fun p s => if p.2 = [] then s else (scratchWrite j (x + p.1) p.2 s).1) s

/-- The save ends: the area is written and the array parks (R108); draws left of the current word are discarded (R136). -/
def parkArray (a : Nat) (s : State) : State :=
  let x := s.getAry a
  let s1 := writeSave x.saveBase.toNat (saveImage x) s
  s1.modAry a fun x =>
    let y := { x with mode := .parked, drawLeft := 0 }
    match x.accRun, x.cur with
    | some r, _ => { y with code := 0x10, nDone := BitVec.ofNat 16 r.done }
    | none, some r => { y with code := 0x10, nDone := BitVec.ofNat 16 r.done }
    | none, none => y

/-! ### ARY_CTRL (Table 3.10, R108, R109, R112, R115) -/

/-- Only the owning partition controller and the management core write these registers. -/
def ctrlAllowed (r : Nat) (p : Nat) : Bool := r == 1 || r == 2 + p

/-- Registers of site `j` answer nothing: it is fused off (R18), in an L0, inside a fenced partition, or the device resets
(R426). -/
def siteFenced (s : State) (j : Nat) : Bool :=
  s.fuses.sitesOff.contains j || (s.getSite j).mode == 4 || inReset s (j / 24) || s.rst.running.any fun x => decide (3 ≤ x.level)

/-- The same for the registers of block `b` of the site, also while the block resets (R431). -/
def blockFenced (s : State) (j b : Nat) : Bool := siteFenced s j || getBit (s.getSite j).blkBusy b

/-- Requester `r` may write the control registers of block `b` of site `j`. -/
def siteWritable (s : State) (r j b : Nat) : Bool := ctrlAllowed r (j / 24) && !blockFenced s j b

/-- A write the array counts (R115, R495). -/
def aryRegErr (r a off : Nat) (s : State) : State := countRegErr r 11 off (some (a / 48)) s

/-- Stop with causes: a pass that has completed ends first, and where no later descriptor has a column in the cells the array
parks before the next one, with no pass (R109); an array that is stopping or PARKED
takes the cause and writes no second save (R109). -/
def stopArray (a cause : Nat) (s : State) : State :=
  let x := s.getAry a
  match x.mode with
  | .stopping => s.modAry a fun x => { x with cause := x.cause ||| BitVec.ofNat 3 cause }
  | .restoring => s.modAry a fun x => { x with cause := x.cause ||| BitVec.ofNat 3 cause }
  | .parked => s.modAry a fun x => { x with cause := x.cause ||| BitVec.ofNat 3 cause }
  | _ =>
    if x.mode = .running ∧ headDone x then
      (completeHead a (if alone x then s.modAry a dropNext else s)).modAry a (stopNow cause)
    else s.modAry a (stopNow cause)

/-- The array leaves PARKED with no pass to restore. -/
def leavePark (x : Array) : Array :=
  if x.haltNext then { x with mode := .halted, haltNext := false }
  else { x with mode := if x.fifo.isEmpty then .idle else .running }

/-- Resume for causes (R109). -/
def resumeArray (a cause : Nat) (s : State) : State :=
  s.modAry a fun x =>
    let c := x.cause &&& ~~~(BitVec.ofNat 3 cause)
    let y := { x with cause := c }
    if c ≠ 0 then y
    else if holdsPass x then { y with mode := .restoring }
    else leavePark y

/-- ARY_SAVE_DONE (R108); with every cause cleared meanwhile the array goes on, and a pass that completes at the stop's
boundary completes first, unless a fault of its own stops it (R109). -/
def execArySaveDone (a : Ary) (s : State) : Host.Outcome State Fault Refusal :=
  let x := s.getAry a.val
  if x.mode ≠ .stopping ∨ (finishing x ∧ !getBit x.cause 2) then ok s
  else
    let s1 := parkArray a.val s
    ok (if (s1.getAry a.val).cause = 0 then resumeArray a.val 0 s1 else s1)

/-- Clear causes at an array in any state: one that is PARKED resumes when none is left. -/
def clearCause (a cause : Nat) (s : State) : State :=
  if (s.getAry a).mode = .parked then resumeArray a cause s
  else s.modAry a fun x => { x with cause := x.cause &&& ~~~(BitVec.ofNat 3 cause) }

/-- DISCARD on an array parked with the fault cause (R112). -/
def discardPass (a : Nat) (s : State) : State :=
  let x := s.getAry a
  let task := if holdsPass x then (x.fifo.head?).bind (·.task) else none
  let done := match x.accRun, x.cur with
    | some r, _ => r.done
    | none, some r => r.done
    | none, none => 0
  let s1 := s.modAry a fun x =>
    let c := x.cause &&& 3#3
    let y := if holdsPass x then { endHead 2 done (discardHead x) with cause := c, haltBy := task } else { x with cause := c }
    if c = 0 then { y with mode := .halted, haltNext := false } else { y with haltNext := true }
  if holdsPass x then faultMessage task 5 2 s1 else s1

/-- FLUSH: every entry but a parked pass ends FLUSHED, in order; the last one's columns count (R112, R113). -/
def flushArray (a : Nat) (s : State) : State :=
  s.modAry a fun x =>
    let k := if holdsPass x then 1 else 0
    let y := match (x.fifo.drop k).getLast? with
      | some d => { x with fifo := x.fifo.take k, code := 5, nDone := BitVec.ofNat 16 d.made }
      | none => x
    if x.mode = .halted then { y with mode := .idle } else y

/-- A write of ARY_CTRL. -/
def aryCtrl (r a val : Nat) (s : State) : State :=
  let x := s.getAry a
  let cause := bits val 6 4
  if !siteWritable s r (a / 2) (a % 2) || val % 16 == 0 then s
  else if val % 16 = 1 ∧ x.mode ≠ .parked then
    if cause % 4 = 0 ∨ x.busy then aryRegErr r a 0x100 s else stopArray a (cause % 4) s
  else if val % 16 = 1 then
    if cause = 0 ∨ (bit cause 2 ∧ !getBit x.cause 2) then aryRegErr r a 0x100 s else resumeArray a cause s
  else if val % 16 = 2 ∧ x.mode = .parked ∧ getBit x.cause 2 then discardPass a s
  else if val % 16 = 4 ∧ (x.mode = .parked ∨ x.mode = .halted) then flushArray a s
  else if val % 16 = 8 ∧ x.mode = .halted then
    s.modAry a fun x => { x with mode := if x.fifo.isEmpty then .idle else .running }
  else aryRegErr r a 0x100 s

/-- ARY_STOP (R108, R109): the STOP_RESUME write to an array that is not PARKED. -/
def execAryStop (r : Req) (a : Ary) (cause : BitVec 3) (s : State) : Host.Outcome State Fault Refusal :=
  if (s.getAry a.val).mode = .parked then ok s else ok (aryCtrl r.val a.val (1 + 16 * cause.toNat) s)

/-- ARY_RESUME (R109): the STOP_RESUME write to a PARKED array. -/
def execAryResume (r : Req) (a : Ary) (cause : BitVec 3) (s : State) : Host.Outcome State Fault Refusal :=
  if (s.getAry a.val).mode ≠ .parked then ok s else ok (aryCtrl r.val a.val (1 + 16 * cause.toNat) s)

/-- ARY_DISCARD (R112, R115). -/
def execAryDiscard (r : Req) (a : Ary) (s : State) : Host.Outcome State Fault Refusal := ok (aryCtrl r.val a.val 2 s)

/-- ARY_FLUSH (R112, R115). -/
def execAryFlush (r : Req) (a : Ary) (s : State) : Host.Outcome State Fault Refusal := ok (aryCtrl r.val a.val 4 s)

/-- ARY_CLR_HALT (R112, R115). -/
def execAryClrHalt (r : Req) (a : Ary) (s : State) : Host.Outcome State Fault Refusal := ok (aryCtrl r.val a.val 8 s)

/-! ### Restores (R110) -/

/-- A fault on a read of a restore: PARKED with cause FAULT, the kind and address in the header and the
registers (R110). -/
def restoreFault (a : Nat) (kind va : Nat) (s : State) : State :=
  let x := s.getAry a
  writeSave x.saveBase.toNat [(0x58, leBytes 8 va ++ [BitVec.ofNat 8 kind])]
    (s.modAry a fun x => { x with
      mode := .parked, cause := x.cause ||| 4#3, faultAddr := BitVec.ofNat 48 va, faultKind := BitVec.ofNat 3 kind })

/-- The fault record of a restore's read. -/
def restoreRecord (a : Nat) (d : ADesc) (va cause : Nat) (entry : W64) (level : Nat) (s : State) : State :=
  postFault (a / 48) (aryAgent a)
    (mkFaultRec 2 cause (accessCode .read cause) d.ctx.val (a / 2) (a % 2) d.cls.val va (now s) (nRec (s.getAry a)) entry level) d.task
    (countFault (a / 2) s)

/-- Go on with the restored pass, or park again for a cause that came meanwhile (R109). -/
def restored (x : Array) : Array :=
  if x.cause ≠ 0 then { x with mode := .parked } else { x with mode := .running }

/-- The streamed values that lanes 1 to 63 still need of columns N_REC − 63 to N_REC − 1 (R110). -/
def restoreValues (r : PassRun) : List (Nat × Nat × Nat) :=
  ((List.range (min r.t (dN r.desc.words))).filter fun n => decide (r.t ≤ n + 63)).flatMap fun n =>
    ((List.range 64).filter fun l => decide (r.t ≤ n + l)).flatMap fun l => offeredValues r.desc.words l n

/-- The descriptor from which a restore loads the stationary tile again: the pass's own before it has swapped its tile in, or
words 0, 3 and 6 of the one that loaded a tile which the save does not hold (R110). -/
def restoreTile (r : PassRun) : Option ADesc :=
  let t : Line := [r.tile.w0]
  if r.t = 0 ∧ !dSKeep r.desc.words then some r.desc
  else if elemBits (dSFmt t) = 6 ∧ density (dWFmt t) = 4 then
    some { r.desc with words := [r.tile.w0, 0, r.tile.mask, r.tile.w3, 0, 0, r.tile.w6, 0], ctx := r.tile.ctx }
  else none

/-- The end of a restore's reads with a fault: PARKED again, and the fault record. -/
def restoreStops (a : Nat) (d : ADesc) (kind va cause : Nat) (entry : W64) (level : Nat) (s : State) : State :=
  restoreRecord a d va cause entry level (restoreFault a kind va s)

/-- ARY_RESTORE_DONE (R110): the restore loads a tile that the save does not hold, reads the streamed columns that lanes 1
to 63 still need, and, once these reads have `returned`, the array goes on at column N_REC. A translation fault on one of
them parks it again. -/
def execAryRestoreDone (a : Ary) (returned : Bool) (s : State) : Host.Outcome State Fault Refusal :=
  let x := s.getAry a.val
  if x.mode ≠ .restoring ∨ !returned then ok s
  else
    match x.accRun, x.cur with
    | none, some r =>
      let columns (r : PassRun) (s : State) : State :=
        match feedValues a.val r.desc (restoreValues r) s with
        | (s1, .ok _) => s1.modAry a.val fun x => restored { x with cur := some r }
        | (s1, .wait) => s1
        | (s1, .bus) => busErr a.val s1
        | (s1, .fault k va c e lv) => restoreStops a.val r.desc k va c e lv s1
      match restoreTile r with
      | none => ok (columns r s)
      | some d =>
        match loadTile a.val d s with
        | (s1, .ok tile) => ok (columns { r with tile := tile, loaded := true, left := 0 } s1)
        | (s1, .wait) => ok s1
        | (s1, .bus) => ok (busErr a.val s1)
        | (s1, .fault k va c e lv) => ok (restoreStops a.val d k va c e lv s1)
    | _, _ => ok (s.modAry a.val restored)

/-! ### Save base and seed (R114, R136) -/

/-- ARY_SAVE_BASE_WRITE (R114): only while the array is IDLE. -/
def execArySaveBaseWrite (r : Req) (a : Ary) (hi : Bool) (val : W32) (s : State) : Host.Outcome State Fault Refusal :=
  let x := s.getAry a.val
  if !siteWritable s r.val (a.val / 2) (a.val % 2) then ok s
  else if x.mode ≠ .idle then ok (aryRegErr r.val a.val (if hi then 0x110 else 0x10C) s)
  else
    let b := x.saveBase.toNat
    let v := if hi then bits val.toNat 7 0 * 2 ^ 32 + b % 2 ^ 32 else b / 2 ^ 32 * 2 ^ 32 + bits val.toNat 31 16 * 2 ^ 16
    ok (s.modAry a.val fun x => { x with saveBase := BitVec.ofNat 40 v })

/-- ARY_SR_SEED_HI_WRITE (R136). -/
def execArySrSeedHiWrite (r : Req) (a : Ary) (val : W32) (s : State) : Host.Outcome State Fault Refusal :=
  if !siteWritable s r.val (a.val / 2) (a.val % 2) then ok s
  else ok (s.modAry a.val fun x => { x with
    seedHi := val, seedNew := some (BitVec.ofNat 64 (x.seedLo.toNat + val.toNat * 2 ^ 32)) })

/-! ### Fabric responses to an array (R372) -/

/-- An ACK or DATA response to one of the array's requests. -/
def aryAnswer (a tid : Nat) (bs : List Byte) (s : State) : State :=
  s.modAry a fun x => { x with
    far := x.far.map fun f => if f.tid = some tid then { f with tid := none, data := bs } else f
    out := x.out.map fun l => l.filter (· ≠ tid) }

/-- A final error response, or giving up, for one of them (R112): a write of the oldest open block ends its descriptor
with BUS_ERR; a read is marked, and the pass that needs it meets the error. -/
def aryError (a tid : Nat) (s : State) : State :=
  let x := s.getAry a
  if (match x.out with | some l => l.contains tid | none => false) then
    if x.mode = .running ∨ (x.mode = .stopping ∧ finishing x) then
      match openRun x with
      | some (i + 1) => passErr a i s
      | _ => busErr a s
    else s
  else s.modAry a fun x => { x with far := x.far.map fun f => if f.tid = some tid then { f with tid := none, bad := true } else f }

/-! ### L0 and aborts (R97, R112, R136, R273) -/

/-- The array as a block reset or L0 leaves it; its registers' save base is kept where `keep` is set. -/
def freshArray (x : Array) (keep : Bool) : Array := if keep then { saveBase := x.saveBase } else {}

/-- A descriptor belongs to a task that is being ended. -/
def descOf (p : Option TaskRef → Bool) (d : ADesc) : Bool := p d.task

/-- The head of an array is aborted: its columns are discarded and the active tile becomes invalid (R112, R273). A stop cause
other than its own fault stands until it is cleared (R109); a restore of the pass ends with it (R274). -/
def abortHead (x : Array) : Array :=
  let y := { discardHead x with active := none, far := [], out := none, retryFrom := none }
  let c := x.cause &&& 3#3
  match x.mode with
  | .running => { y with mode := if y.fifo.isEmpty then .idle else .running }
  | .stopping => { y with cause := c }
  | .restoring => if c = 0 then leavePark { y with cause := c } else { y with cause := c, mode := .parked }
  | .parked => if c = 0 then leavePark { y with cause := c } else { y with cause := c }
  | _ => y

/-- N_done of entry `i` of the FIFO (R113). -/
def entryDone (x : Array) (i : Nat) : Nat :=
  match x.accRun, i with
  | some r, 0 => r.done
  | some _, k + 1 => match (passRuns x)[k]? with
    | some r => r.done
    | none => ((x.fifo[k + 1]?).map (·.made)).getD 0
  | none, k => match (passRuns x)[k]? with
    | some r => r.done
    | none => ((x.fifo[k]?).map (·.made)).getD 0

/-- N_done of the last entry that an abort ends. -/
def lastAborted (p : Option TaskRef → Bool) (x : Array) : Nat :=
  match (x.fifo.zipIdx.filter fun e => descOf p e.1).getLast? with
  | some e => entryDone x e.2
  | none => 0

/-- An array whose descriptors of the tasks that satisfy `p` end ABORTED: running columns are discarded, the active tile
becomes invalid, entries of other tasks stay and are taken again (R112, R273, R518). A successor's abort sends back the passes
from it on, and no whole tile is left once it had been taken (R97). -/
def abortedArray (p : Option TaskRef → Bool) (x : Array) : Array :=
  match x.fifo.findIdx? (descOf p) with
  | none => x
  | some i =>
    let acc := b2n x.accRun.isSome
    let ended (y : Array) : Array :=
      { y with fifo := y.fifo.filter fun d => !descOf p d, code := 4, nDone := BitVec.ofNat 16 (lastAborted p x) }
    if i = 0 ∧ 0 < takenCount x then
      -- the other passes' entries are counted from the head, so they go back before it leaves the FIFO
      let z := ended (abortHead x)
      { z with mode := if z.mode = .running ∧ z.fifo.isEmpty then .idle else z.mode }
    else if i < takenCount x then
      let y := returnRuns (i - acc) x
      ended { y with cur := y.cur.map fun r => { r with lost := true }, next := y.next.map fun r => { r with lost := true }, active := none
                     far := [] }
    else
      let y := ended x
      let z := if takenCount x = 0 then { y with active := none } else y
      { z with mode := if (z.mode = .running ∨ z.mode = .idle) ∧ takenCount x = 0 then (if z.fifo.isEmpty then .idle else .running) else z.mode }

/-- End every descriptor of the tasks that satisfy `p` with code ABORTED. Requests that another device has yet to answer are
not sent again: all of them where the head is ended, the reads where a successor is (R273, R275). -/
def abortArray (a : Nat) (p : Option TaskRef → Bool) (s : State) : State :=
  let x := s.getAry a
  match x.fifo.findIdx? (descOf p) with
  | none => s
  | some i =>
    let mine (tid : Nat) : Bool := i == 0 || x.far.any fun f => f.tid == some tid
    let s1 := if i < takenCount x then killRequests (a / 48) (aryAgent a) mine ((x.fifo[i]?).bind (·.task)) s else s
    s1.modAry a (abortedArray p)

end Sys2Proof.Machine
end

