-- ==== Sys2Proof/Machine/GroupMem.lean ====
section
/-! DEFINITION. Loads, stores, line discards and atomics of a thread group, in context space and in shared
space, with the replies they wait for (R147 to R149, R155 to R160, R165, R166, R174 to R176, R181, R185,
R191, R192). -/

namespace Sys2Proof.Machine
open Sys2Proof

/-- The agent of a group slot. -/
def grpAgent (site : Site) (slot : Slot) : Agent := .group site slot

/-! ### The L1 data cache (R191, R192) -/

/-- Set of an L1 line of 128 bytes, by the low bits of the line address (log 22). -/
def l1Set (line : Nat) : Nat := line % 128

/-- The L1 line that holds a local address. -/
def l1Find (s : State) (site pa : Nat) : Option L1Line :=
  (Tbl.get [] (s.getSite site).l1 (l1Set (pa / 128))).find? fun l => l.addr = pa / 128

/-- Drop a line from L1. -/
def l1Drop (site pa : Nat) (s : State) : State :=
  s.modSite site fun x => { x with l1 := Tbl.mod [] x.l1 (l1Set (pa / 128)) (fun ls => ls.filter fun l => l.addr ≠ pa / 128) }

/-- Put a line in as the most recently used of its set's 8 ways. -/
def l1Put (site : Nat) (line : Nat) (data : List Byte) (s : State) : State :=
  let put (ls : List L1Line) : List L1Line :=
    ({ addr := line, data := data } :: ls.filter fun l => l.addr ≠ line).take 8
  s.modSite site fun x => { x with l1 := Tbl.mod [] x.l1 (l1Set line) put }

/-- A store updates the line where L1 holds it (R192). -/
def l1Store (site pa : Nat) (bs : List Byte) (s : State) : State :=
  match l1Find s site pa with
  | none => s
  | some _ =>
    let upd (l : L1Line) : L1Line := if l.addr = pa / 128 then { l with data := setBytes l.data (pa % 128) bs } else l
    s.modSite site fun x => { x with l1 := Tbl.mod [] x.l1 (l1Set (pa / 128)) (·.map upd) }

/-- A load of `n` bytes of a local address through L1: a hit gives the line's bytes; a miss, or a hit with a
parity error, reads the home and fills the line (R191, R192). Where the line meets an error outside the bytes of the load, the load
has its bytes and L1 allocates nothing (DESIGN CHOICE, log 22: the spec does not say whether such a load errs). Windows bypass L1. -/
def l1Load (who : Agent) (site pa n : Nat) (lab : Label) (parity : Bool) (s : State) : State × Option PhysErr × List Byte :=
  let miss (s : State) : State × Option PhysErr × List Byte :=
    let (s1, e, bs, _) := physRead who (pa / 128 * 128) 128 lab s
    match e with
    | none => (l1Put site (pa / 128) bs s1, none, (bs.drop (pa % 128)).take n)
    | some e => if e = .bus ∧ memGood s1 pa n then (s1, none, memBytes s1 pa n) else (s1, some e, [])
  match regionOf pa with
  | .memory =>
    match l1Find s site pa with
    | none => miss s
    | some l =>
      if parity then miss ((l1Drop site pa s).modSite site fun x => { x with l1Parity := x.l1Parity + 1 })
      else (l1Put site l.addr l.data s, none, (l.data.drop (pa % 128)).take n)
  | _ =>
    let (s2, e2, b2, _) := physRead who pa n lab s
    (s2, e2, b2)

/-! ### Addresses of the lanes (R174, R175) -/

/-- Translate the addresses of the lanes, ascending. -/
def xlateLanes (site ctx : Nat) (acc : Access) (addrs : List (Nat × BitVec 48)) (s : State) :
    State × List (Nat × BitVec 48 × XRes) :=
  addrs.foldl (fun a e =>
    let (s1, r) := translate site ctx e.2 acc a.1
    (s1, a.2 ++ [(e.1, e.2, r)])) (s, [])

/-- The lowest lane whose translation faults. -/
def laneFault (l : List (Nat × BitVec 48 × XRes)) : Option (Nat × BitVec 48 × Nat × W64 × Nat) :=
  l.findSome? fun e => match e.2.2 with
    | .fault c ent lv => some (e.1, e.2.1, c, ent, lv)
    | _ => none

/-- A lane's local target answers "target resetting" (R29). -/
def laneResetting (s : State) (l : List (Nat × BitVec 48 × XRes)) : Bool :=
  l.any fun e => match e.2.2 with
    | .local_ pa => targetResetting s pa
    | _ => false

/-- A queue or sync instruction whose target is resetting waits, and once ABF_RETRY_LIMIT has passed raises BUS_ERR, or notes
the error of a posted one for its report (R176, R323, R429). -/
def groupRetry (i lane : Nat) (addr : BitVec 48) (posted : Bool) (s : State) : State :=
  retryOr i true (fun s => if posted then finish i id (noteStoreErr i addr s) else groupHalt i 8 lane addr.toNat s) s

/-- Its instruction already waits for replies. -/
def waitsReply (g : Group) : Bool := g.loads.any (·.open_)

/-! ### Context-space loads and stores (R155, R165, R166) -/

/-- Destination writes of a lane: the bytes from register `dst` up; what a load of 1 or 2 bytes leaves in the
register's upper bits is the listing's, a free value (log 7). -/
def loadWrites (dst lane n free : Nat) (bs : List Byte) : List (Nat × Nat × W32) :=
  if n < 4 then [(dst, lane, BitVec.ofNat 32 (ofLe bs + free * 2 ^ (8 * n)))]
  else (List.range (n / 4)).map fun k => (dst + k, lane, BitVec.ofNat 32 (ofLe ((bs.drop (4 * k)).take 4)))

/-- Bytes that a lane stores: the low bytes of the registers from SB up. -/
def storeBytes (g : Group) (v lane n : Nat) : List Byte :=
  ((List.range ((n + 3) / 4)).flatMap fun k => leBytes 4 (getReg g (v + k) lane).toNat).take n

/-- Write register values. -/
def applyWrites (ws : List (Nat × Nat × W32)) (g : Group) : Group :=
  ws.foldl (fun g e => setReg g e.1 e.2.1 e.2.2) g

/-- What the replies awaited would still write to the registers of `ws` is dropped (R141). -/
def dropWrites (ws : List (Nat × Nat × W32)) (ls : List LoadPend) : List LoadPend :=
  ws.foldl (fun ls e => dropWrite e.1 e.2.1 ls) ls

/-- The local lanes of an access, with their addresses. -/
def localLanes (l : List (Nat × BitVec 48 × XRes)) : List (Nat × BitVec 48 × Nat) :=
  l.filterMap fun e => match e.2.2 with
    | .local_ pa => some (e.1, e.2.1, pa)
    | _ => none

/-- The lanes on other devices, with their fabric addresses. -/
def fabricLanes (l : List (Nat × BitVec 48 × XRes)) : List (Nat × BitVec 48 × Nat) :=
  l.filterMap fun e => match e.2.2 with
    | .fabric d => some (e.1, e.2.1, d)
    | _ => none

/-- Lanes grouped by address, groups in the order of their lowest lane. -/
def byAddr {α : Type} [DecidableEq α] (l : List (Nat × α)) : List (α × List Nat) :=
  l.foldl (fun r e =>
    if r.any fun x => x.1 = e.2 then r.map fun x => if x.1 = e.2 then (x.1, x.2 ++ [e.1]) else x
    else r ++ [(e.2, [e.1])]) []

/-- Lanes of an access with their targets, one per address. -/
def targetsOf (l : List (Nat × BitVec 48 × Nat)) : List (Nat × List Nat) := byAddr (l.map fun e => (e.1, e.2.2))

/-- The lanes whose store stays: at each address the highest one (R165). -/
def lastLanes (l : List (Nat × BitVec 48 × Nat)) : List (Nat × BitVec 48 × Nat) :=
  l.filter fun e => !(l.any fun f => f.2.2 == e.2.2 && decide (e.1 < f.1))

/-- Context address of a lane. -/
def laneVa (ls : List (Nat × BitVec 48 × XRes)) (lane : Nat) : BitVec 48 :=
  ((ls.find? fun e => e.1 = lane).map (·.2.1)).getD 0

/-- A posted request of the group to one of these fabric addresses has no final response yet: fabric requests are not ordered
(R375), so an access to the same 16 bytes waits for it (R166). -/
def ownPosted (g : Group) (ls : List (Nat × BitVec 48 × XRes)) : Bool :=
  (fabricLanes ls).any fun e => g.posted.any fun p => p.2.2 / 16 == e.2.2 / 16

/-- The exception that errors of several lanes give: the lowest code, in its lowest lane (R175). -/
def laneError (errs : List (Nat × PhysErr)) : Option (Nat × PhysErr) :=
  let low (l : List (Nat × PhysErr)) : Option (Nat × PhysErr) :=
    l.foldl (fun m e => match m with | some x => if e.1 < x.1 then some e else m | none => some e) none
  match low (errs.filter fun e => decide (e.2 = .discarded)) with
  | some e => some e
  | none => low errs

/-- Raise the exception of an error at a lane. -/
def laneHalt (site slot lane : Nat) (va : BitVec 48) (acc : Access) (e : PhysErr) (s : State) : State :=
  match e with
  | .discarded => groupFault site slot lane va acc 8 0 0xFF s
  | _ => groupHalt (gIx site slot) 8 lane va.toNat s

/-- A load's reads of the local lanes, one for each address (R165): the writes, and the errors with the lowest lane of each. -/
def loadLocal (who : Agent) (site dst n : Nat) (lab : Label) (parity : Bool) (l : List (Nat × BitVec 48 × Nat)) (s : State) :
    State × List (Nat × PhysErr) × List (Nat × Nat × W32) :=
  (targetsOf l).foldl (fun a e =>
    let (s, errs, ws) := a
    let (s1, e1, bs) := l1Load who site e.1 n lab parity s
    match e1 with
    | some x => (s1, errs ++ [(e.2.headD 0, x)], ws)
    | none => (s1, errs, ws ++ e.2.flatMap fun k => loadWrites dst k n (freeAt s k) bs)) (s, [], [])

/-- A group's access that crosses its site's port: it goes where the port takes it, else the group waits (R81, R183). -/
def atPort (i j : Nat) (use : PortUse) (crosses : Bool) (run : State → State) (s : State) : State :=
  if !crosses then run s
  else if portMay s j use then run (portTake j use s)
  else stallGroup i (portHold j use s)

/-- An address of a local memory. -/
def inMemory (pa : Nat) : Bool :=
  match regionOf pa with
  | .memory => true
  | _ => false

/-- A local lane of the load misses L1: its fill crosses the port (R191). -/
def fillsLine (s : State) (site : Nat) (parity : Bool) (l : List (Nat × BitVec 48 × Nat)) : Bool :=
  l.any fun e => inMemory e.2.2 && (parity || (l1Find s site e.2.2).isNone)

/-- A local lane accesses a memory. -/
def touchesMemory (l : List (Nat × BitVec 48 × Nat)) : Bool := l.any fun e => inMemory e.2.2

/-- A context-space load whose addresses are translated. -/
def groupLoad (site : Site) (slot : Slot) (w : W64) (log2 : Nat) (parity : Bool)
    (ls : List (Nat × BitVec 48 × XRes)) (s : State) : State :=
  let i := gIx site.val slot.val
  let g := s.getGrp i
  let n := 2 ^ log2
  let who := grpAgent site slot
  let (s1, errs, ws) := loadLocal who site.val (iDst w) n (agentLabel s who) parity (localLanes ls) s
  let far := targetsOf (fabricLanes ls)
  let pk := far.map fun e => (e.2.headD 0, reqPkt s1 who 2 e.1 0 n [])
  match issueAll (site.val / 24) who pk s1 with
  | .held => stallGroup i s
  | .sent s2 tids bad =>
    match laneError (errs ++ bad.map fun l => (l, .bus)) with
    | some (lane, e) => laneHalt site.val slot.val lane (laneVa ls lane) .read e s1
    | none =>
      let m := actLanes g w
      let here : LoadPend := { writes := ws, tid := none, log2 := log2, dst := iDst w, lanes := m, addr := laneVa ls (lowLane m)
                               atom := false, open_ := !tids.isEmpty }
      if tids.isEmpty then useFree 32 (finish i (fun g => { g with loads := dropWrites ws g.loads ++ [here] }) s2)
      else
        let ps := (far.zip tids).map fun e => ({
          writes := [], tid := some e.2.2, log2 := log2, dst := iDst w, lanes := e.1.2.foldl (fun m l => setBit m l true) 0
          addr := laneVa ls e.2.1, atom := false, open_ := true } : LoadPend)
        useFree 32 (s2.modGrp i fun g => { g with loads := g.loads ++ here :: ps, remote := g.remote + tids.length })

/-- A context-space store whose addresses are translated: one write for each address, with the bytes of its highest lane
(R165). -/
def groupStore (site : Site) (slot : Slot) (w : W64) (log2 : Nat) (ls : List (Nat × BitVec 48 × XRes)) (s : State) : State :=
  let i := gIx site.val slot.val
  let g := s.getGrp i
  let n := 2 ^ log2
  let who := grpAgent site slot
  let far := lastLanes (fabricLanes ls)
  let near := lastLanes (localLanes ls)
  let pk := far.map fun e => (e.1, reqPkt s who 1 e.2.2 0 0 (storeBytes g (iSb w) e.1 n))
  match issueAll (site.val / 24) who pk s with
  | .held => stallGroup i s
  | .sent s1 tids bad =>
    let s2 := forL bad (fun lane s => noteStoreErr i (laneVa ls lane) s) s1
    let s3 := forL near (fun e s =>
      let bs := storeBytes g (iSb w) e.1 n
      let (s4, err) := physWrite who e.2.2 bs (agentLabel s who) s
      match err with
      | none => l1Store site.val e.2.2 bs s4
      | some _ => noteStoreErr i e.2.1 s4) s2
    let one := if near.isEmpty then 0 else 1
    finish i (fun g => { g with
      stores := g.stores + one, remote := g.remote + tids.length
      posted := g.posted ++ tids.map fun t => (t.2, laneVa ls t.1, ((far.find? fun e => e.1 = t.1).map (·.2.2)).getD 0) }) s3

/-- CONTEXT_LOAD_STORE (R155, R165, R166, R174, R191, R192, R208). The address stands in the pair SA:SA + 1,
the data from SB up, the result from DST up (log 7). -/
def execContextLoadStore (site : Site) (slot : Slot) (w : W64) (form : MemForm) (parity : Bool) (s : State) :
    Host.Outcome State Fault Refusal :=
  if !runsOp s site.val slot.val w 0x40 0x47 then ok s
  else
    let i := gIx site.val slot.val
    let g := s.getGrp i
    let n := 2 ^ form.log2.val
    let k := (n + 3) / 4 - 1
    if waitsReply g then ok s
    else if iSc w ≠ 0 ∨ ((form.store ∨ form.discard) ∧ iDst w ≠ 0) ∨ ((!form.store ∨ form.discard) ∧ iSb w ≠ 0) then ok (illegal i w s)
    else if !regsOk g ([iSa w + 1] ++ (if form.discard then [] else if form.store then [iSb w + k] else [iDst w + k])) then
      ok (illegal i w s)
    else
      let m := actLanes g w
      let addrs := (lanesOf m).map fun l => (l, BitVec.ofNat 48 (getPair g (iSa w) l))
      match (if form.discard then none else addrs.find? fun e => e.2.toNat % n ≠ 0) with
      | some e => ok (groupHalt i 5 e.1 e.2.toNat s)
      | none =>
        let acc : Access := if form.discard then .hint else if form.store then .write else .read
        let (s1, ls) := xlateLanes site.val g.ctx.toNat acc addrs s
        match laneFault ls with
        | some (lane, va, c, ent, lv) => ok (groupFault site.val slot.val lane va acc c ent lv s1)
        | none =>
          -- past the retry limit the lanes whose target resets take their error with the others (R175, R176, R429)
          ok (retryOr i (laneResetting s1 ls) (fun s =>
            if form.discard then
              finish i id (forL ((localLanes ls).filter fun e => !targetResetting s e.2.2) (fun e s => deadLine e.2.2 g.ctx.toNat s) s)
            else if ownPosted g ls then stallGroup i s
            else if form.store then atPort i site.val .l1Write (touchesMemory (localLanes ls)) (groupStore site slot w form.log2.val ls) s
            else atPort i site.val .l1Fill (fillsLine s site.val parity (localLanes ls)) (groupLoad site slot w form.log2.val parity ls) s)
            s1)

/-! ### Shared local memory (R147 to R149) -/

/-- Base and size of a task's shared allocation on a site. -/
def slmAlloc (s : State) (site : Nat) (t : Option TaskRef) : Nat × Nat :=
  match (s.getSite site).allocs.find? fun a => decide (some a.task = t) with
  | some a => (4096 * a.first, 4096 * a.granules)
  | none => (0, 0)

/-- Bytes of shared local memory. -/
def slmRead (s : State) (site a n : Nat) : List Byte := getBytes 0 (s.getSite site).slm a n

/-- Write shared local memory. -/
def slmWrite (site a : Nat) (bs : List Byte) (s : State) : State :=
  s.modSite site fun x => { x with slm := putBytes 0 x.slm a bs }

/-- Distinct 4-byte words that the lanes touch. -/
def slmWords (offs : List (Nat × Nat)) (n : Nat) : List Nat :=
  (offs.flatMap fun e => (List.range ((e.2 + n - 1) / 4 - e.2 / 4 + 1)).map (e.2 / 4 + ·)).eraseDups

/-- Replay steps: each word beyond the first in the busiest bank, and one more where a bank it needs goes to
the DMA in that step (R148, R149). -/
def slmReplays (words : List Nat) (dmaBanks : W32) : Nat :=
  let per := (List.range 32).map fun b => (words.filter fun x => x % 32 = b).length
  (per.foldl max 0 - 1) + b2n (words.any fun x => getBit dmaBanks (x % 32))

/-- The bank steps of an instruction that touches the words: its replays count, and the banks that the DMA took in its step
are free again (R148, R149). -/
def slmStep (site : Nat) (words : List Nat) (s : State) : State :=
  s.modSite site fun x => { x with replay := x.replay + BitVec.ofNat 32 (slmReplays words x.slmTaken), slmTaken := 0 }

/-- SHARED_LOAD_STORE (R147 to R149, R155, R165). The offset stands in SA. Lanes that store other bytes of one word are merged,
lane by lane in ascending order (DESIGN CHOICE, log 83: R148 speaks of the whole word). -/
def execSharedLoadStore (site : Site) (slot : Slot) (w : W64) (store : Bool) (log2 : Fin 5) (s : State) :
    Host.Outcome State Fault Refusal :=
  if !runsOp s site.val slot.val w 0x48 0x4F then ok s
  else
    let i := gIx site.val slot.val
    let g := s.getGrp i
    let n := 2 ^ log2.val
    let k := (n + 3) / 4 - 1
    if iSc w ≠ 0 ∨ (store ∧ iDst w ≠ 0) ∨ (!store ∧ iSb w ≠ 0)
        ∨ !regsOk g ([iSa w] ++ (if store then [iSb w + k] else [iDst w + k])) then ok (illegal i w s)
    else
      let m := actLanes g w
      let offs := (lanesOf m).map fun l => (l, (getReg g (iSa w) l).toNat)
      let (base, size) := slmAlloc s site.val g.task
      match offs.find? fun e => e.2 % n ≠ 0 with
      | some e => ok (groupHalt i 5 e.1 e.2 s)
      | none =>
        match offs.find? fun e => decide (size < e.2 + n) with
        | some e => ok (groupHalt i 6 e.1 e.2 s)
        | none =>
          let s1 := slmStep site.val (slmWords offs n) s
          if store then
            ok (finish i id (forL offs (fun e s => slmWrite site.val (base + e.2) (storeBytes g (iSb w) e.1 n) s) s1))
          else
            let ws := offs.flatMap fun e => loadWrites (iDst w) e.1 n (freeAt s e.1) (slmRead s site.val (base + e.2) n)
            ok (useFree 32 (finish i (applyWrites ws) s1))

/-! ### Atomics (R155 to R160, R181) -/

/-- Fields of ATOM and RED (Table 5.10). -/
def aAop (w : W64) : Nat := ib w 48 45
def aTy (w : W64) : Nat := ib w 51 49
def aShared (w : W64) : Bool := bit w.toNat 52
def aOrd (w : W64) : Nat := ib w 55 53
def aScope (w : W64) : Nat := ib w 58 56
def aRet (w : W64) : Bool := iOpc w == 0x68

/-- Exchange, compare-and-swap and the FP32 add with return are serial (R158, R159). -/
def aSerial (w : W64) : Bool := aRet w && (decide (6 ≤ aAop w) || (aAop w == 0 && aTy w == 4))

/-- The instruction is a legal combination with its unused fields 0 (R180, R181). SCOPE is a field of every ATOM and RED, a
relaxed one included: any code of Table 5.4 is taken (DESIGN CHOICE, log 83). -/
def atomLegal (g : Group) (w : W64) : Bool :=
  let wide := b2n (aTy w == 2 || aTy w == 3)
  let cas := aAop w == 7
  ib w 63 59 == 0 && decide (aOrd w ≤ 3) && decide (aScope w ≤ 4) && atomAllowed (aRet w) (aAop w) (aTy w)
    && (aRet w || (decide (aOrd w = 0 ∨ aOrd w = 2) && iDst w == 0))
    && (cas || iSc w == 0)
    && regsOk g ([if aShared w then iSa w else iSa w + 1, iSb w + wide]
        ++ (if aRet w then [iDst w + wide] else []) ++ (if cas then [iSc w + wide] else []))

/-- A lane's operand: a BF16 operand stands in the low half of its register and is taken as FP32 (R159). -/
def atomOperand (g : Group) (v ty lane : Nat) : Nat :=
  if ty = 2 ∨ ty = 3 then getPair g v lane
  else if ty = 5 then (getReg g v lane).toNat % 65536 * 65536
  else (getReg g v lane).toNat

/-- Two operands combined (R156, R159): FP sums round each addition in FP32. -/
def combine2 (aop ty a b : Nat) : Nat :=
  if ty = 4 ∨ ty = 5 then fmtFP32.encode .rne (fpOp aop (fmtFP32.decode a) (fmtFP32.decode b))
  else intOp aop (ty == 1 || ty == 3) (8 * atomSize ty) a b

/-- The combination of the lanes' operands, in ascending lane order. -/
def combineLanes (g : Group) (w : W64) (lanes : List Nat) : Nat :=
  match lanes with
  | [] => 0
  | l :: r => r.foldl (fun a k => combine2 (aAop w) (aTy w) a (atomOperand g (iSb w) (aTy w) k)) (atomOperand g (iSb w) (aTy w) l)

/-- Updates of one address: the operand and compare value, and the lanes each serves. -/
def updates (g : Group) (w : W64) (lanes : List Nat) : List (Nat × Nat × List Nat) :=
  if aSerial w then
    lanes.map fun l => (atomOperand g (iSb w) (aTy w) l, if aAop w = 7 then atomOperand g (iSc w) (aTy w) l else 0, [l])
  else [(combineLanes g w lanes, 0, lanes)]

/-- Value each lane of an update receives (R157): the old value combined with the operands of the lanes
below it. -/
def laneValues (g : Group) (w : W64) (lanes : List Nat) (old : Nat) : List (Nat × Nat) :=
  (lanes.foldl (fun (a : List (Nat × Nat) × Nat) l =>
    (a.1 ++ [(l, a.2)], atomApply (aAop w) (aTy w) a.2 (atomOperand g (iSb w) (aTy w) l) 0)) ([], old)).1

/-- Register writes of the returned values. -/
def retWrites (w : W64) (vals : List (Nat × Nat)) : List (Nat × Nat × W32) :=
  vals.flatMap fun e =>
    if aTy w = 2 ∨ aTy w = 3 then
      [(iDst w, e.1, BitVec.ofNat 32 e.2), (iDst w + 1, e.1, BitVec.ofNat 32 (e.2 / 2 ^ 32))]
    else [(iDst w, e.1, BitVec.ofNat 32 e.2)]

/-- Shared-space updates, in order; the returned values. -/
def atomShared (site base : Nat) (w : W64) (g : Group) (l : List (Nat × List Nat)) (s : State) : State × List (Nat × Nat) :=
  l.foldl (fun a e =>
    (updates g w e.2).foldl (fun (a : State × List (Nat × Nat)) u =>
      let n := atomSize (aTy w)
      let old := ofLe (slmRead a.1 site (base + e.1) n)
      (slmWrite site (base + e.1) (leBytes n (atomApply (aAop w) (aTy w) old u.1 u.2.1)) a.1,
        a.2 ++ laneValues g w u.2.2 old)) a) (s, [])

/-- Local context-space updates, in order: the values returned, and the errors with their lanes. -/
def atomLocal (who : Agent) (site : Nat) (lab : Label) (w : W64) (g : Group) (l : List (Nat × List Nat)) (s : State) :
    State × List (Nat × PhysErr) × List (Nat × Nat) :=
  l.foldl (fun a e =>
    (updates g w e.2).foldl (fun (a : State × List (Nat × PhysErr) × List (Nat × Nat)) u =>
      let (s1, err, old) := physOp who e.1 lab
        (.atomic { aop := BitVec.ofNat 4 (aAop w), ty := BitVec.ofNat 3 (aTy w) } (BitVec.ofNat 64 u.1) (BitVec.ofNat 64 u.2.1))
        (l1Drop site e.1 a.1)
      match err with
      | some x => (s1, a.2.1 ++ [(u.2.2.headD 0, x)], a.2.2)
      | none => (s1, a.2.1, a.2.2 ++ laneValues g w u.2.2 (ofLe old))) a) (s, [], [])

/-- The acquire of an atomic (R168). -/
def atomAcquire (site : Nat) (w : W64) (s : State) : State := if aOrd w = 1 ∨ aOrd w = 3 then acquire site (aScope w) s else s

/-- What an atomic that makes none of its updates leaves at the homes: they have read the elements, with what that counts, records
and rewrites (R174, R209, R218, R219). -/
def atomNotes (n : Nat) (lab : Label) (l : List (Nat × List Nat)) (s : State) : State := forL l (fun e s => probeRead e.1 n lab s) s

/-- The fabric request of an update (Table 12.2). -/
def atomPkt (s : State) (who : Agent) (w : W64) (dest : Nat) (data : List Byte) : Pkt :=
  reqPkt s who 3 dest (aAop w + 16 * aTy w + 128 * b2n (aRet w)) 0 data

/-- Its payload: operand and compare value. -/
def atomBytes (u : Nat × Nat × List Nat) : List Byte := leBytes 8 u.1 ++ leBytes 8 u.2.1

/-- The group's serial operations that may go now: at each address the next lane's, once the one before it is answered, none of
which met an error (R158, R174). -/
def dueAsks (g : Group) : List LoadPend :=
  let at_ (d : Nat) : List LoadPend := g.loads.filter fun l => l.open_ && l.atom && l.dest == d
  g.loads.filter fun l => l.ask.isSome
    && !(at_ l.dest).any (fun x => x.tid.isSome || x.err) && decide ((at_ l.dest).find? (·.ask.isSome) = some l)

/-- Send those that may go; one without an endpoint entry stays due, one without a route fails. -/
def sendDue (site : Site) (slot : Slot) (w : W64) (s : State) : State :=
  let i := gIx site.val slot.val
  let who := grpAgent site slot
  forL (dueAsks (s.getGrp i)) (fun l s =>
    let put (f : LoadPend → LoadPend) (n : Nat) (s : State) : State := s.modGrp i fun g =>
      { g with remote := g.remote + n, loads := g.loads.map fun x => if x = l then f x else x }
    match issueRequest (site.val / 24) who (atomPkt s who w l.dest (l.ask.getD [])) s with
    | .held => s
    | .noRoute => put (fun x => { x with ask := none, err := true }) 0 s
    | .sent s1 tid => put (fun x => { x with ask := none, tid := some tid }) 1 s1) s

/-- A context-space atomic whose addresses are translated. It is precise (R174): where a local update would meet an error, or
a lane has no route, none is made; local updates of one that also goes to other devices wait for the answers from there. Serial
operations of one fabric address go one at a time, in ascending lane order (R158). -/
def atomContext (site : Site) (slot : Slot) (w : W64) (ls : List (Nat × BitVec 48 × XRes)) (s : State) : State :=
  let i := gIx site.val slot.val
  let g := s.getGrp i
  let who := grpAgent site slot
  let loc := targetsOf (localLanes ls)
  let fab := targetsOf (fabricLanes ls)
  let ups := fab.filterMap fun e => (updates g w e.2).head?.map fun u => (e.1, u)
  let more := fab.flatMap fun e => ((updates g w e.2).drop 1).map fun u => (e.1, u)
  let pk := ups.map fun u => (u.2.2.2.headD 0, atomPkt s who w u.1 (atomBytes u.2))
  match issueAll (site.val / 24) who pk s with
  | .held => stallGroup i s
  | .sent s1 tids bad =>
    let (s2, errs, vals) := atomLocal who site.val (agentLabel s1 who) w g loc s1
    match laneError (errs ++ bad.map fun l => (l, .bus)) with
    | some (lane, e) => laneHalt site.val slot.val lane (laneVa ls lane) .atomic e (atomNotes (atomSize (aTy w)) (agentLabel s who) loc s)
    | none =>
      let part (u : Nat × Nat × Nat × List Nat) (tid : Option Nat) (ask : Option (List Byte)) (lane : Nat) : LoadPend :=
        { writes := [], tid := tid, log2 := 0, dst := iDst w, lanes := u.2.2.2.foldl (fun m l => setBit m l true) 0
          addr := laneVa ls lane, atom := true, open_ := true, dest := u.1, ask := ask }
      let here : LoadPend := { writes := if aRet w then retWrites w vals else [], tid := none, log2 := 0, dst := iDst w
                               lanes := actLanes g w, addr := laneVa ls (lowLane (actLanes g w)), atom := true, open_ := false }
      if !tids.isEmpty then
        let ps := (ups.zip tids).map (fun e => part e.1 (some e.2.2) none e.2.1)
          ++ more.map fun u => part u none (some (atomBytes u.2)) (u.2.2.2.headD 0)
        s1.modGrp i fun g => { g with
          loads := g.loads ++ { here with writes := [], open_ := true, later := loc } :: ps, remote := g.remote + tids.length }
      else if aRet w then atomAcquire site.val w (finish i (fun g => { g with loads := dropWrites here.writes g.loads ++ [here] }) s2)
      else finish i (fun g => { g with stores := g.stores + b2n (!loc.isEmpty) }) s2

/-- An ATOM or RED after its release: checks of the lanes, then the updates (R155 to R159). -/
def atomRun (site : Site) (slot : Slot) (w : W64) (s : State) : State :=
  let i := gIx site.val slot.val
  let g := s.getGrp i
  let n := atomSize (aTy w)
  let m := actLanes g w
  if !atomLegal g w then illegal i w s
  else if aShared w then
    let offs := (lanesOf m).map fun l => (l, (getReg g (iSa w) l).toNat)
    let (base, size) := slmAlloc s site.val g.task
    match offs.find? fun e => e.2 % n ≠ 0 with
    | some e => groupHalt i 5 e.1 e.2 s
    | none =>
      match offs.find? fun e => decide (size < e.2 + n) with
      | some e => groupHalt i 6 e.1 e.2 s
      | none =>
        let (s1, vals) := atomShared site.val base w g (byAddr offs) s
        let s2 := slmStep site.val (slmWords offs n) s1
        let s3 := finish i (fun g => if aRet w then applyWrites (retWrites w vals) g else g) s2
        atomAcquire site.val w s3
  else
    let addrs := (lanesOf m).map fun l => (l, BitVec.ofNat 48 (getPair g (iSa w) l))
    match addrs.find? fun e => e.2.toNat % n ≠ 0 with
    | some e => groupHalt i 5 e.1 e.2.toNat s
    | none =>
      let (s1, ls) := xlateLanes site.val g.ctx.toNat .atomic addrs s
      match laneFault ls with
      | some (lane, va, c, ent, lv) => groupFault site.val slot.val lane va .atomic c ent lv s1
      | none =>
        retryOr i (laneResetting s1 ls) (fun s =>
          if ownPosted g ls then stallGroup i s
          else atPort i site.val .l1Write (touchesMemory (localLanes ls)) (atomContext site slot w ls) s) s1

/-- Scope of the acquire that follows an instruction's reply; none for the others. -/
def replyAcquire (w : W64) : Option Nat :=
  let op := iOpc w
  if op = 0x68 ∧ (aOrd w = 1 ∨ aOrd w = 3) then some (aScope w)
  else if op = 0x7C then some (ib w 47 45)
  else none

/-- The answers of an instruction's requests are in, once none is awaited or due: an error raises BUS_ERR in the lowest lane that
met one (R175); else the local updates of an atomic are made, the destinations written, and the instruction is done. -/
def groupSettle (site : Site) (slot : Slot) (w : W64) (s : State) : State :=
  let i := gIx site.val slot.val
  let g := s.getGrp i
  let open_ := g.loads.filter (·.open_)
  let rest (g : Group) : Group := { g with loads := g.loads.filter fun x => !x.open_, stall := false }
  let stopped (l : LoadPend) : Bool := open_.any fun x => x.err && x.dest == l.dest
  if open_.any fun x => x.tid.isSome || (x.ask.isSome && !stopped x) then s
  else
    match laneError ((open_.filter (·.err)).map fun l => (lowLane l.lanes, .bus)) with
    | some (lane, _) =>
      let va := ((open_.find? fun l => l.err && lowLane l.lanes == lane).map (·.addr)).getD 0
      groupHalt i 8 lane va.toNat (s.modGrp i rest)
    | none =>
      let later := open_.flatMap (·.later)
      let (s1, errs, vals) := atomLocal (grpAgent site slot) site.val (agentLabel s (grpAgent site slot)) w g later s
      match laneError errs with
      | some (lane, e) =>
        let va := if aShared w then 0 else BitVec.ofNat 48 (getPair g (iSa w) lane)
        laneHalt site.val slot.val lane va .atomic e ((atomNotes (atomSize (aTy w)) (agentLabel s (grpAgent site slot)) later s).modGrp i rest)
      | none =>
        let ws := open_.flatMap (·.writes) ++ (if iOpc w = 0x68 then retWrites w vals else [])
        let s2 := finish i (fun g => applyWrites ws (rest g)) s1
        match replyAcquire w with
        | some sc => acquire site.val sc s2
        | none => s2

/-- An atomic with its release where ORD asks for one (R168, R176). -/
def atomWith (site : Site) (slot : Slot) (w : W64) (s : State) : State :=
  if waitsReply (s.getGrp (gIx site.val slot.val)) then groupSettle site slot w (sendDue site slot w s)
  else if aOrd w = 2 ∨ aOrd w = 3 then withRelease site.val slot.val (aScope w) (atomRun site slot w) s
  else atomRun site slot w s

/-- ATOM (R156, R157): a combinable atomic with return. -/
def execAtom (site : Site) (slot : Slot) (w : W64) (s : State) : Host.Outcome State Fault Refusal :=
  if !runsOp s site.val slot.val w 0x68 0x68 || aSerial w then ok s else ok (atomWith site slot w s)

/-- RED (R156, R159): a no-return reduction. -/
def execRed (site : Site) (slot : Slot) (w : W64) (s : State) : Host.Outcome State Fault Refusal :=
  if !runsOp s site.val slot.val w 0x69 0x69 then ok s else ok (atomWith site slot w s)

/-- ATOM_SERIAL (R158, R159): exchange, compare-and-swap, FP32 add with return. -/
def execAtomSerial (site : Site) (slot : Slot) (w : W64) (s : State) : Host.Outcome State Fault Refusal :=
  if !runsOp s site.val slot.val w 0x68 0x68 || !aSerial w then ok s else ok (atomWith site slot w s)

/-! ### Replies and acknowledges (R168, R185) -/

/-- Site of an agent. -/
def siteOf : Agent → Option Nat
  | .group site _ => some site.val
  | .array a => some (a.val / 2)
  | .dma ch => some (ch.val / 4)
  | _ => none

/-- A reply or acknowledge that comes more than 10 µs after PREEMPT is counted in XLT_PREEMPT_LATE (R264). -/
def lateAt (j : Nat) (s : State) : State :=
  let x := s.getSite j
  if x.mode = 1 ∧ x.saveFrom.toNat + 10000 < now s then s.modSite j fun y => { y with late := y.late + 1 } else s

/-- LOAD_REPLY (R185): reply `ix` of the group arrives and writes its destination registers; earlier loads write them no
more. -/
def execLoadReply (site : Site) (slot : Slot) (ix : Nat) (s : State) : Host.Outcome State Fault Refusal :=
  let i := gIx site.val slot.val
  match (s.getGrp i).loads[ix]? with
  | none => ok s
  | some l =>
    if l.open_ || l.tid.isSome then ok s
    else
      ok (answered site.val slot.val ((lateAt site.val s).modGrp i fun g =>
        let y := applyWrites l.writes { g with loads := g.loads.take ix }
        { y with loads := y.loads ++ g.loads.drop (ix + 1), stall := false }))

/-- STORE_ACKNOWLEDGE (R168, R176): a local store or no-return update is acknowledged, or answered with an
error. -/
def execStoreAcknowledge (site : Site) (slot : Slot) (err : Option (BitVec 48)) (s : State) :
    Host.Outcome State Fault Refusal :=
  let i := gIx site.val slot.val
  let g := s.getGrp i
  if g.stores = 0 then ok s
  else
    let s1 := match err with
      | some a => noteStoreErr i a s
      | none => s
    ok (answered site.val slot.val ((lateAt site.val s1).modGrp i fun g => { g with stores := g.stores - 1 }))

/-- SLM_DMA_GUARD_GRANT (R149): a step in which the DMA asks for a bank. One that the instructions need is refused to it;
after 7 refusals in a row it goes to the DMA, and the instruction that needs it in that step replays one step. A bank left
free goes to the DMA at once. -/
def execSlmDmaGuardGrant (site : Site) (bank : Fin 32) (needed : Bool) (s : State) : Host.Outcome State Fault Refusal :=
  let n := Tbl.get 0 (s.getSite site.val).slmPass bank.val
  let taken := needed && decide (7 ≤ n)
  ok (s.modSite site.val fun x => { x with
    slmPass := Tbl.put 0 x.slmPass bank.val (if !needed || taken then 0 else n + 1)
    slmTaken := if taken then setBit x.slmTaken bank.val true else x.slmTaken })

end Sys2Proof.Machine
end

