-- ==== Sys2Proof/Machine/GroupSync.lean ====
section
/-! DEFINITION. The queue and sync instructions of a thread group (R322, R323, Table 10.5), and the fabric
responses that a group waits for (R323, R375). -/

namespace Sys2Proof.Machine
open Sys2Proof

/-- Where a queue or sync instruction's address leads: a window on this device, or on another (R323). -/
inductive WinTarget where
  | queue (q : Nat)
  | sync (o : Nat)
  | remoteQueue (dest q : Nat)
  | remoteSync (dest o : Nat)
  | none
deriving DecidableEq, Repr

/-- The window whose base a translation gives. -/
def winTarget : XRes → WinTarget
  | .local_ pa =>
    match regionOf pa with
    | .queue q off => if off = 0 then .queue q else .none
    | .sync o off => if off = 0 then .sync o else .none
    | _ => .none
  | .fabric d =>
    match regionOf (d % 2 ^ 40) with
    | .queue q off => if off = 0 then .remoteQueue d q else .none
    | .sync o off => if off = 0 then .remoteSync d o else .none
    | _ => .none
  | .fault _ _ _ => .none

/-- A group's word or sync operation moves between its tower and that of a window of this device (R23, R279). -/
def windowMove (site : Site) (slot : Slot) (t : WinTarget) (s : State) : State :=
  let lab := agentLabel s (grpAgent site slot)
  match t with
  | .queue q => crossBytes (site.val / 24) (queOwner s q) lab 64 s
  | .sync o => crossBytes (site.val / 24) (synPart o) lab 16 s
  | _ => s

/-- Translate the window address of a lane and go on with the window it names; a fault parks the group, any
other target is BUS_ERR before anything is sent (R323). -/
def withWindow (site : Site) (slot : Slot) (w : W64) (lane : Nat) (acc : Access) (isQueue : Bool)
    (run : WinTarget → State → State) (s : State) : State :=
  let i := gIx site.val slot.val
  let g := s.getGrp i
  let va := winAddr g w lane
  let (s1, r) := translate site.val g.ctx.toNat va acc s
  match r with
  | .fault c e lv => groupFault site.val slot.val lane va acc c e lv s1
  | _ =>
    match winTarget r with
    | .none => groupHalt i 8 lane va.toNat s1
    | .queue q => if isQueue then run (.queue q) (windowMove site slot (.queue q) s1) else groupHalt i 8 lane va.toNat s1
    | .remoteQueue d q => if isQueue then run (.remoteQueue d q) s1 else groupHalt i 8 lane va.toNat s1
    | .sync o => if isQueue then groupHalt i 8 lane va.toNat s1 else run (.sync o) (windowMove site slot (.sync o) s1)
    | .remoteSync d o => if isQueue then groupHalt i 8 lane va.toNat s1 else run (.remoteSync d o) s1

/-- A queue number as an index. -/
def finQue (q : Nat) : Que := ⟨q % 512, Nat.mod_lt _ (by omega)⟩
/-- A sync object number as an index. -/
def finSyn (o : Nat) : Syn := ⟨o % 4096, Nat.mod_lt _ (by omega)⟩

/-- QPUT after its release (R307, R322). -/
def qputRun (site : Site) (slot : Slot) (w : W64) (s : State) : State :=
  let i := gIx site.val slot.val
  let g := s.getGrp i
  let who := grpAgent site slot
  let close := bit w.toNat 45
  let word := laneWord g (iSa w)
  withWindow site slot w 0 .write true (fun t s =>
    let put (q : Nat) (dest : Option (BitVec 56)) : State :=
      match putNew who q word false close dest s with
      | .stored s1 => finish i id s1
      | .overlong s1 => finish i id (noteStoreErr i (winAddr g w 0) s1)
      | .bus s1 => finish i id (noteStoreErr i (winAddr g w 0) s1)
      | _ => holdGroup i (.queue (finQue q) word close) (holdWord who q word false close dest s)
    match t with
    | .queue q => put q none
    | .remoteQueue d q => put q (some (BitVec.ofNat 56 d))
    | _ => s) s

/-- QPUT (R322, R323). -/
def execQput (site : Site) (slot : Slot) (w : W64) (s : State) : Host.Outcome State Fault Refusal :=
  if !runsOp s site.val slot.val w 0x78 0x78 then ok s
  else
    let i := gIx site.val slot.val
    let g := s.getGrp i
    let scope := ib w 48 46
    ok (withRelease site.val slot.val scope (fun s =>
      if ib w 63 49 ≠ 0 ∨ 4 < scope ∨ iDst w ≠ 0 ∨ iSc w ≠ 0 ∨ iSa w % 2 ≠ 0 ∨ !regsOk g [iSa w + 1, iSb w + 1] then illegal i w s
      else if !lowEight (actLanes g w) then raise i 2 w s
      else qputRun site slot w s) s)

/-- QGET (R322, R323): one word of a queue that tasks of the core's partition consume. -/
def execQget (site : Site) (slot : Slot) (w : W64) (s : State) : Host.Outcome State Fault Refusal :=
  if !runsOp s site.val slot.val w 0x79 0x79 then ok s
  else
    let i := gIx site.val slot.val
    let g := s.getGrp i
    let m := actLanes g w
    if ib w 63 57 ≠ 0 ∨ iSa w ≠ 0 ∨ iSc w ≠ 0 ∨ iDst w % 2 ≠ 0 ∨ !regsOk g [iDst w + 1, iSb w + 1] then ok (illegal i w s)
    else if !lowEight m then ok (raise i 2 w s)
    else
      ok (withWindow site slot w 0 .read true (fun t s =>
        match t with
        | .queue q =>
          if !isConsumer s (grpAgent site slot) q then groupHalt i 8 0 (winAddr g w 0).toNat s
          else if inReset s (queOwner s q) then groupRetry i 0 (winAddr g w 0) false s
          else
            let (s1, word, poison, last, empty) := takeWord q s
            let all (b : Bool) : W32 := if b then BitVec.allOnes 32 else 0
            finish i (fun x =>
              let x1 := setPairs x (iDst w) 0xFF fun l => (lw word l).toNat
              let x2 := setPred x1 (ib w 48 45) m (all poison)
              let x3 := setPred x2 (ib w 52 49) m (all last)
              setPred x3 (ib w 56 53) m (all empty)) s1
        | _ => groupHalt i 8 0 (winAddr g w 0).toNat s) s)

/-- Issue a fabric SYNC request of a group (Table 12.2). A posted one leaves the group; for the others the
instruction waits for its reply (R323). An own posted request to the same window is awaited first (R166). -/
def remoteSync (site : Site) (slot : Slot) (w : W64) (dest arg aux : Nat) (val : Nat) (posted : Bool) (hold : Option Hold)
    (s : State) : State :=
  let i := gIx site.val slot.val
  let g := s.getGrp i
  let m := actLanes g w
  let lane := lowLane m
  let va := winAddr g w lane
  let who := grpAgent site slot
  if g.posted.any fun p => p.2.2 / 64 == dest / 64 then stallGroup i s else
  match issueRequest (site.val / 24) who (reqPkt s who 5 dest arg aux (leBytes 8 val)) s with
  | .held => stallGroup i s
  | .noRoute => if posted then finish i id (noteStoreErr i va s) else groupHalt i 8 lane va.toNat s
  | .sent s1 n =>
    if posted then finish i (fun g => { g with remote := g.remote + 1, posted := g.posted ++ [(n, va, dest)] }) s1
    else
      let s2 := s1.modGrp i fun g => { g with
        remote := g.remote + 1
        loads := g.loads ++ [{ writes := [], tid := some n, log2 := 0, dst := iDst w, lanes := m, addr := va, atom := false, open_ := true }] }
      match hold with
      | some h => holdGroup i h s2
      | none => s2

/-- SSIG and SRST (R323): signal by SA:SA + 1 of the lowest active lane, or reset. -/
def sigRun (site : Site) (slot : Slot) (w : W64) (s : State) : State :=
  let i := gIx site.val slot.val
  let g := s.getGrp i
  let m := actLanes g w
  let lane := lowLane m
  let ret := bit w.toNat 45
  let isSig := iOpc w == 0x7A
  let val := if isSig then getPair g (iSa w) lane else 0
  withWindow site slot w lane .write false (fun t s =>
    match t with
    | .sync o =>
      match (if isSig then synSignal o 8 (BitVec.ofNat 64 val) s else synReset o 8 s) with
      | .done s1 _ tk => finish i (fun x => if ret then setRegs x (iDst w) m fun _ => tk else x) s1
      | .bus => if ret then groupHalt i 8 lane (winAddr g w lane).toNat s else finish i id (noteStoreErr i (winAddr g w lane) s)
      | .resetting => groupRetry i lane (winAddr g w lane) (!ret) s
    | .remoteSync d _ => remoteSync site slot w d (if isSig then 0 else 3) 0 val (!ret) none s
    | _ => s) s

/-- SSIG or SRST with its checks and its release. -/
def sigInstr (site : Site) (slot : Slot) (w : W64) (s : State) : State :=
  let i := gIx site.val slot.val
  let g := s.getGrp i
  let ret := bit w.toNat 45
  let isSig := iOpc w == 0x7A
  let scope := ib w 48 46
  if waitsReply g then s
  else
    withRelease site.val slot.val scope (fun s =>
      if ib w 63 49 ≠ 0 ∨ 4 < scope ∨ iSc w ≠ 0 ∨ (!ret ∧ iDst w ≠ 0) ∨ (!isSig ∧ iSa w ≠ 0)
          ∨ !regsOk g ([iSb w + 1] ++ (if isSig then [iSa w + 1] else []) ++ (if ret then [iDst w] else [])) then illegal i w s
      else if actLanes g w = 0 then finish i id s
      else sigRun site slot w s) s

/-- SSIG (R323). -/
def execSsig (site : Site) (slot : Slot) (w : W64) (s : State) : Host.Outcome State Fault Refusal :=
  if !runsOp s site.val slot.val w 0x7A 0x7A then ok s else ok (sigInstr site slot w s)

/-- SRST (R323). -/
def execSrst (site : Site) (slot : Slot) (w : W64) (s : State) : Host.Outcome State Fault Refusal :=
  if !runsOp s site.val slot.val w 0x7D 0x7D then ok s else ok (sigInstr site slot w s)

/-- A group that its object has not taken yet presents SWAIT `w` again (R318, R319). -/
def arrives (s : State) (site slot : Nat) (w : W64) : Bool :=
  let g := s.getGrp (gIx site slot)
  decide (g.mode = .held) && decide (g.hold = .arrive) && decide (g.issued = some w)

/-- SWAIT (R317 to R319, R323): held until release or timeout; held before its arrival while the pool is full or the object's
partition is in reset. -/
def execSwait (site : Site) (slot : Slot) (w : W64) (s : State) : Host.Outcome State Fault Refusal :=
  if !runsOp s site.val slot.val w 0x7B 0x7B && !arrives s site.val slot.val w then ok s
  else
    let i := gIx site.val slot.val
    let g := s.getGrp i
    let m := actLanes g w
    let lane := lowLane m
    let scope := ib w 63 61
    if waitsReply g then ok s
    else if 4 < scope ∨ iSc w ≠ 0 ∨ iDst w % 4 ≠ 0 ∨ !regsOk g [iDst w + 3, iSa w + 1, iSb w + 1] then ok (illegal i w s)
    else if m = 0 then ok (finish i id s)
    else
      let th := getPair g (iSa w) lane
      let tmo := ib w 60 49
      let hold (o : Nat) : Hold := .wait (finSyn o) (iDst w) (ib w 48 45) scope m
      ok (withWindow site slot w lane .read false (fun t s =>
        match t with
        | .sync o =>
          match synWait o (grpAgent site slot) (BitVec.ofNat 64 th) tmo none s with
          | .released s1 c tk => groupWaitEnd site.val slot.val c tk tk true (holdGroup i (hold o) s1)
          | .waiting s1 => holdGroup i (hold o) s1
          | .poolFull => holdGroup i .arrive s
          | .bus => groupHalt i 8 lane (winAddr g w lane).toNat s
          | .resetting => retryOr i true (groupHalt i 8 lane (winAddr g w lane).toNat) (holdGroup i .arrive s)
        | .remoteSync d o => remoteSync site slot w d 1 tmo th false (some (hold o)) s
        | _ => s) s)

/-- STEST (R323): the counter to DST:DST + 1, the test's ticket to DST + 2; then the acquire. -/
def execStest (site : Site) (slot : Slot) (w : W64) (s : State) : Host.Outcome State Fault Refusal :=
  if !runsOp s site.val slot.val w 0x7C 0x7C then ok s
  else
    let i := gIx site.val slot.val
    let g := s.getGrp i
    let m := actLanes g w
    let lane := lowLane m
    let scope := ib w 47 45
    if waitsReply g then ok s
    else if ib w 63 48 ≠ 0 ∨ 4 < scope ∨ iSa w ≠ 0 ∨ iSc w ≠ 0 ∨ iDst w % 4 ≠ 0 ∨ !regsOk g [iDst w + 2, iSb w + 1] then ok (illegal i w s)
    else if m = 0 then ok (finish i id s)
    else
      ok (withWindow site slot w lane .read false (fun t s =>
        match t with
        | .sync o =>
          match synTest o 8 s with
          | .done s1 c tk =>
            acquire site.val scope (finish i (fun x => setRegs (setPairs x (iDst w) m fun _ => c.toNat) (iDst w + 2) m fun _ => tk) s1)
          | .bus => groupHalt i 8 lane (winAddr g w lane).toNat s
          | .resetting => groupRetry i lane (winAddr g w lane) false s
        | .remoteSync d _ => remoteSync site slot w d 2 0 0 false none s
        | _ => s) s)

/-! ### Fabric responses to a group (R323, R375) -/

/-- Writes that the DATA response to one of an instruction's requests gives. -/
def replyWrites (g : Group) (w : W64) (l : LoadPend) (s : State) (bs : List Byte) : List (Nat × Nat × W32) :=
  let op := iOpc w
  let word (o n : Nat) : Nat := ofLe ((bs.drop o).take n)
  if op ≤ 0x47 then (lanesOf l.lanes).flatMap fun k => loadWrites l.dst k (2 ^ l.log2) (freeAt s k) bs
  else if op = 0x68 then retWrites w (laneValues g w (lanesOf l.lanes) (ofLe bs))
  else if op = 0x69 then []
  else if op = 0x7C then
    (lanesOf l.lanes).flatMap fun k =>
      [(l.dst, k, BitVec.ofNat 32 (word 0 4)), (l.dst + 1, k, BitVec.ofNat 32 (word 4 4)), (l.dst + 2, k, BitVec.ofNat 32 (word 8 4))]
  else (lanesOf l.lanes).map fun k => (l.dst, k, BitVec.ofNat 32 (word 12 4))

/-- The DATA response to request `tid` of a group: a posted request is done; a load, an atomic or a sync
operation writes its destination once its last response is in (R323). -/
def groupData (site : Site) (slot : Slot) (tid : Nat) (bs : List Byte) (s : State) : State :=
  let i := gIx site.val slot.val
  let g := s.getGrp i
  let less (g : Group) : Group := { g with remote := g.remote - 1, posted := g.posted.filter fun e => e.1 ≠ tid }
  match g.loads.find? fun l => decide (l.tid = some tid), g.issued with
  | some l, some w =>
    let s0 := s.modGrp i less
    if iOpc w = 0x7B then
      let word (o n : Nat) : Nat := ofLe ((bs.drop o).take n)
      let s1 := s0.modGrp i fun g => { g with loads := g.loads.filter fun x => !decide (x = l) }
      groupWaitEnd site.val slot.val (BitVec.ofNat 64 (word 0 8)) (BitVec.ofNat 32 (word 8 4)) (BitVec.ofNat 32 (word 12 4))
        (word 8 4 != 2 ^ 32 - 1) s1
    else
      let ws := replyWrites g w l s bs
      let done (x : LoadPend) : LoadPend := if x = l then { x with writes := ws, tid := none } else x
      groupSettle site slot w (sendDue site slot w (useFree 32 (s0.modGrp i fun g => { g with loads := g.loads.map done })))
  | _, _ => answered site.val slot.val (s.modGrp i fun g => { less g with stall := false })

/-- A final error response, or giving up, for request `tid` of a group: BUS_ERR at the instruction that waits
for it, once its last answer is in (R175), STORE_BUS_ERR later for a posted one (R323, R374). -/
def groupError (site : Site) (slot : Slot) (tid : Nat) (s : State) : State :=
  let i := gIx site.val slot.val
  let g := s.getGrp i
  let less (g : Group) : Group := { g with remote := g.remote - 1, posted := g.posted.filter fun e => e.1 ≠ tid }
  match g.loads.find? fun l => decide (l.tid = some tid), g.issued with
  | some l, some w =>
    let done (x : LoadPend) : LoadPend := if x = l then { x with err := true, tid := none } else x
    groupSettle site slot w (sendDue site slot w (s.modGrp i fun g => { less g with loads := g.loads.map done }))
  | _, _ =>
    let va := ((g.posted.find? fun e => e.1 = tid).map (·.2.1)).getD 0
    answered site.val slot.val (noteStoreErr i va (s.modGrp i fun g => { less g with stall := false }))

end Sys2Proof.Machine
end

