-- ==== Sys2Proof/Machine/LoessCmds.lean ====
section
/-! DEFINITION. The commands of the Loess slices: scratch accesses, cache reads and writes with the miss
table and the slice input, fills, home operations, flushes, scrubbing and repair (chapter 06; R440, R441). -/

namespace Sys2Proof.Machine
open Sys2Proof

/-- One access of a slice pipeline: it starts a wavefront, or the pacer delays it and the request stays at its port, to come
again (R51, R57). -/
def sliceAccess (j : Nat) (s : State) (f : State → State) : Host.Outcome State Fault Refusal :=
  if paceHolds s (j / 24) (slicePipe j) then ok (paceDelay (j / 24) (slicePipe j) s)
  else ok (f (paceStart (j / 24) (slicePipe j) s))

/-- SLICE_READ (R184, R217 to R219): a scratch slice serves a read, with the errors that have struck its words. -/
def execSliceRead (slice : Slice) (x : BitVec 26) (len : Nat) (who : Agent) (errs : List WordFault) (s : State) :
    Host.Outcome State Fault Refusal :=
  if sliceRole s slice.val ≠ 0 ∨ sliceBytes < x.toNat + len then ok s
  else if inReset s (slice.val / 24) then ok (send (.resetting who) s)
  else sliceAccess slice.val s fun s =>
    let (s1, e, bs) := scratchRead slice.val x.toNat len (strikeSlice slice.val errs s)
    reply who e bs s1

/-- SLICE_WRITE (R219, R221): a scratch slice serves a write. -/
def execSliceWrite (slice : Slice) (x : BitVec 26) (data : List Byte) (who : Agent) (s : State) :
    Host.Outcome State Fault Refusal :=
  if sliceRole s slice.val ≠ 0 ∨ sliceBytes < x.toNat + data.length then ok s
  else if inReset s (slice.val / 24) then ok (send (.resetting who) s)
  else sliceAccess slice.val s fun s =>
    let (s1, e) := scratchWrite slice.val x.toNat data s
    replyWrite who e s1

/-! ### The miss table (R205 to R207) -/

/-- Bytes that a joined request moves. -/
def Joined.bytes : Joined → Nat
  | .read _ _ n => n
  | .write _ _ d => d.length
  | .op _ _ _ _ => 256

/-- A later join may replace the label of a read that has not been issued: a real-time request with an
earlier deadline, or against a best-effort label (R206). -/
def joinLabel (m : Miss) (rq : HomeReq) : Miss :=
  if !m.sent && rq.rt && (!m.rt || dlEarlier rq.dl m.dl) then
    { m with cls := rq.cls.val, rt := true, dl := rq.dl }
  else m

/-- A request waits at the slice input. -/
def putInput (j : Nat) (jn : Joined) (rq : HomeReq) (s : State) : State :=
  s.modSlc j fun x => { x with input := x.input ++ [(jn, rq)] }

/-- A request waits at the slice input for the miss table, counted (R207). -/
def waitInput (j : Nat) (jn : Joined) (rq : HomeReq) (s : State) : State :=
  putInput j jn rq (s.modSlc j fun x => { x with missWait := x.missWait + 1 })

/-- The miss table has room for a request of line `l` (R205, R207). -/
def missRoom (s : State) (j l : Nat) : Bool :=
  match (s.getSlc j).miss.find? fun m => m.line = l with
  | some m => decide (m.reqs.length < 64)
  | none => decide ((s.getSlc j).miss.length < 128)

/-- A new request stands behind those that wait at the slice input: for the same line, or for a free entry (R78, R207). -/
def behindInput (s : State) (j l : Nat) : Bool :=
  let x := s.getSlc j
  x.input.any fun e => e.1.line == l || !x.miss.any fun m => m.line == l

/-- Join the entry of the line, or take a free entry, or wait (R205, R207); `fresh` is a request that has not waited. -/
def joinMiss (j : Nat) (jn : Joined) (rq : HomeReq) (fresh : Bool) (s : State) : State :=
  if !missRoom s j jn.line || (fresh && behindInput s j jn.line) then waitInput j jn rq s
  else if (s.getSlc j).miss.any fun m => m.line = jn.line then
    s.modSlc j fun x => { x with
      merged := x.merged + 1
      miss := x.miss.map fun a => if a.line = jn.line then
        joinLabel { a with reqs := a.reqs ++ [jn] } rq else a }
  else
    s.modSlc j fun x => { x with
      miss := x.miss ++ [{ line := jn.line, reqs := [jn], cls := rq.cls.val, rt := rq.rt, dl := rq.dl, sent := false, got := [] }] }

/-- A slot that a request of line `l` needs waits: with every candidate locked the wait is counted and operations of the set
are held (R200, R215). -/
def slotHeld (j l : Nat) (w : SlotWait) (s : State) : State :=
  match w with
  | .ready => s
  | .buffer => s
  | .locked => lockWaits j (setOf l) l s

/-- The line as the write `data` at `o` would leave it, to see what slot it needs. -/
def writtenTag (s : State) (j l cls o : Nat) (data : List Byte) : Tag :=
  (lineWrite o data ((resident s j l).getD (newTag l cls))).1

/-- An operation that arrives for a set in which a request waits for its victim, or for a line with four pending, waits at
the slice input and is not pending (R214, R215). -/
def opHeld (s : State) (j l : Nat) : Bool := ((resident s j l).any fun t => decide (4 ≤ t.ops.length)) || setHeld s j l

/-- A home operation becomes pending at its resident line; it commits at once after those before it, or `later` (R213,
R214). -/
def queueOp (j l : Nat) (t : Tag) (p : PendOp) (later : Bool) (s : State) : State :=
  let s1 := keepLine j { t with ops := t.ops ++ [p] } s
  if later then s1 else commitOps j l 4 s1

/-- Label of a request to a slice (R279). -/
def reqLabel (rq : HomeReq) : Label := (rq.cls.val, rq.rt, rq.dl)

/-- A request reaches the slice, new or from its input: a hit is served, a miss joins (R197, R205, R209). -/
def cacheRequest (j : Nat) (jn : Joined) (rq : HomeReq) (later fresh : Bool) (s : State) : State :=
  let l := jn.line
  let lab := reqLabel rq
  match jn with
  | .read who a len =>
    let (s1, e) := tombstoneRead j l s
    if e.isSome then reply who e [] s1
    else
      match resident s1 j l with
      | some t =>
        if t.valid = allW then
          let (s2, t2, b) := lineCheck lab j allW (wordsOf (a % 256) len) t s1
          reply who (if b then some .bus else none) (((tagBytes t2).drop (a % 256)).take len) (keepLine j t2 s2)
        else joinMiss j jn rq fresh s1
      | none => joinMiss j jn rq fresh s1
  | .write who a data =>
    if needsFill (a % 256) data.length ((resident s j l).getD (newTag l rq.cls.val)) then joinMiss j jn rq fresh s
    else
      match slotWait s j (resident s j l).isSome (writtenTag s j l rq.cls.val (a % 256) data) with
      | .ready =>
        let (s1, e) := cacheWriteNow l (a % 256) lab data s
        replyWrite who e s1
      | w => putInput j jn rq (slotHeld j l w s)
  | .op who a ret o =>
    if opHeld s j l then putInput j jn rq s
    else
      let (s1, e) := tombstoneRead j l s
      if e.isSome then replyOp who ret e [] s1
      else
        match resident s1 j l with
        | some t =>
          if t.valid = allW then queueOp j l t { who := who, off := a % 256, ret := ret, op := o } later s1
          else joinMiss j jn rq fresh s1
        | none => joinMiss j jn rq fresh s1

/-- A request to the cache slice of a Marl address: "target resetting" while its tower is in L2 (R30), a bus error at the held
device copy. -/
def atHome (addr : Nat) (who : Agent) (f : Nat → State → State) (s : State) : Host.Outcome State Fault Refusal :=
  match homeSlice s (addr / 256) with
  | none => ok s
  | some j =>
    if inReset s (j / 24) then ok (send (.resetting who) s)
    else if copyHeld s addr then ok (send (.busError who) s)
    else sliceAccess j s (f j)

/-- CACHE_READ (R197, R205 to R209), with the errors that have struck words of the slice. -/
def execCacheRead (addr : BitVec 40) (len : Nat) (rq : HomeReq) (errs : List WordFault) (s : State) :
    Host.Outcome State Fault Refusal :=
  let a := addr.toNat
  if marlBytes < a + len ∨ 256 < a % 256 + len ∨ len = 0 then ok s
  else atHome a rq.who (fun j s => cacheRequest j (.read rq.who a len) rq false true (strikeSlice j errs s)) s

/-- CACHE_WRITE (R197, R219, R221). -/
def execCacheWrite (addr : BitVec 40) (data : List Byte) (rq : HomeReq) (s : State) :
    Host.Outcome State Fault Refusal :=
  let a := addr.toNat
  if marlBytes < a + data.length ∨ 256 < a % 256 + data.length ∨ data = [] then ok s
  else atHome a rq.who (fun j s => cacheRequest j (.write rq.who a data) rq false true s) s

/-- HOME_OPERATION (R211 to R215): at the line's cache slice or at the scratch slice. A reduction returns
no value (R213). -/
def execHomeOperation (addr : BitVec 40) (ask : HomeAsk) (rq : HomeReq) (s : State) : Host.Outcome State Fault Refusal :=
  let a := addr.toNat
  let back := ask.ret && (match ask.op with | .atomic _ _ _ => true | .reduce _ _ _ _ => false)
  if a < marlBytes then atHome a rq.who (fun j s => cacheRequest j (.op rq.who a back ask.op) rq ask.later true s) s
  else
    match scratchOf s a with
    | none => ok (send (.busError rq.who) s)
    | some (j, x) =>
      if inReset s (j / 24) then ok (send (.resetting rq.who) s)
      else sliceAccess j s fun s =>
        let (s1, e, old) := scratchOp j x ask.op s
        replyOp rq.who back e old s1

/-- The fill of line `l`, whose Marl read has been issued, returns at slice `j` (R205, R198, R200); while the eviction it
needs must wait for the write-back buffer or for the locks of its set, it waits (R215). -/
def fillReturn (j l : Nat) (s : State) : State :=
  match (s.getSlc j).miss.find? fun m => m.line = l && m.sent with
  | none => s
  | some m =>
    let was := (resident s j l).isSome
    let (s0, t) := filledLine m.src j l m.cls s
    match slotWait s0 j was t with
    | .ready => let r := fillEntry j m s; storeLine j was (List.range 32) r.2 r.1
    | w => slotHeld j l w s

/-- MARL_FILL_RETURN (R205). -/
def execMarlFillReturn (slice : Slice) (line : BitVec 32) (s : State) : Host.Outcome State Fault Refusal :=
  sliceAccess slice.val s (fillReturn slice.val line.toNat)

/-- WRITEBACK_ACK (R200, R201): the oldest buffered write of the line is accepted by its channel, when the channel's arbiter takes
it, and waits otherwise (R229, R285); its entry is freed. -/
def execWritebackAck (slice : Slice) (line : BitVec 32) (s : State) : Host.Outcome State Fault Refusal :=
  match (s.getSlc slice.val).wb.find? fun e => e.line = line.toNat with
  | none => ok s
  | some e =>
    if stackAsleep s (slice.val / 24) then ok s
    else
      match marlPick s (chanOf s (4 * e.line)) with
      | none => ok s
      | some (w, s1) => if w = .write e then ok (wbPut slice.val e s1) else ok s

/-- A waiting request could now be served or joined (R200, R207, R214, R215). -/
def canProceed (s : State) (j : Nat) (jn : Joined) (rq : HomeReq) : Bool :=
  match jn with
  | .write _ a d =>
    if needsFill (a % 256) d.length ((resident s j jn.line).getD (newTag jn.line rq.cls.val)) then missRoom s j jn.line
    else slotWait s j (resident s j jn.line).isSome (writtenTag s j jn.line rq.cls.val (a % 256) d) == .ready
  | .read _ _ _ =>
    match resident s j jn.line with
    | some t => t.valid == allW || missRoom s j jn.line
    | none => missRoom s j jn.line
  | .op _ _ _ _ => !opHeld s j jn.line && (lineFull s j jn.line || missRoom s j jn.line)

/-- A request behind another of its line stays behind it: the first waiting request of each line that could proceed. -/
def inputReady (s : State) (j : Nat) : List (Joined × HomeReq) :=
  let l := (s.getSlc j).input
  l.filter fun e => canProceed s j e.1 e.2 && (l.find? fun f => f.1.line == e.1.line) == some e

/-- A waiting request as the slice's arbiter sees it (Table 2.10). -/
def inputCand (e : Joined × HomeReq) : Cand :=
  { input := agentInput e.1.who, cls := e.2.cls.val, rt := e.2.rt, dl := e.2.dl, bytes := e.1.bytes }

/-- SLICE_INPUT_RELEASE (R207): of the waiting requests that can proceed, the one the slice's arbiter takes does (R285;
Loess slices have no class minimum and no weights, R284, R286). -/
def execSliceInputRelease (slice : Slice) (s : State) : Host.Outcome State Fault Refusal :=
  let j := slice.val
  let cs := inputReady s j
  match arbServe (fun _ => 0) 1 agentInputs s.skt.time (fun _ => 1) (s.getSlc j).arb (cs.map inputCand) with
  | none => ok s
  | some (c, _, a) =>
    match cs.find? fun e => inputCand e = c with
    | none => ok s
    | some e =>
      sliceAccess j s fun s => (cacheRequest j e.1 e.2 false false (s.modSlc j fun x => { x with
        input := dropFirst (fun a => decide (a = e)) x.input, arb := a }))

/-- The lines of slice `j` with pending home operations (R214). -/
def lockedLines (s : State) (j : Nat) : List Nat :=
  ((s.getSlc j).sets.flatMap fun e => (e.2.filter Tag.locked).map (·.line))

/-- Each nanosecond the oldest pending operation of every locked line commits: within the 8 floor steps of R213. -/
def commitDue (s : State) : State :=
  forL (s.slices.map (·.1)) (fun j s => forL (lockedLines s j) (fun l s => commitOps j l 1 s) s) s

/-- DEAD_LINE_HINT (R208). -/
def execDeadLineHint (addr : BitVec 40) (ctx : Ctx) (s : State) : Host.Outcome State Fault Refusal :=
  ok (deadLine addr.toNat ctx.val s)

/-! ### Flushes (R202, R210) -/

/-- A dirty line is written back after the older writes of the line that the buffer still holds, and stays, CLEAN (R202): a
poisoned word, which Marl now holds marked, becomes invalid, as every valid word of a CLEAN line equals Marl (Table 6.3;
DEDUCED, log 84). -/
def flushLine (j : Nat) (t : Tag) (s : State) : State :=
  if !t.data || t.dirty == 0 then s
  else
    let (s1, u) := lineMeet backLabel j t.valid (List.range 32) t s
    let s2 := writeBack u.line u.valid u.dirty u.poison u.words (wbDrain j u.line s1)
    let v := { u with dirty := 0, valid := u.valid &&& ~~~u.poison, poison := 0, st := .clean }
    setTags j (setOf t.line) ((tagsOf s2 j (setOf t.line)).map fun a => if a.line = t.line then v else a) s2

/-- Write back every dirty line of a set and leave it resident and clean; its tombstones are dropped and
counted. -/
def flushSet (j set : Nat) (s : State) : State :=
  let ts := tagsOf s j set
  let tombs := (ts.filter fun t => !t.data).length
  let s1 := forL ts (flushLine j) s
  (setTags j set ((tagsOf s1 j set).filter Tag.data) s1).modSlc j fun x => { x with tombDrop := x.tombDrop + BitVec.ofNat 32 tombs }

/-- Flush every cache slice of a tower. -/
def flushTower (t : Nat) (s : State) : State :=
  forL (cacheSlices s t) (fun j s => forL ((s.getSlc j).sets.map (·.1)) (fun set s => flushSet j set s) s) s

/-- Perform every buffered write of a tower's slices. -/
def drainWb (t : Nat) (s : State) : State :=
  forL (cacheSlices s t) (fun j s => forL (s.getSlc j).wb (fun e s => wbDone j e s) s) s

/-- Requests that wait in a slice: joined, at the input, or pending at their line. -/
def waitingAgents (x : Slice_) : List Agent :=
  x.miss.flatMap (fun m => m.reqs.map Joined.who) ++ x.input.map (fun e => e.1.who)
    ++ x.sets.flatMap fun e => e.2.flatMap fun t => t.ops.map (·.who)

/-- Every tag entry of a tower becomes INVALID; requests that still wait there are answered "target resetting" (R30, R202). -/
def invalidateTower (t : Nat) (s : State) : State :=
  forL (towerSites t) (fun j s =>
    (forL (waitingAgents (s.getSlc j)) (fun w s => send (.resetting w) s) s).modSlc j fun x =>
      { x with sets := [], miss := [], wb := [], input := [], held_ := [], tagLost := [] }) s

/-- LSS_FLUSH_START (R202, Table 6.9): the management core, or a partition controller for its own tower;
a start while the tower's flush runs is ignored. -/
def lssFlushWrite (r : Req) (val : W32) (s : State) : State :=
  forN 4 (fun t s =>
    if getBit val t && (r.val == 1 || r.val == t + 2) && !getBit s.lss.busy t then
      let s1 := flushTower t s
      { s1 with lss := { s1.lss with busy := setBit s1.lss.busy t true } }
    else s) s

def execLssFlushStart (r : Req) (val : W32) (s : State) : Host.Outcome State Fault Refusal :=
  ok (lssFlushWrite r val s)

/-- LSS_FLUSH_DONE (R202): the tower's BUSY bit clears. -/
def execLssFlushDone (t : Tower) (s : State) : Host.Outcome State Fault Refusal :=
  ok { s with lss := { s.lss with busy := setBit s.lss.busy t.val false } }

/-- LOESS_CORRECTION_WRITEBACK (R217): the oldest pending correction is written back, and the word's error is gone. -/
def execLoessCorrectionWriteback (slice : Slice) (s : State) : Host.Outcome State Fault Refusal :=
  match (s.getSlc slice.val).fix with
  | [] => ok s
  | w :: _ => ok (s.modSlc slice.val fun x => { x with fix := x.fix.drop 1, hurt := x.hurt.filter fun f => f.word ≠ w })

/-! ### Scrubbing (R222 to R224) -/

/-- Accesses of one lap (R223). -/
def sliceLap : Nat := 131072

/-- The line whose slot holds word `w` of a cache slice. -/
def lineAt (s : State) (j w : Nat) : Option Tag :=
  (tagsOf s j (w / 512)).find? fun t => t.data && t.slot == w % 512 / 32 && (!t.comp || t.half == w % 32 / 16)
    && !(wordsHit t (w % 32)).isEmpty

/-- Stored word `k` of the line's slot is poisoned: in a full slot it is the line's word `k` (R219). -/
def storedBad (t : Tag) (k : Nat) : Bool := if t.comp then t.bad.contains k else getBit t.poison k

/-- Stored word `k` holds part of a dirty word of the line: where it is lost it is rewritten poisoned (R218). -/
def storesDirty (t : Tag) (k : Nat) : Bool := (wordsHit t k).any fun i => getBit t.valid i && getBit t.dirty i

/-- What an uncorrectable word of a cache line does to the words made from it: a clean one is invalidated, not fetched, a
dirty one poisoned (R224). -/
def scrubLine (t : Tag) (k : Nat) : Tag :=
  let u := ((wordsHit t k).filter (getBit t.valid)).foldl (fun t i =>
    if getBit t.dirty i then { t with poison := setBit t.poison i true }
    else { t with valid := setBit t.valid i false, poison := setBit t.poison i false, words := Tbl.put 0 t.words i 0 }) t
  { u with st := lineState u, bad := if t.comp && storesDirty t k then k :: t.bad else t.bad }

/-- The scrubber checks word `w` of a slice (R224): a poisoned word is counted as R219 says; a correctable error is counted
and due for correction; an uncorrectable one poisons a scratch word or falls on the line in the slot. Where no line stands
it is counted and nothing else. The error stays in a word that is not rewritten poisoned, until it is written (log 84). -/
def scrubWord (j : Nat) (scratch : Bool) (w : Nat) (s : State) : State :=
  let line := if scratch then none else lineAt s j w
  let poisoned := (scratch && wordBad s j w) || line.any (storedBad · (w % 32))
  if poisoned then slicePoisonRead j (8 * w) s
  else
    match hurtAt s j w with
    | none => s
    | some f =>
      match f.err with
      | .correctable => sliceCorrectable j (8 * w) f.bit.val s
      | .uncorrectable =>
        let s0 := sliceUncorrectable j (8 * w) f.bit.val s
        let s1 := if scratch || line.any (storesDirty · (w % 32)) then wordsWritten j [w] s0 else s0
        match line with
        | some t => setTags j (w / 512) ((tagsOf s1 j (w / 512)).map fun a => if a.line = t.line then scrubLine t (w % 32) else a) s1
        | none => if scratch then setWordBad j w true s1 else s1

/-- Both copies of a tag entry of a set are lost: the loss is due for its report (R220). One lost copy is rewritten from the
other; that and a corrected tag bit raise neither LSS_CE_COUNT nor LSS_UE_COUNT (DESIGN CHOICE, log 39). -/
def scrubTags (j set : Nat) (tags : BitVec 2) (s : State) : State :=
  if tags = 3 ∧ sliceRole s j = 1 then s.modSlc j fun x => { x with tagLost := if set ∈ x.tagLost then x.tagLost else x.tagLost ++ [set] }
  else s

/-- The lap ends after its last access (R224); its time in milliseconds is rounded down (DESIGN CHOICE, log 39). -/
def sliceLapEnd (j : Nat) (s : State) : State :=
  s.modSlc j fun x =>
    if x.scrubAt = sliceLap then
      let ms := BitVec.ofNat 32 ((now s - x.lapFrom.toNat) / 1000000)
      { x with
        scrubAt := 0, lapFrom := s.skt.time, lapLast := ms
        lapMax := if x.lapMax.toNat < ms.toNat then ms else x.lapMax
        laps := x.laps + 1 }
    else x

/-- The slice's scrub reservation, 1 in every 200 access steps, has a slot: 500/3 ns since the last one, as at the floor rate (R222;
DESIGN CHOICE, log 84). -/
def sliceReserve (s : State) (x : Slice_) : Bool := decide (500 ≤ 3 * (now s - x.resAt.toNat))

/-- SCRUB_ACCESS (R222 to R224): one access of 512 bytes, with the errors that have struck words of the slice; on a cache
slice access `k` of the lap also checks the tag entries of set `k / 8`. A lap visits the slice in ascending order (DESIGN CHOICE, log
39). Reserved slots are used only while behind, as far as the reservation goes; without one the scrubber loses to every waiting
request (R287). -/
def execScrubAccess (slice : Slice) (reserved : Bool) (errs : ScrubErrs) (s : State) : Host.Outcome State Fault Refusal :=
  let j := slice.val
  let x := s.getSlc j
  let behind (x : Slice_) : Bool := scrubBehind x.scrubAt sliceLap x.lapFrom.toNat (now s) s.lss.target.toNat
  if !sliceVisible s j || inReset s (j / 24) then ok s
  else if (reserved && (!behind x || !sliceReserve s x)) || (!reserved && !(inputReady s j).isEmpty) then
    ok (s.modSlc j fun x => { x with behind := behind x })
  else sliceAccess j s fun s =>
    let scratch := sliceRole s j == 0
    let s1 := forN 64 (fun i s => scrubWord j scratch (x.scrubAt * 64 + i) s) (strikeSlice j errs.words s)
    let s2 := sliceLapEnd j ((scrubTags j (x.scrubAt / 8) errs.tags s1).modSlc j fun x => { x with scrubAt := x.scrubAt + 1 })
    s2.modSlc j fun x => { x with behind := behind x, resAt := if reserved then s.skt.time else x.resAt }

/-! ### Row and column repair (R440, R441) -/

/-- A bank has no spare left: EXHAUSTED, notice to the management core and the host (R441). -/
def sliceExhausted (j : Nat) (s : State) : State :=
  raiseEvent 6 (notifyMgmt 10 (s.modSlc j fun x => { x with exhausted := true }))

/-- Replace a row of a bank that is due: the lowest due row, after every due column group. -/
def repairRow (j bank row : Nat) (s : State) : State :=
  let x := s.getSlc j
  if !(x.due.contains (bank, row)) || x.colDue.any (fun c => c.1 == bank)
      || x.due.any (fun d => d.1 == bank && decide (d.2 < row)) then s
  else
    let s1 := s.modSlc j fun x => { x with
      due := x.due.filter (· ≠ (bank, row)), rowErr := Tbl.put [] x.rowErr (bank * 65536 + row) [] }
    let used := Tbl.get 0 x.rowsUsed bank
    if used < 32 then
      addRepair 0x07 j (rowIndex bank row) used (s1.modSlc j fun x => { x with rowsUsed := Tbl.put 0 x.rowsUsed bank (used + 1) })
    else sliceExhausted j s1

/-- LOESS_ROW_REPAIR (R441). -/
def execLoessRowRepair (slice : Slice) (bank : Fin 64) (row : BitVec 16) (s : State) : Host.Outcome State Fault Refusal :=
  ok (repairRow slice.val bank.val row.toNat s)

/-- Replace a column group of a bank that is due. -/
def repairColumn (j bank grp : Nat) (s : State) : State :=
  let x := s.getSlc j
  if !(x.colDue.contains (bank, grp)) then s
  else
    let s1 := s.modSlc j fun x => { x with colDue := x.colDue.filter (· ≠ (bank, grp)) }
    let used := Tbl.get 0 x.colsUsed bank
    if used < 8 then
      addRepair 0x08 j (rowIndex bank grp) used (s1.modSlc j fun x => { x with colsUsed := Tbl.put 0 x.colsUsed bank (used + 1) })
    else sliceExhausted j s1

/-- LOESS_COLUMN_REPAIR (R441). -/
def execLoessColumnRepair (slice : Slice) (bank : Fin 64) (group : BitVec 16) (s : State) : Host.Outcome State Fault Refusal :=
  ok (repairColumn slice.val bank.val group.toNat s)

end Sys2Proof.Machine
end

