-- ==== Sys2Proof/Machine/Dma.lean ====
section
/-! DEFINITION. DMA engines: posts, descriptor checks, element issue and commit, faults and the control
register (R256 to R263, R278). -/

namespace Sys2Proof.Machine
open Sys2Proof

/-! ### Descriptor fields (Table 8.7) -/

def mOp (w : Line) : Nat := lf w 0 3 0
def mEsize (w : Line) : Nat := lf w 0 7 4
def mSrcShm (w : Line) : Bool := bit (lw w 0).toNat 8
def mDstShm (w : Line) : Bool := bit (lw w 0).toNat 9
def mRedOp (w : Line) : Nat := lf w 0 11 10
def mRedType (w : Line) : Nat := lf w 0 13 12
def mSyncEn (w : Line) : Bool := bit (lw w 0).toNat 14
def mClass (w : Line) : Nat := lf w 0 31 28
def mSyncId (w : Line) : Nat := lf w 0 43 32
def mSrc (w : Line) : Nat := lf w 1 47 0
def mDst (w : Line) : Nat := lf w 2 47 0
def mRow (w : Line) : Nat := lf w 3 23 0
def mN1 (w : Line) : Nat := lf w 3 39 24
def mN2 (w : Line) : Nat := lf w 3 55 40
def mSrcS1 (w : Line) : Nat := lf w 4 31 0
def mSrcS2 (w : Line) : Nat := lf w 4 63 32
def mDstS1 (w : Line) : Nat := lf w 5 31 0
def mDstS2 (w : Line) : Nat := lf w 5 63 32

/-- Bytes of an element. -/
def mE (w : Line) : Nat := 2 ^ mEsize w

/-- The operation reads a source. -/
def mUsesSrc (w : Line) : Bool := mOp w == 1 || mOp w == 3

/-- Elements of the descriptor (R258). -/
def mTotal (w : Line) : Nat := mN2 w * mN1 w * (mRow w / mE w)

/-- Distance of element `k` from the first, with the strides of a side. -/
def mOffset (w : Line) (s1 s2 k : Nat) : Nat :=
  let per := mRow w / mE w
  k / per / mN1 w * s2 + k / per % mN1 w * s1 + k % per * mE w

/-- Source address of element `k`. -/
def mSrcAt (w : Line) (k : Nat) : Nat := mSrc w + mOffset w (mSrcS1 w) (mSrcS2 w) k
/-- Destination address of element `k`. -/
def mDstAt (w : Line) (k : Nat) : Nat := mDst w + mOffset w (mDstS1 w) (mDstS2 w) k

/-- The whole extent of a shared side lies inside the task's allocation (R258). -/
def shmOk (s : State) (site : Nat) (t : Option TaskRef) (w : Line) (addr s1 s2 : Nat) : Bool :=
  decide (addr + (mN2 w - 1) * s2 + (mN1 w - 1) * s1 + mRow w ≤ (slmAlloc s site t).2)

/-- The checks of R258. -/
def dmaOk (s : State) (site : Nat) (d : DDesc) : Bool :=
  let w := d.words
  let e := mE w
  let op := mOp w
  let mult (a : Nat) : Bool := a % e == 0
  let reserved := lf w 0 27 16 == 0 && lf w 0 63 44 == 0 && lf w 1 63 48 == 0 && lf w 2 63 48 == 0 && lf w 3 63 56 == 0 && lw w 7 == 0
  let common := reserved && mClass w == d.cls.val
  if op = 5 then common && mSyncEn w
  else
    common && decide (1 ≤ op ∧ op ≤ 4) && decide (mEsize w ≤ 8)
      && (op != 2 || decide (3 ≤ mEsize w))
      && (op != 3 || (decide (mRedOp w ≤ 2 ∧ mRedType w ≤ 2) && mEsize w == (if mRedType w = 1 then 1 else 2)))
      && (op != 4 || mEsize w == 8)
      && decide (1 ≤ mRow w ∧ 1 ≤ mN1 w ∧ 1 ≤ mN2 w) && mult (mRow w) && mult (mDst w)
      && (!mUsesSrc w || mult (mSrc w))
      && (decide (mN1 w ≤ 1) || (mult (mDstS1 w) && mult (mSrcS1 w)))
      && (decide (mN2 w ≤ 1) || (mult (mDstS2 w) && mult (mSrcS2 w)))
      && !((op == 3 || op == 4) && mDstShm w)
      && (!mDstShm w || shmOk s site d.task w (mDst w) (mDstS1 w) (mDstS2 w))
      && (!(mUsesSrc w && mSrcShm w) || shmOk s site d.task w (mSrc w) (mSrcS1 w) (mSrcS2 w))

/-! ### Endings and stops (R260 to R263) -/

/-- Index of a channel as an agent. -/
def dmaAgent (ch : Nat) : Agent := .dma ⟨ch % 384, Nat.mod_lt _ (by omega)⟩

/-- End the head descriptor; a held fault record of it ends with it (Table 8.32). -/
def dmaEnd (code : Nat) (x : Dma) : Dma :=
  { x with fifo := x.fifo.drop 1, code := BitVec.ofNat 8 code, taken := false, next := 0, inFlight := [], faultAt := none, busAt := none
           retryFrom := none, faultRec := none }

/-- Nothing is taken on a site that saves (R263). -/
def siteSaves (s : State) (ch : Nat) : Bool := (s.getSite (ch / 4)).mode == 1

/-- First element of the gathered line reduction that holds element `k` (R259, R260). -/
def redStart (w : Line) : Nat → Nat → Nat
  | 0, k => k
  | fuel + 1, k =>
    if k = 0 then 0
    else
      let a := mDstAt w (k - 1)
      let b := mDstAt w k
      if a / 256 = b / 256 ∧ a < b then redStart w fuel (k - 1) else k

/-- The last element of the line reduction that holds element `k`. -/
def redEnd (w : Line) : Nat → Nat → Nat
  | 0, k => k
  | fuel + 1, k =>
    if mTotal w ≤ k + 1 then k
    else
      let a := mDstAt w k
      let b := mDstAt w (k + 1)
      if a / 256 = b / 256 ∧ a < b then redEnd w fuel (k + 1) else k

/-- The last element of the line reduction that holds element `k`, without those at or beyond an element in error (R261). -/
def redLast (x : Dma) (w : Line) (k : Nat) : Nat :=
  match x.busAt with
  | some b => min (redEnd w 128 k) (b - 1)
  | none => redEnd w 128 k

/-- End the head with an error: the channel halts and the controller gets a fault message (R261, R262, R276). Requests of it
that another device has yet to answer are not sent again. -/
def dmaFail (ch code reason exc k : Nat) (s : State) : State :=
  let t := ((s.getDma ch).fifo.head?).bind (·.task)
  faultMessage t reason exc ((killRequests (ch / 96) (dmaAgent ch) (fun _ => true) t s).modDma ch fun x =>
    { dmaEnd code x with index := BitVec.ofNat 64 k, mode := .halted, cause := x.cause &&& 1#2, haltBy := t })

/-- The channel parks at element `k`: every element below it has committed, and nothing at or beyond it has been read
(R260, R263). -/
def dmaPark (k : Nat) (x : Dma) : Dma :=
  let c := if x.faultAt.isSome then x.cause ||| 2#2 else x.cause
  { x with mode := .parked, cause := c, code := 0x10, index := BitVec.ofNat 64 k, next := k, inFlight := [], faultAt := none }

/-- Once nothing below it is left, an element in error ends the descriptor (R261); else a channel with a stop cause parks at
its next element. A fault that a REDUCE meets drops the elements of the reduction not yet issued (R260, R263). -/
def dmaSettle (ch : Nat) (s : State) : State :=
  let x := s.getDma ch
  match x.fifo with
  | [] => s
  | d :: _ =>
    if x.mode ≠ .running ∨ !x.taken then s
    else
      match x.busAt with
      | some k => if x.inFlight = [] then dmaFail ch 3 3 0 k s else s
      | none =>
        if x.cause = 0 ∧ x.faultAt = none then s
        else
          let k := x.faultAt.getD x.next
          let k' := if mOp d.words = 3 then redStart d.words 128 k else k
          let left := x.inFlight.filter fun e => decide (e.k < k')
          s.modDma ch fun x => if left ≠ [] then { x with inFlight := left } else dmaPark k' x

/-- A translation fault at element `k` (R253, R260). -/
def dmaFault (ch k va cause : Nat) (acc : Access) (entry : W64) (level : Nat) (s : State) : State :=
  match (s.getDma ch).fifo with
  | [] => s
  | d :: _ =>
    let k' := if mOp d.words = 3 then redStart d.words 128 k else k
    let rec_ := mkFaultRec 3 cause (accessCode acc cause) d.ctx.val (ch / 4) (ch % 4) d.cls.val va (now s) k' entry level
    let s1 := s.modDma ch fun x => { x with
      faultAt := some k, faultCause := BitVec.ofNat 8 cause, faultAddr := BitVec.ofNat 48 va, faultRec := some rec_ }
    dmaSettle ch (postFault (ch / 96) (dmaAgent ch) rec_ d.task (countFault (ch / 4) s1))

/-- "Target resetting": tried again until ABF_RETRY_LIMIT has passed (R429); the Bool says that it gives up. -/
def dmaRetry (ch : Nat) (s : State) : State × Bool :=
  match (s.getDma ch).retryFrom with
  | none => (s.modDma ch fun x => { x with retryFrom := some s.skt.time }, false)
  | some t => (s, decide (retryLimitNs s ≤ now s - t.toNat))

/-! ### Posts (R256) -/

/-- Enter a group's descriptor into a channel's FIFO. -/
def dmaEnter (ch : Nat) (g : Group) (w : Line) (s : State) : State :=
  s.modDma ch fun x => { x with fifo := x.fifo ++
    [{ words := w, ctx := ⟨g.ctx.toNat % 64, Nat.mod_lt _ (by omega)⟩, cls := ⟨g.cls.toNat % 16, Nat.mod_lt _ (by omega)⟩, task := g.task }] }

/-- Group slots of a site held on a post to channel `ch`. -/
def dpostWaiters (s : State) (site ch : Nat) : List Nat :=
  (List.range 24).filter fun k =>
    let g := s.getGrp (gIx site k)
    decide (g.mode = .held) && match g.hold with
      | .dpost b _ => decide (b.val = ch)
      | _ => false

/-- DPOST (R256): a release at partition scope, then the descriptor enters the FIFO; a full FIFO holds the
group, as do groups that wait for the channel (R78). -/
def execDpost (site : Site) (slot : Slot) (w : W64) (s : State) : Host.Outcome State Fault Refusal :=
  if !runsOp s site.val slot.val w 0x71 0x71 then ok s
  else
    let i := gIx site.val slot.val
    let g := s.getGrp i
    let ch := 4 * site.val + ib w 46 45
    ok (withRelease site.val slot.val 2 (fun s =>
      if ib w 63 47 ≠ 0 ∨ iDst w ≠ 0 ∨ iSb w ≠ 0 ∨ iSc w ≠ 0 ∨ iSa w % 2 ≠ 0 ∨ !regsOk g [iSa w + 1] then illegal i w s
      else if !lowEight (actLanes g w) then raise i 2 w s
      else if (s.getDma ch).fifo.length < 8 ∧ dpostWaiters s site.val ch = [] then finish i id (dmaEnter ch g (laneWord g (iSa w)) s)
      else holdGroup i (.dpost ⟨ch % 384, Nat.mod_lt _ (by omega)⟩ (laneWord g (iSa w))) s) s)

/-- DPOST_SLOT_FREE (R256): with a slot free, the held group that the channel's FIFO token names posts its
descriptor. -/
def execDpostSlotFree (site : Site) (slot : Slot) (s : State) : Host.Outcome State Fault Refusal :=
  let i := gIx site.val slot.val
  let g := s.getGrp i
  match g.mode, g.hold with
  | .held, .dpost ch w =>
    let ws := dpostWaiters s site.val ch.val
    let tok := (s.getDma ch.val).fifoTok
    if 8 ≤ (s.getDma ch.val).fifo.length ∨ tokenFirst 24 tok ws ≠ slot.val then ok s
    else
      let losers := ws.filter (· ≠ slot.val)
      let s1 := if losers.isEmpty then s
        else s.modDma ch.val fun x => { x with fifoTok := tokenFirst 24 (slot.val + 1) losers }
      ok (dmaEnter ch.val g w (s1.modGrp i fun g => advance (unhold g)))
  | _, _ => ok s

/-! ### Taking descriptors (R258) -/

/-- The channel takes its head descriptor where `want` accepts its OP. -/
def dmaTake (ch : Nat) (want : Nat → Bool) (s : State) : State :=
  let x := s.getDma ch
  match x.fifo with
  | [] => s
  | d :: _ =>
    if (x.mode ≠ .idle ∧ x.mode ≠ .running) ∨ x.taken ∨ x.cause ≠ 0 ∨ siteSaves s ch ∨ getBit (s.getSite (ch / 4)).blkBusy 2 ∨ !want (mOp d.words) then s
    else if !dmaOk s (ch / 4) d then dmaFail ch 1 5 1 0 s
    else s.modDma ch fun x => { x with mode := .running, taken := true, next := 0 }

/-- DMA_COPY (R258); it also takes a descriptor whose OP is no operation, which fails its check. -/
def execDmaCopy (ch : Chan) (s : State) : Host.Outcome State Fault Refusal :=
  ok (dmaTake ch.val (fun o => o == 1 || o == 0 || decide (6 ≤ o)) s)

/-- DMA_FILL (R258). -/
def execDmaFill (ch : Chan) (s : State) : Host.Outcome State Fault Refusal := ok (dmaTake ch.val (· == 2) s)

/-- DMA_REDUCE (R258). -/
def execDmaReduce (ch : Chan) (s : State) : Host.Outcome State Fault Refusal := ok (dmaTake ch.val (· == 3) s)

/-- DMA_DISCARD (R258). -/
def execDmaDiscard (ch : Chan) (s : State) : Host.Outcome State Fault Refusal := ok (dmaTake ch.val (· == 4) s)

/-- State of a channel without a descriptor in hand: a stop cause parks it with its entries (R263). -/
def dmaGoes (x : Dma) : DmaMode := if x.fifo.isEmpty then .idle else if x.cause ≠ 0 then .parked else .running

/-- The head descriptor ends OK; it signals its object (R262). -/
def dmaEndOk (ch : Nat) (d : DDesc) (s : State) : State :=
  let end_ (s : State) : State := s.modDma ch fun x =>
    let y := dmaEnd 0 x
    { y with mode := dmaGoes y }
  if mSyncEn d.words then
    match synSignal (mSyncId d.words) 10 1 s with
    | .done s1 _ _ => end_ s1
    | .bus => end_ s
    | .resetting => let (s1, up) := dmaRetry ch s; if up then end_ s1 else s1
  else end_ s

/-- DMA_SYNC (R258, R262): every earlier descriptor of the channel has ended. -/
def execDmaSync (ch : Chan) (s : State) : Host.Outcome State Fault Refusal :=
  let x := s.getDma ch.val
  match x.fifo with
  | [] => ok s
  | d :: _ =>
    if (x.mode ≠ .idle ∧ x.mode ≠ .running) ∨ x.taken ∨ x.cause ≠ 0 ∨ siteSaves s ch.val ∨ getBit (s.getSite (ch.val / 4)).blkBusy 2 ∨ mOp d.words ≠ 5 then ok s
    else if !dmaOk s (ch.val / 4) d then ok (dmaFail ch.val 1 5 1 0 s)
    else ok (dmaEndOk ch.val d s)

/-! ### Elements (R259, R260) -/

/-- What translating an address of an element gives. -/
inductive MTarget where
  | to (x : DmaTo)
  | fault (va cause : Nat) (entry : W64) (level : Nat)
deriving DecidableEq, Repr

/-- Translate one side of an element. -/
def mTarget (ch : Nat) (d : DDesc) (shm : Bool) (addr : Nat) (acc : Access) (s : State) : State × MTarget :=
  if shm then (s, .to (.shm ((slmAlloc s (ch / 4) d.task).1 + addr)))
  else
    let va := addr % 2 ^ 48
    match translate (ch / 4) d.ctx.val (BitVec.ofNat 48 va) acc s with
    | (s1, .fault c e lv) => (s1, .fault va c e lv)
    | (s1, .local_ pa) => (s1, .to (.mem pa))
    | (s1, .fabric dest) => (s1, .to (.far dest))

/-- Access of the destination side (Table 8.3). -/
def mDstAcc (w : Line) : Access := if mOp w = 3 then .reduce else if mOp w = 4 then .hint else .write

/-- What committing one element, or the line reduction that holds it, gives. -/
inductive MCommit where
  | done (s : State) (n : Nat)      -- committed: number of elements
  | sent (s : State)                -- its write is out to another device
  | wait (s : State)
  | bus (s : State) (k : Nat)       -- the lowest element in error
  | fault (s : State) (va cause : Nat) (entry : W64) (level : Nat)
deriving DecidableEq, Repr

/-- Mark the elements from `lo` to `hi` as sent under a request. -/
def markSent (ch lo hi tid : Nat) (s : State) : State :=
  let f (e : DmaEl) : DmaEl := if lo ≤ e.k ∧ e.k ≤ hi then { e with sent := true, put := some tid } else e
  s.modDma ch fun x => { x with inFlight := x.inFlight.map f }

/-- Line and mask of a line reduction of elements of `n` bytes (R211, Table 12.2). -/
def redLine (w : Line) (els : List DmaEl) : List Byte × List Byte :=
  let n := mE w
  let line := els.foldl (fun l e => setBytes l (mDstAt w e.k % 256) e.data) (List.replicate 256 0)
  let mask := els.foldl (fun m e => m + 2 ^ (mDstAt w e.k % 256 / n)) 0
  (leBytes 16 mask, line)

/-- The element that a line reduction's error is reported for: the lowest whose word is poisoned (R219, R261). -/
def redBad (w : Line) (line : Nat) (els : List DmaEl) (lo : Nat) (s : State) : Nat :=
  match (els.filter fun e => memPoisoned s (line + mDstAt w e.k % 256)).map (·.k) with
  | [] => lo
  | k :: l => l.foldl min k

/-- The elements from `lo` to `hi` are done with an error at `k`: those below it have committed. -/
def dropPart (ch lo hi k : Nat) (s : State) : State :=
  s.modDma ch fun x => { x with
    inFlight := x.inFlight.filter fun y => !decide (lo ≤ y.k ∧ y.k ≤ hi), elements := x.elements + BitVec.ofNat 32 (k - lo) }

/-- The element's word waits at a queue that cannot take it (R307). -/
def holdElement (ch k pa : Nat) (data : List Byte) (s : State) : State :=
  match regionOf pa with
  | .queue q off => (holdWord (dmaAgent ch) q (bytesLine data) false (off == 0x40) none s none none (some k)).modDma ch fun x =>
      { x with inFlight := x.inFlight.map fun e => if e.k = k then { e with held := true } else e }
  | _ => s

/-- Elements given up leave the queues they wait at. -/
def dropHeld (ch : Nat) (gone : Nat → Bool) (s : State) : State :=
  forN 4 (fun p s => s.modPart p fun x => { x with held_ := x.held_.filter fun h => !(decide (h.who = dmaAgent ch) && h.elem.any gone) }) s

/-- Write the data of element `k` to where its destination was translated at its issue (R259). Line reductions go out in
order, so that none is done beyond one that faults (R260). -/
def mWrite (ch : Nat) (d : DDesc) (e : DmaEl) (s : State) : MCommit :=
  let w := d.words
  let who := dmaAgent ch
  let red := decide (mOp w = 3)
  let lo := if red then redStart w 128 e.k else e.k
  let hi := if red then redLast (s.getDma ch) w e.k else e.k
  let all := (s.getDma ch).inFlight
  let els := all.filter fun x => decide (lo ≤ x.k ∧ x.k ≤ hi)
  if els.length ≠ hi + 1 - lo ∨ els.any (·.get.isSome) ∨ (red ∧ all.any fun x => decide (x.k < lo)) then .wait s
  else
    match e.to_ with
    | .shm a => .done (slmWrite (ch / 4) a e.data s) 1
    | .mem pa =>
      if mOp w = 4 then .done (deadLine (pa / 256 * 256) d.ctx.val s) 1
      else if inMemory pa && !portMay s (ch / 4) .dmaWrite then .wait (portHold (ch / 4) .dmaWrite s)
      else if red then
        let (mask, line) := redLine w els
        let (s2, err, _) := physOp who (pa / 256 * 256) (refLabel s d.cls.val d.task)
          (.reduce (BitVec.ofNat 2 (mRedOp w)) (BitVec.ofNat 2 (mRedType w)) mask line) (if inMemory pa then portTake (ch / 4) .dmaWrite s else s)
        match err with
        | none => .done s2 (hi + 1 - lo)
        | some .resetting => let (s3, up) := dmaRetry ch s2; if up then .bus s3 lo else .wait s3
        | some .discarded => .fault s2 (mDstAt w e.k % 2 ^ 48) 8 0 0xFF
        | some _ => .bus s2 (redBad w (pa / 256 * 256) els lo s)
      else
        if wordHeld s who && (match regionOf pa with | .queue _ _ => true | _ => false) then .wait s
        else
        let (s2, err) := physWrite who pa e.data (refLabel s d.cls.val d.task) (if inMemory pa then portTake (ch / 4) .dmaWrite s else s)
        match err with
        | none => .done s2 1
        | some .resetting => let (s3, up) := dmaRetry ch s2; if up then .bus s3 lo else .wait s3
        | some .held => .sent (holdElement ch e.k pa e.data s2)
        | some .discarded => .fault s2 (mDstAt w e.k % 2 ^ 48) 8 0 0xFF
        | some _ => .bus s2 lo
    | .far dest =>
      if mOp w = 4 then .done s 1
      else
        let pkt := if red then
            let (mask, line) := redLine w els
            reqPkt s who 4 (dest / 256 * 256) (mRedOp w + 4 * mRedType w) 0 (mask ++ line)
          else reqPkt s who 1 dest 0 0 e.data
        match issueRequest (ch / 96) who pkt s with
        | .held => .wait s
        | .noRoute => .bus s lo
        | .sent s2 tid => .sent (markSent ch lo hi tid s2)

/-- Error at element `k`: nothing more is issued, the elements at or beyond it are given up, and once those below it have
committed the descriptor ends at the lowest element in error (R261). -/
def dmaBus (ch k : Nat) (s : State) : State :=
  let gone := (s.getDma ch).inFlight.filter fun e => decide (k ≤ e.k)
  let tids := gone.filterMap (·.get) ++ gone.filterMap (·.put)
  let t := ((s.getDma ch).fifo.head?).bind (·.task)
  dmaSettle ch ((dropHeld ch (fun e => decide (k ≤ e)) (killRequests (ch / 96) (dmaAgent ch) tids.contains t s)).modDma ch fun x => { x with
    busAt := some (match x.busAt with | some b => min b k | none => k)
    inFlight := x.inFlight.filter fun e => decide (e.k < k) })

/-- Read the source of element `k`: its data, or the request for them. -/
inductive MRead where
  | data (s : State) (bs : List Byte)
  | asked (s : State) (tid : Nat)
  | wait (s : State)
  | bus (s : State)
  | fault (s : State) (va cause : Nat) (entry : W64) (level : Nat)
deriving DecidableEq, Repr

/-- Bytes of the element's source, or of its fill pattern. -/
def mRead (ch : Nat) (d : DDesc) (k : Nat) (t : DmaTo) (s : State) : MRead :=
  let w := d.words
  let who := dmaAgent ch
  if !mUsesSrc w then
    .data s (((List.range (mE w / 8)).flatMap fun _ => leBytes 8 (lw w 6).toNat))
  else
    match t with
    | .shm a => .data s (slmRead s (ch / 4) a (mE w))
    | .mem pa =>
      if inMemory pa && !portMay s (ch / 4) .dmaRead then .wait (portHold (ch / 4) .dmaRead s)
      else
      let (s1, e, bs, poison) := physRead who pa (mE w) (refLabel s d.cls.val d.task) (if inMemory pa then portTake (ch / 4) .dmaRead s else s)
      match e with
      | none => if poison then .bus s1 else .data s1 bs
      | some .resetting => let (s2, up) := dmaRetry ch s1; if up then .bus s2 else .wait s2
      | some .discarded => .fault s1 (mSrcAt w k % 2 ^ 48) 8 0 0xFF
      | some _ => .bus s1
    | .far dest =>
      match issueRequest (ch / 96) who (reqPkt s who 2 dest 0 (mE w) []) s with
      | .held => .wait s
      | .noRoute => .bus s
      | .sent s1 tid => .asked s1 tid

/-- The next element may be issued: the channel runs, with no stop cause and no element in error or at fault. -/
def dmaIssues (x : Dma) (w : Line) : Bool :=
  decide (x.mode = .running) && x.taken && decide (x.cause = 0) && x.faultAt.isNone && x.busAt.isNone && decide (x.next < mTotal w)

/-- Issue element `k`: translate its source and its destination, then issue its read (R259). -/
def dmaIssue (ch k : Nat) (d : DDesc) (s : State) : State :=
  let w := d.words
  let src := if mUsesSrc w then mTarget ch d (mSrcShm w) (mSrcAt w k) .read s else (s, .to (.shm 0))
  match src with
  | (s1, .fault va c e lv) => dmaFault ch k va c .read e lv s1
  | (s1, .to t) =>
    match mTarget ch d (mDstShm w) (mDstAt w k) (mDstAcc w) s1 with
    | (s2, .fault va c e lv) => dmaFault ch k va c (mDstAcc w) e lv s2
    | (s2, .to dst) =>
      let put (data : List Byte) (tid : Option Nat) (s : State) : State := s.modDma ch fun x =>
        { x with next := k + 1, inFlight := x.inFlight ++ [{ k := k, to_ := dst, data := data, get := tid, sent := false, put := none }]
                 retryFrom := none }
      match mRead ch d k t s2 with
      | .data s3 bs => put bs none s3
      | .asked s3 tid => put [] (some tid) s3
      | .wait s3 => s3
      | .bus s3 => dmaBus ch k s3
      | .fault s3 va c e lv => dmaFault ch k va c .read e lv s3

/-- Pacer pipeline of a channel's engine. -/
def dmaPipe (ch : Nat) : Nat := 96 + ch % 96 / 4

/-- DMA_ELEMENT_ISSUE (R259): the next element is issued, one wavefront of the engine, which the pacer may delay (R57). -/
def execDmaElementIssue (ch : Chan) (s : State) : Host.Outcome State Fault Refusal :=
  let x := s.getDma ch.val
  match x.fifo with
  | [] => ok s
  | d :: _ =>
    if !dmaIssues x d.words then ok s
    else if paceHolds s (ch.val / 96) (dmaPipe ch.val) then ok (paceDelay (ch.val / 96) (dmaPipe ch.val) s)
    else ok (dmaIssue ch.val x.next d (paceStart (ch.val / 96) (dmaPipe ch.val) s))

/-- The channel's last element has committed: its end is due, also after a wait on a sync object that is being reset. -/
def dmaEndDue (x : Dma) (d : DDesc) : Bool :=
  decide (x.mode = .running) && x.taken && x.inFlight.isEmpty && decide (mTotal d.words ≤ x.next) && x.faultAt.isNone && x.busAt.isNone

/-- Elements `lo` to `hi` have committed: counted; the descriptor ends with its last one (R259, R262). -/
def dmaCommitted (ch lo hi : Nat) (d : DDesc) (s : State) : State :=
  let s1 := s.modDma ch fun x =>
    let left := x.inFlight.filter fun y => !decide (lo ≤ y.k ∧ y.k ≤ hi)
    { x with inFlight := left, elements := x.elements + BitVec.ofNat 32 (hi + 1 - lo), retryFrom := none }
  let x := s1.getDma ch
  if dmaEndDue x d then dmaEndOk ch d s1
  else dmaSettle ch s1

/-- DMA_ELEMENT_COMMIT (R259, R260): the write or reduction of element `k` commits. -/
def execDmaElementCommit (ch : Chan) (k : Nat) (s : State) : Host.Outcome State Fault Refusal :=
  let x := s.getDma ch.val
  match x.fifo with
  | [] => ok s
  | d :: _ =>
    if x.mode ≠ .running ∨ !x.taken then ok s
    else
      match x.inFlight.find? fun e => decide (e.k = k) with
      | none => if dmaEndDue x d then ok (dmaEndOk ch.val d s) else ok s
      | some e =>
        let lo := if mOp d.words = 3 then redStart d.words 128 k else k
        let hi := if mOp d.words = 3 then redLast x d.words k else k
        if e.held then ok s
        else if e.bad then ok (dmaBus ch.val k s)
        else if e.sent then
          if e.put.isSome then ok s else ok (dmaCommitted ch.val lo hi d s)
        else
          match mWrite ch.val d e s with
          | .done s1 _ => ok (dmaCommitted ch.val lo hi d s1)
          | .sent s1 => ok s1
          | .wait s1 => ok s1
          | .bus s1 k1 => ok (dmaBus ch.val k1 (dropPart ch.val lo hi k1 s1))
          | .fault s1 va c en lv =>
            let s2 := s1.modDma ch.val fun x => { x with inFlight := x.inFlight.filter fun y => decide (y.k < lo) }
            ok (dmaFault ch.val lo va c (mDstAcc d.words) en lv s2)

/-- DMA_BUS_ERROR (R261): the read or write of element `k` meets an error. -/
def execDmaBusError (ch : Chan) (k : Nat) (s : State) : Host.Outcome State Fault Refusal :=
  let x := s.getDma ch.val
  if x.mode ≠ .running ∨ !x.taken ∨ !(x.inFlight.any fun e => decide (e.k = k)) then ok s
  else ok (dmaBus ch.val k s)

/-! ### DMA_CTRL (Table 8.25) -/

/-- A halted channel goes on; on a site that saves it stands still for it (R262, R263). -/
def dmaUnhalt (saves : Bool) (x : Dma) : Dma :=
  let y := if saves then { x with cause := x.cause ||| 1#2 } else x
  { y with mode := dmaGoes y }

/-- A write of DMA_CTRL (R255, R261 to R263, R278). -/
def dmaCtrl (r ch val : Nat) (s : State) : State :=
  let x := s.getDma ch
  let err := countRegErr r 9 0x100 (some (ch / 96)) s
  let fault := decide (x.mode = .parked) && getBit x.cause 1
  if !siteWritable s r (ch / 4) 2 || val % 16 == 0 then s
  else if val % 16 = 1 then
    if !fault then err
    else s.modDma ch fun x =>
      let c := x.cause &&& 1#2
      { x with cause := c, faultRec := none, mode := if c = 0 then .running else .parked }
  else if val % 16 = 2 then
    if !fault then err
    else
      let t := (x.fifo.head?).bind (·.task)
      faultMessage t 5 2 (s.modDma ch fun x =>
        { dmaEnd 2 x with cause := x.cause &&& 1#2, mode := .halted, faultRec := none, haltBy := t })
  else if val % 16 = 4 then
    if x.mode ≠ .halted then err
    else s.modDma ch fun x =>
      { x with fifo := [], taken := false, mode := .idle, code := if x.fifo.isEmpty then x.code else 5 }
  else if val % 16 = 8 then
    if x.mode ≠ .halted then err
    else s.modDma ch (dmaUnhalt (siteSaves s ch))
  else err

/-- DMA_CTRL_RESUME (R263). -/
def execDmaCtrlResume (r : Req) (ch : Chan) (s : State) : Host.Outcome State Fault Refusal := ok (dmaCtrl r.val ch.val 1 s)
/-- DMA_CTRL_DISCARD (R261). -/
def execDmaCtrlDiscard (r : Req) (ch : Chan) (s : State) : Host.Outcome State Fault Refusal := ok (dmaCtrl r.val ch.val 2 s)
/-- DMA_CTRL_FLUSH (R262). -/
def execDmaCtrlFlush (r : Req) (ch : Chan) (s : State) : Host.Outcome State Fault Refusal := ok (dmaCtrl r.val ch.val 4 s)
/-- DMA_CTRL_CLR_HALT (R262). -/
def execDmaCtrlClrHalt (r : Req) (ch : Chan) (s : State) : Host.Outcome State Fault Refusal := ok (dmaCtrl r.val ch.val 8 s)

/-! ### Fabric responses, pre-emption and aborts -/

/-- An ACK or DATA response to one of the channel's requests. -/
def dmaAnswer (ch tid : Nat) (bs : List Byte) (s : State) : State :=
  let f (e : DmaEl) : DmaEl :=
    if e.get = some tid then { e with get := none, data := bs }
    else if e.put = some tid then { e with put := none } else e
  s.modDma ch fun x => { x with inFlight := x.inFlight.map f }

/-- A final error response, or giving up, for one of them (R261). -/
def dmaError (ch tid : Nat) (s : State) : State :=
  let x := s.getDma ch
  match x.inFlight.find? fun e => decide (e.get = some tid ∨ e.put = some tid) with
  | some e => if x.mode = .running then dmaBus ch e.k s else s
  | none => s

/-- Stop for pre-emption at the next element boundary (R263): a channel with entries parks, one that is empty or HALTED
stands still as it is. -/
def dmaPreempt (ch : Nat) (s : State) : State :=
  let x := s.getDma ch
  if x.mode = .halted ∨ x.fifo.isEmpty then s
  else
    let s1 := s.modDma ch fun x => { x with cause := x.cause ||| 1#2 }
    if x.mode = .running ∧ x.taken then dmaSettle ch s1 else s1.modDma ch fun x => { x with mode := .parked }

/-- The restore clears the pre-emption cause (R263). -/
def dmaUnpreempt (x : Dma) : Dma :=
  let c := x.cause &&& 2#2
  { x with cause := c, mode := if x.mode = .parked ∧ c = 0 then (if x.fifo.isEmpty then .idle else .running) else x.mode }

/-- A channel whose descriptors of the tasks that satisfy `p` end ABORTED (R273). A stop for pre-emption stands (R263). -/
def abortedChan (p : Option TaskRef → Bool) (x : Dma) : Dma :=
  let gone (d : DDesc) : Bool := p d.task
  if !x.fifo.any gone then x
  else
    let y := { x with fifo := x.fifo.filter fun d => !gone d, code := 4 }
    if (x.fifo.head?).any gone then
      let z := { y with taken := false, next := 0, inFlight := [], faultAt := none, busAt := none, faultRec := none
                        retryFrom := none, cause := x.cause &&& 1#2 }
      if x.mode = .halted then z else { z with mode := dmaGoes z }
    else y

/-- End every descriptor of the tasks that satisfy `p` with code ABORTED; requests of the descriptor in hand that another
device has yet to answer are not sent again (R273, R275). -/
def abortDma (ch : Nat) (p : Option TaskRef → Bool) (s : State) : State :=
  let head := (s.getDma ch).fifo.head?
  let s1 := if (head.any fun d => p d.task) then killRequests (ch / 96) (dmaAgent ch) (fun _ => true) (head.bind (·.task)) s else s
  s1.modDma ch (abortedChan p)

end Sys2Proof.Machine
end

