-- ==== Sys2Proof/Machine/Site.lean ====
section
/-! DEFINITION. Contexts, translation walks and invalidations, core pre-emption with its save area, and the end
of a group's fault (R243, R250 to R255, R264 to R268, R519). -/

namespace Sys2Proof.Machine
open Sys2Proof

/-! ### Contexts (R243) -/

/-- An admitted task of the context exists. -/
def ctxHasTask (s : State) (c : Nat) : Bool :=
  (List.range 4).any fun p => (s.getPart p).tasks.any fun e => match e.2 with
    | some t => t.ctx.val == c
    | none => false

/-- The management core and the partition controllers. -/
def mgmtOrPc (r : Nat) : Bool := decide (1 ≤ r ∧ r ≤ 5)

/-- XLT_CTX_CFG_WRITE (R243, R277). -/
def execXltCtxCfgWrite (r : Req) (ctx : Ctx) (val : W32) (s : State) : Host.Outcome State Fault Refusal :=
  if !mgmtOrPc r.val then ok s
  else if getBit val 0 then ok (s.modCtx ctx.val fun c => { c with valid := true })
  else if !(s.getCtx ctx.val).valid then ok s
  else if ctxHasTask s ctx.val || (s.getCtx ctx.val).aborting then ok (countRegErr r.val 8 0x100 none s)
  else ok (s.modCtx ctx.val fun c => { c with valid := false })

/-! ### Walks one level at a time (R250, R516) -/

/-- The access that array `a` makes now at an address: its descriptor and the fault kind of Table 3.8 (R108). -/
def aryAccess (s : State) (a va : Nat) (acc : Access) : Option (ADesc × Nat) :=
  let x := s.getAry a
  let kinds : List ArrayAccess := if acc = .write then [.destination] else [.stationary, .scale, .streamed]
  kinds.findSome? fun k => (walkDesc x k va).map fun d => (d, faultKindOf k)

/-- The agent is one of the site's and has an access to make. -/
def walkerReady (s : State) (site : Nat) (ctx va : Nat) (acc : Access) (who : Agent) : Bool :=
  match who with
  | .group st sl =>
    let g := s.getGrp (gIx st.val sl.val)
    st.val == site && decide (g.mode = .ready) && g.ctx.toNat == ctx
  | .array a =>
    let x := s.getAry a.val
    a.val / 2 == site && decide (x.mode = .running) && (match aryAccess s a.val va acc with | some d => d.1.ctx.val == ctx | none => false)
  | .dma ch =>
    let x := s.getDma ch.val
    ch.val / 4 == site && decide (x.mode = .running) && x.taken && (match x.fifo with | d :: _ => d.ctx.val == ctx | [] => false)
  | _ => false

/-- A fault that ends a walk stops the requester that it served (R253). A group's data access meets the fault as its instruction
makes it, which reports the lane and the address of R175; the walk of a group's fetch parks it. -/
def walkFault (site : Nat) (who : Agent) (va : BitVec 48) (acc : Access) (cause : Nat) (entry : W64) (level : Nat) (s : State) :
    State :=
  match who with
  | .group _ slot =>
    let g := s.getGrp (gIx site slot.val)
    if acc = .fetch ∧ g.issued = none ∧ g.pc = va then groupFault site slot.val (lowLane g.exec) va acc cause entry level s else s
  | .array a =>
    match aryAccess s a.val va.toNat acc with
    | some d => faultStop a.val d.1 d.2 va.toNat cause entry level s
    | none => s
  | .dma ch => dmaFault ch.val (s.getDma ch.val).next va.toNat cause acc entry level s
  | _ => s

/-- TRANSLATION_WALK (R250, R516): one level's table read returns; `err` is an uncorrectable error of it (R251).
The walk goes on, gives a leaf, or faults. -/
def execTranslationWalk (site : Site) (who : Agent) (ctx : Ctx) (va : BitVec 48) (acc : Access) (err : Bool) (s : State) :
    Host.Outcome State Fault Refusal :=
  let x := s.getSite site.val
  let mine (w : Walk) : Bool := decide (w.who = who ∧ w.ctx = ctx ∧ w.va = va ∧ w.acc = acc)
  if !walkerReady s site.val ctx.val va.toNat acc who || getBit x.blkBusy 5 then ok s
  else
    let start := match x.walks.find? mine with
      | some w => some (w.level, w.table)
      | none =>
        if 4 ≤ x.walks.length ∨ (findLeaf x.tlb ctx.val va.toNat).isSome then none else some (walkStart s x.walkc ctx.val va.toNat)
    match start with
    | none => ok s
    | some (level, table) =>
      let s0 := if x.walks.any mine then s else s.modSite site.val fun y => { y with tlbMiss := y.tlbMiss + 1 }
      let (s1, r) := walkLevel table level va.toNat err s0
      let rest := x.walks.filter fun w => !mine w
      match r with
      | .next t =>
        let w : Walk := { who := who, ctx := ctx, va := va, acc := acc, level := level - 1, table := t }
        let e : WalkEnt := { ctx := ctx.val, level := level - 1, base := walkKey va.toNat (level - 1), table := t }
        ok (s1.modSite site.val fun y => { y with walks := rest ++ [w], walkc := (e :: y.walkc).take 64 })
      | r =>
        let s2 := s1.modSite site.val fun y => { y with walks := rest }
        match levelResult s2 acc va.toNat level r, r with
        | .fault c e lv, _ => ok (walkFault site.val who va acc c e lv s2)
        | _, .leaf e => ok (s2.modSite site.val fun y => { y with tlb := (mkLeaf ctx.val va.toNat level e :: y.tlb).take 1024 })
        | _, _ => ok s2

/-! ### Invalidations (R252) -/

/-- What an invalidation names. -/
structure InvRange where
  ctx : Option Nat
  lo : Nat
  hi : Nat
deriving DecidableEq, Repr

/-- The bytes from `base`, `size` long, of context `c` overlap the range. -/
def InvRange.hits (v : InvRange) (c base size : Nat) : Bool :=
  (match v.ctx with | some k => k == c | none => true) && decide (base < v.hi ∧ v.lo < base + size)

/-- Bytes under one entry of a table of `level`. -/
def keySize (level : Nat) : Nat := 2 ^ (12 + 9 * (level + 1))

/-- Drop every matching entry in every unit (R252). -/
def invalidate (v : InvRange) (s : State) : State :=
  let leafOk (l : Leaf) : Bool := !v.hits l.ctx l.base l.size
  let entOk (e : WalkEnt) : Bool := !v.hits e.ctx (e.base * keySize e.level) (keySize e.level)
  let walkOk (w : Walk) : Bool := !v.hits w.ctx.val w.va.toNat 1
  let s1 := forN 96 (fun j s =>
    let x := s.getSite j
    if x.tlb.isEmpty && x.walkc.isEmpty && x.walks.isEmpty then s
    else s.modSite j fun x => { x with tlb := x.tlb.filter leafOk, walkc := x.walkc.filter entOk, walks := x.walks.filter walkOk }) s
  forN 6 (fun k s => if (s.getPort k).collTlb.isEmpty then s
    else s.modPort k fun x => { x with collTlb := x.collTlb.filter leafOk }) s1

/-- The range that a requester's registers name. -/
def invRange (q : XltReq) : InvRange :=
  let lo := q.addr.toNat / 4096 * 4096
  { ctx := if q.all then none else some q.ctx.toNat
    lo := if q.pages = 0 then 0 else lo
    hi := if q.pages = 0 then 2 ^ 48 else lo + q.pages.toNat * 4096 }

/-- Elements of a channel that have been translated by an entry of the range and whose write or reduction has yet to be
made: not sent to another device, not performed in this one (R259). -/
def dmaWaits (v : InvRange) (ch : Nat) (x : Dma) : List InvWait :=
  match x.fifo with
  | [] => []
  | d :: _ =>
    (x.inFlight.filter fun e => !e.sent && !(mDstShm d.words)
        && v.hits d.ctx.val (mDstAt d.words e.k % 2 ^ 48) (mE d.words)).map fun e => .dma ch e.k

/-- The group has a translated access to make still: the word of a queue put that waits, or the local part of an atomic whose
other part is out (R174, R307). -/
def groupOwes (g : Group) : Bool :=
  (decide (g.mode = .held) && (match g.hold with | .queue _ _ _ => true | _ => false)) || g.loads.any fun l => !l.later.isEmpty

/-- Contexts of the requester of the device's request with this TID. -/
def ctxsOf (s : State) (tid : Nat) : List Nat :=
  match (Tbl.get [] s.net.tids (tid / 0x4000)).find? fun e => e.1 = tid % 0x4000 with
  | some (_, e) => match e.who with
    | .group st sl => [(s.getGrp (gIx st.val sl.val)).ctx.toNat]
    | .array a => (s.getAry a.val).fifo.map fun d => d.ctx.val
    | .dma ch => (s.getDma ch.val).fifo.map fun d => d.ctx.val
    | .coll _ => List.range 64
    | _ => []
  | none => []

/-- Accesses that were translated by an entry of the range and have yet to be performed (R252). DESIGN CHOICE (log 84):
those of groups and of requests in transmit queues are told by their context, not by their addresses. -/
def invWaits (v : InvRange) (s : State) : List InvWait :=
  s.dmas.flatMap (fun e => dmaWaits v e.1 e.2)
    ++ ((s.groups.filter fun e => groupOwes e.2 && v.hits e.2.ctx.toNat v.lo 1).map fun e => .group e.1)
    ++ ((unsent s).filter fun tid => (ctxsOf s tid).any fun c => v.hits c v.lo 1).map .packet

/-- The access is still to be performed. -/
def stillOwed (s : State) (w : InvWait) : Bool :=
  match w with
  | .dma ch k => (s.getDma ch).inFlight.any fun e => e.k == k && !e.sent
  | .group i => groupOwes (s.getGrp i)
  | .packet tid => (unsent s).contains tid

/-- INVALIDATION_START (R252, Table 8.15): a write of XLT_INVAL_CTRL; START is ignored while BUSY. -/
def execInvalidationStart (r : Req) (val : W32) (s : State) : Host.Outcome State Fault Refusal :=
  let v := val.toNat
  let go := bit v 30 && !(s.getXrq r.val).busy
  let s1 := s.modXrq r.val fun q => { q with
    pages := BitVec.ofNat 16 (bits v 23 8), all := bit v 7, ctx := BitVec.ofNat 6 (bits v 5 0), busy := q.busy || go }
  let v := invRange (s1.getXrq r.val)
  ok (if go then (invalidate v s1).modXrq r.val fun q => { q with waits := invWaits v s1 } else s1)

/-- INVALIDATION_DONE (R252): BUSY clears once every access that was translated by a dropped entry has been performed. -/
def execInvalidationDone (r : Req) (s : State) : Host.Outcome State Fault Refusal :=
  let left := (s.getXrq r.val).waits.filter (stillOwed s)
  ok (s.modXrq r.val fun q => { q with waits := left, busy := q.busy && !left.isEmpty })

/-! ### The end of a group's fault (R255) -/

/-- A refused XLT_SITE_CTRL write (R255, R264, R267). -/
def siteRegErr (r site : Nat) (s : State) : State := countRegErr r 8 0x100 (some (site / 24)) s

/-- The group is parked on a fault. -/
def groupParked (s : State) (site slot : Nat) : Bool := decide ((s.getGrp (gIx site slot)).mode = .parked)

/-- GRP_RESUME (R177, R255): the whole instruction runs again. -/
def groupResume (r site slot : Nat) (s : State) : State :=
  if !siteWritable s r site 5 then s
  else if !groupParked s site slot then siteRegErr r site s
  else s.modGrp (gIx site slot) fun g => { g with
    mode := .ready, exc := 0, excLane := 0xFF, excAddr := 0, faultRec := none, issued := none, retryFrom := none }

/-- GRP_KILL (R255, R276). -/
def groupKill (r site slot : Nat) (s : State) : State :=
  if !siteWritable s r site 5 then s
  else if !groupParked s site slot then siteRegErr r site s
  else
    let g := s.getGrp (gIx site slot)
    faultMessage g.task 1 7 (s.modGrp (gIx site slot) fun g => { g with mode := .halted, faultRec := none })

/-- GRP_RESUME. -/
def execGrpResume (r : Req) (site : Site) (slot : Slot) (s : State) : Host.Outcome State Fault Refusal :=
  ok (groupResume r.val site.val slot.val s)

/-- GRP_KILL. -/
def execGrpKill (r : Req) (site : Site) (slot : Slot) (s : State) : Host.Outcome State Fault Refusal :=
  ok (groupKill r.val site.val slot.val s)

/-! ### Saves (R263 to R266, R268) -/

/-- A save base lies in Loess scratch of the site's own tower (R264). -/
def siteSaveValid (s : State) (site : Nat) : Bool :=
  match scratchOf s (s.getSite site).saveBase.toNat with
  | some (j, _) => j / 24 == site / 24
  | none => false

/-- No group is resident on the site. -/
def noGroups (s : State) (site : Nat) : Bool := (List.range 24).all fun k => decide ((s.getGrp (gIx site k)).mode = .empty)

/-- An array or DMA post. -/
def isPost (w : Option W64) : Bool := w.any fun w => iOpc w == 0x70 || iOpc w == 0x71

/-- A held group stops before its instruction, which runs again on resume; a waiter of it is removed; a group at a
barrier keeps its arrival. An issued instruction that waits for earlier accesses completes first, a FENCE as any other; a post
runs again (R179, R319). -/
def stopHeld (site slot : Nat) (s : State) : State :=
  let i := gIx site slot
  let g := s.getGrp i
  let who : Agent := .group ⟨site % 96, Nat.mod_lt _ (by omega)⟩ ⟨slot % 24, Nat.mod_lt _ (by omega)⟩
  let again (s : State) : State := s.modGrp i fun g => { unhold g with issued := none }
  if g.mode ≠ .held then s
  else
    match g.hold with
    | .barrier _ => s
    | .fence _ _ => s
    | .release _ => if isPost g.issued then again s else s
    | .queue _ _ _ =>
      again (forN 4 (fun p s => s.modPart p fun x => { x with held_ := x.held_.filter fun h => !decide (h.who = who) }) s)
    | .wait o _ _ _ _ =>
      let drop (s : State) : State := match synStore s o.val with
        | some ix => dropWaiters ix (fun w => decide (w.who = who)) s
        | none => s
      let tids := (g.loads.filter (·.open_)).filterMap (·.tid)
      let t := site / 24
      let es := (Tbl.get [] s.net.tids t).filter fun e => !tids.contains e.1
      let cancel (s : State) : State := if tids.isEmpty then s
        else { s with net := { s.net with tids := Tbl.put [] s.net.tids t es } }
      again ((cancel (drop s)).modGrp i fun g => { g with loads := g.loads.filter fun l => !l.open_, remote := g.remote - tids.length })
    | _ => again s

/-- Stop both arrays with a cause. -/
def stopSiteArrays (site cause : Nat) (s : State) : State := forN 2 (fun a s => stopArray (2 * site + a) cause s) s

/-- Start the save of a site (Table 8.9 events 1 to 3); the state of the contexts `drop` and of the tasks `gone` is discarded
(R272, R276). -/
def startSave (site : Nat) (be : Bool) (drop : List (BitVec 6)) (gone : List TaskRef) (s : State) : State :=
  let s1 := s.modSite site fun x => { x with mode := 1, saveFrom := s.skt.time, saveBe := be, saveDrop := drop, dropTasks := gone }
  let s2 := stopSiteArrays site 1 s1
  let s3 := forN 4 (fun c s => dmaPreempt (4 * site + c) s) s2
  forN 24 (fun k s => stopHeld site k s) s3

/-- The site's save may start: running, save areas valid (R264, R268). -/
def saveAllowed (s : State) (site : Nat) : Bool :=
  (s.getSite site).mode == 0 && siteSaveValid s site && saveValid s (2 * site) && saveValid s (2 * site + 1)

/-- PREEMPT (R264, R268). -/
def sitePreempt (r site : Nat) (s : State) : State :=
  if !siteWritable s r site 5 then s
  else if !saveAllowed s site then siteRegErr r site s
  else startSave site false [] [] s

/-- PREEMPT. -/
def execPreempt (r : Req) (site : Site) (s : State) : Host.Outcome State Fault Refusal := ok (sitePreempt r.val site.val s)

/-- The group has stopped and nothing of it is outstanding (Table 8.9 event 4). -/
def groupQuiet (g : Group) : Bool :=
  decide (g.mode = .empty) ||
    (g.loads.isEmpty && g.stores == 0 && g.remote == 0 && (decide (g.mode ≠ .ready) || g.issued.isNone))

/-- The channel has stopped. -/
def dmaQuiet (x : Dma) : Bool := decide (x.mode ≠ .running)

/-- The group is of a context or of a task whose state the site's save discards (R272, R276). -/
def droppedGroup (s : State) (site : Nat) (g : Group) : Bool :=
  (s.getSite site).saveDrop.contains g.ctx || g.task.any (s.getSite site).dropTasks.contains

/-- Group slots of the site that its save keeps. -/
def keptSlots (s : State) (site : Nat) : List Nat :=
  (List.range 24).filter fun k =>
    let g := s.getGrp (gIx site k)
    decide (g.mode ≠ .empty) && !droppedGroup s site g

/-- Shared allocations of the site that its save keeps: not those of a task whose groups it discards. -/
def keptAllocs (s : State) (site : Nat) : List SlmAlloc :=
  (s.getSite site).allocs.filter fun a => !(List.range 24).any fun k =>
    let g := s.getGrp (gIx site k)
    decide (g.task = some a.task) && droppedGroup s site g

/-- Everything of the site has stopped. -/
def siteQuiet (s : State) (site : Nat) : Bool :=
  let dropped (g : Group) : Bool := droppedGroup s site g
  ((List.range 24).all fun k => groupQuiet (s.getGrp (gIx site k)) || dropped (s.getGrp (gIx site k)))
    && ((List.range 2).all fun a => decide ((s.getAry (2 * site + a)).mode = .parked))
    && ((List.range 4).all fun c => dmaQuiet (s.getDma (4 * site + c)))

/-- Tasks with work on the site, in slot order then FIFO order; their entries are those of Table 8.30. -/
def siteTasks (s : State) (site : Nat) : List TaskRef :=
  let gs := (keptSlots s site).filterMap fun k => (s.getGrp (gIx site k)).task
  let ds := (List.range 4).flatMap fun c => (s.getDma (4 * site + c)).fifo.filterMap (·.task)
  (gs ++ ds).eraseDups.take 24

/-- Index of a task in the list. -/
def taskIx (ts : List TaskRef) (t : Option TaskRef) : Nat := (t.bind fun t => ts.findIdx? (· = t)).getD 0

/-- TGE_GRP_STATE.STATE (Table 5.16). -/
def grpStateCode (g : Group) : Nat :=
  match g.mode with
  | .empty => 0
  | .ready => if g.slotted then 1 else 2
  | .held => 3
  | .parked => 4
  | .halted => 5

/-- Group record (Table 8.31). -/
def groupImage (ts : List TaskRef) (g : Group) : List Byte :=
  let bar := match g.hold with
    | .barrier b => if g.mode = .held then b + 1 else 0
    | _ => 0
  let st := g.stack.reverse.take 32
  leBytes 8 g.pc.toNat ++ leBytes 4 g.exec.toNat ++ leBytes 4 g.exited.toNat
    ++ [BitVec.ofNat 8 (grpStateCode g), g.exc, g.excLane, BitVec.ofNat 8 bar]
    ++ leBytes 2 g.regBase ++ [BitVec.ofNat 8 (g.regs % 32), BitVec.ofNat 8 (taskIx ts g.task)] ++ leBytes 2 g.number
    ++ [BitVec.ofNat 8 st.length] ++ List.replicate 5 0
    ++ (List.range 16).flatMap (fun p => leBytes 4 (getPred g p).toNat)
    ++ (List.range 32).flatMap (fun k => match st[k]? with
        | some e => leBytes 8 e.pc.toNat ++ leBytes 4 e.mask.toNat
        | none => List.replicate 12 0)
    ++ (match g.faultRec with | some r => lineBytes r | none => List.replicate 64 0)
    ++ leBytes 8 g.excAddr.toNat ++ List.replicate 472 0

/-- DMA channel record (Table 8.32). The layout has places for seven descriptors that wait: the eighth of a full FIFO with none in
hand is left out of the image (DESIGN CHOICE, log 81). -/
def dmaImage (ts : List TaskRef) (x : Dma) : List Byte :=
  let st := match x.mode with
    | .idle => 0
    | .running => 1
    | .parked => 2
    | .halted => 3
  let d := if x.taken then x.fifo.head? else none
  let rest := if x.taken then x.fifo.drop 1 else x.fifo
  [BitVec.ofNat 8 st, BitVec.ofNat 8 x.cause.toNat, BitVec.ofNat 8 (min 7 rest.length), x.code, x.faultCause,
    BitVec.ofNat 8 (taskIx ts (d.bind (·.task))), 0, 0]
    ++ leBytes 8 x.index.toNat ++ leBytes 8 x.faultAddr.toNat
    ++ (List.range 7).map (fun k => BitVec.ofNat 8 (taskIx ts ((rest[k]?).bind (·.task)))) ++ List.replicate 33 0
    ++ (match d with | some d => lineBytes d.words | none => List.replicate 64 0)
    ++ (List.range 7).flatMap (fun k => match rest[k]? with
        | some d => lineBytes d.words
        | none => List.replicate 64 0)
    ++ (match x.faultRec with
        | some r => if x.mode = .parked ∧ getBit x.cause 1 then lineBytes r else List.replicate 64 0
        | none => List.replicate 64 0)
    ++ List.replicate 128 0

/-- Barrier word of a task's barrier (R519). -/
def barWord (b : Barrier) : Nat := (b.arrived.eraseDups.foldl (fun n k => n + 2 ^ k) 0) + b.count % 32 * 2 ^ 24 + 2 ^ 31

/-- The pieces of the core save area (Tables 8.10, 8.29 to 8.32), allocated ranges only; nothing of a discarded context
(R272). -/
def coreImage (s : State) (site : Nat) : List (Nat × List Byte) :=
  let x := s.getSite site
  let ts := siteTasks s site
  let res := keptSlots s site
  let allocs := keptAllocs s site
  let alloc (t : TaskRef) : Nat × Nat := match allocs.find? fun a => decide (a.task = t) with
    | some a => (a.first, a.granules)
    | none => (0, 0)
  let entries := (List.range 24).flatMap fun k => match ts[k]? with
    | some t =>
      [BitVec.ofNat 8 (match Tbl.get none (s.getPart t.p.val).tasks t.e.val with | some q => q.ctx.val | none => 0)]
        ++ leBytes 3 (t.e.val + t.p.val * 256) ++ [BitVec.ofNat 8 (alloc t).1, BitVec.ofNat 8 (alloc t).2, 1, 0]
    | none => List.replicate 8 0
  let bars := (List.range 24).flatMap fun k => (List.range 16).flatMap fun b =>
    leBytes 4 (match ts[k]?.bind fun t => x.bars.find? fun y => decide (y.task = t ∧ y.bid = b) with
      | some y => barWord y
      | none => 0)
  let groups := (List.range 24).flatMap fun k =>
    let g := s.getGrp (gIx site k)
    if res.contains k then groupImage ts g else List.replicate 1024 0
  let regs := res.map fun k =>
    let g := s.getGrp (gIx site k)
    (0x8000 + 128 * g.regBase, (List.range (8 * g.regs)).flatMap fun v => (List.range 32).flatMap fun l => leBytes 4 (getReg g v l).toNat)
  let slm := allocs.map fun a => (0x38000 + 4096 * a.first, slmRead s site (4096 * a.first) (4096 * a.granules))
  let acc (a : Nat) : Nat × List Byte :=
    (0x78000 + 0x20000 * a, (List.range 32768).flatMap fun k => leBytes 4 (Tbl.get 0 (s.getAry (2 * site + a)).acc k).toNat)
  [(0, [1, 0] ++ leBytes 2 site ++ leBytes 4 (res.foldl (fun n k => n + 2 ^ k) 0) ++ leBytes 8 s.skt.time.toNat ++ List.replicate 48 0),
   (0x40, leBytes 8 (s.getAry (2 * site)).saveBase.toNat ++ leBytes 8 (s.getAry (2 * site + 1)).saveBase.toNat),
   (0x50, entries), (0x110, bars), (0x710, List.replicate 2288 0), (0x1000, groups),
   (0x7000, (List.range 4).flatMap fun c => dmaImage ts (s.getDma (4 * site + c))), (0x7C00, List.replicate 1024 0)]
    ++ regs ++ slm ++ [acc 0, acc 1]

/-- The site as the block resets of Table 14.5 leave it (R264). -/
def clearSite (site : Nat) (s : State) : State :=
  let s1 := forN 24 (fun k s => s.modGrp (gIx site k) fun _ => {}) s
  let s2 := forN 2 (fun a s => s.modAry (2 * site + a) fun x => freshArray x true) s1
  let s3 := forN 4 (fun c s => s.modDma (4 * site + c) fun _ => {}) s2
  s3.modSite site fun x => { x with slm := [], allocs := [], bars := [], rcMiss := 0, replay := 0, idle := 0, l1 := [], l1Parity := 0 }

/-- The saved core, without the work of a context whose state is discarded (R272). -/
def savedCore (s : State) (site : Nat) : Saved :=
  let x := s.getSite site
  let allocs := keptAllocs s site
  { site := site, base := x.saveBase, be := x.saveBe, time := s.skt.time
    groups := (keptSlots s site).map fun k => (k, { s.getGrp (gIx site k) with slotted := false })
    arrays := (List.range 2).map fun a => s.getAry (2 * site + a)
    dmas := (List.range 4).map fun c => s.getDma (4 * site + c)
    slm := x.slm, allocs := allocs
    bars := x.bars.filter fun b => !(List.range 24).any fun k =>
      let g := s.getGrp (gIx site k)
      decide (g.task = some b.task) && droppedGroup s site g }

/-- The save ends: the area is written, the site is cleared and reads SAVED (Table 8.9 events 5 and 6). What the area held
before no longer waits there. -/
def finishSave (site : Nat) (s : State) : State :=
  let x := s.getSite site
  let sv := savedCore s site
  let s1 := writeSave x.saveBase.toNat (coreImage s site) s
  let other (y : Saved) : Bool := !decide (y.base = x.saveBase)
  let s2 := s1.modPart (site / 24) fun p => { p with saved := p.saved.filter other ++ [sv], spent := p.spent ++ p.saved.filter fun y => !other y }
  (clearSite site s2).modSite site fun y => { y with
    mode := 2, saveTime := BitVec.ofNat 32 (now s - x.saveFrom.toNat), saveBe := false, saveDrop := [], dropTasks := [] }

/-! ### Restores (R267) -/

/-- The site is free of work. -/
def siteEmpty (s : State) (site : Nat) : Bool :=
  noGroups s site
    && ((List.range 2).all fun a => (s.getAry (2 * site + a)).fifo.isEmpty)
    && ((List.range 4).all fun c => decide ((s.getDma (4 * site + c)).mode = .idle) && (s.getDma (4 * site + c)).fifo.isEmpty)

/-- A restore to the site may start. -/
def restoreAllowed (s : State) (site : Nat) : Bool :=
  ((s.getSite site).mode == 0 || (s.getSite site).mode == 2) && siteEmpty s site
    && saveValid s (2 * site) && saveValid s (2 * site + 1)

/-- RESTORE (R267). -/
def siteRestore (r site : Nat) (s : State) : State :=
  if !siteWritable s r site 5 then s
  else if !restoreAllowed s site then siteRegErr r site s
  else s.modSite site fun x => { x with mode := 3 }

/-- RESTORE. -/
def execRestore (r : Req) (site : Site) (s : State) : Host.Outcome State Fault Refusal := ok (siteRestore r.val site.val s)

/-- A fault record with another site number (R267). -/
def renumber (site : Nat) (r : Line) : Line := bytesLine (setBytes (lineBytes r) 4 (leBytes 2 site))

/-- Tasks with work in a saved core. -/
def Saved.tasks (sv : Saved) : List TaskRef :=
  (sv.groups.filterMap (·.2.task) ++ (sv.arrays.flatMap fun x => x.fifo.filterMap (·.task))
    ++ sv.dmas.flatMap fun x => x.fifo.filterMap (·.task)).eraseDups

/-- A requester after the move of its core from one site to another. -/
def moveAgent (from_ to_ : Nat) (a : Agent) : Agent :=
  match a with
  | .group st sl => if st.val = from_ then .group ⟨to_ % 96, Nat.mod_lt _ (by omega)⟩ sl else a
  | .array a => if a.val / 2 = from_ then .array ⟨(2 * to_ + a.val % 2) % 192, Nat.mod_lt _ (by omega)⟩ else .array a
  | .dma c => if c.val / 4 = from_ then .dma ⟨(4 * to_ + c.val % 4) % 384, Nat.mod_lt _ (by omega)⟩ else .dma c
  | a => a

/-- A held record after the move of the saved core `sv` to site `to_`: one of its own moves with it (R267). -/
def moveRec (sv : Saved) (to_ : Nat) (e : Agent × Line × Option TaskRef) : Agent × Line × Option TaskRef :=
  let a := moveAgent sv.site to_ e.1
  if a ≠ e.1 ∧ e.2.2.any sv.tasks.contains then (a, renumber to_ e.2.1, e.2.2) else e

/-! #### The bytes of the area -/

/-- The nonzero bytes that stand in a save area from `off` on, by their offset from there. -/
def areaCells (s : State) (base : BitVec 40) (off len : Nat) : List Host.Cell :=
  match scratchOf s base.toNat with
  | none => []
  | some (j, x) =>
    let k := loessKey j (x + off)
    (s.loess.filter fun c => decide (k ≤ c.1 ∧ c.1 < k + len)).map fun c => (c.1 - k, c.2)

/-- The 32-bit words of such bytes, by number. -/
def cellWords (cs : List Host.Cell) : Tbl W32 :=
  cs.foldl (fun t c => Tbl.mod 0 t (c.1 / 4) fun w => w ||| BitVec.ofNat 32 (c.2.toNat * 2 ^ (8 * (c.1 % 4)))) []

/-- A group record's program counter, lanes, predicates and registers as the area holds them (Tables 8.10, 8.31). -/
def groupFrom (s : State) (base : BitVec 40) (slot : Nat) (g : Group) : Group :=
  let at_ (off len : Nat) : Tbl W32 := cellWords (areaCells s base (0x1000 + 1024 * slot + off) len)
  let head := at_ 0 16
  let word (k : Nat) : W32 := Tbl.get 0 head k
  { g with
    pc := BitVec.ofNat 48 ((word 0).toNat + (word 1).toNat * 2 ^ 32), exec := word 2, exited := word 3, pred := at_ 0x20 60
    reg := cellWords (areaCells s base (0x8000 + 128 * g.regBase) (1024 * g.regs)) }

/-- A saved core with the registers, the shared memory and the accumulators that the area at `base` holds now; the rest is as
it was saved (log 40). -/
def coreFrom (s : State) (base : BitVec 40) (sv : Saved) : Saved :=
  { sv with
    groups := sv.groups.map fun e => (e.1, groupFrom s base e.1 e.2)
    arrays := sv.arrays.zipIdx.map fun e => { e.1 with acc := cellWords (areaCells s base (0x78000 + 0x20000 * e.2) 0x20000) }
    slm := sv.allocs.foldl (fun m a => (areaCells s base (0x38000 + 4096 * a.first) (4096 * a.granules)).foldl
      (fun m c => Tbl.put 0 m (4096 * a.first + c.1) c.2) m) [] }

/-- Two records are of one save. -/
def sameCore (a b : Saved) : Bool := decide (a.site = b.site ∧ a.time = b.time)

/-- Put a saved core on a site. The target's arrays keep their save bases and seed registers, and a seed written to one of them
that no pass has taken yet (R136, R267). Its area still holds the core (R266). -/
def placeSaved (site : Nat) (sv : Saved) (s : State) : State :=
  let s1 := sv.groups.foldl (fun s e => s.modGrp (gIx site e.1) fun _ =>
    { e.2 with faultRec := e.2.faultRec.map (renumber site) }) s
  let s2 := sv.arrays.zipIdx.foldl (fun s e =>
    resumeArray (2 * site + e.2) 1 (s.modAry (2 * site + e.2) fun x =>
      { e.1 with saveBase := x.saveBase, seedLo := x.seedLo, seedHi := x.seedHi, seedNew := x.seedNew.or e.1.seedNew })) s1
  let s3 := sv.dmas.zipIdx.foldl (fun s e => s.modDma (4 * site + e.2) fun _ =>
    dmaUnpreempt { e.1 with faultRec := e.1.faultRec.map (renumber site) }) s2
  let s4 := s3.modSite site fun x => { x with slm := sv.slm, allocs := sv.allocs, bars := sv.bars }
  let other (y : Saved) : Bool := !sameCore y sv
  s4.modPart (site / 24) fun p => { p with
    heldRecs := p.heldRecs.map (moveRec sv site)
    saved := p.saved.filter other, spent := p.spent.filter other ++ [sv] }

/-- The core that the area at `base` holds, in tower `t`: the save that its header names, with the contents that stand there
(Table 8.29, R267). -/
def areaCore (s : State) (t : Nat) (base : BitVec 40) : Option Saved :=
  let head := cellWords (areaCells s base 0 16)
  let word (k : Nat) : Nat := (Tbl.get 0 head k).toNat
  let of_ (y : Saved) : Bool := decide (y.site = word 0 / 65536 ∧ y.time.toNat = word 2 + word 3 * 2 ^ 32)
  if word 0 % 65536 ≠ 1 then none
  else (((s.getPart t).spent ++ (s.getPart t).saved).reverse.find? of_).map (coreFrom s base)

/-- CORE_RESTORE_DONE (R267): the core of the area named by the site's save base becomes resident. -/
def execCoreRestoreDone (site : Site) (s : State) : Host.Outcome State Fault Refusal :=
  let x := s.getSite site.val
  if x.mode ≠ 3 then ok s
  else
    let s1 := s.modSite site.val fun y => { y with mode := 0 }
    match areaCore s (site.val / 24) x.saveBase with
    | none => ok s1
    | some sv => ok (placeSaved site.val sv s1)

end Sys2Proof.Machine
end

