-- ==== Sys2Proof/Machine/Tasks.lean ====
section
/-! DEFINITION. Tasks: the notice order, the declaration and its checks, admission, windows, placement of groups,
completions and their replies, demotion, and the end of a task for a fault or its deadline (R42 to R46, R138,
R276, R288 to R297, R301, R302, R314, R315). -/

namespace Sys2Proof.Machine
open Sys2Proof

/-! ### Sites and windows (R290, R291) -/

/-- The partition's controller runs. -/
def pcRuns (s : State) (p : Nat) : Bool := (s.getPart p).started && !(s.getPart p).held && !inReset s p

/-- Sites of the tower that admit real-time work: enabled ones and activated spares (R290). -/
def rtSites (s : State) (p : Nat) : List Nat := (towerSites p).filter fun j => siteStatus s j == 0 || siteStatus s j == 2

/-- max_rt (R290). -/
def maxRt (s : State) (p : Nat) : Nat := (rtSites s p).length * 85 / 100

/-- Setup allowance of a window, ns (R291). -/
def setupNs : Nat := 20000

/-- The admitted tasks of a partition. -/
def partTasks (s : State) (p : Nat) : List (Nat × Task) :=
  (s.getPart p).tasks.filterMap fun e => e.2.map fun t => (e.1, t)

/-- The task has a window in force. -/
def hasWindow (t : Task) : Bool := t.rt && !t.demoted

/-- Real-time windows recorded in a partition. -/
def windows (s : State) (p : Nat) : List (Nat × Task) := (partTasks s p).filter fun e => hasWindow e.2

/-- The window of `t` holds site `j` at time `at_` (R291: from its setup to its end). -/
def holdsSite (t : Task) (j at_ : Nat) : Bool :=
  t.chosen.contains j && decide (t.winS ≤ at_ + setupNs ∧ at_ < t.winE)

/-- A site in a real-time window now. -/
def inWindow (s : State) (j : Nat) : Bool := (windows s (j / 24)).any fun e => holdsSite e.2 j (now s)

/-- Sites that run best-effort work: in service and outside windows (R290). -/
def beSites (s : State) (p : Nat) : List Nat := (towerSites p).filter fun j => siteInService s j && !inWindow s j

/-! ### The declaration (R288, R314) -/

/-- A parsed task message. -/
structure Decl where
  task : Task
  ack : Bool
  bad : Bool
deriving DecidableEq, Repr

/-- The class entry of class `c` in partition `p` (R281). -/
def classEnt (s : State) (p c : Nat) : ClassEntry := Tbl.get {} s.svc.classes (16 * p + c)

/-- The fields of `n` that fill the words of a declared demand. -/
def demands (w : W64) (width n : Nat) : List Nat :=
  (List.range n).map fun i => bits w.toNat (width * i + width - 1) (width * i)

/-- Parse a task message of partition `p`, words with their poison tags, and check its declaration (R288, R314, R312). -/
def parseTask (s : State) (p : Nat) (ws : List (Line × Bool)) : Decl :=
  let a : Line := match ws.head? with | some w => w.1 | none => []
  let b : Line := match ws[1]? with | some w => w.1 | none => []
  let f (i hi lo : Nat) : Nat := lf a i hi lo
  let c := f 0 11 8
  let rt := (classEnt s p c).realtime
  let regs := if f 0 33 29 = 0 then 32 else f 0 33 29
  let args := (ws.drop 2).map (·.1)
  let port := demands (lw a 5) 8 6
  let entry := lf b 0 47 0
  let threads := lf b 1 31 0
  let t : Task :=
    { ctx := ⟨f 0 5 0 % 64, Nat.mod_lt _ (by omega)⟩, cls := ⟨c % 16, Nat.mod_lt _ (by omega)⟩
      sites := f 0 20 16, groups := f 0 28 24, regs := regs, slm := f 0 40 34, deadline := (lw a 1).toNat
      steps := f 2 47 0, marl := demands (lw a 3) 16 4, seam := demands (lw a 4) 16 4, port := port
      entry := BitVec.ofNat 48 entry, threads := threads, complMsg := bit (lw b 1).toNat 32
      complSync := bit (lw b 1).toNat 33, reply := BitVec.ofNat 56 (lw b 2).toNat
      syncAddr := BitVec.ofNat 56 (lw b 3).toNat, tag := lw b 4, args := args, rt := rt, demoted := false
      winS := 0, winE := 0, chosen := [], placed := 0, ended := 0, ending := none, late := false, sync := .due }
  let badAdm := bit (lw a 0).toNat 7 || f 0 15 12 != 0 || f 0 23 21 != 0 || f 0 63 41 != 0 || f 2 63 48 != 0
    || f 5 63 48 != 0 || lw a 6 != 0 || lw a 7 != 0
    || t.sites == 0 || decide (20 < t.sites) || t.groups == 0 || decide (24 < t.groups) || decide (64 < t.slm)
    || (rt && t.deadline == 0) || (!rt && t.deadline != 0) || (!rt && t.steps != 0)
    || decide (1536 < t.groups * (8 * regs))
    || (List.range 6).any (fun k => port.getD k 0 != 0 && !portPresent s k)
  let badLaunch := lf b 0 63 48 != 0 || lf b 1 63 34 != 0 || lf b 2 63 56 != 0 || lf b 3 63 56 != 0
    || lw b 5 != 0 || lw b 6 != 0 || lw b 7 != 0 || entry % 8 != 0
    || threads == 0 || decide (t.sites * t.groups * 32 < threads) || decide (t.slm * 4096 < 64 * args.length)
  { task := t, ack := bit (lw a 0).toNat 6
    bad := badAdm || badLaunch || decide (ws.length < 2 ∨ 64 < ws.length) || ws.any (·.2) }

/-! ### Admission (R42, R44, R290 to R293, R296) -/

/-- Duration at floor, ns: STEPS ÷ 1.2, rounded up (R291). -/
def floorDur (t : Task) : Nat := (5 * t.steps + 5) / 6

/-- Slots held by class `c` (R292). -/
def slotsHeld (s : State) (p c : Nat) : Nat := ((partTasks s p).filter fun e => e.2.cls.val == c).length

/-- The class may take a queue slot (R292). -/
def slotFree (s : State) (p c : Nat) : Bool :=
  let m (x : Nat) : Nat := if (classEnt s p x).enabled then (classEnt s p x).slotsMin else 0
  let free := 256 - (partTasks s p).length
  let need := ((List.range 16).map fun x => if x = c then 0 else m x - slotsHeld s p x).sum
  decide (0 < free) && (decide (slotsHeld s p c < m c) || decide (need < free))

/-- The largest number of sites reserved at any instant of [b, e) (R291). -/
def peakSites (ts : List Task) (b e : Nat) : Nat :=
  let pts := b :: (ts.map (·.winS)).filter fun x => decide (b < x ∧ x < e)
  let at_ (y : Nat) : Nat := ((ts.filter fun t => decide (t.winS ≤ y ∧ y < t.winE)).map (·.sites)).sum
  (pts.map at_).foldl max 0

/-- PORT_MIN of a port in 0.05 GB/s, halved while the port runs at 4 lanes (R296). -/
def portMinNow (s : State) (c : ClassEntry) (k : Nat) : Nat :=
  let m := c.portMin.getD k 0
  if (s.getPort k).width = 4 then m else 2 * m

/-- The first failing check of a window [b, e), as its refusal code; 0 when all pass (R291). -/
def windowCheck (s : State) (p : Nat) (t : Task) (b e : Nat) : Nat :=
  let ts := ((windows s p).map (·.2)).filter fun x => decide (x.winS < e ∧ b < x.winE)
  let same := ts.filter fun x => decide (x.cls = t.cls)
  let ent := classEnt s p t.cls.val
  let sum (f : Task → List Nat) (k : Nat) : Nat := (same.map fun x => (f x).getD k 0).sum + (f t).getD k 0
  if maxRt s p < peakSites ts b e + t.sites then 8
  else if (List.range 4).any (fun k => decide (ent.marlMin.getD k 0 < sum (·.marl) k)) then 9
  else if (List.range 4).any (fun k => decide (ent.seamMin.getD k 0 < sum (·.seam) k)) then 10
  else if (List.range 6).any (fun k => decide (portMinNow s ent k < 20 * sum (·.port) k)) then 11
  else 0

/-- The window search of R291: the window found, or the refusal code. Each round starts at a later recorded
end, so as many rounds as windows are enough. -/
def windowSearch (s : State) (p : Nat) (t : Task) : Nat → Nat → Nat → Except Nat (Nat × Nat)
  | 0, _, code => .error code
  | n + 1, b, code =>
    let e := b + floorDur t
    if t.deadline < e then .error code
    else
      let c := windowCheck s p t b e
      if c = 0 then .ok (b, e)
      else
        match ((windows s p).map (·.2.winE)).filter fun x => decide (b < x) with
        | [] => .error c
        | x :: r => windowSearch s p t n (r.foldl min x) c

/-- A running abort covers the partition or the context (Table 9.4). -/
def abortCovers (s : State) (p c : Nat) : Bool := s.aborts.any fun a => match a.kind with
  | .device => true
  | .partition q => q.val == p
  | .context k => k.val == c

/-- What admission decides: a refusal code of Table 9.4, or the window (best-effort: none). -/
def decideTask (s : State) (p : Nat) (d : Decl) : Except Nat (Option (Nat × Nat)) :=
  let t := d.task
  let c := t.cls.val
  let search := if t.rt then windowSearch s p t ((windows s p).length + 1) (now s + setupNs) 7 else .ok (0, 0)
  let causes : List (Nat × Bool) :=
    [ (1, t.rt && decide (t.deadline < now s + floorDur t)),
      (2, s.svc.cfgFault),
      (3, !(s.getCtx t.ctx.val).valid),
      (4, abortCovers s p t.ctx.val),
      (5, !(classEnt s p c).enabled),
      (6, d.bad || (t.rt && decide (now s + 500000000000 < t.deadline))),
      (match search with | .error k => (k, true) | .ok _ => (7, false)),
      (12, !slotFree s p c),
      (13, !t.rt && (s.getPart p).stage != 0),
      (14, t.rt && (s.getPart p).floorFault),
      (15, s.thm.stopping || s.thm.halted) ]
  match causes.find? (·.2) with
  | some (k, _) => .error k
  | none => match search with
    | .ok w => .ok (if t.rt then some w else none)
    | .error k => .error k

/-! ### Replies (R43, R315) -/

/-- The reply word of Table 10.3. -/
def replyWord (s : State) (p kind status reason exc : Nat) (t : Task) : Line :=
  mkLine [BitVec.ofNat 64 (kind + status * 2 ^ 8 + reason * 2 ^ 16 + exc * 2 ^ 24 + t.ctx.val * 2 ^ 32 + t.cls.val * 2 ^ 40
    + p * 2 ^ 48), s.skt.time, t.tag, BitVec.ofNat 64 s.net.id.toNat]

/-- Local queue of a reply address (R38, R315): the device's own id and a queue window. -/
def localQueue (s : State) (a : Nat) : Option Nat :=
  let x := a % 2 ^ 40
  if a / 2 ^ 40 = s.net.id.toNat ∧ 0x70_0000_0000 ≤ x ∧ x < 0x70_0000_0000 + 0x1000 * 512 then some ((x - 0x70_0000_0000) / 0x1000)
  else none

/-- Controller `p` as an agent. -/
def pcAgent (p : Nat) : Agent := .pc ⟨p % 4, Nat.mod_lt _ (by omega)⟩

/-- Post a one-word packet to a reply queue: the state after it and whether the word is held, as a queue without room
holds it (R307); a word that cannot be delivered is counted lost (R315). `t` is the task the word is sent for (R279), `task`
the admitted task that it accepts or completes. -/
def postWord (p : Nat) (t : Task) (w : Line) (task : Option TaskRef) (s0 : State) : State × Bool :=
  let dest := t.reply
  let s := send (.reply dest w) s0
  let who := pcAgent p
  let put (q : Nat) (d : Option (BitVec 56)) : State × Bool :=
    if (s.getPart (asmPart s who q d)).held_.any fun h => decide (h.who = who ∧ h.q = q ∧ h.dest = d) then
      (holdWord who q w false true d s task (some (taskLabel t)), true)
    else match putNew who q w false true d s (some (taskLabel t)) with
      | .stored s1 => (s1, false)
      | .overlong s1 => (lostReply p s1, false)
      | .bus s1 => (lostReply p s1, false)
      | _ => (holdWord who q w false true d s task (some (taskLabel t)), true)
  match localQueue s dest.toNat with
  | some q => put q none
  | none =>
    if dest.toNat / 2 ^ 40 = s.net.id.toNat then (lostReply p s, false)
    else put 0 (some dest)

/-- Post a reply to the message of task `t` that is no completion: an acceptance or a refusal (R43, R315). While it is held the
message stands in the table as not answered. -/
def postReply (p : Nat) (t : Task) (w : Line) (r : Option TaskRef) (s : State) : State :=
  let (s1, held) := postWord p t w r s
  if held then s1.modPart p fun x => { x with asked := x.asked ++ [{ task := t, word := w, ref := r }] } else s1

/-! ### The notice (R45, R294) -/

/-- The words of the head packet of queue `q` as they are read, with their poison tags. -/
def headPacket (s : State) (q : Nat) : List (Line × Bool) :=
  ((s.getQue q).words.take (headLeft (s.getQue q))).map fun w => (wordRead (s.getQue q) w s).2

/-- Queues whose packets the controller admits: not the fault queue nor the collective queue that the image names (R40). -/
def admits (s : State) (p q : Nat) : Bool :=
  !(s.bru.faultQ[p]?).any (·.toNat % 512 == q) && !(s.bru.collQ[p]?).any (·.toNat % 512 == q) && !(s.getQue q).words.isEmpty

/-- Whether real-time candidate `x` comes before `y`, apart from the token. -/
def rtBefore (x y : Task) : Bool := decide (x.deadline < y.deadline) || (x.deadline == y.deadline && decide (x.cls.val < y.cls.val))

/-- The queue whose head packet is taken next (R45), and the token after it. -/
def nextNotice (s : State) (p : Nat) : Option (Nat × Nat) :=
  let x := s.getPart p
  let qs := (x.notices.filter (admits s p)).eraseDups
  let rts := (qs.map fun q => (q, (parseTask s p (headPacket s q)).task)).filter fun e => e.2.rt
  let best := rts.filter fun e => !rts.any fun f => rtBefore f.2 e.2
  match best.map (·.1) with
  | [] => match qs.filter fun q => !(parseTask s p (headPacket s q)).task.rt with
    | [] => none
    | q :: _ => some (q, x.noticeTok)
  | [q] => some (q, x.noticeTok)
  | l =>
    let w := tokenFirst 512 x.noticeTok l
    some (w, tokenFirst 512 (w + 1) (l.filter (· ≠ w)))

/-- Take the whole head packet of a queue. -/
def takePacket (q : Nat) (s : State) : State := forN (headLeft (s.getQue q)) (fun _ s => (takeWord q s).1) s

/-- Lowest free entry of the admitted-task table. -/
def freeEntry (s : State) (p : Nat) : Nat :=
  (((List.range 256).find? fun e => (Tbl.get none (s.getPart p).tasks e).isNone)).getD 0

/-- TASK_NOTICE_TAKE (R43 to R45, R288 to R294, R314): the next message is taken, checked and answered. -/
def execTaskNoticeTake (p : Tower) (s : State) : Host.Outcome State Fault Refusal :=
  if !pcRuns s p.val then ok s
  else
    match nextNotice s p.val with
    | none => ok s
    | some (q, tok) =>
      let d := parseTask s p.val (headPacket s q)
      let s1 := (takePacket q s).modPart p.val fun x => { x with notices := dropFirst (fun a => a == q) x.notices, noticeTok := tok }
      let c := d.task.cls.val
      match decideTask s1 p.val d with
      | .error code =>
        let s2 := s1.modPart p.val fun x => { x with refused := Tbl.mod 0 x.refused c (· + 1) }
        ok (postReply p.val d.task (replyWord s2 p.val 2 0 code 0 d.task) none s2)
      | .ok w =>
        let t := match w with | some (b, e) => { d.task with winS := b, winE := e } | none => d.task
        let s2 := s1.modPart p.val fun x => { x with
          tasks := Tbl.put none x.tasks (freeEntry s1 p.val) (some t), admitted := Tbl.mod 0 x.admitted c (· + 1) }
        let r : TaskRef := { p := p, e := Fin.ofNat 256 (freeEntry s1 p.val) }
        ok (if d.ack then postReply p.val t (replyWord s2 p.val 1 0 0 0 t) (some r) s2 else s2)

/-! ### Windows and placement (R138, R291, R293, R314) -/

/-- The task of an entry. -/
def getTask (s : State) (p e : Nat) : Option Task := Tbl.get none (s.getPart p).tasks e

/-- Change the task of an entry. -/
def modTask (p e : Nat) (f : Task → Task) (s : State) : State :=
  s.modPart p fun x => { x with tasks := Tbl.mod none x.tasks e (Option.map f) }

/-- Sort by a key, least first, keeping the order of equals. -/
def sortBy {α : Type} (key : α → Nat) : List α → List α
  | [] => []
  | x :: l =>
    let r := sortBy key l
    r.takeWhile (fun y => decide (key y < key x)) ++ x :: r.dropWhile fun y => decide (key y < key x)

/-- The sites of a window, chosen at its setup (R291). -/
def chooseSites (s : State) (p e : Nat) (t : Task) : List Nat :=
  let others := ((windows s p).filter fun x => x.1 != e).map (·.2)
  let pool := (rtSites s p).filter fun j => !others.any fun x => holdsSite x j t.winS
  let endOf (j : Nat) : Option Nat :=
    (others.filter fun x => x.chosen.contains j && decide (t.winS < x.winE + setupNs ∧ x.winE ≤ t.winS)).map (·.winE)
      |>.foldl (fun a v => some (max v (a.getD 0))) none
  let first := pool.filter fun j => (endOf j).isNone
  let second := pool.filter fun j => (endOf j).isSome
  (sortBy (fun j => if noGroups s j then 0 else 1) first ++ sortBy (fun j => (endOf j).getD 0) second).take t.sites

/-- Groups, array passes or DMA descriptors of another task than `r` stand on the site. -/
def othersOn (s : State) (j : Nat) (r : TaskRef) : Bool :=
  ((List.range 24).any fun k =>
    let g := s.getGrp (gIx j k)
    decide (g.mode ≠ .empty) && decide (g.task ≠ some r)) ||
  ((List.range 2).any fun a => (s.getAry (2 * j + a)).fifo.any fun d => decide (d.task ≠ some r)) ||
  (List.range 4).any fun c => (s.getDma (4 * j + c)).fifo.any fun d => decide (d.task ≠ some r)

/-- Pre-empt the best-effort groups of a site for a window (R291). -/
def preemptFor (p j : Nat) (s : State) : State :=
  if saveAllowed s j then startSave j true [] [] s else siteRegErr (2 + p) j s

/-- WINDOW_SETUP (R291): the sites are chosen at s − 20 µs and their best-effort groups are pre-empted, with what their arrays and
channels still run. A site that a demoted task still held when its window ended is pre-empted when this command comes again; time lost so, and sites
that are no longer there, are capacity lost (R296). -/
def execWindowSetup (p : Tower) (e : TaskIx) (s : State) : Host.Outcome State Fault Refusal :=
  match getTask s p.val e.val with
  | none => ok s
  | some t =>
    let r : TaskRef := { p := p, e := e }
    if !pcRuns s p.val || !hasWindow t || t.ending.isSome || decide (now s + setupNs < t.winS ∨ t.winE ≤ now s) then ok s
    else
      let fresh := t.chosen.isEmpty
      let js := if fresh then chooseSites s p.val e.val t else t.chosen
      let s1 := modTask p.val e.val (fun t => { t with chosen := js }) s
      let others := ((windows s p.val).filter fun x => x.1 != e.val).map (·.2)
      let due := js.filter fun j => othersOn s1 j r && (s1.getSite j).mode == 0 && !others.any fun x => holdsSite x j (now s)
      let short := fresh && decide (js.length < t.sites)
      let s2 := if (fresh || due.isEmpty) && !short then s1 else modTask p.val e.val (fun t => { t with late := true }) s1
      ok (forL due (preemptFor p.val) s2)

/-- Lowest base of `n` free units among those of the occupied ranges, below `cap`. -/
def firstFit (used : List (Nat × Nat)) (n cap : Nat) : Option Nat :=
  let starts := (0 :: used.map fun u => u.1 + u.2)
  let fits := starts.filter fun b => decide (b + n ≤ cap) && !used.any fun u => decide (u.1 < b + n ∧ b < u.1 + u.2)
  match fits with
  | [] => none
  | x :: r => some (r.foldl min x)

/-- Free slot, register base and shared base for a group of task `t` on site `j` (Table 5.1, R147); the Bool says
that the shared allocation is new. -/
def siteRoom (s : State) (j : Nat) (r : TaskRef) (t : Task) : Option (Nat × Nat × Nat × Bool) :=
  if !((s.getSite j).mode == 0 || (s.getSite j).mode == 2) then none
  else
    let gs := (List.range 24).filter fun k => decide ((s.getGrp (gIx j k)).mode ≠ .empty)
    let slot := (List.range 24).find? fun k => !gs.contains k
    let regs := firstFit (gs.map fun k => ((s.getGrp (gIx j k)).regBase, 8 * (s.getGrp (gIx j k)).regs)) (8 * t.regs) 1536
    let allocs := (s.getSite j).allocs
    let slm := match allocs.find? fun a => decide (a.task = r) with
      | some a => some (a.first, false)
      | none => (firstFit (allocs.map fun a => (a.first, a.granules)) t.slm 64).map fun b => (b, true)
    match slot, regs, slm with
    | some k, some b, some (f, fresh) => some (k, b, f, fresh)
    | _, _, _ => none

/-- Lanes of group `n` that start exited (R140). -/
def startExited (t : Task) (n : Nat) : W32 :=
  let live := min 32 (t.threads - 32 * n)
  BitVec.allOnes 32 <<< live

/-- Put group `n` of a task on a site (R138, R139, R314). -/
def placeOn (r : TaskRef) (t : Task) (n j : Nat) (room : Nat × Nat × Nat × Bool) (s : State) : State :=
  let (slot, base, first, fresh) := room
  let s1 := if fresh then
      slmWrite j (4096 * first) (t.args.flatMap lineBytes)
        (s.modSite j fun x => { x with allocs := x.allocs ++ [{ task := r, first := first, granules := t.slm }] })
    else s
  let ex := startExited t n
  let g : Group := { mode := .ready, task := some r, ctx := BitVec.ofNat 6 t.ctx.val, cls := BitVec.ofNat 4 t.cls.val, number := n
                     regs := t.regs, regBase := base, pc := t.entry, exec := ~~~ex, exited := ex }
  (s1.modGrp (gIx j slot) fun _ => g).modSite j fun x => { x with mode := 0 }

/-- Sites that the next group of a task may go to, in the order of preference. -/
def placeSites (s : State) (r : TaskRef) (t : Task) : List Nat :=
  if hasWindow t then
    match t.chosen[t.placed / t.groups]? with
    | some j =>
      -- inside another task's window the site runs only that task (R290)
      let other := (windows s r.p.val).any fun x => x.1 != r.e.val && x.2.chosen.contains j && decide (x.2.winS ≤ now s ∧ now s < x.2.winE)
      if othersOn s j r || other then [] else [j]
    | none => []
  else beSites s r.p.val

/-- Arrays inside a real-time window run at every ladder stage (R299): a throttle stop left on its site is resumed. -/
def unthrottle (j : Nat) (s : State) : State :=
  forN 2 (fun a s => if getBit (s.getAry (2 * j + a)).cause 1 then clearCause (2 * j + a) 2 s else s) s

/-- GROUP_PLACE (R138, R293, R299, R314): the task's next group goes to the first site with room. A group with no thread
of the task has ended at once (R140). -/
def execGroupPlace (p : Tower) (e : TaskIx) (s : State) : Host.Outcome State Fault Refusal :=
  match getTask s p.val e.val with
  | none => ok s
  | some t =>
    let r : TaskRef := { p := p, e := e }
    let n := t.placed
    if !pcRuns s p.val || t.ending.isSome || decide (t.sites * t.groups ≤ n) then ok s
    else if t.threads ≤ 32 * n then
      ok (modTask p.val e.val (fun t => { t with placed := n + 1, ended := t.ended + 1 }) s)
    else
      let try_ (j : Nat) : Option (Nat × Nat × Nat × Nat × Bool) := (siteRoom s j r t).map fun x => (j, x)
      match (placeSites s r t).findSome? try_ with
      | none => ok s
      | some (j, room) =>
        let s1 := modTask p.val e.val (fun t => { t with placed := n + 1 }) (placeOn r t n j room s)
        ok (if hasWindow t then unthrottle j s1 else s1)

/-! ### Stopping a task's work (R273, R276) -/

/-- A task of the set. -/
def ofSet (q : TaskRef → Bool) (t : Option TaskRef) : Bool := match t with | some r => q r | none => false

/-- Stop a group without save: it ends once its issued accesses are answered (R271). -/
def stopGroup (j k : Nat) (s : State) : State :=
  let s1 := (stopHeld j k s).modGrp (gIx j k) fun g => { g with
    mode := .halted, hold := .none, issued := none, loads := g.loads.filter fun l => !l.open_, faultRec := none, ends := true }
  let g := s1.getGrp (gIx j k)
  if g.stores = 0 ∧ g.remote = 0 ∧ g.loads = [] then endGroup j k s1 else s1

/-- The agent works for a task of the set. -/
def agentOf (s : State) (q : TaskRef → Bool) (a : Agent) : Bool :=
  match a with
  | .group j k => ofSet q (s.getGrp (gIx j.val k.val)).task
  | .array x => ofSet q ((s.getAry x.val).fifo.head?.bind (·.task))
  | .dma c => ofSet q ((s.getDma c.val).fifo.head?.bind (·.task))
  | _ => false

/-- Continue an array halted by a task of the set, for the entries of other tasks; one that is to halt as it leaves PARKED goes on
then (R276). -/
def clrHaltBy (q : TaskRef → Bool) (x : Array) : Array :=
  if !ofSet q x.haltBy then x
  else if x.mode = .halted then { x with mode := if x.fifo.isEmpty then .idle else .running, haltBy := none }
  else if x.haltNext then { x with haltNext := false, haltBy := none }
  else x

/-- The same for a channel; `saves` says that its site saves, or that it stands in a saved core. -/
def clrHaltDma (q : TaskRef → Bool) (saves : Bool) (x : Dma) : Dma :=
  if x.mode = .halted ∧ ofSet q x.haltBy then { dmaUnhalt saves x with haltBy := none } else x

/-- A saved core without the work of the set: its groups with their allocations, its passes and descriptors (R273). -/
def stripSaved (q : TaskRef → Bool) (sv : Saved) : Saved × List TaskRef :=
  let gone := (sv.groups.filter fun e => ofSet q e.2.task).filterMap (·.2.task)
  ({ sv with
      groups := sv.groups.filter fun e => !ofSet q e.2.task
      arrays := sv.arrays.map fun x => clrHaltBy q (abortedArray (ofSet q) x)
      dmas := sv.dmas.map fun x => clrHaltDma q true (abortedChan (ofSet q) x)
      allocs := sv.allocs.filter fun a => !q a.task
      bars := sv.bars.filter fun b => !q b.task }, gone)

/-- End the saved work of the set; each saved group counts as ended. -/
def stopSaved (p : Nat) (q : TaskRef → Bool) (s : State) : State :=
  let l := (s.getPart p).saved.map (stripSaved q)
  let s1 := s.modPart p fun x => { x with saved := l.map (·.1), spent := x.spent.map fun sv => (stripSaved q sv).1 }
  forL (l.flatMap (·.2)) (fun r s => modTask r.p.val r.e.val (fun t => { t with ended := t.ended + 1 }) s) s1

/-- Stop every piece of work of the tasks of the set in tower `p` (Table 8.12 event 3, restricted to them). -/
def stopWork (p : Nat) (q : TaskRef → Bool) (s : State) : State :=
  let s1 := discardOpen (agentOf s q) s
  let s2 := s1.modPart p fun x => { x with heldRecs := x.heldRecs.filter fun e => !ofSet q e.2.2 }
  let s3 := forL (towerSites p) (fun j s => forN 24 (fun k s =>
    if ofSet q (s.getGrp (gIx j k)).task then stopGroup j k s else s) s) s2
  let s4 := forN 48 (fun a s => (abortArray (48 * p + a) (ofSet q) s).modAry (48 * p + a) (clrHaltBy q)) s3
  let s5 := forN 96 (fun c s => (abortDma (96 * p + c) (ofSet q) s).modDma (96 * p + c) (clrHaltDma q (siteSaves s (96 * p + c)))) s4
  stopSaved p q s5

/-- End a task for a reason of Table 9.6: its work stops; the completion follows (R276, R302). -/
def endTask (r : TaskRef) (status reason exc : Nat) (s : State) : State :=
  stopWork r.p.val (fun x => decide (x = r))
    (modTask r.p.val r.e.val (fun t => if t.ending.isSome then t else { t with ending := some (status, reason, exc), endFrom := s.skt.time })
      (s.modPart r.p.val fun x => { x with faultMsgs := x.faultMsgs.filter fun m => !decide (m.task = r) }))

/-! ### Completion (R46, R301, R302, R315) -/

/-- Groups of a task that stand on a site or in a save area. -/
def taskGroups (s : State) (r : TaskRef) : Bool :=
  (s.groups.any fun e => decide (e.2.task = some r)) ||
    (s.getPart r.p.val).saved.any fun sv => sv.groups.any fun e => decide (e.2.task = some r)

/-- Array passes and DMA descriptors of a task that have not ended, with the requests that ended ones still wait for
(R271). -/
def taskUnits (s : State) (r : TaskRef) : Bool :=
  deadRequest s r || (s.arys.any fun e => e.2.fifo.any fun d => decide (d.task = some r)) ||
    (s.dmas.any fun e => e.2.fifo.any fun d => decide (d.task = some r)) ||
    (s.getPart r.p.val).saved.any fun sv =>
      (sv.arrays.any fun x => x.fifo.any fun d => decide (d.task = some r)) ||
        sv.dmas.any fun x => x.fifo.any fun d => decide (d.task = some r)

/-- The fault that the task's fault messages end it with: status, reason and code; of several the first row of Table 9.6, and
of that row the oldest (R276, R302). -/
def pendingFault (s : State) (r : TaskRef) : Option (Nat × Nat × Nat) :=
  let ms := (s.getPart r.p.val).faultMsgs.filter fun m => decide (m.task = r)
  (ms.find? fun m => ms.all fun n => decide (m.reason ≤ n.reason)).map fun m => (1, m.reason, if m.reason = 3 then 0 else m.exc)

/-- How a reset ends a task that nothing else has ended: an exception already reported goes before COLLATERAL_RESET (R302,
Table 9.6). -/
def collateral (s : State) (r : TaskRef) : Nat × Nat × Nat :=
  match pendingFault s r with
  | some (1, 1, exc) => (1, 1, exc)
  | _ => (1, 2, 0)

/-- Every group, array pass and DMA descriptor of the task has ended (R46), and no fault message will end it with
"fault" (R276). -/
def workDone (s : State) (r : TaskRef) (t : Task) : Bool :=
  decide (t.ended = t.sites * t.groups) && !taskUnits s r && (pendingFault s r).isNone

/-- The lowered figures no longer hold the demands accepted for the task's window (R296): sites or a port's minimum. -/
def capacityLost (s : State) (p : Nat) (t : Task) : Bool :=
  let none_ : Task := { t with sites := 0, marl := [], seam := [], port := [] }
  let c := windowCheck s p none_ t.winS t.winE
  hasWindow t && (c == 8 || c == 11)

/-- Reason of a task that its deadline ends (R295 to R297). -/
def voidReason (s : State) (p : Nat) (t : Task) : Nat :=
  if (s.getPart p).floorFault then 0x11 else if t.late || capacityLost s p t then 0x12 else 0x10

/-- A real-time task whose work is done has had its completion object signalled, if it has one, by the deadline (R302). -/
def signalLate (s : State) (t : Task) : Bool :=
  t.rt && t.complSync && decide (t.sync ≠ .done ∧ t.sync ≠ .posting ∧ t.deadline < now s)

/-- Outcome of a task whose work has ended (R301, R302); none while it has not. -/
def outcome (s : State) (r : TaskRef) (t : Task) : Option (Nat × Nat × Nat) :=
  match t.ending with
  | some x =>
    if taskGroups s r || deadRequest s r then none
    else if x.1 = 0 ∧ signalLate s t then some (3, voidReason s r.p.val t, 0) else some x
  | none =>
    if !workDone s r t then none
    else if t.rt ∧ t.deadline < now s then some (3, voidReason s r.p.val t, 0)
    else some (0, 0, 0)

/-- Signal COMPL_SYNC as agent `who`, source `src`, for a task of partition `p` (R315, R429): the state after it and the phase
it leaves. A lost signal is counted. -/
def signalAs (who : Agent) (src p : Nat) (t : Task) (s : State) : State × SyncPhase :=
  let a := t.syncAddr.toNat
  let x := a % 2 ^ 40
  let lost : State × SyncPhase := (lostReply p s, .done)
  let from_ : W64 := match t.sync with | .retry w => w | _ => s.skt.time
  if !t.complSync then (s, .done)
  else if a / 2 ^ 40 ≠ s.net.id.toNat then
    match issueRequest (agentTower who) who (reqPkt s who 5 a 0 0 (leBytes 8 1) (some (taskLabel t))) s with
    | .held => (s, .due)
    | .noRoute => lost
    | .sent s1 n => (s1, .sent n)
  else if x < 0x71_0000_0000 ∨ 0x71_0000_0000 + 64 * 4096 ≤ x then lost
  else
    match synSignal ((x - 0x71_0000_0000) / 64) src 1 s with
    | .done s1 _ _ => (s1, .done)
    | .bus => lost
    | .resetting => if retryLimitNs s ≤ now s - from_.toNat then lost else (s, .retry from_)

/-- The controller signals COMPL_SYNC of its task (R315). -/
def signalSync (r : TaskRef) (t : Task) (s : State) : State × SyncPhase := signalAs (pcAgent r.p.val) (2 + r.p.val) r.p.val t s

/-- Post the completion message and release the reservations (Table 1.8 events 8 and 9); while the message is held the
task keeps its entry (R281, R307). -/
def postCompletion (r : TaskRef) (t : Task) (x : Nat × Nat × Nat) (s : State) : State :=
  let p := r.p.val
  let out := if t.complMsg then postWord p t (replyWord s p 3 x.1 x.2.1 x.2.2 t) (some r) s else (s, false)
  if out.2 then modTask p r.e.val (fun _ => { t with sync := .posting }) out.1
  else releaseTask r (x.1 == 3) (out.1.modPart p fun y => { y with spent := y.spent.map fun sv => (stripSaved (fun k => decide (k = r)) sv).1 })

/-- Complete a task as far as it goes: the signal, then the message. -/
def completeTask (r : TaskRef) (t : Task) (x : Nat × Nat × Nat) (s : State) : State :=
  let t1 := { t with ending := some x }
  match t.sync with
  | .done => postCompletion r t1 x s
  | .sent _ => s
  | .posting => s
  | _ =>
    let (s1, ph) := signalSync r t s
    let t2 := { t1 with sync := ph }
    if ph = .done then postCompletion r t2 x s1 else modTask r.p.val r.e.val (fun _ => t2) s1

/-- The whole of a context. -/
def wholeCtx (c : Nat) : InvRange := { ctx := some c, lo := 0, hi := 2 ^ 48 }

/-- TASK_COMPLETION (R46, R301, R315). Of a task that ends with "fault" the context's translations are dropped first (R276,
Table 8.12 event 6). -/
def execTaskCompletion (p : Tower) (e : TaskIx) (s : State) : Host.Outcome State Fault Refusal :=
  match getTask s p.val e.val with
  | none => ok s
  | some t =>
    let r : TaskRef := { p := p, e := e }
    match outcome s r t with
    | none => ok s
    | some x =>
      if !pcRuns s p.val then ok s
      else ok (completeTask r t x (if t.ending.any fun y => y.1 == 1 then invalidate (wholeCtx t.ctx.val) s else s))

/-- The fabric's answer to a request of controller `p`: a completion signal is done; "lost" counts it (R315). -/
def pcAnswer (p tid : Nat) (lost : Bool) (s : State) : State :=
  let s1 := if lost then lostReply p s else s
  forL (partTasks s p) (fun e s =>
    if e.2.sync = .sent tid then
      modTask p e.1 (fun t => { t with
        sync := .done
        ending := if (t.ending.any fun x => x.1 == 0) && signalLate s t then some (3, voidReason s p t, 0) else t.ending }) s
    else s) s1

/-- The fabric's answer to a request of the management core: the signal of a completion it owes is done (R315, R417). -/
def mgmtAnswer (tid : Nat) (lost : Bool) (s : State) : State :=
  let mine (e : OwedEnd) : Bool := decide (e.task.sync = .sent tid)
  let s1 := if lost then forL (s.rst.owed.filter mine) (fun e s => lostReply e.p.val s) s else s
  if s.rst.owed.any mine then
    { s1 with rst := { s1.rst with owed := s1.rst.owed.map fun e => if mine e then { e with task := { e.task with sync := .done } } else e } }
  else send (if lost then .busError .mgmt else .ack .mgmt) s1

/-! ### Demotion, deadline, fault (R276, R295, R297) -/

/-- WINDOW_END_DEMOTE (R295). -/
def execWindowEndDemote (p : Tower) (e : TaskIx) (s : State) : Host.Outcome State Fault Refusal :=
  match getTask s p.val e.val with
  | none => ok s
  | some t =>
    if hasWindow t && t.ending.isNone && decide (t.winE ≤ now s) && pcRuns s p.val then
      let lost := capacityLost s p.val t
      ok (modTask p.val e.val (fun t => { t with demoted := true, chosen := [], late := t.late || lost }) s)
    else ok s

/-- DEADLINE_EXPIRY (R295 to R297, R302): the task has not completed as its deadline passes; a fault already reported
goes first. -/
def execDeadlineExpiry (p : Tower) (e : TaskIx) (s : State) : Host.Outcome State Fault Refusal :=
  match getTask s p.val e.val with
  | none => ok s
  | some t =>
    let r : TaskRef := { p := p, e := e }
    if t.rt && t.ending.isNone && decide (t.deadline ≤ now s) && !workDone s r t && pcRuns s p.val then
      let x := (pendingFault s r).getD (3, voidReason s p.val t, 0)
      ok (endTask r x.1 x.2.1 x.2.2 s)
    else ok s

/-- TASK_FAULT_END (R276): the fault messages of the task end it with "fault". -/
def execTaskFaultEnd (p : Tower) (e : TaskIx) (s : State) : Host.Outcome State Fault Refusal :=
  let r : TaskRef := { p := p, e := e }
  match pendingFault s r with
  | none => ok s
  | some x =>
    if !pcRuns s p.val then ok s
    else if (getTask s p.val e.val).isNone then
      ok (s.modPart p.val fun x => { x with faultMsgs := x.faultMsgs.filter fun m => !decide (m.task = r) })
    else ok (endTask r x.1 x.2.1 x.2.2 s)

/-! ### Restoring displaced best-effort work (R291) -/

/-- A site that takes a restore: in service, outside windows, free of work. -/
def restoreSite (s : State) (j : Nat) : Bool :=
  siteInService s j && !inWindow s j && siteEmpty s j && ((s.getSite j).mode == 0 || (s.getSite j).mode == 2)

/-- The save waits: no restore of it runs. -/
def saveWaits (s : State) (sv : Saved) : Bool :=
  sv.be && !(towerSites (sv.site / 24)).any fun j => (s.getSite j).mode == 3 && decide ((s.getSite j).saveBase = sv.base)

/-- BE_WORK_RESTORE (R267, R291): the oldest save that waits goes back to its own site where that is free, else to the lowest
free one; the two sites' save bases change places. -/
def execBeWorkRestore (p : Tower) (s : State) : Host.Outcome State Fault Refusal :=
  match (s.getPart p.val).saved.find? (saveWaits s) with
  | none => ok s
  | some sv =>
    let free := (towerSites p.val).filter (restoreSite s)
    let target := if free.contains sv.site then some sv.site else free.head?
    match target with
    | none => ok s
    | some j =>
      if !pcRuns s p.val then ok s
      else
        let old := (s.getSite j).saveBase
        let s1 := (s.modSite sv.site fun x => if x.saveBase = sv.base then { x with saveBase := old } else x).modSite j fun x => { x with saveBase := sv.base }
        if restoreAllowed s1 j then ok (s1.modSite j fun x => { x with mode := 3 }) else ok (siteRegErr (2 + p.val) j s1)

end Sys2Proof.Machine
end

