-- ==== Sys2Proof/Machine/SiteReset.lean ====
section
/-! DEFINITION. Reset requests and their permission, resets of sites and clusters, silt traps, block resets, and
the retirement of a site (R411, R416, R417, R419, R420, R424 to R427, R431, R435, R437, R438). -/

namespace Sys2Proof.Machine
open Sys2Proof

/-! ### Requests and their records -/

/-- The fuse entry of source `src` permits level `lvl` (R419). -/
def permits (s : State) (src lvl : Nat) : Bool := bit (s.fuses.rstEntry.getD src 0).toNat (3 + lvl)

/-- The valid option-block override of a source (R394). -/
def resetOverride (s : State) (src : Nat) : Option Nat :=
  let v := (s.bru.opt.override.getD src 0xFF).toNat
  if v ≤ 4 ∧ permits s src v then some v else none

/-- Level that a source produces by itself (R420); none for a DEFAULT of 7. -/
def sourceLevel (s : State) (src : Nat) : Option Nat :=
  match resetOverride s src with
  | some v => some v
  | none => let d := (s.fuses.rstEntry.getD src 0).toNat % 8; if d ≤ 4 then some d else none

/-- Sites of cluster `c` = 4 × tower + cluster. -/
def clusterSites (c : Nat) : List Nat := (List.range 6).map (24 * (c / 4) + 6 * (c % 4) + ·)

/-- The target is in range for its level and not fused off (Table 14.11). -/
def targetOk (s : State) (lvl tgt : Nat) : Bool :=
  if lvl = 0 then decide (tgt < 96) && !s.fuses.sitesOff.contains tgt
  else if lvl = 1 then decide (tgt < 16) && !(clusterSites tgt).all fun j => s.fuses.sitesOff.contains j
  else if lvl = 2 then decide (tgt < 4)
  else true

/-- Add an entry to the reset history: 16 entries, newest first (Table 14.6). -/
def histAdd (src lvl tgt : Nat) (discarded : Bool) (s : State) : State :=
  let e : HistEnt := { source := BitVec.ofNat 8 src, level := BitVec.ofNat 8 lvl, target := BitVec.ofNat 8 tgt
                       time := s.skt.time, discarded := discarded }
  { s with rst := { s.rst with history := (e :: s.rst.history).take 16 } }

/-- Write the last fault record (R435). -/
def faultRecord (src lvl tgt detail : Nat) (s : State) : State :=
  { s with rst := { s.rst with record :=
    { source := BitVec.ofNat 8 src, level := BitVec.ofNat 8 lvl, target := BitVec.ofNat 16 tgt, lost := 0, time := s.skt.time
      stage := BitVec.ofNat 8 s.bru.stage.toNat, discarded := 0, detail := BitVec.ofNat 32 detail } } }

/-- Record a reset that starts: history, RST_LAST, and the fault record of a mapped source or of a firmware request
at L2 or L3 (R435, Table 14.12). -/
def noteReset (src lvl tgt detail : Nat) (s : State) : State :=
  let s1 := histAdd src lvl tgt false s
  let s2 := { s1 with rst := { s1.rst with
    lastSource := BitVec.ofNat 8 src, lastTarget := BitVec.ofNat 8 tgt, lastLevel := BitVec.ofNat 3 lvl } }
  if src < 8 ∨ 2 ≤ lvl then faultRecord src lvl tgt detail s2 else s2

/-- A request discarded during bring-up (R411). -/
def discardInBoot (src lvl tgt : Nat) (s : State) : State :=
  let s1 := histAdd src lvl tgt true s
  let n := s1.rst.record.discarded.toNat
  { s1 with rst := { s1.rst with record := { s1.rst.record with discarded := BitVec.ofNat 8 (min 255 (n + 1)) } } }

/-- A counted request that has no effect; `refused` also sets RST_STATUS.REFUSED (R420, R424, R495). -/
def rstErr (r : Nat) (part : Option Nat) (refused : Bool) (s : State) : State :=
  let s1 := countRegErr r 3 0x010 part s
  if refused then raiseEvent 5 { s1 with rst := { s1.rst with refused := true } } else s1

/-- What a write of RST_REQUEST gives: the source of a reset that starts, or the state after a refusal (R420, R424,
R448). -/
def checkReset (r key lvl tgt : Nat) (s : State) : Except State Nat :=
  if r = 0 then
    if key ≠ 0xA5 then .error (rstErr 0 none false s)
    else
      let above := match resetOverride s 1 with | some v => decide (v < lvl) | none => false
      if !permits s 1 lvl || above || !targetOk s lvl tgt then .error (rstErr 0 none true s) else .ok 1
  else if r = 1 then
    if key = 0xA5 ∧ lvl ≤ 3 ∧ targetOk s lvl tgt then .ok 0xFE else .error (rstErr 1 none false s)
  else if r ≤ 5 then
    let p := r - 2
    let own := decide (lvl = 0 ∧ tgt / 24 = p) || decide (lvl = 1 ∧ tgt / 4 = p)
    if key = 0xA5 ∧ own ∧ targetOk s lvl tgt then .ok 0xFE else .error (rstErr r (some p) false s)
  else .error s

/-! ### L0 and L1 (R416, R417, R426) -/

/-- Tasks with work on a site; a running restore holds those of its save. -/
def tasksOn (s : State) (j : Nat) : List TaskRef :=
  let gs := (List.range 24).filterMap fun k => (s.getGrp (gIx j k)).task
  let ads := (List.range 2).flatMap fun a => (s.getAry (2 * j + a)).fifo.filterMap (·.task)
  let dds := (List.range 4).flatMap fun c => (s.getDma (4 * j + c)).fifo.filterMap (·.task)
  let sv := if (s.getSite j).mode ≠ 3 then []
    else ((areaCore s (j / 24) (s.getSite j).saveBase).map Saved.tasks).getD []
  (gs ++ ads ++ dds ++ sv).eraseDups

/-- The site's units at their reset values; its status, its link to a spare and its repairs stay (Table 14.1). -/
def clearUnits (j : Nat) (s : State) : State :=
  let s1 := forN 24 (fun k s => s.modGrp (gIx j k) fun _ => {}) s
  let s2 := forN 2 (fun a s => s.modAry (2 * j + a) fun _ => {}) s1
  let s3 := forN 4 (fun c s => s.modDma (4 * j + c) fun _ => {}) s2
  s3.modSite j fun x =>
    { status := x.status, byFuse := x.byFuse, replacedBy := x.replacedBy, outBundles := x.outBundles, lostGroups := x.lostGroups
      half := x.half, gen := x.gen + 1, blkRefused := x.blkRefused, retireTo := x.retireTo, retireDue := x.retireDue, retiring := x.retiring
      mode := 4, readySince := s.skt.time }

/-- A reset that reached its work ends a task (R302, R417). -/
def collateralEnd (r : TaskRef) (s : State) : State := let x := collateral s r; endTask r x.1 x.2.1 x.2.2 s

/-- L0 of one site: its tasks end COLLATERAL_RESET, or with an exception already reported, a save or restore that runs is abandoned, the silt trap takes
over its requests; held fault records of its work go (R417, R426, R427). -/
def siteReset (j : Nat) (s : State) : State :=
  let ts := tasksOn s j
  let s1 := forL ts collateralEnd s
  let s2 := match (if (s.getSite j).mode = 3 then areaCore s (j / 24) (s.getSite j).saveBase else none) with
    | some sv => s1.modPart (j / 24) fun x => { x with saved := x.saved.filter fun y => !sameCore y sv }
    | none => s1
  let mine (a : Agent) : Bool := match a with
    | .group st _ => st.val == j
    | .array a => a.val / 2 == j
    | .dma c => c.val / 4 == j
    | _ => false
  let s3 := discardOpen mine s2
  clearUnits j (s3.modPart (j / 24) fun x => { x with heldRecs := x.heldRecs.filter fun e => !(mine e.1 && (e.2.2.all ts.contains)) })

/-- A site inside a reset that runs. -/
def siteResetting (s : State) (j : Nat) : Bool :=
  (s.getSite j).mode == 4 || inReset s (j / 24) || s.rst.l4held || s.rst.running.any fun x => decide (3 ≤ x.level)

/-- Start an L0 or an L1 over the sites `js` (R425: inside a running reset it is discarded and recorded). -/
def startSiteReset (src lvl tgt : Nat) (js : List Nat) (s : State) : State :=
  if s.bru.stage.toNat < 9 then discardInBoot src lvl tgt s
  else if js.all (siteResetting s) then histAdd src lvl tgt true s
  else noteReset src lvl tgt 0 (forL (js.filter fun j => !s.fuses.sitesOff.contains j) siteReset s)

/-- RST_REQUEST_L0 (R416, R420, R424). -/
def execRstRequestL0 (r : Req) (key target : Byte) (s : State) : Host.Outcome State Fault Refusal :=
  match checkReset r.val key.toNat 0 target.toNat s with
  | .error s1 => ok s1
  | .ok src => ok (startSiteReset src 0 target.toNat [target.toNat] s)

/-- RST_REQUEST_L1 (R416, R420, R424). -/
def execRstRequestL1 (r : Req) (key target : Byte) (s : State) : Host.Outcome State Fault Refusal :=
  match checkReset r.val key.toNat 1 target.toNat s with
  | .error s1 => ok s1
  | .ok src => ok (startSiteReset src 1 target.toNat (clusterSites target.toNat) s)

/-- The save that a context abort asked for has ended: the site is reset at L0. Work saved within 18 µs goes back to
the site after it; later work ends COLLATERAL_RESET (R272). -/
def forcedReset (j took : Nat) (s : State) : State :=
  let x := s.getSite j
  let y (a : Nat) : BitVec 40 := (s.getAry (2 * j + a)).saveBase
  let back := (x.saveBase, y 0, y 1)
  let s1 := noteReset 0xFE 0 j 0 (siteReset j s)
  let kept := s1.modSite j fun x => { x with byAbort := true, restoreDue := if took ≤ 18000 then some back else none }
  if took ≤ 18000 then kept
  else
    match (s.getPart (j / 24)).saved.find? fun v => decide (v.base = x.saveBase) with
    | none => kept
    | some v =>
      (forL v.tasks collateralEnd kept).modPart (j / 24) fun p => { p with
        saved := p.saved.filter fun y => !decide (y.base = x.saveBase) }

/-- A save that a forced end asked for has not ended within 18 µs: the site is reset, and the work on it ends COLLATERAL_RESET
(R272). -/
def cutSaves (mine : Site_ → Bool) (s : State) : State :=
  forN 96 (fun j s =>
    let x := s.getSite j
    if x.mode = 1 ∧ mine x ∧ x.saveFrom.toNat + 18000 < now s then forcedReset j 18001 s else s) s

/-- CORE_SAVE_DONE (R264, R519): once everything of the site has stopped, the last save write is acknowledged. -/
def execCoreSaveDone (site : Site) (s : State) : Host.Outcome State Fault Refusal :=
  let j := site.val
  if (s.getSite j).mode ≠ 1 then ok s
  else
    let s1 := forN 4 (fun c s => dmaPreempt (4 * j + c) s) (forN 24 (fun k s => stopHeld j k s) s)
    if !siteQuiet s1 j then ok s1
    else if (s1.getSite j).saveDrop ≠ [] ∨ (s1.getSite j).dropTasks ≠ [] then ok (forcedReset j (now s1 - (s1.getSite j).saveFrom.toNat) (finishSave j s1))
    else ok (finishSave j s1)

/-- SITE_RESET_DONE (R416): the site is ready, unless a wider reset or the thermal halt (R460) still holds it. After an L0 that followed a save
for a context abort, the controller writes the save bases again and RESTORE (R272). -/
def execSiteResetDone (site : Site) (s : State) : Host.Outcome State Fault Refusal :=
  let j := site.val
  let x := s.getSite j
  if x.mode ≠ 4 ∨ inReset s (j / 24) ∨ s.rst.l4held ∨ s.thm.halted then ok s
  else
    match x.restoreDue with
    | none => ok (s.modSite j fun x => { x with mode := 0, byAbort := false })
    | some (b, b0, b1) =>
      let s1 := (s.modAry (2 * j) fun y => { y with saveBase := b0 }).modAry (2 * j + 1) fun y => { y with saveBase := b1 }
      ok (s1.modSite j fun x => { x with mode := 3, saveBase := b, byAbort := false, restoreDue := none })

/-- SILT_TRAP_DISCARD (R427): what carries an old generation is discarded; its endpoint entry is free. -/
def execSiltTrapDiscard (who : Agent) (gen : BitVec 2) (s : State) : Host.Outcome State Fault Refusal :=
  if gen = agentGen s who then ok s
  else
    let t := agentTower who
    let es := (Tbl.get [] s.net.tids t).filter fun e => !decide (e.2.who = who ∧ e.2.gen = gen)
    ok { s with net := { s.net with tids := Tbl.put [] s.net.tids t es } }

/-! ### Block resets (R431, Table 14.5) -/

/-- An array's idle condition. -/
def aryIdle (x : Array) : Bool := (decide (x.mode = .idle) || decide (x.mode = .halted)) && x.fifo.isEmpty

/-- The DMA engine's idle condition. -/
def dmasIdle (s : State) (j : Nat) : Bool :=
  (List.range 4).all fun c =>
    let x := s.getDma (4 * j + c)
    (decide (x.mode = .idle) || decide (x.mode = .halted)) && x.fifo.isEmpty

/-- The idle condition of block `b` of a site. -/
def blockIdle (s : State) (j b : Nat) : Bool :=
  match b with
  | 0 => aryIdle (s.getAry (2 * j))
  | 1 => aryIdle (s.getAry (2 * j + 1))
  | 2 => dmasIdle s j
  | 3 => noGroups s j
  | 4 => noGroups s j
  | _ => noGroups s j && aryIdle (s.getAry (2 * j)) && aryIdle (s.getAry (2 * j + 1)) && dmasIdle s j && (s.getSite j).mode == 0

/-- What the reset of block `b` clears. -/
def blockClear (j b : Nat) (s : State) : State :=
  match b with
  | 0 => s.modAry (2 * j) fun x => { freshArray x true with busy := true }
  | 1 => s.modAry (2 * j + 1) fun x => { freshArray x true with busy := true }
  | 2 => forN 4 (fun c s => s.modDma (4 * j + c) fun _ => {}) s
  | 3 => (forN 24 (fun k s => s.modGrp (gIx j k) fun _ => {}) s).modSite j fun x =>
      { x with slm := [], allocs := [], bars := [], rcMiss := 0, replay := 0, idle := 0 }
  | 4 => s.modSite j fun x => { x with l1 := [], l1Parity := 0 }
  | _ => s.modSite j fun x => { x with tlb := [], walkc := [], walks := [], saveTime := 0, tlbMiss := 0, faults := 0, late := 0 }

/-- Reset the blocks of `bs` together: none of them where one is not idle (R431). -/
def blockReset (r j : Nat) (bs : List Nat) (s : State) : State :=
  if !ctrlAllowed r (j / 24) || s.fuses.sitesOff.contains j then s
  else if bs.all (blockIdle s j) then
    forL bs (fun b s => (blockClear j b s).modSite j fun x => { x with blkBusy := setBit x.blkBusy b true })
      (s.modSite j fun x => { x with blkRefused := false })
  else countRegErr r 3 0x100 (some (j / 24)) (s.modSite j fun x => { x with blkRefused := true })

/-- BLOCK_RESET_ARY0. -/
def execBlockResetAry0 (r : Req) (site : Site) (s : State) : Host.Outcome State Fault Refusal := ok (blockReset r.val site.val [0] s)
/-- BLOCK_RESET_ARY1. -/
def execBlockResetAry1 (r : Req) (site : Site) (s : State) : Host.Outcome State Fault Refusal := ok (blockReset r.val site.val [1] s)
/-- BLOCK_RESET_DMA. -/
def execBlockResetDma (r : Req) (site : Site) (s : State) : Host.Outcome State Fault Refusal := ok (blockReset r.val site.val [2] s)
/-- BLOCK_RESET_TGE. -/
def execBlockResetTge (r : Req) (site : Site) (s : State) : Host.Outcome State Fault Refusal := ok (blockReset r.val site.val [3] s)
/-- BLOCK_RESET_L1. -/
def execBlockResetL1 (r : Req) (site : Site) (s : State) : Host.Outcome State Fault Refusal := ok (blockReset r.val site.val [4] s)
/-- BLOCK_RESET_XLT. -/
def execBlockResetXlt (r : Req) (site : Site) (s : State) : Host.Outcome State Fault Refusal := ok (blockReset r.val site.val [5] s)

/-- The block reset of a port's collective engine (R431). -/
def collBlockReset (r k : Nat) (s : State) : State :=
  let x := s.getPort k
  if !ctrlAllowed r (portTower k) || !portPresent s k then s
  else if x.coll = .idle ∧ x.collFifo.isEmpty then
    s.modPort k fun x => { x with collFifo := [], collTlb := [], blkBusy := true, blkRefused := false }
  else countRegErr r 3 0x100 (some (portTower k)) (s.modPort k fun x => { x with blkRefused := true })

/-- BLOCK_RESET_COLL. -/
def execBlockResetColl (r : Req) (port : Port) (s : State) : Host.Outcome State Fault Refusal := ok (collBlockReset r.val port.val s)

/-- BLOCK_RESET_DONE (R431): the BUSY bit clears. -/
def execBlockResetDone (coll : Bool) (unit : Fin 96) (block : Fin 6) (s : State) : Host.Outcome State Fault Refusal :=
  if coll then ok (if unit.val < 6 then s.modPort unit.val fun x => { x with blkBusy := false } else s)
  else
    let s1 := s.modSite unit.val fun x => { x with blkBusy := setBit x.blkBusy block.val false }
    ok (if block.val < 2 then s1.modAry (2 * unit.val + block.val) fun x => { x with busy := false } else s1)

/-! ### Retirement (R437, R438, Table 14.9) -/

/-- The standby spare of a site's cluster. -/
def clusterSpare (s : State) (j : Nat) : Option Nat :=
  (clusterSites (4 * (j / 24) + j % 24 / 6)).find? fun t => siteStatus s t == 1

/-- Start the retirement of a site: it waits inside a real-time window; its work is saved, or reset away where it
cannot be. -/
def retireSite (j : Nat) (s : State) : State :=
  if !siteInService s j || (s.getSite j).retiring then s
  else if inWindow s j then s.modSite j fun x => { x with retireDue := true }
  else
    let s1 := s.modSite j fun x => { x with retireTo := clusterSpare s j, retireDue := false, retiring := true }
    if saveAllowed s1 j then startSave j true [] [] s1 else siteReset j s1

/-- A RETIRE write (R437, R448). -/
def retireWrite (r j : Nat) (s : State) : State := if ctrlAllowed r (j / 24) ∧ !s.fuses.sitesOff.contains j then retireSite j s else s

/-- SITE_RETIRE (R437, R438). -/
def execSiteRetire (r : Req) (site : Site) (s : State) : Host.Outcome State Fault Refusal := ok (retireWrite r.val site.val s)

/-- The site is done with: reset, retired, recorded (Table 14.9 events 5 and 6). -/
def retired (j : Nat) (spare : Option Nat) (s : State) : State :=
  let s1 := (setSiteStatus j 4 (siteReset j s)).modSite j fun x => { x with
    retiring := false, retireTo := none
    replacedBy := match spare with | some t => BitVec.ofNat 8 (t % 24) | none => 0xFF }
  raiseEvent 6 (addRepair (match spare with | some _ => 1 | none => 2) j 0 (match spare with | some t => t % 24 | none => 0xFF) s1)

/-- RETIRE_SPARE_READY (Table 14.9): the save is done and the spare has run its Kaolin suite. A spare that passes
becomes active and takes the saved work; without one the work waits as displaced work does (R291). -/
def execRetireSpareReady (site : Site) (pass : Bool) (s : State) : Host.Outcome State Fault Refusal :=
  let j := site.val
  let x := s.getSite j
  if !x.retiring || (x.mode ≠ 2 && x.mode ≠ 4) then ok s
  else
    match x.retireTo with
    | none => ok (retired j none s)
    | some t =>
      if !pass then ok (retired j none (setSiteStatus t 5 s))
      else
        let s1 := setSiteStatus t 2 s
        let mine := (s1.getPart (j / 24)).saved.any fun y => decide (y.base = x.saveBase ∧ y.site = j)
        let s2 := if x.mode = 2 ∧ mine then s1.modSite t fun y => { y with saveBase := x.saveBase, mode := 3 } else s1
        ok (retired j (some t) s2)

end Sys2Proof.Machine
end

