-- ==== Sys2Proof/Machine/Links.lean ====
section
/-! DEFINITION. Abaifa lanes and links: frames and their code, markers, flits with their sequence numbers, acks
and credits, replay, training, lane replacement and width changes (chapter 11; R284 to R286 at a port). -/

namespace Sys2Proof.Machine
open Sys2Proof

/-! ### The state of a port -/

/-- The port carries flits. -/
def inService (x : PortSt) : Bool :=
  decide (x.st = .upNotReady) || decide (x.st = .up) || decide (x.st = .repair) || decide (x.st = .degrade)

/-- The state of a port in service by what both sides have granted (Table 11.6 event 7). -/
def serviceState (x : PortSt) : LinkSt := if x.localReady && x.peerReady then .up else .upNotReady

/-- ABF_LINK_STATE.STATE (Table 11.10). -/
def linkCode (x : LinkSt) : Nat :=
  match x with
  | .off => 0
  | .detect => 1
  | .train => 2
  | .upNotReady => 3
  | .up => 4
  | .repair => 5
  | .degrade => 6
  | .retrain => 7
  | .failed => 8

/-- WIDTH as the register shows it: 0 out of service (Table 11.10). -/
def linkWidth (x : PortSt) : Nat := if inService x then x.width.toNat else 0

/-- The other devices of a port's ring: those whose coordinates differ from this device's only in its dimension
(R387). -/
def ringOthers (s : State) (k : Nat) : List Nat :=
  let d := k / 2
  let own := s.net.id.toNat
  let sh := if d = 0 then 11 else if d = 1 then 6 else 0
  ((List.range (dimSize s d)).filter (· ≠ coord own d)).map fun c => own - coord own d * 2 ^ sh + c * 2 ^ sh

/-- LINK payload (R387). -/
def linkPayload (s : State) (k : Nat) : List Byte :=
  let x := s.getPort k
  leBytes 2 s.net.id.toNat ++ [BitVec.ofNat 8 k, BitVec.ofNat 8 (linkCode x.st), BitVec.ofNat 8 (linkWidth x),
    BitVec.ofNat 8 (b2n x.miswired + 2 * b2n (portBroken s k))] ++ [0, 0] ++ leBytes 8 s.skt.time.toNat

/-- A management packet of this device (Tables 12.1, 12.8). -/
def mgmtPkt (s : State) (sub dst : Nat) (nbr : Bool) (payload : List Byte) : Pkt :=
  { op := 8, flags := if nbr then 0x40 else 0, dl := 0, dst := BitVec.ofNat 16 dst, src := s.net.id, tid := 0, status := 0
    arg := BitVec.ofNat 8 sub, addr := 0, aux := 0, payload := payload }

/-- Send a management packet to the peer across port `k` (R386). -/
def sendNbr (k sub : Nat) (payload : List Byte) (s : State) : State := issueMgmt (some k) (mgmtPkt s sub 0 true payload) s

/-- BRU_STATUS (Table 13.15). -/
def bruStatus (s : State) : Nat :=
  let b := s.bru
  b.stage.toNat + 16 * b.progress.toNat + 256 * b.unit.toNat + 65536 * b.fault.toNat + 2 ^ 28 * b2n b.fabric + 2 ^ 29 * b2n b.warm
    + 2 ^ 30 * b2n b.held + 2 ^ 31 * b2n b.ready

/-- Send HELLO on port `k` (R387). -/
def sendHello (k : Nat) (s : State) : State :=
  let id := if s.net.idValid then s.net.id.toNat else 0
  sendNbr k 1 (leBytes 2 id ++ leBytes 2 s.fuses.variant.toNat ++ leBytes 4 (bruStatus s) ++ [BitVec.ofNat 8 k] ++ List.replicate 7 0) s

/-- Bring-up enters stage `v`; HELLO goes out on every port in service (R387, R391). -/
def setStage (v : Nat) (s : State) : State :=
  forN 6 (fun k s => if inService (s.getPort k) then sendHello k s else s)
    { s with bru := { s.bru with stage := BitVec.ofNat 4 v, progress := 0 } }

/-- After a change of a port's state: a LINK notice to each device of its ring when the port became broken or
stopped being broken (R387); `was` is whether it was broken before. -/
def linkNotice (k : Nat) (was : Bool) (s : State) : State :=
  if portBroken s k = was ∨ !s.net.idValid ∨ !portPresent s k then s
  else forL (ringOthers s k) (fun d s => issueMgmt none (mgmtPkt s 6 d false (linkPayload s k)) s) s

/-- The packets that wait on a port that has become OFF, FAILED or MISWIRED are answered NO_ROUTE by this device, which holds
them (R367); a MISWIRED port goes on carrying management packets (R358). -/
def answerWaiting (k : Nat) (s : State) : State :=
  let x := s.getPort k
  let vls := if inService x then List.range 5 else List.range 6
  let ps := vls.flatMap fun v => let fs := Tbl.get [] x.txq v; waitingPkts fs.length fs
  forL ps (fun p s => if p.isResp || p.op == 8 then s else respNack p 0x12 s)
    (s.modPort k fun x => { x with txq := x.txq.filter fun e => !vls.contains e.1 })

/-- Change a port, answer the packets that can no longer leave on it, and send the notices that follow. -/
def changePort (k : Nat) (f : PortSt → PortSt) (s : State) : State :=
  let was := portBroken s k
  let s1 := s.modPort k f
  linkNotice k was (if portBroken s1 k && !was then answerWaiting k s1 else s1)

/-- What a port forgets as it leaves service: the repair in hand, the frame being filled, the markers and the training. -/
def outOfService (x : PortSt) : PortSt :=
  { x with
    lostLane := none, switched := false, txLost := none, txNote := none, degSent := false, degSeen := false, retrainDue := false
    replayRun := 0, markRun := 0, failRun := 0, txDue := [], txRun := 0, txFrame := [], trainStep := 0 }

/-- Event 6 of Table 11.7 at the transmitter: the lane it replaced is recorded as failed and logged, and the management core
is told. INDEX of the map entry is the lane, plus 16 for a receive direction (DESIGN CHOICE, log 86). -/
def recordReplaced (k : Nat) (s : State) : State :=
  match (s.getPort k).txNote with
  | none => s
  | some (old, sp) =>
    raiseEvent 7 (notifyMgmt 7 (addRepair 0x0C k old sp (s.modPort k fun x => { x with
      failTx := setBit x.failTx old true, txNote := none })))

/-- The port enters FAILED (R346, R347, R350; vector LINK of Table 16.2). -/
def failPort (k : Nat) (s : State) : State :=
  raiseEvent 7 (changePort k (fun x => outOfService { x with st := .failed }) (recordReplaced k s))

/-! ### Frames (R330 to R332) -/

/-- Code position `p` of codeword `c` in the frame's code bytes (R331). -/
def frameIndex (c p : Nat) : Nat := 8 * p + (c + 7 * p) % 8

/-- Codeword `c` of a frame. -/
def frameWord (code : List Byte) (c : Nat) : List Byte := (List.range 167).map fun p => code.getD (frameIndex c p) 0

/-- The physical receive lane of logical lane `l`. -/
def rxLane (x : PortSt) (l : Nat) : Nat := x.mapRx.getD (if x.width = 4 then l % 4 else l) 15

/-- The entries of a list at even places, and those at odd places. -/
def unzip2 : List Byte → List Byte × List Byte
  | a :: b :: r => let u := unzip2 r; (a :: u.1, b :: u.2)
  | l => (l, [])

/-- Two streams sent alternately, the first one first. -/
def zip2 : List Byte → List Byte → List Byte
  | a :: r, b :: q => a :: b :: zip2 r q
  | l, m => l ++ m

/-- Stream of logical lane `l`, its marker and 167 code bytes, out of the streams of the physical lanes (R331, R334). -/
def rxStream (x : PortSt) (lanes : List (List Byte)) (l : Nat) : List Byte :=
  let st := lanes.getD (rxLane x l) []
  if x.width = 4 then (if l < 4 then (unzip2 st).1 else (unzip2 st).2) else st

/-- The 1,336 code bytes of a received frame (R331). -/
def rxCode (x : PortSt) (lanes : List (List Byte)) : List Byte :=
  let sts := (List.range 8).map fun l => rxStream x lanes l
  (List.range 1336).map fun b => (sts.getD (b % 8) []).getD (b / 8 + 1) 0

/-- The marker of each active lane; at width 4 the first of the lane's two (R332, R334). -/
def rxMarkers (x : PortSt) (lanes : List (List Byte)) : List Byte := x.mapRx.map fun ph => (lanes.getD ph []).getD 0 0

/-- The code bytes of five flits: flit byte f is data position f div 8 of codeword f mod 8, and code byte b is position
b div 8 of codeword (b + b div 8) mod 8 (R330, R331). -/
def frameCode (flits : List (List Byte)) : List Byte :=
  let bs := flits.flatten
  let ws := (List.range 8).map fun c => frameEncode ((List.range 160).map fun p => bs.getD (8 * p + c) 0)
  (List.range 1336).map fun b => (ws.getD ((b + b / 8) % 8) []).getD (b / 8) 0

/-- What logical lane `l` carries in a frame: its marker, then its code bytes (R329, R331). -/
def laneStream (m : Byte) (code : List Byte) (l : Nat) : List Byte := m :: (List.range 167).map fun i => code.getD (8 * i + l) 0

/-- The bytes of each physical lane in a frame: every active lane carries the same marker (R332); at width 4 active lane a
carries logical lanes a and a + 4 alternately (R334). -/
def frameLanes (x : PortSt) : List (List Byte) :=
  let code := frameCode x.txFrame
  (List.range 9).map fun ph =>
    match x.mapTx.findIdx? (· == ph) with
    | none => []
    | some a =>
      if x.width = 4 then zip2 (laneStream x.txMark code a) (laneStream x.txMark code (a + 4)) else laneStream x.txMark code a

/-- The majority value of the markers (R332): 5 of 8, or 3 of 4. -/
def majority (ms : List Byte) : Option Byte := ms.find? fun m => decide (ms.length < 2 * (ms.filter (· = m)).length)

/-- The five flits of decoded codewords (R331). -/
def frameFlits (ws : List (List Byte)) : List (List Byte) :=
  (List.range 5).map fun n => (List.range 256).map fun i =>
    let f := 256 * n + i
    (ws.getD (f % 8) []).getD (f / 8) 0

/-- Drop flits of a packet that cannot be completed: a lane's head flits up to the next first flit. -/
def dropPartial (fs : List (List Byte)) : List (List Byte) := fs.dropWhile fun f => !(flitHdr f).first

/-- Drop the flits of a packet whose last flit has not come. -/
def dropOpen (fs : List (List Byte)) : List (List Byte) := (fs.reverse.dropWhile fun f => !(flitHdr f).last).reverse

/-- Entries of the table that are not the empty list. -/
def tidyQ (t : Tbl (List (List Byte))) : Tbl (List (List Byte)) := t.filter fun e => e.2 ≠ []

/-- Both ends start again (R346): sequence numbers and credits afresh, partly received packets discarded, the held
flits handed back and dropped (R372). -/
def freshLink (x : PortSt) : PortSt :=
  { x with
    kept := false, txSeq := 0, rxSeq := 0, retry := [], replayAt := none, rplAsk := false, rplSeen := false, replayRun := 0, txTid := []
    limit := [], avail := [], returned := [], taken := [], advert := [], localReady := false, peerReady := false, rxState := false
    txq := tidyQ (x.txq.map fun e => (e.1, dropPartial e.2)), rxq := tidyQ (x.rxq.map fun e => (e.1, dropOpen e.2)) }

/-- The peer's INIT carries KEPT at 0 while this end kept its state: both start again, and the first INIT goes out afresh
(R346). -/
def restartLink (x : PortSt) : PortSt := { freshLink x with initDue := [false] }

/-- A replay began within the last 300 ns of device time `t` (R338). -/
def replayFresh (t : Nat) (x : PortSt) : Bool := x.replays ≠ 0 && decide (t - x.replayFrom.toNat < 300)

/-- Take a flit that a frame delivered, by its header, acks and credits, and by its sequence number (R336 to
R338, R341). An RPL within 300 ns of a replay's start is ignored. The first INIT after training that carries KEPT at 0 starts
the numbers again at both ends (R346), whatever number this end expected (DEDUCED, log 86). -/
def takeFlit (k : Nat) (flit : List Byte) (s : State) : State :=
  let h := flitHdr flit
  let num := flitNum flit
  let good := decide (flit.length = 256) && decide (crc32c (flit.take 252) = ofLe (flit.drop 252))
    && !bit num 11 && decide (num / 2 ^ 66 = 0) && decide (h.type ≤ 2)
  if !good then s.modPort k fun x => { x with crcErr := x.crcErr + 1, rplAsk := true }
  else
    let ackd (x : PortSt) : PortSt :=
      if !h.ackV then x
      else
        let s0 := (x.txSeq.toNat + 4096 - x.retry.length) % 4096
        let n := (h.ack + 4096 - s0) % 4096
        if n ≤ x.retry.length then
          { x with retry := x.retry.drop n, replayAt := x.replayAt.bind fun i => if n ≤ i then some (i - n) else some 0
                   replayRun := if n = 0 then x.replayRun else 0 }
        else x
    let credit (vl cnt : Nat) (x : PortSt) : PortSt :=
      if vl < 6 then
        let d := (cnt + 256 - Tbl.get 0 x.taken vl % 256) % 256
        { x with taken := Tbl.put 0 x.taken vl cnt, avail := Tbl.mod 0 x.avail vl (· + d) }
      else x
    let arrive (x : PortSt) : PortSt :=
      if h.type = 0 then x
      else if h.type = 2 ∧ x.initWait ∧ x.kept ∧ !bit (flit.getD 27 0).toNat 0 then
        { restartLink x with rxSeq := BitVec.ofNat 12 (h.seq + 1) }
      else if h.seq ≠ x.rxSeq.toNat then { x with rplAsk := true }
      else
        let y := { x with rxSeq := x.rxSeq + 1, rplAsk := false }
        if h.type = 1 then { y with rxq := Tbl.mod [] y.rxq h.vl (· ++ [flit]) } else y
    s.modPort k fun x =>
      let y := credit h.crbVl h.crbCnt (credit h.craVl h.craCnt (ackd x))
      arrive { y with rplSeen := y.rplSeen || (h.rpl && !replayFresh (now s) x) }

/-- A hardware timestamp of the present, 1/16 ns: the PHY resolves 0.25 ns, and which quarter of the nanosecond it is lies
below device time, a free value (R67; log 6). -/
def stamp (s : State) : W64 := BitVec.ofNat 64 (16 * now s + 4 * ((Config.freeValue s.net.drawn).toNat % 4))

/-- Note the marker of a frame: a run of frames with the same one grows; the start of a TS_MARK run is stamped (R332, R383). -/
def noteMarker (k : Nat) (lanes : List (List Byte)) (s : State) : State :=
  let x := s.getPort k
  match majority (rxMarkers x lanes) with
  | none => s.modPort k fun x => { x with markRun := 0 }
  | some m =>
    if x.mark = m ∧ x.markRun ≠ 0 then s.modPort k fun x => { x with markRun := x.markRun + 1 }
    else
      let s1 := s.modPort k fun x => { x with mark := m, markRun := 1, markAt := if m.toNat / 8 = 6 then stamp s else x.markAt }
      if m.toNat / 8 = 6 then { s1 with net := { s1.net with drawn := s1.net.drawn + 1 } } else s1

/-- Symbol errors located on a lane at device time `t`, 10 ms back (R348). -/
def recentErrors (t : Nat) (y : LaneSt) : List W64 := y.serAt.filter fun e => decide (t < e.toNat + 10000000)

/-- FRAME_RECEIVE (R330 to R332, R348, R349): the markers are read; while a receive lane is being replaced the frame is
discarded; else the eight codewords are decoded, a frame with an uncorrectable one is discarded whole, and the flits of a good
one are passed on. `lanes` holds the bytes of each physical receive lane, `dark` the lanes without signal or lock. -/
def execFrameReceive (port : Port) (lanes : List (List Byte)) (dark : BitVec 9) (s : State) : Host.Outcome State Fault Refusal :=
  let k := port.val
  let x := s.getPort k
  if !inService x then ok s
  else
    let s0 := (noteMarker k lanes s).modPort k fun x => { x with dark := dark }
    if x.lostLane.isSome then ok (s0.modPort k fun x => { x with rplAsk := true })
    else
      let code := rxCode x lanes
      let ds := (List.range 8).map fun c => frameDecode (frameWord code c)
      if ds.any Option.isNone then
        ok (s0.modPort k fun x => { x with fecUncorr := x.fecUncorr + 1, failRun := x.failRun + 1, rplAsk := true })
      else
        let fixed := ds.map fun d => (d.map (·.2)).getD []
        let s1 := s0.modPort k fun x => { x with
          failRun := 0, decodeAt := s.skt.time, fecCorr := x.fecCorr + BitVec.ofNat 32 (fixed.map (·.length)).sum }
        let at_ := fixed.zipIdx.flatMap fun e => e.1.map fun p => rxLane x (frameIndex e.2 p % 8)
        let s2 := forL at_ (fun l s => if l < 9 then s.modLane (9 * k + l) fun y => { y with
          ser := y.ser + 1, serAt := s.skt.time :: recentErrors (now s) y } else s) s1
        ok (forL (frameFlits (ds.map fun d => (d.map (·.1)).getD [])) (takeFlit k) s2)

/-- FLIT_RECEIVE (R336 to R338, R341). -/
def execFlitReceive (port : Port) (flit : List Byte) (s : State) : Host.Outcome State Fault Refusal :=
  if inService (s.getPort port.val) then ok (takeFlit port.val flit s) else ok s

/-! ### Transmission (R284 to R286, R337, R338, R341, R343, R366) -/

/-- Share of class `c` at the outbound side of port `k`, in 1/20 byte per ns, halved at width 4 (R284, R296). -/
def portShare (s : State) (k c : Nat) : Nat :=
  let m := ((List.range 4).map fun p => (Tbl.get {} s.svc.classes (16 * p + c)).portMin.getD k 0).sum
  if (s.getPort k).width = 4 then m else 2 * m

/-- Counter of class `c`, in 1/20 byte, brought up to the present (R284). -/
def shareNow (s : State) (k c : Nat) : Nat :=
  let x := s.getPort k
  let sh := portShare s k c
  min (Tbl.get 0 x.shares c + sh * (now s - x.sharesAt.toNat)) (max (sh * 2000) 10240)

/-- Credits that a flit needs (R341, R366): on lanes 4 and 5 the first flit of a packet that enters a ring needs space for two
packets of 18 flits, and that of one that continues in its dimension space for the packet itself. -/
def creditNeed (vl : Nat) (f : List Byte) : Nat :=
  if 4 ≤ vl ∧ (flitHdr f).first then
    (if f.getD 252 0 = 1 then 36 else (32 + ofLe ((f.drop 14).take 2) + 239) / 240)
  else 1

/-- The lane holds the credits that a flit needs. -/
def creditOk (x : PortSt) (vl : Nat) (f : List Byte) : Bool := decide (creditNeed vl f ≤ Tbl.get 0 x.avail vl)

/-- Head flit of a lane that may be sent. -/
def sendable (x : PortSt) (vl : Nat) : Option (List Byte) :=
  match Tbl.get [] x.txq vl with
  | f :: _ => if creditOk x vl f then some f else none
  | [] => none

/-- Class, RT flag and DL of the packet that a waiting flit belongs to. -/
def flitLabel (x : PortSt) (vl : Nat) (f : List Byte) : Nat × Bool × W32 :=
  if (flitHdr f).first then
    let p := Pkt.ofBytes (f.drop 12)
    (p.cls, p.rt, p.dl)
  else Tbl.get (0, false, 0) x.cur vl

/-- The lane chosen among lanes 0 to 4 (R285, R343): its number, the tier, and the token after it. -/
def chooseLane (s : State) (k : Nat) : Option (Nat × Nat × Nat) :=
  let x := s.getPort k
  let cs := (List.range 5).filterMap fun v => (sendable x v).map fun f => (v, flitLabel x v f)
  let any := (List.range 16).any fun c => decide (0 < portShare s k c)
  let within (c : Nat) : Bool := !any || decide (5120 ≤ shareNow s k c)
  let t1 := cs.filter fun e => e.2.2.1 && within e.2.1
  let t2 := cs.filter fun e => !e.2.2.1 && within e.2.1
  let pick (l : List (Nat × Nat × Bool × W32)) (tier : Nat) : Option (Nat × Nat × Nat) :=
    match l.map (·.1) with
    | [] => none
    | [v] => some (v, tier, x.vlTok)
    | vs =>
      let w := tokenFirst 5 x.vlTok vs
      some (w, tier, tokenFirst 5 (w + 1) (vs.filter (· ≠ w)))
  let best := t1.filter fun e => !t1.any fun f => dlEarlier f.2.2.2 e.2.2.2 || (f.2.2.2 == e.2.2.2 && decide (f.2.1 < e.2.1))
  match pick best 1, pick t2 2 with
  | some r, _ => some r
  | none, some r => some r
  | none, none =>
    let has (c : Nat) : Bool := cs.any fun e => e.2.1 == c
    let c := if has x.drrCls ∧ 256 ≤ Tbl.get 0 x.drrLeft x.drrCls then x.drrCls
      else (((List.range 16).map fun i => (x.drrCls + 1 + i) % 16).find? has).getD 0
    pick (cs.filter fun e => e.2.1 == c) 3

/-- Credits returned on a lane and not yet advertised (R341). -/
def unadvertised (x : PortSt) (v : Nat) : Nat := Tbl.get 0 x.returned v - Tbl.get 0 x.advert v

/-- The lane of a list with the most credits to advertise; the first on a tie. -/
def mostOwed (x : PortSt) (vs : List Nat) : Nat :=
  match vs with
  | [] => 0
  | a :: r => r.foldl (fun b v => if unadvertised x b < unadvertised x v then v else b) a

/-- The header of the next flit with this port's ack and the credits of the two lanes with most to advertise (R338, R341; which
two is a DESIGN CHOICE, log 86). -/
def linkHdr (x : PortSt) (h : FlitHdr) : FlitHdr × Tbl Nat :=
  let a := mostOwed x (List.range 6)
  let b := mostOwed x ((List.range 6).filter (· ≠ a))
  let cnt (v : Nat) : Nat := Tbl.get 0 x.returned v
  ({ h with rpl := x.rplAsk, ackV := true, ack := x.rxSeq.toNat, craVl := a, craCnt := cnt a % 256, crbVl := b, crbCnt := cnt b % 256 },
    Tbl.put 0 (Tbl.put 0 x.advert a (cnt a)) b (cnt b))

/-- A code is due to be sent. -/
def dueCode (code arg : Nat) (x : PortSt) : PortSt :=
  let b : Byte := BitVec.ofNat 8 (code * 8 + arg)
  if x.txDue.contains b then x else { x with txDue := x.txDue ++ [b] }

/-- The code is no longer due. -/
def endCode (code : Nat) (x : PortSt) : PortSt := { x with txDue := x.txDue.filter fun b => b.toNat / 8 ≠ code }

/-- The highest code due: RETRAIN_REQ, RX_LANE_FAIL, TX_SWITCHED, DEGRADE_REQ, TS_MARK (R333). -/
def highestDue (x : PortSt) : Option Byte := [5, 2, 3, 4, 6].findSome? fun c => x.txDue.find? fun b => b.toNat / 8 == c

/-- The marker of the sender's state: NORMAL once it has granted full credits, PEER_NOT_READY before (R333, R342). -/
def stateMark (x : PortSt) : Byte := if x.localReady then 0x00 else 0x08

/-- The port with the marker of the frame that begins at device time `t` (R333): a code once begun goes on for 3 frames, then
the highest code due follows; a TS_MARK that has not begun within 500 µs of its due time is skipped. -/
def pickMark (t : Nat) (x : PortSt) : PortSt :=
  let y := if (x.markDue.map fun d => decide (d.toNat + 500000 < t)).getD false then endCode 6 x else x
  let m := if 0 < x.txRun ∧ x.txRun < 3 then x.txMark else (highestDue y).getD (stateMark y)
  { y with txMark := m, txRun := if m = x.txMark then min 3 (x.txRun + 1) else 1 }

/-- The frame that begins at device time `t` is the first of a TS_MARK (R383). -/
def marksTime (t : Nat) (x : PortSt) : Bool :=
  let y := pickMark t x
  decide (x.txFrame = [] ∧ y.txMark.toNat / 8 = 6 ∧ y.txRun = 1)

/-- TIME_X payload (Table 12.7). -/
def timePayload (s : State) (k : Nat) : List Byte :=
  let x := s.getPort k
  leBytes 8 x.markTx.toNat ++ leBytes 8 x.peerMark.toNat ++ leBytes 2 x.markSeq.toNat ++ leBytes 2 x.peerSeq.toNat
    ++ leBytes 4 x.asym.toNat ++ leBytes 2 s.net.root.toNat ++ [s.net.dist, BitVec.ofNat 8 (b2n s.skt.synced + 2 * b2n s.skt.holdover)]
    ++ [0, 0, 0, 0]

/-- A frame begins: its marker is chosen; the first of a TS_MARK is stamped, and TIME_X follows the mark (R332, R333, R383). -/
def beginFrame (k : Nat) (s : State) : State :=
  let x := s.getPort k
  let s1 := s.modPort k (pickMark (now s))
  if marksTime (now s) x then
    let s2 := s1.modPort k fun x => { x with markSeq := x.markSeq + 1, markTx := stamp s }
    let s3 := { s2 with net := { s2.net with drawn := s2.net.drawn + 1 } }
    sendNbr k 2 (timePayload s3 k) s3
  else s1

/-- A frame has gone out: RETRAIN_REQ, TX_SWITCHED and TS_MARK end with their third one; DEGRADE_REQ has then been sent, and
ends once the peer's has come (R333, R350). -/
def endFrame (x : PortSt) : PortSt :=
  let c := x.txMark.toNat / 8
  let y := { x with txFrame := [] }
  if x.txRun < 3 then y
  else if c = 3 ∨ c = 5 ∨ c = 6 then { y with txDue := y.txDue.filter (· ≠ x.txMark), txRun := 0 }
  else if c = 4 then (if x.degSeen then endCode 4 { y with degSent := true } else { y with degSent := true })
  else y

/-- A flit takes its place in the frame; the fifth one completes it, and the frame goes out on the active lanes (R329). -/
def putFlit (port : Port) (f : List Byte) (s : State) : State :=
  let k := port.val
  let s1 := if (s.getPort k).txFrame = [] then beginFrame k s else s
  let s2 := s1.modPort k fun x => { x with txFrame := x.txFrame ++ [f] }
  if (s2.getPort k).txFrame.length < 5 then s2 else (send (.frame port (frameLanes (s2.getPort k))) s2).modPort k endFrame

/-- A flit with the header `h` and payload bytes goes out. -/
def emit (port : Port) (h : FlitHdr) (payload : List Byte) (s : State) : State × List Byte :=
  let (h1, adv) := linkHdr (s.getPort port.val) h
  let f := mkFlit h1 payload
  (putFlit port f (s.modPort port.val fun x => { x with advert := adv }), f)

/-- An empty header of a type. -/
def hdrOf (type vl seq : Nat) (first last : Bool) (len : Nat) : FlitHdr :=
  { type := type, vl := vl, first := first, last := last, rpl := false, ackV := false, seq := seq, ack := 0, craVl := 0
    craCnt := 0, crbVl := 0, crbCnt := 0, len := len }

/-- Full receive buffer of a lane, flits (Table 11.4). -/
def vlBuffer (vl : Nat) : Nat := if vl < 4 then 176 else if vl = 4 then 256 else 64

/-- INIT payload (Table 11.5): the first grants the management lane only, the second every lane. -/
def initPayload (s : State) (k : Nat) (second : Bool) : List Byte :=
  (List.range 6).flatMap (fun v => leBytes 2 (if second || v == 5 then vlBuffer v else 0))
    ++ leBytes 2 s.net.id.toNat ++ [BitVec.ofNat 8 k, BitVec.ofNat 8 (b2n (s.getPort k).kept)] ++ List.replicate 224 0

/-- Lanes 0 to 4 have flits waiting (R343). -/
def othersWait (x : PortSt) : Bool := (List.range 5).any fun v => Tbl.get [] x.txq v ≠ []

/-- Record whether the slot carried a management flit while other lanes had flits waiting (R343). -/
def slotUsed (b : Bool) (x : PortSt) : PortSt := { x with mgmtRun := (b :: x.mgmtRun).take 8 }

/-- A NULL flit (R337). -/
def sendNull (port : Port) (s : State) : State := (emit port (hdrOf 0 0 0 false false 0) [] s).1.modPort port.val (slotUsed false)

/-- Send the head flit of lane `vl`; its packet is counted with its first flit (Table 12.19). -/
def sendLane (port : Port) (vl tier tok : Nat) (s : State) : State :=
  let k := port.val
  let x := s.getPort k
  match Tbl.get [] x.txq vl with
  | [] => s
  | f :: rest =>
    let h0 := flitHdr f
    let lb := flitLabel x vl f
    let sh := (List.range 16).map fun c => (c, shareNow s k c)
    let shares := sh.foldl (fun t e => Tbl.put 0 t e.1 (if e.1 = lb.1 ∧ tier ≤ 2 then e.2 - 5120 else e.2)) ([] : Tbl Nat)
    let w := (Tbl.get {} s.svc.classes lb.1).portW
    -- the classes of the lanes' flits that still wait, this lane's next one among them
    let more (c : Nat) : Bool := (List.range 5).any fun v =>
      (if v = vl then rest.head? else (Tbl.get [] x.txq v).head?).any fun g => (flitLabel { x with cur := Tbl.put (0, false, 0) x.cur vl lb } v g).1 == c
    let left := drrLeftAfter (fun _ => w) x.drrLeft x.drrCls lb.1 256 more
    let (s1, g) := emit port (hdrOf 1 vl x.txSeq.toNat h0.first h0.last h0.len) ((f.drop 12).take h0.len) s
    let s2 := s1.modPort k fun x => slotUsed (vl == 5 && othersWait x) { x with
      txPkts := if h0.first then x.txPkts + 1 else x.txPkts
      nackSent := if h0.first && (Pkt.ofBytes (f.drop 12)).op == 0x83 then x.nackSent + 1 else x.nackSent
      txq := Tbl.put [] x.txq vl rest, avail := Tbl.mod 0 x.avail vl (· - 1), txSeq := x.txSeq + 1, retry := x.retry ++ [g]
      cur := Tbl.put (0, false, 0) x.cur vl lb, vlTok := tok
      txTid := if h0.last then Tbl.del vl x.txTid
        else if h0.first then Tbl.put 0 x.txTid vl (ownTid s (Pkt.ofBytes (f.drop 12))) else x.txTid }
    if vl = 5 then s2
    else
      let s3 := s2.modPort k fun x => { x with shares := shares, sharesAt := s.skt.time }
      if tier = 3 then
        (s3.modPort k fun x => { x with drrCls := lb.1, drrLeft := left }).modPart (portTower k) fun p => { p with
          surplus := Tbl.mod 0 p.surplus lb.1 (· + 1) }
      else s3

/-- FLIT_SLOT_TRANSMIT (R337, R338, R341, R343): what the transmitter sends in one slot. -/
def execFlitSlotTransmit (port : Port) (s : State) : Host.Outcome State Fault Refusal :=
  let k := port.val
  let x := s.getPort k
  if !inService x then ok s
  else
    match x.replayAt.bind fun i => (x.retry[i]?).map fun f => (i, f) with
    | some (i, f) =>
      let h := flitHdr f
      let (s1, g) := emit port (hdrOf h.type h.vl h.seq h.first h.last h.len) ((f.drop 12).take 240) s
      ok (s1.modPort k fun x => slotUsed (h.type == 1 && h.vl == 5 && othersWait x) { x with
        retry := setAt x.retry i g, replayAt := if i + 1 < x.retry.length then some (i + 1) else none })
    | none =>
      let s := s.modPort k fun x => { x with replayAt := none }
      if x.retry.length < 512 then
        match x.initDue with
        | second :: rest =>
          let pay := initPayload s k second
          let (s1, g) := emit port (hdrOf 2 0 x.txSeq.toNat false false 0) pay s
          ok (s1.modPort k fun x => slotUsed false { x with
            initDue := rest, txSeq := x.txSeq + 1, retry := x.retry ++ [g]
            limit := (List.range 6).foldl (fun t v => if second || v == 5 then Tbl.put 0 t v (vlBuffer v) else t) x.limit
            localReady := x.localReady || second
            st := if x.st = .upNotReady ∧ second ∧ x.peerReady then .up else x.st })
        | [] =>
          let turn := !(x.mgmtRun.any id) || !othersWait x
          if (sendable x 5).isSome && turn then ok (sendLane port 5 0 x.vlTok s)
          else
            match chooseLane s k with
            | some (vl, tier, tok) => ok (sendLane port vl tier tok s)
            | none => ok (sendNull port s)
      else ok (sendNull port s)

/-! ### Retrain and replay (R338, R339, R347) -/

/-- Leave service for a retrain (R339, R347): the state of the link is kept. A port that is training already goes on. -/
def leaveService (k : Nat) (s : State) : State :=
  let x := s.getPort k
  if !inService x then s
  else
    let fails := if now s - x.upFrom.toNat < 1000000000 then x.retrainFails + 1 else 1
    if 3 < fails then failPort k s
    else changePort k (fun x => outOfService { x with
      st := .retrain, retrains := x.retrains + 1, retrainFails := fails, kept := true }) (recordReplaced k s)

/-- NULL flits up to the end of a frame. -/
def fillFrame (port : Port) (s : State) : State :=
  forN 5 (fun i s => if i ≠ 0 ∧ (s.getPort port.val).txFrame = [] then s else sendNull port s) s

/-- Ask the peer for the retrain: the frames that carry RETRAIN_REQ, after those a code in hand still takes (R333). -/
def askPeerRetrain (port : Port) (s : State) : State :=
  forN 6 (fun _ s => if (s.getPort port.val).txDue.contains 0x28 then fillFrame port s else s) (s.modPort port.val (dueCode 5 0))

/-- Start a retrain for a cause of this end: RETRAIN_REQ goes out in three frames, then the port leaves service (R347). -/
def startRetrain (port : Port) (s : State) : State :=
  if inService (s.getPort port.val) then leaveService port.val (askPeerRetrain port s) else s

/-- REPLAY_START (R338, R339): a flit with RPL has come, and no replay began in the last 300 ns. The ninth request for the
same SEQ begins no replay: eight have failed, and the port retrains. -/
def execReplayStart (port : Port) (s : State) : Host.Outcome State Fault Refusal :=
  let k := port.val
  let x := s.getPort k
  if !inService x || !x.rplSeen || replayFresh (now s) x then ok s
  else
    let head : BitVec 12 := x.txSeq - BitVec.ofNat 12 x.retry.length
    let run := if x.replaySeq = head ∧ x.replayRun ≠ 0 then x.replayRun + 1 else 1
    if 8 < run then ok (startRetrain port (s.modPort k fun x => { x with rplSeen := false }))
    else
      ok (recordReplaced k (s.modPort k fun x => { x with
        rplSeen := false, replayAt := if x.retry = [] then none else some 0, replayFrom := s.skt.time, replays := x.replays + 1
        replayRun := run, replaySeq := head }))

/-- NO_DECODE_TIMEOUT (R339): no frame for 10 µs and no failed lane identified. -/
def execNoDecodeTimeout (port : Port) (s : State) : Host.Outcome State Fault Refusal :=
  let x := s.getPort port.val
  if inService x ∧ x.lostLane = none ∧ 10000 ≤ now s - x.decodeAt.toNat then ok (startRetrain port s) else ok s

/-- A retrain asked for: it waits for a replacement or width change to end (R351). `own` tells a cause of this end from the
peer's request, which needs none in return. -/
def askRetrain (port : Port) (own : Bool) (s : State) : State :=
  let x := s.getPort port.val
  if x.st = .repair ∨ x.st = .degrade then s.modPort port.val fun x => { x with retrainDue := true }
  else if own then startRetrain port s
  else leaveService port.val s

/-- RETRAIN (R347): the retrain that waited starts. -/
def execRetrain (port : Port) (s : State) : Host.Outcome State Fault Refusal :=
  let x := s.getPort port.val
  if x.retrainDue ∧ x.st ≠ .repair ∧ x.st ≠ .degrade then ok (startRetrain port s) else ok s

/-! ### Training (R345, R346, R352) -/

/-- Healthy lanes of a mask, lowest first. -/
def lanesIn (m : BitVec 9) : List Nat := (List.range 9).filter fun l => getBit m l

/-- The lane directions of a port, as INDEX of the map names them, that a repair logged and that no later entry returned (R352). -/
def loggedLanes (s : State) (k : Nat) : List Nat :=
  s.rst.repairs.foldl (fun l e =>
    if e.unit.toNat ≠ k then l
    else if e.kind = 0x0C ∨ e.kind = 0x0D then (if l.contains e.index.toNat then l else l ++ [e.index.toNat])
    else if e.kind = 0x0E then l.filter (· ≠ e.index.toNat) else l) []

/-- The eyes of lane `i` as its receiver finds them: measured outside the model, so free values (Table 11.17, log 6). -/
def measureEye (i : Nat) (s : State) : State :=
  let (k, s1) := draw s
  let v := Config.freeValue k
  s1.modLane i fun y => { y with eyeWidth := v.truncate 16, eyeHeight := (v >>> 16).truncate 16 }

/-- TRAIN_ID marker of physical lane `l`, and the lane that a marker names (Table 11.2). -/
def trainId (l : Nat) : Byte := BitVec.ofNat 8 ((0x10 + l / 8) * 8 + l % 8)
/-- The lane that a TRAIN_ID marker names. -/
def trainLane (m : Byte) : Option Nat :=
  (List.range 9).find? fun l => trainId l == m

/-- The peer's physical lane at receive lane `l`: as TRAIN_ID named it; its own number before. -/
def peerLane (x : PortSt) (l : Nat) : Nat := x.rxId.getD l l

/-- Receive lanes of a mask in the order of the peer's numbers: the two ends of a direction order its lanes alike (R325, R346). -/
def rxLanesIn (x : PortSt) (m : BitVec 9) : List Nat :=
  (List.range 9).flatMap fun n => (lanesIn m).filter fun l => peerLane x l == n

/-- Bits that a lane carries in the 10 ms of test frames, times 10⁻⁶: the most bit errors of a healthy lane (R346, Table 11.1). -/
def errorsAllowed : Nat := 2240

/-- Mask of the lanes for which `p` holds. -/
def laneMask (p : Nat → Bool) : BitVec 9 := BitVec.ofNat 9 (((List.range 9).filter p).map (2 ^ ·)).sum

/-- Lanes whose count of bit errors lets them enter service. -/
def fewErrors (l : List Nat) : BitVec 9 := laneMask fun i => decide (i < l.length ∧ l.getD i 0 ≤ errorsAllowed)

/-- Event 5: the healthy lanes, the width and the lanes that become logical ones (R346); too few of them fail the port. -/
def verifyLanes (k : Nat) (errTx errRx : List Nat) (s : State) : State :=
  let x := s.getPort k
  let tx := x.okTx &&& fewErrors errTx &&& ~~~x.failTx
  let rx := x.okRx &&& fewErrors errRx &&& ~~~x.failRx
  let nt := (lanesIn tx).length
  let nr := (lanesIn rx).length
  if nt < 4 ∨ nr < 4 then failPort k s
  else
    let w := if 8 ≤ nt ∧ 8 ≤ nr then 8 else 4
    s.modPort k fun x => { x with
      trainStep := 5, okTx := tx, okRx := rx, width := BitVec.ofNat 4 w, mapTx := (lanesIn tx).take w, mapRx := (rxLanesIn x rx).take w }

/-- Events 6 and 7: the port is in service with its first INIT due; the lanes that a repair logged and that passed return, and
the return is logged (R345, R346, R352). After a kept retrain an unsent second INIT stays due. -/
def enterService (k : Nat) (asym micros : W32) (s : State) : State :=
  let x := s.getPort k
  let s1 := changePort k (fun z =>
    let z := if z.kept then z else freshLink z
    { z with
      st := .upNotReady, trainStep := 0, spareTx := false, spareRx := false, asym := asym, trainTime := micros, upFrom := s.skt.time
      decodeAt := s.skt.time, failRun := 0, markRun := 0, initWait := true
      initDue := (z.kept && z.localReady) :: (if z.kept && !z.localReady then z.initDue.filter id else []) }) s
  let back := if x.kept then [] else (loggedLanes s k).filter fun i =>
    if i < 16 then getBit x.okTx i else getBit x.okRx (i - 16)
  forL (lanesIn x.okRx) (fun l s => measureEye (9 * k + l) s) (forL back (fun i s => addRepair 0x0E k i 0xFF s) s1)

/-- PORT_TRAINING (R345, R346, R352): one event of Table 11.6 ends with what it found. The peer is present when beacons are
seen on 4 lanes, which it sends while it is in detection. In event 4 the port sends its TRAIN_ID markers and reads the peer's; a
lane without one has no place. -/
def execPortTraining (port : Port) (x : TrainStage) (s : State) : Host.Outcome State Fault Refusal :=
  let k := port.val
  let y := s.getPort k
  if !portPresent s k || !s.skt.pllLocked || (y.st ≠ .detect && y.st ≠ .train && y.st ≠ .retrain) then ok s
  else
    match x with
    | .detect seen =>
      if y.trainStep = 0 ∧ 4 ≤ (lanesIn seen).length then
        ok (s.modPort k fun y => { y with trainStep := 1, st := if y.st = .detect then .train else y.st })
      else ok s
    | .lock tx rx => if y.trainStep = 1 then ok (s.modPort k fun y => { y with trainStep := 2, okTx := tx, okRx := rx }) else ok s
    | .equalise tx rx =>
      if y.trainStep = 2 then ok (s.modPort k fun y => { y with trainStep := 3, okTx := y.okTx &&& tx, okRx := y.okRx &&& rx }) else ok s
    | .order markers flip =>
      if y.trainStep = 3 then
        let ids := (List.range 9).map fun l => (markers[l]?).bind trainLane
        ok (send (.frame port ((List.range 9).map fun l => [trainId l])) (s.modPort k fun y => { y with
          trainStep := 4, rxId := ids.map fun i => i.getD 15, rxFlip := flip
          okRx := y.okRx &&& laneMask fun l => (ids.getD l none).isSome }))
      else ok s
    | .verify errTx errRx => if y.trainStep = 4 then ok (verifyLanes k errTx errRx s) else ok s
    | .timing asym micros => if y.trainStep = 5 then ok (enterService k asym micros s) else ok s

/-- The peer's id and port that R357 gives for port `k`; none in a dimension of size 1. -/
def wantedPeer (s : State) (k : Nat) : Option (Nat × Nat) :=
  let d := k / 2
  let n := dimSize s d
  if n = 1 then none
  else
    let c := coord s.net.id.toNat d
    let c' := if k % 2 = 0 then (c + 1) % n else (c + n - 1) % n
    let sh := if d = 0 then 11 else if d = 1 then 6 else 0
    some (s.net.id.toNat - c * 2 ^ sh + c' * 2 ^ sh, if k % 2 = 0 then k + 1 else k - 1)

/-- Compare the peer of a port with the cabling (R358), once the device knows its place and its torus. -/
def checkWiring (k : Nat) (s : State) : State :=
  let x := s.getPort k
  if !s.net.idValid || !s.net.placed || x.peerPort = 0xF then s
  else
    let good := wantedPeer s k == some (x.peerId.toNat, x.peerPort.toNat)
    let s1 := changePort k (fun x => { x with miswired := !good, initDue := if good then x.initDue else x.initDue.filter (!·) }) s
    if good || x.miswired then s1 else raiseEvent 7 (notifyMgmt 7 s1)

/-- A 16-bit field of an INIT payload. -/
def initField (b : List Byte) (o : Nat) : Nat := ofLe ((b.drop o).take 2)

/-- INIT_RECEIVE (R342, R346, R358). The first one since training settles whether the state is kept: with KEPT at 1 from both
ends the credits stand; this end's 1 against the peer's 0 starts the link again; this end's 0 against the peer's 1 leaves the
grants to the INIT that the peer then sends afresh. -/
def execInitReceive (port : Port) (payload : List Byte) (s : State) : Host.Outcome State Fault Refusal :=
  let k := port.val
  let x := s.getPort k
  if !inService x then ok s
  else
    let g (v : Nat) : Nat := initField payload (2 * v)
    let second := (List.range 5).any fun v => g v != 0
    let keptPeer := bit (payload.getD 0xF 0).toNat 0
    let ids (x : PortSt) : PortSt := { x with
      peerId := BitVec.ofNat 16 (initField payload 0xC), peerPort := BitVec.ofNat 4 (payload.getD 0xE 0).toNat }
    if x.initWait ∧ x.kept ∧ keptPeer then ok (s.modPort k fun x => { ids x with st := serviceState x, initWait := false })
    else if x.initWait ∧ keptPeer then ok (s.modPort k ids)
    else
      let s1 := if x.initWait ∧ x.kept then s.modPort k fun x => { restartLink x with rxSeq := 1 } else s
      let s2 := s1.modPort k fun x =>
        let y := { ids x with initWait := false }
        if second then
          let z := { y with peerReady := true, avail := (List.range 5).foldl (fun t v => Tbl.mod 0 t v (· + g v)) y.avail }
          { z with st := if z.st = .upNotReady then serviceState z else z.st }
        else { y with avail := Tbl.put 0 [] 5 (g 5), peerReady := false }
      let s3 := if second then checkWiring k s2 else sendHello k (checkWiring k s2)
      -- a peer whose first INIT follows READY is granted full credits at once, unless it is miswired
      let y := s3.getPort k
      if !second ∧ (s3.bru.ready ∨ s3.bru.stage = 14) ∧ !y.miswired ∧ !y.localReady ∧ !y.initDue.contains true then
        ok (s3.modPort k fun x => { x with initDue := x.initDue ++ [true] })
      else ok s3

/-! ### Markers, failed lanes, width (R332, R333, R348 to R351) -/

/-- Spare lanes of a direction, by the number that the transmitter gives them: healthy, not failed, not mapped. -/
def spares (s : State) (k : Nat) (rx : Bool) : List Nat :=
  let x := s.getPort k
  let ls := if rx then rxLanesIn x (x.okRx &&& ~~~x.failRx) else lanesIn (x.okTx &&& ~~~x.failTx)
  let used := if rx then x.mapRx else x.mapTx
  ls.filter fun l => !used.contains l && (rx || (x.txNote.map (·.1)) ≠ some l)

/-- The lane is in its retune, which lasts at most 10 µs (R348). -/
def inRetune (s : State) (i : Nat) : Bool := (s.getLane i).tuning && decide (now s ≤ (s.getLane i).tuneAt.toNat + 10000)

/-- Standby lanes of a direction: spares that are not in their retune. -/
def standby (s : State) (k : Nat) (rx : Bool) : List Nat := (spares s k rx).filter fun l => !inRetune s (9 * k + l)

/-- Ask for width 4 (R350). A transmit lane that the peer reported lost and that has no spare stays failed: the change serves
both directions (R351). -/
def askDegrade (x : PortSt) : PortSt :=
  let lost := (x.txLost.bind fun l => x.mapTx[l]?)
  dueCode 4 0 { endCode 2 x with
    st := .degrade, lostLane := none, switched := false, txLost := none
    failTx := match lost with | some ph => setBit x.failTx ph true | none => x.failTx }

/-- Symbol errors in 10 ms above which a lane fails: 10⁻⁵ of the 278,333,333 code symbols that it carries (R329, R348;
DEDUCED, log 86). -/
def errorLimit : Nat := 2783

/-- A failure of receive lane `ph` is identified (R348): without signal or lock, with 4 uncorrectable frames in succession; or
too many located symbol errors in the last 10 ms while frames still decode. -/
def laneFailed (s : State) (k ph : Nat) : Bool :=
  let x := s.getPort k
  (getBit x.dark ph && decide (4 ≤ x.failRun))
    || (decide (x.failRun = 0) && decide (errorLimit < (recentErrors (now s) (s.getLane (9 * k + ph))).length))

/-- LANE_FAIL (R348 to R351): RX_LANE_FAIL where a spare lane is left, be it in its retune, else DEGRADE_REQ. -/
def execLaneFail (port : Port) (logical : Fin 8) (s : State) : Host.Outcome State Fault Refusal :=
  let k := port.val
  let x := s.getPort k
  let l := if x.width = 4 then logical.val % 4 else logical.val
  if !inService x then ok s
  else
    match x.mapRx[l]? with
    | none => ok s
    | some ph =>
      if !laneFailed s k ph then ok s
      else
        let s1 := s.modPort k fun x => { x with failRx := setBit x.failRx ph true }
        let y := s1.getPort k
        if (lanesIn (y.okRx &&& ~~~y.failRx)).length < 4 then ok (failPort k s1)
        else if y.st = .degrade ∨ y.lostLane = some l then ok s1
        else if y.lostLane.isSome ∨ (spares s1 k true).isEmpty then ok (s1.modPort k askDegrade)
        else ok (s1.modPort k fun x => dueCode 2 l { x with lostLane := some l, switched := false, st := .repair })

/-- The port goes back to carrying flits. -/
def repaired (x : PortSt) : PortSt :=
  { x with st := if x.lostLane.isSome ∨ x.txLost.isSome then x.st else serviceState x, repairs := x.repairs + 1 }

/-- LANE_REPLACE (Table 11.7): the transmitter moves a logical lane to the lowest standby lane at a frame boundary and sends
TX_SWITCHED; the receiver, once TX_SWITCHED has come, maps its spare. A spare in its retune is waited for (R349). -/
def execLaneReplace (port : Port) (rx : Bool) (logical : Fin 8) (s : State) : Host.Outcome State Fault Refusal :=
  let k := port.val
  let x := s.getPort k
  let l := logical.val
  if x.st ≠ .repair ∨ (if rx then x.lostLane else x.txLost) ≠ some l ∨ (if rx then x.switched = false else x.txFrame ≠ []) then ok s
  else
    match standby s k rx with
    | [] => if (spares s k rx).isEmpty then ok (s.modPort k askDegrade) else ok s
    | sp :: _ =>
      if rx then
        let old := x.mapRx.getD l 15
        let s1 := s.modPort k fun x => repaired (endCode 2 { x with
          mapRx := setAt x.mapRx l sp, spareRx := true, lostLane := none, switched := false, failRun := 0, decodeAt := s.skt.time, rplAsk := true })
        ok (raiseEvent 7 (notifyMgmt 7 (addRepair 0x0C k (16 + old) sp s1)))
      else
        let old := x.mapTx.getD l 15
        ok (s.modPort k fun x => repaired (dueCode 3 l { x with
          mapTx := setAt x.mapTx l sp, spareTx := true, txLost := none, txNote := some (old, sp) }))

/-- The failed lane directions of a port that the map does not hold yet, as INDEX names them. -/
def unloggedLanes (s : State) (k : Nat) : List Nat :=
  let x := s.getPort k
  ((lanesIn x.failTx) ++ (lanesIn x.failRx).map (16 + ·)).filter fun i => !(loggedLanes s k).contains i

/-- WIDTH_DEGRADE (R350): both codes have been sent and received, and a frame has ended; each direction keeps its four
lowest-numbered healthy lanes. One entry is logged for each lane direction lost (DESIGN CHOICE, log 86). -/
def execWidthDegrade (port : Port) (s : State) : Host.Outcome State Fault Refusal :=
  let k := port.val
  let x := s.getPort k
  if x.st ≠ .degrade ∨ !x.degSent ∨ !x.degSeen ∨ x.txFrame ≠ [] then ok s
  else
    let s0 := recordReplaced k s
    let y := s0.getPort k
    let tx := lanesIn (y.okTx &&& ~~~y.failTx)
    let rx := rxLanesIn y (y.okRx &&& ~~~y.failRx)
    if tx.length < 4 ∨ rx.length < 4 then ok (failPort k s0)
    else
      let s1 := s0.modPort k fun x => repaired (endCode 4 { x with
        width := 4, mapTx := tx.take 4, mapRx := rx.take 4, degSent := false, degSeen := false, failRun := 0, decodeAt := s.skt.time, rplAsk := true })
      ok (raiseEvent 7 (forL (unloggedLanes s0 k) (fun i s => addRepair 0x0D k i 0xFF s) s1))

/-- STANDBY_RETUNE (R348): a spare lane enters its retune, 100 ms after the last one began, or comes back from it. -/
def execStandbyRetune (port : Port) (lane : Fin 9) (s : State) : Host.Outcome State Fault Refusal :=
  let i := 9 * port.val + lane.val
  let x := s.getPort port.val
  let y := s.getLane i
  if y.tuning then ok (measureEye i (s.modLane i fun y => { y with tuning := false }))
  else if inService x && (getBit x.okTx lane.val || getBit x.okRx lane.val) && !x.mapTx.contains lane.val && !x.mapRx.contains lane.val
      && (y.tuneAt == 0 || decide (y.tuneAt.toNat + 100000000 ≤ now s)) then
    ok (s.modLane i fun y => { y with tuning := true, tuneAt := s.skt.time })
  else ok s

/-- RX_LANE_FAIL for logical lane `arg` has come (R349 to R351): the lane is replaced; with no spare left, or with another
replacement of the direction in hand, it stays failed and the port asks for width 4. -/
def peerLost (k arg : Nat) (s : State) : State :=
  let x := s.getPort k
  let l := if x.width = 4 then arg % 4 else arg
  if x.st = .degrade ∨ x.txLost = some l then s
  else if x.txLost.isSome ∨ (spares s k false).isEmpty then
    s.modPort k fun x => askDegrade { x with
      failTx := match x.mapTx[l]? with | some ph => setBit x.failTx ph true | none => x.failTx }
  else s.modPort k fun x => { x with txLost := some l, st := .repair }

/-- MARKER_CODE_ACCEPT (R332, R333): three frames in a row have carried the code. -/
def execMarkerCodeAccept (port : Port) (s : State) : Host.Outcome State Fault Refusal :=
  let k := port.val
  let x := s.getPort k
  if !inService x || decide (x.markRun < 3) then ok s
  else
    let code := x.mark.toNat / 8
    let arg := x.mark.toNat % 8
    let s1 := s.modPort k fun x => { x with markRun := 0 }
    if code = 1 then ok (s1.modPort k fun x => { x with rxState := false })
    else if code = 2 then ok (peerLost k arg s1)
    else if code = 3 then
      ok (s1.modPort k fun x => endCode 2 { x with switched := x.switched || x.lostLane == some (if x.width = 4 then arg % 4 else arg) })
    else if code = 4 then
      ok (s1.modPort k fun x =>
        let y := { (if x.st = .degrade then x else askDegrade x) with degSeen := true }
        if y.degSent then endCode 4 y else y)
    else if code = 5 then ok (askRetrain port false s1)
    else if code = 6 then ok (s1.modPort k fun x => { x with heard := some x.markAt })
    else ok (s1.modPort k fun x => { x with rxState := true })

/-! ### ABF_LINK_CTRL (Table 11.11) -/

/-- A write of ABF_LINK_CTRL by requester `r` (R355). -/
def linkCtrl (r : Nat) (port : Port) (val : Nat) (s : State) : State :=
  let k := port.val
  let v := val % 8
  let x := s.getPort k
  if r ≠ 1 || !portPresent s k then s
  else if v = 4 then
    if x.st = .off ∨ x.st = .failed then
      changePort k (fun x => outOfService { freshLink x with st := .detect, retrainFails := 0 }) s
    else s
  else if v = 2 then
    changePort k (fun x => outOfService { x with
      st := .off, width := 0, mapTx := [], mapRx := [], okTx := 0, okRx := 0, spareTx := false, spareRx := false }) (recordReplaced k s)
  else if v = 1 then askRetrain port true s
  else if v = 0 then s
  else countRegErr r 7 0x104 (some (portTower k)) s

/-- LINK_ENABLE (R347). -/
def execLinkEnable (r : Req) (port : Port) (s : State) : Host.Outcome State Fault Refusal := ok (linkCtrl r.val port 4 s)
/-- LINK_DISABLE. -/
def execLinkDisable (r : Req) (port : Port) (s : State) : Host.Outcome State Fault Refusal := ok (linkCtrl r.val port 2 s)
/-- LINK_RETRAIN (R347). -/
def execLinkRetrain (r : Req) (port : Port) (s : State) : Host.Outcome State Fault Refusal := ok (linkCtrl r.val port 1 s)

end Sys2Proof.Machine
end

