-- ==== Sys2Proof/Machine/CollBase.lean ====
section
/-! DEFINITION. A collective's descriptor, its dimensions and regions, the packets of its engine, and its end
(R376 to R379, R382). -/

namespace Sys2Proof.Machine
open Sys2Proof

def cOp (w : Line) : Nat := lf w 0 3 0
def cRedOp (w : Line) : Nat := lf w 0 5 4
def cRedType (w : Line) : Nat := lf w 0 7 6
def cDims (w : Line) : Nat := lf w 0 10 8
def cSyncEn (w : Line) : Bool := bit (lw w 0).toNat 11
def cClass (w : Line) : Nat := lf w 0 15 12
def cCtx (w : Line) : Nat := lf w 0 21 16
def cSyncId (w : Line) : Nat := lf w 0 43 32
def cId (w : Line) : Nat := lf w 0 59 44
def cBuf (w : Line) : Nat := lf w 1 47 0
def cBytes (w : Line) : Nat := lf w 2 39 0
def cDeadline (w : Line) : Nat := (lw w 3).toNat
def cTimeout (w : Line) : Nat := lf w 4 15 0

/-- Dimensions named in DIMS, X first. -/
def cDimList (w : Line) : List Nat := (List.range 3).filter fun d => bit (cDims w) d

/-- The descriptor passes the checks of R377. -/
def collOk (s : State) (w : Line) : Bool :=
  let p := ((cDimList w).map (dimSize s)).foldl (· * ·) 1
  decide (1 ≤ cOp w ∧ cOp w ≤ 3) && (cOp w == 3 || (decide (cRedOp w ≤ 2) && decide (cRedType w ≤ 2)))
    && cDims w != 0 && (cDimList w).all (fun d => portPresent s (2 * d) && portPresent s (2 * d + 1))
    && cBytes w != 0 && cBytes w % (512 * p) == 0 && cBuf w % 256 == 0 && cTimeout w != 0
    && lf w 0 31 22 == 0 && lf w 0 63 60 == 0 && lf w 1 63 48 == 0 && lf w 2 63 40 == 0 && lf w 4 63 16 == 0
    && lw w 5 == 0 && lw w 6 == 0 && lw w 7 == 0

/-- A dimension of the collective: its number and whether it is in the all-gather part; dimensions of size 1 are
skipped (R379). -/
def collPhases (s : State) (w : Line) : List (Nat × Bool) :=
  let ds := (cDimList w).filter fun d => dimSize s d != 1
  (if cOp w = 3 then [] else ds.map fun d => (d, false)) ++ (if cOp w = 2 then [] else ds.reverse.map fun d => (d, true))

/-- Region of a half that the dimension `d` splits: base and length in the half (R379). -/
def collRegion (s : State) (w : Line) (d : Nat) : Nat × Nat :=
  ((cDimList w).takeWhile (· ≠ d)).foldl (fun r e =>
    let n := r.2 / dimSize s e
    (r.1 + coord s.net.id.toNat e * n, n)) (0, cBytes w / 2)

/-- The ports of this device that run the collective's rings: the even port of a dimension sends the + ring. -/
def collPorts (s : State) (w : Line) : List Nat :=
  ((cDimList w).filter fun d => dimSize s d != 1).flatMap fun d => [2 * d, 2 * d + 1]

/-- The neighbour across port `k`. -/
def neighbour (s : State) (k : Nat) : Nat := match wantedPeer s k with | some (i, _) => i | none => s.net.id.toNat

/-- The collective engine of port `k`. -/
def collAgent (k : Nat) : Agent := .coll ⟨k % 6, Nat.mod_lt _ (by omega)⟩

/-- Label of a collective: its class, and its deadline where it has one (R279, R381). -/
def collLabel (w : Line) : Label :=
  let rt := decide (cDeadline w ≠ 0)
  (cClass w, rt, if rt then BitVec.ofNat 32 (cDeadline w / 256) else 0)

/-- Issue a COLL request on port `k` (R362, R381): `arg` 0 READY, 1 CHUNK, 2 CANCEL. The answer is the state and
the full TID, or none where no entry is free or the port is broken. -/
def collIssue (k arg : Nat) (w : Line) (round addr : Nat) (payload : List Byte) (s : State) : Option (State × Nat) :=
  let t := portTower k
  match freeTid s t with
  | none => none
  | some n =>
    if portBroken s k then none
    else
      let rt := decide (cDeadline w ≠ 0)
      let tid := t * 0x4000 + n
      let p : Pkt := { op := 7, flags := pktFlags (cClass w) rt false, dl := if rt then BitVec.ofNat 32 (cDeadline w / 256) else 0
                       dst := BitVec.ofNat 16 (neighbour s k), src := s.net.id, tid := BitVec.ofNat 16 tid, status := 0
                       arg := BitVec.ofNat 8 arg, addr := BitVec.ofNat 64 addr
                       aux := BitVec.ofNat 64 (cId w + round * 2 ^ 16 + k * 2 ^ 32), payload := payload }
      let s1 := enqueuePkt k (hopVl s p k none) true p s
      let who : Agent := .coll ⟨k % 6, Nat.mod_lt _ (by omega)⟩
      let e : TidEnt := { pkt := p, who := who, first := s.skt.time, last := s.skt.time, wait := 0, until_ := 0
                          gen := agentGen s who, port := some ⟨k % 6, Nat.mod_lt _ (by omega)⟩, dead := none }
      some ({ s1 with net := { s1.net with tids := Tbl.put [] s1.net.tids t (Tbl.ins n e (Tbl.get [] s1.net.tids t)) } }, tid)

/-- Issue a COLL request without payload for engine `k` on port `p`: READY is kept among the packets not yet acknowledged; where
no entry is free the packet stays owed (R372, R378, R382). -/
def collPost1 (k p arg : Nat) (w : Line) (s : State) : State :=
  match collIssue p arg w 0 0 [] s with
  | some (s1, tid) =>
    if arg = 0 then s1.modPort k fun x => { x with collNow := x.collNow.map fun c => { c with out := c.out ++ [tid] } } else s1
  | none => if portBroken s p then s else s.modPort k fun x => { x with collOwed := x.collOwed ++ [(p, arg, w)] }

/-- Send what engine `k` still owes. -/
def collPayOwed (k : Nat) (s : State) : State :=
  if (s.getPort k).collOwed = [] then s
  else forL (s.getPort k).collOwed (fun e s => collPost1 k e.1 e.2.1 e.2.2 s) (s.modPort k fun x => { x with collOwed := [] })

/-- Signal SYNC_ID by 1 (R382). An object whose partition resets is signalled later, until the retry limit has passed since
time `from_` (R374, R429). -/
def collSignal (k id : Nat) (from_ : W64) (s : State) : State :=
  match synSignal id 13 1 s with
  | .done s1 _ _ => s1
  | .bus => s
  | .resetting =>
    if now s < from_.toNat + retryLimitNs s then s.modPort k fun x => { x with collSig := some (id, from_) } else s

/-- What a collective of descriptor `w`, posted by `part`, leaves behind at engine `k` as it ends with `code` (R382): only OK
signals; any other end cancels the neighbours and tells the posting controller. READYs for it are stale. -/
def collLeave (k code : Nat) (w : Line) (part : Tower) (s : State) : State :=
  let s0 := forL (collPorts s w) (fun p s => s.modPort p fun x => { x with collReady := x.collReady.filter (· ≠ cId w) }) s
  let s1 := s0.modPort k fun x => { x with
    collId := BitVec.ofNat 16 (cId w), collCode := BitVec.ofNat 8 code, collDone := if code = 0 then x.collDone + 1 else x.collDone }
  if code = 0 then (if cSyncEn w then collSignal k (cSyncId w) s.skt.time s1 else s1)
  else
    let s2 := if code = 1 then s1 else forL (collPorts s w) (fun p s => collPost1 k p 2 w s) s1
    send (.collEnd part (BitVec.ofNat 16 (cId w)) (BitVec.ofNat 8 code)) s2

/-- STATE of an engine with no collective: ENDING while a packet or a signal of the last one is owed (Table 12.21). -/
def collRest (x : PortSt) : PortSt := { x with coll := if x.collOwed.isEmpty && x.collSig.isNone then .idle else .ending }

/-- The collective of engine `k` ends with `code`. READYs that it still owed are dropped. -/
def collEnd (k code : Nat) (s : State) : State :=
  match (s.getPort k).collNow with
  | none => s
  | some c =>
    (collLeave k code c.desc c.part (s.modPort k fun x => { x with
      collNow := none, collOwed := x.collOwed.filter fun e => e.2.1 ≠ 0 })).modPort k collRest

/-- The engine whose collective has the packet `tid` outstanding. -/
def collOfTid (s : State) (tid : Nat) : Option Nat :=
  (List.range 6).find? fun k => match (s.getPort k).collNow with
    | some c => c.out.contains tid
    | none => false

/-- A packet of a collective was acknowledged. -/
def collAcked (tid : Nat) (s : State) : State :=
  match collOfTid s tid with
  | none => s
  | some k => s.modPort k fun x => { x with collNow := x.collNow.map fun c => { c with out := c.out.filter (· ≠ tid) } }

/-- A packet of a collective met a final error or was given up (R382). -/
def collFail (tid : Nat) (s : State) : State :=
  match collOfTid s tid with
  | none => s
  | some k => collEnd k 3 s

end Sys2Proof.Machine
end

