-- ==== Sys2Proof/Machine/Network.lean ====
section
/-! DEFINITION. The fabric between packets and homes: forwarding, the requests a target performs and their
records, the endpoint's handling of responses and retries, and the management queue with its hellos and link
notices (R354, R359 to R375, R386, R387, R427). -/

namespace Sys2Proof.Machine
open Sys2Proof

/-! ### Forwarding (R359, R364 to R368) -/

/-- A reserved bit of the header is set, or the operation is not one of Table 12.2 (R359). -/
def badHeader (p : Pkt) : Bool :=
  let o := p.op.toNat
  let a := p.arg.toNat
  let x := p.aux.toNat
  bit p.flags.toNat 7 || decide (2 ^ 40 ≤ p.addr.toNat) || decide (4096 < p.payload.length)
    || (if p.isResp then false
        else p.status != 0 ||
          (if o = 1 then a != 0 || x != 0
           else if o = 2 then a != 0 || decide (2 ^ 13 ≤ x)
           else if o = 3 then x != 0
           else if o = 4 then decide (16 ≤ a) || x != 0
           else if o = 5 then decide (4 ≤ a) || decide (2 ^ 12 ≤ x)
           else if o = 6 then a != 0 || x != 0
           else if o = 7 then decide (3 ≤ a) || decide (2 ^ 36 ≤ x)
           else if o = 8 then x != 0
           else true))

/-- Tower from which a packet moves inside the device (R368): that of the port it came in on; of a packet of this device, the
requesting tower that TID names. -/
def originTower (inp : Option Nat) (p : Pkt) : Nat := match inp with | some k => portTower k | none => p.tid.toNat / 0x4000

/-- Tower to which a packet that came in on port `k` moves. -/
def hopTower (s : State) (k : Nat) (p : Pkt) : Nat :=
  match (if p.nbr then .here else route s (some k) p.dst.toNat) with
  | .here => deliveryTower s p
  | .noRoute => portTower k
  | .port e _ => portTower e

/-- The seam direction that such a packet crosses first. -/
def firstSeam (s : State) (k : Nat) (p : Pkt) : Option Nat := (seamPath (portTower k) (hopTower s k p)).head?.map seamIx

/-- A packet moves from the tower of its origin to tower `b`: one that came in on a port was served by the first arbiter on its way
when it was taken. -/
def crossFrom (inp : Option Nat) (b : Nat) (p : Pkt) (s : State) : State :=
  let a := originTower inp p
  if inp.isSome then crossRest (seamPath a b) p.label p.bytes.length s else crossSeams a b p s

/-- Forward a packet that came in on `inp` on lane `vl`. -/
def forward (inp : Option Nat) (vl : Nat) (p : Pkt) (s : State) : State :=
  let go : Route := if p.nbr && inp.isSome then .here else route s inp p.dst.toNat
  match go with
  | .here => deliver vl p (crossFrom inp (deliveryTower s p) p s)
  | .noRoute => if p.isResp || p.op == 8 then s else respNack p 0x12 s
  | .port k e =>
    let cur := match inp with
      | some i => if i / 2 = k / 2 then some vl else none
      | none => none
    let s1 := match inp with
      | some i => s.modPort i fun x => { x with transit := x.transit + 1 }
      | none => s
    enqueuePkt k (hopVl s p k cur) e p (crossFrom inp (portTower k) p s1)

/-- The whole packets at the heads of the receive lanes of tower `t`'s ports that may be taken, as a transit router sees them: port,
lane, packet. One whose flits would stand 128 or more unadvertised waits (R341). -/
def headsOf (s : State) (t : Nat) : List (Nat × Nat × Pkt) :=
  ((List.range 6).filter fun k => portTower k = t).flatMap fun k =>
    (List.range 6).filterMap fun v =>
      let fs := headFlits (Tbl.get [] (s.getPort k).rxq v)
      if fs = [] ∨ 128 ≤ unadvertised (s.getPort k) v + fs.length then none else some (k, v, flitsPkt fs)

/-- A waiting packet as a candidate: its input is its port, and of one port the lower lane goes first (DESIGN CHOICE, log 84). -/
def pktCand (e : Nat × Nat × Pkt) : Cand := Label.cand e.2.2.label e.1 e.2.2.bytes.length

/-- The arbiter that stands first on the way of the packet at the head of port `k`'s lane `vl` serves one of the packets that wait
for it: the seam direction that they cross first, or the transit router where they stay in the tower (Table 2.10, R285). The state
where that is this packet, none where it is another. -/
def routeTurn (s : State) (k vl : Nat) (p : Pkt) : Option State :=
  let t := portTower k
  let way := firstSeam s k p
  let cs := (headsOf s t).filter fun e => firstSeam s e.1 e.2.2 == way
  let r := match way with
    | some x => seamServe x (cs.map pktCand) s
    | none => routerServe t (cs.map pktCand) s
  r.bind fun r => if cs.find? (fun e => pktCand e = r.1) = some (k, vl, p) then some r.2 else none

/-- PACKET_ROUTE (R359, R364 to R368): the packet at the head of a receive lane, or one of this device's own, is
forwarded, delivered, or answered NO_ROUTE. Its flits leave the buffer and their credits return; it waits where 128 of them
would stand unadvertised (R341), and while another packet goes before it (R285). -/
def execPacketRoute (inPort : Option Port) (vl : Fin 6) (pkt : Pkt) (s : State) : Host.Outcome State Fault Refusal :=
  match inPort with
  | none => ok (forward none vl.val pkt s)
  | some port =>
    let k := port.val
    let q := Tbl.get [] (s.getPort k).rxq vl.val
    let fs := headFlits q
    if fs = [] ∨ flitsPkt fs ≠ pkt ∨ 128 ≤ unadvertised (s.getPort k) vl.val + fs.length then ok s
    else
      match routeTurn s k vl.val pkt with
      | none => ok s
      | some s0 =>
      let s1 := s0.modPort k fun x => { x with
        rxq := Tbl.put [] x.rxq vl.val (q.drop fs.length), returned := Tbl.mod 0 x.returned vl.val (· + fs.length)
        rxPkts := x.rxPkts + 1, nackRcvd := if pkt.op = 0x83 then x.nackRcvd + 1 else x.nackRcvd }
      if badHeader pkt then
        let s2 := s1.modPort k fun x => { x with hdrErr := true }
        ok (if pkt.isResp || pkt.op == 8 then s2 else respNack pkt 0x10 s2)
      else ok (forward (some k) vl.val pkt s1)

/-! ### At the target (R361, R369 to R371) -/

/-- The packet leaves the list of delivered ones. -/
def undeliver (vl : Nat) (p : Pkt) (s : State) : State :=
  { s with net := { s.net with inbox := dropFirst (fun e => decide (e = (vl, p))) s.net.inbox } }

/-- The requester of a packet as an agent. -/
def pktAgent (vl : Fin 6) (p : Pkt) : Agent := .remote p.src vl p.tid

/-- Answer a request whose access met an error (R369, Table 12.5). -/
def respErr (e : PhysErr) (q : Pkt) (s : State) : State :=
  match e with
  | .resetting => respNack q 1 s
  | .held => respNack q 2 s
  | _ => respNack q 0x10 s

/-- The checks before a request is performed: the operation, the rule of its address, the target's presence and
its partition, and the response record of a kept kind (R361, R369 to R371). -/
def atTarget (op : Nat) (kept : Bool) (vl : Fin 6) (q : Pkt) (okAddr : Bool) (run : Nat → State → State) (s0 : State) : State :=
  let s := undeliver vl.val q s0
  if q.op.toNat ≠ op then s0
  else
    match targetTower s q.addr.toNat with
    | none => respNack q 0x10 s
    | some t =>
      match (if kept && q.retry then findRecord s t q else none) with
      | some r => (sendFrom t r.resp s).1
      | none =>
        if !okAddr || badHeader q then respNack q 0x10 s
        else if targetResetting s q.addr.toNat then respNack q 1 s
        else if kept && !recordRoom s t then respNack q 3 s
        else run t s

/-- The range lies in one 4 KiB block (R361). -/
def inBlock (a n : Nat) : Bool := decide (0 < n ∧ n ≤ 4096 ∧ a % 4096 + n ≤ 4096)

/-- FABRIC_PUT (R361, R369). -/
def execFabricPut (vl : Fin 6) (pkt : Pkt) (s : State) : Host.Outcome State Fault Refusal :=
  ok (atTarget 1 false vl pkt (inBlock pkt.addr.toNat pkt.payload.length) (fun _ s =>
    match physWrite (pktAgent vl pkt) pkt.addr.toNat pkt.payload pkt.label s with
    | (s1, none) => respAck pkt s1
    | (s1, some e) => respErr e pkt s1) s)

/-- FABRIC_GET (R361, R369). -/
def execFabricGet (vl : Fin 6) (pkt : Pkt) (s : State) : Host.Outcome State Fault Refusal :=
  ok (atTarget 2 false vl pkt (inBlock pkt.addr.toNat pkt.aux.toNat) (fun _ s =>
    match physRead (pktAgent vl pkt) pkt.addr.toNat pkt.aux.toNat pkt.label s with
    | (s1, none, bs, poison) => if poison then respNack pkt 0x10 s1 else respData pkt bs s1
    | (s1, some e, _, _) => respErr e pkt s1) s)

/-- FABRIC_ATOMIC (R361, R369, R371). -/
def execFabricAtomic (vl : Fin 6) (pkt : Pkt) (s : State) : Host.Outcome State Fault Refusal :=
  let aop := bits pkt.arg.toNat 3 0
  let ty := bits pkt.arg.toNat 6 4
  let ret := bit pkt.arg.toNat 7
  let good := atomAllowed ret aop ty && decide (pkt.addr.toNat % atomSize ty = 0 ∧ pkt.payload.length = 16)
  let op : HomeOp := .atomic { aop := BitVec.ofNat 4 aop, ty := BitVec.ofNat 3 ty }
    (BitVec.ofNat 64 (ofLe (pkt.payload.take 8))) (BitVec.ofNat 64 (ofLe (pkt.payload.drop 8)))
  ok (atTarget 3 true vl pkt good (fun t s =>
    match physOp (pktAgent vl pkt) pkt.addr.toNat pkt.label op s with
    | (s1, none, old) =>
      respondRec t pkt (if ret then respPkt pkt 0x82 0 (leBytes 8 (ofLe old)) else respPkt pkt 0x81 0 []) s1
    | (s1, some e, _) => respErr e pkt s1) s)

/-- FABRIC_REDUCE (R361, R369, R371). -/
def execFabricReduce (vl : Fin 6) (pkt : Pkt) (s : State) : Host.Outcome State Fault Refusal :=
  let rop := bits pkt.arg.toNat 1 0
  let rty := bits pkt.arg.toNat 3 2
  let good := decide (rop ≤ 2 ∧ rty ≤ 2 ∧ pkt.addr.toNat % 256 = 0 ∧ pkt.payload.length = 272)
  let op : HomeOp := .reduce (BitVec.ofNat 2 rop) (BitVec.ofNat 2 rty) (pkt.payload.take 16) (pkt.payload.drop 16)
  ok (atTarget 4 true vl pkt good (fun t s =>
    match physOp (pktAgent vl pkt) pkt.addr.toNat pkt.label op s with
    | (s1, none, _) => respondRec t pkt (respPkt pkt 0x81 0 []) s1
    | (s1, some e, _) => respErr e pkt s1) s)

/-- A SYNC packet of kind `sub` names the base of an object's window (R361). -/
def syncTarget (q : Pkt) (sub : Nat) (len : Nat) : Option Nat :=
  match regionOf q.addr.toNat with
  | .sync o 0 => if q.arg.toNat = sub ∧ q.payload.length = len then some o else none
  | _ => none

/-- Answer a sync operation that was applied. A test names its own ticket as the satisfying one; a signal and a reset have
none, and the field is a free value (R316, Table 12.2). -/
def syncDone (test : Bool) (t : Nat) (q : Pkt) (s : State) (r : SynRes) : State :=
  match r with
  | .done s1 c tk =>
    if test then respondRec t q (respPkt q 0x82 0 (syncBytes c tk tk)) s1
    else
      let (k, s2) := draw s1
      respondRec t q (respPkt q 0x82 0 (syncBytes c ((Config.freeValue k).truncate 32) tk)) s2
  | .bus => respNack q 0x10 s
  | .resetting => respNack q 1 s

/-- The operand of a SYNC packet. -/
def syncOperand (q : Pkt) : W64 := BitVec.ofNat 64 (ofLe q.payload)

/-- FABRIC_SYNC_SIGNAL (R316, R369). -/
def execFabricSyncSignal (vl : Fin 6) (pkt : Pkt) (s : State) : Host.Outcome State Fault Refusal :=
  if pkt.arg ≠ 0 then ok s
  else
    let o := syncTarget pkt 0 8
    ok (atTarget 5 true vl pkt o.isSome (fun t s => syncDone false t pkt s (synSignal (o.getD 0) 11 (syncOperand pkt) s)) s)

/-- FABRIC_SYNC_WAIT (R316 to R319, R369): a resend of a wait that still waits changes nothing. -/
def execFabricSyncWait (vl : Fin 6) (pkt : Pkt) (s : State) : Host.Outcome State Fault Refusal :=
  if pkt.arg ≠ 1 then ok s
  else
    let o := syncTarget pkt 1 8
    let same (w : Waiter) : Bool := match w.pkt with
      | some q => decide (q.src = pkt.src ∧ q.tid = pkt.tid)
      | none => false
    ok (atTarget 5 true vl pkt o.isSome (fun t s =>
      let ob := o.getD 0
      if pkt.retry && (match synStore s ob with | some ix => (s.getSyn ix).waiters.any same | none => false) then s
      else
        match synWait ob (pktAgent vl pkt) (syncOperand pkt) (pkt.aux.toNat % 4096) (some pkt) s with
        | .released s1 c tk => respondRec t pkt (respPkt pkt 0x82 0 (syncBytes c tk tk)) s1
        | .waiting s1 => s1
        | .poolFull => respNack pkt 3 s
        | .bus => respNack pkt 0x10 s
        | .resetting => respNack pkt 1 s) s)

/-- FABRIC_SYNC_TEST (R316, R369). -/
def execFabricSyncTest (vl : Fin 6) (pkt : Pkt) (s : State) : Host.Outcome State Fault Refusal :=
  if pkt.arg ≠ 2 then ok s
  else
    let o := syncTarget pkt 2 8
    ok (atTarget 5 true vl pkt o.isSome (fun t s => syncDone true t pkt s (synTest (o.getD 0) 11 s)) s)

/-- FABRIC_SYNC_RESET (R316, R369). -/
def execFabricSyncReset (vl : Fin 6) (pkt : Pkt) (s : State) : Host.Outcome State Fault Refusal :=
  if pkt.arg ≠ 3 then ok s
  else
    let o := syncTarget pkt 3 8
    ok (atTarget 5 true vl pkt o.isSome (fun t s => syncDone false t pkt s (synReset (o.getD 0) 11 s)) s)

/-- FABRIC_QMSG (R306, R307, R361, R369): the packet is committed whole, in its turn among the sources that wait for the queue
(Table 2.10), or the queue is full. -/
def execFabricQmsg (vl : Fin 6) (pkt : Pkt) (s : State) : Host.Outcome State Fault Refusal :=
  let n := pkt.payload.length
  let q := match regionOf pkt.addr.toNat with
    | .queue q 0 => some q
    | _ => none
  let good := q.isSome && decide (64 ≤ n ∧ n ≤ 4096 ∧ n % 64 = 0)
  ok (atTarget 6 true vl pkt good (fun t s =>
    let i := q.getD 0
    let x := s.getQue i
    let ws := (List.range (n / 64)).map fun k =>
      let w := bytesLine ((pkt.payload.drop (64 * k)).take 64)
      (w, wordParity w)
    if x.words.length + ws.length ≤ queCapacity x ∧ (s.getPart (queOwner s i)).asm.length < 16 then
      match queueTurn s i (pktAgent vl pkt) with
      | some tok => respondRec t pkt (respPkt pkt 0x81 0 []) (queCommit i ws (s.modQue i fun x => { x with token := tok }))
      | none => { s with net := { s.net with inbox := s.net.inbox ++ [(vl.val, pkt)] } }
    else respNack pkt 2 s) s)

/-! ### At the requester (R372 to R375, R427) -/

/-- The entry of a TID at tower `t`. -/
def tidEntry (s : State) (t n : Nat) : Option TidEnt :=
  (Tbl.get [] s.net.tids t).find? (fun e => e.1 == n) |>.map (·.2)

/-- Free an entry; a management packet that was held for one goes out (R372). -/
def freeEntryTid (t n : Nat) (s : State) : State :=
  let s1 := { s with net := { s.net with tids := Tbl.put [] s.net.tids t (Tbl.del n (Tbl.get [] s.net.tids t)) } }
  match s1.net.mgmtHeld with
  | [] => s1
  | (k, p) :: rest => if t = 2 then issueMgmt k p { s1 with net := { s1.net with mgmtHeld := rest } } else s1

/-- Replace an entry. -/
def setEntryTid (t n : Nat) (e : TidEnt) (s : State) : State :=
  { s with net := { s.net with tids := Tbl.put [] s.net.tids t (Tbl.ins n e (Tbl.get [] s.net.tids t)) } }

/-- The entry was cancelled by a reset of its agent (R427), or by an abort of its task (R275). -/
def cancelled (s : State) (e : TidEnt) : Bool := e.dead.isSome || e.gen != agentGen s e.who

/-- A final response reaches the agent of an entry; a management packet has none. -/
def agentAnswer (e : TidEnt) (t n : Nat) (bs : List Byte) (s : State) : State :=
  if e.pkt.op = 8 then s
  else match e.who with
  | .group site slot => groupData site slot n bs s
  | .array a => aryAnswer a.val n bs s
  | .dma c => dmaAnswer c.val n bs s
  | .pc p => pcAnswer p.val n false s
  | .coll _ => collAcked (t * 0x4000 + n) s
  | .mgmt => mgmtAnswer n false s
  | w => send (if bs = [] then .ack w else .data w bs) s

/-- A final error, or giving up, reaches the agent (R374). -/
def agentError (e : TidEnt) (t n : Nat) (s : State) : State :=
  if e.pkt.op = 8 then s
  else match e.who with
  | .group site slot => groupError site slot n s
  | .array a => aryError a.val n s
  | .dma c => dmaError c.val n s
  | .pc p => pcAnswer p.val n true s
  | .coll _ => collFail (t * 0x4000 + n) s
  | .mgmt => mgmtAnswer n true s
  | w => send (.busError w) s

/-- Tower and entry number of a TID (Table 12.1). -/
def tidTower (tid : BitVec 16) : Nat := tid.toNat / 0x4000
/-- Entry number of a TID. -/
def tidNum (tid : BitVec 16) : Nat := tid.toNat % 0x4000

/-- A reply to an agent of a site whose save has run for more than 10 µs is late (R264). -/
def lateReply (who : Agent) (s : State) : State :=
  match siteOf who with
  | some j => lateAt j s
  | none => s

/-- A final response of operation `op` for an entry of tower `t`. -/
def response (op : Nat) (t : Nat) (pkt : Pkt) (s0 : State) : State :=
  let s := undeliver 2 pkt (undeliver 3 pkt s0)
  let n := tidNum pkt.tid
  if pkt.op.toNat ≠ op ∨ tidTower pkt.tid ≠ t then s0
  else
    match tidEntry s t n with
    | none => s
    | some e =>
      let s1 := freeEntryTid t n s
      if cancelled s e then s1 else agentAnswer e t n pkt.payload (lateReply e.who s1)

/-- FABRIC_REQUEST_ISSUE (R372). With no entry free the agent is held; a request without a route ends at once. -/
def execFabricRequestIssue (t : Tower) (who : Agent) (pkt : Pkt) (s : State) : Host.Outcome State Fault Refusal :=
  match issueRequest t.val who pkt s with
  | .held => ok s
  | .noRoute => ok (send (.busError who) s)
  | .sent s1 _ => ok s1

/-- FABRIC_ACK (R375). -/
def execFabricAck (t : Tower) (pkt : Pkt) (s : State) : Host.Outcome State Fault Refusal := ok (response 0x81 t.val pkt s)

/-- FABRIC_DATA (R372). -/
def execFabricData (t : Tower) (pkt : Pkt) (s : State) : Host.Outcome State Fault Refusal := ok (response 0x82 t.val pkt s)

/-- First and longest wait of a retryable status, ns (Table 12.5). -/
def retryWaits (st : Nat) : Option (Nat × Nat) :=
  if st = 1 then some (50000, 1600000)
  else if st = 2 then some (5000, 320000)
  else if st = 3 then some (100000, 12800000)
  else none

/-- A wait within a quarter of its value, drawn (R373). -/
def drawnWait (s : State) (w : Nat) : Nat := w * 3 / 4 + (Config.freeValue s.net.drawn).toNat % (w / 2 + 1)

/-- FABRIC_NACK (R373, Table 12.5). -/
def execFabricNack (t : Tower) (pkt : Pkt) (s : State) : Host.Outcome State Fault Refusal :=
  let s1 := undeliver 2 pkt (undeliver 3 pkt s)
  let n := tidNum pkt.tid
  if pkt.op ≠ 0x83 ∨ tidTower pkt.tid ≠ t.val then ok s
  else
    match tidEntry s1 t.val n with
    | none => ok s1
    | some e =>
      if cancelled s1 e then ok (freeEntryTid t.val n s1)
      else
        match retryWaits pkt.status.toNat with
        | none => ok (agentError e t.val n (freeEntryTid t.val n s1))
        | some (first, longest) =>
          let w := if e.wait = 0 then first else min (2 * e.wait) longest
          let e1 := { e with wait := w, until_ := s1.skt.time + BitVec.ofNat 64 (drawnWait s1 w) }
          ok (setEntryTid t.val n e1 { s1 with net := { s1.net with drawn := s1.net.drawn + 1 } })

/-- Send a kept request again with RETRY set (R372, R373). A collective packet leaves on its own port again (R379), and so does
one for the peer across the link. A management packet whose port has left service is sent no more (R374). -/
def resend (t n : Nat) (e : TidEnt) (s : State) : State :=
  let p := { e.pkt with flags := e.pkt.flags ||| 0x20 }
  let again := setEntryTid t n { e with last := s.skt.time, until_ := 0 }
  let own := match e.port with
    | some k => if (e.pkt.op = 7 ∨ e.pkt.nbr) ∧ !portBroken s k.val then some (Route.port k.val true) else none
    | none => none
  if e.pkt.op = 8 ∧ e.port.any fun k => !inService (s.getPort k.val) then freeEntryTid t n s
  else
    match own.getD (route s none p.dst.toNat) with
    | .port k en => again (enqueuePkt k (hopVl s p k none) en p (crossSeams t (portTower k) p s))
    | .here => again (deliver (baseVl p) p (crossSeams t (deliveryTower s p) p s))
    | _ => agentError e t n (freeEntryTid t n s)

/-- REQUEST_TIMEOUT (R372): 2 ms without a response. A management packet has none, and its entry is free (log 87). -/
def execRequestTimeout (t : Tower) (tid : Fin 4096) (s : State) : Host.Outcome State Fault Refusal :=
  match tidEntry s t.val tid.val with
  | none => ok s
  | some e =>
    if e.until_ ≠ 0 ∨ now s < e.last.toNat + 2000000 ∨ cancelled s e then ok s
    else if e.pkt.op = 8 then ok (freeEntryTid t.val tid.val s)
    else ok (resend t.val tid.val e s)

/-- NACK_RETRY (R373). -/
def execNackRetry (t : Tower) (tid : Fin 4096) (s : State) : Host.Outcome State Fault Refusal :=
  match tidEntry s t.val tid.val with
  | none => ok s
  | some e =>
    if e.until_ = 0 ∨ now s < e.until_.toNat ∨ cancelled s e then ok s else ok (resend t.val tid.val e s)

/-- REQUEST_GIVE_UP (R374). A cancelled entry is freed without an answer (R427). -/
def execRequestGiveUp (t : Tower) (tid : Fin 4096) (s : State) : Host.Outcome State Fault Refusal :=
  match tidEntry s t.val tid.val with
  | none => ok s
  | some e =>
    if now s < e.first.toNat + retryLimitNs s ∨ e.pkt.op = 8 then ok s
    else
      let s1 := freeEntryTid t.val tid.val s
      if cancelled s e then ok s1
      else
        let s2 := match e.port with
          | some k => s1.modPort k.val fun x => { x with giveUp := x.giveUp + 1 }
          | none => s1
        ok (agentError e t.val tid.val s2)

/-! ### The management lane (R354, R386, R387) -/

/-- Entries of the management queue that source `i` holds. -/
def mgmtHeld (s : State) (i : Nat) : Nat := (s.net.mgmtq.filter fun e => e.1 == i).length

/-- Shared entries in use: what the sources hold beyond their own two (R354). -/
def mgmtShared (s : State) : Nat := ((List.range 7).map fun i => mgmtHeld s i - 2).sum

/-- MGMT_QUEUE_ARRIVE (R354, R386): the packet enters the queue, is answered busy, or is dropped for a reserved
subtype. -/
def execMgmtQueueArrive (src : Fin 7) (pkt : Pkt) (s : State) : Host.Outcome State Fault Refusal :=
  let s1 := undeliver 5 pkt s
  let i := src.val
  if pkt.arg.toNat = 0 ∨ 6 < pkt.arg.toNat then
    ok { s1 with net := { s1.net with dropped := BitVec.ofNat 8 (min 255 (s1.net.dropped.toNat + 1)) } }
  else if mgmtHeld s1 i < 2 ∨ mgmtShared s1 < 18 then
    ok { s1 with net := { s1.net with mgmtq := s1.net.mgmtq ++ [(i, pkt)] } }
  else
    let s2 := { s1 with net := { s1.net with busySent := s1.net.busySent + 1 } }
    let r := { respPkt pkt 0x83 3 [] with flags := 0x40 }
    ok (if i = 6 then send (.mgmtBusy pkt) s2
      else if pkt.nbr then enqueuePkt i 2 true r (crossSeams 2 (portTower i) r s2)
      else respNack pkt 3 s2)

/-- A management packet of a subtype leaves the queue as it is taken. -/
def takeMgmt (sub : Nat) (src : Option Nat) (s : State) : State :=
  { s with net := { s.net with mgmtq := dropFirst (fun e =>
      e.2.arg.toNat == sub && (match src with | some k => e.1 == k | none => true)) s.net.mgmtq } }

/-- MGMT_HELLO (R387). -/
def execMgmtHello (port : Port) (payload : List Byte) (s : State) : Host.Outcome State Fault Refusal :=
  if payload.length = 16 then ok (notifyMgmt 0x10 (takeMgmt 1 (some port.val) s)) else ok s

/-- Record a break in a ring register, where there is room (R387). -/
def setBreak (c : Nat) (r : Ring) : Ring :=
  if (r.v0 ∧ r.b0.toNat = c) ∨ (r.v1 ∧ r.b1.toNat = c) then r
  else if !r.v0 then { r with v0 := true, b0 := BitVec.ofNat 6 c }
  else if !r.v1 then { r with v1 := true, b1 := BitVec.ofNat 6 c }
  else r

/-- Clear a break. -/
def clearBreak (c : Nat) (r : Ring) : Ring :=
  let x := if r.v0 ∧ r.b0.toNat = c then { r with v0 := false } else r
  if x.v1 ∧ x.b1.toNat = c then { x with v1 := false } else x

/-- MGMT_LINK (R387): a break of a ring is set or cleared. -/
def execMgmtLink (payload : List Byte) (s : State) : Host.Outcome State Fault Refusal :=
  let id := ofLe (payload.take 2)
  let k := (payload.getD 2 0).toNat
  let broken := bit (payload.getD 5 0).toNat 1
  if payload.length ≠ 16 ∨ 6 ≤ k then ok s
  else
    let d := k / 2
    let n := dimSize s d
    let c := if k % 2 = 0 then coord id d else (coord id d + n - 1) % n
    let s1 := takeMgmt 6 none s
    ok { s1 with net := { s1.net with rings := Tbl.mod {} s1.net.rings d (if broken then setBreak c else clearBreak c) } }

end Sys2Proof.Machine
end

