-- ==== Sys2Proof/Machine/Collectives.lean ====
section
/-! DEFINITION. Collectives: posting, start, READY, the rounds and their chunks, time-out and cancel (R376 to
R382). -/

namespace Sys2Proof.Machine
open Sys2Proof

/-- Post the descriptor at `addr` to engine `k` for requester `r` (R376). A full FIFO, and a descriptor that cannot
be read, leave it as it is; the first is counted. -/
def collPost (r k addr : Nat) (s : State) : State :=
  let x := s.getPort k
  if !mgmtOrPc r || !portPresent s k || x.blkBusy || x.collOff then s
  else if 8 ≤ x.collFifo.length then countRegErr r 7 0x1A4 (some (portTower k)) s
  else
    let who : Agent := .coll ⟨k % 6, Nat.mod_lt _ (by omega)⟩
    match physRead who addr 64 backLabel s with
    | (s1, none, bs, _) =>
      let p := if r = 1 then portTower k else r - 2
      s1.modPort k fun x => { x with collFifo := x.collFifo ++ [(bytesLine bs, ⟨p % 4, Nat.mod_lt _ (by omega)⟩)] }
    | (s1, some _, _, _) => s1

/-- ABF_COLL_POST_HI_WRITE (R376, Table 12.20). -/
def execAbfCollPostHiWrite (r : Req) (port : Port) (val : W32) (s : State) : Host.Outcome State Fault Refusal :=
  ok (collPost r.val port.val (val.toNat % 256 * 2 ^ 32 + (s.getPort port.val).collLo.toNat / 64 * 64) s)

/-- An admitted task of context `c` and class `k` exists in partition `p` (R376). -/
def taskOfClass (s : State) (p c k : Nat) : Bool := (partTasks s p).any fun e => e.2.ctx.val == c && e.2.cls.val == k

/-- COLL_QUEUE_TAKE (R40, R376): firmware takes a one-word descriptor, checks its task, copies it to scratch and posts
it to the lead engine. -/
def execCollQueueTake (p : Tower) (copyAt : BitVec 40) (s : State) : Host.Outcome State Fault Refusal :=
  let q := (s.bru.collQ.getD p.val 0).toNat % 512
  let x := s.getQue q
  if !pcRuns s p.val || x.words.isEmpty || !(s.getPart p.val).notices.contains q then ok s
  else
    let pk := headPacket s q
    let w : Line := match pk.head? with | some a => a.1 | none => []
    let s1 := (takePacket q s).modPart p.val fun y => { y with notices := dropFirst (fun a => a == q) y.notices }
    let good := pk.length == 1 && !(pk.any (·.2)) && taskOfClass s p.val (cCtx w) (cClass w)
    match (cDimList w).head?, scratchOf s1 copyAt.toNat with
    | some d, some _ =>
      if good && copyAt.toNat % 64 == 0 then
        let s2 := (physWrite (.pc p) copyAt.toNat (lineBytes w) backLabel s1).1
        ok (collPost (2 + p.val) (2 * d) copyAt.toNat s2)
      else ok s1
    | _, _ => ok s1

/-- Enter the next dimension, or end with OK once nothing is left: READY goes to the neighbours that send to this
device (R378): from below on the + ring, across the odd port; from above on the - ring, across the even port. -/
def enterPhase (k : Nat) (s : State) : State :=
  match (s.getPort k).collNow with
  | none => s
  | some c =>
    match (collPhases s c.desc)[c.phase]? with
    | none => if c.out = [] then collEnd k 0 s else s
    | some (d, _) =>
      if portBroken s (2 * d) || portBroken s (2 * d + 1) then collEnd k 3 s
      else (collPost1 k (2 * d) 0 c.desc (collPost1 k (2 * d + 1) 0 c.desc s)).modPort k fun x => { x with coll := .waitReady }

/-- COLL_START (R377, R378). -/
def execCollStart (port : Port) (s : State) : Host.Outcome State Fault Refusal :=
  let k := port.val
  let x := s.getPort k
  match x.collFifo with
  | [] => ok s
  | (w, p) :: rest =>
    if x.coll ≠ .idle ∨ x.collNow.isSome ∨ x.blkBusy then ok s
    else
      let c : Coll := { desc := w, started := s.skt.time, phase := 0, round := 0, sentPlus := 0, sentMinus := 0, recv := [], out := []
                        part := p }
      let s1 := s.modPort k fun x => { x with collFifo := rest, collNow := some c, coll := .running }
      if collOk s w then ok (enterPhase k s1) else ok (collEnd k 1 s1)

/-- The engine that runs collective `id`. -/
def collEngine (s : State) (id : Nat) : Option Nat :=
  (List.range 6).find? fun k => match (s.getPort k).collNow with
    | some c => cId c.desc == id
    | none => false

/-- COLL_READY (R378): kept until the engine uses it; one sent again (R373) counts once. -/
def execCollReady (port : Port) (pkt : Pkt) (s : State) : Host.Outcome State Fault Refusal :=
  if pkt.op ≠ 7 ∨ pkt.arg ≠ 0 then ok s
  else
    let id := pkt.aux.toNat % 2 ^ 16
    let seen : BitVec 16 × Nat := (pkt.tid, id)
    ok (respAck pkt ((undeliver 0 pkt (undeliver 1 pkt (undeliver 4 pkt s))).modPort port.val fun x =>
      if pkt.retry && x.collSeen == some seen then x else { x with collReady := x.collReady ++ [id], collSeen := some seen }))

/-- Both neighbours that this device sends to in dimension `d` are ready; their READYs are used (R378). -/
def bothReady (k d id : Nat) (s : State) : Option State :=
  if (s.getPort (2 * d)).collReady.contains id && (s.getPort (2 * d + 1)).collReady.contains id then
    let use (p : Nat) (s : State) : State := s.modPort p fun x => { x with collReady := dropFirst (fun i => i == id) x.collReady }
    some ((use (2 * d + 1) (use (2 * d) s)).modPort k fun x => { x with coll := .running })
  else none

/-- Chunk that the ring sends in round `r`: `minus` chooses the ring (R379). -/
def sendChunk (i dd r : Nat) (gather minus : Bool) : Nat :=
  if gather then (if minus then (i + r) % dd else (i + dd * 2 - r) % dd)
  else (if minus then (i + r + 1) % dd else (i + dd * 2 - r - 1) % dd)

/-- Byte offset in the buffer of byte `o` of a chunk. -/
def chunkAt (s : State) (w : Line) (d chunk : Nat) (minus : Bool) (o : Nat) : Nat :=
  let (b, n) := collRegion s w d
  (if minus then cBytes w / 2 else 0) + b + chunk * (n / dimSize s d) + o

/-- Length of a chunk in dimension `d`. -/
def chunkLen (s : State) (w : Line) (d : Nat) : Nat := (collRegion s w d).2 / dimSize s d

/-- Read bytes of the buffer, page by page of 256 (R381): none and an end code where it cannot. -/
def collRead (k : Nat) (w : Line) : Nat → Nat → Nat → State → State × Except Nat (List Byte)
  | 0, _, _, s => (s, .ok [])
  | fuel + 1, off, n, s =>
    if n = 0 then (s, .ok [])
    else
      let m := min n (256 - off % 256)
      let (s1, r) := translateColl k (cCtx w) (BitVec.ofNat 48 (cBuf w + off)) .read s
      match r with
      | .local_ pa =>
        match physRead (collAgent k) pa m (collLabel w) s1 with
        | (s2, none, bs, _) =>
          match collRead k w fuel (off + m) (n - m) s2 with
          | (s3, .ok r) => (s3, .ok (bs ++ r))
          | (s3, .error e) => (s3, .error e)
        | (s2, some .resetting, _, _) => (s2, .error 0xFF)
        | (s2, some _, _, _) => (s2, .error 3)
      | .fabric _ => (s1, .error 3)
      | .fault _ _ _ => (s1, .error 2)

/-- Send the rest of one ring's chunk, up to 4,096 bytes a packet, while entries are free: bytes sent in all, or
an end code. -/
def sendRing (k : Nat) (c : Coll) (d : Nat) (gather minus : Bool) : Nat → Nat → State → State × Except Nat Nat
  | 0, sent, s => (s, .ok sent)
  | fuel + 1, sent, s =>
    let len := chunkLen s c.desc d
    if len ≤ sent then (s, .ok sent)
    else
      let i := coord s.net.id.toNat d
      let off := chunkAt s c.desc d (sendChunk i (dimSize s d) c.round gather minus) minus sent
      let n := min (len - sent) 4096
      match collRead k c.desc 32 off n s with
      | (s1, .error 0xFF) => (s1, .ok sent)
      | (s1, .error e) => (s1, .error e)
      | (s1, .ok bs) =>
        let p := 2 * d + b2n minus
        if portBroken s1 p then (s1, .error 3)
        else
          match collIssue p 1 c.desc c.round off bs s1 with
          | none => (s1, .ok sent)
          | some (s2, tid) =>
            sendRing k c d gather minus fuel (sent + n)
              (s2.modPort k fun x => { x with collNow := x.collNow.map fun c => { c with out := c.out ++ [tid] } })

/-- Bytes committed on a ring in a round of a phase. -/
def recvOf (c : Coll) (phase round ring : Nat) : Nat := Tbl.get 0 c.recv (256 * phase + 2 * round + ring)

/-- COLL_ROUND (R378 to R380): what the engine owes goes out first; once the neighbours are ready and the round before has committed, this round's chunks
go out on both rings; with all of a round sent and received the next begins, then the next dimension. -/
def execCollRound (port : Port) (s : State) : Host.Outcome State Fault Refusal :=
  let k := port.val
  let s := collPayOwed k s
  match (s.getPort k).collNow with
  | none =>
    match (s.getPort k).collSig with
    | some (id, from_) => ok ((collSignal k id from_ (s.modPort k fun x => { x with collSig := none })).modPort k collRest)
    | none => ok (if (s.getPort k).coll = .ending then s.modPort k collRest else s)
  | some c0 =>
    match (collPhases s c0.desc)[c0.phase]? with
    | none => ok (enterPhase k s)
    | some (d, gather) =>
      let st := if (s.getPort k).collOwed ≠ [] then none
        else if (s.getPort k).coll = .waitReady then bothReady k d (cId c0.desc) s else some s
      match st with
      | none => ok s
      | some s0 =>
        let len := chunkLen s0 c0.desc d
        let prev (ring : Nat) : Bool := c0.round == 0 || decide (len ≤ recvOf c0 c0.phase (c0.round - 1) ring)
        let go (ring sent : Nat) (s : State) : State × Except Nat Nat :=
          if prev ring then sendRing k c0 d gather (ring == 1) (len / 4096 + 2) sent s else (s, .ok sent)
        match go 0 c0.sentPlus s0 with
        | (s1, .error e) => ok (collEnd k e s1)
        | (s1, .ok p) =>
          match go 1 c0.sentMinus s1 with
          | (s2, .error e) => ok (collEnd k e s2)
          | (s2, .ok m) =>
            let full := decide (len ≤ p ∧ len ≤ m) && decide (len ≤ recvOf c0 c0.phase c0.round 0 ∧ len ≤ recvOf c0 c0.phase c0.round 1)
            let last := c0.round + 2 == dimSize s2 d
            let step (c : Coll) : Coll :=
              if !full then { c with sentPlus := p, sentMinus := m }
              else if last then { c with phase := c.phase + 1, round := 0, sentPlus := 0, sentMinus := 0 }
              else { c with round := c.round + 1, sentPlus := 0, sentMinus := 0 }
            let s3 := s2.modPort k fun x => { x with collNow := x.collNow.map step }
            ok (if full && last then enterPhase k s3 else s3)

/-- Apply the bytes of a chunk at this device's own buffer, line by line (R380): an end code where it cannot. -/
def applyChunk (k : Nat) (w : Line) (gather : Bool) : Nat → Nat → List Byte → State → State × Option Nat
  | 0, _, _, s => (s, none)
  | fuel + 1, off, bs, s =>
    if bs = [] then (s, none)
    else
      let m := 256 - off % 256
      let (s1, r) := translateColl k (cCtx w) (BitVec.ofNat 48 (cBuf w + off)) (if gather then .write else .reduce) s
      match r with
      | .local_ pa =>
        let base := pa / 256 * 256
        let pre := pa - base
        let part := bs.take m
        let e := redSize (cRedType w)
        let mask := leBytes 16 ((2 ^ (part.length / e) - 1) * 2 ^ (pre / e))
        let line := List.replicate pre 0 ++ part ++ List.replicate (256 - pre - part.length) 0
        let res := if gather then physWrite (collAgent k) pa part (collLabel w) s1
          else
            let x := physOp (collAgent k) base (collLabel w) (.reduce (BitVec.ofNat 2 (cRedOp w)) (BitVec.ofNat 2 (cRedType w)) mask line) s1
            (x.1, x.2.1)
        match res with
        | (s2, none) => applyChunk k w gather fuel (off + m) (bs.drop m) s2
        | (s2, some .resetting) => (s2, some 0xFF)
        | (s2, some _) => (s2, some 3)
      | .fabric _ => (s1, some 3)
      | .fault _ _ _ => (s1, some 2)

/-- A line of the chunk has its home in a partition in reset: the chunk is refused whole (R370). -/
def chunkHeld (k : Nat) (w : Line) (gather : Bool) : Nat → Nat → Nat → State → Bool
  | 0, _, _, _ => false
  | fuel + 1, off, n, s =>
    let m := 256 - off % 256
    match translateColl k (cCtx w) (BitVec.ofNat 48 (cBuf w + off)) (if gather then .write else .reduce) s with
    | (s1, .local_ pa) => targetResetting s1 pa || (decide (m < n) && chunkHeld k w gather fuel (off + m) (n - m) s1)
    | _ => false

/-- COLL_CHUNK (R371, R380): the chunk's lines are reduced or written, then acknowledged. -/
def execCollChunk (port : Port) (pkt : Pkt) (s0 : State) : Host.Outcome State Fault Refusal :=
  if pkt.op ≠ 7 ∨ pkt.arg ≠ 1 then ok s0
  else
    let s := undeliver 0 pkt (undeliver 1 pkt (undeliver 4 pkt s0))
    let t := portTower port.val
    let id := pkt.aux.toNat % 2 ^ 16
    let round := bits pkt.aux.toNat 31 16
    let ring := b2n (port.val % 2 == 0)
    match (if pkt.retry then findRecord s t pkt else none) with
    | some r => ok (sendFrom t r.resp s).1
    | none =>
      if !recordRoom s t then ok (respNack pkt 3 s)
      else
        match collEngine s id with
        | none => ok (respNack pkt 0x10 s)
        | some k =>
          match (s.getPort k).collNow with
          | none => ok s
          | some c =>
            match (collPhases s c.desc)[c.phase]? with
            | none => ok (respNack pkt 0x10 s)
            | some (_, gather) =>
              if chunkHeld port.val c.desc gather 32 pkt.addr.toNat pkt.payload.length s then ok (respNack pkt 1 s)
              else match applyChunk port.val c.desc gather 32 pkt.addr.toNat pkt.payload s with
              | (s1, some 0xFF) => ok (respNack pkt 1 s1)
              | (s1, some e) => ok (collEnd k e (respNack pkt 0x10 s1))
              | (s1, none) =>
                let ix := 256 * c.phase + 2 * round + ring
                let s2 := s1.modPort k fun x => { x with collNow := x.collNow.map fun c => { c with
                  recv := Tbl.mod 0 c.recv ix (· + pkt.payload.length) } }
                ok (respondRec t pkt (respPkt pkt 0x81 0 []) s2)

/-- COLL_TIMEOUT (R382). -/
def execCollTimeout (port : Port) (s : State) : Host.Outcome State Fault Refusal :=
  match (s.getPort port.val).collNow with
  | none => ok s
  | some c => if c.started.toNat + cTimeout c.desc * 1000000 ≤ now s then ok (collEnd port.val 6 s) else ok s

/-- COLL_CANCEL (R382): PARTNER_FAIL. -/
def execCollCancel (port : Port) (pkt : Pkt) (s : State) : Host.Outcome State Fault Refusal :=
  if pkt.op ≠ 7 ∨ pkt.arg ≠ 2 then ok s
  else
    let _ := port
    let s1 := respAck pkt (undeliver 0 pkt (undeliver 1 pkt (undeliver 4 pkt s)))
    match collEngine s1 (pkt.aux.toNat % 2 ^ 16) with
    | some k => ok (collEnd k 7 s1)
    | none => ok s1

/-- Cancel the collectives of a target: those whose descriptor and posting partition satisfy `q`, the queued ones too (R272,
Table 8.12 event 3). -/
def abortColls (q : Line → Tower → Bool) (s : State) : State :=
  forN 6 (fun k s =>
    let x := s.getPort k
    let s1 := s.modPort k fun x => { x with collFifo := x.collFifo.filter fun e => !q e.1 e.2 }
    let s2 := match x.collNow with
      | some c => if q c.desc c.part then collEnd k 4 s1 else s1
      | none => s1
    let s3 := forL (x.collFifo.filter fun e => q e.1 e.2) (fun e s => collLeave k 4 e.1 e.2 s) s2
    if (s3.getPort k).collNow.isNone then s3.modPort k collRest else s3) s

end Sys2Proof.Machine
end

