-- ==== Sys2Proof/Machine/Abort.lean ====
section
/-! DEFINITION. Context, partition and device aborts (R269 to R275, R423), and the tag loss that starts one (R220). -/

namespace Sys2Proof.Machine
open Sys2Proof

/-! ### Replies to authenticated commands (R388) -/

/-- Send the CMD_REPLY of a command: its fields copied or exchanged, `args` padded to 32 bytes, the MAC under the same
key (Table 12.9). -/
def cmdReply (cmd args : List Byte) (s : State) : State :=
  let at_ (o n : Nat) : List Byte := (cmd.drop o).take n
  let code := BitVec.ofNat 8 (ofLe (at_ 6 1)) ||| 0x80
  let key := (Tbl.get {} s.net.keys (ofLe (at_ 1 1) % 8)).key
  let body := [0x01] ++ at_ 1 1 ++ at_ 4 2 ++ at_ 2 2 ++ [code, 0] ++ at_ 8 8 ++ leBytes 8 (now s) ++ at_ 24 8
    ++ (args ++ List.replicate 32 0).take 32
  issueMgmt none (mgmtPkt s 4 (ofLe (at_ 2 2)) false (body ++ leBytes 32 (kmac key true body).toNat)) s

/-! ### Targets -/

/-- A task of the abort's target. -/
def ofAbort (k : AbortKind) (p : Nat) (t : Task) : Bool :=
  match k with
  | .device => true
  | .partition q => q.val == p
  | .context c => t.ctx == c

/-- Live tasks of a target, with their partition and entry. -/
def abortTasks (s : State) (k : AbortKind) : List (Nat × Nat × Task) :=
  (List.range 4).flatMap fun p => (partTasks s p).filterMap fun e => if ofAbort k p e.2 then some (p, e.1, e.2) else none

/-- Partitions that run work of a target. -/
def abortParts (k : AbortKind) : List Nat := match k with | .partition p => [p.val] | _ => [0, 1, 2, 3]

/-- Affected contexts: the context; those of the partition's live tasks; all. -/
def abortCtxs (s : State) (k : AbortKind) : List Nat :=
  match k with
  | .context c => [c.val]
  | .partition _ => ((abortTasks s k).map fun e => e.2.2.ctx.val).eraseDups
  | .device => List.range 64

/-- Budget in ns (Table 8.11). -/
def abortBudget (k : AbortKind) : Nat := match k with | .context _ => 1000000 | .partition _ => 4000000 | .device => 10000000

/-- XLT_CTX_CFG.ABORTING of every context from the running aborts (Table 8.21). -/
def setAborting (s : State) : State :=
  forN 64 (fun c s =>
    let on := s.aborts.any fun a => a.ctxs.contains c
    if (s.getCtx c).aborting = on then s else s.modCtx c fun x => { x with aborting := on }) s

/-- A running abort that covers a context abort of `c` (R274). -/
def coverOf (s : State) (c : Ctx) : Option Nat :=
  s.aborts.findIdx? fun a => match a.kind with
    | .device => true
    | .partition p => (abortTasks s (.context c)).all fun e => e.1 == p.val
    | .context _ => false

/-! ### Start (R269, Table 8.12 events 1 to 3) -/

/-- The requester's status of its new command; earlier commands of the requester are no longer shown (Table 8.17). -/
def showAbort (r : Nat) (tag : BitVec 16) (state phase forced : Nat) (s : State) : State :=
  let hide (a : AbortAsk) : AbortAsk := if a.req.val = r then { a with shown := false } else a
  let hideIn (a : Abort) : Abort := { a with asks := a.asks.map hide }
  let s1 := { s with aborts := s.aborts.map hideIn }
  s1.modXrq r fun x => { x with
    abTag := tag, abForced := BitVec.ofNat 4 (min 15 forced), abPhase := BitVec.ofNat 2 phase, abState := BitVec.ofNat 4 state }

/-- Reply to the fabric requester of an abort: its status and XLT_ABORT_STATUS (Table 12.10). -/
def abortReply (cmd : Option (List Byte)) (tag : BitVec 16) (state phase forced : Nat) (s : State) : State :=
  match cmd with
  | none => s
  | some c => cmdReply c (leBytes 8 (if state = 3 then 1 else 0)
      ++ leBytes 4 (tag.toNat * 2 ^ 16 + min 15 forced * 2 ^ 8 + phase * 16 + state)) s

/-- Tasks of the target end ABORTED, except those whose work has succeeded; their work stops without save, and the
target's collectives are cancelled (R273, R302). -/
def stopTarget (k : AbortKind) (s : State) : State :=
  let ts := (abortTasks s k).filter fun e =>
    let r : TaskRef := { p := Fin.ofNat 4 e.1, e := Fin.ofNat 256 e.2.1 }
    decide (outcome s r e.2.2 ≠ some (0, 0, 0)) && decide (e.2.2.ending ≠ some (0, 0, 0)) && decide (e.2.2.sync ≠ .posting)
  let refs : List TaskRef := ts.map fun e => { p := Fin.ofNat 4 e.1, e := Fin.ofNat 256 e.2.1 }
  let s1 := forL ts (fun e s => modTask e.1 e.2.1 (fun t => { t with ending := some (2, 4, 0) }) s) s
  let s2 := forL (abortParts k) (fun p s => stopWork p (fun r => refs.contains r) s) s1
  let mine (w : Line) (p : Tower) : Bool := match k with
    | .device => true
    | .partition q => q == p
    | .context c => cCtx w == c.val
  abortColls mine s2

/-- An abort command (R269, R274, R411). -/
def abortStart (r : Req) (k : AbortKind) (tag : BitVec 16) (remote : Option (List Byte)) (s : State) : State :=
  let refused := abortReply remote tag 3 0 0 (showAbort r.val tag 3 0 0 s)
  let ask : AbortAsk := { req := r, tag := tag, shown := true, merged := false, remote := remote }
  let fresh : State :=
    if 8 ≤ s.aborts.length then refused
    else
      let s1 := showAbort r.val tag 1 1 0 s
      let a : Abort := { kind := k, t0 := s.skt.time, phase := 1, forced := 0, ctxs := abortCtxs s k, asks := [ask] }
      stopTarget k (setAborting { s1 with aborts := s1.aborts ++ [a] })
  if !s.bru.ready then refused
  else
    match k with
    | .context c =>
      match coverOf s c with
      | none => fresh
      | some i =>
        match s.aborts[i]? with
        | none => fresh
        | some a =>
          let s1 := showAbort r.val tag 4 a.phase.toNat a.forced s
          let join (a : Abort) : Abort := { a with asks := a.asks ++ [{ ask with merged := true }] }
          { s1 with aborts := s1.aborts.modify i join }
    | _ => fresh

/-- Only the host and the management core start aborts (R269). -/
def mayAbort (r : Req) : Bool := decide (r.val < 2)

/-- A write of XLT_ABORT_CMD (Table 8.16). -/
def abortCmd (r : Req) (v : Nat) (remote : Option (List Byte)) (s : State) : State :=
  let target := bits v 9 4
  let tag := BitVec.ofNat 16 (bits v 31 16)
  if !mayAbort r then s
  else
    match v % 4 with
    | 1 => abortStart r (.context (Fin.ofNat 64 target)) tag remote s
    | 2 => if target < 4 then abortStart r (.partition (Fin.ofNat 4 target)) tag remote s
        else abortReply remote tag 3 0 0 (showAbort r.val tag 3 0 0 s)
    | 3 => abortStart r .device tag remote s
    | _ => s

/-- ABORT_CONTEXT. -/
def execAbortContext (r : Req) (ctx : Ctx) (tag : BitVec 16) (s : State) : Host.Outcome State Fault Refusal :=
  ok (abortCmd r (1 + 16 * ctx.val + 2 ^ 16 * tag.toNat) none s)
/-- ABORT_PARTITION. -/
def execAbortPartition (r : Req) (target : BitVec 6) (tag : BitVec 16) (s : State) : Host.Outcome State Fault Refusal :=
  ok (abortCmd r (2 + 16 * target.toNat + 2 ^ 16 * tag.toNat) none s)
/-- ABORT_DEVICE. -/
def execAbortDevice (r : Req) (tag : BitVec 16) (s : State) : Host.Outcome State Fault Refusal :=
  ok (abortCmd r (3 + 2 ^ 16 * tag.toNat) none s)

/-! ### Holdouts (R272, Table 8.12 event 5) -/

/-- Bring the status registers of an abort's requesters up to date. -/
def refreshAbort (a : Abort) (s : State) : State :=
  forL a.asks (fun q s => if !q.shown then s else s.modXrq q.req.val fun x => { x with
    abForced := BitVec.ofNat 4 (min 15 a.forced), abPhase := a.phase }) s

/-- Tasks of the abort's target. -/
def abortRefs (s : State) (k : AbortKind) : List TaskRef :=
  (abortTasks s k).map fun e => { p := Fin.ofNat 4 e.1, e := Fin.ofNat 256 e.2.1 }

/-- A request of the site for one of the tasks that has yet to be answered: of a pass or a descriptor that was ended
(R271). -/
def siteOwes (s : State) (refs : List TaskRef) (j : Nat) : Bool :=
  (Tbl.get [] s.net.tids (j / 24)).any fun e =>
    decide (siteOf e.2.who = some j) && ofSet (fun r => refs.contains r) e.2.dead && e.2.gen == agentGen s e.2.who

/-- Sites that have not reported stopped: they hold a group of the tasks, or one of their units waits for an answer to a
request made for them. -/
def holdoutsOf (s : State) (refs : List TaskRef) : List Nat :=
  (List.range 96).filter fun j =>
    ((List.range 24).any fun g => ofSet (fun r => refs.contains r) (s.getGrp (gIx j g)).task) || siteOwes s refs j

/-- Those of an abort's target. -/
def holdouts (s : State) (k : AbortKind) : List Nat := holdoutsOf s (abortRefs s k)

/-- Reset a site by force. -/
def forceReset (j : Nat) (s : State) : State := (noteReset 0xFE 0 j 0 (siteReset j s)).modSite j fun x => { x with byAbort := true }

/-- Force one site, but save the other work first where the site can be saved: the state of the contexts `cs` and of the tasks
`ts` is discarded. -/
def forceSaving (cs : List (BitVec 6)) (ts : List TaskRef) (j : Nat) (s : State) : State :=
  if (s.getSite j).mode = 1 then s.modSite j fun x => { x with saveDrop := x.saveDrop ++ cs, dropTasks := x.dropTasks ++ ts }
  else if saveAllowed s j then startSave j false cs ts s
  else forceReset j s

/-- Force one site for an abort: a context abort saves the other contexts' work. -/
def forceSite (k : AbortKind) (j : Nat) (s : State) : State :=
  match k with
  | .context c => forceSaving [BitVec.ofNat 6 c.val] [] j s
  | _ => forceReset j s

/-- The running save of a site discards work of the abort's target. -/
def savesFor (k : AbortKind) (x : Site_) : Bool :=
  match k with
  | .context c => x.saveDrop.contains (BitVec.ofNat 6 c.val)
  | _ => false

/-- Tasks that end with "fault" and whose completion is still to come, by partition and entry (R276). -/
def faultEnds (s : State) : List (TaskRef × Task) :=
  (List.range 4).flatMap fun p => (partTasks s p).filterMap fun e =>
    if (e.2.ending.any fun x => x.1 == 1) ∧ e.2.sync ≠ .posting then some ({ p := Fin.ofNat 4 p, e := Fin.ofNat 256 e.1 }, e.2) else none

/-- Event 5 of Table 8.12 for a task that ends with "fault": B is 1.0 ms (R276). -/
def forceTask (r : TaskRef) (t : Task) (s : State) : State :=
  if now s < t.endFrom.toNat + 300000 then s
  else if t.endForced then cutSaves (fun x => x.dropTasks.contains r) s
  else forL (holdoutsOf s [r]) (forceSaving [] [r]) (modTask r.p.val r.e.val (fun t => { t with endForced := true }) s)

/-- ABORT_FORCE_HOLDOUTS: at 0.3 B the holdouts are forced; later a save that they asked for and that has not ended within 18 µs
is cut off. The tasks that end with "fault" follow the running aborts in the numbering (DESIGN CHOICE, log 84). -/
def execAbortForceHoldouts (ix : Nat) (s : State) : Host.Outcome State Fault Refusal :=
  match s.aborts[ix]? with
  | none =>
    match (faultEnds s)[ix - s.aborts.length]? with
    | some (r, t) => ok (forceTask r t s)
    | none => ok s
  | some a =>
    if now s < a.t0.toNat + abortBudget a.kind * 3 / 10 then ok s
    else if a.phase ≠ 1 then ok (cutSaves (savesFor a.kind) s)
    else
      let js := holdouts s a.kind
      let a1 := { a with phase := 2, forced := js.length }
      ok (refreshAbort a1 (forL js (forceSite a.kind) { s with aborts := s.aborts.set ix a1 }))

/-- ABORT_ESCALATION (R423): the L0 that R272 ordered is not ready after 50 µs; source 5 resets the site's cluster at
L1. The wider levels are the reset commands of their own (R420). -/
def escalates (s : State) (j : Nat) : Bool :=
  let x := s.getSite j
  x.mode == 4 && x.byAbort && decide (x.readySince.toNat + 50000 ≤ now s)

/-! ### The end (Table 8.12 events 6 to 8) -/

/-- The commands of an abort read done, or merged with the last phase; the host's vector is raised, fabric requesters
get their replies. -/
def abortDone (a : Abort) (s : State) : State :=
  let a1 := { a with phase := 3 }
  let s1 := forL a1.asks (fun q s =>
    let st := if q.merged then 4 else 2
    let s2 := if q.shown then s.modXrq q.req.val fun x => { x with
        abForced := BitVec.ofNat 4 (min 15 a1.forced), abPhase := 3, abState := BitVec.ofNat 4 st } else s
    abortReply q.remote q.tag st 3 a1.forced s2) s
  if a1.asks.any fun q => q.req.val == 0 then raiseEvent 1 s1 else s1

/-- ABORT_COMPLETE: nothing of the target is left on a site; the affected contexts' translations are dropped, the
tasks' completions are posted, and then the abort is done. -/
def execAbortComplete (ix : Nat) (s : State) : Host.Outcome State Fault Refusal :=
  match s.aborts[ix]? with
  | none => ok s
  | some a =>
    let saving := (List.range 96).any fun j => savesFor a.kind (s.getSite j)
    if !(holdouts s a.kind).isEmpty || saving then ok s
    else
      let s1 := forL a.ctxs (fun c s => invalidate (wholeCtx c) s) s
      let s2 := forL (abortTasks s1 a.kind) (fun e s =>
        let r : TaskRef := { p := Fin.ofNat 4 e.1, e := Fin.ofNat 256 e.2.1 }
        match outcome s r e.2.2 with
        | some x => if pcRuns s e.1 then completeTask r e.2.2 x s else s
        | none => s) s1
      let a1 := { a with phase := 3 }
      if (abortTasks s2 a.kind).all fun e => decide (e.2.2.sync = .posting) then
        ok (abortDone a1 (setAborting { s2 with aborts := s2.aborts.eraseIdx ix }))
      else ok (refreshAbort a1 { s2 with aborts := s2.aborts.set ix a1 })

/-! ### Tag loss (R220) -/

/-- TAG_LOSS: the slice reports slice and set to the management core, which aborts every context with a device abort. A loss
that the scrubber found is then reported (R222). -/
def execTagLoss (slice : Slice) (set : BitVec 14) (s : State) : Host.Outcome State Fault Refusal :=
  ok (abortCmd 1 3 none (notifyMgmt (2 ^ 24 + slice.val * 2 ^ 14 + set.toNat)
    (s.modSlc slice.val fun x => { x with tagLost := x.tagLost.filter (· ≠ set.toNat) })))

end Sys2Proof.Machine
end

