-- ==== Sys2Proof/Machine/Lifecycle.lean ====
section
/-! DEFINITION. What the wider resets do: the drain of a partition (Table 14.3), the state that L2, L3 and L4 leave, and
how a reset starts (R416 to R418, R420, R425, R426, R428, R430, R447). -/

namespace Sys2Proof.Machine
open Sys2Proof

/-! ### Completions posted by the management core (R417) -/

/-- Present a reply word as the management core, with the label of its task (R279). A queue of the region cannot take it: it is
lost then (R315, R417). Any other queue without room, or itself in reset, holds it (R307, R429). -/
def mgmtPut (inside : Nat → Bool) (q : Nat) (d : Option (BitVec 56)) (w : Line) (label : Nat × Bool × W32) (lost : State → State)
    (s : State) : State :=
  if d.isNone && inside (queOwner s q) then lost s
  else if (s.getPart (asmPart s .mgmt q d)).held_.any fun h => decide (h.who = .mgmt ∧ h.q = q ∧ h.dest = d) then
    holdWord .mgmt q w false true d s none (some label)
  else
    match putNew .mgmt q w false true d s (some label) with
    | .stored s1 => s1
    | .overlong s1 => lost s1
    | .bus s1 => lost s1
    | _ => holdWord .mgmt q w false true d s none (some label)

/-- Post a reply for task `t` as the management core. -/
def mgmtPost (inside : Nat → Bool) (t : Task) (w : Line) (lost : State → State) (s0 : State) : State :=
  let dest := t.reply
  let s := send (.reply dest w) s0
  match localQueue s dest.toNat with
  | some q => mgmtPut inside q none w (taskLabel t) lost s
  | none => if dest.toNat / 2 ^ 40 = s.net.id.toNat then lost s else mgmtPut inside 0 (some dest) w (taskLabel t) lost s

/-- Post the message of an owed completion, stamped with the time of the post (R301). -/
def postOwed (inside : Nat → Bool) (e : OwedEnd) (s : State) : State :=
  if e.task.complMsg then mgmtPost inside e.task (e.word.set 1 s.skt.time) countLost s else s

/-- Take an owed completion as far as it goes: the signal, and then the message; a signal that waits for a partition in reset
or for the endpoint, or is out, keeps it owed (R315, R429). -/
def oweEnd (inside : Nat → Bool) (e : OwedEnd) (s : State) : State :=
  let keep (x : SyncPhase) (s : State) : State :=
    { s with rst := { s.rst with owed := s.rst.owed ++ [{ e with task := { e.task with sync := x } }] } }
  match e.task.sync with
  | .done => postOwed inside e s
  | .posting => postOwed inside e s
  | .sent n => keep (.sent n) s
  | _ =>
    let (s1, ph) := signalAs .mgmt 1 e.p.val e.task s
    if ph = .done then postOwed inside e s1 else keep ph s1

/-- Every owed completion in turn. -/
def owedTick (s : State) : State :=
  if s.rst.owed.isEmpty then s
  else forL s.rst.owed (fun e s => oweEnd (fun q => q == e.p.val && inReset s q) e s) { s with rst := { s.rst with owed := [] } }

/-- Completions that the management core presents and no queue has taken. -/
def mgmtHolds (s : State) : List HeldPut :=
  (List.range 4).flatMap fun t => (s.getPart t).held_.filter fun h => decide (h.who = .mgmt) && h.label.isSome && lf h.word 0 7 0 == 3

/-- Completions still owed, or held on their way to a queue, are lost (R417). -/
def loseOwed (s : State) : State :=
  let s1 := forL (mgmtHolds s) (fun h s => countLost (forN 4 (fun t s => s.modPart t fun x => { x with held_ := dropFirst (fun a => decide (a = h)) x.held_ }) s)) s
  forL (s.rst.owed.filter (·.task.complMsg)) (fun _ s => countLost s) { s1 with rst := { s1.rst with owed := [] } }

/-- The management core takes over the completion of a task of partition `p`. A signal that the controller has sent is not sent
again (DESIGN CHOICE, log 85). -/
def takeOver (inside : Nat → Bool) (p : Nat) (t : Task) (w : Line) (s : State) : State :=
  let sync := match t.sync with | .sent _ => SyncPhase.done | x => x
  oweEnd inside { p := Fin.ofNat 4 p, task := { t with sync := sync }, word := w } s

/-- The refusal PARTITION_RESET in place of a reply (Table 9.4). -/
def resetRefusal (s : State) (w : Line) : Line :=
  mkLine [BitVec.ofNat 64 (2 + 0x10 * 2 ^ 16 + lf w 0 63 32 * 2 ^ 32), s.skt.time, lw w 2, lw w 3]

/-- Task messages that the controller has taken and not answered are refused with PARTITION_RESET; an accepted one among them is
not admitted (R43, Table 14.3 event 4). One whose task has already completed has its acceptance posted instead (DESIGN CHOICE,
log 85). -/
def refuseHeld (p : Nat) (inside : Nat → Bool) (s : State) : State :=
  forL (s.getPart p).asked (fun a s =>
    let done := lf a.word 0 7 0 == 1 && a.ref.isNone
    let s1 := match a.ref with
      | some r => s.modPart p fun x => { x with tasks := Tbl.put none x.tasks r.e.val none }
      | none => s
    mgmtPost inside a.task (if done then a.word.set 1 s1.skt.time else resetRefusal s1 a.word) id s1)
    (s.modPart p fun x => { x with asked := [] })

/-- How a task ends in a reset of its region: a completion already presented, a success already reached, an abort and an
exception stand, everything else ends COLLATERAL_RESET (R302, R417). -/
def resetOutcome (s : State) (r : TaskRef) (t : Task) : Nat × Nat × Nat :=
  match t.ending with
  | some x => if t.sync = .posting ∨ x.1 = 0 ∨ x.1 = 2 ∨ (x.1, x.2.1) = (1, 1) then x else collateral s r
  | none => if workDone s r t then (0, 0, 0) else collateral s r

/-- Complete every accepted task of partition `p` (Table 14.3 event 4), or count their completions as lost where no
drain runs; the admitted-task table is empty then. -/
def endPartTasks (p : Nat) (drain : Bool) (inside : Nat → Bool) (s : State) : State :=
  let s1 := forL (partTasks s p) (fun e s =>
    let r : TaskRef := { p := Fin.ofNat 4 p, e := Fin.ofNat 256 e.1 }
    let x := resetOutcome s r e.2
    if drain then takeOver inside p e.2 (replyWord s p 3 x.1 x.2.1 x.2.2 e.2) s else countLost s) s
  s1.modPart p fun x => { x with tasks := [] }

/-! ### Stopping a partition (Table 14.3 events 2, 3, 5 and 6) -/

/-- The agent lies in partition `p`. -/
def agentIn (p : Nat) (a : Agent) : Bool :=
  match a with
  | .group j _ => j.val / 24 == p
  | .array x => x.val / 48 == p
  | .dma c => c.val / 96 == p
  | .pc q => q.val == p
  | _ => false

/-- A waiter of an object of the partition meets "target resetting" (R319): a remote requester by its NACK; a group outside stays
held on its SWAIT and presents it again, and any other local agent's wait is held; the host takes a bus error (R429, R482). -/
def waiterReset (o : Nat) (w : Waiter) (s : State) : State :=
  match w.pkt with
  | some q => respNack q 1 s
  | none =>
    match w.who with
    | .group j k => s.modGrp (gIx j.val k.val) fun g =>
        if g.mode = .held then { g with hold := .arrive, retryFrom := some s.skt.time } else g
    | .host => hostBusError (syncAddr o 0) s
    | a => holdWait a o w.threshold ((w.until_.map fun t => (t.toNat - now s + 999) / 1000).getD 0) (some s.skt.time) s

/-- Sync waiters: those of the region's agents leave; those on the partition's objects are answered (R319). -/
def waitersLeave (p : Nat) (s : State) : State :=
  forL s.syncs (fun e s =>
    let o := if e.1 < 4096 then e.1 else match (s.getSyn e.1).replacing with | some r => r.toNat | none => e.1
    let mine := (if e.1 < 4096 then e.1 / 1024 else (e.1 - 4096) / 32) == p
    let ws := (s.getSyn e.1).waiters.filter fun w => !agentIn p w.who
    let s1 := s.modSyn e.1 fun x => { x with waiters := if mine then [] else ws }
    if mine then forL ws (waiterReset o) s1 else s1) s

/-- A queue of the partition is emptied and its registers reset: QUE_CFG and QUE_RING read 0 until the next bring-up, while the
image's description stays in force (R304, R313, R324; DEDUCED, log 88). -/
def queReset (x : Queue) : Queue :=
  { owner := x.owner, consumer := x.consumer, notice := x.notice, target := x.target, ringUnits := x.ringUnits, ringBase := x.ringBase }

/-- Requests already delivered into the partition and not answered (R370). -/
def inboxLost (p : Nat) (s : State) : State :=
  let mine (e : Nat × Pkt) : Bool := !e.2.isResp && decide (e.2.op.toNat < 7) && decide (targetTower s e.2.addr.toNat = some p)
    && !(match regionOf e.2.addr.toNat with | .regs => true | _ => false)
  forL (s.net.inbox.filter mine) (fun e s => respNack e.2 0x11 (undeliver e.1 e.2 s)) s

/-- Slice registers of the tower at their reset values, a new lap from device time `t`; the repair bookkeeping, the stored
contents and what has struck them stay. -/
def sliceReset (t : W64) (x : Slice_) : Slice_ :=
  { lapFrom := t, hurt := x.hurt, rowErr := x.rowErr, colErr := x.colErr, rowsUsed := x.rowsUsed, colsUsed := x.colsUsed, due := x.due, colDue := x.colDue
    exhausted := x.exhausted }

/-- The governor's registers at their reset values; the commanded voltages with the writes that still carry them to the
regulators, VMAX_DIV, which counts since L3, and THM_STATE.AGEING, which resets at L4, stay (R61, R430). -/
def govReset (g : Gov) : Gov :=
  { vcore := g.vcore, vloess := g.vloess, vmaxDiv := g.vmaxDiv, weight := g.weight, back := g.back, amps := g.amps, due := g.due
    ageing := g.ageing, highFrom := g.highFrom }

/-- The controller's record after its partition's reset: counters of SVC and the ladder arrays clear, the floor fault
and ladder stage, which reset at L3, stay (R303, R430), words of agents outside wait on (R307, R429), and its local memory keeps
its firmware (Table 14.1, R428). -/
def partReset (x : Part) : Part :=
  { started := x.started, held := x.held, stage := x.stage, calm := x.calm, floorFault := x.floorFault, floorSeen := x.floorSeen
    floorFixed := x.floorFixed, clearRun := x.clearRun, gen := x.gen + 1, held_ := x.held_, arrivals := x.arrivals, memory := x.memory }

/-- Stop, drain and hold partition `p`: Table 14.3 events 2 to 6. Without a drain nothing is posted and the caches are
not flushed (R426). -/
def stopPartition (p : Nat) (drain : Bool) (inside : Nat → Bool) (s : State) : State :=
  let s0 := if drain then refuseHeld p inside s else s
  let s1 := endPartTasks p drain inside s0
  let s2 := waitersLeave p (inboxLost p (discardOpen (agentIn p) s1))
  let s3 := forL (towerSites p) (fun j s => if s.fuses.sitesOff.contains j then s else clearUnits j s) s2
  let s4 := forN 512 (fun q s => if queOwner s q = p then s.modQue q queReset else s) s3
  let s5 := if drain then drainWb p (flushTower p s4) else s4
  let s6 := forN 17 (fun c s => s.modMCh (17 * p + c) fun x => { x with arb := {} }) (drainStack p (invalidateTower p s5))
  let s7 := forL (towerSites p) (fun j s => s.modSlc j (sliceReset s6.skt.time)) s6
  let s8 := (s7.modPart p fun x => partReset { x with held_ := x.held_.map fun h => { h with since := s.skt.time } }).modGov p govReset
  { s8 with
    mrl := { s8.mrl with selfRef := setBit s8.mrl.selfRef p true }
    sel := forN 16 (fun u t => Tbl.put 0 t (16 * (2 + p) + u) 0) s8.sel }

/-- Release partition `p`: its stack leaves self-refresh and its sites are ready (Table 14.3 events 7 and 8). At halt the partition
stays held, its stack in self-refresh (R460). -/
def releasePartition (p : Nat) (s : State) : State :=
  let s0 := { s with rst := { s.rst with inReset := setBit s.rst.inReset p false } }
  if s.thm.halted then s0
  else
    let s1 := forL (towerSites p) (fun j s => if (s.getSite j).mode = 4 then s.modSite j fun x => { x with mode := 0, byAbort := false } else s) s0
    let s2 := s1.modPart p fun x => { x with held := false, kick := s.skt.time }
    { s2 with mrl := { s2.mrl with selfRef := setBit s2.mrl.selfRef p false } }

/-! ### The device at L3 (R416, R430) -/

/-- Sync objects at L3: counters and tickets 0, waiters gone; a failed object without a spare leaves FAILED, a
replacement stays (R321, R443). -/
def syncL3 (t : Tbl SyncObj) : Tbl SyncObj :=
  let served := t.filterMap fun e => if 4096 ≤ e.1 then e.2.replacing.map (·.toNat) else none
  t.filterMap fun e =>
    let y : SyncObj := { replacing := e.2.replacing, failed := e.2.failed && served.contains e.1 }
    if y = {} then none else some (e.1, y)

/-- A site's record at a reset of the whole device: what the repair map holds stays. -/
def siteL3 (x : Site_) : Site_ :=
  { status := x.status, byFuse := x.byFuse, replacedBy := x.replacedBy, outBundles := x.outBundles, lostGroups := x.lostGroups
    half := x.half, gen := x.gen + 1, blkRefused := x.blkRefused }

/-- A bundle group at a reset of the device: its calibration point and a lost spare stay. -/
def bgrL3 (x : BundleGroup) : BundleGroup := { lost := x.lost, spareBad := x.spareBad, repair := x.repair, temp := x.temp }

/-- Keep the entries of a table that `f` leaves different from the default `d`. -/
def mapTbl {α : Type} [DecidableEq α] (d : α) (f : α → α) (t : Tbl α) : Tbl α :=
  t.filterMap fun e => let y := f e.2; if y = d then none else some (e.1, y)

/-- Every slice at a reset of the device: a new lap begins (R224). -/
def deviceSlices (s : State) : Tbl Slice_ :=
  ((List.range 96).foldl (fun t j => Tbl.mod {} t j (sliceReset s.skt.time)) s.slices)

/-- The start of a new bring-up: the BRU registers at their reset values, the stage given; the token found is looked at
once and cleared (R403). -/
def newBringUp (s : State) (stage : Nat) (cause : Nat) : Bru :=
  { stage := BitVec.ofNat 4 stage, from_ := s.skt.time, count := s.bru.count + 1, tokenWas := s.rst.token, cause := BitVec.ofNat 8 cause
    m3 := s.bru.m3 }

/-- The device after the L3 reset: Skotrum, the stored memory contents, the retained state and the sensors stay; the
rest is at its reset values, every partition held, and bring-up starts at OPTIONS (R416, R430). Table 14.4 gives no level for
PWR_PROBE and PWR_VMON: they stay at L2 and go at L3 and L4 (DESIGN CHOICE, log 85). The flash is reset (R511). -/
def deviceReset (cause : Nat) (s0 : State) : State :=
  let s := send .flashReset s0
  let n := newBringUp s 1 cause
  let parts : Tbl Part := (List.range 4).filterMap fun p =>
    let y : Part := { gen := (s.getPart p).gen + 1 }
    if y = {} then none else some (p, y)
  { State.reset with
    skt := s.skt, hst := s.hst, pcie := s.pcie, fuses := s.fuses
    sites := mapTbl {} siteL3 s.sites
    slices := deviceSlices s
    lss := { s.lss with target := 0x0E10, busy := 0 }
    loess := s.loess, loessBad := s.loessBad, mchans := mapTbl {} (fun x => { x with arb := {} }) (restartMoves s).mchans, marl := s.marl, marlBad := s.marlBad
    mrl := { (restartMoves s).mrl with target := 0x0E10, selfRef := 0xF }
    parts := parts, ports := mapTbl {} (fun x => { blkRefused := x.blkRefused }) s.ports, syncs := syncL3 s.syncs, bundles := s.bundles, coldSweep := s.coldSweep, bgroups := mapTbl {} bgrL3 s.bgroups
    pwr := { vioDown := s.pwr.vioDown, rateSet := s.pwr.rateSet }, sens := s.sens
    govs := mapTbl {} (fun g => { ageing := g.ageing }) s.govs
    thm := { s.thm with halted := false, stopping := false, coolFrom := none, cut := false }
    net := { id := s.net.id, idValid := s.net.idValid, drawn := s.net.drawn }
    bru := n
    rst := { s.rst with token := none, inReset := 0, running := [], owed := [], wdog := 0 }
    board := s.board, tick := s.tick, tx := s.tx, pending := s.pending }

/-! ### The device at L4 (R418, R447) -/

/-- Decode a repair fuse: the eight bytes of a map entry (Table 14.8). -/
def fuseRepair (w : W64) : Repair :=
  let v := w.toNat
  { kind := BitVec.ofNat 8 v, logged := true, fused := true, unit := BitVec.ofNat 16 (bits v 31 16), index := BitVec.ofNat 24 (bits v 55 32)
    spare := BitVec.ofNat 8 (bits v 63 56) }

/-- The same repair, whatever its flags. -/
def sameRepair (a b : Repair) : Bool := a.kind == b.kind && a.unit == b.unit && a.index == b.index && a.spare == b.spare

/-- The repair map after L4: the fuses, then the log (R447). -/
def rebuiltMap (s : State) : List Repair :=
  let fs := s.fuses.repairs.map fuseRepair
  let unfused (r : Repair) : Repair := { r with logged := true, fused := false }
  (fs ++ (s.rst.logTail.filter fun r => !fs.any (sameRepair r)).map unfused).take 1023

/-- Put one repair of the map into force (Table 14.8). -/
def applyRepair (r : Repair) (s : State) : State :=
  let u := r.unit.toNat
  let ix := r.index.toNat
  let sp := r.spare.toNat
  let bun (j k b : Nat) : Nat := (8 * j + k) * 33 + b
  match r.kind.toNat with
  | 1 => setSiteStatus (24 * (u / 24) + sp) 2 ((setSiteStatus u 4 s).modSite u fun x => { x with replacedBy := r.spare })
  | 2 => setSiteStatus u 4 s
  | 3 => setSiteStatus u 3 (s.modSite u fun x => { x with half := true })
  | 4 => s.modBun (bun u (ix / 64) (ix % 64)) fun x => { x with bonds := min 2 (x.bonds + 1) }
  | 5 => (s.modBun (bun u (ix / 64) (ix % 64)) fun x => { x with out := true }).modSite u fun x => { x with outBundles := x.outBundles + 1 }
  | 6 => (s.modBgr (8 * u + ix) fun x => { x with lost := true }).modSite u fun x => { x with lostGroups := x.lostGroups + 1 }
  | 7 => s.modSlc u fun x => { x with rowsUsed := Tbl.mod 0 x.rowsUsed (ix % 256) fun n => max n (sp + 1) }
  | 8 => s.modSlc u fun x => { x with colsUsed := Tbl.mod 0 x.colsUsed (ix % 256) fun n => max n (sp + 1) }
  | 9 => { s with mrl := { s.mrl with rowsUsed := Tbl.mod 0 s.mrl.rowsUsed (192 * u + ix % 256) fun n => max n (sp + 1) } }
  | 10 => s.modMCh u fun x => if x.mark0 = 0xFF then { x with mark0 := BitVec.ofNat 8 ix } else { x with mark1 := BitVec.ofNat 8 ix }
  | 11 =>
    let s1 := s.modMCh (17 * (u / 17) + sp) fun x => { x with role := 0, logical := BitVec.ofNat 4 ix, given := true }
    let s2 := s1.modMCh u fun x => { x with role := 4, logical := 15, given := true }
    { s2 with mrl := { s2.mrl with spareUsed := setBit s2.mrl.spareUsed (u / 17) true } }
  | 15 => (s.modSyn u fun x => { x with failed := true }).modSyn ix fun x => { x with replacing := some (BitVec.ofNat 12 u) }
  | _ => s

/-- A record of the repair log as it is read: its slot, whether it is a snapshot's start, its SEQ and its map entry. -/
structure LogRec where
  slot : Nat
  start : Bool
  seq : Nat
  entry : Repair
deriving DecidableEq, Repr

/-- The record of 32-byte slot `k` of the log region; none where its MAGIC or CRC fails (R445). -/
def logRecAt (flash : List Host.Cell) (k : Nat) : Option LogRec :=
  let b := getBytes 0xFF flash (0x100000 + 32 * k) 32
  let le (o n : Nat) : Nat := ofLe ((b.drop o).take n)
  if le 0 2 = 0x474C ∧ le 0x1C 4 = crc32c (b.take 0x1C) then
    some { slot := k, start := le 2 1 == 0x10, seq := le 4 4, entry := { fuseRepair (BitVec.ofNat 64 (le 0x14 8)) with fused := bit (le 0x15 1) 1 } }
  else none

/-- Put a record into the order of SEQ. -/
def insertRec (r : LogRec) : List LogRec → List LogRec
  | [] => [r]
  | x :: l => if r.seq < x.seq then r :: x :: l else x :: insertRec r l

/-- The slots of the log region that are not erased, 16,384 in each half. -/
def logSlots (flash : List Host.Cell) : List Nat :=
  ((flash.filter fun c => decide (0x100000 ≤ c.1 ∧ c.1 < 0x200000)).map fun c => (c.1 - 0x100000) / 32).eraseDups

/-- The log as a cold start reads it: the entries in SEQ order, each once, the next SEQ, the half of the youngest record and the
place after the last written one of that half (R445, R447). A flash whose pins are undriven leaves what was read before (DESIGN
CHOICE, log 73). -/
def readLog (s : State) : Rst :=
  if s.pwr.vioDown then { logTail := s.rst.logTail, logSeq := s.rst.logSeq, logHalf := s.rst.logHalf, logPos := s.rst.logPos }
  else
    let slots := logSlots s.board.flash
    let recs := (slots.filterMap (logRecAt s.board.flash)).foldl (fun l r => insertRec r l) []
    let second := match recs.getLast? with | some r => decide (16384 ≤ r.slot) | none => false
    let add (l : List Repair) (r : LogRec) : List Repair := if r.start || l.any (sameRepair r.entry) then l else l ++ [r.entry]
    { logTail := recs.foldl add []
      logSeq := match recs.getLast? with | some r => BitVec.ofNat 32 (r.seq + 1) | none => 0
      logHalf := second
      logPos := (slots.filter fun k => decide (16384 ≤ k) == second).foldl (fun n k => max n (k % 16384 + 1)) 0 }

/-- Remove the entries of `n` keys from `a` on: bytes written back to 0. -/
def zeroRange (t : List Host.Cell) (a n : Nat) : List Host.Cell := t.filter fun c => decide (c.1 < a ∨ a + n ≤ c.1)

/-- Bytes an erase covers. -/
def eraseSize (op : Nat) : Nat := if op = 3 then 0x1000 else 0x1_0000

/-- What the operation of the host does to the flash where it is a program, which clears bits, or an erase, which sets them. -/
def flashLand (x : FlashRun) (flash : List Host.Cell) : List Host.Cell :=
  if x.op = 2 then putBytes 0xFF flash x.addr ((getBytes 0xFF flash x.addr x.len).zipWith (· &&& ·) x.data)
  else if x.op = 1 then flash
  else zeroRange flash x.addr (eraseSize x.op)

/-- The flash as a reset leaves it: the device lets a program or erase command that runs end before it drives XSPI_RESET_N
(R465, R511). -/
def flashEnded (s : State) : List Host.Cell :=
  match s.hst.flashRun with
  | some x => if s.hst.flashHeld || s.bru.persRun || s.pwr.vioDown then s.board.flash else flashLand x s.board.flash
  | none => s.board.flash

/-- Everything at its reset values but what no L4 clears: the fuses, the flash, the stored contents of the memories, the
trip latch, the pins (R416, R463, R510). The log is read anew, and the map rebuilt from it (R445, R447). -/
def coldReset (s : State) : State :=
  let r := readLog s
  let l : Rst := { r with l4count := s.rst.l4count + 1, repairs := rebuiltMap { s with rst := r } }
  let b : Board := { straps := s.board.straps, flash := s.board.flash }
  let s1 := { State.reset with
    fuses := s.fuses, loess := s.loess, marl := s.marl, board := b, rst := l
    thm := { trip := s.thm.trip }, pcie := { perst := s.pcie.perst }
    skt := { refLoss := s.skt.holdover, holdover := s.skt.holdover }
    pwr := { vioDown := s.pwr.vioDown }
    net := { drawn := s.net.drawn }
    tick := s.tick, tx := s.tx, pending := s.pending }
  resumeMarks (forL l.repairs applyRepair s1)

/-- Write the Vout transition rate of every VCORE and VLOESS rail, 10 mV/µs, once at bring-up (R62). -/
def writeRates (s : State) : State :=
  forN 8 (fun k s => if getBit s.pwr.rateSet k then s
    else send (.avs (k / 2) (k % 2) 2 10) { s with pwr := { s.pwr with rateSet := setBit s.pwr.rateSet k true } }) s

/-! ### How a reset starts (R420, R425, R426) -/

/-- A running reset of at least level `lvl` whose region holds the region asked for (R425). -/
def insideRunning (s : State) (lvl tgt : Nat) : Bool :=
  s.rst.l4held || s.rst.running.any fun r =>
    decide (lvl ≤ r.level) && (decide (3 ≤ r.level) || (decide (r.level = lvl) && decide (r.target = tgt)))

/-- Start an L2 of partition `p`: events 1 to 6 (Table 14.3). -/
def startL2 (src p detail : Nat) (s : State) : State :=
  let s1 := noteReset src 2 p detail s
  let run : Reset := { level := 2, target := p, source := src, t0 := s.skt.time, drained := true }
  let s2 := stopPartition p true (fun q => q == p) s1
  { s2 with rst := { s2.rst with inReset := setBit s2.rst.inReset p true, running := s2.rst.running ++ [run] } }

/-- Start an L3: the drain of every partition that is not yet drained, or none after a thermal trip or a
management-core watchdog (R426). An orderly stop ends (R461). -/
def startL3 (src detail : Nat) (s : State) : State :=
  let s1 := noteReset src 3 0 detail s
  let drain := src ≠ 4 && src ≠ 6
  let run : Reset := { level := 3, target := 0, source := src, t0 := s.skt.time, drained := drain }
  let s2 := forN 4 (fun p s => if inReset s1 p then s else stopPartition p drain (fun _ => true) s) (if drain then s1 else loseOwed s1)
  { s2 with
    thm := { s2.thm with stopping := false }
    rst := { s2.rst with inReset := 0xF, running := [run] } }

/-- Start an L4: every domain is held; accepted tasks' completions are lost; the flash is reset (R417, R418, R511). -/
def startL4 (src detail : Nat) (s : State) : State :=
  let t := s.skt.time
  let s0 := { s with board := { s.board with flash := flashEnded s } }
  let s1 := send .flashReset (coldReset (forN 4 (fun p s => endPartTasks p false (fun _ => true) s) (loseOwed (noteReset src 4 0 detail s0))))
  { s1 with
    skt := { s1.skt with time := t }
    rst := { s1.rst with l4held := true, l4From := t, running := [{ level := 4, target := 0, source := src, t0 := t, drained := false }] } }

/-- A reset of level `lvl` from source `src` (R411, R425). -/
def startReset (src lvl tgt detail : Nat) (s : State) : State :=
  if insideRunning s lvl tgt then histAdd src lvl tgt true s
  else
    match lvl with
    | 0 => startSiteReset src 0 tgt [tgt] s
    | 1 => startSiteReset src 1 tgt (clusterSites tgt) s
    | 2 => if s.bru.stage.toNat < 9 then discardInBoot src 2 tgt s else startL2 src tgt detail s
    | 3 => startL3 src detail s
    | _ => startL4 src detail s

/-- A source that maps to a level by itself (R420). -/
def raiseSource (src : Nat) (tgtOf : Nat → Nat) (detail : Nat) (s : State) : State :=
  match sourceLevel s src with
  | none => s
  | some lvl => if permits s src lvl || (resetOverride s src).isSome then startReset src lvl (tgtOf lvl) detail s else s

end Sys2Proof.Machine
end

