-- ==== Sys2Proof/Machine/Resets.lean ====
section
/-! DEFINITION. Reset requests at L2 to L4, the ends of the wider resets, the watchdogs, abort escalation, and the repair
log (R418, R420 to R426, R428, R445, R446). -/

namespace Sys2Proof.Machine
open Sys2Proof

/-! ### Requests (R420, R424) -/

/-- A RST_REQUEST write at level `lvl`. -/
def requestReset (r key lvl tgt : Nat) (s : State) : State :=
  match checkReset r key lvl tgt s with
  | .error s1 => s1
  | .ok src => startReset src lvl (if 3 ≤ lvl then 0 else tgt) 0 s

/-- RST_REQUEST_L2. -/
def execRstRequestL2 (r : Req) (key target : Byte) (s : State) : Host.Outcome State Fault Refusal :=
  ok (requestReset r.val key.toNat 2 target.toNat s)
/-- RST_REQUEST_L3. -/
def execRstRequestL3 (r : Req) (key : Byte) (s : State) : Host.Outcome State Fault Refusal := ok (requestReset r.val key.toNat 3 0 s)
/-- RST_REQUEST_L4. -/
def execRstRequestL4 (r : Req) (key : Byte) (s : State) : Host.Outcome State Fault Refusal := ok (requestReset r.val key.toNat 4 0 s)

/-! ### Ends (Table 14.3 events 7 and 8, R418, R426, R428) -/

/-- PARTITION_RESET_RELEASE: with the controller's sections intact the partition runs again; a failed hash check
escalates to L3 (R428). -/
def execPartitionResetRelease (p : Tower) (hashOk : Bool) (s : State) : Host.Outcome State Fault Refusal :=
  match s.rst.running.find? fun r => decide (r.level = 2 ∧ r.target = p.val) with
  | none => ok s
  | some r =>
    if !hashOk then ok (startReset r.source 3 0 0 s)
    else
      let left := s.rst.running.filter fun x => !decide (x = r)
      ok (raiseEvent 5 (releasePartition p.val { s with rst := { s.rst with running := left } }))

/-- L3_DRAIN_END: the device resets and a new bring-up starts. A trip latch keeps the reset in force (R463). -/
def execL3DrainEnd (s : State) : Host.Outcome State Fault Refusal :=
  match s.rst.running.find? fun r => decide (r.level = 3) with
  | none => ok s
  | some r => if s.thm.trip then ok s else ok (deviceReset r.source (loseOwed s))

/-- L4_RELEASE: 1 ms after the hold began every domain is released and the cold start begins with device time 0 (R66,
R418). -/
def execL4Release (s : State) : Host.Outcome State Fault Refusal :=
  if s.rst.l4held ∧ s.rst.l4From.toNat + 1000000 ≤ now s ∧ !s.thm.trip then
    let c := coldReset s
    ok (writeRates { c with rst := { c.rst with l4count := s.rst.l4count } })
  else ok s

/-! ### Watchdogs (R422) -/

/-- The value that rearms a partition watchdog (Table 14.14). -/
def kickValue : W32 := 0x4B49434B

/-- RST_WDOG_KICK. -/
def execRstWdogKick (r : Req) (val : W32) (s : State) : Host.Outcome State Fault Refusal :=
  if 2 ≤ r.val ∧ r.val ≤ 5 ∧ val = kickValue then ok (s.modPart (r.val - 2) fun x => { x with kick := s.skt.time }) else ok s

/-- PARTITION_WATCHDOG_EXPIRY: source 3 for the partition. -/
def execPartitionWatchdogExpiry (p : Tower) (s : State) : Host.Outcome State Fault Refusal :=
  if s.bru.ready ∧ !inReset s p.val ∧ (s.getPart p.val).kick.toNat + s.rst.timeout.toNat * 1000000 ≤ now s then
    ok (raiseSource 3 (fun lvl => if lvl = 2 then p.val else 0) p.val
      { s with rst := { s.rst with wdog := setBit s.rst.wdog p.val true } })
  else ok s

/-- MGMT_WATCHDOG_REARM. -/
def execMgmtWatchdogRearm (s : State) : Host.Outcome State Fault Refusal :=
  ok { s with rst := { s.rst with mgmtKick := s.skt.time } }

/-- MGMT_WATCHDOG_EXPIRY: source 6 after 1 s. -/
def execMgmtWatchdogExpiry (s : State) : Host.Outcome State Fault Refusal :=
  if s.rst.mgmtKick.toNat + 1000000000 ≤ now s then ok (raiseSource 6 (fun _ => 0) 0 s) else ok s

/-! ### Abort escalation (R423) -/

/-- Region of a site at level `lvl`. -/
def regionTarget (j lvl : Nat) : Nat := if lvl = 0 then j else if lvl = 1 then j / 6 else if lvl = 2 then j / 24 else 0

/-- Tag of the oldest running abort. -/
def abortTag (s : State) : Nat := match s.aborts.head?.bind (·.asks.head?) with | some q => q.tag.toNat | none => 0

/-- ABORT_ESCALATION: source 5. -/
def execAbortEscalation (site : Site) (s : State) : Host.Outcome State Fault Refusal :=
  if escalates s site.val then ok (raiseSource 5 (regionTarget site.val) (abortTag s) s) else ok s

/-! ### Write windows (R464, R465) -/

/-- A sensor reading lies in a range of degrees Celsius. -/
def inRange (v : BitVec 16) (lo hi : Int) : Bool := decide (16 * lo ≤ v.toInt ∧ v.toInt ≤ 16 * hi)

/-- The flash write window: sensor 254 has been sampled, is valid and reads 0 °C to 85 °C (R465). -/
def flashOpen (s : State) : Bool :=
  let x := s.getSen 254
  !x.hist.isEmpty && !x.invalid && inRange x.raw 0 85

/-- The fuse write window: the effective value of sensor 255 lies from 10 °C to 60 °C (R464). -/
def fuseOpen (s : State) : Bool :=
  let x := s.getSen 255
  !x.hist.isEmpty && inRange x.eff 10 60

/-- The flash takes a program or erase command of the device: its window is open, its pins are driven, no other
operation runs (R465, R490, R507). -/
def flashReady (s : State) : Bool := flashOpen s && !s.pwr.vioDown && !(s.hst.flashBusy && !s.hst.flashHeld)

/-! ### The repair log (R445, R446) -/

/-- The eight bytes of a map entry (Table 14.8). -/
def repairBytes (r : Repair) : List Byte :=
  [r.kind, BitVec.ofNat 8 (b2n r.logged + 2 * b2n r.fused)] ++ leBytes 2 r.unit.toNat ++ leBytes 3 r.index.toNat ++ [r.spare]

/-- A log record of 32 bytes. -/
def logRecord (s : State) (kind : Nat) (r : Repair) : List Byte :=
  let body := leBytes 2 0x474C ++ [BitVec.ofNat 8 kind, BitVec.ofNat 8 (b2n r.logged + 2 * b2n r.fused)]
    ++ leBytes 4 s.rst.logSeq.toNat ++ leBytes 8 (now s) ++ leBytes 4 s.rst.l4count.toNat ++ repairBytes r
  body ++ leBytes 4 (crc32c body)

/-- Flash address of the next record of the active half. -/
def logAt (s : State) : Nat := 0x100000 + (if s.rst.logHalf then 0x80000 else 0) + 32 * s.rst.logPos

/-- Append one record. -/
def logAppend (kind : Nat) (r : Repair) (s : State) : State :=
  { s with
    board := { s.board with flash := putBytes 0xFF s.board.flash (logAt s) (logRecord s kind r) }
    rst := { s.rst with logSeq := s.rst.logSeq + 1, logPos := s.rst.logPos + 1 } }

/-- Erase a half of the log. -/
def logErase (second : Bool) (s : State) : State :=
  let a := 0x100000 + (if second then 0x80000 else 0)
  { s with board := { s.board with flash := s.board.flash.filter fun c => decide (c.1 < a ∨ a + 0x80000 ≤ c.1) } }

/-- Records of a half of 512 KiB. -/
def logRecords : Nat := 16384

/-- With the active half full, a snapshot of the logged map goes into the other half, and the old half is erased. -/
def logSwitch (s : State) : State :=
  let old := s.rst.logHalf
  let s1 := { s with rst := { s.rst with logHalf := !old, logPos := 0 } }
  let start : Repair := { kind := 0x10, logged := true, fused := false, unit := 0, index := 0, spare := 0xFF }
  logErase old (forL (s.rst.repairs.filter (·.logged)) (fun r s => logAppend r.kind.toNat r s) (logAppend 0x10 start s1))

/-- Log the first entry of the map that waits, where the flash takes it. -/
def logOne (s : State) : State :=
  match s.rst.repairs.findIdx? fun r => !r.logged with
  | none => s
  | some i =>
    match s.rst.repairs[i]? with
    | none => s
    | some r =>
      let r1 := { r with logged := true }
      let s1 := logAppend r.kind.toNat r1 (if s.rst.logPos < logRecords then s else logSwitch s)
      { s1 with rst := { s1.rst with repairs := setAt s1.rst.repairs i r1, logTail := s1.rst.logTail ++ [r1] } }

/-- REPAIR_LOG_WRITE (R445, R446). -/
def execRepairLogWrite (s : State) : Host.Outcome State Fault Refusal := if flashReady s then ok (logOne s) else ok s

/-! ### Repair fuses (R446, R447) -/

/-- The fuse word of a map entry. -/
def repairFuse (r : Repair) : W64 := BitVec.ofNat 64 (ofLe (repairBytes { r with logged := true, fused := true }))

/-- Program every map entry that waits for the fuses, in map order, while they have room. -/
def programRepairs (s : State) : State :=
  forL (List.range s.rst.repairs.length) (fun i s =>
    match s.rst.repairs[i]? with
    | none => s
    | some r =>
      if r.fused || !kindFused r.kind.toNat || decide (2048 ≤ s.fuses.repairs.length) then s
      else { s with
        fuses := { s.fuses with repairs := s.fuses.repairs ++ [repairFuse r] }
        rst := { s.rst with repairs := setAt s.rst.repairs i { r with fused := true } } }) s

end Sys2Proof.Machine
end

