-- ==== Sys2Proof/Machine/Thermal.lean ====
section
/-! DEFINITION. Temperature sensors and their cross-check, the thresholds, the orderly stop and the hardware trip
(chapter 15: R449 to R463). Temperatures are in 1/16 °C. -/

namespace Sys2Proof.Machine
open Sys2Proof

/-! ### The sensor map (Table 15.1) -/

/-- KIND of Table 15.11: 0 junction, 1 model only, 2 flash window. -/
def senKind (i : Nat) : Nat := if i = 254 then 2 else if 250 ≤ i ∧ i ≤ 253 then 1 else 0

/-- A junction sensor. -/
def junction (i : Nat) : Bool := senKind i == 0

/-- Partition of a sensor. -/
def senPart (i : Nat) : Option Nat :=
  if i < 192 then some (i % 96 / 24)
  else if i < 240 then some ((i - 192) / 12)
  else if i < 244 then some (i - 240)
  else if i < 250 then some (portTower (i - 244))
  else if i < 255 then none
  else some 2

/-- Tower, stack or package to which a sensor belongs: 0 to 3 towers, 4 to 7 stacks, 8 the package corners, 9 the flash
diode. -/
def senRegion (i : Nat) : Nat :=
  if i < 192 then i % 96 / 24
  else if i < 240 then 4 + (i - 192) / 12
  else if i < 244 then 4 + (i - 240)
  else if i < 250 then portTower (i - 244)
  else if i < 254 then 8
  else if i = 254 then 9
  else 2

/-- Effective value. -/
def effOf (s : State) (i : Nat) : Int := (s.getSen i).eff.toInt

/-- Highest of a list of values. -/
def maxInt (l : List Int) : Option Int := l.foldl (fun m x => match m with | none => some x | some y => some (max x y)) none

/-- Sampling interval code of Table 15.11: 0 1 ms, 1 100 µs, 2 20 µs (R452). -/
def senRate (x : Sens) (i : Nat) : Nat :=
  if i = 254 then 0
  else
    let v := x.eff.toInt
    if 99 * 16 ≤ v then 2 else if 85 * 16 ≤ v ∨ 0 < x.bad.toNat then 1 else 0

/-! ### Predicted trip time (R458) -/

/-- Trip time of a sensor from its last samples, newest first; with fewer than four earlier samples the oldest kept
stands for the fourth-previous. -/
def senTrip (h : List (W64 × BitVec 16)) : Option Nat :=
  match h.head?, h.getLast? with
  | some (tn, vn), some (tf, vf) =>
    if 1760 ≤ vn.toInt then some tn.toNat
    else if vn.toInt ≤ vf.toInt ∨ tn = tf then none
    else some (tn.toNat + ((1760 - vn.toInt) * (tn.toNat - tf.toNat : Nat) / (vn.toInt - vf.toInt)).toNat)
  | _, _ => none

/-- The earliest trip time over the junction sensors at or above 99 °C. -/
def tripTime (s : State) : Option Nat :=
  ((List.range 256).filterMap fun i =>
    if junction i && decide (1584 ≤ effOf s i) then senTrip (s.getSen i).hist else none).min?

/-- Flush time of the largest tower: C × 45 µs. -/
def flushNs (s : State) : Nat := 45000 * (((List.range 4).map fun t => (cacheSlices s t).length).max?).getD 0

/-- Halt time for a start time and a predicted trip time. -/
def haltTime (t0 : Nat) (trip : Option Nat) : Nat :=
  match trip with | none => t0 + 200000000 | some t => min (t - 1000000) (t0 + 200000000)

/-! ### The orderly stop (Table 15.3) -/

/-- End the live tasks that satisfy `q` as voided by the stop, and count them (R459); a fault already reported ends its
task (R302). -/
def voidTasks (q : Task → Bool) (s : State) : State :=
  forN 4 (fun p s =>
    forL (partTasks s p) (fun e s =>
      let r : TaskRef := { p := Fin.ofNat 4 p, e := Fin.ofNat 256 e.1 }
      if e.2.ending.isSome || workDone s r e.2 || !q e.2 then s
      else
        match pendingFault s r with
        | some x => endTask r x.1 x.2.1 x.2.2 s
        | none =>
          let s1 := endTask r 3 0x13 0 s
          { s1 with thm := { s1.thm with voided := BitVec.ofNat 16 (min 65535 (s1.thm.voided.toNat + 1)) } }) s) s

/-- A site that runs best-effort work. -/
def runsBe (s : State) (j : Nat) : Bool :=
  (List.range 24).any fun k =>
    match (s.getGrp (gIx j k)).task with
    | none => false
    | some r => match getTask s r.p.val r.e.val with | some t => !hasWindow t | none => true

/-- Recompute H; under 5 ms to the trip, the flush is dropped and every task voided (R458, R459). -/
def replan (s : State) : State :=
  if !s.thm.stopping then s
  else
    let tt := tripTime s
    let h := haltTime s.thm.t0.toNat tt
    let urgent := s.thm.noFlush || (match tt with | some t => decide (t < now s + 5000000) | none => false)
    if urgent then
      let at_ := if h ≤ now s then now s else min h (now s + 1000000)
      let s1 := { s with thm := { s.thm with
        tripAt := tt, haltAt := if s.thm.noFlush then min s.thm.haltAt at_ else at_, noFlush := true } }
      voidTasks (fun _ => true) s1
    else { s with thm := { s.thm with tripAt := tt, haltAt := h } }

/-- Start an orderly stop (Table 15.3 events 1 to 4): cause 1 thermal with its sensor, 2 a failed rail. In-band interrupt
0x01 (R493). -/
def startStop (cause sensor : Nat) (s : State) : State :=
  if s.thm.stopping || s.thm.halted || s.thm.trip then s
  else
    let s1 := raiseEvent 3 { s with thm := { s.thm with
      stopping := true, cause := BitVec.ofNat 2 cause, sensor := if cause = 2 then 0xFF else BitVec.ofNat 8 sensor
      t0 := s.skt.time, event := 4, noFlush := false, voided := 0, cut := false } }
    let s2 := forN 96 (fun j s => if runsBe s j && saveAllowed s j then startSave j true [] [] s else s) s1
    let s3 := replan s2
    let lim := s3.thm.haltAt - flushNs s3
    send (.ibi 1) (voidTasks (fun t => !hasWindow t || decide (lim < t.winE)) s3)

/-- ORDERLY_STOP_CUTOFF (event 5): real-time tasks not complete at H − T_F are voided. -/
def execOrderlyStopCutoff (s : State) : Host.Outcome State Fault Refusal :=
  if s.thm.stopping ∧ !s.thm.cut ∧ s.thm.haltAt - flushNs s ≤ now s then
    let s1 := voidTasks (fun _ => true) s
    ok { s1 with thm := { s1.thm with cut := true, event := 5 } }
  else ok s

/-- Post the completions still owed at the halt: the reason already decided, else ORDERLY_STOP; SVC_VOIDED counts the voided
ones (R303). -/
def haltTasks (p : Nat) (s : State) : State :=
  let s1 := forL (partTasks s p) (fun e s =>
    let r : TaskRef := { p := Fin.ofNat 4 p, e := Fin.ofNat 256 e.1 }
    let said := e.2.ending.orElse fun _ => pendingFault s r
    let fresh := said.isNone && !workDone s r e.2
    let x := if fresh then (3, 0x13, 0) else said.getD (0, 0, 0)
    let s0 := if fresh then { s with thm := { s.thm with voided := BitVec.ofNat 16 (min 65535 (s.thm.voided.toNat + 1)) } } else s
    let s1 := if x.1 = 3 then s0.modPart p fun y => { y with voided := Tbl.mod 0 y.voided e.2.cls.val (· + 1) } else s0
    if e.2.sync = .posting then s1 else takeOver (fun _ => false) p e.2 (replyWord s1 p 3 x.1 x.2.1 x.2.2 e.2) s1) s
  s1.modPart p fun x => { x with tasks := [], saved := [], faultMsgs := [] }

/-- Command a voltage of a partition's rail: 0 VCORE, 1 VLOESS (R62). An interface in AVSBus fault holds the last
one (R63). -/
def command (p rail mv : Nat) (s : State) : State :=
  if getBit (s.pwr.noResp ||| s.pwr.regFault) p then s
  else
    s.modGov p fun g =>
      if rail = 0 then
        if g.vcore.toNat = mv then g
        else
          let d := BitVec.ofNat 6 ((mv - 650) / 5)
          { g with vcore := BitVec.ofNat 10 mv, due := g.due ++ [(0, mv)], vmaxDiv := if g.vmaxDiv.toNat < d.toNat then d else g.vmaxDiv }
      else if g.vloess.toNat = mv then g
      else { g with vloess := BitVec.ofNat 10 mv, due := g.due ++ [(1, mv)] }

/-- ORDERLY_STOP_HALT (events 6 and 7, R460): the flush where it is not dropped, then the halt. -/
def execOrderlyStopHalt (s : State) : Host.Outcome State Fault Refusal :=
  if s.thm.stopping ∧ s.thm.haltAt ≤ now s then
    let s1 := forN 4 haltTasks s
    let s2 := if s1.thm.noFlush then s1 else forN 4 (fun t s => drainWb t (flushTower t s)) s1
    let s3 := forN 4 drainStack s2
    let s4 := forN 96 (fun j s => if s.fuses.sitesOff.contains j then s else clearUnits j s) s3
    let s5 := forN 4 (fun p s => command p 0 650 (s.modPart p fun x => { x with held := true })) s4
    ok (send (.ibi 2) (raiseEvent 3 { s5 with
      mrl := { s5.mrl with selfRef := 0xF }
      thm := { s5.thm with halted := true, stopping := false, event := 7, coolFrom := none } }))
  else ok s

/-- HALT_RECOVERY (R460): after 10 s with every value below 85 °C the management core requests L3. -/
def execHaltRecovery (s : State) : Host.Outcome State Fault Refusal :=
  match s.thm.coolFrom with
  | none => ok s
  | some t =>
    if s.thm.halted ∧ t.toNat + 10000000000 ≤ now s ∧ !insideRunning s 3 0 then ok (startReset 0xFE 3 0 0 s) else ok s

/-- TRIP_LATCH_CLEAR (R463): after 1 s with every value below 90 °C. -/
def execTripLatchClear (s : State) : Host.Outcome State Fault Refusal :=
  match s.thm.tripFrom with
  | none => ok s
  | some t =>
    if s.thm.trip ∧ t.toNat + 1000000000 ≤ now s then ok { s with thm := { s.thm with trip := false, tripFrom := none } } else ok s

/-! ### Samples (R450, R453 to R456, R462) -/

/-- Saturating increment of an 8-bit count. -/
def inc8 (b : Byte) : Byte := if b = 0xFF then b else b + 1

/-- A temperature as a 16-bit value. -/
def temp16 (v : Int) : BitVec 16 := BitVec.ofInt 16 (max (-32767) (min 32767 v))

/-- Neighbours of a sensor that are not suspect, with their effective values. -/
def goodNbrs (s : State) (i : Nat) : List (Nat × Int) :=
  ((List.range 4).filterMap fun k => (Config.thermNbr i k).map (·.val)).filterMap fun j =>
    if (s.getSen j).suspect then none else some (j, effOf s j)

/-- Measured power of a sensor's partition. -/
def senPower (s : State) (i : Nat) : Nat := match senPart i with | some p => (s.getGov p).power.toNat | none => 0

/-- The estimate e and the neighbour maximum m of R453. Without a trusted neighbour the estimate is the hottest other
sensor of the same kind in the same tower or stack. -/
def estimate (s : State) (i : Nat) (r : Int) : Int × Int :=
  let n := goodNbrs s i
  if n.isEmpty then
    let others := (List.range 256).filter fun j => j != i && senKind j == senKind i && senRegion j == senRegion i
    let e := (maxInt (others.map (effOf s))).getD r
    (e, e)
  else (Config.thermModel i n (senPower s i), (maxInt (n.map (·.2))).getD r)

/-- A sensor becomes suspect; its third event latches it (R453). -/
def becomeSuspect (x : Sens) : Sens :=
  let ev := inc8 x.events
  { x with suspect := true, events := ev, good := 0, latched := x.latched || ev == 3 }

/-- A sensor is trusted again. -/
def recovered (x : Sens) : Sens := { x with suspect := false, bad := 0 }

/-- The checks of one sample: `r` the reading (−40 °C when invalid), `valid` whether it is one. -/
def checkSample (x : Sens) (r e m : Int) (valid : Bool) : Sens :=
  let dev := (r - e).natAbs
  let bad : Byte := if !valid then 3 else if 128 < dev then inc8 x.bad else 0
  let x1 := { x with bad := bad, est := temp16 e }
  let x2 := if 3 ≤ bad.toNat ∧ !x1.suspect then becomeSuspect x1 else x1
  let was := x.latched
  let x3 :=
    if x2.suspect ∧ !was then
      let good := if valid ∧ dev ≤ 64 then x2.good + 1 else 0
      let y := { x2 with good := good }
      if good = 100 ∧ !y.latched then recovered y else y
    else x2
  { x3 with eff := temp16 (if x3.suspect then max r (max e m) else r) }

/-- Every effective value is below a temperature. -/
def allBelow (s : State) (c : Int) : Bool := (List.range 256).all fun i => decide (effOf s i < 16 * c)

/-- Keep the start of the time in which every value is below the recovery temperatures (R460, R463). -/
def trackCool (s : State) : State :=
  let keep (on : Bool) (t : Option W64) : Option W64 := if on then some (t.getD s.skt.time) else none
  { s with thm := { s.thm with
    coolFrom := keep (s.thm.halted && allBelow s 85) s.thm.coolFrom
    tripFrom := keep (s.thm.trip && allBelow s 90) s.thm.tripFrom } }

/-- The hardware trip (R461, R462): the latch is set, the stop ends, reset source 4 is raised. -/
def hardwareTrip (i : Nat) (s : State) : State :=
  if s.thm.trip then s
  else raiseSource 4 (fun _ => 0) i
    (send (.ibi 3) { s with thm := { s.thm with trip := true, stopping := false, tripFrom := none } })

/-- What the effective value of a sensor sets off (Table 15.2). In self-refresh an invalid reading leaves the refresh rate as it is
(DESIGN CHOICE, log 39). -/
def thresholds (i : Nat) (s : State) : State :=
  let v := effOf s i
  let s1 := if 192 ≤ i ∧ i < 240 then
      -- in self-refresh the layer's sensor is used as it reads (R241)
      let st := (i - 192) / 12
      let x := s.getSen i
      if !getBit s.mrl.selfRef st then refreshRate st ((i - 192) % 12) v s
      else if x.invalid then s
      else refreshRate st ((i - 192) % 12) x.raw.toInt s
    else s
  if !junction i then s1
  else if 1760 ≤ v then hardwareTrip i s1
  else if 1632 ≤ v then (if s1.thm.stopping then replan s1 else startStop 1 i s1)
  else if 1584 ≤ v then replan s1
  else s1

/-- A reading in range (R450). -/
def validRaw (raw : Option (BitVec 16)) : Option Int :=
  match raw with
  | some v => if -640 ≤ v.toInt ∧ v.toInt ≤ 2400 then some v.toInt else none
  | none => none

/-- A sample of sensor `i` is due: the interval of its rate has passed since the last. One whose deviation count is above 0 is
sampled at least that often, and sensor 254 also before each flash command (R452). -/
def sampleDue (s : State) (i : Nat) : Bool :=
  let x := s.getSen i
  i == 254 || decide (0 < x.bad.toNat) ||
    match x.hist.head? with
    | none => true
    | some e => decide (e.1.toNat + (match senRate x i with | 0 => 1000000 | 1 => 100000 | _ => 20000) ≤ now s)

/-- SENSOR_SAMPLE (R450 to R456, R462): `raw` is none when the conversion did not finish. -/
def execSensorSample (i : Sensor) (raw : Option (BitVec 16)) (s : State) : Host.Outcome State Fault Refusal :=
  let n := i.val
  if !sampleDue s n then ok s
  else
  let v := validRaw raw
  let r := v.getD (-640)
  let x0 := s.getSen n
  let x1 := { x0 with raw := match v with | some w => temp16 w | none => 0x8000, invalid := v.isNone }
  if n = 254 then
    let s1 := s.modSen n fun _ => { x1 with eff := temp16 r, hist := ((s.skt.time, temp16 r) :: x1.hist).take 5 }
    ok (trackCool { s1 with thm := { s1.thm with diode := v.isNone } })
  else
    let (e, m) := estimate s n r
    let y := checkSample x1 r e m v.isSome
    let s1 := s.modSen n fun _ => { y with hist := ((s.skt.time, y.eff) :: y.hist).take 5 }
    let note := (y.suspect && !x0.suspect) || (y.latched && !x0.latched)
    let s2 := if note then raiseEvent 3 (notifyMgmt (0x100 + n) s1) else s1
    ok (thresholds n (trackCool s2))

/-- SENSOR_SUSPECT (R453): three deviating samples make a sensor suspect. A sample does so itself; this is the same
change on a sensor whose count stands at 3. -/
def execSensorSuspect (i : Sensor) (s : State) : Host.Outcome State Fault Refusal :=
  let x := s.getSen i.val
  if i.val ≠ 254 ∧ 3 ≤ x.bad.toNat ∧ !x.suspect then
    let r := x.raw.toInt
    let (e, m) := estimate s i.val r
    let y := becomeSuspect x
    let s1 := s.modSen i.val fun _ => { y with eff := temp16 (max (if x.invalid then -640 else r) (max e m)) }
    ok (thresholds i.val (trackCool (raiseEvent 3 (notifyMgmt (0x100 + i.val) s1))))
  else ok s

/-- SENSOR_RECOVER (R453): 100 good samples in a row end the suspicion of a sensor that is not latched. -/
def execSensorRecover (i : Sensor) (s : State) : Host.Outcome State Fault Refusal :=
  let x := s.getSen i.val
  if 100 ≤ x.good ∧ x.suspect ∧ !x.latched ∧ !x.invalid then
    let y := recovered x
    ok (thresholds i.val (trackCool (s.modSen i.val fun _ => { y with eff := x.raw })))
  else ok s

end Sys2Proof.Machine
end

