-- ==== Sys2Proof/Machine/Power.lean ====
section
/-! DEFINITION. Speed probes, the floor governors, AVSBus, power allotments and the power-throttle ladder, voltage monitors
(chapters 02, 09 and 15: R53 to R64, R297 to R300, R457, R466 to R469). Voltages are in mV, AVSBus currents in 10 mA,
powers in 0.1 W. -/

namespace Sys2Proof.Machine
open Sys2Proof

/-! ### Probes (R53 to R55) -/

/-- A lap count scaled by the probe's fused correction factor, rounded down so that the reading never exceeds the rate
(R53, R54; the factor's format is log 10). -/
def corrected (s : State) (probe laps : Nat) : BitVec 11 := BitVec.ofNat 11 (min 2047 (laps * Tbl.get 1024 s.fuses.probeFactor probe / 1024))

/-- PROBE_READING (R53, R54): the laps counted in the last 1 µs, and the lowest sub-window's count as laps per µs; the
probe reports them corrected, the second as the lowest since the governor last read. -/
def execProbeReading (probe : Fin 192) (last low : BitVec 11) (s : State) : Host.Outcome State Fault Refusal :=
  let l := corrected s probe.val low.toNat
  ok (s.modPrb probe.val fun x =>
    { last := corrected s probe.val last.toNat, low := if x.fresh ∧ x.low.toNat ≤ l.toNat then x.low else l
      laps := last.toNat, seen := true, fresh := true })

/-- Probes whose readings the governor of partition `p` uses: sites in service, visible slices (R55). -/
def govSites (s : State) (p : Nat) : List Nat := (towerSites p).filter (siteInService s)
/-- The slice probes of R55. -/
def govSlices (s : State) (p : Nat) : List Nat := ((towerSites p).filter (sliceVisible s)).map (96 + ·)

/-- Lowest sub-window reading of the probes that have reported; the lower target where none has (log 24). -/
def lowest (s : State) (l : List Nat) : Nat :=
  let v := l.filterMap fun i => let x := s.getPrb i; if x.seen then some x.low.toNat else none
  v.min?.getD 1320

/-- Highest last 1 µs reading of the probes that have reported. -/
def highest (s : State) (l : List Nat) : Nat :=
  let v := l.filterMap fun i => let x := s.getPrb i; if x.seen then some x.last.toNat else none
  v.max?.getD 0

/-! ### The governor (R56, R58, R60) -/

/-- An AVSBus fault is in force on interface `i` (R63, R467). -/
def avsFault (s : State) (i : Nat) : Bool := getBit (s.pwr.noResp ||| s.pwr.regFault) i

/-- Rail power of partition `p`, 0.1 W: commanded voltages times the currents read. -/
def railPower (g : Gov) : Nat := min 65535 ((g.vcore.toNat * Tbl.get 0 g.amps 0 + g.vloess.toNat * Tbl.get 0 g.amps 1) / 10000)

/-- VCORE of the next period, inside the command range (R56). -/
def nextVcore (v rMin : Nat) (room exceeds fast : Bool) : Nat :=
  if rMin < 1260 then max 650 (min 900 (v + if rMin < 1230 then 25 else 10))
  else if room && decide (650 < v) && (exceeds || fast) then max 650 (v - 5)
  else v

/-- VLOESS of the next period, inside the command range (R56). -/
def nextVloess (v sMin : Nat) (room exceeds : Bool) : Nat :=
  if sMin < 1260 then max 700 (min 900 (v + 10))
  else if room && decide (700 < v) && exceeds then max 700 (v - 5)
  else v

/-- Compare the monitors of the partition with the voltages read back, once per control period (R468). -/
def compareMonitors (p : Nat) (s : State) : State :=
  forN 6 (fun m s =>
    let b := Tbl.get 0 (s.getGov p).back (if m < 4 then 0 else 1)
    s.modVmn (8 * p + m) fun x =>
      let differs := x.last != 0 && b != 0 && decide (20 < (x.last.toNat : Int) - b ∨ 20 < (b : Int) - x.last.toNat)
      let n := if differs then min 3 (x.misRun + 1) else 0
      { x with misRun := n, mismatch := n == 3 }) s

/-- A device time of `period` ns has passed since the last occasion, or there was none. -/
def periodPassed (s : State) (last : Option W64) (period : Nat) : Bool :=
  match last with
  | none => true
  | some t => decide (t.toNat + period ≤ now s)

/-- What the governor records of a period. -/
def periodRecord (s : State) (rMin sMin : Nat) (exceeds bad : Bool) (g : Gov) : Gov :=
  { g with
    rMin := BitVec.ofNat 11 rMin, sMin := BitVec.ofNat 11 sMin
    floorBad := if bad then BitVec.ofNat 2 (min 3 (g.floorBad.toNat + 1)) else 0
    pacer := g.waits.any fun e => decide (0 < e.2)
    overAll := g.overAll && exceeds, periods := g.periods + 1, lastAt := some s.skt.time
    highFrom := if 880 ≤ g.vcore.toNat then some (g.highFrom.getD s.skt.time) else none }

/-- GOVERNOR_PERIOD (R56, R58, R60, R63): one control period of the governor of partition `p`, every 10 µs (Table 2.2). A
partition in reset has none (R61). -/
def execGovernorPeriod (p : Tower) (s : State) : Host.Outcome State Fault Refusal :=
  let n := p.val
  if (s.getPart n).held || inReset s n || !periodPassed s (s.getGov n).lastAt 10000 then ok s
  else
    let g := s.getGov n
    let all := govSites s n ++ govSlices s n
    let rMin := lowest s (govSites s n)
    let sMin := lowest s (govSlices s n)
    let power := railPower g
    let excess := decide (g.allot.toNat < power)
    let room := decide (1320 < rMin) && decide (1320 < sMin)
    let s1 := s.modGov n fun g => { g with power := BitVec.ofNat 16 power }
    let s2 := command n 0 (nextVcore g.vcore.toNat rMin room excess (decide (1800 < highest s all))) s1
    let s3 := command n 1 (nextVloess g.vloess.toNat sMin room excess) s2
    let v := (s3.getGov n).vcore.toNat
    let top := v == 900 || (avsFault s n && decide (rMin < 1260))
    let exceeds := excess && !(room && decide (650 < v))
    let s4 := s3.modGov n (periodRecord s rMin sMin exceeds (decide (rMin < 1200) && top))
    let s5 := if exceeds then notifyMgmt (0x200 + n) s4 else s4
    let s6 := s5.modPart n fun x =>
      { x with clearRun := if x.floorFault && decide (1260 ≤ rMin) then x.clearRun + 1 else 0 }
    ok (compareMonitors n (forL all (fun i s => s.modPrb i fun x => { x with fresh := false }) s6))

/-- FLOOR_FAULT (R60, R297): raised at the third counted period; the report names the partition, r_min and VCORE. -/
def execFloorFault (p : Tower) (s : State) : Host.Outcome State Fault Refusal :=
  if (s.getGov p.val).floorBad = 3 ∧ !(s.getPart p.val).floorFault then
    let g := s.getGov p.val
    ok (raiseEvent 2 (send (.floorReport p g.rMin g.vcore) (s.modPart p.val fun x =>
      { x with floorFault := true, floorSeen := true, clearRun := 0 })))
  else ok s

/-- FLOOR_FAULT_CLEAR (R297): not while the governor's own failure holds it. -/
def execFloorFaultClear (p : Tower) (s : State) : Host.Outcome State Fault Refusal :=
  let x := s.getPart p.val
  if x.floorFault ∧ !x.floorFixed ∧ 100 ≤ x.clearRun then
    ok (raiseEvent 2 (s.modPart p.val fun x => { x with floorFault := false, clearRun := 0 }))
  else ok s

/-- AGEING_DETECT (R469). -/
def execAgeingDetect (p : Tower) (s : State) : Host.Outcome State Fault Refusal :=
  let g := s.getGov p.val
  match g.highFrom with
  | none => ok s
  | some t =>
    if !g.ageing ∧ t.toNat + 3600000000000 ≤ now s then ok (raiseEvent 4 (s.modGov p.val fun x => { x with ageing := true })) else ok s

/-! ### Allotments (R59, R457, R466) and the ladder (R298 to R300) -/

/-- Nominal voltage of an AVS4 rail select, mV (Table 17.4): its voltage is not read (Table 2.3). -/
def avs4Volts (rail : Nat) : Nat :=
  match rail with
  | 0 => 1050
  | 1 => 1050
  | 2 => 850
  | 3 => 1800
  | 4 => 1800
  | _ => 0

/-- Power of the rails of AVS4, 0.1 W. -/
def otherPower (s : State) : Nat := ((List.range 5).map fun r => avs4Volts r * Tbl.get 0 s.pwr.amps r).sum / 10000

/-- Power of a partition's rails by the voltages and currents read, 0.1 W. -/
def readPower (g : Gov) : Nat := ((List.range 2).map fun r => Tbl.get 0 g.back r * Tbl.get 0 g.amps r).sum / 10000

/-- Weight of a partition (R59). -/
def powerWeight (s : State) (p : Nat) : Nat := (s.getGov p).weight.toNat

/-- Share of partition `p` of what is left of 600 W less 10 W. -/
def baseShare (s : State) (p : Nat) : Nat :=
  let total := ((List.range 4).map (powerWeight s)).sum
  if total = 0 then 0 else (5900 - otherPower s) * powerWeight s p / total

/-- The share with what the others leave unused: it is offered, by weight, to the partitions above their own share, and
one that has lent keeps what it uses, so that the shares never exceed what is divided (DEDUCED, log 63). -/
def offeredShare (s : State) (p : Nat) : Nat :=
  let power (q : Nat) : Nat := (s.getGov q).power.toNat
  let spare := ((List.range 4).map fun q => baseShare s q - power q).sum
  let need := (List.range 4).filter fun q => decide (baseShare s q < power q)
  let w := (need.map (powerWeight s)).sum
  if w = 0 then baseShare s p
  else if need.contains p then baseShare s p + spare * powerWeight s p / w
  else min (baseShare s p) (power p)

/-- The junction sensors of partition `p`. -/
def partJunctions (p : Nat) : List Nat := (List.range 256).filter fun i => junction i && senPart i == some p

/-- The thermal cap of partition `p` (R457). -/
def capUpdate (p share : Nat) (s : State) : State :=
  let js := partJunctions p
  let g := s.getGov p
  let on := getBit s.thm.throttle p
  if js.any fun i => decide (1520 ≤ effOf s i) then
    let s1 := s.modGov p fun x => { x with cap := BitVec.ofNat 16 (g.power.toNat * 9 / 10) }
    if on then s1 else raiseEvent 3 { s1 with thm := { s1.thm with throttle := setBit s1.thm.throttle p true } }
  else if on && js.all fun i => decide (effOf s i < 1488) then
    let c := g.cap.toNat + share / 20
    if share ≤ c then
      { s.modGov p fun x => { x with cap := 0xFFFF } with thm := { s.thm with throttle := setBit s.thm.throttle p false } }
    else s.modGov p fun x => { x with cap := BitVec.ofNat 16 c }
  else s

/-- One stage up (Table 9.5 events 2 to 4). -/
def stageUp (p : Nat) (s : State) : State :=
  let st := (s.getPart p).stage
  let s1 := s.modPart p fun x => { x with stage := st + 1, calm := 0 }
  if st = 1 then forL (beSites s p) (fun j s => stopArray (2 * j + 1) 2 (stopArray (2 * j) 2 s)) s1
  else if st = 2 then raiseEvent 4 s1
  else s1

/-- The ladder at an update. -/
def ladderUpdate (p : Nat) (s : State) : State :=
  let g := s.getGov p
  let x := s.getPart p
  if g.overAll ∧ 0 < g.periods ∧ x.stage ≠ 3 then stageUp p s
  else s.modPart p fun x => { x with calm := if g.power.toNat * 100 ≤ g.allot.toNat * 95 then x.calm + 1 else 0 }

/-- ALLOTMENT_UPDATE (R59, R298, R457, R466), every 100 µs. -/
def execAllotmentUpdate (s : State) : Host.Outcome State Fault Refusal :=
  if !periodPassed s s.pwr.allotAt 100000 then ok s
  else
    let pkg := min 65535 (otherPower s + ((List.range 4).map fun p => readPower (s.getGov p)).sum)
    let v := BitVec.ofNat 16 pkg
    let s1 := { s with pwr := { s.pwr with pkg := v, pkgMax := if s.pwr.pkgMax.toNat < pkg then v else s.pwr.pkgMax, allotAt := some s.skt.time } }
    ok (forN 4 (fun p s2 =>
      let share := offeredShare s1 p
      let s3 := capUpdate p share s2
      let cap := (s3.getGov p).cap.toNat
      let a := if getBit s3.thm.throttle p then min share cap else share
      let s4 := ladderUpdate p (s3.modGov p fun g => { g with allot := BitVec.ofNat 16 a })
      s4.modGov p fun g => { g with overAll := true, periods := 0 }) s1)

/-- The throttle cause leaves an array in a save area: the RESUME of the ladder (R300). -/
def savedResume (sv : Saved) : Saved :=
  let f (x : Array) : Array := { x with cause := x.cause &&& 5#3 }
  { sv with arrays := sv.arrays.map f }

/-- LADDER_STAGE_DOWN (Table 9.5 event 5): on leaving stage 2, RESUME with throttle cause to every array it stopped. -/
def execLadderStageDown (p : Tower) (s : State) : Host.Outcome State Fault Refusal :=
  let x := s.getPart p.val
  if x.stage ≠ 0 ∧ 10 ≤ x.calm then
    let f (y : Part) : Part := { y with stage := y.stage - 1, calm := 0 }
    let s1 := s.modPart p.val f
    if x.stage = 2 then
      let g (y : Part) : Part := { y with saved := y.saved.map savedResume }
      ok (forN 48 (fun k s =>
        let a := 48 * p.val + k
        if getBit (s.getAry a).cause 1 then clearCause a 2 s else s) (s1.modPart p.val g))
    else ok s1
  else ok s

/-! ### AVSBus (R62 to R64, R467) -/

/-- The device issues the command: a rail select in use, the pins driven, and what Table 2.3 allows. Commands 0 voltage
write, 1 voltage read, 2 transition rate write, 3 current read, 4 status read. A read waits for the governor's voltage
writes (R64); the transition rate is written once for each rail, during bring-up (R62). -/
def avsIssues (s : State) (iface rail cmd data : Nat) : Bool :=
  if s.pwr.vioDown then false
  else if iface = 4 then decide (rail < 5) && (cmd == 3 || cmd == 4)
  else
    let due := (s.getGov iface).due
    decide (rail < 2) &&
      (if cmd = 0 then decide (due.head? = some (rail, data))
       else if cmd = 2 then !getBit s.pwr.rateSet (2 * iface + rail) && data == 10 && decide (s.bru.stage.toNat < 9)
       else due.isEmpty)

/-- AVS_COMMAND (R62): a frame sent and its valid response, with the value the response carries. -/
def execAvsCommand (iface : Fin 5) (rail : Fin 6) (cmd : Fin 5) (data : BitVec 16) (s : State) : Host.Outcome State Fault Refusal :=
  let i := iface.val
  let r := rail.val
  if !avsIssues s i r cmd.val data.toNat then ok s
  else
    let s1 := send (.avs i r cmd.val data) s
    let s2 := { s1 with pwr := { s1.pwr with noResp := setBit s1.pwr.noResp i false, tries := Tbl.put 0 s1.pwr.tries i 0 } }
    match cmd.val with
    | 0 => ok (s2.modGov i fun g => { g with due := g.due.tail })
    | 1 => ok (s2.modGov i fun g => { g with back := Tbl.put 0 g.back r data.toNat })
    | 2 => ok { s2 with pwr := { s2.pwr with rateSet := setBit s2.pwr.rateSet (2 * i + r) true } }
    | 3 =>
      if i = 4 then ok { s2 with pwr := { s2.pwr with amps := Tbl.put 0 s2.pwr.amps r data.toNat } }
      else ok (s2.modGov i fun g => { g with amps := Tbl.put 0 g.amps r data.toNat })
    | _ => ok s2

/-- AVS_RESPONSE_TIMEOUT (R63): up to three retries, then the interface's fault. A voltage write that got no response goes
out again, so that the regulator comes to the last commanded voltage. -/
def execAvsResponseTimeout (iface : Fin 5) (s : State) : Host.Outcome State Fault Refusal :=
  let i := iface.val
  let n := Tbl.get 0 s.pwr.tries i
  if n < 3 then ok { s with pwr := { s.pwr with tries := Tbl.put 0 s.pwr.tries i (n + 1) } }
  else
    let was := avsFault s i
    let s1 := { s with pwr := { s.pwr with tries := Tbl.put 0 s.pwr.tries i 0, noResp := setBit s.pwr.noResp i true } }
    ok (if was then s1 else raiseEvent 4 s1)

/-- A rail out of regulation while bring-up stands in stage OPTIONS or before: the stage is held (R506). -/
def railHolds (iface rail : Nat) (fault : Bool) (s : State) : State :=
  let rest := s.pwr.down.filter fun x => !decide (x = (iface, rail))
  let down := if fault then rest ++ [(iface, rail)] else rest
  let still := down.any fun x => x.1 == iface
  let s1 := { s with pwr := { s.pwr with down := down } }
  if iface < 4 then { s1 with pwr := { s1.pwr with regFault := setBit s1.pwr.regFault iface still } }
  else { s1 with pwr := { s1.pwr with vrFault := setBit s1.pwr.vrFault rail fault } }

/-- The status of a rail select is due: 10 ms after its last reading (R467), and at any time while bring-up waits for the rails
(R506). -/
def pollDue (s : State) (iface rail : Nat) : Bool :=
  decide (s.bru.stage.toNat ≤ 1) || periodPassed s (Tbl.get none s.pwr.polled (6 * iface + rail)) 10000000

/-- REGULATOR_STATUS_POLL (R467, R506): `fault` is what the status word reports. The governor's voltage writes go out
first (R64). -/
def execRegulatorStatusPoll (iface : Fin 5) (rail : Fin 6) (fault : Bool) (s : State) : Host.Outcome State Fault Refusal :=
  let i := iface.val
  let r := rail.val
  if s.pwr.vioDown ∨ (i < 4 ∧ (2 ≤ r ∨ !(s.getGov i).due.isEmpty)) ∨ r = 5 ∨ !pollDue s i r then ok s
  else
    let s0 := send (.avs i r 4 (if fault then 1 else 0)) s
    let s1 := { s0 with pwr := { s0.pwr with polled := Tbl.put none s0.pwr.polled (6 * i + r) (some s.skt.time) } }
    if s.bru.stage.toNat ≤ 1 then
      let s2 := railHolds i r fault s1
      ok (if fault then raiseEvent 4 s2 else s2)
    else if !fault then ok s1
    else if i < 4 then ok (raiseEvent 4 { s1 with pwr := { s1.pwr with regFault := setBit s1.pwr.regFault i true } })
    else
      let s2 := raiseEvent 4 { s1 with pwr := { s1.pwr with vrFault := setBit s1.pwr.vrFault r true } }
      ok (if r = 3 then s2 else startStop 2 0xFF s2)

/-! ### Voltage monitors (R468) -/

/-- VMON_SAMPLE, every 1 µs: monitors 0 to 3 of a tower watch VCORE, 4 and 5 VLOESS. -/
def execVmonSample (t : Tower) (m : Fin 6) (mv : BitVec 11) (s : State) : Host.Outcome State Fault Refusal :=
  let lo := if m.val < 4 then 640 else 690
  if !periodPassed s (s.getVmn (8 * t.val + m.val)).at_ 1000 then ok s
  else ok (s.modVmn (8 * t.val + m.val) fun x =>
    let n := if mv.toNat < lo ∨ 910 < mv.toNat then min 10 (x.outRun + 1) else 0
    { x with
      last := mv, low := if x.seen ∧ x.low.toNat ≤ mv.toNat then x.low else mv, seen := true, outRun := n, out := n == 10, at_ := some s.skt.time })

end Sys2Proof.Machine
end

