-- ==== Sys2Proof/Machine/TimeBase.lean ====
section
/-! DEFINITION. The time base and the fabric's time tree (R65 to R70, R383 to R385, R508). Timestamps are in 1/16 ns. -/

namespace Sys2Proof.Machine
open Sys2Proof

/-! ### The reference (R68, R508) -/

/-- TB_REF_LOSS: time runs on the backup oscillator. -/
def execTbRefLoss (s : State) : Host.Outcome State Fault Refusal :=
  ok { s with skt := { s.skt with refLoss := true, holdover := true } }

/-- TB_REF_RESTORE: the reference has met its limits for 1 ms; PLLs that an absent reference kept unlocked lock. -/
def execTbRefRestore (s : State) : Host.Outcome State Fault Refusal :=
  ok { s with skt := { s.skt with holdover := false, pllLocked := s.skt.pllLocked || decide (1 ≤ s.bru.stage.toNat) } }

/-! ### The exchange (R383, Table 12.7) -/

/-- TIME_MARK_SEND (R67, R333, R383): once per ms TS_MARK falls due on the port; the frame that begins it is stamped, and TIME_X
follows. -/
def execTimeMarkSend (port : Port) (s : State) : Host.Outcome State Fault Refusal :=
  let k := port.val
  let x := s.getPort k
  if !inService x || (x.markDue.map fun d => decide (now s < d.toNat + 1000000)).getD false then ok s
  else ok (s.modPort k fun x => dueCode 6 0 { x with markDue := some s.skt.time })

/-! ### The time tree (R385) -/

/-- This device is the root that the image names. -/
def isRoot (s : State) : Bool := s.net.idValid && s.net.placed && s.net.id == s.net.root

/-- A port whose peer can be upstream. -/
def offersTime (s : State) (k : Nat) : Bool :=
  let x := s.getPort k
  inService x && !x.miswired && x.peerRoot == s.net.root && decide (x.peerDist.toNat < 64)

/-- Choose upstream and distance. -/
def chooseUpstream (s : State) : State :=
  if isRoot s then { s with net := { s.net with dist := 0 }, skt := { s.skt with upstream := 0xE } }
  else
    let ks := if s.net.placed then (List.range 6).filter (offersTime s) else []
    let dist (k : Nat) : Nat := (s.getPort k).peerDist.toNat
    match (ks.map dist).min? with
    | none => { s with net := { s.net with dist := 0xFF }, skt := { s.skt with upstream := 0xF, synced := false } }
    | some d =>
      let best := ks.filter fun k => dist k == d
      let u := if best.contains s.skt.upstream.toNat then s.skt.upstream.toNat else best.headD 0
      { s with net := { s.net with dist := BitVec.ofNat 8 (d + 1) }, skt := { s.skt with upstream := BitVec.ofNat 4 u } }

/-- θ of R384, 1/16 ns. -/
def timeOffset (x : TimeXPayload) (t2 t3 : W64) (asym : W32) : Int :=
  (((t2.toNat : Int) - x.txTs.toNat) - ((x.rxTs.toNat : Int) - t3.toNat) - (x.asym.toInt - asym.toInt)) / 2

/-- Trim the frequency by a number of steps of 0.01 ppm: no rule gives the number, a free value (R67; log 65). A trimmed
time base is what advances device time by 1 each nanosecond (R65). -/
def trimFrequency (s : State) : State :=
  { s with
    skt := { s.skt with trim := s.skt.trim + (Config.freeValue s.net.drawn).toInt }
    net := { s.net with drawn := s.net.drawn + 1 } }

/-- Steer by −θ: one step before ready, slewing else (R66, R384, R385). STEPPED resets at L4 with device time, so one step
serves the bring-ups up to the next L4 (DEDUCED, log 65). -/
def steer (th : Int) (s : State) : State :=
  let off : W32 := BitVec.ofInt 32 th
  let k := { s.skt with offset := off, synced := decide (th.natAbs ≤ 320) }
  if s.bru.stage.toNat < 9 ∧ !s.skt.stepped then
    { s with skt := { k with stepped := true, time := BitVec.ofInt 64 ((now s : Int) - (th + 8) / 16), slew := 0 } }
  else { s with skt := { k with slew := -th } }

/-- The mark that a TIME_X names was received at the time kept for it (R383): RX_TS and RX_SEQ change together, with what the
payload says of the peer's place in the tree. -/
def hearTime (x : TimeXPayload) (t2 : W64) (y : PortSt) : PortSt :=
  { y with peerMark := t2, peerSeq := x.txSeq, heard := none, peerDist := x.dist, peerRoot := x.root }

/-- TIME_X (R384, R385). Where no mark of the peer has been received since its last TIME_X, the exchange is not used; `flags`
is the payload's byte 0x1B, which no rule reads. -/
def execTimeX (port : Port) (x : TimeXPayload) (_flags : Byte) (s : State) : Host.Outcome State Fault Refusal :=
  let k := port.val
  let y := s.getPort k
  if !inService y then ok s
  else
    match y.heard with
    | none => ok (chooseUpstream ((takeMgmt 2 (some k) s).modPort k fun y => { y with peerDist := x.dist, peerRoot := x.root }))
    | some t2 =>
      let s2 := chooseUpstream ((takeMgmt 2 (some k) s).modPort k (hearTime x t2))
      if s2.skt.upstream.toNat = k ∧ x.rxSeq = y.markSeq ∧ y.markSeq ≠ 0 then ok (steer (timeOffset x t2 y.markTx y.asym) (trimFrequency s2)) else ok s2

end Sys2Proof.Machine
end

