-- ==== Sys2Proof/Machine/Bundles.lean ====
section
/-! DEFINITION. Vertical bundles: rotation through the spare bundle, sweeps, repair with spare bonds, and the loss of a
bundle (R71 to R77, R402, R439). -/

namespace Sys2Proof.Machine
open Sys2Proof

/-- Number of bundle `b` of group `k` of the port of site `j`. -/
def bundleIx (j k b : Nat) : Nat := (8 * j + k) * 33 + b

/-- Where a group and bundle stand in a repair map entry (log 21). -/
def bundlePlace (k b : Nat) : Nat := 64 * k + b

/-- Slice temperature in 0.5 K steps from −40 °C (Table 14.6). -/
def pointTemp (s : State) (j : Nat) : Nat := ((effOf s (96 + j) + 640) / 8).toNat

/-- A sweep found a window: the delay line is set and the calibration point saved (R72). -/
def sweepPass (j k b t0 w : Nat) (s : State) : State :=
  let g := s.getGov (j / 24)
  let p := BitVec.ofNat 16 (pointTemp s j)
  let s1 := s.modBun (bundleIx j k b) fun x =>
    { x with tap := BitVec.ofNat 7 (tapOf t0 w), valid := true, width := w, temp := p, vcore := g.vcore.toNat, vloess := g.vloess.toNat }
  s1.modBgr (8 * j + k) fun x => { x with temp := p }

/-- The odd-indexed data bundles of a group that half width has freed and that are in service. -/
def freedOdd (s : State) (j k : Nat) : List Nat := (List.range 32).filter fun b => b % 2 == 1 && !(s.getBun (bundleIx j k b)).out

/-- The even-indexed data bundles of a group that have left service: at half width their signals need another bundle. -/
def lostEven (s : State) (j k : Nat) : List Nat := (List.range 32).filter fun b => b % 2 == 0 && (s.getBun (bundleIx j k b)).out

/-- The bundle that carries the signals of data bundle `b` of a group at half width: itself, and for a lost one an odd-indexed
bundle of the group, the lowest ones first (R439; DESIGN CHOICE which, log 27). -/
def carrierOf (s : State) (j k b : Nat) : Option Nat :=
  if !(s.getBun (bundleIx j k b)).out then some b
  else match (lostEven s j k).findIdx? (· == b) with | some i => (freedOdd s j k)[i]? | none => none

/-- The bundle that serves a group as its spare: bundle 32, and after its loss the lowest odd-indexed bundle that half width has
freed and that carries no lost bundle's signals (R439; DESIGN CHOICE which, log 27). -/
def spareOf (s : State) (j k : Nat) : Nat :=
  if (s.getBgr (8 * j + k)).lost then ((freedOdd s j k).drop (lostEven s j k).length).headD 32 else 32

/-- The next bundle to rotate, and the next in the round-robin order after it: one whose margin detectors report less
than a quarter of its window comes ahead of that order (R73). -/
def nextBundle (s : State) (j k : Nat) (low : BitVec 32) : Option (Nat × Nat) :=
  let live := (List.range 32).filter fun b => !(s.getBun (bundleIx j k b)).out && b != spareOf s j k
  let n := (s.getBgr (8 * j + k)).next
  match live.find? fun b => getBit low b with
  | some b => some (b, n)
  | none =>
    match live.find? fun b => decide (n ≤ b) with
    | some b => some (b, (b + 1) % 32)
    | none => live.head?.map fun b => (b, b + 1)

/-- Repairs that fall due together, by their index (R76). -/
def dueTogether (b : Nat) (l : List Nat) : List Nat :=
  l.filter (fun a => decide (a < b)) ++ [b] ++ l.filter (fun a => decide (b < a))

/-- Add a bundle to the repairs due in a group: the bundle that has the spare stays first, the others follow by their
index (R76). -/
def dueRepair (b : Nat) (l : List Nat) : List Nat :=
  match l with
  | [] => [b]
  | h :: t => if b = h then h :: t else h :: dueTogether b t

/-- BUNDLE_ROTATION_START (R73, Table 2.9 events 1 and 2; R76: not while a repair holds the spare), one every 250 µs: `low`
has the bundles whose margin detectors report less than a quarter of their window. -/
def execBundleRotationStart (site : Site) (group : Fin 8) (low : BitVec 32) (s : State) : Host.Outcome State Fault Refusal :=
  let j := site.val
  let k := group.val
  let g := s.getBgr (8 * j + k)
  if !s.bru.ready || spareOf s j k = 32 && g.lost || g.rot.isSome || !g.repair.isEmpty || !periodPassed s g.lastRot 250000 then ok s
  else
    match nextBundle s j k low with
    | none => ok s
    | some (b, n) => ok (s.modBgr (8 * j + k) fun x =>
        { x with rot := some { bundle := b, phase := .mirror, again := false }, next := n, lastRot := some s.skt.time })

/-- ROTATION_COMPARE (R73, R75): `equal` is the outcome of 64 port steps of mirroring. -/
def execRotationCompare (site : Site) (group : Fin 8) (equal : Bool) (s : State) : Host.Outcome State Fault Refusal :=
  let i := 8 * site.val + group.val
  match (s.getBgr i).rot with
  | none => ok s
  | some r =>
    match r.phase with
    | .mirror =>
      if equal then ok (s.modBgr i fun x => { x with rot := some { r with phase := .sweep } })
      else if r.again then ok (s.modBgr i fun x => { x with rot := none })
      else ok (s.modBgr i fun x => { x with rot := some { r with phase := .spare, again := true } })
    | .spare => ok s
    | .sweep => ok s
    | .verify =>
      if equal then ok (s.modBgr i fun x => { x with rot := none })
      else ok (s.modBgr i fun x => { x with rot := none, repair := dueRepair r.bundle x.repair })

/-- BUNDLE_SWEEP (R72, R75): `pass` is the lowest passing tap and the window's width, none where no tap passes. A
rotating or repaired bundle is swept, and the spare after a failed comparison, which then starts again. -/
def execBundleSweep (site : Site) (group : Fin 8) (bundle : Fin 33) (pass : Option (BitVec 7 × Byte)) (s : State) :
    Host.Outcome State Fault Refusal :=
  let j := site.val
  let k := group.val
  let b := bundle.val
  let g := s.getBgr (8 * j + k)
  let inRot := match g.rot with | some r => decide (r.bundle = b ∧ r.phase = .sweep) | none => false
  let fixing := decide (g.repair.head? = some b)
  let spare := b == spareOf s j k && (match g.rot with | some r => decide (r.phase = .spare) | none => false)
  if !inRot && !fixing && !spare then ok s
  else
    match pass with
    | some (t0, w) =>
      let s1 := sweepPass j k b t0.toNat w.toNat s
      let toPhase (p : RotPhase) (x : BundleGroup) : BundleGroup := { x with rot := x.rot.map fun r => { r with phase := p } }
      if fixing then ok (s1.modBgr (8 * j + k) fun x => { x with repair := x.repair.drop 1 })
      else ok (s1.modBgr (8 * j + k) (toPhase (if inRot then .verify else .mirror)))
    | none =>
      if fixing then ok s else ok (s.modBgr (8 * j + k) fun x => { x with rot := none, repair := dueRepair b x.repair })

/-! ### Losses (R437, R439) -/

/-- A port loses a bundle: half width and a degraded site at the first loss, retirement at the second. -/
def portLoss (j : Nat) (s : State) : State :=
  if !(s.getSite j).half then
    let s1 := addRepair 3 j 0 0xFF (s.modSite j fun x => { x with half := true })
    raiseEvent 6 (if siteInService s1 j then setSiteStatus j 3 s1 else s1)
  else retireSite j s

/-- Spare bonds 0 and 1 that `n` failing signals take from `used` on (Table 14.8). -/
def takeBonds (j k b used n : Nat) (s : State) : State :=
  forL ((List.range n).map (used + ·)) (fun i s => addRepair 4 j (bundlePlace k b) i s)
    (s.modBun (bundleIx j k b) fun x => { x with bonds := used + n })

/-- BUNDLE_REPAIR (R75, R77): the failing signals of the bundle under repair, or of the spare bundle, move to its spare
bonds; where these do not suffice the bundle leaves service, and the spare bundle is beyond repair. -/
def execBundleRepair (site : Site) (group : Fin 8) (bundle : Fin 33) (failing : List (Fin 34)) (s : State) :
    Host.Outcome State Fault Refusal :=
  let j := site.val
  let k := group.val
  let b := bundle.val
  let g := s.getBgr (8 * j + k)
  if !(decide (g.repair.head? = some b) || (b == 32 && !g.lost)) then ok s
  else
    let used := (s.getBun (bundleIx j k b)).bonds
    let n := failing.eraseDups.length
    if used + n ≤ 2 then ok (takeBonds j k b used n s)
    else if b = 32 then
      ok ((takeBonds j k b used (2 - used) s).modBgr (8 * j + k) fun x => { x with spareBad := true, repair := x.repair.filter (· ≠ 32) })
    else
      let s1 := takeBonds j k b used (2 - used) s
      let s2 := (s1.modBun (bundleIx j k b) fun x => { x with out := true }).modBgr (8 * j + k) fun x => { x with repair := x.repair.drop 1 }
      ok (portLoss j (addRepair 5 j (bundlePlace k b) 0xFF (s2.modSite j fun x => { x with outBundles := x.outBundles + 1 })))

/-- GROUP_SPARE_LOST (R77, R439): the spare bundle failed and its own spare bonds did not suffice. -/
def execGroupSpareLost (site : Site) (group : Fin 8) (s : State) : Host.Outcome State Fault Refusal :=
  let j := site.val
  let k := group.val
  if (s.getBgr (8 * j + k)).lost || !(s.getBgr (8 * j + k)).spareBad then ok s
  else
    let s1 := s.modBgr (8 * j + k) fun x => { x with lost := true, rot := none }
    ok (portLoss j (notifyMgmt (0x300 + 8 * j + k) (addRepair 6 j k 0xFF (s1.modSite j fun x => { x with lostGroups := x.lostGroups + 1 }))))

end Sys2Proof.Machine
end

