-- ==== Sys2Proof/Machine/Image.lean ====
section
/-! DEFINITION. The option block, the location record and the Jefen image: their layouts, their checks, and what applying
the configuration sections sets (R282, R283, R304, R356, R393 to R399, R409, R515). -/

namespace Sys2Proof.Machine
open Sys2Proof

/-! ### Reading byte lists -/

/-- The little-endian number of `n` bytes at offset `o`. -/
def numAt (b : List Byte) (o n : Nat) : Nat := ofLe ((b.drop o).take n)

/-- The `n` bytes at offset `o` are all 0. -/
def zeroAt (b : List Byte) (o n : Nat) : Bool := ((b.drop o).take n).all fun x => x == 0

/-- Read the configuration flash for the device; none while its pins are undriven (R507). -/
def flashRead (s : State) (a n : Nat) : Option (List Byte) :=
  if s.pwr.vioDown then none else some (getBytes 0xFF s.board.flash a n)

/-! ### Option block (Table 13.3) -/

/-- A copy is valid: MAGIC, VERSION and CRC match and every reserved byte is 0 (R393). -/
def optionValid (b : List Byte) : Bool :=
  numAt b 0 4 == 0x424F5843 && numAt b 4 2 == 1 && zeroAt b 9 7 && zeroAt b 0x1C 4 && zeroAt b 0x40 1980
    && ((List.range 4).all fun e => zeroAt b (0x27 + 8 * e) 1) && numAt b 0x7FC 4 == crc32c (b.take 0x7FC)

/-- Sources whose override the fuse table does not permit (R394). -/
def ignoredMask (s : State) (ovr : List Byte) : Byte :=
  (List.range 8).foldl (fun m k =>
    let v := (ovr.getD k 0xFF).toNat
    if v = 0xFF ∨ (v ≤ 4 ∧ permits s k v) then m else setBit m k true) 0

/-- BRU_OPTION of a valid copy. -/
def optionOf (s : State) (b : List Byte) (mirror : Bool) : Option_ :=
  let boot := numAt b 6 1
  let warm := numAt b 8 1
  let ovr := (b.drop 0x10).take 8
  { mirror := mirror, slot := bit boot 0, fallback := bit boot 1, source := bit boot 2, persist := bit boot 3
    keyIndex := BitVec.ofNat 2 (numAt b 7 1), warmMode := BitVec.ofNat 2 warm, recalAll := bit warm 2
    ignored := ignoredMask s ovr, override := ovr
    fast := some { command := BitVec.ofNat 16 (numAt b 0x1A 2), dummy := BitVec.ofNat 8 (numAt b 0x19 1), freq := BitVec.ofNat 2 (numAt b 0x18 1) } }

/-- The valid FL_ENTER entries of a copy are issued in order, each behind a write enable where it asks for one (R393). -/
def enterFlash (b : List Byte) (s : State) : State :=
  forN 4 (fun e s =>
    let at_ (o n : Nat) : Nat := numAt b (0x20 + 8 * e + o) n
    let how := at_ 1 1
    if !bit how 0 then s
    else
      send (.flash (at_ 0 1) (if bit how 1 then at_ 2 4 else 0) (if bit how 2 then [BitVec.ofNat 8 (at_ 6 1)] else []))
        (if bit how 3 then send (.flash 6 0 []) s else s)) s

/-- Command of a flash read after the options: FL_READ, or 0x13 with the defaults (R393). -/
def readCommand (o : Option_) : Nat :=
  match o.fast with
  | some f => f.command.toNat
  | none => 0x13

/-- The options in force and the copy they come from: primary, mirror, or the defaults (R393). -/
def readOptions (s : State) : Option_ × List Byte :=
  let pick (a : Nat) : Option (List Byte) := (flashRead s a 0x800).filter optionValid
  match pick 0, pick 0x800 with
  | some b, _ => (optionOf s b false, b)
  | none, some b => (optionOf s b true, b)
  | none, none => ({ defaults := true }, [])

/-! ### Location record (R395) -/

/-- The device id of the location record; none where it is missing. -/
def locationId (s : State) : Option Nat :=
  match flashRead s 0x1000 64 with
  | none => none
  | some b => if numAt b 0 4 = 0x524C5843 ∧ numAt b 0x3C 4 = crc32c (b.take 0x3C) then some (numAt b 6 2) else none

/-! ### Image (Tables 13.4 and 13.5) -/

/-- IMAGE_SIZE. -/
def imageSize (b : List Byte) : Nat := numAt b 8 4

/-- MAGIC, FORMAT and IMAGE_SIZE. -/
def imageHeadOk (b : List Byte) : Bool :=
  numAt b 0 4 == 0x4E46454A && numAt b 4 2 == 1 && decide (0x9000 ≤ imageSize b ∧ imageSize b ≤ 50331648)

/-- A section: type, its owner field, offset, size. -/
structure Section where
  type : Nat
  inst : Nat
  off : Nat
  size : Nat
deriving DecidableEq, Repr

/-- The section table. -/
def imageSections (b : List Byte) : List Section :=
  (List.range (numAt b 6 2)).map fun i =>
    let o := 0x8000 + 32 * i
    { type := numAt b o 1, inst := numAt b (o + 1) 1, off := numAt b (o + 4) 4, size := numAt b (o + 8) 4 }

/-- The size that its type allows (Table 13.5). -/
def sectionSizeOk (x : Section) : Bool :=
  if x.type = 1 ∨ x.type = 2 then decide (x.size ≤ 0x800000)
  else if x.type = 3 then x.size == 64
  else if x.type = 4 ∨ x.type = 5 then x.size == 4096
  else if x.type = 6 then x.size == 96
  else if x.type = 7 then x.size == 512
  else decide (0x10 ≤ x.type ∧ x.type ≤ 0x7F)

/-- Two sections overlap. -/
def sectionsMeet (x y : Section) : Bool := decide (x.off < y.off + y.size ∧ y.off < x.off + x.size)

/-- The sections of an image are as R397 asks. -/
def imageSectionsOk (b : List Byte) : Bool :=
  let n := numAt b 6 2
  let l := imageSections b
  let count (t : Nat) : Nat := (l.filter fun x => x.type == t).length
  let pcs := (l.filter fun x => x.type == 2).map (·.inst)
  decide (1 ≤ n ∧ n ≤ 64)
    && l.all (fun x => sectionSizeOk x && decide (x.off % 4096 = 0 ∧ 0x8000 + 32 * n ≤ x.off ∧ x.off + x.size ≤ imageSize b))
    && l.all (fun x => decide (x.inst ≤ 3 ∨ x.inst = 0xFF))
    && [1, 3, 4, 5, 6].all (fun t => count t == 1) && decide (count 7 ≤ 1)
    && (decide (pcs = [0xFF]) || (decide (pcs.length = 4) && (List.range 4).all fun p => pcs.contains p))
    && (List.range n).all fun i => (List.range i).all fun k =>
      match l[i]?, l[k]? with | some x, some y => !sectionsMeet x y | _, _ => true

/-- Reserved fields and padding are 0 (R396). -/
def imageZeros (b : List Byte) : Bool :=
  zeroAt b 0x14 4 && zeroAt b 0x60 160 && zeroAt b 0x7560 2720 && decide (numAt b 0x10 4 < 4) && decide (numAt b 0xE 2 < 8)
    && (List.range (numAt b 6 2)).all fun i => zeroAt b (0x8002 + 32 * i) 2 && zeroAt b (0x800C + 32 * i) 20

/-- The bit of VARIANTS that permits this device. -/
def variantBit (s : State) : Nat := if s.fuses.variant = 0x7680 then 0 else if s.fuses.variant = 0x7664 then 1 else 2

/-- The signed message: the header, then the bytes after the signature (R396). -/
def signedBytes (b : List Byte) : List Byte := b.take 0x100 ++ b.drop 0x7560

/-- IMAGE_DIGEST. -/
def imageDigest (b : List Byte) : BitVec 256 := shake256 b

/-- Verification under R399: the fault code of the first check that fails, 0 when the image verifies. -/
def imageFault (s : State) (b : List Byte) : Nat :=
  let k := s.bru.opt.keyIndex.toNat
  let svn := numAt b 0xC 2
  if !imageHeadOk b || b.length ≠ imageSize b then 1
  else if s.fuses.keyRevoked.contains k || (s.fuses.keyDigest.getD k none) ≠ some (shake256 ((b.drop 0x20).take 64)) then 2
  else if svn < s.fuses.svnMin.toNat then 3
  else if !bit (numAt b 0xE 2) (variantBit s) then 4
  else if 63 < svn || !imageZeros b || !imageSectionsOk b then 1
  else if !Config.slhVerify ((b.drop 0x20).take 64) (signedBytes b) ((b.drop 0x100).take 29792) then 1
  else 0

/-- Contents of the section of a type; empty where there is none. -/
def sectionOf (b : List Byte) (t : Nat) : List Byte :=
  match (imageSections b).find? fun x => x.type == t with
  | some x => (b.drop x.off).take x.size
  | none => []

/-! ### CONFIG: location (R356) -/

/-- Check 1: the record is there and every coordinate is below its dimension. -/
def locationOk (s : State) (cfg : List Byte) : Bool :=
  match locationId s with
  | none => false
  | some id => decide (bits id 15 11 < numAt cfg 0 1 ∧ bits id 10 6 < numAt cfg 1 1 ∧ bits id 5 0 < numAt cfg 2 1)

/-- Set the device id, the torus and the root. -/
def applyLocation (cfg : List Byte) (s : State) : State :=
  let n := s.net
  { s with net := { n with
      idValid := true, placed := true, id := BitVec.ofNat 16 ((locationId s).getD 0), dx := BitVec.ofNat 5 (numAt cfg 0 1 - 1)
      dy := BitVec.ofNat 5 (numAt cfg 1 1 - 1), dz := BitVec.ofNat 6 (numAt cfg 2 1 - 1), root := BitVec.ofNat 16 (numAt cfg 4 2) } }

/-! ### CONFIG: Loess roles (R187) -/

/-- Check 2. -/
def rolesOk (s : State) (b : List Byte) : Bool :=
  ((List.range 96).all fun j => let v := numAt b j 1; if sliceVisible s j then decide (v ≤ 1) else v == 0xFF)
    && (List.range 4).all fun t => [0, 1].all fun r => decide (2 ≤ ((towerSites t).filter fun j => numAt b j 1 == r).length)

/-- Put the roles into force. -/
def applyRoles (b : List Byte) (s : State) : State :=
  { s with lss := { s.lss with imageRoles := true, roles := forN 96 (fun j t => Tbl.put 0 t j (b.getD j 0)) [] } }

/-! ### CONFIG: queue table (R304, R486) -/

/-- A queue's record from its two words. -/
def queueOf (b : List Byte) (q : Nat) : Queue :=
  let c := numAt b (8 * q) 4
  let r := numAt b (8 * q + 4) 4
  { owner := BitVec.ofNat 2 c, consumer := BitVec.ofNat 2 (bits c 13 12), notice := BitVec.ofNat 2 (bits c 15 14)
    target := BitVec.ofNat 12 (bits c 27 16), ringUnits := BitVec.ofNat 10 (bits r 31 22), ringBase := BitVec.ofNat 22 r }

/-- Bytes of the scratch window from offset `o` on, in 4 KiB pages, all lie in slices of tower `t`. -/
def inScratch (s : State) (t : Option Nat) (o pages : Nat) : Bool :=
  (List.range pages).all fun i =>
    match scratchOf s (0x40_0000_0000 + o + 4096 * i) with
    | some (j, _) => (match t with | some p => j / 24 == p | none => true)
    | none => false

/-- A queue's entry keeps the limits; `s` has the image's roles. -/
def queueOk (s : State) (b : List Byte) (q : Nat) : Bool :=
  let c := numAt b (8 * q) 4
  let x := queueOf b q
  bits c 31 28 == 0 && bits c 11 2 == 0 && x.notice != 3 && x.consumer != 3
    && (x.notice != 2 || decide (16 ≤ x.target.toNat ∧ x.target.toNat ≤ 63))
    && inScratch s (some x.owner.toNat) (4096 * x.ringBase.toNat) x.ringUnits.toNat

/-- The queues that DEVICE_CFG names for partition `p` belong to its controller (R40). -/
def namedOk (cfg b : List Byte) (p : Nat) : Bool :=
  [numAt cfg (0xC + 2 * p) 2, numAt cfg (0x14 + 2 * p) 2].all fun q =>
    decide (512 ≤ q) || ((queueOf b q).owner.toNat == p && (queueOf b q).consumer == 0)

/-- Check 3. -/
def queuesOk (s : State) (cfg b : List Byte) : Bool := (List.range 512).all (queueOk s b) && (List.range 4).all (namedOk cfg b)

/-- Put the queue table into force. -/
def applyQueues (b : List Byte) (s : State) : State := { s with queues := forN 512 (fun k t => Tbl.put {} t k { queueOf b k with shown := true }) [] }

/-! ### CONFIG: class table (R281 to R283, R515) -/

/-- Entry 16 p + c of the class table. -/
def classAt (b : List Byte) (e : Nat) : ClassEntry :=
  let o := 64 * e
  let f := numAt b o 1
  let two (a n : Nat) : List Nat := (List.range n).map fun i => numAt b (o + a + 2 * i) 2
  { enabled := bit f 0, realtime := bit f 1, loessMin := numAt b (o + 1) 1, loessW := numAt b (o + 2) 1, marlW := numAt b (o + 3) 1
    portW := numAt b (o + 4) 1, seamW := numAt b (o + 5) 1, slotsMin := numAt b (o + 6) 2, marlMin := two 8 4, portMin := two 0x10 6
    seamMin := two 0x1C 4, reserved := decide (4 ≤ f) || !zeroAt b (o + 0x24) 28 }

/-- The first class whose minimum takes a sum beyond its limit: entries given with their minima, ascending. -/
def overAt (limit : Nat) : Nat → List (Nat × Nat) → Option Nat
  | _, [] => none
  | sum, (e, m) :: rest => if limit < sum + m then some (e % 16) else overAt limit (sum + m) rest

/-- The first failing check of a sum over resources `rs`: reason, class, resource. -/
def sumCheck (es : List (Nat × ClassEntry)) (reason limit base : Nat) (rs : List Nat) (f : Nat → Nat × ClassEntry → Option Nat) :
    Option (Nat × Nat × Nat) :=
  rs.findSome? fun r => (overAt limit base (es.filterMap fun e => (f r e).map fun m => (e.1, m))).map fun c => (reason, c, r)

/-- The first failing entry of a check of R283. -/
def entryCheck (es : List (Nat × ClassEntry)) (reason : Nat) (f : Nat × ClassEntry → Option Nat) : Option (Nat × Nat × Nat) :=
  es.findSome? fun e => (f e).map fun w => (reason, e.1 % 16, w)

/-- Checks of R282 and R283 in the order of R515: reason, class and place of the first that fails. -/
def classFault (s : State) (b : List Byte) : Option (Nat × Nat × Nat) :=
  let all := (List.range 64).map fun e => (e, classAt b e)
  let on := all.filter fun e => e.2.enabled
  let part (e : Nat × ClassEntry) : Nat := e.1 / 16
  let weights (c : ClassEntry) : List Nat := [c.loessW, c.marlW, c.portW, c.seamW]
  let sums := [
    sumCheck on 1 130560 1536 (List.range 4) (fun r e => some (10 * e.2.marlMin.getD r 0)),
    sumCheck on 2 10200 0 (List.range 4) (fun r e => some (e.2.seamMin.getD r 0)),
    sumCheck on 3 1700 0 (List.range 6) (fun r e => some (e.2.portMin.getD r 0)),
    sumCheck on 4 13 0 (List.range 4) (fun r e => if part e = r then some e.2.loessMin else none),
    sumCheck on 5 217 0 (List.range 4) (fun r e => if part e = r then some e.2.slotsMin else none),
    entryCheck all 6 (fun e => if e.1 % 16 = 0 ∧ (!e.2.enabled ∨ e.2.marlMin.getD (part e) 0 = 0) then some (part e) else none),
    entryCheck on 7 (fun e => if (weights e.2).contains 0 then some (part e) else none),
    entryCheck all 8 (fun e =>
      let z := classAt b (e.1 % 16)
      if e.2.realtime ≠ z.realtime ∨ weights e.2 ≠ weights z then some (part e) else none),
    entryCheck all 9 (fun e => if e.2.reserved then some (part e) else none),
    entryCheck all 10 (fun e => (List.range 6).find? fun k => e.2.portMin.getD k 0 != 0 && !portPresent s k)]
  sums.findSome? id

/-- Put the class table into force. -/
def applyClasses (b : List Byte) (s : State) : State :=
  { s with svc := { s.svc with classes := forN 64 (fun e t => Tbl.put {} t e (classAt b e)) [] } }

/-! ### CONFIG: command keys (R398) -/

/-- The bytes of a 256-bit value, first byte least significant. -/
def bytes256 (v : BitVec 256) : List Byte := leBytes 32 v.toNat

/-- "JEFEN-KEYWRAP". -/
def wrapLabel : List Byte := [0x4A, 0x45, 0x46, 0x45, 0x4E, 0x2D, 0x4B, 0x45, 0x59, 0x57, 0x52, 0x41, 0x50]

/-- The wrapped key of entry `i`. -/
def wrappedKey (b : List Byte) (i : Nat) : List Byte := (b.drop (64 * i + 8)).take 32

/-- Entry `i` is valid. -/
def keyValid (b : List Byte) (i : Nat) : Bool := bit (numAt b (64 * i) 1) 0

/-- Check 5: every valid entry passes its TAG. -/
def keysOk (s : State) (b : List Byte) : Bool :=
  (List.range 8).all fun i => !keyValid b i ||
    kmacTag s.fuses.wrapKey (wrappedKey b i ++ [BitVec.ofNat 8 i]) == BitVec.ofNat 128 (numAt b (64 * i + 40) 16)

/-- Unwrap the keys into the security engine. -/
def applyKeys (image b : List Byte) (s : State) : State :=
  let key (i : Nat) : CmdKey :=
    if keyValid b i then
      let pad := shake256 (bytes256 s.fuses.wrapKey ++ wrapLabel ++ [BitVec.ofNat 8 i] ++ (image.drop 0x18).take 8)
      { valid := true, permit := BitVec.ofNat 32 (numAt b (64 * i + 4) 4), key := BitVec.ofNat 256 (ofLe (wrappedKey b i)) ^^^ pad }
    else {}
  { s with net := { s.net with keysIn := true, keys := forN 8 (fun i t => Tbl.put {} t i (key i)) [] } }

/-! ### CONFIG: device configuration (Table 13.6) -/

/-- Check 6; `s` has the image's roles. -/
def deviceCfgOk (s : State) (b : List Byte) : Bool :=
  let within (v lo hi : Nat) : Bool := decide (lo ≤ v ∧ v ≤ hi)
  let pool := numAt b 0x20 8
  let att := numAt b 0x28 8
  within (numAt b 0 1) 1 32 && within (numAt b 1 1) 1 32 && within (numAt b 2 1) 1 (if s.fuses.variant = 0x7648 then 1 else 64)
    && ((List.range 4).all fun p => within (numAt b (8 + p) 1) 1 255 && within (numAt b (0xC + 2 * p) 2) 0 511 && within (numAt b (0x14 + 2 * p) 2) 0 511)
    && pool % 0x100000 == 0 && inScratch s none pool 256 && att % 0x10000 == 0 && inScratch s none att 16
    && within (numAt b 0x30 1) 1 50 && within (numAt b 0x31 1) 1 255
    && zeroAt b 3 1 && zeroAt b 6 2 && zeroAt b 0x1C 4 && zeroAt b 0x32 14

/-- Put the device configuration into force. -/
def applyDeviceCfg (b : List Byte) (s : State) : State :=
  let s1 := forN 4 (fun p s => s.modGov p fun g => { g with weight := BitVec.ofNat 8 (numAt b (8 + p) 1) }) s
  let four (o : Nat) : List (BitVec 16) := (List.range 4).map fun p => BitVec.ofNat 16 (numAt b (o + 2 * p) 2)
  { s1 with
    net := { s1.net with limit := BitVec.ofNat 6 (numAt b 0x30 1) }
    bru := { s1.bru with
      faultQ := four 0xC
      collQ := four 0x14
      pool := BitVec.ofNat 64 (numAt b 0x20 8)
      attest := BitVec.ofNat 64 (numAt b 0x28 8)
      hold := BitVec.ofNat 8 (numAt b 0x31 1) } }

end Sys2Proof.Machine
end

