-- ==== Sys2Proof/Machine/BringUp.lean ====
section
/-! DEFINITION. Bring-up: power-on to ready (R391 to R394, R399 to R406, R409 to R415). One command does what one stage of
Table 13.1 does and enters the next. -/

namespace Sys2Proof.Machine
open Sys2Proof

/-! ### Common parts -/

/-- Bring-up can go on: power is there and no reset of the device holds it. -/
def bootRuns (s : State) : Bool :=
  s.rst.powered && !s.rst.l4held && !s.board.jhold && !s.rst.running.any fun r => decide (3 ≤ r.level)

/-- Duration of this bring-up so far, ms. -/
def bootMs (s : State) : W32 := BitVec.ofNat 32 ((now s - s.bru.from_.toNat) / 1000000)

/-- Enter BOOT_FAULT (15) or CONFIG_FAULT (14): the record of R435, the host's notice (Table 16.2). -/
def enterFault (stage code unit : Nat) (s : State) : State :=
  let s1 := { s with bru := { s.bru with fault := BitVec.ofNat 8 code, unit := BitVec.ofNat 8 unit, duration := bootMs s } }
  raiseEvent 0 (faultRecord s.bru.cause.toNat s.rst.lastLevel.toNat s.rst.lastTarget.toNat 0 (setStage stage s1))

/-- Bit mask of a list of numbers. -/
def maskOf (n : Nat) (l : List Nat) : List Byte := leBytes n ((List.range (8 * n)).foldl (fun v i => if l.contains i then v + 2 ^ i else v) 0)

/-- The fuse state that M3 measures (R414); its order is the model's (log 10). -/
def fuseBytes (s : State) : List Byte :=
  let f := s.fuses
  leBytes 2 f.variant.toNat ++ maskOf 12 f.sitesOff ++ maskOf 12 f.slicesOff ++ maskOf 12 f.spares ++ maskOf 1 f.portsOff ++ f.rstEntry
    ++ [BitVec.ofNat 8 f.svnMin.toNat] ++ maskOf 1 f.keyRevoked ++ [BitVec.ofNat 8 (b2n f.debugFuse)]
    ++ f.keyDigest.flatMap (fun d => bytes256 (d.getD 0)) ++ f.repairs.flatMap fun w => leBytes 8 w.toNat

/-! ### Power-on (R505, Table 17.5) -/

/-- POWER_ON: VAON and VIO are in tolerance and the Skotrum reset is released; the straps are sampled, and an absent
reference starts the time base on the backup oscillator (R508, R510), and the regulators get their transition rate (R62). A
device that is powered already stands. -/
def execPowerOn (tbRef : Bool) (straps : BitVec 4) (s : State) : Host.Outcome State Fault Refusal :=
  if s.rst.powered ∧ (s.bru.stage ≠ 0 ∨ s.skt.time ≠ 0) then ok s
  else
    let off := { s with thm := {}, loess := [], marl := [], pwr := {}, pcie := {} }
    let c := send .flashReset (coldReset off)
    ok (writeRates { c with
      skt := { c.skt with refLoss := !tbRef, holdover := !tbRef }
      board := { c.board with straps := straps } })

/-! ### OPTIONS (R393, R394, R403, R506) -/

/-- Some entry of the log is missing from the map, or the map fails its check (R403). -/
def logAhead (s : State) : Bool := !s.rst.mapOk || s.rst.logTail.any fun r => !s.rst.repairs.any (sameRepair r)

/-- WARM.MODE permits a warm start for the cause of this L3. -/
def warmPermits (o : Option_) (cause : Nat) : Bool :=
  if o.warmMode = 0 then true else if o.warmMode = 2 then !(cause == 4 || cause == 5) else false

/-- The warm path is taken: an L3 with a valid token that names this fuse state (R403). -/
def takesWarm (s : State) (o : Option_) : Bool :=
  match s.bru.tokenWas with
  | none => false
  | some t => s.bru.stage == 1 && t.m3 == shake256 (fuseBytes s) && warmPermits o s.bru.cause.toNat && !logAhead s

/-- Rails to boot levels, partitions out of reset, governors running (Table 13.8 event 5). -/
def partitionsUp (s : State) : State :=
  let s1 := forN 4 (fun p s => command p 1 800 (command p 0 800 (s.modPart p fun x => { x with held := false }))) s
  { s1 with mrl := { s1.mrl with selfRef := 0 } }

/-- What the option reader finds, once in a bring-up; a valid copy's FL_ENTER entries are issued (R393). -/
def takeOptions (s : State) : State :=
  if s.bru.optIn then s
  else
  let (o, copy) := readOptions s
  let warm := takesWarm s o
  enterFlash copy { s with
    skt := { s.skt with pllLocked := s.skt.pllLocked || !s.skt.holdover }
    rst := { s.rst with
      repairs := if s.bru.stage = 1 ∧ logAhead s then s.rst.logTail else s.rst.repairs
      mapOk := true, token := none }
    bru := { s.bru with
      optIn := true, opt := o, warm := warm, m1 := if copy.isEmpty then 0 else shake256 copy, m3 := shake256 (fuseBytes s)
      idkey := Config.slhPublic s.fuses.idSeeds } }

/-- OPTIONS_READ: OPTIONS and what follows it up to the partitions' release. A rail out of regulation holds the stage
(R506). -/
def execOptionsRead (s : State) : Host.Outcome State Fault Refusal :=
  if !bootRuns s || decide (1 < s.bru.stage.toNat) then ok s
  else
    let s1 := takeOptions s
    let s2 := if s.bru.stage = 1 then s1 else setStage 1 s1
    if !s.pwr.down.isEmpty then ok s2 else ok (setStage (if s2.bru.opt.source then 3 else 2) (partitionsUp s2))

/-! ### VERIFY (R399) -/

/-- Flash address of an image slot: B where `b`. -/
def slotBase (b : Bool) : Nat := if b then 0x400_0000 else 0x100_0000

/-- The read command for an image slot goes to the flash (R393). -/
def askSlot (b : Bool) (s : State) : State := send (.flash (readCommand s.bru.opt) (slotBase b) []) s

/-- The image of a slot, or the fault code of its failure. -/
def readSlot (s : State) (b : Bool) : Except Nat (List Byte) :=
  match flashRead s (slotBase b) 0x100 with
  | none => .error 1
  | some h =>
    if !imageHeadOk h then .error 1
    else
      match flashRead s (slotBase b) (imageSize h) with
      | none => .error 1
      | some im => match imageFault s im with | 0 => .ok im | c => .error c

/-- A verified image is in force. -/
def imageIn (im : List Byte) (s : State) : State :=
  let d := imageDigest im
  { s with bru := { s.bru with
    image := im, imageId := BitVec.ofNat 64 d.toNat, digest := d, svn := BitVec.ofNat 6 (numAt im 0xC 2)
    burnSvn := bit (numAt im 0x10 4) 0, revoke := bit (numAt im 0x10 4) 1, imageKey := s.bru.opt.keyIndex } }

/-- Chunks of an image (R406). -/
def chunkCount (size : Nat) : Nat := (size + 4063) / 4064

/-- An FW payload (Table 13.11). -/
def fwBytes (s : State) (kind seq : Nat) (body : List Byte) : List Byte :=
  let n := if s.bru.image.isEmpty then s.bru.rxSize.toNat else s.bru.image.length
  [BitVec.ofNat 8 kind, s.bru.fwDist, 0, 0] ++ leBytes 4 seq ++ leBytes 8 s.bru.imageId.toNat ++ leBytes 4 n ++ leBytes 4 (chunkCount n)
    ++ List.replicate 8 0 ++ body

/-- Send ANNOUNCE on every port in service; the next is due 100 ms later (R407). -/
def announce (s : State) : State :=
  let p := fwBytes s 1 0 (bytes256 s.bru.digest)
  forN 6 (fun k s => if inService (s.getPort k) then sendNbr k 5 p s else s) { s with bru := { s.bru with annAt := some s.skt.time } }

/-- IMAGE_VERIFY: the slot of the option block, then the other where FALLBACK is 1. A failed slot leaves its code. -/
def execImageVerify (s : State) : Host.Outcome State Fault Refusal :=
  if !bootRuns s || s.bru.stage ≠ 2 then ok s
  else
    let o := s.bru.opt
    let good (b : Bool) (im : List Byte) (s : State) : State :=
      let s1 := imageIn im s
      setStage 3 (announce { s1 with bru := { s1.bru with slotUsed := b, fwDist := 0 } })
    let s0 := askSlot o.slot s
    match readSlot s o.slot with
    | .ok im => ok (good o.slot im s0)
    | .error c =>
      if !o.fallback then ok (enterFault 15 c 0xFF s0)
      else
        let s := askSlot (!o.slot) s0
        match readSlot s (!o.slot) with
        | .ok im => ok (good (!o.slot) im { s with bru := { s.bru with fault := BitVec.ofNat 8 c } })
        | .error c2 => ok (enterFault 15 c2 0xFF s)

/-! ### MEMORY_TEST (R401, R440 to R442) -/

/-- Move a logical channel to its stack's spare before traffic flows; none when the spare is gone. -/
def swapChannel (m : Nat) (s : State) : Option State :=
  let st := m / 17
  if chRole s m = 1 then some (s.modMCh m fun x => { x with role := 4, logical := 15, given := true })
  else
    match (List.range 17).find? fun p => chRole s (17 * st + p) == 1 with
    | none => none
    | some p =>
      let lg := chLogical s m
      let s1 := s.modMCh (17 * st + p) fun x => { x with role := 0, logical := BitVec.ofNat 4 lg, given := true }
      let s2 := s1.modMCh m fun x => { x with role := 4, logical := 15, given := true }
      some (addRepair 0x0B m lg p { s2 with mrl := { s2.mrl with spareUsed := setBit s2.mrl.spareUsed st true } })

/-- Repair one failure that the tests found; the unit that bring-up cannot do without, where there is no spare. -/
def testFailure (f : MemFail) (s : State) : State × Option Nat :=
  match f with
  | .loessRow j b r =>
    let s1 := s.modSlc j.val fun x => { x with due := if x.due.contains (b.val, r.toNat) then x.due else x.due ++ [(b.val, r.toNat)] }
    (repairRow j.val b.val r.toNat s1, none)
  | .loessColumn j b g =>
    let s1 := s.modSlc j.val fun x => { x with colDue := if x.colDue.contains (b.val, g.toNat) then x.colDue else x.colDue ++ [(b.val, g.toNat)] }
    (repairColumn j.val b.val g.toNat s1, none)
  | .marlRow c l b r => (repairMarlRow c.val l.val b.val r.toNat (marlRowDue (((c.val * 12 + l.val) * 16 + b.val) * 4096 + r.toNat) s), none)
  | .marlChannel c => match swapChannel c.val s with | some s1 => (s1, none) | none => (s, some (0x80 + c.val / 17))
  | .loessDie t => (s, some (0x90 + t.val))

/-- Every memory test ends by writing zeros with valid check bytes. -/
def zeroMemories (s : State) : State :=
  let clean (x : Slice_) : Slice_ := { x with sets := [], miss := [], wb := [], input := [], held_ := [], tagLost := [], fix := [], hurt := [] }
  let clear (x : MChan) : MChan := { x with queue := [], fix := [] }
  { s with
    loess := [], loessBad := [], marl := [], marlBad := [], mrl := { s.mrl with hurt := [] }
    slices := mapTbl {} clean s.slices, mchans := mapTbl {} clear s.mchans }

/-- MEMORY_TEST: column groups are taken before rows, rows in ascending order (R440). The tests overwrite what the memories held
before a repair moves it. -/
def execMemoryTest (fails : List MemFail) (s : State) : Host.Outcome State Fault Refusal :=
  if !bootRuns s || s.bru.stage ≠ 3 then ok s
  else
    let cols := fails.filter fun f => match f with | .loessColumn _ _ _ => true | _ => false
    let rest := fails.filter fun f => match f with | .loessColumn _ _ _ => false | _ => true
    let (s1, bad) := (cols ++ rest).foldl (fun (x : State × Option Nat) f =>
      let (s, b) := x
      let (s2, b2) := testFailure f s
      (s2, if b.isSome then b else b2)) (zeroMemories s, none)
    let s2 := zeroMemories { s1 with bru := { s1.bru with tested := true } }
    match bad with
    | some u => ok (enterFault 15 6 u s2)
    | none => ok (setStage 4 s2)

/-! ### BUNDLE_CAL (R402) -/

/-- The saved points of a group are kept: warm, not RECAL_ALL, and the slice within 15 K of the temperature held for the
group. -/
def groupKept (s : State) (j k : Nat) : Bool :=
  let t := (s.getBgr (8 * j + k)).temp.toNat
  s.bru.warm && !s.bru.opt.recalAll && decide (pointTemp s j ≤ t + 30 ∧ t ≤ pointTemp s j + 30)

/-- The bundle's saved point is kept: its group's are, and the point exists. -/
def pointKept (s : State) (j k b : Nat) : Bool := groupKept s j k && (s.getBun (bundleIx j k b)).valid

/-- The sweep of every bundle at a cold start, each finding the window `t0`, `w`: spare bonds used and bundles lost stay
(R72). -/
def coldSweepAll (t0 w : Nat) (s : State) : State :=
  let point (j : Nat) : BitVec 16 := BitVec.ofNat 16 (pointTemp s j)
  let c : ColdSweep :=
    { t0 := t0, width := w
      temp := (List.range 96).filterMap fun j => if point j = 0 then none else some (j, point j)
      vcore := (List.range 4).filterMap fun p => let v := (s.getGov p).vcore.toNat; if v = 0 then none else some (p, v)
      vloess := (List.range 4).filterMap fun p => let v := (s.getGov p).vloess.toNat; if v = 0 then none else some (p, v) }
  let s1 := { s with
    coldSweep := some c, bundles := []
    bgroups := (List.range 768).filterMap fun i =>
      let g : BundleGroup := { s.getBgr i with temp := point (i / 8) }
      if g = {} then none else some (i, g) }
  forL (s.bundles.filter fun e => 0 < e.2.bonds ∨ e.2.out) (fun e s => s.modBun e.1 fun x => { x with bonds := e.2.bonds, out := e.2.out }) s1

/-- The sweep of every bundle whose point a warm start does not keep, each finding the window `t0`, `w` (R402). -/
def warmSweepAll (t0 w : Nat) (s0 : State) : State :=
  forN 96 (fun j s => forN 8 (fun k s => forN 33 (fun b s =>
    if pointKept s0 j k b then s else sweepPass j k b t0 w s) s) s) s0

/-- BUNDLE_CAL: every bundle whose point is not kept is swept. A listed width of 0 says that no tap passed: the bundle is repaired
as R75 gives, the lower index first. -/
def execBundleCal (sweeps : CalSweeps) (s : State) : Host.Outcome State Fault Refusal :=
  if !bootRuns s || s.bru.stage ≠ 4 then ok s
  else
    let due := sweeps.listed.filter fun x => !pointKept s x.1.val x.2.1.val x.2.2.1.val
    let s0 := if s.bru.warm && !s.bru.opt.recalAll then warmSweepAll sweeps.rest.1.toNat sweeps.rest.2.toNat s
      else coldSweepAll sweeps.rest.1.toNat sweeps.rest.2.toNat s
    ok (setStage 5 (forL due (fun x s =>
      let j := x.1.val
      let k := x.2.1.val
      let b := x.2.2.1.val
      if x.2.2.2.2 = 0 then
        (s.modBun (bundleIx j k b) fun y => { y with valid := false }).modBgr (8 * j + k) fun g => { g with repair := dueTogether b g.repair }
      else sweepPass j k b x.2.2.2.1.toNat x.2.2.2.2.toNat s) s0))

/-! ### The upstream of a fabric-boot device (R407) -/

/-- The offers of ports in service, as (FW_DIST, port, offer). -/
def offers (s : State) : List (Nat × Nat × FwOffer) :=
  (s.bru.ann.filter fun e => inService (s.getPort e.1)).map fun e => (e.2.dist, e.1, e.2)

/-- The smaller FW_DIST, and the lower port among equals. -/
def nearer (x y : Nat × Nat × FwOffer) : Nat × Nat × FwOffer :=
  if x.1 < y.1 ∨ (x.1 = y.1 ∧ x.2.1 ≤ y.2.1) then x else y

/-- The offer that R407 chooses. -/
def bestOffer (s : State) : Option (Nat × Nat × FwOffer) :=
  match offers s with
  | [] => none
  | x :: rest => some (rest.foldl nearer x)

/-- Choose an upstream where the device seeks one, and request the whole image from it (R407, R408, R411). What was
received of another image is discarded. -/
def chooseFw (s : State) : State :=
  if !s.bru.opt.source || (s.bru.stage ≠ 6 && s.bru.stage ≠ 15) || s.bru.upstream ≠ 0xF then s
  else
    match bestOffer s with
    | none => s
    | some (d, k, o) =>
      let b := s.bru
      let s1 := { s with bru := { b with
        upstream := BitVec.ofNat 4 k, fwDist := BitVec.ofNat 8 (d + 1), rx := if b.imageId = o.imageId then b.rx else []
        imageId := o.imageId, rxSize := o.size, rxChunks := o.chunks, rxLast := s.skt.time, rxNew := false, needs := 0 } }
      sendNbr k 5 (fwBytes s1 2 0 []) s1

/-! ### KAOLIN (R404, R405) -/

/-- Set a bit of BRU_KAOLIN of tower `t`. -/
def kaolinBit (t k : Nat) (s : State) : State :=
  { s with bru := { s.bru with kaolin := Tbl.mod 0 s.bru.kaolin t fun v => setBit v k true } }

/-- One failed engine (Table 13.10). A site in service that fails is retired: its cluster's spare takes its place, or it goes
without one; either is in the repair map, and the host is notified (R405, R437, R438). -/
def kaolinFailure (sites : List Nat) (f : KaolinFail) (s : State) : State :=
  match f with
  | .security => s
  | .coll k =>
    let t := portTower k.val
    let low := (List.range k.val).any fun i => portTower i == t
    kaolinBit t (if low then 26 else 25) (s.modPort k.val fun x => { x with collOff := true })
  | .governor p =>
    kaolinBit p.val 24 (raiseEvent 2 (s.modPart p.val fun x => { x with floorFault := true, floorSeen := true, floorFixed := true }))
  | .hashUnit p => { s with bru := { s.bru with hashBad := p.val :: s.bru.hashBad.filter (· ≠ p.val) } }
  | .site j =>
    let i := j.val
    let st := siteStatus s i
    let s1 := kaolinBit (i / 24) (i % 24) s
    if st = 6 ∨ st = 4 then s
    else
      match (if siteInService s i then (clusterSites (4 * (i / 24) + i % 24 / 6)).find? fun t => siteStatus s t == 1 && !sites.contains t else none) with
      | some t =>
        let s2 := setSiteStatus t 2 (setSiteStatus i 5 s1)
        raiseEvent 6 (addRepair 1 i 0 (t % 24) (s2.modSite i fun x => { x with replacedBy := BitVec.ofNat 8 (t % 24) }))
      | none =>
        let s2 := setSiteStatus i 5 s1
        if siteInService s i then raiseEvent 6 (addRepair 2 i 0 0xFF s2) else s2

/-- Bytes of the Kaolin results that M5 measures: every failure, the staging hash units' among them (R404). -/
def kaolinBytes (s : State) : List Byte :=
  ((List.range 4).flatMap fun t => leBytes 4 (Tbl.get 0 s.bru.kaolin t).toNat) ++ maskOf 1 s.bru.hashBad

/-- KAOLIN: a device that boots from its flash goes on to DISTRIBUTE, one that boots from the fabric to WAIT_IMAGE. -/
def execKaolin (fails : List KaolinFail) (s : State) : Host.Outcome State Fault Refusal :=
  if !bootRuns s || s.bru.stage ≠ 5 then ok s
  else
    let sites := fails.filterMap fun f => match f with | .site j => some j.val | _ => none
    let s1 := forL fails (kaolinFailure sites) s
    let s2 := { s1 with bru := { s1.bru with m5 := shake256 (kaolinBytes s1), kaolinAt := s.skt.time } }
    if fails.any fun f => decide (f = .security) then ok (enterFault 15 5 0xFF s2)
    else ok (chooseFw (setStage (if s.bru.opt.source then 6 else 7) s2))

/-! ### DISTRIBUTE (R406) -/

/-- The 48 MiB of an image copy. -/
def copyBytes : Nat := 0x300_0000

/-- Key of the staging copy of a tower: its lowest-numbered visible slice. -/
def stagingKey (s : State) (t : Nat) : Option Nat := ((towerSites t).find? (sliceVisible s)).map fun j => loessKey j 0

/-- Codeword `cw` lies outside the device copy. -/
def outsideCopy (cw : Nat) : Bool := decide (cw < 0x23_FD00_0000 / 64 ∨ 0x23_FD00_0000 / 64 + copyBytes / 64 ≤ cw)

/-- Every codeword of the device copy has been written: no error stands in it and none is poisoned (R401). -/
def copyWritten (s : State) : State :=
  { s with
    marlBad := s.marlBad.filter outsideCopy
    mrl := { s.mrl with hurt := s.mrl.hurt.filter fun e => outsideCopy e.1 } }

/-- Every word of the staging copies has been written: no error stands in them and none is poisoned (R401). -/
def stagingWritten (s : State) : State :=
  forN 4 (fun t s1 =>
    match (towerSites t).find? (sliceVisible s) with
    | none => s1
    | some j =>
      let w := loessKey j 0 / 8
      { s1.modSlc j fun x => { x with
          hurt := x.hurt.filter fun f => decide (copyBytes / 8 ≤ f.word), fix := x.fix.filter fun k => decide (copyBytes / 8 ≤ k) } with
        loessBad := s1.loessBad.filter fun k => decide (k < w ∨ w + copyBytes / 8 ≤ k) }) s

/-- The sections that the controller of partition `p` keeps, by type: the management-core section, and those of firmware and
firmware data that name its partition or all (R406; DEDUCED, log 73). -/
def controllerSections (im : List Byte) (p : Nat) : List (Nat × List Byte) :=
  ((imageSections im).filter fun x => x.type == 1 || ((x.type == 2 || decide (0x10 ≤ x.type)) && (x.inst == p || x.inst == 0xFF))).map
    fun x => (x.type, (im.drop x.off).take x.size)

/-- DISTRIBUTE: the device copy and the staging copies are written, and every partition controller starts from its sections. -/
def execDistribute (s : State) : Host.Outcome State Fault Refusal :=
  if !bootRuns s || s.bru.stage ≠ 7 then ok s
  else
    let im := s.bru.image
    let s1 := stagingWritten (copyWritten { s with
      marl := putBytes 0 (zeroRange s.marl 0x23_FD00_0000 copyBytes) 0x23_FD00_0000 im
      loess := forN 4 (fun t l => match stagingKey s t with | some a => putBytes 0 l a im | none => l) s.loess
      bru := { s.bru with held := true } })
    ok (setStage 8 (forN 4 (fun p s => s.modPart p fun x => { x with started := true, memory := controllerSections im p }) s1))

/-! ### CONFIG (R400, R409) -/

/-- The image asks for fuses that are not yet programmed (R400). -/
def burnDue (s : State) : Bool :=
  (s.bru.burnSvn && decide (s.fuses.svnMin.toNat < s.bru.svn.toNat))
    || (s.bru.revoke && (List.range s.bru.imageKey.toNat).any fun k => !s.fuses.keyRevoked.contains k)

/-- Program the security-version minimum and the revocations. -/
def burnFuses (s : State) : State :=
  let f := s.fuses
  { s with
    bru := { s.bru with svnPend := false }
    fuses := { f with
      svnMin := if s.bru.burnSvn ∧ f.svnMin.toNat < s.bru.svn.toNat then s.bru.svn else f.svnMin
      keyRevoked := if s.bru.revoke then f.keyRevoked ++ (List.range s.bru.imageKey.toNat).filter fun k => !f.keyRevoked.contains k
        else f.keyRevoked } }

/-- Grant full credits: the second INIT is due on every port in service that is wired right (R342, R409, R410); where the
peer's first INIT, which tells the wiring, has yet to come, it becomes due then (R358). -/
def grantCredits (s : State) : State :=
  forN 6 (fun k s =>
    let x := s.getPort k
    if inService x && !x.initWait && !x.miswired && !x.localReady && !x.initDue.contains true then
      s.modPort k fun x => { x with initDue := x.initDue ++ [true] }
    else s) s

/-- The first check after the location that fails: its fault code, and the state that shows it. What R187 and R304 passed is
in force, so that in CONFIG_FAULT every controller finds its tasks and refuses them (R283); the class table is not (R409). -/
def configFault (s : State) (cfg roles queues classes keys : List Byte) : Option (Nat × State) :=
  if !rolesOk s roles then some (0x10, s)
  else
    let r := applyRoles roles s
    if !queuesOk r cfg queues then some (0x11, r)
    else
      let u := applyQueues queues r
      match classFault s classes with
      | some (reason, c, w) =>
        some (0x12, { u with svc := { u.svc with reason := BitVec.ofNat 8 reason, cls := BitVec.ofNat 8 c, where_ := BitVec.ofNat 8 w } })
      | none => if !keysOk s keys then some (0x13, u) else if !deviceCfgOk r cfg then some (0x14, u) else none

/-- CONFIG: the sections are checked in the order of R409 and applied. -/
def execConfig (s : State) : Host.Outcome State Fault Refusal :=
  if !bootRuns s || s.bru.stage ≠ 8 || s.net.keysIn then ok s
  else
    let im := s.bru.image
    let cfg := sectionOf im 3
    let keys := sectionOf im 7
    let s0 := { s with bru := { s.bru with m6 := shake256 ((flashRead s 0x1000 64).getD []) } }
    if !locationOk s cfg then ok (enterFault 15 8 0xFF s0)
    else
      let s1 := applyLocation cfg s0
      match configFault s1 cfg (sectionOf im 6) (sectionOf im 5) (sectionOf im 4) keys with
      | some (code, s2) =>
        ok (grantCredits (forN 6 checkWiring (enterFault 14 code 0xFF { s2 with svc := { s2.svc with cfgFault := true } })))
      | none =>
        let s2 := applyKeys im keys (applyDeviceCfg cfg (applyClasses (sectionOf im 4) (applyQueues (sectionOf im 5) (applyRoles (sectionOf im 6) s1))))
        let s3 := chooseUpstream (forN 6 checkWiring s2)
        ok (if !burnDue s3 then s3 else if fuseOpen s3 then burnFuses s3
          else { s3 with bru := { s3.bru with svnPend := true } })

/-! ### READY (R410) -/

/-- READY: the conditions of R410 hold, and everything it lists happens in the same step. -/
def execReady (s : State) : Host.Outcome State Fault Refusal :=
  if !bootRuns s || s.bru.stage ≠ 8 || !s.net.keysIn || !(List.range 4).all (fun p => (s.getPart p).started) then ok s
  else
    let s1 := stagingWritten { s with
      loess := forN 4 (fun t l => match stagingKey s t with | some a => zeroRange l a copyBytes | none => l) s.loess
      bru := { s.bru with ready := true, duration := bootMs s, readyAt := s.skt.time }
      rst := { s.rst with token := some { m3 := s.bru.m3, imageId := s.bru.imageId, at_ := s.skt.time } } }
    let s2 := forN 4 (fun p s => s.modPart p fun x => { x with kick := s.skt.time }) (setStage 9 s1)
    ok (grantCredits (raiseEvent 0 (send (.ibi 4) s2)))

end Sys2Proof.Machine
end

