-- ==== Sys2Proof/Machine/Firmware.lean ====
section
/-! DEFINITION. The image over the fabric and the writes that wait for their windows (R400, R406 to R408, R445, R464,
R465, R491). -/

namespace Sys2Proof.Machine
open Sys2Proof

/-! ### Receiving (R407, R408) -/

/-- The packet comes from the chosen upstream and names its image. -/
def fromUpstream (s : State) (k : Nat) (x : FwPayload) : Bool :=
  s.bru.upstream.toNat == k && x.imageId == s.bru.imageId && s.bru.image.isEmpty

/-- FW_ANNOUNCE: the offer is kept, and a device that seeks an upstream chooses. -/
def execFwAnnounce (port : Port) (x : FwPayload) (s : State) : Host.Outcome State Fault Refusal :=
  if x.kind ≠ 1 then ok s
  else
    let s1 := takeMgmt 5 (some port.val) s
    let o : FwOffer := { dist := x.fwDist.toNat, imageId := x.imageId, size := x.size, chunks := x.chunks }
    ok (chooseFw { s1 with bru := { s1.bru with ann := Tbl.ins port.val o s1.bru.ann } })

/-- FW_DATA: a chunk of the upstream's image is kept. -/
def execFwData (port : Port) (x : FwPayload) (s : State) : Host.Outcome State Fault Refusal :=
  if x.kind ≠ 3 then ok s
  else
    let s1 := takeMgmt 5 (some port.val) s
    if !fromUpstream s1 port.val x || decide (x.chunks.toNat ≤ x.seq.toNat) then ok s1
    else ok { s1 with bru := { s1.bru with
      rx := Tbl.ins x.seq.toNat (x.body.take 4064) s1.bru.rx, rxSize := x.size, rxChunks := x.chunks, rxLast := s1.skt.time
      rxNew := true } }

/-- Chunks not yet received, in order. -/
def missing (s : State) : List Nat := (List.range s.bru.rxChunks.toNat).filter fun n => !s.bru.rx.any fun e => e.1 == n

/-- Runs of consecutive numbers as (first, count). -/
def runsOf : List Nat → List (Nat × Nat)
  | [] => []
  | n :: rest =>
    match runsOf rest with
    | (f, c) :: more => if f = n + 1 then (n, c + 1) :: more else (n, 1) :: (f, c) :: more
    | [] => [(n, 1)]

/-- Give the upstream up: its offer goes, and another is chosen (R408). -/
def dropUpstream (s : State) : State :=
  chooseFw { s with bru := { s.bru with
    ann := Tbl.del s.bru.upstream.toNat s.bru.ann, upstream := 0xF, fwDist := 0xFF, needs := 0, rxNew := false } }

/-- Send NEED for the first 16 ranges missing; after 8 that brought no chunk, choose anew (R408). -/
def sendNeed (s : State) : State :=
  let n := if s.bru.rxNew then 0 else s.bru.needs
  if 8 ≤ n then dropUpstream s
  else
    let rs := (runsOf (missing s)).take 16
    let s1 := { s with bru := { s.bru with needs := n + 1, rxNew := false, rxLast := s.skt.time } }
    sendNbr s.bru.upstream.toNat 5 (fwBytes s1 5 rs.length (rs.flatMap fun r => leBytes 4 r.1 ++ leBytes 4 r.2)) s1

/-- The image that the chunks form. -/
def joined (s : State) : List Byte :=
  ((List.range s.bru.rxChunks.toNat).flatMap fun n => Tbl.get [] s.bru.rx n).take s.bru.rxSize.toNat

/-- The PERSIST write is due, and runs where the flash takes it (R400, R491). -/
def startPersist (s : State) : State :=
  if s.bru.opt.source ∧ s.bru.opt.persist then { s with bru := { s.bru with persPend := true, persRun := flashReady s } } else s

/-- The received image has verified: DONE to the upstream, ANNOUNCE to all, and on to DISTRIBUTE. -/
def fabricImage (im : List Byte) (s : State) : State :=
  let s1 := imageIn im s
  let s2 := { s1 with bru := { s1.bru with fabric := true, rx := [] } }
  let s3 := announce (sendNbr s.bru.upstream.toNat 5 (fwBytes s2 6 0 []) s2)
  startPersist (if s.bru.stage = 6 then setStage 7 s3 else s3)

/-- FW_END: with every chunk there the image is verified; otherwise NEED. -/
def execFwEnd (port : Port) (x : FwPayload) (s : State) : Host.Outcome State Fault Refusal :=
  if x.kind ≠ 4 then ok s
  else
    let s1 := takeMgmt 5 (some port.val) s
    if !fromUpstream s1 port.val x then ok s1
    else
      let s2 := { s1 with bru := { s1.bru with rxSize := x.size, rxChunks := x.chunks, rxLast := s1.skt.time } }
      if !(missing s2).isEmpty then ok (sendNeed s2)
      else
        match imageFault s2 (joined s2) with
        | 0 => ok (fabricImage (joined s2) s2)
        | c =>
          let s3 := { s2 with bru := { s2.bru with rx := [] } }
          ok (dropUpstream (if s3.bru.stage = 6 then enterFault 15 c 0xFF s3 else s3))

/-- FW_CHUNK_TIMEOUT: 20 ms without a packet from the upstream. -/
def execFwChunkTimeout (s : State) : Host.Outcome State Fault Refusal :=
  if s.bru.upstream = 0xF ∨ !s.bru.image.isEmpty ∨ now s < s.bru.rxLast.toNat + 20000000 then ok s else ok (sendNeed s)

/-- NO_UPSTREAM_TIMEOUT: the device stays in WAIT_IMAGE. -/
def execNoUpstreamTimeout (s : State) : Host.Outcome State Fault Refusal :=
  if s.bru.stage ≠ 6 ∨ s.bru.upstream ≠ 0xF ∨ now s < s.bru.kaolinAt.toNat + 600000000000 then ok s
  else ok { s with bru := { s.bru with fault := 7 } }

/-! ### Giving the image on (R407) -/

/-- The device holds a verified image that it still offers. -/
def offersImage (s : State) : Bool := !s.bru.image.isEmpty && (!s.bru.ready || s.bru.held)

/-- Send chunk `n` on port `k`. -/
def sendFwChunk (k n : Nat) (s : State) : State :=
  sendNbr k 5 (fwBytes s 3 n ((s.bru.image.drop (4064 * n)).take 4064)) s

/-- Send chunks and END. -/
def streamChunks (k : Nat) (ns : List Nat) (s : State) : State :=
  let s1 := forL ns (sendFwChunk k) s
  sendNbr k 5 (fwBytes s1 4 0 []) s1

/-- FW_REQUEST: the whole image on that port, which counts among the askers until it answers DONE. -/
def execFwRequest (port : Port) (x : FwPayload) (s : State) : Host.Outcome State Fault Refusal :=
  if x.kind ≠ 2 then ok s
  else
    let s1 := takeMgmt 5 (some port.val) s
    if !offersImage s1 || x.imageId ≠ s1.bru.imageId then ok s1
    else
      let s2 := { s1 with bru := { s1.bru with askers := port.val :: s1.bru.askers.filter (· ≠ port.val) } }
      ok (streamChunks port.val (List.range (chunkCount s2.bru.image.length)) s2)

/-- Chunk numbers of a NEED body. -/
def needChunks (b : List Byte) (n total : Nat) : List Nat :=
  (List.range (min n 16)).flatMap fun i =>
    let f := numAt b (8 * i) 4
    (List.range (min (numAt b (8 * i + 4) 4) (total - f))).map (f + ·)

/-- FW_NEED: those chunks and END. -/
def execFwNeed (port : Port) (x : FwPayload) (s : State) : Host.Outcome State Fault Refusal :=
  if x.kind ≠ 5 then ok s
  else
    let s1 := takeMgmt 5 (some port.val) s
    if !offersImage s1 || x.imageId ≠ s1.bru.imageId then ok s1
    else ok (streamChunks port.val (needChunks x.body x.seq.toNat (chunkCount s1.bru.image.length)) s1)

/-- FW_DONE. -/
def execFwDone (port : Port) (x : FwPayload) (s : State) : Host.Outcome State Fault Refusal :=
  if x.kind ≠ 6 then ok s
  else
    let s1 := takeMgmt 5 (some port.val) s
    ok { s1 with bru := { s1.bru with askers := s1.bru.askers.filter (· ≠ port.val) } }

/-- ANNOUNCE_TIMER: every 100 ms. -/
def execAnnounceTimer (s : State) : Host.Outcome State Fault Refusal :=
  if offersImage s && periodPassed s s.bru.annAt 100000000 then ok (announce s) else ok s

/-- STAGE_HOLD_END: every asker has answered, or STAGE_HOLD seconds have passed since READY. The 48 MiB read 0 and the
other accesses reach them. -/
def execStageHoldEnd (s : State) : Host.Outcome State Fault Refusal :=
  if !s.bru.ready || !s.bru.held || (!s.bru.askers.isEmpty && decide (now s < s.bru.readyAt.toNat + 1000000000 * s.bru.hold.toNat)) then ok s
  else
    ok (copyWritten { s with marl := zeroRange s.marl 0x23_FD00_0000 copyBytes, bru := { s.bru with held := false } })

/-! ### Windows (R400, R446, R464, R465, R491) -/

/-- FUSE_WINDOW_OPEN: the fuses that wait are programmed; the SVN minimum and the revocations only after READY. -/
def execFuseWindowOpen (s : State) : Host.Outcome State Fault Refusal :=
  if !fuseOpen s then ok s else ok (programRepairs (if s.bru.svnPend ∧ s.bru.ready then burnFuses s else s))

/-- Log every entry that waits. -/
def logAll (s : State) : State := forN (s.rst.repairs.filter fun r => !r.logged).length (fun _ s => logOne s) s

/-- FLASH_WINDOW_OPEN: the log records that wait are written, the PERSIST write starts, and a held operation of the host
is issued. -/
def execFlashWindowOpen (s : State) : Host.Outcome State Fault Refusal :=
  if !flashReady s then ok s
  else
    let s1 := logAll s
    let s2 := { s1 with bru := { s1.bru with persRun := s1.bru.persPend } }
    ok (if s2.hst.flashHeld then { s2 with hst := { s2.hst with flashHeld := false, flashStat := 0 } } else s2)

/-- PERSIST_WRITE_DONE: the slot is erased and holds the image (R400, R491). -/
def execPersistWriteDone (s : State) : Host.Outcome State Fault Refusal :=
  if !s.bru.persRun then ok s
  else
    let a := slotBase s.bru.opt.slot
    ok { s with
      board := { s.board with flash := putBytes 0xFF (zeroRange s.board.flash a copyBytes) a s.bru.image }
      bru := { s.bru with persPend := false, persRun := false } }

end Sys2Proof.Machine
end

