-- ==== Sys2Proof/Machine/RegRead.lean ====
section
/-! DEFINITION. What a read of each register returns: the register tables of the unit windows, the selectors and what they
address, and the reads that change something (R9 to R21, R69, R324, R426, R484, R496). Each `…Reg` function follows its
window's tables; an offset with no register reads 0 (R12). -/

namespace Sys2Proof.Machine
open Sys2Proof

/-! ### Selectors (R15 to R19, R496) -/

/-- INSTANCE of requester `r` for unit window `u`. -/
def selOf (s : State) (r u : Nat) : Nat := (Tbl.get 0 s.sel (16 * r + u)).toNat

/-- Instance `i` of window `u` exists and is not fused off. -/
def instHere (s : State) (u i : Nat) : Bool :=
  let site (j : Nat) : Bool := decide (j < 96) && !s.fuses.sitesOff.contains j
  if u = 2 then decide (i < 4)
  else if u = 3 then site i || (decide (128 ≤ i) && portPresent s (i - 128))
  else if u = 4 then decide (i < 256)
  else if u = 5 then
    decide (i < 4) || (decide (256 ≤ i) && site (i - 256)) || (decide (384 ≤ i) && sliceVisible s (i - 384))
      || decide (512 ≤ i ∧ i < 544 ∧ (i - 512) % 8 < 6)
  else if u = 6 then decide (i < 64)
  else if u = 7 then portPresent s i || (decide (16 ≤ i ∧ i < 70) && portPresent s ((i - 16) / 9))
  else if u = 8 then site i || decide (128 ≤ i ∧ i < 192)
  else if u = 9 then site (i / 4)
  else if u = 10 then site (i / 24)
  else if u = 11 then site (i / 2)
  else if u = 12 then sliceVisible s i || decide (128 ≤ i ∧ i < 192)
  else if u = 13 then decide (i < 68)
  else if u = 14 then decide (i < 512)
  else if u = 15 then decide (i < 4224)
  else false

/-- <PREFIX>_SEL as requester `r` reads it (Table 0.6). -/
def selReg (s : State) (r u : Nat) : Nat := selOf s r u + 2 ^ 31 * b2n (!instHere s u (selOf s r u))

/-- The region of partition `p` is fenced for register accesses (R426). -/
def partFenced (s : State) (p : Nat) : Bool := inReset s p || s.rst.running.any fun x => decide (3 ≤ x.level)

/-- Registers of the instance answer nothing while its region is fenced (R426) or its block resets (R431). -/
def instFenced (s : State) (u i off : Nat) : Bool :=
  if u = 5 then decide (i < 4) && partFenced s i
  else if u = 6 then partFenced s (i / 16)
  else if u = 7 then decide (i < 6 ∧ 0x1A0 ≤ off) && (s.getPort i).blkBusy
  else if u = 8 then decide (i < 96) && blockFenced s i 5
  else if u = 9 then blockFenced s (i / 4) 2
  else if u = 10 then blockFenced s (i / 24) 3
  else if u = 11 then blockFenced s (i / 2) (i % 2)
  else if u = 12 then decide (i < 96) && partFenced s (i / 24)
  else if u = 13 then partFenced s (i / 17)
  else if u = 14 then partFenced s (queOwner s i)
  else false

/-- The low half of a value. -/
def loHalf (v : Nat) : Nat := v % 2 ^ 32
/-- The high half of a value. -/
def hiHalf (v : Nat) : Nat := v / 2 ^ 32 % 2 ^ 32

/-! ### Skotrum windows: HST, SKT, BRU, RST -/

/-- HST_ID (Table 16.7). -/
def hstId (s : State) : Nat := 0x10_0000 + s.fuses.variant.toNat

/-- HST_SYN_FIRED (Table 16.11). -/
def synFiredReg (s : State) : Nat :=
  let f := s.hst.synFired
  2 ^ 31 * b2n (!f.isEmpty) + 2 ^ 30 * b2n s.hst.synOver + 2 ^ 21 * f.length + ((f.head?).map (·.toNat)).getD 0

/-- HST registers (Table 16.6). -/
def hstReg (s : State) (off : Nat) : Nat :=
  let h := s.hst
  match off with
  | 0x010 => hstId s
  | 0x014 => loHalf s.fuses.serial.toNat
  | 0x018 => hiHalf s.fuses.serial.toNat
  | 0x020 => loHalf h.bar2Base.toNat
  | 0x024 => hiHalf h.bar2Base.toNat
  | 0x030 => h.event.toNat
  | 0x034 => h.eventEn.toNat
  | 0x038 => synFiredReg s
  | 0x040 => h.refSeq.toNat + 2 ^ 16 * h.refQueue.toNat + 2 ^ 28 * h.refReason.toNat
  | 0x044 => h.busErr.toNat
  | 0x048 => loHalf h.busErrAt.toNat
  | 0x04C => hiHalf h.busErrAt.toNat
  | 0x064 => h.lastOff.toNat + 2 ^ 16 * h.lastWin.toNat + 2 ^ 29 * h.lastReq.toNat
  | 0x070 => h.flashAddr.toNat
  | 0x074 => h.flashOp.toNat + 2 ^ 8 * h.flashLen.toNat + 2 ^ 28 * h.flashStat.toNat + 2 ^ 31 * b2n h.flashBusy
  | _ =>
    if 0x050 ≤ off ∧ off ≤ 0x060 then (Tbl.get 0 h.regErr ((off - 0x050) / 4)).toNat
    else if 0x080 ≤ off ∧ off ≤ 0x0FC then (Tbl.get 0 h.flashData ((off - 0x080) / 4)).toNat
    else 0

/-- SKT registers (Tables 2.4 to 2.7) of requester `r`. -/
def sktReg (s : State) (r off : Nat) : Nat :=
  let k := s.skt
  match off with
  | 0x010 => loHalf k.time.toNat
  | 0x014 => (Tbl.get 0 k.latch r).toNat
  | 0x018 => b2n k.synced + 2 * b2n k.holdover + 4 * b2n k.refLoss + 8 * b2n k.stepped + 2 ^ 8 * k.upstream.toNat
  | 0x01C => k.offset.toNat
  | _ => 0

/-- Bits of the numbers below `n` that satisfy `f`. -/
def mapBits (n : Nat) (f : Nat → Bool) : Nat := ((List.range n).map fun k => 2 ^ k * b2n (f k)).sum

/-- BRU_OPTION (Table 13.16). -/
def optionReg (o : Option_) : Nat :=
  b2n o.slot + 2 * b2n o.fallback + 4 * b2n o.source + 8 * b2n o.persist + 2 ^ 4 * o.keyIndex.toNat + 2 ^ 6 * o.warmMode.toNat
    + 2 ^ 8 * b2n o.recalAll + 2 ^ 9 * b2n o.mirror + 2 ^ 10 * b2n o.defaults + 2 ^ 16 * o.ignored.toNat

/-- BRU registers (Table 13.14); the fuse maps and FUSED_SVN show once the fuses have been read (R412). -/
def bruReg (s : State) (t off : Nat) : Nat :=
  let b := s.bru
  let shown := b2n (decide (1 ≤ b.stage.toNat))
  match off with
  | 0x010 => bruStatus s
  | 0x014 => optionReg b.opt
  | 0x018 => b2n b.slotUsed + 2 ^ 2 * b.svn.toNat + 2 ^ 8 * (shown * s.fuses.svnMin.toNat) + 2 ^ 14 * b2n b.svnPend
      + 2 ^ 15 * b2n b.persPend + 2 ^ 16 * b.upstream.toNat + 2 ^ 20 * b.fwDist.toNat
  | 0x01C => b.duration.toNat
  | 0x080 => shown * mapBits 6 (portPresent s)
  | 0x100 => shown * mapBits 24 fun k => !s.fuses.sitesOff.contains (24 * t + k) && !s.fuses.spares.contains (24 * t + k)
  | 0x104 => shown * mapBits 24 fun k => s.fuses.spares.contains (24 * t + k)
  | 0x108 => shown * mapBits 24 fun k => sliceVisible s (24 * t + k)
  | 0x10C => (Tbl.get 0 b.kaolin t).toNat
  | _ =>
    if 0x020 ≤ off ∧ off ≤ 0x03C then b.digest.toNat >>> (8 * (off - 0x020)) % 2 ^ 32
    else if 0x040 ≤ off ∧ off ≤ 0x07C then b.idkey.toNat >>> (8 * (off - 0x040)) % 2 ^ 32
    else 0

/-- RST registers (Table 14.10). -/
def rstReg (s : State) (i off : Nat) : Nat :=
  let r := s.rst
  let site := decide (i < 96)
  let x := s.getSite i
  match off with
  | 0x014 => r.lastLevel.toNat + 2 ^ 16 * r.lastTarget.toNat + 2 ^ 24 * r.lastSource.toNat
  | 0x018 => ofLe (s.fuses.rstEntry.take 4)
  | 0x01C => ofLe ((s.fuses.rstEntry.drop 4).take 4)
  | 0x020 => r.timeout.toNat
  | 0x028 => r.inReset.toNat + 2 ^ 4 * r.wdog.toNat + 2 ^ 8 * (r.repairs.filter fun e => !e.logged).length
      + 2 ^ 18 * (r.repairs.filter fun e => kindFused e.kind.toNat && !e.fused).length + 2 ^ 30 * b2n r.mapOk + 2 ^ 31 * b2n r.refused
  | 0x104 => if !site then 0 else
      siteStatus s i + 2 ^ 8 * min 15 (x.outBundles + x.lostGroups) + 2 ^ 15 * b2n (s.getSlc i).exhausted + 2 ^ 24 * x.replacedBy.toNat
  | 0x108 =>
    if site then x.blkBusy.toNat + 2 ^ 31 * b2n x.blkRefused
    else b2n (s.getPort (i - 128)).blkBusy + 2 ^ 31 * b2n (s.getPort (i - 128)).blkRefused
  | _ =>
    if 0x040 ≤ off ∧ off ≤ 0x0BC then
      let v := (Tbl.get 0 r.backup ((off - 0x040) / 8)).toNat
      if off % 8 = 0 then loHalf v else hiHalf v
    else 0

/-! ### THM and PWR -/

/-- THM_STATE (Table 15.5). -/
def thmState (s : State) : Nat :=
  let count (f : Sens → Bool) : Nat := min 255 ((List.range 256).filter fun i => f (s.getSen i)).length
  count (·.latched) + 2 ^ 8 * count (·.suspect) + 2 ^ 16 * mapBits 4 (fun p => (s.getGov p).ageing) + 2 ^ 20 * s.thm.throttle.toNat
    + 2 ^ 29 * b2n s.thm.trip + 2 ^ 30 * b2n s.thm.stopping + 2 ^ 31 * b2n s.thm.halted

/-- THM_HOTTEST (Table 15.7): the junction sensor with the highest effective value, the lowest among equals. -/
def thmHottest (s : State) : Nat :=
  let i := ((List.range 256).filter junction).foldl (fun b i => if effOf s b < effOf s i then i else b) 0
  (s.getSen i).eff.toNat + 2 ^ 16 * i

/-- THM registers (Table 15.4). -/
def thmReg (s : State) (i off : Nat) : Nat :=
  let x := s.getSen i
  match off with
  | 0x010 => thmState s
  | 0x014 => s.thm.cause.toNat + 2 ^ 2 * b2n s.thm.noFlush + 2 ^ 4 * s.thm.event.toNat + 2 ^ 8 * s.thm.sensor.toNat + 2 ^ 16 * s.thm.voided.toNat
  | 0x018 => thmHottest s
  | 0x01C => b2n (fuseOpen s) + 2 * b2n (flashOpen s) + 4 * b2n s.thm.diode
  | 0x100 => x.raw.toNat + 2 ^ 16 * x.eff.toNat
  | 0x104 => (if i = 254 then 0x8000 else x.est.toNat) + 2 ^ 16 * x.bad.toNat + 2 ^ 24 * x.events.toNat
  | 0x108 => b2n x.suspect + 2 * b2n x.latched + 4 * b2n x.invalid + 8 * b2n (i == 254) + 2 ^ 4 * senRate x i
      + 2 ^ 8 * (senPart i).getD 0xFF + 2 ^ 16 * senKind i
  | 0x10C => ((List.range 4).map fun k => 2 ^ (8 * k) * ((Config.thermNbr i k).map (·.val)).getD 0xFF).sum
  | _ => 0

/-- PWR registers (Table 15.4). -/
def pwrReg (s : State) (i off : Nat) : Nat :=
  let g := s.getGov i
  let probe (k : Nat) (used : Bool) : Nat := (s.getPrb k).last.toNat + 2 ^ 16 * (s.getPrb k).low.toNat + 2 ^ 31 * b2n (!used)
  match off with
  | 0x010 => s.pwr.pkg.toNat + 2 ^ 16 * s.pwr.pkgMax.toNat
  | 0x014 => (s.pwr.noResp ||| s.pwr.regFault).toNat + 2 ^ 8 * s.pwr.vrFault.toNat
  | 0x100 =>
    if i < 4 then
      g.vcore.toNat + 2 ^ 10 * g.vmaxDiv.toNat + 2 ^ 16 * g.vloess.toNat + 2 ^ 28 * b2n g.pacer + 2 ^ 29 * g.floorBad.toNat
        + 2 ^ 31 * b2n (avsFault s i)
    else if i < 384 then probe (i - 256) (siteInService s (i - 256))
    else if i < 512 then probe (96 + (i - 384)) true
    else
      let v := s.getVmn (i - 512)
      v.last.toNat + 2 ^ 16 * v.low.toNat + 2 ^ 29 * b2n v.out + 2 ^ 30 * b2n v.mismatch
  | 0x104 => if i < 4 then g.rMin.toNat + 2 ^ 16 * g.sMin.toNat else 0
  | 0x108 => if i < 4 then g.power.toNat + 2 ^ 16 * g.allot.toNat else 0
  | 0x10C => if i < 4 then g.cap.toNat else 0
  | _ => 0

/-! ### SVC -/

/-- Sites reserved now for real-time windows of partition `p`. -/
def rtReserved (s : State) (p : Nat) : Nat :=
  let ws := ((windows s p).filter fun e => decide (e.2.winS ≤ now s + setupNs ∧ now s < e.2.winE)).map (·.2)
  ((ws.flatMap (·.chosen)).eraseDups).length + ((ws.filter fun t => t.chosen.isEmpty).map (·.sites)).sum

/-- SVC_LADDER (Table 9.9). -/
def svcLadder (s : State) : Nat :=
  ((List.range 4).map fun p => 4 ^ p * (s.getPart p).stage.toNat).sum + 2 ^ 8 * mapBits 4 fun p => (s.getPart p).stage == 3

/-- SVC registers (Table 9.7). -/
def svcReg (s : State) (i off : Nat) : Nat :=
  let p := i / 16
  let c := i % 16
  let x := s.getPart p
  let e := classEnt s p c
  let part (q : Nat) : Nat := min 31 (rtReserved s q) + 2 ^ 5 * maxRt s q + 2 ^ 14 * (partTasks s q).length
  match off with
  | 0x010 => s.svc.reason.toNat + 2 ^ 8 * s.svc.where_.toNat + 2 ^ 16 * s.svc.cls.toNat + 2 ^ 31 * b2n s.svc.cfgFault
  | 0x014 => svcLadder s
  | 0x018 => mapBits 4 (fun p => (s.getPart p).floorFault) + 2 ^ 4 * mapBits 4 fun p => (s.getPart p).floorSeen
  | 0x020 => part 0
  | 0x024 => part 1
  | 0x028 => part 2
  | 0x02C => part 3
  | 0x100 => b2n e.enabled + 2 * b2n e.realtime + 2 ^ 8 * (e.loessMin % 32) + 2 ^ 16 * e.loessW + 2 ^ 24 * e.marlW
  | 0x104 => (Tbl.get 0 x.admitted c).toNat
  | 0x108 => (Tbl.get 0 x.refused c).toNat
  | 0x10C => (Tbl.get 0 x.voided c).toNat
  | 0x110 => (Tbl.get 0 x.surplus c).toNat
  | 0x114 => slotsHeld s p c + 2 ^ 16 * (e.slotsMin % 512)
  | _ => 0

/-! ### ABF -/

/-- Role of a lane's direction (Table 11.16): 0 active, 1 standby, 2 failed, 3 off. -/
def laneRole (s : State) (k l : Nat) (rx : Bool) : Nat :=
  let x := s.getPort k
  if getBit (if rx then x.failRx else x.failTx) l then 2
  else if (if rx then x.mapRx else x.mapTx).contains l then 0
  else if (standby s k rx).contains l then 1
  else 3

/-- Logical lane that physical lane `l` carries; 0xF none. -/
def laneLogical (s : State) (k l : Nat) (rx : Bool) : Nat :=
  ((if rx then (s.getPort k).mapRx else (s.getPort k).mapTx).findIdx? (· == l)).getD 0xF

/-- ABF_LANE_MAP_TX and ABF_LANE_MAP_RX (Table 11.12): at width 4 active lane a carries logical lanes a and a + 4 (R334). -/
def mapReg (width : BitVec 4) (m : List Nat) : Nat :=
  ((List.range 8).map fun l => 16 ^ l * (m.getD (if width = 4 then l % 4 else l) 0xF % 16)).sum

/-- ABF_RING_X, Y and Z (Table 12.14). -/
def ringReg (r : Ring) : Nat := r.b0.toNat + 2 ^ 6 * b2n r.v0 + 2 ^ 8 * r.b1.toNat + 2 ^ 14 * b2n r.v1

/-- STATE of a collective engine (Table 12.21). -/
def collCode (m : CollMode) : Nat := match m with | .idle => 0 | .waitReady => 1 | .running => 2 | .ending => 3

/-- Registers of a port (Tables 11.9 and 12.11). -/
def portReg (s : State) (k off : Nat) : Nat :=
  let x := s.getPort k
  match off with
  | 0x100 => linkCode x.st + 2 ^ 4 * linkWidth x + 2 ^ 8 * b2n x.spareRx + 2 ^ 9 * b2n x.spareTx + 2 ^ 10 * b2n x.localReady
      + 2 ^ 11 * b2n x.peerReady + 2 ^ 12 * x.peerId.toNat + 2 ^ 28 * x.peerPort.toNat
  | 0x108 => mapReg x.width x.mapTx
  | 0x10C => mapReg x.width x.mapRx
  | 0x110 => x.failTx.toNat + 2 ^ 16 * x.failRx.toNat
  | 0x12C => x.fecCorr.toNat
  | 0x130 => x.fecUncorr.toNat
  | 0x134 => x.crcErr.toNat
  | 0x138 => x.replays.toNat
  | 0x13C => x.repairs.toNat
  | 0x140 => x.retrains.toNat
  | 0x144 => x.trainTime.toNat
  | 0x148 => x.asym.toNat
  | 0x180 => b2n x.miswired + 2 * b2n (portBroken s k) + 4 * b2n x.hdrErr
  | 0x184 => x.txPkts.toNat
  | 0x188 => x.rxPkts.toNat
  | 0x18C => x.transit.toNat
  | 0x190 => x.nackSent.toNat
  | 0x194 => x.nackRcvd.toNat
  | 0x198 => x.giveUp.toNat
  | 0x1A8 => collCode x.coll + 2 ^ 4 * x.collFifo.length + 2 ^ 8 * x.collCode.toNat + 2 ^ 16 * x.collId.toNat
  | 0x1AC => x.collDone.toNat
  | _ =>
    if 0x114 ≤ off ∧ off ≤ 0x128 then
      let v := (off - 0x114) / 4
      Tbl.get 0 x.avail v % 1024 + 2 ^ 16 * (Tbl.get 0 x.limit v % 1024)
    else 0

/-- ABF registers. -/
def abfReg (s : State) (i off : Nat) : Nat :=
  let n := s.net
  match off with
  | 0x004 => n.id.toNat + 2 ^ 31 * b2n n.idValid
  | 0x008 => n.dx.toNat + 2 ^ 8 * n.dy.toNat + 2 ^ 16 * n.dz.toNat
  | 0x00C => ringReg (Tbl.get {} n.rings 0)
  | 0x010 => ringReg (Tbl.get {} n.rings 1)
  | 0x014 => ringReg (Tbl.get {} n.rings 2)
  | 0x018 => n.limit.toNat
  | 0x01C => n.root.toNat + 2 ^ 16 * n.dist.toNat
  | 0x020 => n.mgmtq.length + 2 ^ 8 * n.dropped.toNat + 2 ^ 16 * n.busySent.toNat
  | 0x024 => n.authFail.toNat
  | _ =>
    if i < 6 then portReg s i off
    else
      let k := (i - 16) / 9
      let l := (i - 16) % 9
      let x := s.getLane (i - 16)
      match off with
      | 0x100 => laneRole s k l false + 2 ^ 4 * laneRole s k l true + 2 ^ 16 * laneLogical s k l false + 2 ^ 20 * laneLogical s k l true
      | 0x104 => x.eyeHeight.toNat + 2 ^ 16 * x.eyeWidth.toNat
      | 0x108 => x.ser.toNat
      | _ => 0

/-! ### Sites: XLT, DMA, TGE, ARY -/

/-- XLT registers (Table 8.13) of requester `r`. -/
def xltReg (s : State) (r i off : Nat) : Nat :=
  let q := s.getXrq r
  let x := s.getSite i
  let c := s.getCtx (i - 128)
  let site := decide (i < 96)
  match off with
  | 0x010 => loHalf q.addr.toNat
  | 0x014 => hiHalf q.addr.toNat
  | 0x018 => q.ctx.toNat + 2 ^ 7 * b2n q.all + 2 ^ 8 * q.pages.toNat + 2 ^ 31 * b2n q.busy
  | 0x024 => q.abState.toNat + 2 ^ 4 * q.abPhase.toNat + 2 ^ 8 * q.abForced.toNat + 2 ^ 16 * q.abTag.toNat
  | 0x100 => if site then 0 else b2n c.valid + 2 * b2n c.aborting
  | 0x104 =>
    if site then x.mode.toNat + 2 ^ 8 * ((List.range 24).filter fun k => decide ((s.getGrp (gIx i k)).mode = .parked)).length
    else loHalf c.root.toNat
  | 0x108 => if site then loHalf x.saveBase.toNat else hiHalf c.root.toNat
  | 0x10C => if site then hiHalf x.saveBase.toNat else 0
  | 0x110 => if site then x.saveTime.toNat else 0
  | 0x114 => if site then x.tlbMiss.toNat else 0
  | 0x118 => if site then x.faults.toNat else 0
  | 0x11C => if site then x.late.toNat else 0
  | _ => 0

/-- STATE of a DMA channel (Table 8.26). -/
def dmaCode (m : DmaMode) : Nat := match m with | .idle => 0 | .running => 1 | .parked => 2 | .halted => 3

/-- DMA registers (Table 8.24). -/
def dmaReg (s : State) (i off : Nat) : Nat :=
  let x := s.getDma i
  match off with
  | 0x104 => dmaCode x.mode + 2 ^ 4 * x.fifo.length + 2 ^ 8 * x.cause.toNat
  | 0x108 => x.code.toNat + 2 ^ 8 * x.faultCause.toNat
  | 0x10C => loHalf x.index.toNat
  | 0x110 => hiHalf x.index.toNat
  | 0x114 => loHalf x.faultAddr.toNat
  | 0x118 => hiHalf x.faultAddr.toNat
  | 0x11C => x.elements.toNat
  | _ => 0

/-- TGE_CORE_STATE (Table 5.14). -/
def coreState (s : State) (j : Nat) : Nat :=
  let gs := ((List.range 24).map fun k => s.getGrp (gIx j k)).filter fun g => decide (g.mode ≠ .empty)
  let slm := 64 - ((s.getSite j).allocs.map (·.granules)).sum
  let rf := 1536 - (gs.map fun g => 8 * g.regs).sum
  gs.length + 2 ^ 8 * (gs.filter (·.slotted)).length + 2 ^ 14 * rf + 2 ^ 25 * slm

/-- TGE registers (Table 5.13). -/
def tgeReg (s : State) (i off : Nat) : Nat :=
  let x := s.getSite (i / 24)
  let g := s.getGrp i
  match off with
  | 0x100 => coreState s (i / 24)
  | 0x104 => x.rcMiss.toNat
  | 0x108 => x.replay.toNat
  | 0x10C => x.idle.toNat
  | 0x200 => grpStateCode g + 2 ^ 8 * (g.regs % 256) + 2 ^ 22 * g.cls.toNat + 2 ^ 26 * g.ctx.toNat
  | 0x204 => loHalf g.pc.toNat / 8 * 8
  | 0x208 => hiHalf g.pc.toNat
  | 0x20C => g.exc.toNat + 2 ^ 8 * g.excLane.toNat
  | 0x210 => loHalf g.excAddr.toNat
  | 0x214 => hiHalf g.excAddr.toNat
  | _ => 0

/-- STATE of an array (Table 3.11). -/
def aryCode (m : AryMode) : Nat :=
  match m with
  | .idle => 0
  | .running => 1
  | .stopping => 2
  | .parked => 3
  | .restoring => 4
  | .halted => 5

/-- ARY registers (Table 3.9). -/
def aryReg (s : State) (i off : Nat) : Nat :=
  let x := s.getAry i
  match off with
  | 0x104 => aryCode x.mode + 2 ^ 4 * x.fifo.length + 2 ^ 8 * x.cause.toNat
  | 0x108 => x.code.toNat + 2 ^ 16 * x.nDone.toNat
  | 0x10C => loHalf x.saveBase.toNat
  | 0x110 => hiHalf x.saveBase.toNat
  | 0x11C => x.feed.toNat
  | 0x120 => x.drain.toNat
  | 0x124 => x.passes.toNat
  | 0x128 => loHalf x.faultAddr.toNat
  | 0x12C => hiHalf x.faultAddr.toNat
  | _ => 0

/-! ### Memories: LSS, MRL -/

/-- LSS_TOWER_CFG (Table 6.7). -/
def towerCfg (s : State) (t : Nat) : Nat :=
  (scratchSlices s t).length + 2 ^ 8 * (cacheSlices s t).length + 2 ^ 16 * (granuleList s).length

/-- LSS_SLICE_STATE (Table 6.10). -/
def sliceState (s : State) (j : Nat) : Nat :=
  sliceRole s j + 2 ^ 4 * b2n (siteStatus s j == 4) + 2 ^ 5 * b2n (s.fuses.sitesOff.contains j)
    + 2 ^ 8 * ((granuleList s).findIdx? (· == j)).getD 0xFF + 2 ^ 16 * ((cacheSlices s (j / 24)).findIdx? (· == j)).getD 0xFF

/-- LSS registers (Table 6.6). -/
def lssReg (s : State) (i off : Nat) : Nat :=
  let x := s.getSlc i
  let c := s.getCtx (i - 128)
  let slice (v : Nat) : Nat := if i < 96 then v else 0
  match off with
  | 0x010 => towerCfg s 0
  | 0x014 => towerCfg s 1
  | 0x018 => towerCfg s 2
  | 0x01C => towerCfg s 3
  | 0x020 => s.lss.target.toNat
  | 0x024 => 2 ^ 8 * s.lss.busy.toNat
  | 0x100 => if i < 96 then sliceState s i else b2n c.strict
  | 0x104 => if i < 96 then x.ce.toNat else c.reread.toNat
  | 0x108 => slice x.ue.toNat
  | 0x10C => slice x.poisonRd.toNat
  | 0x110 => slice (x.errWord.toNat / 8 * 8 + 2 ^ 30 * x.errKind.toNat)
  | 0x114 => slice x.rmw.toNat
  | 0x118 => slice x.merged.toNat
  | 0x11C => slice x.missWait.toNat
  | 0x120 => slice x.lockWait.toNat
  | 0x124 => slice x.tombDrop.toNat
  | 0x128 => slice ((x.sets.map fun e => (e.2.filter (·.comp)).length).sum)
  | 0x12C => slice (b2n x.behind + 2 ^ 8 * (x.scrubAt * 256 / sliceLap % 256) + 2 ^ 16 * x.laps.toNat)
  | 0x130 => slice x.lapLast.toNat
  | 0x134 => slice x.lapMax.toNat
  | _ => 0

/-- MRL_STACK_STATE (Table 7.6). -/
def stackState (s : State) : Nat :=
  s.mrl.spareUsed.toNat + 2 ^ 4 * mapBits 4 (fun t => (migrOf s t).isSome) + 2 ^ 8 * s.mrl.degraded.toNat + 2 ^ 12 * s.mrl.selfRef.toNat

/-- MRL registers (Table 7.4). -/
def mrlReg (s : State) (i off : Nat) : Nat :=
  let x := s.getMCh i
  match off with
  | 0x010 => s.mrl.target.toNat
  | 0x014 => stackState s
  | 0x020 => (Tbl.get 0 s.mrl.fast 0).toNat
  | 0x024 => (Tbl.get 0 s.mrl.fast 1).toNat
  | 0x028 => (Tbl.get 0 s.mrl.fast 2).toNat
  | 0x02C => (Tbl.get 0 s.mrl.fast 3).toNat
  | 0x100 => chRole s i + 2 ^ 8 * chLogical s i + 2 ^ 16 * x.mark0.toNat + 2 ^ 24 * x.mark1.toNat
  | 0x104 => x.ce.toNat
  | 0x108 => x.ue.toNat
  | 0x10C => x.poison.toNat
  | 0x110 => x.rmw.toNat
  | 0x114 => x.rows.toNat
  | 0x118 => loHalf x.errAddr.toNat / 64 * 64 + x.errKind.toNat
  | 0x11C => hiHalf x.errAddr.toNat + 2 ^ 8 * x.pos0.toNat + 2 ^ 16 * x.pos1.toNat
  | 0x120 => b2n x.behind + 2 ^ 8 * (x.scrubAt * 256 / channelLines % 256) + 2 ^ 16 * x.laps.toNat
  | 0x124 => x.lapLast.toNat
  | 0x128 => x.lapMax.toNat
  | _ => 0

/-! ### QUE and SYN -/

/-- Open packets staged for a queue (Table 10.10). -/
def openCount (s : State) (q : Nat) : Nat :=
  ((List.range 4).map fun p => ((s.getPart p).asm.filter fun o => o.dest.isNone && o.q == q).length).sum

/-- QUE registers (Table 10.7). -/
def queReg (s : State) (i off : Nat) : Nat :=
  let x := s.getQue i
  match off with
  -- from an L2 of the owner on they read their reset values (R324)
  | 0x100 => if !x.shown then 0 else x.owner.toNat + 2 ^ 12 * x.consumer.toNat + 2 ^ 14 * x.notice.toNat + 2 ^ 16 * x.target.toNat
  | 0x104 => if !x.shown then 0 else x.ringBase.toNat + 2 ^ 22 * x.ringUnits.toNat
  | 0x108 => x.words.length % 65536 + 2 ^ 16 * (openCount s i % 128) + 2 ^ 23 * (headLeft x % 128) + 2 ^ 30 * b2n x.words.isEmpty
      + 2 ^ 31 * b2n x.underrun
  | 0x10C => x.committed.toNat
  | 0x110 => x.discard.toNat
  | 0x114 => x.refused.toNat
  | 0x118 => x.poisoned.toNat
  | 0x11C => x.underruns.toNat
  | _ => 0

/-- The storage that a SYN instance addresses: an object wherever it is held, or a spare slot (R324). -/
def synInst (s : State) (i : Nat) : SyncObj := s.getSyn (if i < 4096 then (synStore s i).getD i else i)

/-- SYN registers (Table 10.11) of requester `r`. -/
def synReg (s : State) (r i off : Nat) : Nat :=
  let x := synInst s i
  let serves := if i < 4096 then none else x.replacing
  match off with
  | 0x100 =>
    let hw := (x.waiters.filter (·.hw)).length
    b2n x.failed + 2 * b2n x.armed.isSome + 4 * b2n serves.isSome + 2 ^ 8 * hw + 2 ^ 13 * min 127 (x.waiters.length - hw)
      + 2 ^ 20 * (serves.map (·.toNat)).getD 0
  | 0x104 => loHalf x.counter.toNat
  | 0x108 => (Tbl.get 0 s.synLatch r).toNat
  | 0x10C => x.ticket.toNat
  | _ =>
    if 0x110 ≤ off ∧ off ≤ 0x11C then
      match x.log[(off - 0x110) / 4]? with
      | some e => e.ticket.toNat + 2 ^ 24 * e.source.toNat + 2 ^ 30 * e.op.toNat
      | none => 0
    else 0

/-! ### The window (R9, R12, R18, R426, R477, R496) -/

/-- A word of the MSI-X table or of the PBA (R477). -/
def msixReg (s : State) (off : Nat) : Nat :=
  if off < 0x400 then
    let e := Tbl.get {} s.pcie.msix (off / 16)
    match off % 16 with
    | 0 => loHalf e.addr.toNat
    | 4 => hiHalf e.addr.toNat
    | 8 => e.data.toNat
    | _ => b2n e.mask
  else if off = 0x8000 then loHalf s.pcie.pba.toNat
  else if off = 0x8004 then hiHalf s.pcie.pba.toNat
  else 0

/-- The unit's register at an aligned offset. -/
def unitReg (s : State) (r u i off : Nat) : Nat :=
  match u with
  | 0 => hstReg s off
  | 1 => sktReg s r off
  | 2 => bruReg s i off
  | 3 => rstReg s i off
  | 4 => thmReg s i off
  | 5 => pwrReg s i off
  | 6 => svcReg s i off
  | 7 => abfReg s i off
  | 8 => xltReg s r i off
  | 9 => dmaReg s i off
  | 10 => tgeReg s i off
  | 11 => aryReg s i off
  | 12 => lssReg s i off
  | 13 => mrlReg s i off
  | 14 => queReg s i off
  | 15 => synReg s r i off
  | _ => 0

/-- Skotrum is held, so no register answers (R418, R494, R507). -/
def skotrumHeld (s : State) : Bool := s.rst.l4held || s.board.jhold || !s.rst.powered

/-- Value that requester `r` reads at an aligned offset of a window. -/
def regValue (s : State) (r win off : Nat) : W32 :=
  if skotrumHeld s then 0
  else if win = 1023 then (if r = 0 then BitVec.ofNat 32 (msixReg s off) else 0)
  else if 16 ≤ win then 0
  else if off = 0 then BitVec.ofNat 32 (selReg s r win)
  else
    let i := selOf s r win
    if off < 0x100 then BitVec.ofNat 32 (unitReg s r win i off)
    else if !instHere s win i then 0
    else if instFenced s win i off then (if win = 8 ∧ off = 0x104 then 4 else 0)
    else BitVec.ofNat 32 (unitReg s r win i off)

/-- The FIFO after a host read of HST_SYN_FIRED (R484). -/
def popSynFired (s : State) : State :=
  let rest := s.hst.synFired.drop 1
  { s with hst := { s.hst with synFired := rest, synOver := s.hst.synOver && !rest.isEmpty } }

/-- What a read changes: the latches of R69 and R324, the FIFO of R484, the lowest voltage of a monitor (Table 15.18). -/
def readEffect (r win off : Nat) (s : State) : State :=
  let i := selOf s r win
  if skotrumHeld s then s
  else if win = 1 ∧ off = 0x010 then
    { s with skt := { s.skt with latch := Tbl.put 0 s.skt.latch r ((s.skt.time >>> 32).truncate 32) } }
  else if win = 0 ∧ off = 0x038 ∧ r = 0 then popSynFired s
  else if win = 15 ∧ off = 0x104 ∧ instHere s 15 i then
    { s with synLatch := Tbl.put 0 s.synLatch r (BitVec.ofNat 32 (hiHalf (synInst s i).counter.toNat)) }
  else if win = 5 ∧ off = 0x100 ∧ 512 ≤ i ∧ instHere s 5 i then s.modVmn (i - 512) fun v => { v with seen := false }
  else s

/-- A read of any width at any offset returns the whole register that holds it (R9). -/
def regRead (r win off : Nat) (s : State) : State × W32 :=
  let o := off / 4 * 4
  (readEffect r win o s, regValue s r win o)

/-- SKT_TIME_LO_READ (R69). -/
def execSktTimeLoRead (r : Req) (s : State) : Host.Outcome State Fault Refusal :=
  let (s1, v) := regRead r.val 1 0x010 s
  ok (send (.regData r v) s1)

/-- SYN_VALUE_LO_READ (R324). -/
def execSynValueLoRead (r : Req) (s : State) : Host.Outcome State Fault Refusal :=
  let (s1, v) := regRead r.val 15 0x104 s
  ok (send (.regData r v) s1)

/-- HST_SYN_FIRED_READ (R484). -/
def execHstSynFiredRead (r : Req) (s : State) : Host.Outcome State Fault Refusal :=
  let (s1, v) := regRead r.val 0 0x038 s
  ok (send (.regData r v) s1)

end Sys2Proof.Machine
end

