-- ==== Sys2Proof/Machine/RegWrite.lean ====
section
/-! DEFINITION. What a write of each register does, by its access type, reserved bits and permitted writers
(R9 to R19, R115, R252, R255, R269, R277, R324, R355, R376, R390, R420, R431, R432, R448, R485, R490, R491, R497). -/

namespace Sys2Proof.Machine
open Sys2Proof

/-! ### Parts of a 40-bit or 48-bit value -/

/-- `v` with bits `hi` to `lo` taken from `w`, where `w` holds bits [31:0] of it. -/
def withLo (v hi lo w : Nat) : Nat := v / 2 ^ 32 * 2 ^ 32 + bits w hi lo * 2 ^ lo
/-- `v` with the bits above 31 taken from the low `n` bits of `w`. -/
def withHi (v n w : Nat) : Nat := w % 2 ^ n * 2 ^ 32 + v % 2 ^ 32

/-! ### HST (R485, R497) -/

/-- A write of HST_EVENT: written ones clear, and every bit that remains set and enabled sends its vector again. -/
def hstEventWrite (r : Nat) (val : W32) (s : State) : State :=
  if r ≠ 0 then s
  else
    let s1 := { s with hst := { s.hst with event := s.hst.event &&& ~~~(val.truncate 12) } }
    forN 12 (fun k s => if getBit s1.hst.event k && getBit s1.hst.eventEn k then sendVector k s else s) s1

/-- HST_EVENT_WRITE. -/
def execHstEventWrite (r : Req) (val : W32) (s : State) : Host.Outcome State Fault Refusal :=
  if skotrumHeld s then ok s else ok (hstEventWrite r.val val s)

/-! ### Host flash operations (R490, R491) -/

/-- Bytes from `a` on, `n` of them, meet the range from `b` on of `m` bytes. -/
def rangesMeet (a n b m : Nat) : Bool := decide (a < b + m ∧ b < a + n)

/-- The device refuses the operation (R491). -/
def flashRefuses (s : State) (op addr len : Nat) : Bool :=
  let n := if op = 2 then len else eraseSize op
  decide (s.bru.stage.toNat ≤ 1)
    || (op != 1 && (rangesMeet addr n 0x10_0000 0x10_0000
        || (s.bru.persPend && rangesMeet addr n (slotBase s.bru.opt.slot) copyBytes)
        || (op == 2 && decide (256 < addr % 256 + len)) || (op != 2 && decide (addr % n ≠ 0))))

/-- The bytes of the flash buffer. -/
def flashBytes (s : State) (n : Nat) : List Byte := ((List.range 32).flatMap fun i => leBytes 4 (Tbl.get 0 s.hst.flashData i).toNat).take n

/-- A write of HST_FLASH_CTRL by the host. -/
def flashCtrl (val : Nat) (s : State) : State :=
  let op := bits val 2 0
  let len := bits val 14 8 + 1
  let a := s.hst.flashAddr.toNat
  let s1 := { s with hst := { s.hst with flashOp := BitVec.ofNat 3 op, flashLen := BitVec.ofNat 7 (len - 1) } }
  if !bit val 3 || s.hst.flashBusy || decide (op = 0 ∨ 4 < op) then s1
  else if flashRefuses s op a len then { s1 with hst := { s1.hst with flashStat := 2 } }
  else
    let run : FlashRun := { op := op, addr := a, len := len, data := if op = 2 then flashBytes s len else [] }
    let wait := op != 1 && !flashOpen s
    { s1 with hst := { s1.hst with
      flashBusy := true, flashRun := some run, flashHeld := wait, flashStat := if wait then 1 else 0 } }

/-- A START of operation `op`. -/
def flashStart (r : Req) (op : Nat) (ctrl : W32) (s : State) : State :=
  if r ≠ 0 ∨ skotrumHeld s ∨ bits ctrl.toNat 2 0 ≠ op ∨ !getBit ctrl 3 then s else flashCtrl ctrl.toNat s

/-- FLASH_READ. -/
def execFlashRead (r : Req) (ctrl : W32) (s : State) : Host.Outcome State Fault Refusal := ok (flashStart r 1 ctrl s)
/-- FLASH_PROGRAM. -/
def execFlashProgram (r : Req) (ctrl : W32) (s : State) : Host.Outcome State Fault Refusal := ok (flashStart r 2 ctrl s)
/-- FLASH_ERASE_4K. -/
def execFlashErase4k (r : Req) (ctrl : W32) (s : State) : Host.Outcome State Fault Refusal := ok (flashStart r 3 ctrl s)
/-- FLASH_ERASE_64K. -/
def execFlashErase64k (r : Req) (ctrl : W32) (s : State) : Host.Outcome State Fault Refusal := ok (flashStart r 4 ctrl s)

/-- Fill the buffer with the bytes a read returned; bytes beyond them stay. -/
def fillBuffer (bs : List Byte) (s : State) : State :=
  let all := bs ++ (flashBytes s 128).drop bs.length
  { s with hst := { s.hst with
    flashData := forN 32 (fun i t => Tbl.put 0 t i (BitVec.ofNat 32 (ofLe ((all.drop (4 * i)).take 4)))) s.hst.flashData } }

/-- Bytes that the spec does not state: free values (log 6). -/
def freeBytes (s : State) (n : Nat) : List Byte := (List.range n).map fun i => (Config.freeValue (s.tick + i)).truncate 8

/-- What the operation does to the buffer or the flash: a program clears bits, an erase sets them; after a flash error the
bytes are open. -/
def flashEffect (x : FlashRun) (error : Bool) (s : State) : State :=
  let n := if x.op ≤ 2 then x.len else eraseSize x.op
  if error then
    let s1 := { s with tick := s.tick + n }
    if x.op = 1 then fillBuffer (freeBytes s n) s1
    else { s1 with board := { s1.board with flash := putBytes 0xFF s1.board.flash x.addr (freeBytes s n) } }
  else if x.op = 1 then fillBuffer (getBytes 0xFF s.board.flash x.addr n) s
  else { s with board := { s.board with flash := flashLand x s.board.flash } }

/-- A PERSIST write that waits starts where the flash takes it (R490). -/
def persistNext (s : State) : State := if s.bru.persPend && flashReady s then { s with bru := { s.bru with persRun := true } } else s

/-- FLASH_OP_DONE: the operation of the host ends, with STATUS 3 after a flash error, which undriven pins are too (R507). It waits
behind a PERSIST write that runs, and one that waits for it goes next (R490). -/
def execFlashOpDone (error : Bool) (s : State) : Host.Outcome State Fault Refusal :=
  match s.hst.flashRun with
  | none => ok s
  | some x =>
    if s.hst.flashHeld || s.bru.persRun then ok s
    else
      let bad := error || s.pwr.vioDown
      let s1 := flashEffect x bad s
      ok (persistNext { s1 with hst := { s1.hst with flashBusy := false, flashRun := none, flashStat := if bad then 3 else 0 } })

/-- A write of an HST register; only the host's take effect (R497). -/
def hstWrite (r off : Nat) (val : W32) (s : State) : State :=
  let v := val.toNat
  let h := s.hst
  if r ≠ 0 then s
  else
    match off with
    | 0x020 => { s with hst := { h with bar2Base := BitVec.ofNat 40 (withLo h.bar2Base.toNat 31 16 v) } }
    | 0x024 => { s with hst := { h with bar2Base := BitVec.ofNat 40 (withHi h.bar2Base.toNat 8 v) } }
    | 0x030 => hstEventWrite r val s
    | 0x034 => { s with hst := { h with eventEn := val.truncate 12 } }
    | 0x070 => { s with hst := { h with flashAddr := val.truncate 27 } }
    | 0x074 => flashCtrl v s
    | _ =>
      if 0x080 ≤ off ∧ off ≤ 0x0FC then { s with hst := { h with flashData := Tbl.put 0 h.flashData ((off - 0x080) / 4) val } }
      else s

/-! ### The other windows -/

/-- A write of an RST register (R448). -/
def rstWrite (r i off : Nat) (val : W32) (s : State) : State :=
  let v := val.toNat
  match off with
  | 0x010 => requestReset r (bits v 31 24) (bits v 2 0) (bits v 15 8) s
  | 0x020 =>
    if r = 1 ∧ 10 ≤ v % 65536 ∧ v % 65536 ≤ 10000 then { s with rst := { s.rst with timeout := val.truncate 16 } } else s
  | 0x024 => if 2 ≤ r ∧ r ≤ 5 ∧ val = kickValue then s.modPart (r - 2) fun x => { x with kick := s.skt.time } else s
  | 0x028 => if r = 1 ∧ getBit val 31 then { s with rst := { s.rst with refused := false } } else s
  | 0x100 =>
    if i < 96 then
      let bs := (List.range 6).filter fun b => bit v b
      if bit v 8 then (if bs.isEmpty then retireWrite r i s else s)
      else if bs.isEmpty then s
      else blockReset r i bs s
    else if bit v 0 then collBlockReset r (i - 128) s
    else s
  | _ =>
    if 0x040 ≤ off ∧ off ≤ 0x0BC ∧ r ≤ 1 then
      let n := (off - 0x040) / 8
      let old := (Tbl.get 0 s.rst.backup n).toNat
      let new := if off % 8 = 0 then withLo old 31 0 v else withHi old 32 v
      { s with rst := { s.rst with backup := Tbl.put 0 s.rst.backup n (BitVec.ofNat 64 new) } }
    else s

/-- A write of SVC_FLOOR: SEEN, by the management core and the host (R303). -/
def svcWrite (r off : Nat) (val : W32) (s : State) : State :=
  if off = 0x018 ∧ r ≤ 1 then
    forN 4 (fun p s => if getBit val (4 + p) then s.modPart p fun x => { x with floorSeen := false } else s) s
  else s

/-- A write of an ABF register (R355, R390). -/
def abfWrite (r i off : Nat) (val : W32) (s : State) : State :=
  let v := val.toNat
  let ring : Ring := { b0 := BitVec.ofNat 6 v, v0 := bit v 6, b1 := BitVec.ofNat 6 (bits v 13 8), v1 := bit v 14 }
  if 0x00C ≤ off ∧ off ≤ 0x014 then
    if r = 1 then { s with net := { s.net with rings := Tbl.put {} s.net.rings ((off - 0x00C) / 4) ring } } else s
  else if off = 0x018 then
    if r = 1 ∧ 1 ≤ v % 64 ∧ v % 64 ≤ 50 then { s with net := { s.net with limit := val.truncate 6 } } else s
  else if 6 ≤ i then s
  else if off = 0x104 then linkCtrl r ⟨i % 6, Nat.mod_lt _ (by omega)⟩ v s
  else if off = 0x1A0 then (if mgmtOrPc r then s.modPort i fun x => { x with collLo := val } else s)
  else if off = 0x1A4 then collPost r i (v % 256 * 2 ^ 32 + (s.getPort i).collLo.toNat / 64 * 64) s
  else s

/-- A write of XLT_SITE_CTRL (Table 8.18). -/
def siteCtrl (r j v : Nat) (s : State) : State :=
  let slot := bits v 8 4
  if v % 16 = 0 then s
  else if v % 16 = 1 then sitePreempt r j s
  else if v % 16 = 2 then siteRestore r j s
  else if v % 16 = 4 then (if slot < 24 then groupResume r j slot s else if siteWritable s r j 5 then siteRegErr r j s else s)
  else if v % 16 = 8 then (if slot < 24 then groupKill r j slot s else if siteWritable s r j 5 then siteRegErr r j s else s)
  else if siteWritable s r j 5 then siteRegErr r j s
  else s

/-- A write of XLT_CTX_CFG (R243). -/
def ctxCfgWrite (r c : Nat) (val : W32) (s : State) : State :=
  match execXltCtxCfgWrite (Fin.ofNat 7 r) (Fin.ofNat 64 c) val s with
  | .next s1 => s1
  | _ => s

/-- A write of XLT_INVAL_CTRL (R252). -/
def invalCtrl (r : Nat) (val : W32) (s : State) : State :=
  match execInvalidationStart (Fin.ofNat 7 r) val s with
  | .next s1 => s1
  | _ => s

/-- A write of an XLT register (R277). -/
def xltWrite (r i off : Nat) (val : W32) (s : State) : State :=
  let v := val.toNat
  match off with
  | 0x010 => s.modXrq r fun q => { q with addr := BitVec.ofNat 48 (withLo q.addr.toNat 31 12 v) }
  | 0x014 => s.modXrq r fun q => { q with addr := BitVec.ofNat 48 (withHi q.addr.toNat 16 v) }
  | 0x018 => invalCtrl r val s
  | 0x020 => abortCmd (Fin.ofNat 7 r) v none s
  | 0x100 => if i < 96 then siteCtrl r i v s else ctxCfgWrite r (i - 128) val s
  | 0x104 =>
    if i < 96 ∨ !mgmtOrPc r then s else s.modCtx (i - 128) fun c => { c with root := BitVec.ofNat 40 (withLo c.root.toNat 31 12 v) }
  | 0x108 =>
    if i < 96 then
      if siteWritable s r i 5 then s.modSite i fun x => { x with saveBase := BitVec.ofNat 40 (withLo x.saveBase.toNat 31 20 v) } else s
    else if mgmtOrPc r then s.modCtx (i - 128) fun c => { c with root := BitVec.ofNat 40 (withHi c.root.toNat 8 v) }
    else s
  | 0x10C =>
    if i < 96 ∧ siteWritable s r i 5 then s.modSite i fun x => { x with saveBase := BitVec.ofNat 40 (withHi x.saveBase.toNat 8 v) } else s
  | _ => s

/-- A write of ARY_SAVE_BASE_LO or HI (R114). -/
def arySaveBase (r a : Nat) (hi : Bool) (val : W32) (s : State) : State :=
  match execArySaveBaseWrite (Fin.ofNat 7 r) (Fin.ofNat 192 a) hi val s with
  | .next s1 => s1
  | _ => s

/-- A write of ARY_SR_SEED_HI (R136). -/
def arySeedHi (r a : Nat) (val : W32) (s : State) : State :=
  match execArySrSeedHiWrite (Fin.ofNat 7 r) (Fin.ofNat 192 a) val s with
  | .next s1 => s1
  | _ => s

/-- A write of an ARY register (R114, R115, R136). -/
def aryWrite (r i off : Nat) (val : W32) (s : State) : State :=
  match off with
  | 0x100 => aryCtrl r i val.toNat s
  | 0x10C => arySaveBase r i false val s
  | 0x110 => arySaveBase r i true val s
  | 0x114 => if siteWritable s r (i / 2) (i % 2) then s.modAry i fun x => { x with seedLo := val } else s
  | 0x118 => arySeedHi r i val s
  | _ => s

/-- A lap target in range. -/
def lapTarget (v : Nat) : Bool := decide (1 ≤ v % 2 ^ 17 ∧ v % 2 ^ 17 ≤ 86400)

/-- A write of an LSS register (chapter 06, Registers). -/
def lssWrite (r i off : Nat) (val : W32) (s : State) : State :=
  match off with
  | 0x020 => if r = 1 ∧ lapTarget val.toNat then { s with lss := { s.lss with target := val.truncate 17 } } else s
  | 0x024 => lssFlushWrite (Fin.ofNat 7 r) val s
  | 0x100 => if 128 ≤ i ∧ mgmtOrPc r then s.modCtx (i - 128) fun c => { c with strict := getBit val 0 } else s
  | _ => s

/-- A write of MRL_SCRUB_TARGET. -/
def mrlWrite (r off : Nat) (val : W32) (s : State) : State :=
  if off = 0x010 ∧ r = 1 ∧ lapTarget val.toNat then { s with mrl := { s.mrl with target := val.truncate 17 } } else s

/-- A register requester as an agent. -/
def reqAgent (r : Nat) : Option Agent :=
  if r = 0 then some .host else if r = 1 then some .mgmt else if r ≤ 5 then some (pcAgent (r - 2)) else none

/-- A clear of QUE_STATE.UNDERRUN (R324). -/
def queWrite (r i off : Nat) (val : W32) (s : State) : State :=
  match reqAgent r with
  | some who => if off = 0x108 ∧ getBit val 31 ∧ mayClear s who i then s.modQue i fun x => { x with underrun := false } else s
  | none => s

/-- A write of the MSI-X table by the host (R477). -/
def msixWrite (off : Nat) (val : W32) (s : State) : State :=
  if 0x400 ≤ off then s
  else
    let put (f : MsixEntry → MsixEntry) : State := { s with pcie := { s.pcie with msix := Tbl.mod {} s.pcie.msix (off / 16) f } }
    match off % 16 with
    | 0 => put fun e => { e with addr := BitVec.ofNat 64 (withLo e.addr.toNat 31 2 val.toNat) }
    | 4 => put fun e => { e with addr := BitVec.ofNat 64 (withHi e.addr.toNat 32 val.toNat) }
    | 8 => put fun e => { e with data := val }
    | _ => put fun e => { e with mask := getBit val 0 }

/-- A write of the unit's register at an aligned offset. -/
def unitWrite (r u i off : Nat) (val : W32) (s : State) : State :=
  match u with
  | 0 => hstWrite r off val s
  | 1 => if off = 0x018 ∧ getBit val 2 then { s with skt := { s.skt with refLoss := false } } else s
  | 3 => rstWrite r i off val s
  | 6 => svcWrite r off val s
  | 7 => abfWrite r i off val s
  | 8 => xltWrite r i off val s
  | 9 => if off = 0x100 then dmaCtrl r i val.toNat s else s
  | 11 => aryWrite r i off val s
  | 12 => lssWrite r i off val s
  | 13 => mrlWrite r off val s
  | 14 => queWrite r i off val s
  | _ => s

/-- A write of <PREFIX>_SEL: the requester's own copy (R16, R17). -/
def selWrite (r u : Nat) (val : W32) (s : State) : State := { s with sel := Tbl.put 0 s.sel (16 * r + u) (val.truncate 16) }

/-- A register write (R9, R12, R18, R426, R496): narrow ones are ignored. -/
def regWrite (r win off : Nat) (val : W32) (narrow : Bool) (s : State) : State :=
  if narrow ∨ off % 4 ≠ 0 ∨ skotrumHeld s then s
  else if win = 1023 then (if r = 0 then msixWrite off val s else s)
  else if 16 ≤ win then s
  else if off = 0 then selWrite r win val s
  else
    let i := selOf s r win
    if off < 0x100 then unitWrite r win i off val s
    else if !instHere s win i || instFenced s win i off then s
    else unitWrite r win i off val s

/-- REGISTER_WRITE (R11). -/
def execRegisterWrite (r : Req) (win : Fin 4096) (off : BitVec 16) (val : W32) (narrow : Bool) (s : State) :
    Host.Outcome State Fault Refusal := ok (regWrite r.val win.val off.toNat val narrow s)

/-- SELECTOR_WRITE (R16). -/
def execSelectorWrite (r : Req) (unit : Fin 16) (val : W32) (s : State) : Host.Outcome State Fault Refusal :=
  if skotrumHeld s then ok s else ok (selWrite r.val unit.val val s)

end Sys2Proof.Machine
end

