-- ==== Sys2Proof/Machine/Pcie.lean ====
section
/-! DEFINITION. The PCIe function: its resets, its configuration registers, the two BARs and the pending vectors
(R472 to R482, R485, R487). Bit places of the PCI Express registers are the specification's (log 25). -/

namespace Sys2Proof.Machine
open Sys2Proof

/-! ### Link and resets (R472 to R475) -/

/-- The function takes requests: the link is up and no reset of it is in force. -/
def functionUp (s : State) : Bool := s.pcie.linkUp && !s.pcie.perst && !skotrumHeld s

/-- DOE Abort (R489): the mailbox clears, a waiting request goes, a running signature will be discarded. -/
def doeAbort (s : State) : State :=
  let mine := match s.bru.signing with | some (doe, _) => doe | none => false
  { s with
    pcie := { s.pcie with doeBusy := false }
    bru := { s.bru with signQ := s.bru.signQ.filter fun q => !q.1, signDrop := s.bru.signDrop || mine } }

/-- The host's copies of every selector (R16) go to 0. -/
def hostSelectors (s : State) : State := { s with sel := s.sel.filter fun e => decide (16 ≤ e.1) }

/-- Aborts that the host started are no longer shown (R474). -/
def hideHostAborts (s : State) : State :=
  let hide (a : AbortAsk) : AbortAsk := if a.req.val = 0 then { a with shown := false } else a
  let hideIn (a : Abort) : Abort := { a with asks := a.asks.map hide }
  { s with aborts := s.aborts.map hideIn }

/-- What resets with the function, and nothing else (R474); `up` says whether the link stays up. -/
def functionReset (up : Bool) (s : State) : State :=
  let s1 := discardOpen (fun w => decide (w = .host)) (hideHostAborts (hostSelectors (doeAbort s)))
  let s2 := s1.modXrq 0 fun _ => {}
  { s2 with
    pcie := { linkUp := s2.pcie.linkUp && up, perst := s2.pcie.perst }
    hst := { s2.hst with bar2Base := 0, eventEn := 0 }
    skt := { s2.skt with latch := Tbl.put 0 s2.skt.latch 0 0 } }

/-- PERST_N_ASSERT (R421, R474): reset source 0 is raised. -/
def execPerstNAssert (s : State) : Host.Outcome State Fault Refusal :=
  if s.pcie.perst || !s.rst.powered then ok s
  else
    let s1 := functionReset false s
    ok (raiseSource 0 (fun _ => 0) 0 { s1 with pcie := { s1.pcie with perst := true } })

/-- PERST_N_DEASSERT (R473). -/
def execPerstNDeassert (s : State) : Host.Outcome State Fault Refusal :=
  if !s.rst.powered then ok s else ok { s with pcie := { s.pcie with perst := false } }

/-- PCIE_LINK_UP (R472): the link reaches L0 only with a Flit-mode partner. -/
def execPcieLinkUp (flitMode : Bool) (s : State) : Host.Outcome State Fault Refusal :=
  if !flitMode || s.pcie.perst || skotrumHeld s then ok s else ok { s with pcie := { s.pcie with linkUp := true } }

/-- FUNCTION_LEVEL_RESET (R474). -/
def execFunctionLevelReset (s : State) : Host.Outcome State Fault Refusal := if functionUp s then ok (functionReset true s) else ok s

/-- HOT_RESET (R474): the link trains again. -/
def execHotReset (s : State) : Host.Outcome State Fault Refusal := if functionUp s then ok (functionReset false s) else ok s

/-- PCIE_LINK_DOWN (R474). -/
def execPcieLinkDown (s : State) : Host.Outcome State Fault Refusal := if functionUp s then ok (functionReset false s) else ok s

/-- D3HOT_ENTRY (R475). -/
def execD3hotEntry (s : State) : Host.Outcome State Fault Refusal :=
  if functionUp s then ok { s with pcie := { s.pcie with d3hot := true } } else ok s

/-- D0_RETURN (R475). -/
def execD0Return (s : State) : Host.Outcome State Fault Refusal :=
  if functionUp s then ok { s with pcie := { s.pcie with d3hot := false } } else ok s

/-- MSIX_PENDING_SEND (R485). -/
def execMsixPendingSend (v : Fin 64) (s : State) : Host.Outcome State Fault Refusal :=
  if getBit s.pcie.pba v.val && msixAllowed s v.val && functionUp s then
    ok (send (.msix v.val) { s with pcie := { s.pcie with pba := setBit s.pcie.pba v.val false } })
  else ok s

/-! ### Configuration registers (R472, R473) -/

/-- Key of a configuration register in the table of the others. -/
def cfgKey : CfgReg → Nat
  | .other o => o.toNat / 4
  | _ => 0

/-- What a configuration register reads. -/
def cfgRead (s : State) (reg : CfgReg) : Nat :=
  let p := s.pcie
  let ids := 0x1F6E + 2 ^ 16 * s.fuses.variant.toNat
  match reg with
  | .ids => ids
  | .commandStatus => 2 * b2n p.memEnable + 4 * b2n p.busMaster + 2 ^ 20
  | .classRevision => 0x1200_0010
  | .bar0Lo => loHalf p.bar0.toNat + 4
  | .bar0Hi => hiHalf p.bar0.toNat
  | .bar2Lo => 12
  | .bar2Hi => hiHalf p.bar2.toNat
  | .otherBar => 0
  | .subsystem => ids
  | .msixControl => 0x11 + 2 ^ 16 * 63 + 2 ^ 30 * b2n p.msixMaskAll + 2 ^ 31 * b2n p.msixOn
  | .pmControl => 3 * b2n p.d3hot + 8
  | .devControl => p.devCtl.toNat
  | .serialLo => loHalf s.fuses.serial.toNat
  | .serialHi => hiHalf s.fuses.serial.toNat
  | .aerUncorrectable => p.aerUncor.toNat
  | .aerCorrectable => p.aerCor.toNat
  | .vsecHstId => hstId s
  | .vsecBruStatus => bruStatus s
  | .other o => (Config.cfgOther o.toNat (Tbl.get 0 p.other (cfgKey reg))).toNat

/-- A write of a configuration register. -/
def cfgWrite (reg : CfgReg) (val : W32) (s : State) : State :=
  let p := s.pcie
  let v := val.toNat
  match reg with
  | .commandStatus => { s with pcie := { p with memEnable := bit v 1, busMaster := bit v 2 } }
  | .bar0Lo => { s with pcie := { p with bar0 := BitVec.ofNat 64 (withLo p.bar0.toNat 31 26 v) } }
  | .bar0Hi => { s with pcie := { p with bar0 := BitVec.ofNat 64 (withHi p.bar0.toNat 32 v) } }
  | .bar2Hi => { s with pcie := { p with bar2 := BitVec.ofNat 64 (withHi p.bar2.toNat 32 v) } }
  | .msixControl => { s with pcie := { p with msixMaskAll := bit v 30, msixOn := bit v 31 } }
  | .pmControl => if v % 4 = 3 then { s with pcie := { p with d3hot := true } } else if v % 4 = 0 then { s with pcie := { p with d3hot := false } } else s
  | .devControl => if bit v 15 then functionReset true s else { s with pcie := { p with devCtl := val } }
  | .aerUncorrectable => { s with pcie := { p with aerUncor := p.aerUncor &&& ~~~val } }
  | .aerCorrectable => { s with pcie := { p with aerCor := p.aerCor &&& ~~~val } }
  | .other o => { s with pcie := { p with other := Tbl.put 0 p.other (o.toNat / 4) val } }
  | _ => s

/-- PCIE_CONFIG_REQUEST (R473): answered in every bring-up stage. -/
def execPcieConfigRequest (reg : CfgReg) (write : Option W32) (s : State) : Host.Outcome State Fault Refusal :=
  if !functionUp s then ok s
  else
    match write with
    | some v => ok (send (.cfg 0) (cfgWrite reg v s))
    | none => ok (send (.cfg (BitVec.ofNat 32 (cfgRead s reg))) s)

/-! ### Errors (R482, R487) -/

/-- Set a bit of the uncorrectable error status. -/
def aerUncorrectable (k : Nat) (s : State) : State := { s with pcie := { s.pcie with aerUncor := setBit s.pcie.aerUncor k true } }
/-- Set a bit of the correctable error status. -/
def aerCorrectable (k : Nat) (s : State) : State := { s with pcie := { s.pcie with aerCor := setBit s.pcie.aerCor k true } }

/-- Unsupported Request: D3hot, memory space not enabled (R475, R487). -/
def unsupported (s : State) : State := send .unsupported (aerUncorrectable 20 s)

/-- The function takes memory requests. -/
def memoryUp (s : State) : Bool := s.pcie.memEnable && !s.pcie.d3hot

/-! ### BAR0 (R477, R478) -/

/-- Offsets of the DWORDs that `n` bytes from `a` touch. -/
def dwords (a n : Nat) : List Nat := (List.range ((a % 4 + n + 3) / 4)).map fun i => a / 4 * 4 + 4 * i

/-- Read DWORDs one after another. -/
def bar0Read (l : List Nat) (s : State) : State × List Byte :=
  l.foldl (fun (x : State × List Byte) o =>
    let (s1, v) := regRead 0 (o / 65536) (o % 65536) x.1
    (s1, x.2 ++ leBytes 4 v.toNat)) (s, [])

/-- Write one DWORD of a request that starts at `a`: a narrow access where a byte of it is not enabled. -/
def bar0Write (a : Nat) (data : List Byte) (en : List Bool) (o : Nat) (s : State) : State :=
  let byte (k : Nat) : Option Byte := if a ≤ k ∧ en.getD (k - a) false then data[k - a]? else none
  let bs := (List.range 4).map fun k => byte (o + k)
  regWrite 0 (o / 65536) (o % 65536) (BitVec.ofNat 32 (ofLe (bs.map (·.getD 0)))) (bs.any (·.isNone)) s

/-- BAR0_ACCESS. -/
def execBar0Access (off : BitVec 26) (op : BarOp) (s : State) : Host.Outcome State Fault Refusal :=
  if !functionUp s then ok s
  else if !memoryUp s then ok (unsupported s)
  else
    let a := off.toNat
    match op with
    | .read n =>
      let (s1, bs) := bar0Read (dwords a n) s
      ok (send (.data .host ((bs.drop (a % 4)).take n)) s1)
    | .write data en => ok (forL (dwords a data.length) (bar0Write a data en) s)

/-! ### BAR2 (R479 to R482) -/

/-- The pieces of `n` bytes from `a`, cut at 64-byte boundaries: place and length of each. -/
def pieces64 (a n : Nat) : List (Nat × Nat) :=
  (List.range ((a % 64 + n + 63) / 64)).map fun i =>
    let b := max a (a / 64 * 64 + 64 * i)
    (b, min (a + n) (a / 64 * 64 + 64 * (i + 1)) - b)

/-- BAR2 reaches the device: READY or CONFIG_FAULT (R480). -/
def bar2Open (s : State) : Bool := s.bru.ready || s.bru.stage == 14

/-- Read pieces: bytes, whether one met a bus error, whether one was poisoned. -/
def bar2Read (base : Nat) (l : List (Nat × Nat)) (s : State) : State × List Byte × Bool × Bool :=
  l.foldl (fun (x : State × List Byte × Bool × Bool) p =>
    let (s0, bs, bad, ep) := x
    let r := if bar2Open s0 then physRead .host (base + p.1) p.2 backLabel s0 else (s0, some .bus, [], false)
    match r with
    | (s1, none, b, poison) => (s1, bs ++ b, bad, ep || poison)
    | (s1, some _, _, _) => (hostBusError (base + p.1) s1, bs, true, ep)) (s, [], false, false)

/-- Runs of enabled bytes of a piece: offset and bytes. -/
def enabledRuns : Nat → List (Byte × Bool) → List (Nat × List Byte)
  | _, [] => []
  | o, (b, e) :: rest =>
    match enabledRuns (o + 1) rest with
    | (p, bs) :: more => if !e then (p, bs) :: more else if p = o + 1 then (o, b :: bs) :: more else (o, [b]) :: (p, bs) :: more
    | [] => if e then [(o, [b])] else []

/-- Write one run; a bus error is counted and the later ones go on. -/
def bar2Put (a : Nat) (bs : List Byte) (s : State) : State :=
  if !bar2Open s then hostBusError a s
  else
    match physWrite .host a bs backLabel s with
    | (s1, none) => s1
    | (s1, some _) => hostBusError a s1

/-- Write one piece: whole, or by its enabled bytes where it falls in memory (R481). -/
def bar2Piece (base off : Nat) (data : List Byte) (en : List Bool) (p : Nat × Nat) (s : State) : State :=
  let d := (data.drop (p.1 - off)).take p.2
  let e := (List.range p.2).map fun k => en.getD (p.1 - off + k) false
  let a := base + p.1
  if e.all id then bar2Put a d s
  else if !e.any id then s
  else if regionOf a = .memory then forL (enabledRuns 0 (d.zip e)) (fun r s => bar2Put (a + r.1) r.2 s) s
  else hostBusError a s

/-- BAR2_ACCESS: `ep` marks a poisoned write. -/
def execBar2Access (off : BitVec 32) (op : BarOp) (ep : Bool) (s : State) : Host.Outcome State Fault Refusal :=
  if !functionUp s then ok s
  else if !memoryUp s then ok (unsupported s)
  else
    let base := s.hst.bar2Base.toNat
    match op with
    | .read n =>
      let (s1, bs, bad, poison) := bar2Read base (pieces64 off.toNat n) s
      ok (if bad then send .completerAbort (aerUncorrectable 15 s1) else if poison then send (.poisonedRead bs) s1 else send (.data .host bs) s1)
    | .write data en =>
      if ep then ok (aerCorrectable 13 (aerUncorrectable 12 s))
      else ok (forL (pieces64 off.toNat data.length) (bar2Piece base off.toNat data en) s)

end Sys2Proof.Machine
end

