-- ==== Sys2Proof/Machine/Attest.lean ====
section
/-! DEFINITION. Authenticated commands over the fabric, attestation reports and the DOE mailbox (R386, R388, R389,
R413 to R415, R420, R488, R489). -/

namespace Sys2Proof.Machine
open Sys2Proof

/-! ### Attestation (R414, R415, Table 13.13) -/

/-- Measurement M4: the repair map in force. -/
def mapDigest (s : State) : BitVec 256 := shake256 (s.rst.repairs.flatMap repairBytes)

/-- The 0x160 bytes that are signed. -/
def reportHead (s : State) (nonce : BitVec 256) : List Byte :=
  let b := s.bru
  leBytes 4 0x5241_5843 ++ leBytes 2 1 ++ leBytes 2 s.net.id.toNat ++ leBytes 2 s.fuses.variant.toNat ++ leBytes 2 0 ++ leBytes 4 b.count.toNat
    ++ leBytes 8 (now s) ++ bytes256 nonce ++ leBytes 64 b.idkey.toNat
    ++ [Config.bootRom, b.m1, b.digest, b.m3, mapDigest s, b.m5, b.m6].flatMap bytes256 ++ leBytes 8 0

/-- The signed report. -/
def report (s : State) (nonce : BitVec 256) : List Byte :=
  reportHead s nonce ++ Config.slhSign s.fuses.idSeeds (reportHead s nonce)

/-- Bytes as 32-bit words, the last padded with 0. -/
def words32 (bs : List Byte) : List W32 := (List.range ((bs.length + 3) / 4)).map fun i => BitVec.ofNat 32 (ofLe ((bs.drop (4 * i)).take 4))

/-- A request for a report: signed at once, or in order of arrival. -/
def askReport (doe : Bool) (nonce : BitVec 256) (cmd : List Byte) (s : State) : State :=
  if s.bru.signing.isSome then { s with bru := { s.bru with signQ := s.bru.signQ ++ [(doe, nonce, cmd)] } }
  else { s with bru := { s.bru with signing := some (doe, nonce, cmd) } }

/-- Local address of the attestation buffer. -/
def attestAt (s : State) : Nat := 0x40_0000_0000 + s.bru.attest.toNat

/-- The next request that waits is signed. -/
def nextReport (s : State) : State :=
  { s with bru := { s.bru with signing := s.bru.signQ.head?, signQ := s.bru.signQ.drop 1, signDrop := false } }

/-- ATTEST_SIGN_DONE: the report answers its request; one whose mailbox was cleared is discarded. -/
def execAttestSignDone (s : State) : Host.Outcome State Fault Refusal :=
  match s.bru.signing with
  | none => ok s
  | some (true, nonce, _) =>
    let s1 := if s.bru.signDrop then s
      else send (.doe 0 (words32 (report s nonce))) { s with pcie := { s.pcie with doeBusy := false } }
    ok (nextReport s1)
  | some (false, nonce, cmd) =>
    let r := report s nonce
    let s1 := (physWrite .mgmt (attestAt s) r backLabel s).1
    ok (nextReport (cmdReply cmd (leBytes 8 0 ++ leBytes 8 (attestAt s) ++ leBytes 4 r.length) s1))

/-! ### The DOE mailbox (R488, R489) -/

/-- The mailbox takes a request. -/
def doeOpen (s : State) : Bool := functionUp s && !s.pcie.doeBusy

/-- DOE_DISCOVERY: vendor, object type and next index of the protocol at an index (log 25). -/
def execDoeDiscovery (index : Byte) (s : State) : Host.Outcome State Fault Refusal :=
  if !doeOpen s then ok s
  else
    let w : Nat := match index.toNat with
      | 0 => 0x0001 + 2 ^ 24
      | 1 => 0x1F6E + 2 ^ 16 + 2 * 2 ^ 24
      | 2 => 0x1F6E + 2 * 2 ^ 16
      | _ => 0xFFFF
    ok (send (.doe 0 [BitVec.ofNat 32 w]) s)

/-- DOE_ATTEST: NOT_READY before VERIFY, BAD_REQUEST for another length. -/
def execDoeAttest (payload : List Byte) (s : State) : Host.Outcome State Fault Refusal :=
  if !doeOpen s then ok s
  else if s.bru.stage.toNat < 2 then ok (send (.doe 1 []) s)
  else if payload.length ≠ 32 then ok (send (.doe 2 []) s)
  else ok (askReport true (BitVec.ofNat 256 (ofLe payload)) [] { s with pcie := { s.pcie with doeBusy := true } })

/-- DOE_IDKEY: the identity public key and HST_ID. -/
def execDoeIdkey (payload : List Byte) (s : State) : Host.Outcome State Fault Refusal :=
  if !doeOpen s then ok s
  else if !payload.isEmpty then ok (send (.doe 2 []) s)
  else ok (send (.doe 0 (words32 (leBytes 64 s.bru.idkey.toNat ++ leBytes 4 (hstId s)))) s)

/-- DOE_ABORT. -/
def execDoeAbort (s : State) : Host.Outcome State Fault Refusal := if functionUp s then ok (doeAbort s) else ok s

/-! ### Checks of a command (R389) -/

/-- A field of a command (Table 12.9). -/
def cmdField (cmd : List Byte) (o n : Nat) : Nat := numAt cmd o n
/-- CODE. -/
def cmdCode (cmd : List Byte) : Nat := cmdField cmd 6 1
/-- A field of ARGS. -/
def cmdArg (cmd : List Byte) (o n : Nat) : Nat := numAt cmd (0x20 + o) n

/-- The packet that brought the command: the first of the management queue with it, or one of the command's own fields. -/
def cmdPkt (s : State) (cmd : List Byte) : Pkt :=
  match s.net.mgmtq.find? fun e => e.2.arg == 3 && decide (e.2.payload = cmd) with
  | some e => e.2
  | none => { mgmtPkt s 3 s.net.id.toNat false cmd with src := BitVec.ofNat 16 (cmdField cmd 2 2) }

/-- The command leaves the management queue. -/
def takeCmd (cmd : List Byte) (s : State) : State :=
  { s with net := { s.net with mgmtq := dropFirst (fun e => e.2.arg == 3 && decide (e.2.payload = cmd)) s.net.mgmtq } }

/-- The counter is kept: used within the last 2 s. -/
def kept (s : State) (c : CmdCount) : Bool := decide (now s ≤ c.used.toNat + 2000000000)

/-- Entry of a command's sender and key. -/
def ofSender (cmd : List Byte) (c : CmdCount) : Bool := c.sender.toNat == cmdField cmd 2 2 && c.key == cmdField cmd 1 1

/-- The last counter accepted from that sender and key. -/
def lastCounter (s : State) (cmd : List Byte) : Option Nat :=
  ((s.rst.cmds.filter (kept s)).find? (ofSender cmd)).map (·.counter.toNat)

/-- The command passes R389's checks. -/
def cmdGood (s : State) (cmd : List Byte) : Bool :=
  let i := cmdField cmd 1 1
  let k := Tbl.get {} s.net.keys i
  let t := cmdField cmd 0x10 8
  decide (cmd.length = 0x60 ∧ i < 8) && k.valid && decide ((kmac k.key false (cmd.take 0x40)).toNat = numAt cmd 0x40 32)
    && decide (cmdField cmd 4 2 = s.net.id.toNat) && decide (cmdCode cmd < 32) && getBit k.permit (cmdCode cmd)
    && decide (t ≤ now s + 1000000000 ∧ now s ≤ t + 1000000000)
    && (match lastCounter s cmd with | some c => decide (c < cmdField cmd 8 8) | none => true)

/-- No entry is there for the command and none is free. -/
def tableFull (s : State) (cmd : List Byte) : Bool :=
  decide (1024 ≤ (s.rst.cmds.filter (kept s)).length) && !(s.rst.cmds.filter (kept s)).any (ofSender cmd)

/-- Keep the counter of an accepted command. -/
def keepCounter (cmd : List Byte) (s : State) : State :=
  let e : CmdCount := { sender := BitVec.ofNat 16 (cmdField cmd 2 2), key := cmdField cmd 1 1, counter := BitVec.ofNat 64 (cmdField cmd 8 8)
                        used := s.skt.time }
  { s with rst := { s.rst with cmds := (s.rst.cmds.filter fun c => kept s c && !ofSender cmd c) ++ [e] } }

/-- A command of code `code`: NACK BUSY until CONFIG has loaded the keys (R409), NACK AUTH_FAIL and a count for a failed
check, or its action. A CODE that Table 12.10 does not list is permitted for no key. -/
def command12 (code : Nat) (cmd : List Byte) (run : State → State) (s : State) : State :=
  if (cmdCode cmd ≠ code ∧ 1 ≤ cmdCode cmd ∧ cmdCode cmd ≤ 5) ∨ skotrumHeld s then s
  else
    let q := cmdPkt s cmd
    let s1 := takeCmd cmd s
    if !s.net.keysIn then respNack q 3 s1
    else if !cmdGood s cmd || cmdCode cmd ≠ code then respNack q 0x13 { s1 with net := { s1.net with authFail := s1.net.authFail + 1 } }
    else if tableFull s cmd then respNack q 3 s1
    else run (keepCounter cmd s1)

/-! ### Actions (Table 12.10) -/

/-- The window and offset of a register address; none outside the control-register region. -/
def regPlace (a : Nat) : Option (Nat × Nat) :=
  let x := a % 2 ^ 40
  if 0x60_0000_0000 ≤ x ∧ x < 0x60_1000_0000 then some ((x - 0x60_0000_0000) / 65536, x % 65536) else none

/-- The management core points its selector copy of the window at the instance named. -/
def mgmtSelect (win inst : Nat) (s : State) : State := if win < 16 then selWrite 1 win (BitVec.ofNat 32 inst) s else s

/-- CMD_REG_READ. -/
def execCmdRegRead (cmd : List Byte) (s : State) : Host.Outcome State Fault Refusal :=
  ok (command12 1 cmd (fun s =>
    match regPlace (cmdArg cmd 0 8) with
    | none => cmdReply cmd (leBytes 8 1) s
    | some (win, off) =>
      let (s1, v) := regRead 1 win off (mgmtSelect win (cmdArg cmd 8 2) s)
      cmdReply cmd (leBytes 8 0 ++ leBytes 4 v.toNat) s1) s)

/-- CMD_REG_WRITE. -/
def execCmdRegWrite (cmd : List Byte) (s : State) : Host.Outcome State Fault Refusal :=
  ok (command12 2 cmd (fun s =>
    match regPlace (cmdArg cmd 0 8) with
    | none => cmdReply cmd (leBytes 8 1) s
    | some (win, off) =>
      cmdReply cmd (leBytes 8 0) (regWrite 1 win off (BitVec.ofNat 32 (cmdArg cmd 0xC 4)) false (mgmtSelect win (cmdArg cmd 8 2) s))) s)

/-- CMD_ABORT: the reply follows when the abort ends. A KIND of 0 starts none and is answered at once. -/
def execCmdAbort (cmd : List Byte) (s : State) : Host.Outcome State Fault Refusal :=
  ok (command12 3 cmd (fun s =>
    if cmdArg cmd 0 4 % 4 = 0 then cmdReply cmd (leBytes 8 1) s else abortCmd 1 (cmdArg cmd 0 4) (some cmd) s) s)

/-- Reset source 2 accepts the level (R420). -/
def fabricResetOk (s : State) (lvl : Nat) : Bool :=
  let above := match resetOverride s 2 with | some v => decide (v < lvl) | none => false
  permits s 2 lvl && decide (lvl ≤ 4) && !above

/-- CMD_RESET. -/
def execCmdReset (cmd : List Byte) (s : State) : Host.Outcome State Fault Refusal :=
  let lvl := cmdArg cmd 0 1
  ok (command12 4 cmd (fun s =>
    if fabricResetOk s lvl then startReset 2 lvl 0 0 (cmdReply cmd (leBytes 8 0) s)
    else cmdReply cmd (leBytes 8 1) (rstErr 1 none true s)) s)

/-- An ATTEST is being signed or waits to be. -/
def attesting (s : State) : Bool :=
  (match s.bru.signing with | some (doe, _) => !doe | none => false) || s.bru.signQ.any fun q => !q.1

/-- CMD_ATTEST: served from READY on, one at a time (R415). -/
def execCmdAttest (cmd : List Byte) (s : State) : Host.Outcome State Fault Refusal :=
  let q := cmdPkt s cmd
  ok (command12 5 cmd (fun s1 =>
    if !s1.bru.ready || attesting s1 then respNack q 3 s1 else askReport false (BitVec.ofNat 256 (cmdArg cmd 0 32)) cmd s1) s)

end Sys2Proof.Machine
end

