-- ==== Sys2Proof/Machine/Board.lean ====
section
/-! DEFINITION. The board interfaces: the I3C target, the test port, and the always-on and I/O supplies (R492 to R494,
R507). -/

namespace Sys2Proof.Machine
open Sys2Proof

/-! ### I3C (R492, R493) -/

/-- The I3C target answers: through every reset but L4, and while the trip latch is set (R492). -/
def i3cServes (s : State) : Bool := s.rst.powered && !s.board.jhold && (!s.rst.l4held || s.thm.trip)

/-- The static address. -/
def i3cStatic (s : State) : BitVec 7 := 0x30 + s.board.straps.zeroExtend 7

/-- The Provisional ID. -/
def i3cPid (s : State) : BitVec 48 := BitVec.ofNat 48 (0x2D1A * 2 ^ 33 + s.fuses.variant.toNat * 2 ^ 16 + s.board.straps.toNat * 2 ^ 12)

/-- I3C_DYNAMIC_ADDRESS: SETDASA, sent to the static address, or ENTDAA, in which the target gives its identity, gives a device
without a dynamic address one. -/
def execI3cDynamicAddress (setdasa : Bool) (addr : BitVec 7) (s : State) : Host.Outcome State Fault Refusal :=
  if i3cServes s ∧ s.board.i3cAddr.isNone then
    let s1 := if setdasa then s else send (.i3cId (i3cPid s) 0x06 0x00) s
    ok { s1 with board := { s1.board with i3cAddr := some addr } }
  else ok s

/-- I3C_SET_INDEX. -/
def execI3cSetIndex (ix : Byte) (s : State) : Host.Outcome State Fault Refusal :=
  if i3cServes s ∧ s.board.i3cAddr.isSome then ok { s with board := { s.board with i3cIx := ix } } else ok s

/-- The words of a private read from telemetry index `ix` upward; the 8-bit index wraps, and indexes beyond 11 read 0. -/
def i3cWords (tab : List W32) (ix n : Nat) : List W32 := (List.range n).map fun k => tab.getD ((ix + k) % 256) 0

/-- I3C_READ: `words` words of one refresh; the index advances by 1 per word. -/
def execI3cRead (words : Nat) (s : State) : Host.Outcome State Fault Refusal :=
  if i3cServes s ∧ s.board.i3cAddr.isSome then
    ok (send (.i3c (i3cWords s.board.i3cTab s.board.i3cIx.toNat words))
      { s with board := { s.board with i3cIx := s.board.i3cIx + BitVec.ofNat 8 words } })
  else ok s

/-- The words of Table 16.4. -/
def telemetry (s : State) : List W32 :=
  [hstId s, bruStatus s, thmState s, thmHottest s, pwrReg s 0 0x010, svcLadder s, rstReg s 0 0x028, now s / 1000000,
    pwrReg s 0 0x108, pwrReg s 1 0x108, pwrReg s 2 0x108, pwrReg s 3 0x108].map (BitVec.ofNat 32)

/-- I3C_TELEMETRY_REFRESH: the whole table at once, every 1 ms. -/
def execI3cTelemetryRefresh (s : State) : Host.Outcome State Fault Refusal :=
  if i3cServes s ∧ periodPassed s s.board.i3cAt 1000000 = true then
    ok { s with board := { s.board with i3cTab := telemetry s, i3cAt := some s.skt.time } }
  else ok s

/-! ### The test port (R494) -/

/-- IDCODE: version 1, the variant code, manufacturer 0x5BD, bit 0 set. -/
def idcode (s : State) : W32 := BitVec.ofNat 32 (2 ^ 28 + 2 ^ 12 * s.fuses.variant.toNat + 2 * 0x5BD + 1)

/-- Load an instruction that leaves the domains alone; the outputs are the device's again, unless the test hold stands
(DEDUCED from IEEE 1149.1, log 26). -/
def loadIr (ir : JtagIr) (s : State) : State := { s with board := { s.board with ir := ir, driven := false, floated := false } }

/-- JTAG_BYPASS. -/
def execJtagBypass (s : State) : Host.Outcome State Fault Refusal := if s.rst.powered then ok (loadIr .bypass s) else ok s

/-- JTAG_IDCODE. -/
def execJtagIdcode (s : State) : Host.Outcome State Fault Refusal :=
  if s.rst.powered then ok (send (.jtag (idcode s)) (loadIr .idcode s)) else ok s

/-- JTAG_SAMPLE_PRELOAD: preload boundary cells, or sample the pins, whose levels are a free value (log 6). -/
def execJtagSamplePreload (preload : Option (List (Nat × Bool))) (s : State) : Host.Outcome State Fault Refusal :=
  if !s.rst.powered then ok s
  else
    let s1 := loadIr .samplePreload s
    match preload with
    | some cells => ok { s1 with board := { s1.board with bsr := cells.foldl (fun t c => Tbl.put false t c.1 c.2) s1.board.bsr } }
    | none => let (k, s2) := draw s1; ok (send (.jtag ((Config.freeValue k).truncate 32)) s2)

/-- Every domain but the test access port goes into reset and stays there (R494); `drive` and `float` say what the
outputs do. A hold that stands goes on. -/
def testHold (ir : JtagIr) (drive float : Bool) (s : State) : State :=
  let c := if s.board.jhold then s else
    let r := coldReset s
    { r with rst := { r.rst with l4count := s.rst.l4count } }
  { c with board := { c.board with ir := ir, bsr := s.board.bsr, jhold := true, driven := drive, floated := float } }

/-- JTAG_EXTEST. -/
def execJtagExtest (s : State) : Host.Outcome State Fault Refusal := if s.rst.powered then ok (testHold .extest true false s) else ok s
/-- JTAG_CLAMP. -/
def execJtagClamp (s : State) : Host.Outcome State Fault Refusal := if s.rst.powered then ok (testHold .clamp true false s) else ok s
/-- JTAG_HIGHZ. -/
def execJtagHighz (s : State) : Host.Outcome State Fault Refusal := if s.rst.powered then ok (testHold .highz false true s) else ok s
/-- JTAG_EXTEST_PULSE: the boundary cells of the Abaifa and PCIe lanes drive one pulse. -/
def execJtagExtestPulse (s : State) : Host.Outcome State Fault Refusal :=
  if s.rst.powered then ok (testHold .extestPulse true false s) else ok s
/-- JTAG_EXTEST_TRAIN: the boundary cells of the Abaifa and PCIe lanes drive a train of pulses. -/
def execJtagExtestTrain (s : State) : Host.Outcome State Fault Refusal :=
  if s.rst.powered then ok (testHold .extestTrain true false s) else ok s

/-- JTAG_REG_ACCESS: requester 6 where the debug fuse is programmed; otherwise refused, and all ones. -/
def execJtagRegAccess (win : Fin 4096) (off : BitVec 16) (write : Option W32) (s : State) : Host.Outcome State Fault Refusal :=
  if !s.rst.powered then ok s
  else
    let s1 := loadIr .regAccess s
    if !s1.fuses.debugFuse then ok (send (.jtag 0xFFFFFFFF) s1)
    else
      match write with
      | some v => ok (regWrite 6 win.val off.toNat v false s1)
      | none => let (s2, v) := regRead 6 win.val off.toNat s1; ok (send (.jtag v) s2)

/-- JTAG_TEST_LOGIC_RESET: IDCODE is loaded; a test hold ends with an L4. -/
def execJtagTestLogicReset (s : State) : Host.Outcome State Fault Refusal :=
  if !s.rst.powered then ok s
  else
    let s1 := loadIr .idcode s
    if s.board.jhold then ok (startL4 0xFF 0 { s1 with board := { s1.board with jhold := false } }) else ok s1

/-! ### Supplies (R507) -/

/-- VAON_LOSS: the whole device resets, the trip latch with it, and stays so until power-on (R463). -/
def execVaonLoss (s : State) : Host.Outcome State Fault Refusal :=
  let c := coldReset { s with thm := {}, loess := [], marl := [] }
  ok { c with rst := { c.rst with l4count := s.rst.l4count, powered := false } }

/-- VIO_LOSS: the AVSBus and xSPI pins are undriven. -/
def execVioLoss (s : State) : Host.Outcome State Fault Refusal := ok { s with pwr := { s.pwr with vioDown := true } }

/-- VIO_RETURN. -/
def execVioReturn (s : State) : Host.Outcome State Fault Refusal := ok { s with pwr := { s.pwr with vioDown := false } }

end Sys2Proof.Machine
end

