-- ==== Sys2Proof/Machine/Dispatch.lean ====
section
/-! DEFINITION. The dispatch of the commands: one arm for each constructor of `Instr`, each a direct
call of that command's meaning. -/

namespace Sys2Proof.Machine
open Sys2Proof

def exec (i : Instr) (s : State) : Host.Outcome State Fault Refusal :=
  match i with
  | .registerWrite r win off val narrow => Sys2Proof.Machine.execRegisterWrite r win off val narrow s
  | .selectorWrite r unit val => Sys2Proof.Machine.execSelectorWrite r unit val s
  | .sktTimeLoRead r => Sys2Proof.Machine.execSktTimeLoRead r s
  | .synValueLoRead r => Sys2Proof.Machine.execSynValueLoRead r s
  | .taskNoticeTake p => Sys2Proof.Machine.execTaskNoticeTake p s
  | .windowSetup p e => Sys2Proof.Machine.execWindowSetup p e s
  | .groupPlace p e => Sys2Proof.Machine.execGroupPlace p e s
  | .taskCompletion p e => Sys2Proof.Machine.execTaskCompletion p e s
  | .windowEndDemote p e => Sys2Proof.Machine.execWindowEndDemote p e s
  | .deadlineExpiry p e => Sys2Proof.Machine.execDeadlineExpiry p e s
  | .taskFaultEnd p e => Sys2Proof.Machine.execTaskFaultEnd p e s
  | .beWorkRestore p => Sys2Proof.Machine.execBeWorkRestore p s
  | .probeReading probe last low => Sys2Proof.Machine.execProbeReading probe last low s
  | .governorPeriod p => Sys2Proof.Machine.execGovernorPeriod p s
  | .floorFault p => Sys2Proof.Machine.execFloorFault p s
  | .floorFaultClear p => Sys2Proof.Machine.execFloorFaultClear p s
  | .pacerRelease p pipe => Sys2Proof.Machine.execPacerRelease p pipe s
  | .allotmentUpdate => Sys2Proof.Machine.execAllotmentUpdate s
  | .ladderStageDown p => Sys2Proof.Machine.execLadderStageDown p s
  | .avsCommand iface rail cmd data => Sys2Proof.Machine.execAvsCommand iface rail cmd data s
  | .avsResponseTimeout iface => Sys2Proof.Machine.execAvsResponseTimeout iface s
  | .regulatorStatusPoll iface rail fault => Sys2Proof.Machine.execRegulatorStatusPoll iface rail fault s
  | .vmonSample t m mv => Sys2Proof.Machine.execVmonSample t m mv s
  | .ageingDetect p => Sys2Proof.Machine.execAgeingDetect p s
  | .tbRefLoss => Sys2Proof.Machine.execTbRefLoss s
  | .tbRefRestore => Sys2Proof.Machine.execTbRefRestore s
  | .timeMarkSend port => Sys2Proof.Machine.execTimeMarkSend port s
  | .timeX port x flags => Sys2Proof.Machine.execTimeX port x flags s
  | .bundleRotationStart site group low => Sys2Proof.Machine.execBundleRotationStart site group low s
  | .rotationCompare site group equal => Sys2Proof.Machine.execRotationCompare site group equal s
  | .bundleSweep site group bundle pass => Sys2Proof.Machine.execBundleSweep site group bundle pass s
  | .bundleRepair site group bundle failing => Sys2Proof.Machine.execBundleRepair site group bundle failing s
  | .groupSpareLost site group => Sys2Proof.Machine.execGroupSpareLost site group s
  | .apost site slot w => Sys2Proof.Machine.execApost site slot w s
  | .apostSlotFree site slot => Sys2Proof.Machine.execApostSlotFree site slot s
  | .arrayPass a => Sys2Proof.Machine.execArrayPass a s
  | .arraySync a => Sys2Proof.Machine.execArraySync a s
  | .accOut a => Sys2Proof.Machine.execAccOut a s
  | .arrayStep a feed scales => Sys2Proof.Machine.execArrayStep a feed scales s
  | .drainBlockCommit a => Sys2Proof.Machine.execDrainBlockCommit a s
  | .arrayPassComplete a => Sys2Proof.Machine.execArrayPassComplete a s
  | .arrayWalkDone a kind va => Sys2Proof.Machine.execArrayWalkDone a kind va s
  | .arrayReadError a => Sys2Proof.Machine.execArrayReadError a s
  | .aryStop r a cause => Sys2Proof.Machine.execAryStop r a cause s
  | .arySaveDone a => Sys2Proof.Machine.execArySaveDone a s
  | .aryResume r a cause => Sys2Proof.Machine.execAryResume r a cause s
  | .aryRestoreDone a returned => Sys2Proof.Machine.execAryRestoreDone a returned s
  | .aryDiscard r a => Sys2Proof.Machine.execAryDiscard r a s
  | .aryFlush r a => Sys2Proof.Machine.execAryFlush r a s
  | .aryClrHalt r a => Sys2Proof.Machine.execAryClrHalt r a s
  | .arySaveBaseWrite r a hi val => Sys2Proof.Machine.execArySaveBaseWrite r a hi val s
  | .arySrSeedHiWrite r a val => Sys2Proof.Machine.execArySrSeedHiWrite r a val s
  | .instructionIssue site ready => Sys2Proof.Machine.execInstructionIssue site ready s
  | .groupActivate site ready => Sys2Proof.Machine.execGroupActivate site ready s
  | .activeSlotRelease site ready => Sys2Proof.Machine.execActiveSlotRelease site ready s
  | .vectorArith site slot w kind wide => Sys2Proof.Machine.execVectorArith site slot w kind wide s
  | .specialFunction site slot op => Sys2Proof.Machine.execSpecialFunction site slot op s
  | .contextLoadStore site slot w form parity => Sys2Proof.Machine.execContextLoadStore site slot w form parity s
  | .sharedLoadStore site slot w store log2 => Sys2Proof.Machine.execSharedLoadStore site slot w store log2 s
  | .branch site slot w target join cond neg => Sys2Proof.Machine.execBranch site slot w target join cond neg s
  | .indirectBranch site slot w join => Sys2Proof.Machine.execIndirectBranch site slot w join s
  | .exit site slot w => Sys2Proof.Machine.execExit site slot w s
  | .trap site slot w => Sys2Proof.Machine.execTrap site slot w s
  | .specialRead site slot w which => Sys2Proof.Machine.execSpecialRead site slot w which s
  | .shfl site slot w => Sys2Proof.Machine.execShfl site slot w s
  | .vote site slot w => Sys2Proof.Machine.execVote site slot w s
  | .mma site slot w => Sys2Proof.Machine.execMma site slot w s
  | .atom site slot w => Sys2Proof.Machine.execAtom site slot w s
  | .red site slot w => Sys2Proof.Machine.execRed site slot w s
  | .atomSerial site slot w => Sys2Proof.Machine.execAtomSerial site slot w s
  | .fence site slot w => Sys2Proof.Machine.execFence site slot w s
  | .bar site slot w => Sys2Proof.Machine.execBar site slot w s
  | .time site slot w => Sys2Proof.Machine.execTime site slot w s
  | .loadReply site slot ix => Sys2Proof.Machine.execLoadReply site slot ix s
  | .homePortGuardGrant site use => Sys2Proof.Machine.execHomePortGuardGrant site use s
  | .slmDmaGuardGrant site bank needed => Sys2Proof.Machine.execSlmDmaGuardGrant site bank needed s
  | .sliceRead slice x len who errs => Sys2Proof.Machine.execSliceRead slice x len who errs s
  | .sliceWrite slice x data who => Sys2Proof.Machine.execSliceWrite slice x data who s
  | .cacheRead addr len rq errs => Sys2Proof.Machine.execCacheRead addr len rq errs s
  | .cacheWrite addr data rq => Sys2Proof.Machine.execCacheWrite addr data rq s
  | .marlFillReturn slice line => Sys2Proof.Machine.execMarlFillReturn slice line s
  | .writebackAck slice line => Sys2Proof.Machine.execWritebackAck slice line s
  | .sliceInputRelease slice => Sys2Proof.Machine.execSliceInputRelease slice s
  | .homeOperation addr ask rq => Sys2Proof.Machine.execHomeOperation addr ask rq s
  | .deadLineHint addr ctx => Sys2Proof.Machine.execDeadLineHint addr ctx s
  | .lssFlushStart r val => Sys2Proof.Machine.execLssFlushStart r val s
  | .lssFlushDone t => Sys2Proof.Machine.execLssFlushDone t s
  | .loessCorrectionWriteback slice => Sys2Proof.Machine.execLoessCorrectionWriteback slice s
  | .tagLoss slice set => Sys2Proof.Machine.execTagLoss slice set s
  | .scrubAccess slice reserved errs => Sys2Proof.Machine.execScrubAccess slice reserved errs s
  | .marlRead line errs => Sys2Proof.Machine.execMarlRead line errs s
  | .marlWrite cw data poison => Sys2Proof.Machine.execMarlWrite cw data poison s
  | .marlPartialWrite cw words data errs => Sys2Proof.Machine.execMarlPartialWrite cw words data errs s
  | .marlCorrectionWriteback ch => Sys2Proof.Machine.execMarlCorrectionWriteback ch s
  | .wireCounterDecay => Sys2Proof.Machine.execWireCounterDecay s
  | .wireMark ch wire => Sys2Proof.Machine.execWireMark ch wire s
  | .migrationRowCopy copy => Sys2Proof.Machine.execMigrationRowCopy copy s
  | .refreshCommand stack layer bank => Sys2Proof.Machine.execRefreshCommand stack layer bank s
  | .marlScrubAccess ch reserved errs => Sys2Proof.Machine.execMarlScrubAccess ch reserved errs s
  | .marlRowRepair ch layer bank row => Sys2Proof.Machine.execMarlRowRepair ch layer bank row s
  | .xltCtxCfgWrite r ctx val => Sys2Proof.Machine.execXltCtxCfgWrite r ctx val s
  | .translationWalk site who ctx va acc err => Sys2Proof.Machine.execTranslationWalk site who ctx va acc err s
  | .faultRecordDeliver p => Sys2Proof.Machine.execFaultRecordDeliver p s
  | .invalidationStart r val => Sys2Proof.Machine.execInvalidationStart r val s
  | .invalidationDone r => Sys2Proof.Machine.execInvalidationDone r s
  | .preempt r site => Sys2Proof.Machine.execPreempt r site s
  | .coreSaveDone site => Sys2Proof.Machine.execCoreSaveDone site s
  | .restore r site => Sys2Proof.Machine.execRestore r site s
  | .coreRestoreDone site => Sys2Proof.Machine.execCoreRestoreDone site s
  | .grpResume r site slot => Sys2Proof.Machine.execGrpResume r site slot s
  | .grpKill r site slot => Sys2Proof.Machine.execGrpKill r site slot s
  | .dpost site slot w => Sys2Proof.Machine.execDpost site slot w s
  | .dpostSlotFree site slot => Sys2Proof.Machine.execDpostSlotFree site slot s
  | .dmaCopy ch => Sys2Proof.Machine.execDmaCopy ch s
  | .dmaFill ch => Sys2Proof.Machine.execDmaFill ch s
  | .dmaReduce ch => Sys2Proof.Machine.execDmaReduce ch s
  | .dmaDiscard ch => Sys2Proof.Machine.execDmaDiscard ch s
  | .dmaSync ch => Sys2Proof.Machine.execDmaSync ch s
  | .dmaElementIssue ch => Sys2Proof.Machine.execDmaElementIssue ch s
  | .dmaElementCommit ch k => Sys2Proof.Machine.execDmaElementCommit ch k s
  | .dmaBusError ch k => Sys2Proof.Machine.execDmaBusError ch k s
  | .dmaCtrlResume r ch => Sys2Proof.Machine.execDmaCtrlResume r ch s
  | .dmaCtrlDiscard r ch => Sys2Proof.Machine.execDmaCtrlDiscard r ch s
  | .dmaCtrlFlush r ch => Sys2Proof.Machine.execDmaCtrlFlush r ch s
  | .dmaCtrlClrHalt r ch => Sys2Proof.Machine.execDmaCtrlClrHalt r ch s
  | .abortContext r ctx tag => Sys2Proof.Machine.execAbortContext r ctx tag s
  | .abortPartition r target tag => Sys2Proof.Machine.execAbortPartition r target tag s
  | .abortDevice r tag => Sys2Proof.Machine.execAbortDevice r tag s
  | .abortForceHoldouts ix => Sys2Proof.Machine.execAbortForceHoldouts ix s
  | .abortComplete ix => Sys2Proof.Machine.execAbortComplete ix s
  | .abortEscalation site => Sys2Proof.Machine.execAbortEscalation site s
  | .queueAppend who q word bad => Sys2Proof.Machine.execQueueAppend who q word bad s
  | .queueClose who q word bad => Sys2Proof.Machine.execQueueClose who q word bad s
  | .queueTake who q => Sys2Proof.Machine.execQueueTake who q s
  | .queueClear who q val => Sys2Proof.Machine.execQueueClear who q val s
  | .queueSpaceRelease p who q => Sys2Proof.Machine.execQueueSpaceRelease p who q s
  | .packetTimeout p who q => Sys2Proof.Machine.execPacketTimeout p who q s
  | .syncSignal who o val => Sys2Proof.Machine.execSyncSignal who o val s
  | .syncWait who o threshold timeout => Sys2Proof.Machine.execSyncWait who o threshold timeout s
  | .syncTest who o => Sys2Proof.Machine.execSyncTest who o s
  | .syncReset who o => Sys2Proof.Machine.execSyncReset who o s
  | .syncArm who o threshold => Sys2Proof.Machine.execSyncArm who o threshold s
  | .syncWaitTimeout o who => Sys2Proof.Machine.execSyncWaitTimeout o who s
  | .syncObjectFail o => Sys2Proof.Machine.execSyncObjectFail o s
  | .qput site slot w => Sys2Proof.Machine.execQput site slot w s
  | .qget site slot w => Sys2Proof.Machine.execQget site slot w s
  | .ssig site slot w => Sys2Proof.Machine.execSsig site slot w s
  | .swait site slot w => Sys2Proof.Machine.execSwait site slot w s
  | .stest site slot w => Sys2Proof.Machine.execStest site slot w s
  | .srst site slot w => Sys2Proof.Machine.execSrst site slot w s
  | .frameReceive port lanes dark => Sys2Proof.Machine.execFrameReceive port lanes dark s
  | .markerCodeAccept port => Sys2Proof.Machine.execMarkerCodeAccept port s
  | .flitReceive port flit => Sys2Proof.Machine.execFlitReceive port flit s
  | .flitSlotTransmit port => Sys2Proof.Machine.execFlitSlotTransmit port s
  | .replayStart port => Sys2Proof.Machine.execReplayStart port s
  | .noDecodeTimeout port => Sys2Proof.Machine.execNoDecodeTimeout port s
  | .retrain port => Sys2Proof.Machine.execRetrain port s
  | .portTraining port x => Sys2Proof.Machine.execPortTraining port x s
  | .initReceive port payload => Sys2Proof.Machine.execInitReceive port payload s
  | .laneFail port logical => Sys2Proof.Machine.execLaneFail port logical s
  | .laneReplace port rx logical => Sys2Proof.Machine.execLaneReplace port rx logical s
  | .widthDegrade port => Sys2Proof.Machine.execWidthDegrade port s
  | .standbyRetune port lane => Sys2Proof.Machine.execStandbyRetune port lane s
  | .linkEnable r port => Sys2Proof.Machine.execLinkEnable r port s
  | .linkDisable r port => Sys2Proof.Machine.execLinkDisable r port s
  | .linkRetrain r port => Sys2Proof.Machine.execLinkRetrain r port s
  | .mgmtQueueArrive src pkt => Sys2Proof.Machine.execMgmtQueueArrive src pkt s
  | .packetRoute inPort vl pkt => Sys2Proof.Machine.execPacketRoute inPort vl pkt s
  | .fabricPut vl pkt => Sys2Proof.Machine.execFabricPut vl pkt s
  | .fabricGet vl pkt => Sys2Proof.Machine.execFabricGet vl pkt s
  | .fabricAtomic vl pkt => Sys2Proof.Machine.execFabricAtomic vl pkt s
  | .fabricReduce vl pkt => Sys2Proof.Machine.execFabricReduce vl pkt s
  | .fabricSyncSignal vl pkt => Sys2Proof.Machine.execFabricSyncSignal vl pkt s
  | .fabricSyncWait vl pkt => Sys2Proof.Machine.execFabricSyncWait vl pkt s
  | .fabricSyncTest vl pkt => Sys2Proof.Machine.execFabricSyncTest vl pkt s
  | .fabricSyncReset vl pkt => Sys2Proof.Machine.execFabricSyncReset vl pkt s
  | .fabricQmsg vl pkt => Sys2Proof.Machine.execFabricQmsg vl pkt s
  | .collReady port pkt => Sys2Proof.Machine.execCollReady port pkt s
  | .collChunk port pkt => Sys2Proof.Machine.execCollChunk port pkt s
  | .collCancel port pkt => Sys2Proof.Machine.execCollCancel port pkt s
  | .fabricRequestIssue t who pkt => Sys2Proof.Machine.execFabricRequestIssue t who pkt s
  | .fabricAck t pkt => Sys2Proof.Machine.execFabricAck t pkt s
  | .fabricData t pkt => Sys2Proof.Machine.execFabricData t pkt s
  | .fabricNack t pkt => Sys2Proof.Machine.execFabricNack t pkt s
  | .requestTimeout t tid => Sys2Proof.Machine.execRequestTimeout t tid s
  | .nackRetry t tid => Sys2Proof.Machine.execNackRetry t tid s
  | .requestGiveUp t tid => Sys2Proof.Machine.execRequestGiveUp t tid s
  | .collQueueTake p copyAt => Sys2Proof.Machine.execCollQueueTake p copyAt s
  | .abfCollPostHiWrite r port val => Sys2Proof.Machine.execAbfCollPostHiWrite r port val s
  | .collStart port => Sys2Proof.Machine.execCollStart port s
  | .collRound port => Sys2Proof.Machine.execCollRound port s
  | .collTimeout port => Sys2Proof.Machine.execCollTimeout port s
  | .mgmtHello port payload => Sys2Proof.Machine.execMgmtHello port payload s
  | .mgmtLink payload => Sys2Proof.Machine.execMgmtLink payload s
  | .cmdRegRead cmd => Sys2Proof.Machine.execCmdRegRead cmd s
  | .cmdRegWrite cmd => Sys2Proof.Machine.execCmdRegWrite cmd s
  | .cmdAbort cmd => Sys2Proof.Machine.execCmdAbort cmd s
  | .cmdReset cmd => Sys2Proof.Machine.execCmdReset cmd s
  | .cmdAttest cmd => Sys2Proof.Machine.execCmdAttest cmd s
  | .powerOn tbRef straps => Sys2Proof.Machine.execPowerOn tbRef straps s
  | .optionsRead => Sys2Proof.Machine.execOptionsRead s
  | .imageVerify => Sys2Proof.Machine.execImageVerify s
  | .memoryTest fails => Sys2Proof.Machine.execMemoryTest fails s
  | .bundleCal sweeps => Sys2Proof.Machine.execBundleCal sweeps s
  | .kaolin fails => Sys2Proof.Machine.execKaolin fails s
  | .distribute => Sys2Proof.Machine.execDistribute s
  | .config => Sys2Proof.Machine.execConfig s
  | .ready => Sys2Proof.Machine.execReady s
  | .fwAnnounce port x => Sys2Proof.Machine.execFwAnnounce port x s
  | .fwRequest port x => Sys2Proof.Machine.execFwRequest port x s
  | .fwData port x => Sys2Proof.Machine.execFwData port x s
  | .fwEnd port x => Sys2Proof.Machine.execFwEnd port x s
  | .fwNeed port x => Sys2Proof.Machine.execFwNeed port x s
  | .fwDone port x => Sys2Proof.Machine.execFwDone port x s
  | .announceTimer => Sys2Proof.Machine.execAnnounceTimer s
  | .fwChunkTimeout => Sys2Proof.Machine.execFwChunkTimeout s
  | .noUpstreamTimeout => Sys2Proof.Machine.execNoUpstreamTimeout s
  | .stageHoldEnd => Sys2Proof.Machine.execStageHoldEnd s
  | .fuseWindowOpen => Sys2Proof.Machine.execFuseWindowOpen s
  | .flashWindowOpen => Sys2Proof.Machine.execFlashWindowOpen s
  | .attestSignDone => Sys2Proof.Machine.execAttestSignDone s
  | .perstNAssert => Sys2Proof.Machine.execPerstNAssert s
  | .perstNDeassert => Sys2Proof.Machine.execPerstNDeassert s
  | .rstRequestL0 r key target => Sys2Proof.Machine.execRstRequestL0 r key target s
  | .rstRequestL1 r key target => Sys2Proof.Machine.execRstRequestL1 r key target s
  | .rstRequestL2 r key target => Sys2Proof.Machine.execRstRequestL2 r key target s
  | .rstRequestL3 r key => Sys2Proof.Machine.execRstRequestL3 r key s
  | .rstRequestL4 r key => Sys2Proof.Machine.execRstRequestL4 r key s
  | .partitionResetRelease p hashOk => Sys2Proof.Machine.execPartitionResetRelease p hashOk s
  | .l3DrainEnd => Sys2Proof.Machine.execL3DrainEnd s
  | .l4Release => Sys2Proof.Machine.execL4Release s
  | .partitionWatchdogExpiry p => Sys2Proof.Machine.execPartitionWatchdogExpiry p s
  | .mgmtWatchdogExpiry => Sys2Proof.Machine.execMgmtWatchdogExpiry s
  | .rstWdogKick r val => Sys2Proof.Machine.execRstWdogKick r val s
  | .blockResetAry0 r site => Sys2Proof.Machine.execBlockResetAry0 r site s
  | .blockResetAry1 r site => Sys2Proof.Machine.execBlockResetAry1 r site s
  | .blockResetDma r site => Sys2Proof.Machine.execBlockResetDma r site s
  | .blockResetTge r site => Sys2Proof.Machine.execBlockResetTge r site s
  | .blockResetL1 r site => Sys2Proof.Machine.execBlockResetL1 r site s
  | .blockResetXlt r site => Sys2Proof.Machine.execBlockResetXlt r site s
  | .blockResetColl r port => Sys2Proof.Machine.execBlockResetColl r port s
  | .blockResetDone coll unit block => Sys2Proof.Machine.execBlockResetDone coll unit block s
  | .siteRetire r site => Sys2Proof.Machine.execSiteRetire r site s
  | .retireSpareReady site pass => Sys2Proof.Machine.execRetireSpareReady site pass s
  | .siltTrapDiscard who gen => Sys2Proof.Machine.execSiltTrapDiscard who gen s
  | .loessRowRepair slice bank row => Sys2Proof.Machine.execLoessRowRepair slice bank row s
  | .loessColumnRepair slice bank group => Sys2Proof.Machine.execLoessColumnRepair slice bank group s
  | .repairLogWrite => Sys2Proof.Machine.execRepairLogWrite s
  | .sensorSample i0 raw => Sys2Proof.Machine.execSensorSample i0 raw s
  | .sensorSuspect i0 => Sys2Proof.Machine.execSensorSuspect i0 s
  | .sensorRecover i0 => Sys2Proof.Machine.execSensorRecover i0 s
  | .orderlyStopCutoff => Sys2Proof.Machine.execOrderlyStopCutoff s
  | .orderlyStopHalt => Sys2Proof.Machine.execOrderlyStopHalt s
  | .haltRecovery => Sys2Proof.Machine.execHaltRecovery s
  | .tripLatchClear => Sys2Proof.Machine.execTripLatchClear s
  | .pcieConfigRequest reg write => Sys2Proof.Machine.execPcieConfigRequest reg write s
  | .bar0Access off op => Sys2Proof.Machine.execBar0Access off op s
  | .bar2Access off op ep => Sys2Proof.Machine.execBar2Access off op ep s
  | .functionLevelReset => Sys2Proof.Machine.execFunctionLevelReset s
  | .hotReset => Sys2Proof.Machine.execHotReset s
  | .pcieLinkDown => Sys2Proof.Machine.execPcieLinkDown s
  | .d3hotEntry => Sys2Proof.Machine.execD3hotEntry s
  | .d0Return => Sys2Proof.Machine.execD0Return s
  | .msixPendingSend v => Sys2Proof.Machine.execMsixPendingSend v s
  | .hstEventWrite r val => Sys2Proof.Machine.execHstEventWrite r val s
  | .hstSynFiredRead r => Sys2Proof.Machine.execHstSynFiredRead r s
  | .doeDiscovery index => Sys2Proof.Machine.execDoeDiscovery index s
  | .doeAttest payload => Sys2Proof.Machine.execDoeAttest payload s
  | .doeIdkey payload => Sys2Proof.Machine.execDoeIdkey payload s
  | .doeAbort => Sys2Proof.Machine.execDoeAbort s
  | .flashRead r ctrl => Sys2Proof.Machine.execFlashRead r ctrl s
  | .flashProgram r ctrl => Sys2Proof.Machine.execFlashProgram r ctrl s
  | .flashErase4k r ctrl => Sys2Proof.Machine.execFlashErase4k r ctrl s
  | .flashErase64k r ctrl => Sys2Proof.Machine.execFlashErase64k r ctrl s
  | .flashOpDone error => Sys2Proof.Machine.execFlashOpDone error s
  | .i3cDynamicAddress setdasa addr => Sys2Proof.Machine.execI3cDynamicAddress setdasa addr s
  | .i3cSetIndex ix => Sys2Proof.Machine.execI3cSetIndex ix s
  | .i3cRead words => Sys2Proof.Machine.execI3cRead words s
  | .i3cTelemetryRefresh => Sys2Proof.Machine.execI3cTelemetryRefresh s
  | .jtagBypass => Sys2Proof.Machine.execJtagBypass s
  | .jtagIdcode => Sys2Proof.Machine.execJtagIdcode s
  | .jtagSamplePreload preload => Sys2Proof.Machine.execJtagSamplePreload preload s
  | .jtagExtest => Sys2Proof.Machine.execJtagExtest s
  | .jtagClamp => Sys2Proof.Machine.execJtagClamp s
  | .jtagHighz => Sys2Proof.Machine.execJtagHighz s
  | .jtagExtestPulse => Sys2Proof.Machine.execJtagExtestPulse s
  | .jtagExtestTrain => Sys2Proof.Machine.execJtagExtestTrain s
  | .jtagRegAccess win off write => Sys2Proof.Machine.execJtagRegAccess win off write s
  | .jtagTestLogicReset => Sys2Proof.Machine.execJtagTestLogicReset s
  | .vaonLoss => Sys2Proof.Machine.execVaonLoss s
  | .vioLoss => Sys2Proof.Machine.execVioLoss s
  | .siteResetDone site => Sys2Proof.Machine.execSiteResetDone site s
  | .mgmtWatchdogRearm => Sys2Proof.Machine.execMgmtWatchdogRearm s
  | .storeAcknowledge site slot err => Sys2Proof.Machine.execStoreAcknowledge site slot err s
  | .persistWriteDone => Sys2Proof.Machine.execPersistWriteDone s
  | .pcieLinkUp flitMode => Sys2Proof.Machine.execPcieLinkUp flitMode s
  | .vioReturn => Sys2Proof.Machine.execVioReturn s

end Sys2Proof.Machine
end

