-- ==== Sys2Proof/Machine/Tick.lean ====
section
/-! DEFINITION. What an empty queue does in place of idling: one nanosecond of device time (log 1). -/

namespace Sys2Proof.Machine
open Sys2Proof

/-- Time between two 1 ns corrections: 100 ns per ms (R66). -/
def slewEvery : Nat := 10000

/-- Advance of the Skotrum clock in one nanosecond: phase slews by at most 1 ns in each 10 µs (R65, R66). -/
def advanceTime (k : Skt) : Skt :=
  let due := decide (k.slewAt.toNat + slewEvery ≤ k.time.toNat)
  if due ∧ 16 ≤ k.slew then { k with time := k.time + 2, slew := k.slew - 16, slewAt := k.time }
  else if due ∧ k.slew ≤ -16 then { k with slew := k.slew + 16, slewAt := k.time }
  else { k with time := k.time + 1 }

/-- Sites whose retirement waited for the end of a real-time window that has ended (R437). -/
def dueRetirements (s : State) : List Nat :=
  (List.range 96).filter fun j => (s.getSite j).retireDue && !inWindow s j

/-- One nanosecond of device time: pending home operations commit, the management core takes up the completions it owes, waits and
notices that met a full pool or a partition in reset are presented again, and retirements fall due. -/
def idleTick (s : State) : Host.Outcome State Fault Refusal :=
  let s1 := { s with skt := advanceTime s.skt }
  let s2 := noticeTick (forN 4 arriveTick (owedTick (commitDue s1)))
  ok (forL (dueRetirements s2) retireSite s2)

end Sys2Proof.Machine
end

