-- ==== Sys2Proof/Machine/Step.lean ====
section
/-! DEFINITION. One step of the block: the command at the front of the queue takes effect, or, on an
empty queue, one nanosecond of device time passes. -/

namespace Sys2Proof.Machine
open Sys2Proof

/-- One step. The front command runs on the state whose queue is the rest (first in, first out). With
no command waiting, device time advances (R65, R66; DESIGN CHOICE, log 1). -/
def step (s : State) : Host.Outcome State Fault Refusal :=
  match s.pending with
  | [] => Sys2Proof.Machine.idleTick s
  | c :: rest => exec c { s with pending := rest }

/-- `s` with the command that the word `w` spells by the table's bits at the front of its queue. The
table gives no row bits, so no word spells a command and `s` stands (log 15). -/
def State.withFetchWord (s : State) (nbits w : Nat) : State :=
  match decodeTableWord nbits w with
  | some c => { s with pending := c :: s.pending }
  | none => s

end Sys2Proof.Machine
end

