-- ==== Sys2Proof/Safety.lean ====
section
/-! DEFINITION. What claims are stated in. -/

namespace Sys2Proof.Machine
open Sys2Proof

/-- The byte memories stand in their canonical form. -/
def State.memWf (s : State) : Bool := Tbl.wf 0 s.loess && Tbl.wf 0 s.marl && Tbl.wf 0xFF s.board.flash

/-- The writer may start a reset of level `lvl` over a target of partition `p` (R420, R424): the host where the fuse entry of
source 1 permits the level and no override lowers it, the management core up to L3, a partition controller at L0 and L1 in
its own tower; the key is 0xA5. -/
def mayReset (s : State) (r : Req) (lvl p : Nat) : Prop :=
  (r = 0 ∧ permits s 1 lvl = true ∧ resetOverride s 1 = none) ∨ (r = 1 ∧ lvl ≤ 3) ∨ (r.val = 2 + p ∧ lvl ≤ 1)

/-- The active lanes of an instruction word in the group of a slot. -/
def laneActive (g : Group) (w : W64) (l : Nat) : Prop := l < 32 ∧ getBit (actLanes g w) l = true

/-- Replies awaited, without their writes to the registers `vs` in the lanes of `m`. -/
def withdrawn (vs : List Nat) (m : W32) (ls : List LoadPend) : List LoadPend :=
  ls.map fun p => { p with writes := p.writes.filter fun e => !decide (e.1 ∈ vs ∧ getBit m e.2.1 = true) }

/-- Register file `h` agrees with `g`, but for the registers `vs` in the lanes of `m`, which the replies that `g` awaits write no
more. -/
def regsBut (g h : Group) (vs : List Nat) (m : W32) : Prop :=
  (∀ v l, l < 32 → (v ∉ vs ∨ getBit m l = false) → getReg h v l = getReg g v l) ∧ h.loads = withdrawn vs m g.loads

/-- Every group but `i` stands as it was. -/
def otherGroups (i : Nat) (s t : State) : Prop := ∀ x, x ≠ i → t.getGrp x = s.getGrp x

/-- Group `i` has gone on to its next word with its registers written; but for what the replies it awaits will write, nothing else
of it has changed. -/
def wentOn (i : Nat) (g : Group) (t : State) : Prop :=
  t.getGrp i = advance { g with reg := (t.getGrp i).reg, loads := (t.getGrp i).loads }

end Sys2Proof.Machine
end

