-- ==== Sys2Proof/WellFormed.lean ====
section
/-! DEFINITION. Well-formed commands: the sizes, ranges and codes that the spec fixes for the bytes, words and packets a
command carries. A command's own occasion (what the state must hold for it) is no part of this. -/

namespace Sys2Proof.WellFormed
open Sys2Proof

/-- The major opcode of an instruction word lies in its class's range (R143, Table 5.2). -/
def opc (w : W64) (lo hi : Nat) : Bool := decide (lo ≤ w.toNat % 256 ∧ w.toNat % 256 ≤ hi)

/-- A range inside one Loess slice of 64 MiB (R182). -/
def inSlice (x : BitVec 26) (n : Nat) : Bool := decide (0 < n ∧ x.toNat + n ≤ 2 ^ 26)

/-- A range inside one line of 256 bytes (R193). -/
def inLine (a : BitVec 40) (n : Nat) : Bool := decide (0 < n ∧ a.toNat % 256 + n ≤ 256)

/-- A passing window of the 128 taps of a delay line (R72). -/
def windowIn (t0 : BitVec 7) (w : Byte) : Bool := decide (t0.toNat + w.toNat ≤ 128)

/-- Word errors strike the 64-bit words of a slice (R182). -/
def faultsIn (es : List WordFault) : Bool := es.all fun e => decide (e.word < 2 ^ 23)

/-- A symbol of a Marl codeword: position in its 68 symbols, a difference that is one (R230). -/
def symWf (e : SymErr) : Bool := decide (e.pos < 68 ∧ e.val ≠ 0)

/-- A line reduction carries a mask of 16 bytes and a line of 256 (R211). -/
def homeOpWf (op : HomeOp) : Bool :=
  match op with
  | .atomic _ _ _ => true
  | .reduce _ _ mask line => decide (mask.length = 16 ∧ line.length = 256)

/-- A packet of Table 12.1: at most 4,096 bytes of payload. -/
def pktWf (p : Pkt) : Bool := decide (p.payload.length ≤ 4096)

/-- A packet of one of the operations `ops`, and of subtype `arg` where the command is for one (Table 12.2). -/
def packet (p : Pkt) (ops : List Nat) (arg : Option Nat) : Bool :=
  pktWf p && ops.contains p.op.toNat && (match arg with | some a => decide (p.arg.toNat = a) | none => true)

/-- An authenticated command: 0x60 bytes with its CODE at byte 6 (Table 12.9). -/
def command (c : List Byte) (code : Nat) : Bool := decide (c.length = 0x60 ∧ (c.getD 6 0).toNat = code)

/-- A FW payload of a kind of Table 13.11, with at most 4,064 bytes of body. -/
def firmware (x : FwPayload) (kind : Nat) : Bool := decide (x.kind.toNat = kind ∧ x.body.length ≤ 4064)

/-- A BAR access: a read of up to 4,096 bytes, or a write of up to 512, with one byte enable for each byte written (Table 16.1). -/
def barWf (o : BarOp) : Bool :=
  match o with
  | .read n => decide (0 < n ∧ n ≤ 4096)
  | .write d e => decide (0 < d.length ∧ d.length ≤ 512 ∧ e.length = d.length)

/-- A control word that starts flash operation `op` (Table 16.14). -/
def flashStart (ctrl : W32) (op : Nat) : Bool := decide (ctrl.toNat % 8 = op ∧ ctrl.toNat / 8 % 2 = 1)

end Sys2Proof.WellFormed

namespace Sys2Proof
open WellFormed

/-- The command is well formed. -/
def Instr.wellFormed (i : Instr) : Bool :=
  match i with
  | .registerWrite _ _ _ _ _ => true
  | .selectorWrite _ _ _ => true
  | .sktTimeLoRead _ => true
  | .synValueLoRead _ => true
  | .taskNoticeTake _ => true
  | .windowSetup _ _ => true
  | .groupPlace _ _ => true
  | .taskCompletion _ _ => true
  | .windowEndDemote _ _ => true
  | .deadlineExpiry _ _ => true
  | .taskFaultEnd _ _ => true
  | .beWorkRestore _ => true
  | .probeReading _ _ _ => true
  | .governorPeriod _ => true
  | .floorFault _ => true
  | .floorFaultClear _ => true
  | .pacerRelease _ _ => true
  | .allotmentUpdate => true
  | .ladderStageDown _ => true
  | .avsCommand _ _ _ _ => true
  | .avsResponseTimeout _ => true
  | .regulatorStatusPoll _ _ _ => true
  | .vmonSample _ _ _ => true
  | .ageingDetect _ => true
  | .tbRefLoss => true
  | .tbRefRestore => true
  | .timeMarkSend _ => true
  | .timeX _ _ _ => true
  | .bundleRotationStart _ _ _ => true
  | .rotationCompare _ _ _ => true
  | .bundleSweep _ _ _ pass => match pass with | some (t0, w) => windowIn t0 w && decide (w ≠ 0) | none => true
  | .bundleRepair _ _ _ failing => decide failing.Nodup
  | .groupSpareLost _ _ => true
  | .apost _ _ w => opc w 0x70 0x70
  | .apostSlotFree _ _ => true
  | .arrayPass _ => true
  | .arraySync _ => true
  | .accOut _ => true
  | .arrayStep _ _ _ => true
  | .drainBlockCommit _ => true
  | .arrayPassComplete _ => true
  | .arrayWalkDone _ _ _ => true
  | .arrayReadError _ => true
  | .aryStop _ _ _ => true
  | .arySaveDone _ => true
  | .aryResume _ _ _ => true
  | .aryRestoreDone _ _ => true
  | .aryDiscard _ _ => true
  | .aryFlush _ _ => true
  | .aryClrHalt _ _ => true
  | .arySaveBaseWrite _ _ _ _ => true
  | .arySrSeedHiWrite _ _ _ => true
  | .instructionIssue _ rs => decide (rs.map (·.1)).Nodup
  | .groupActivate _ rs => decide rs.Nodup
  | .activeSlotRelease _ rs => decide rs.Nodup
  | .vectorArith _ _ w _ _ => opc w 0x00 0x2F
  | .specialFunction _ _ op => opc op.word 0x30 0x3F
  | .contextLoadStore _ _ w _ _ => opc w 0x40 0x47
  | .sharedLoadStore _ _ w _ _ => opc w 0x48 0x4F
  | .branch _ _ w _ _ _ _ => opc w 0x50 0x5F
  | .indirectBranch _ _ w _ => opc w 0x50 0x5F
  | .exit _ _ w => opc w 0x50 0x5F
  | .trap _ _ w => opc w 0x50 0x5F
  | .specialRead _ _ w _ => opc w 0x50 0x5F
  | .shfl _ _ w => opc w 0x60 0x60
  | .vote _ _ w => opc w 0x61 0x61
  | .mma _ _ w => opc w 0x62 0x62
  | .atom _ _ w => opc w 0x68 0x68
  | .red _ _ w => opc w 0x69 0x69
  | .atomSerial _ _ w => opc w 0x68 0x68
  | .fence _ _ w => opc w 0x6C 0x6C
  | .bar _ _ w => opc w 0x6D 0x6D
  | .time _ _ w => opc w 0x6E 0x6E
  | .loadReply _ _ _ => true
  | .homePortGuardGrant _ _ => true
  | .slmDmaGuardGrant _ _ _ => true
  | .sliceRead _ x len _ errs => inSlice x len && faultsIn errs
  | .sliceWrite _ x data _ => inSlice x data.length
  | .cacheRead addr len _ errs => inLine addr len && faultsIn errs
  | .cacheWrite addr data _ => inLine addr data.length
  | .marlFillReturn _ _ => true
  | .writebackAck _ _ => true
  | .sliceInputRelease _ => true
  | .homeOperation _ ask _ => homeOpWf ask.op
  | .deadLineHint _ _ => true
  | .lssFlushStart _ _ => true
  | .lssFlushDone _ => true
  | .loessCorrectionWriteback _ => true
  | .tagLoss _ _ => true
  | .scrubAccess _ _ errs => faultsIn errs.words
  | .marlRead _ errs => errs.all fun e => symWf e.2
  | .marlWrite _ data _ => decide (data.length = 64)
  | .marlPartialWrite _ _ data errs => decide (data.length = 64) && errs.all symWf
  | .marlCorrectionWriteback _ => true
  | .wireCounterDecay => true
  | .wireMark _ _ => true
  | .migrationRowCopy copy => copy.errs.all fun e => symWf e.2
  | .refreshCommand _ _ _ => true
  | .marlScrubAccess _ _ errs => errs.all fun e => symWf e.2
  | .marlRowRepair _ _ _ _ => true
  | .xltCtxCfgWrite _ _ _ => true
  | .translationWalk _ _ _ _ _ _ => true
  | .faultRecordDeliver _ => true
  | .invalidationStart _ _ => true
  | .invalidationDone _ => true
  | .preempt _ _ => true
  | .coreSaveDone _ => true
  | .restore _ _ => true
  | .coreRestoreDone _ => true
  | .grpResume _ _ _ => true
  | .grpKill _ _ _ => true
  | .dpost _ _ w => opc w 0x71 0x71
  | .dpostSlotFree _ _ => true
  | .dmaCopy _ => true
  | .dmaFill _ => true
  | .dmaReduce _ => true
  | .dmaDiscard _ => true
  | .dmaSync _ => true
  | .dmaElementIssue _ => true
  | .dmaElementCommit _ _ => true
  | .dmaBusError _ _ => true
  | .dmaCtrlResume _ _ => true
  | .dmaCtrlDiscard _ _ => true
  | .dmaCtrlFlush _ _ => true
  | .dmaCtrlClrHalt _ _ => true
  | .abortContext _ _ _ => true
  | .abortPartition _ _ _ => true
  | .abortDevice _ _ => true
  | .abortForceHoldouts ix => decide (ix < 8)
  | .abortComplete ix => decide (ix < 8)
  | .abortEscalation _ => true
  | .queueAppend _ _ word _ => decide (word.length = 8)
  | .queueClose _ _ word _ => decide (word.length = 8)
  | .queueTake _ _ => true
  | .queueClear _ _ _ => true
  | .queueSpaceRelease _ _ _ => true
  | .packetTimeout _ _ _ => true
  | .syncSignal _ _ _ => true
  | .syncWait _ _ _ _ => true
  | .syncTest _ _ => true
  | .syncReset _ _ => true
  | .syncArm _ _ _ => true
  | .syncWaitTimeout _ _ => true
  | .syncObjectFail _ => true
  | .qput _ _ w => opc w 0x78 0x78
  | .qget _ _ w => opc w 0x79 0x79
  | .ssig _ _ w => opc w 0x7A 0x7A
  | .swait _ _ w => opc w 0x7B 0x7B
  | .stest _ _ w => opc w 0x7C 0x7C
  | .srst _ _ w => opc w 0x7D 0x7D
  | .frameReceive _ lanes _ => decide (lanes.length = 9 ∧ ∀ st ∈ lanes, st.length = 0 ∨ st.length = 168 ∨ st.length = 336)
  | .markerCodeAccept _ => true
  | .flitReceive _ flit => decide (flit.length = 256)
  | .flitSlotTransmit _ => true
  | .replayStart _ => true
  | .noDecodeTimeout _ => true
  | .retrain _ => true
  | .portTraining _ x => match x with
    | .order markers _ => decide (markers.length = 9)
    | .verify errTx errRx => decide (errTx.length = 9 ∧ errRx.length = 9)
    | _ => true
  | .initReceive _ payload => decide (payload.length = 16)
  | .laneFail _ _ => true
  | .laneReplace _ _ _ => true
  | .widthDegrade _ => true
  | .standbyRetune _ _ => true
  | .linkEnable _ _ => true
  | .linkDisable _ _ => true
  | .linkRetrain _ _ => true
  | .mgmtQueueArrive _ pkt => packet pkt [8] none
  | .packetRoute _ _ pkt => pktWf pkt
  | .fabricPut _ pkt => packet pkt [1] none
  | .fabricGet _ pkt => packet pkt [2] none
  | .fabricAtomic _ pkt => packet pkt [3] none
  | .fabricReduce _ pkt => packet pkt [4] none
  | .fabricSyncSignal _ pkt => packet pkt [5] (some 0)
  | .fabricSyncWait _ pkt => packet pkt [5] (some 1)
  | .fabricSyncTest _ pkt => packet pkt [5] (some 2)
  | .fabricSyncReset _ pkt => packet pkt [5] (some 3)
  | .fabricQmsg _ pkt => packet pkt [6] none
  | .collReady _ pkt => packet pkt [7] (some 0)
  | .collChunk _ pkt => packet pkt [7] (some 1)
  | .collCancel _ pkt => packet pkt [7] (some 2)
  | .fabricRequestIssue _ _ pkt => packet pkt [1, 2, 3, 4, 5, 6, 7, 8] none
  | .fabricAck _ pkt => packet pkt [0x81] none
  | .fabricData _ pkt => packet pkt [0x82] none
  | .fabricNack _ pkt => packet pkt [0x83] none
  | .requestTimeout _ _ => true
  | .nackRetry _ _ => true
  | .requestGiveUp _ _ => true
  | .collQueueTake _ _ => true
  | .abfCollPostHiWrite _ _ _ => true
  | .collStart _ => true
  | .collRound _ => true
  | .collTimeout _ => true
  | .mgmtHello _ payload => decide (payload.length = 16)
  | .mgmtLink payload => decide (payload.length = 16)
  | .cmdRegRead cmd => command cmd 1
  | .cmdRegWrite cmd => command cmd 2
  | .cmdAbort cmd => command cmd 3
  | .cmdReset cmd => command cmd 4
  | .cmdAttest cmd => command cmd 5
  | .powerOn _ _ => true
  | .optionsRead => true
  | .imageVerify => true
  | .memoryTest fails => decide fails.Nodup
  | .bundleCal sweeps => decide (sweeps.listed.map fun x => (x.1, x.2.1, x.2.2.1)).Nodup && windowIn sweeps.rest.1 sweeps.rest.2
      && decide (sweeps.rest.2 ≠ 0)
      && sweeps.listed.all fun x => windowIn x.2.2.2.1 x.2.2.2.2
  | .kaolin fails => decide fails.Nodup
  | .distribute => true
  | .config => true
  | .ready => true
  | .fwAnnounce _ x => firmware x 1
  | .fwRequest _ x => firmware x 2
  | .fwData _ x => firmware x 3
  | .fwEnd _ x => firmware x 4
  | .fwNeed _ x => firmware x 5
  | .fwDone _ x => firmware x 6
  | .announceTimer => true
  | .fwChunkTimeout => true
  | .noUpstreamTimeout => true
  | .stageHoldEnd => true
  | .fuseWindowOpen => true
  | .flashWindowOpen => true
  | .attestSignDone => true
  | .perstNAssert => true
  | .perstNDeassert => true
  | .rstRequestL0 _ _ _ => true
  | .rstRequestL1 _ _ _ => true
  | .rstRequestL2 _ _ _ => true
  | .rstRequestL3 _ _ => true
  | .rstRequestL4 _ _ => true
  | .partitionResetRelease _ _ => true
  | .l3DrainEnd => true
  | .l4Release => true
  | .partitionWatchdogExpiry _ => true
  | .mgmtWatchdogExpiry => true
  | .rstWdogKick _ _ => true
  | .blockResetAry0 _ _ => true
  | .blockResetAry1 _ _ => true
  | .blockResetDma _ _ => true
  | .blockResetTge _ _ => true
  | .blockResetL1 _ _ => true
  | .blockResetXlt _ _ => true
  | .blockResetColl _ _ => true
  | .blockResetDone coll unit _ => !coll || decide (unit.val < 6)
  | .siteRetire _ _ => true
  | .retireSpareReady _ _ => true
  | .siltTrapDiscard _ _ => true
  | .loessRowRepair _ _ _ => true
  | .loessColumnRepair _ _ _ => true
  | .repairLogWrite => true
  | .sensorSample _ _ => true
  | .sensorSuspect _ => true
  | .sensorRecover _ => true
  | .orderlyStopCutoff => true
  | .orderlyStopHalt => true
  | .haltRecovery => true
  | .tripLatchClear => true
  | .pcieConfigRequest _ _ => true
  | .bar0Access _ op => barWf op
  | .bar2Access _ op _ => barWf op
  | .functionLevelReset => true
  | .hotReset => true
  | .pcieLinkDown => true
  | .d3hotEntry => true
  | .d0Return => true
  | .msixPendingSend _ => true
  | .hstEventWrite _ _ => true
  | .hstSynFiredRead _ => true
  | .doeDiscovery _ => true
  | .doeAttest payload => decide (payload.length % 4 = 0)
  | .doeIdkey payload => decide (payload.length % 4 = 0)
  | .doeAbort => true
  | .flashRead _ ctrl => flashStart ctrl 1
  | .flashProgram _ ctrl => flashStart ctrl 2
  | .flashErase4k _ ctrl => flashStart ctrl 3
  | .flashErase64k _ ctrl => flashStart ctrl 4
  | .flashOpDone _ => true
  | .i3cDynamicAddress _ _ => true
  | .i3cSetIndex _ => true
  | .i3cRead words => decide (words ≤ 256)
  | .i3cTelemetryRefresh => true
  | .jtagBypass => true
  | .jtagIdcode => true
  | .jtagSamplePreload preload => (match preload with | none => true | some l => decide (l.map (·.1)).Nodup)
  | .jtagExtest => true
  | .jtagClamp => true
  | .jtagHighz => true
  | .jtagExtestPulse => true
  | .jtagExtestTrain => true
  | .jtagRegAccess _ _ _ => true
  | .jtagTestLogicReset => true
  | .vaonLoss => true
  | .vioLoss => true
  | .siteResetDone _ => true
  | .mgmtWatchdogRearm => true
  | .storeAcknowledge _ _ _ => true
  | .persistWriteDone => true
  | .pcieLinkUp _ => true
  | .vioReturn => true

end Sys2Proof
end

