-- ==== Sys2Proof/Certificates/Slice0/Obligations.lean ====
section
/-! DEFINITION. The statements for the provers, one `def Obligations.<Name> : Prop` each. They speak of commands run by
`exec`, of `step`, and of the state's own accessors. -/

open Sys2Proof Sys2Proof.Machine

/-! ### The queue, device time, registers -/

/-- A step takes the command at the front of the queue and runs it on the state whose queue is the rest. -/
def Obligations.StepRunsFrontCommand : Prop :=
  ∀ (c : Instr) (s : State), step { s with pending := c :: s.pending } = exec c s

/-- R65 and R66 on an empty queue (a tick there is the model's choice, log 1): where no retirement, no owed completion, wait or notice and no
pending home operation waits, only the time
base changes. Device time advances by 1, or by 0 or 2 where 1 ns of the phase still owed is slewed, at most once in
10 µs; it never decreases.
R68, R383 to R385: the loss and return of TB_REF, the mark that falls due on a port, the frame that begins it with its stamp and TIME_X, and an exchange that steers the time base: the
offset measured is θ; before READY the time base steps by it once, afterwards it slews by −θ and never steps (R66). -/
def Obligations.DeviceTime : Prop :=
  (∀ s : State, s.pending = [] → (∀ j < 96, (s.getSite j).retireDue = false) → s.rst.owed = [] →
    (∀ p < 4, (s.getPart p).arrivals = []) → (∀ x ∈ s.queues, x.2.owed = []) →
    (∀ x ∈ s.slices, ∀ e ∈ x.2.sets, ∀ t ∈ e.2, t.ops = []) → now s + 2 < 2 ^ 64 →
    ∃ t, step s = .next t ∧ t = { s with skt := { s.skt with time := t.skt.time, slew := t.skt.slew, slewAt := t.skt.slewAt } } ∧
      now s ≤ now t ∧ now t ≤ now s + 2 ∧
      (s.skt.slew.natAbs < 16 → now t = now s + 1) ∧
      (now t ≠ now s + 1 →
        t.skt.slew.natAbs + 16 = s.skt.slew.natAbs ∧ s.skt.slewAt.toNat + 10000 ≤ now s ∧ t.skt.slewAt = s.skt.time)) ∧
  (∀ s : State, exec .tbRefLoss s = .next { s with skt := { s.skt with refLoss := true, holdover := true } }) ∧
  (∀ s : State, ∃ t, exec .tbRefRestore s = .next t ∧ t.skt.holdover = false ∧ t.skt.refLoss = s.skt.refLoss ∧
      t.skt.time = s.skt.time ∧ t = { s with skt := t.skt }) ∧
  (∀ (k : Port) (s : State), inService (s.getPort k) = true → (s.getPort k).markDue.all (fun d => decide (d.toNat + 1000000 ≤ now s)) = true →
    ∃ t, exec (.timeMarkSend k) s = .next t ∧ t = { s with ports := t.ports } ∧ 0x30 ∈ (t.getPort k).txDue ∧
      (t.getPort k).markDue = some s.skt.time) ∧
  (∀ (k : Port) (s : State), let x := s.getPort k
    inService x = true → x.txFrame = [] → x.txDue = [0x30] → x.txRun = 0 → x.markDue.all (fun d => decide (now s ≤ d.toNat + 500000)) = true →
    x.replayAt = none → x.retry.length < 512 → x.initDue = [] → (∀ v < 6, Tbl.get [] x.txq v = []) → (Tbl.get [] s.net.tids 2).length < 4096 →
    ∃ t q, exec (.flitSlotTransmit k) s = .next t ∧
      t = { s with ports := t.ports, parts := t.parts, seams := t.seams, routers := t.routers, net := { s.net with drawn := s.net.drawn + 1, tids := t.net.tids }, tx := .packet (some k) 5 q :: s.tx } ∧
      q.op = 8 ∧ q.arg = 2 ∧ getBit q.flags 6 = true ∧ ofLe (q.payload.take 8) = (t.getPort k).markTx.toNat ∧
      (now s < 2 ^ 60 → (t.getPort k).markTx.toNat / 16 = now s ∧ (t.getPort k).markTx.toNat % 4 = 0) ∧
      (t.getPort k).markSeq = x.markSeq + 1 ∧ (t.getPort k).txMark = 0x30 ∧ (t.getPort k).txRun = 1) ∧
  (∀ (k : Port) (x : TimeXPayload) (fl : Byte) (t2 : W64) (s : State), (s.getPort k).heard = some t2 → inService (s.getPort k) = true → s.bru.stage.toNat = 9 →
    (chooseUpstream ((takeMgmt 2 (some k.val) s).modPort k (hearTime x t2))).skt.upstream.toNat = k.val →
    x.rxSeq = (s.getPort k).markSeq → (s.getPort k).markSeq ≠ 0 →
    ∃ t, exec (.timeX k x fl) s = .next t ∧ t.skt.time = s.skt.time ∧
      t.skt.slew = -timeOffset x t2 (s.getPort k).markTx (s.getPort k).asym ∧
      t.skt.offset = BitVec.ofInt 32 (timeOffset x t2 (s.getPort k).markTx (s.getPort k).asym) ∧
      (t.skt.synced = true ↔ (timeOffset x t2 (s.getPort k).markTx (s.getPort k).asym).natAbs ≤ 320)) ∧
  (∀ (k : Port) (x : TimeXPayload) (fl : Byte) (t2 : W64) (s : State), (s.getPort k).heard = some t2 → inService (s.getPort k) = true → s.bru.stage.toNat < 9 →
    s.skt.stepped = false →
    (chooseUpstream ((takeMgmt 2 (some k.val) s).modPort k (hearTime x t2))).skt.upstream.toNat = k.val →
    x.rxSeq = (s.getPort k).markSeq → (s.getPort k).markSeq ≠ 0 →
    ∃ t, exec (.timeX k x fl) s = .next t ∧ t.skt.stepped = true ∧ t.skt.slew = 0 ∧
      t.skt.time = BitVec.ofInt 64 ((now s : Int) - (timeOffset x t2 (s.getPort k).markTx (s.getPort k).asym + 8) / 16))

/-- R16 and R17: a selector write changes the copy of the requester that issues it for that unit, and nothing else.
R9, R12, R474, R497 and R432 on registers the device gives a value to store: a word written is read back whole by any
aligned or narrow read of it, every other word of its group keeps its value, and nothing else changes. A narrow write is
ignored. The registers: the flash buffer (the host) and the backup registers (the host and the management core).
R69, R324 and R484: the reads that change the state. A read of SKT_TIME_LO, of SYN_VALUE_LO or of HST_SYN_FIRED returns
the value and changes only the latch of its own requester, or, for the host, the FIFO. -/
def Obligations.RegisterAccess : Prop :=
  (∀ (r : Req) (u : Fin 16) (val : W32) (s : State), skotrumHeld s = false →
    ∃ t, exec (.selectorWrite r u val) s = .next t ∧ t = { s with sel := t.sel } ∧
      selOf t r.val u.val = val.toNat % 2 ^ 16 ∧
      ∀ (r' : Req) (u' : Fin 16), (r', u') ≠ (r, u) → selOf t r'.val u'.val = selOf s r'.val u'.val) ∧
  (∀ (k : Fin 32) (val : W32) (b : Nat) (r' : Req) (s : State), skotrumHeld s = false → b < 4 →
    ∃ t, exec (.registerWrite 0 0 (BitVec.ofNat 16 (0x080 + 4 * k.val)) val false) s = .next t ∧
      t = { s with hst := { s.hst with flashData := t.hst.flashData } } ∧
      (regRead r'.val 0 (0x080 + 4 * k.val + b) t).2 = val ∧
      ∀ k' : Fin 32, k' ≠ k → regValue t r'.val 0 (0x080 + 4 * k'.val) = regValue s r'.val 0 (0x080 + 4 * k'.val)) ∧
  (∀ (r r' : Req) (k : Fin 32) (val : W32) (s : State), skotrumHeld s = false → r.val ≤ 1 →
    ∃ t, exec (.registerWrite r 3 (BitVec.ofNat 16 (0x040 + 4 * k.val)) val false) s = .next t ∧
      t = { s with rst := { s.rst with backup := t.rst.backup } } ∧
      (∀ b < 4, (regRead r'.val 3 (0x040 + 4 * k.val + b) t).2 = val) ∧
      ∀ k' : Fin 32, k' ≠ k → regValue t r'.val 3 (0x040 + 4 * k'.val) = regValue s r'.val 3 (0x040 + 4 * k'.val)) ∧
  (∀ (r : Req) (win : Fin 4096) (off : BitVec 16) (val : W32) (s : State), exec (.registerWrite r win off val true) s = .next s) ∧
  (∀ (r : Req) (s : State), skotrumHeld s = false →
    ∃ t, exec (.sktTimeLoRead r) s = .next t ∧
      t = { s with skt := { s.skt with latch := t.skt.latch }, tx := .regData r (s.skt.time.truncate 32) :: s.tx } ∧
      regValue t r.val 1 0x014 = (s.skt.time >>> 32).truncate 32 ∧
      ∀ r' : Req, r' ≠ r → regValue t r'.val 1 0x014 = regValue s r'.val 1 0x014) ∧
  (∀ (r : Req) (s : State), skotrumHeld s = false → selOf s r.val 15 < 4224 →
    ∃ t, exec (.synValueLoRead r) s = .next t ∧
      t = { s with synLatch := t.synLatch, tx := .regData r ((synInst s (selOf s r.val 15)).counter.truncate 32) :: s.tx } ∧
      regValue t r.val 15 0x108 = ((synInst s (selOf s r.val 15)).counter >>> 32).truncate 32 ∧
      ∀ r' : Req, r' ≠ r → Tbl.get 0 t.synLatch r'.val = Tbl.get 0 s.synLatch r'.val) ∧
  (∀ (e : BitVec 13) (l : List (BitVec 13)) (s : State), skotrumHeld s = false → s.hst.synFired = e :: l →
    ∃ t, exec (.hstSynFiredRead 0) s = .next t ∧
      t = { s with hst := { s.hst with synFired := l, synOver := s.hst.synOver && !l.isEmpty }, tx := t.tx } ∧
      t.tx = .regData 0 (regValue s 0 0 0x038) :: s.tx) ∧
  (∀ (r : Req) (s : State), r ≠ 0 → exec (.hstSynFiredRead r) s = .next (send (.regData r (regValue s r.val 0 0x038)) s))

/-- R18: with ABSENT set in the requester's copy, the offsets from 0x100 up read 0 and ignore writes. -/
def Obligations.AbsentInstanceSilent : Prop :=
  ∀ (r : Req) (u : Fin 16) (off : BitVec 16) (val : W32) (narrow : Bool) (s : State),
    getBit (regValue s r.val u.val 0) 31 = true → 0x100 ≤ off.toNat →
      (regRead r.val u.val off.toNat s).2 = 0 ∧
      exec (.registerWrite r (u.castLE (by decide)) off val narrow) s = .next s

/-! ### Vertical bundles (R71 to R77, R439) -/

/-- R72, R73 and Table 2.9, events 1 to 6: a rotation takes a bundle in service, one with a low margin before all others;
the comparisons and the sweep move it on; the sweep sets the line to t0 + max(8, ⌈w ÷ 4⌉) and saves the bundle's
calibration point. A group starts a rotation 250 µs after the last.
R75, R77 and R439: failing signals move to the bundle's two spare bonds, each recorded in the repair map; where these
do not suffice the bundle leaves service, and at its first lost bundle the port changes to half width, the site in service
is degraded, and REPAIR is reported. A group's lost spare bundle is such a loss too. -/
def Obligations.BundleUpkeep : Prop :=
  (∀ (j : Site) (k : Fin 8) (low : BitVec 32) (s : State), s.bru.ready = true → (s.getBgr (8 * j + k)).lost = false →
    (s.getBgr (8 * j + k)).rot = none → (s.getBgr (8 * j + k)).repair = [] →
    periodPassed s (s.getBgr (8 * j + k)).lastRot 250000 = true →
    (∃ b < 32, (s.getBun (bundleIx j k b)).out = false) →
    ∃ t b, exec (.bundleRotationStart j k low) s = .next t ∧ t = { s with bgroups := t.bgroups } ∧ b < 32 ∧
      (t.getBgr (8 * j + k)).rot = some { bundle := b, phase := .mirror, again := false } ∧
      (s.getBun (bundleIx j k b)).out = false ∧
      (∀ b' < 32, (s.getBun (bundleIx j k b')).out = false → getBit low b' = true → getBit low b = true ∧ b ≤ b') ∧
      ∀ i, i ≠ 8 * j.val + k.val → t.getBgr i = s.getBgr i) ∧
  (∀ (j : Site) (k : Fin 8) (b : Nat) (again : Bool) (s : State),
    (s.getBgr (8 * j + k)).rot = some { bundle := b, phase := .mirror, again := again } →
    ∃ t, exec (.rotationCompare j k true) s = .next t ∧ t = { s with bgroups := t.bgroups } ∧
      (t.getBgr (8 * j + k)).rot = some { bundle := b, phase := .sweep, again := again }) ∧
  (∀ (j : Site) (k : Fin 8) (b : Fin 33) (again : Bool) (t0 : BitVec 7) (w : Byte) (s : State),
    (s.getBgr (8 * j + k)).rot = some { bundle := b, phase := .sweep, again := again } →
    (s.getBgr (8 * j + k)).repair = [] → t0.toNat + max 8 ((w.toNat + 3) / 4) ≤ 127 →
    ∃ t, exec (.bundleSweep j k b (some (t0, w))) s = .next t ∧ t = { s with bundles := t.bundles, bgroups := t.bgroups } ∧
      (t.getBun (bundleIx j k b)).tap.toNat = t0.toNat + max 8 ((w.toNat + 3) / 4) ∧ (t.getBun (bundleIx j k b)).valid = true ∧
      (t.getBgr (8 * j + k)).rot = some { bundle := b, phase := .verify, again := again } ∧
      (t.getBun (bundleIx j k b)).width = w.toNat ∧ (t.getBun (bundleIx j k b)).temp.toNat = pointTemp s j % 2 ^ 16 ∧
      (t.getBun (bundleIx j k b)).vcore = (s.getGov (j / 24)).vcore.toNat ∧
      (t.getBun (bundleIx j k b)).vloess = (s.getGov (j / 24)).vloess.toNat ∧
      ∀ i, i ≠ bundleIx j k b → t.getBun i = s.getBun i) ∧
  (∀ (j : Site) (k : Fin 8) (b : Nat) (again equal : Bool) (s : State),
    (s.getBgr (8 * j + k)).rot = some { bundle := b, phase := .verify, again := again } → (s.getBgr (8 * j + k)).repair = [] →
    ∃ t, exec (.rotationCompare j k equal) s = .next t ∧ t = { s with bgroups := t.bgroups } ∧
      (t.getBgr (8 * j + k)).rot = none ∧ (t.getBgr (8 * j + k)).repair = if equal then [] else [b]) ∧
  (∀ (j : Site) (k : Fin 8) (b : Fin 33) (failing : List (Fin 34)) (s : State),
    (s.getBgr (8 * j + k)).repair.head? = some b.val →
    (s.getBun (bundleIx j k b)).bonds + failing.eraseDups.length ≤ 2 → s.rst.repairs.length + 2 ≤ 1023 →
    ∃ t, exec (.bundleRepair j k b failing) s = .next t ∧ t = { s with bundles := t.bundles, rst := t.rst } ∧
      t.rst = { s.rst with repairs := t.rst.repairs } ∧
      (t.getBun (bundleIx j k b)).bonds = (s.getBun (bundleIx j k b)).bonds + failing.eraseDups.length ∧
      t.rst.repairs.length = s.rst.repairs.length + failing.eraseDups.length) ∧
  (∀ (j : Site) (k : Fin 8) (b : Fin 33) (failing : List (Fin 34)) (s : State), b.val < 32 →
    (s.getBgr (8 * j + k)).repair.head? = some b.val → (s.getSite j).half = false → siteInService s j = true →
    2 < (s.getBun (bundleIx j k b)).bonds + failing.eraseDups.length →
    ∃ t, exec (.bundleRepair j k b failing) s = .next t ∧ (t.getBun (bundleIx j k b)).out = true ∧
      (t.getSite j).half = true ∧ siteStatus t j = 3 ∧ getBit t.hst.event 6 = true ∧
      (t.getBgr (8 * j + k)).repair = (s.getBgr (8 * j + k)).repair.tail) ∧
  (∀ (j : Site) (k : Fin 8) (s : State), (s.getBgr (8 * j + k)).lost = false → (s.getBgr (8 * j + k)).spareBad = true →
    (s.getSite j).half = false → siteInService s j = true →
    ∃ t, exec (.groupSpareLost j k) s = .next t ∧ (t.getBgr (8 * j + k)).lost = true ∧ (t.getSite j).half = true ∧
      siteStatus t j = 3 ∧ getBit t.hst.event 6 = true ∧ (t.getSite j).lostGroups = (s.getSite j).lostGroups + 1)

/-! ### Rates, power, time base (chapters 02, 09, 15) -/

/-- R56: the governor never lowers VCORE or VLOESS while r_min or s_min is at or below 1,320 steps/µs, never commands a
voltage outside its range, and a raise wins over a reduction. The voltages commanded before lie in their ranges. -/
def Obligations.GovernorNeverLowersBelowMargin : Prop :=
  ∀ (p : Tower) (s t : State), exec (.governorPeriod p) s = .next t →
    650 ≤ (s.getGov p).vcore.toNat → (s.getGov p).vcore.toNat ≤ 900 →
    700 ≤ (s.getGov p).vloess.toNat → (s.getGov p).vloess.toNat ≤ 900 →
    (lowest s (govSites s p) ≤ 1320 ∨ lowest s (govSlices s p) ≤ 1320 →
      (s.getGov p).vcore.toNat ≤ (t.getGov p).vcore.toNat ∧ (s.getGov p).vloess.toNat ≤ (t.getGov p).vloess.toNat) ∧
    (650 ≤ (t.getGov p).vcore.toNat ∧ (t.getGov p).vcore.toNat ≤ 900) ∧
    (700 ≤ (t.getGov p).vloess.toNat ∧ (t.getGov p).vloess.toNat ≤ 900) ∧
    (lowest s (govSites s p) < 1260 → (s.getGov p).vcore.toNat ≤ (t.getGov p).vcore.toNat) ∧
    (lowest s (govSlices s p) < 1260 → (s.getGov p).vloess.toNat ≤ (t.getGov p).vloess.toNat)

/-- The floor governor's period (chapter 02, R58, R60, R63), 10 µs after the last: with its partition out of reset and no
AVSBus fault it commands the voltages of the listing, and records r_min, s_min and the power; FLOOR_BAD counts the periods
below floor at the top of the range, and "at floor, over allotment" is reported. With an AVSBus fault the voltages stay.
R53, R54, R57, R60, R297, R468 and R469: a probe's reading, its lap count corrected by the fused factor, a pacer's release, a floor fault and its end, a monitor's sample,
and the ageing report. -/
def Obligations.FloorGovernor : Prop :=
  (∀ (p : Tower) (s : State), (s.getPart p).held = false → inReset s p = false →
    periodPassed s (s.getGov p).lastAt 10000 = true →
    650 ≤ (s.getGov p).vcore.toNat → (s.getGov p).vcore.toNat ≤ 900 → 5 ∣ (s.getGov p).vcore.toNat →
    700 ≤ (s.getGov p).vloess.toNat → (s.getGov p).vloess.toNat ≤ 900 → 5 ∣ (s.getGov p).vloess.toNat →
    ∃ t, exec (.governorPeriod p) s = .next t ∧
      (let v := (s.getGov p).vcore.toNat
       let u := (s.getGov p).vloess.toNat
       let r := lowest s (govSites s p)
       let m := lowest s (govSlices s p)
       let w := railPower (s.getGov p)
       let hot := highest s (govSites s p ++ govSlices s p)
       (t.getGov p).vcore.toNat =
         (if avsFault s p then v else if r < 1230 then min 900 (v + 25) else if r < 1260 then min 900 (v + 10)
          else if 1320 < r ∧ 1320 < m ∧ 650 < v ∧ ((s.getGov p).allot.toNat < w ∨ 1800 < hot) then v - 5 else v) ∧
       (t.getGov p).vloess.toNat =
         (if avsFault s p then u else if m < 1260 then min 900 (u + 10)
          else if 1320 < r ∧ 1320 < m ∧ 700 < u ∧ (s.getGov p).allot.toNat < w then u - 5 else u) ∧
       t.tx = (if (s.getGov p).allot.toNat < w ∧ ¬(1320 < r ∧ 1320 < m ∧ 650 < (t.getGov p).vcore.toNat)
         then .notify (0x200 + p) :: s.tx else s.tx) ∧
       (t.getGov p).rMin = BitVec.ofNat 11 r ∧ (t.getGov p).sMin = BitVec.ofNat 11 m ∧ (t.getGov p).power.toNat = w ∧
       ((t.getGov p).floorBad.toNat =
         if r < 1200 ∧ ((t.getGov p).vcore.toNat = 900 ∨ avsFault s p = true) then min 3 ((s.getGov p).floorBad.toNat + 1) else 0)) ∧
      t = { s with govs := t.govs, parts := t.parts, probes := t.probes, vmons := t.vmons, tx := t.tx }) ∧
  (∀ (i : Fin 192) (last low : BitVec 11) (s : State),
    ∃ t, exec (.probeReading i last low) s = .next t ∧ t = { s with probes := t.probes } ∧
      (t.getPrb i).laps = last.toNat ∧ (t.getPrb i).last = corrected s i last.toNat ∧
      (t.getPrb i).low.toNat = (if (s.getPrb i).fresh = true
        then min (s.getPrb i).low.toNat (corrected s i low.toNat).toNat else (corrected s i low.toNat).toNat) ∧
      (t.getPrb i).seen = true ∧ (t.getPrb i).fresh = true ∧
      ∀ k, k ≠ i.val → t.getPrb k = s.getPrb k) ∧
  (∀ (p : Tower) (pipe : Nat) (s : State), 0 < Tbl.get 0 (s.getGov p).waits pipe → (recentStarts s p pipe).length < 1800 →
    ∃ t, exec (.pacerRelease p pipe) s = .next t ∧ t = { s with govs := t.govs } ∧ paceHolds t p pipe = false) ∧
  (∀ (p : Tower) (s : State), (s.getGov p).floorBad = 3 → (s.getPart p).floorFault = false →
    ∃ t, exec (.floorFault p) s = .next t ∧ (t.getPart p).floorFault = true ∧ (t.getPart p).floorSeen = true ∧
      getBit t.hst.event 2 = true ∧ .floorReport p (s.getGov p).rMin (s.getGov p).vcore ∈ t.tx ∧
      ∀ q, q ≠ p.val → t.getPart q = s.getPart q) ∧
  (∀ (p : Tower) (s : State), (s.getPart p).floorFault = true → (s.getPart p).floorFixed = false → 100 ≤ (s.getPart p).clearRun →
    ∃ t, exec (.floorFaultClear p) s = .next t ∧ (t.getPart p).floorFault = false ∧
      (t.getPart p).floorSeen = (s.getPart p).floorSeen ∧ getBit t.hst.event 2 = true) ∧
  (∀ (tw : Tower) (m : Fin 6) (mv : BitVec 11) (s : State), (s.getVmn (8 * tw + m)).outRun ≤ 9 →
    periodPassed s (s.getVmn (8 * tw + m)).at_ 1000 = true →
    ∃ t, exec (.vmonSample tw m mv) s = .next t ∧ t = { s with vmons := t.vmons } ∧ (t.getVmn (8 * tw + m)).last = mv ∧
      ((t.getVmn (8 * tw + m)).out = true ↔
        (s.getVmn (8 * tw + m)).outRun = 9 ∧ (mv.toNat < (if m.val < 4 then 640 else 690) ∨ 910 < mv.toNat)) ∧
      ∀ k, k ≠ 8 * tw.val + m.val → t.getVmn k = s.getVmn k) ∧
  (∀ (p : Tower) (t0 : W64) (s : State), (s.getGov p).highFrom = some t0 → (s.getGov p).ageing = false →
    t0.toNat + 3600000000000 ≤ now s →
    ∃ t, exec (.ageingDetect p) s = .next t ∧ (t.getGov p).ageing = true ∧ getBit t.hst.event 4 = true)

/-- R59, R466, R298 and Table 9.5: an update, 100 µs after the last, sums the package power, gives a partition that is not
thermally throttled its share with what the others leave unused, and moves the ladder of one that was over in every period
since the last update by one stage; the shares and the other rails never sum above 600 W less 10 W. The stage down from 2
clears the arrays' throttle cause.
R62 to R64 and R467: a command the interface allows goes out as one frame and clears the count of retries; a voltage write
is the oldest the governor has due. The fourth response missed in a row is the interface's AVSBus fault. A regulator
fault after stage OPTIONS sets the fault bit of its rail and notifies the host. -/
def Obligations.PowerAndRails : Prop :=
  (∀ (s : State), otherPower s ≤ 5900 → ((List.range 4).map (offeredShare s)).sum + otherPower s ≤ 5900) ∧
  (∀ (s : State), periodPassed s s.pwr.allotAt 100000 = true → ∃ t, exec .allotmentUpdate s = .next t ∧
      (∀ p < 4, getBit s.thm.throttle p = false → (∀ i ∈ partJunctions p, effOf s i < 1520) →
        (t.getGov p).allot = BitVec.ofNat 16 (offeredShare s p)) ∧
      t.pwr.pkg.toNat = min 65535 (otherPower s + ((List.range 4).map fun p => readPower (s.getGov p)).sum) ∧
      t.pwr.pkgMax.toNat = max s.pwr.pkgMax.toNat t.pwr.pkg.toNat ∧
      ∀ p < 4, ((t.getGov p).overAll = true ∧ (t.getGov p).periods = 0) ∧
        ((t.getPart p).stage.toNat =
          if (s.getGov p).overAll = true ∧ 0 < (s.getGov p).periods ∧ (s.getPart p).stage ≠ 3 then (s.getPart p).stage.toNat + 1
          else (s.getPart p).stage.toNat)) ∧
  (∀ (p : Tower) (s : State), (s.getPart p).stage ≠ 0 → 10 ≤ (s.getPart p).calm →
    ∃ t, exec (.ladderStageDown p) s = .next t ∧ t = { s with parts := t.parts, arys := t.arys } ∧
      (t.getPart p).stage = (s.getPart p).stage - 1 ∧ (t.getPart p).calm = 0 ∧
      ((s.getPart p).stage = 2 → ∀ k < 48, getBit (t.getAry (48 * p + k)).cause 1 = false) ∧
      ((s.getPart p).stage ≠ 2 → t.arys = s.arys)) ∧
  (∀ (p : Tower) (r : Fin 2) (mv : BitVec 16) (due : List (Nat × Nat)) (s : State), s.pwr.vioDown = false →
    (s.getGov p).due = (r.val, mv.toNat) :: due →
    ∃ t, exec (.avsCommand (p.castLE (by decide)) (r.castLE (by decide)) 0 mv) s = .next t ∧
      t = { s with govs := t.govs, pwr := t.pwr, tx := .avs p r 0 mv :: s.tx } ∧ (t.getGov p).due = due) ∧
  (∀ (i : Fin 5) (r : Fin 6) (cmd : Fin 5) (v : BitVec 16) (s : State), avsIssues s i r cmd v.toNat = true →
    ∃ t, exec (.avsCommand i r cmd v) s = .next t ∧ t.tx = .avs i r cmd v :: s.tx ∧ getBit t.pwr.noResp i = false ∧
      Tbl.get 0 t.pwr.tries i = 0) ∧
  (∀ (p : Tower) (r : Fin 2) (cmd : Fin 5) (v : BitVec 16) (s : State), s.pwr.vioDown = false → (s.getGov p).due = [] →
    (cmd = 1 ∨ cmd = 3) →
    ∃ t, exec (.avsCommand (p.castLE (by decide)) (r.castLE (by decide)) cmd v) s = .next t ∧
      Tbl.get 0 (if cmd = 1 then (t.getGov p).back else (t.getGov p).amps) r = v.toNat) ∧
  (∀ (i : Fin 5) (s : State), Tbl.get 0 s.pwr.tries i < 3 →
    ∃ t, exec (.avsResponseTimeout i) s = .next t ∧ t = { s with pwr := { s.pwr with tries := t.pwr.tries } } ∧
      Tbl.get 0 t.pwr.tries i = Tbl.get 0 s.pwr.tries i + 1) ∧
  (∀ (i : Fin 5) (s : State), Tbl.get 0 s.pwr.tries i = 3 → avsFault s i = false →
    ∃ t, exec (.avsResponseTimeout i) s = .next t ∧ avsFault t i = true ∧ getBit t.hst.event 4 = true ∧
      ∀ p : Tower, (t.getGov p).vcore = (s.getGov p).vcore ∧ (t.getGov p).vloess = (s.getGov p).vloess) ∧
  (∀ (p : Tower) (r : Fin 2) (s : State), s.pwr.vioDown = false → 1 < s.bru.stage.toNat → (s.getGov p).due = [] → pollDue s p r = true →
    ∃ t, exec (.regulatorStatusPoll (p.castLE (by decide)) (r.castLE (by decide)) true) s = .next t ∧ avsFault t p = true ∧
      getBit t.hst.event 4 = true) ∧
  (∀ (r : Fin 6) (s : State), s.pwr.vioDown = false → 1 < s.bru.stage.toNat → r ≠ 3 → r ≠ 5 → pollDue s 4 r = true → s.thm.stopping = false →
    s.thm.halted = false → s.thm.trip = false →
    ∃ t, exec (.regulatorStatusPoll 4 r true) s = .next t ∧ getBit t.pwr.vrFault r = true ∧ t.thm.stopping = true ∧
      t.thm.cause = 2 ∧ getBit t.hst.event 4 = true)

/-! ### Temperature (chapter 15) -/

/-- R450, R453, R454: a valid reading of a trusted sensor below 99 °C is its raw and its effective value, whatever the
neighbours read; it starts nothing, and no other sensor changes.
R453: an invalid sample, or the third deviating one in a row, makes a sensor suspect and counts the event; the third such
event latches it. 100 good samples in a row end the suspicion of a sensor that is not latched. (A trip or a
stop that its effective value then sets off is stated apart.)
Table 15.2, R459, R462, R493: at 102 °C a trusted junction sensor starts an orderly stop that names it; at 110 °C it sets the
trip latch and ends the stop. The management controller is told by an in-band interrupt. -/
def Obligations.SensorHub : Prop :=
  (∀ (i : Sensor) (v : BitVec 16) (s : State), i.val < 192 → -640 ≤ v.toInt → v.toInt < 1584 →
    (s.getSen i).suspect = false → (s.getSen i).bad.toNat < 2 → sampleDue s i = true →
    ∃ t, exec (.sensorSample i (some v)) s = .next t ∧ t = { s with sens := t.sens, thm := t.thm } ∧
      t.thm = { s.thm with coolFrom := t.thm.coolFrom, tripFrom := t.thm.tripFrom } ∧
      (t.getSen i).raw = v ∧ (t.getSen i).eff = v ∧ (t.getSen i).invalid = false ∧ (t.getSen i).suspect = false ∧
      (t.getSen i).hist.head? = some (s.skt.time, v) ∧ ∀ k, k ≠ i.val → t.getSen k = s.getSen k) ∧
  (∀ (i : Sensor) (s : State), i ≠ 254 → (s.getSen i).suspect = false → sampleDue s i = true → s.thm.trip = false →
    ∃ t, exec (.sensorSample i none) s = .next t ∧ (t.thm.trip = false →
      (t.getSen i).suspect = true ∧ (t.getSen i).invalid = true ∧ (t.getSen i).raw = 0x8000 ∧
      (t.getSen i).events = inc8 (s.getSen i).events ∧ -640 ≤ (t.getSen i).eff.toInt)) ∧
  (∀ (i : Sensor) (s : State), i ≠ 254 → (s.getSen i).suspect = false → 3 ≤ (s.getSen i).bad.toNat → s.thm.trip = false →
    ∃ t, exec (.sensorSuspect i) s = .next t ∧ (t.thm.trip = false → (t.getSen i).suspect = true ∧
      (t.getSen i).events = inc8 (s.getSen i).events ∧
      ((s.getSen i).events = 2 → (t.getSen i).latched = true))) ∧
  (∀ (i : Sensor) (s : State), i.val < 192 → 100 ≤ (s.getSen i).good → (s.getSen i).suspect = true →
    (s.getSen i).latched = false → (s.getSen i).invalid = false → (s.getSen i).raw.toInt < 1584 →
    ∃ t, exec (.sensorRecover i) s = .next t ∧ (t.getSen i).suspect = false ∧ (t.getSen i).bad = 0 ∧
      (t.getSen i).eff = (s.getSen i).raw ∧ ∀ k, k ≠ i.val → t.getSen k = s.getSen k) ∧
  (∀ (i : Sensor) (v : BitVec 16) (s : State), junction i = true → i.val < 192 → 1632 ≤ v.toInt → v.toInt < 1760 →
    (s.getSen i).suspect = false → (s.getSen i).bad.toNat < 2 → sampleDue s i = true →
    s.thm.stopping = false → s.thm.halted = false → s.thm.trip = false →
    ∃ t, exec (.sensorSample i (some v)) s = .next t ∧ t.thm.stopping = true ∧ t.thm.cause = 1 ∧ t.thm.sensor.toNat = i.val ∧
      t.thm.t0 = s.skt.time ∧ getBit t.hst.event 3 = true ∧ Sent.ibi 1 ∈ t.tx) ∧
  (∀ (i : Sensor) (v : BitVec 16) (s : State), junction i = true → i.val < 192 → 1760 ≤ v.toInt → v.toInt ≤ 2400 →
    (s.getSen i).suspect = false → (s.getSen i).bad.toNat < 2 → sampleDue s i = true → s.thm.trip = false →
    ∃ t, exec (.sensorSample i (some v)) s = .next t ∧ t.thm.trip = true ∧ t.thm.stopping = false ∧ Sent.ibi 3 ∈ t.tx)

/-- Table 15.3, events 5 to 7, R302, R459, R460 and R463: the cut-off voids every task that is not complete, but for one whose fault is already reported; the halt empties the task
tables, holds the partitions and puts the stacks into self-refresh; recovery requests an L3, and the trip latch clears
after its time. -/
def Obligations.OrderlyStop : Prop :=
  (∀ (s : State), s.thm.stopping = true → s.thm.cut = false → s.thm.haltAt - flushNs s ≤ now s →
    ∃ t, exec .orderlyStopCutoff s = .next t ∧ t.thm.cut = true ∧ t.thm.event = 5 ∧ t.thm.stopping = true ∧
      ∀ (p : Tower) (e : TaskIx) (k : Task), getTask s p e = some k → k.ending = none → k.ended ≠ k.sites * k.groups →
        ∃ k', getTask t p e = some k' ∧ k'.ending = some ((pendingFault s { p := p, e := e }).getD (3, 0x13, 0))) ∧
  (∀ (s : State), s.thm.stopping = true → s.thm.haltAt ≤ now s →
    ∃ t, exec .orderlyStopHalt s = .next t ∧ t.thm.halted = true ∧ t.thm.stopping = false ∧ t.thm.event = 7 ∧
      t.mrl.selfRef = 0xF ∧ getBit t.hst.event 3 = true ∧ Sent.ibi 2 ∈ t.tx ∧
      ∀ p : Tower, (t.getPart p).tasks = [] ∧ (t.getPart p).held = true ∧ inReset t p = true) ∧
  (∀ (s : State) (c : W64), s.thm.coolFrom = some c → s.thm.halted = true → c.toNat + 10000000000 ≤ now s → s.rst.l4held = false →
    (∀ r ∈ s.rst.running, r.level < 3) →
    ∃ t, exec .haltRecovery s = .next t ∧ t.rst.inReset = 0xF ∧ ∃ r ∈ t.rst.running, r.level = 3 ∧ r.source = 0xFE) ∧
  (∀ (s : State) (c : W64), s.thm.tripFrom = some c → s.thm.trip = true → c.toNat + 1000000000 ≤ now s →
    ∃ t, exec .tripLatchClear s = .next t ∧ t = { s with thm := { s.thm with trip := false, tripFrom := none } })

/-! ### Resets (chapter 14) -/

/-- R416, R420, R424 and R426 at L0 and L1: a permitted request resets every unit of the site, or of each enabled site of the
cluster: its groups, arrays and channels stand at their reset values and the site is in reset; the reset history names it.
R416, R420, R424 to R426 at L2 to L4: a permitted request at L2 fences the partition and empties its task table and its
sites; at L3 every partition is in reset; at L4 every domain is held and nothing but what no L4 clears is left.
R420 and R424: a request with a wrong key has no effect but its count: a partition controller's in its own partition's
register-error count, any other in HST_REG_ERR_DEV. The test port's writes are ignored. -/
def Obligations.ResetRequests : Prop :=
  (∀ (r : Req) (j : Site) (s : State), mayReset s r 0 (j / 24) → s.fuses.sitesOff.contains j.val = false →
    9 ≤ s.bru.stage.toNat → siteResetting s j = false →
    ∃ t e, exec (.rstRequestL0 r 0xA5 (BitVec.ofNat 8 j)) s = .next t ∧ (t.getSite j).mode = 4 ∧
      (∀ k < 24, t.getGrp (gIx j k) = {}) ∧ (∀ a < 2, t.getAry (2 * j + a) = {}) ∧ (∀ c < 4, t.getDma (4 * j + c) = {}) ∧
      t.rst.history.head? = some e ∧ e.level = 0 ∧ e.target.toNat = j.val ∧ e.time = s.skt.time ∧ e.discarded = false ∧
      siteStatus t j = siteStatus s j) ∧
  (∀ (r : Req) (c : Fin 16) (s : State), mayReset s r 1 (c / 4) → 9 ≤ s.bru.stage.toNat →
    (∃ j ∈ clusterSites c, s.fuses.sitesOff.contains j = false) → (∀ j ∈ clusterSites c, siteResetting s j = false) →
    ∃ t e, exec (.rstRequestL1 r 0xA5 (BitVec.ofNat 8 c)) s = .next t ∧ t.rst.history.head? = some e ∧ e.level = 1 ∧
      e.target.toNat = c.val ∧
      ∀ j ∈ clusterSites c, s.fuses.sitesOff.contains j = false → (t.getSite j).mode = 4 ∧
        (∀ k < 24, t.getGrp (gIx j k) = {}) ∧ (∀ a < 2, t.getAry (2 * j + a) = {}) ∧ (∀ d < 4, t.getDma (4 * j + d) = {})) ∧
  (∀ (r : Req) (p : Tower) (s : State), mayReset s r 2 4 → 9 ≤ s.bru.stage.toNat → s.rst.l4held = false → s.rst.running = [] →
    ∃ t x, exec (.rstRequestL2 r 0xA5 (BitVec.ofNat 8 p)) s = .next t ∧ t.rst.running = [x] ∧ x.level = 2 ∧ x.target = p.val ∧
      inReset t p = true ∧ (t.getPart p).tasks = [] ∧ getBit t.mrl.selfRef p = true ∧
      (∀ j ∈ towerSites p, s.fuses.sitesOff.contains j = false → ∀ k < 24, t.getGrp (gIx j k) = {}) ∧
      (∀ q : Tower, q ≠ p → getBit t.rst.inReset q = getBit s.rst.inReset q)) ∧
  (∀ (r : Req) (s : State), mayReset s r 3 4 → s.rst.l4held = false → s.rst.running = [] →
    ∃ t x, exec (.rstRequestL3 r 0xA5) s = .next t ∧ t.rst.running = [x] ∧ x.level = 3 ∧ (∀ p : Tower, inReset t p = true) ∧
      (∀ p : Tower, inReset s p = false → (t.getPart p).tasks = [])) ∧
  (∀ (s : State), mayReset s 0 4 4 → s.rst.l4held = false → s.rst.running = [] →
    ∃ t, exec (.rstRequestL4 0 0xA5) s = .next t ∧ t.rst.l4held = true ∧ t.rst.l4From = s.skt.time ∧ t.bru.stage = 0 ∧
      t.fuses = s.fuses ∧ t.loess = s.loess ∧ t.marl = s.marl ∧ t.board.flash = flashEnded s ∧ t.thm.trip = s.thm.trip ∧
      t.groups = [] ∧ t.queues = [] ∧ t.ctxs = [] ∧ t.rst.backup = [] ∧ t.rst.token = none) ∧
  (∀ (r : Req) (key tgt : Byte) (s : State), key ≠ 0xA5 → r ≠ 6 →
    let counted := countRegErr r.val 3 0x010 (if 2 ≤ r.val then some (r.val - 2) else none) s
    exec (.rstRequestL0 r key tgt) s = .next counted ∧ exec (.rstRequestL1 r key tgt) s = .next counted ∧
      exec (.rstRequestL2 r key tgt) s = .next counted ∧ exec (.rstRequestL3 r key) s = .next counted ∧
      exec (.rstRequestL4 r key) s = .next counted)

/-- Table 14.3, R418, R428 and R430: how the resets end. An L2 releases its partition and RESET is reported, or becomes an L3
where the controller's sections fail their check; the L3 keeps the memories, fuses and backup registers and starts a bring-up
at OPTIONS; an L4 ends after 1 ms with device time 0; a site's own reset ends with the site running.
R420 to R423: the sources that produce a level by themselves. PERST_N resets the function whatever its level; an expired
partition watchdog, an expired management watchdog and an escalated abort whose fuse entries give L2, L4 and L1 start
these; the writes that rearm a watchdog only move it. -/
def Obligations.ResetSourcesAndEnds : Prop :=
  (∀ (p : Tower) (x : Reset) (s : State), x ∈ s.rst.running → x.level = 2 → x.target = p.val → s.thm.halted = true →
    ∃ t, exec (.partitionResetRelease p true) s = .next t ∧ getBit t.rst.inReset p = false ∧ (t.getPart p).held = (s.getPart p).held ∧
      t.mrl.selfRef = s.mrl.selfRef ∧ t.sites = s.sites) ∧
  (∀ (p : Tower) (x : Reset) (s : State), x ∈ s.rst.running → x.level = 2 → x.target = p.val → s.thm.halted = false →
    ∃ t, exec (.partitionResetRelease p true) s = .next t ∧ getBit t.rst.inReset p = false ∧ (t.getPart p).held = false ∧
      (t.getPart p).kick = s.skt.time ∧ getBit t.mrl.selfRef p = false ∧ getBit t.hst.event 5 = true ∧
      (∀ j ∈ towerSites p, (t.getSite j).mode ≠ 4) ∧ t.loess = s.loess ∧ t.marl = s.marl) ∧
  (∀ (p : Tower) (x : Reset) (s : State), x ∈ s.rst.running → x.level = 2 → x.target = p.val → (∀ y ∈ s.rst.running, y.level = 2) →
    s.rst.l4held = false →
    ∃ t y, exec (.partitionResetRelease p false) s = .next t ∧ t.rst.running = [y] ∧ y.level = 3) ∧
  (∀ (x : Reset) (s : State), x ∈ s.rst.running → x.level = 3 → s.thm.trip = false →
    ∃ t, exec .l3DrainEnd s = .next t ∧ t.bru.stage = 1 ∧ t.bru.ready = false ∧ t.rst.running = [] ∧ t.rst.inReset = 0 ∧
      t.loess = s.loess ∧ t.marl = s.marl ∧ t.fuses = s.fuses ∧ t.rst.backup = s.rst.backup ∧ t.rst.repairs = s.rst.repairs ∧
      t.skt = s.skt ∧ t.sel = [] ∧ t.groups = [] ∧ t.arys = [] ∧ t.ctxs = [] ∧ t.rst.token = none) ∧
  (∀ (s : State), s.rst.l4held = true → s.rst.l4From.toNat + 1000000 ≤ now s → s.thm.trip = false →
    ∃ t, exec .l4Release s = .next t ∧ t.rst.l4held = false ∧ t.skt.time = 0 ∧ t.bru.stage = 0 ∧ t.rst.l4count = s.rst.l4count ∧
      t.loess = s.loess ∧ t.marl = s.marl ∧ t.fuses = s.fuses) ∧
  (∀ (j : Site) (s : State), (s.getSite j).mode = 4 → inReset s (j / 24) = false → s.thm.halted = false → (s.getSite j).restoreDue = none →
    ∃ t, exec (.siteResetDone j) s = .next t ∧ t = { s with sites := t.sites } ∧ (t.getSite j).mode = 0 ∧
      ∀ k, k ≠ j.val → t.getSite k = s.getSite k) ∧
  (∀ (s : State), s.pcie.perst = false → s.rst.powered = true →
    ∃ t, exec .perstNAssert s = .next t ∧ t.pcie.perst = true ∧ t.pcie.linkUp = false ∧ t.pcie.bar0 = 0 ∧ t.pcie.msixOn = false ∧
      t.hst.eventEn = 0 ∧
      (sourceLevel s 0 = some 3 → permits s 0 3 = true → s.rst.l4held = false → s.rst.running = [] →
        ∃ x, t.rst.running = [x] ∧ x.level = 3 ∧ x.source = 0)) ∧
  (∀ (s : State), s.rst.powered = true → exec .perstNDeassert s = .next { s with pcie := { s.pcie with perst := false } }) ∧
  (∀ (p : Tower) (s : State), s.bru.ready = true → 9 ≤ s.bru.stage.toNat → inReset s p = false → s.rst.running = [] →
    (s.getPart p).kick.toNat + s.rst.timeout.toNat * 1000000 ≤ now s → sourceLevel s 3 = some 2 → permits s 3 2 = true →
    ∃ t x, exec (.partitionWatchdogExpiry p) s = .next t ∧ getBit t.rst.wdog p = true ∧ t.rst.running = [x] ∧ x.level = 2 ∧
      x.target = p.val ∧ x.source = 3) ∧
  (∀ (s : State), s.rst.mgmtKick.toNat + 1000000000 ≤ now s → sourceLevel s 6 = some 4 → permits s 6 4 = true →
    s.rst.l4held = false → s.rst.running = [] →
    ∃ t x, exec .mgmtWatchdogExpiry s = .next t ∧ t.rst.l4held = true ∧ t.rst.running = [x] ∧ x.source = 6) ∧
  (∀ (s : State), exec .mgmtWatchdogRearm s = .next { s with rst := { s.rst with mgmtKick := s.skt.time } }) ∧
  (∀ (p : Tower) (r : Req) (s : State), r.val = 2 + p.val →
    exec (.rstWdogKick r 0x4B49434B) s = .next (s.modPart p fun x => { x with kick := s.skt.time })) ∧
  (∀ (j : Site) (s : State), escalates s j = true → sourceLevel s 5 = some 1 → permits s 5 1 = true → 9 ≤ s.bru.stage.toNat →
    s.rst.l4held = false → s.rst.running = [] → (∃ k ∈ clusterSites (j / 6), siteResetting s k = false) →
    ∃ t e, exec (.abortEscalation j) s = .next t ∧ t.rst.history.head? = some e ∧ e.source = 5 ∧ e.level = 1 ∧ e.target.toNat = j.val / 6 ∧
      ∀ k ∈ clusterSites (j / 6), s.fuses.sitesOff.contains k = false → (t.getSite k).mode = 4)

/-! ### Block resets, retirement, repair (chapter 14) -/

/-- R431 and Table 14.5: the owning controller or the management core resets an idle block: it is busy, and what the block holds
stands at its reset value; a block that is not idle is not reset, and the refusal is shown and counted. The reset's end
clears BUSY. -/
def Obligations.BlockResets : Prop :=
  (∀ (r : Req) (j : Site) (s : State), ctrlAllowed r (j / 24) = true → s.fuses.sitesOff.contains j.val = false →
    (∀ a < 2, blockIdle s j a = true →
      ∃ t, exec (if a = 0 then .blockResetAry0 r j else .blockResetAry1 r j) s = .next t ∧
        t = { s with arys := t.arys, sites := t.sites } ∧
        t.getAry (2 * j + a) = { saveBase := (s.getAry (2 * j + a)).saveBase, busy := true } ∧
        getBit (t.getSite j).blkBusy a = true ∧ (t.getSite j).blkRefused = false) ∧
    (dmasIdle s j = true →
      ∃ t, exec (.blockResetDma r j) s = .next t ∧ t = { s with dmas := t.dmas, sites := t.sites } ∧
        (∀ c < 4, t.getDma (4 * j + c) = {}) ∧ getBit (t.getSite j).blkBusy 2 = true) ∧
    (noGroups s j = true →
      (∃ t, exec (.blockResetTge r j) s = .next t ∧ t = { s with groups := t.groups, sites := t.sites } ∧
        (∀ k < 24, t.getGrp (gIx j k) = {}) ∧ (t.getSite j).slm = [] ∧ (t.getSite j).bars = [] ∧
        getBit (t.getSite j).blkBusy 3 = true) ∧
      (∃ t, exec (.blockResetL1 r j) s = .next t ∧ t = { s with sites := t.sites } ∧ (t.getSite j).l1 = [] ∧
        (t.getSite j).l1Parity = 0 ∧ getBit (t.getSite j).blkBusy 4 = true)) ∧
    (blockIdle s j 5 = true →
      ∃ t, exec (.blockResetXlt r j) s = .next t ∧ t = { s with sites := t.sites } ∧ (t.getSite j).tlb = [] ∧
        (t.getSite j).walkc = [] ∧ (t.getSite j).faults = 0 ∧ getBit (t.getSite j).blkBusy 5 = true) ∧
    (∀ x ∈ [(Instr.blockResetAry0 r j, 0), (.blockResetAry1 r j, 1), (.blockResetDma r j, 2), (.blockResetTge r j, 3),
        (.blockResetL1 r j, 4), (.blockResetXlt r j, 5)], blockIdle s j x.2 = false →
      ∃ t, exec x.1 s = .next t ∧ (t.getSite j).blkRefused = true ∧ t.groups = s.groups ∧ t.arys = s.arys ∧ t.dmas = s.dmas ∧
        (t.getSite j).slm = (s.getSite j).slm ∧ (t.getSite j).l1 = (s.getSite j).l1 ∧ (t.getSite j).tlb = (s.getSite j).tlb ∧
        Tbl.get 0 t.hst.regErr (j / 24) = Tbl.get 0 s.hst.regErr (j / 24) + 1)) ∧
  (∀ (r : Req) (k : Port) (s : State), ctrlAllowed r (portTower k) = true → portPresent s k = true →
    ((s.getPort k).coll ≠ .idle ∨ (s.getPort k).collFifo ≠ []) →
    ∃ t, exec (.blockResetColl r k) s = .next t ∧ (t.getPort k).blkRefused = true ∧ (t.getPort k).collFifo = (s.getPort k).collFifo ∧
      Tbl.get 0 t.hst.regErr (portTower k) = Tbl.get 0 s.hst.regErr (portTower k) + 1) ∧
  (∀ (r : Req) (k : Port) (s : State), ctrlAllowed r (portTower k) = true → portPresent s k = true →
    (s.getPort k).coll = .idle → (s.getPort k).collFifo = [] →
    ∃ t, exec (.blockResetColl r k) s = .next t ∧ t = { s with ports := t.ports } ∧ (t.getPort k).blkBusy = true ∧
      (t.getPort k).collTlb = [] ∧ (t.getPort k).st = (s.getPort k).st) ∧
  (∀ (j : Site) (b : Fin 6) (s : State),
    ∃ t, exec (.blockResetDone false j b) s = .next t ∧ t = { s with sites := t.sites, arys := t.arys } ∧
      getBit (t.getSite j).blkBusy b = false ∧ (b.val < 2 → (t.getAry (2 * j + b)).busy = false)) ∧
  (∀ (k : Port) (b : Fin 6) (s : State),
    ∃ t, exec (.blockResetDone true (k.castLE (by decide)) b) s = .next t ∧ t = { s with ports := t.ports } ∧ (t.getPort k).blkBusy = false)

/-- R437, R438 and Table 14.9: a retirement picks the standby spare of the cluster, if one is left, and saves the site's work, or
resets the site where it cannot; once that is done and the spare has passed, the spare is active and the site retired, with
its replacement recorded. Without a spare the site is retired alone.
R427, R441 and R445: a stale message frees its endpoint entry and no other; a due row or column group takes the next spare of
its bank, or reports the bank exhausted; a log write takes the first entry of the map that waits. -/
def Obligations.RetirementAndRepair : Prop :=
  (∀ (r : Req) (j : Site) (s : State), ctrlAllowed r (j / 24) = true → s.fuses.sitesOff.contains j.val = false →
    siteInService s j = true → (s.getSite j).retiring = false → inWindow s j = false →
    ∃ t, exec (.siteRetire r j) s = .next t ∧ (t.getSite j).retiring = true ∧ (t.getSite j).retireTo = clusterSpare s j ∧
      (t.getSite j).mode = (if saveAllowed s j then 1 else 4)) ∧
  (∀ (r : Req) (j : Site) (s : State), ctrlAllowed r (j / 24) = true → s.fuses.sitesOff.contains j.val = false →
    siteInService s j = true → (s.getSite j).retiring = false → inWindow s j = true →
    exec (.siteRetire r j) s = .next (s.modSite j fun x => { x with retireDue := true })) ∧
  (∀ (j : Site) (k : Nat) (s : State), (s.getSite j).retiring = true → (s.getSite j).mode = 2 → (s.getSite j).retireTo = some k →
    k ≠ j.val → s.rst.repairs.length < 1023 →
    ∃ t e, exec (.retireSpareReady j true) s = .next t ∧ siteStatus t k = 2 ∧ siteStatus t j = 4 ∧
      (t.getSite j).replacedBy = BitVec.ofNat 8 (k % 24) ∧ (t.getSite j).retiring = false ∧
      t.rst.repairs.getLast? = some e ∧ e.kind = 1 ∧ e.unit.toNat = j.val ∧ getBit t.hst.event 6 = true) ∧
  (∀ (j : Site) (s : State), (s.getSite j).retiring = true → (s.getSite j).mode = 4 → (s.getSite j).retireTo = none →
    s.rst.repairs.length < 1023 →
    ∃ t e, exec (.retireSpareReady j true) s = .next t ∧ siteStatus t j = 4 ∧ (t.getSite j).replacedBy = 0xFF ∧
      t.rst.repairs.getLast? = some e ∧ e.kind = 2 ∧ getBit t.hst.event 6 = true) ∧
  (∀ (who : Agent) (gen : BitVec 2) (s : State), gen ≠ agentGen s who →
    ∃ t, exec (.siltTrapDiscard who gen) s = .next t ∧ t = { s with net := { s.net with tids := t.net.tids } } ∧
      Tbl.get [] t.net.tids (agentTower who) =
        (Tbl.get [] s.net.tids (agentTower who)).filter (fun e => !decide (e.2.who = who ∧ e.2.gen = gen)) ∧
      ∀ k, k ≠ agentTower who → Tbl.get [] t.net.tids k = Tbl.get [] s.net.tids k) ∧
  (∀ (j : Slice) (b : Fin 64) (row : BitVec 16) (s : State), (b.val, row.toNat) ∈ (s.getSlc j).due →
    (∀ c ∈ (s.getSlc j).colDue, c.1 ≠ b.val) → (∀ d ∈ (s.getSlc j).due, d.1 = b.val → row.toNat ≤ d.2) → s.rst.repairs.length < 1023 →
    ∃ t, exec (.loessRowRepair j b row) s = .next t ∧ (b.val, row.toNat) ∉ (t.getSlc j).due ∧
      (Tbl.get 0 (s.getSlc j).rowsUsed b < 32 → Tbl.get 0 (t.getSlc j).rowsUsed b = Tbl.get 0 (s.getSlc j).rowsUsed b + 1 ∧
        ∃ e, t.rst.repairs.getLast? = some e ∧ e.kind = 7 ∧ e.unit.toNat = j.val ∧ e.spare.toNat = Tbl.get 0 (s.getSlc j).rowsUsed b) ∧
      (32 ≤ Tbl.get 0 (s.getSlc j).rowsUsed b → (t.getSlc j).exhausted = true ∧ getBit t.hst.event 6 = true) ∧ t.loess = s.loess) ∧
  (∀ (j : Slice) (b : Fin 64) (g : BitVec 16) (s : State), (b.val, g.toNat) ∈ (s.getSlc j).colDue → s.rst.repairs.length < 1023 →
    ∃ t, exec (.loessColumnRepair j b g) s = .next t ∧ (b.val, g.toNat) ∉ (t.getSlc j).colDue ∧
      (Tbl.get 0 (s.getSlc j).colsUsed b < 8 → Tbl.get 0 (t.getSlc j).colsUsed b = Tbl.get 0 (s.getSlc j).colsUsed b + 1 ∧
        ∃ e, t.rst.repairs.getLast? = some e ∧ e.kind = 8 ∧ e.unit.toNat = j.val) ∧
      (8 ≤ Tbl.get 0 (s.getSlc j).colsUsed b → (t.getSlc j).exhausted = true ∧ getBit t.hst.event 6 = true) ∧ t.loess = s.loess) ∧
  (∀ (i : Nat) (e : Repair) (s : State), flashReady s = true → s.rst.logPos < logRecords →
    s.rst.repairs[i]? = some e → e.logged = false → (∀ k < i, ∀ x, s.rst.repairs[k]? = some x → x.logged = true) →
    ∃ t, exec .repairLogWrite s = .next t ∧ t.rst.repairs[i]? = some { e with logged := true } ∧ t.rst.logPos = s.rst.logPos + 1 ∧
      t.rst.logSeq = s.rst.logSeq + 1 ∧ t.rst.logTail = s.rst.logTail ++ [{ e with logged := true }] ∧
      getBytes 0xFF t.board.flash (logAt s) 32 = logRecord s e.kind.toNat { e with logged := true })

/-! ### Bring-up (chapter 13) -/

/-- R392 to R394, R403 and R505: power-on leaves a cold device at POWER_ON with the fuses kept; OPTIONS takes the option block
in force, releases the partitions at boot voltage and goes on to VERIFY, or to MEMORY_TEST where the image comes over the
fabric; a rail out of regulation holds it there (R506). The 0.800 V is the model's reading of the boot level (log 11).
R399: VERIFY takes the slot of the option block, then the other where FALLBACK is 1; a verified image is in force and
MEMORY_TEST follows, and a device without one enters BOOT_FAULT with the code of the failed check and reports BRINGUP. -/
def Obligations.BringUpToVerify : Prop :=
  (∀ (tbRef : Bool) (straps : BitVec 4) (s : State), (s.rst.powered = false ∨ (s.bru.stage = 0 ∧ s.skt.time = 0)) →
    ∃ t, exec (.powerOn tbRef straps) s = .next t ∧ t.bru.stage = 0 ∧ t.skt.time = 0 ∧ t.skt.holdover = !tbRef ∧ t.skt.refLoss = !tbRef ∧
      t.board.straps = straps ∧ t.fuses = s.fuses ∧ t.loess = [] ∧ t.marl = [] ∧ t.board.flash = s.board.flash ∧ t.thm.trip = false ∧
      t.groups = [] ∧ t.queues = [] ∧ t.rst.backup = [] ∧ t.rst.lastSource = 0xFF) ∧
  (∀ (s : State), bootRuns s = true → s.bru.stage.toNat ≤ 1 → s.bru.optIn = false → s.pwr.down = [] → s.pwr.noResp ||| s.pwr.regFault = 0 →
    ∃ t, exec .optionsRead s = .next t ∧ t.bru.opt = (readOptions s).1 ∧ t.bru.stage = (if t.bru.opt.source then 3 else 2) ∧
      t.mrl.selfRef = 0 ∧ t.rst.token = none ∧ (∀ p : Tower, (t.getPart p).held = false ∧ (t.getGov p).vcore = 800 ∧ (t.getGov p).vloess = 800)) ∧
  (∀ (s : State), bootRuns s = true → s.bru.stage.toNat ≤ 1 → s.bru.optIn = false → s.pwr.down ≠ [] →
    ∃ t, exec .optionsRead s = .next t ∧ t.bru.stage = 1 ∧ t.bru.opt = (readOptions s).1 ∧ t.parts = s.parts ∧ t.govs = s.govs) ∧
  (∀ (s : State), bootRuns s = true → s.bru.stage = 1 → s.bru.optIn = true →
    ∃ t, exec .optionsRead s = .next t ∧ t.bru.opt = s.bru.opt ∧ t.rst = s.rst ∧
      (s.pwr.down ≠ [] → t = s) ∧ (s.pwr.down = [] → t.bru.stage = if s.bru.opt.source then 3 else 2)) ∧
  (∀ (s : State), bootRuns s = true → s.bru.stage = 2 →
    ∃ t, exec .imageVerify s = .next t ∧
      t = { s with bru := t.bru, ports := t.ports, parts := t.parts, seams := t.seams, routers := t.routers, net := t.net, tx := t.tx, rst := t.rst, hst := t.hst, pcie := t.pcie } ∧
      match readSlot s s.bru.opt.slot, readSlot s (!s.bru.opt.slot), s.bru.opt.fallback with
      | .ok im, _, _ => t.bru.stage = 3 ∧ t.bru.image = im ∧ t.bru.slotUsed = s.bru.opt.slot ∧ t.bru.digest = imageDigest im ∧ t.bru.fwDist = 0
      | .error c, .ok im, true => t.bru.stage = 3 ∧ t.bru.image = im ∧ t.bru.slotUsed = !s.bru.opt.slot ∧ t.bru.fault = BitVec.ofNat 8 c
      | .error _, .error c, true => t.bru.stage = 15 ∧ t.bru.fault = BitVec.ofNat 8 c ∧ t.bru.image = s.bru.image ∧ getBit t.hst.event 0 = true
      | .error c, _, false => t.bru.stage = 15 ∧ t.bru.fault = BitVec.ofNat 8 c ∧ t.bru.image = s.bru.image ∧ getBit t.hst.event 0 = true)

/-- R401, R402, R404 and R405: the three test stages. MEMORY_TEST leaves zeros; a Loess die that fails ends in
BOOT_FAULT 6. BUNDLE_CAL sweeps every bundle whose point is not kept, and leaves the others as they are. KAOLIN marks a failed site, which
its cluster's spare replaces; a failed security engine ends in BOOT_FAULT 5. -/
def Obligations.BringUpTests : Prop :=
  (∀ (fails : List MemFail) (s : State), bootRuns s = true → s.bru.stage = 3 →
    (∀ f ∈ fails, (∀ c, f ≠ .marlChannel c) ∧ ∀ d, f ≠ .loessDie d) →
    ∃ t, exec (.memoryTest fails) s = .next t ∧ t.bru.stage = 4 ∧ t.loess = [] ∧ t.marl = [] ∧ t.loessBad = [] ∧ t.marlBad = []) ∧
  (∀ (fails : List MemFail) (d : Tower) (s : State), bootRuns s = true → s.bru.stage = 3 → .loessDie d ∈ fails →
    ∃ t, exec (.memoryTest fails) s = .next t ∧ t.bru.stage = 15 ∧ t.bru.fault = 6 ∧ getBit t.hst.event 0 = true) ∧
  (∀ (sweeps : CalSweeps) (s : State), bootRuns s = true → s.bru.stage = 4 →
    ∃ t, exec (.bundleCal sweeps) s = .next t ∧
      t = { s with bru := t.bru, bundles := t.bundles, coldSweep := t.coldSweep, bgroups := t.bgroups, ports := t.ports, parts := t.parts, seams := t.seams, routers := t.routers, net := t.net, tx := t.tx } ∧
      t.bru.stage = 5 ∧
      (∀ (j : Site) (k : Fin 8) (b : Fin 33), pointKept s j k b = true → t.getBun (bundleIx j k b) = s.getBun (bundleIx j k b)) ∧
      (∀ (j : Site) (k : Fin 8) (b : Fin 33), pointKept s j k b = false → (∀ x ∈ sweeps.listed, (x.1, x.2.1, x.2.2.1) ≠ (j, k, b)) →
        (t.getBun (bundleIx j k b)).valid = true ∧ (t.getBun (bundleIx j k b)).tap.toNat = tapOf sweeps.rest.1.toNat sweeps.rest.2.toNat) ∧
      ∀ x, sweeps.listed = [x] → pointKept s x.1 x.2.1 x.2.2.1 = false → x.2.2.2.2 ≠ 0 →
        (t.getBun (bundleIx x.1 x.2.1 x.2.2.1)).valid = true ∧
        (t.getBun (bundleIx x.1 x.2.1 x.2.2.1)).tap.toNat = tapOf x.2.2.2.1.toNat x.2.2.2.2.toNat) ∧
  (∀ (fails : List KaolinFail) (s : State), bootRuns s = true → s.bru.stage = 5 →
    ∃ t, exec (.kaolin fails) s = .next t ∧ t.bru.m5 = shake256 (kaolinBytes t) ∧ t.bru.kaolinAt = s.skt.time ∧
      (.security ∈ fails → t.bru.stage = 15 ∧ t.bru.fault = 5) ∧
      (.security ∉ fails → t.bru.stage = if s.bru.opt.source then 6 else 7)) ∧
  (∀ (j : Site) (s : State), bootRuns s = true → s.bru.stage = 5 → siteInService s j = true →
    ∃ t, exec (.kaolin [.site j]) s = .next t ∧ siteStatus t j = 5 ∧ getBit (Tbl.get 0 t.bru.kaolin (j / 24)) (j % 24) = true ∧
      ∀ k, clusterSpare s j = some k → siteStatus t k = 2 ∧ (t.getSite j).replacedBy = BitVec.ofNat 8 (k % 24))

/-- R406, R409 and R410: DISTRIBUTE writes the device copy and starts every controller; CONFIG applies all sections or, at the first check
that fails, stops in BOOT_FAULT 8 or in CONFIG_FAULT with its code; READY sets READY, the warm token, the watchdogs' start and
reports BRINGUP. -/
def Obligations.BringUpConfigures : Prop :=
  (∀ (s : State), bootRuns s = true → s.bru.stage = 7 →
    ∃ t, exec .distribute s = .next t ∧ t = { s with marl := t.marl, marlBad := t.marlBad, mrl := { s.mrl with hurt := t.mrl.hurt }, loess := t.loess, loessBad := t.loessBad, slices := t.slices, bru := t.bru, parts := t.parts, ports := t.ports, seams := t.seams, routers := t.routers, net := t.net, tx := t.tx } ∧
      t.bru.stage = 8 ∧ t.bru.held = true ∧ (∀ p : Tower, (t.getPart p).started = true ∧ (t.getPart p).memory = controllerSections s.bru.image p) ∧
      (∀ cw ∈ t.marlBad, outsideCopy cw = true) ∧
      ∀ i < s.bru.image.length, Tbl.get 0 t.marl (0x23_FD00_0000 + i) = s.bru.image.getD i 0) ∧
  (∀ (s : State), bootRuns s = true → s.bru.stage = 8 → s.net.keysIn = false →
    let cfg := sectionOf s.bru.image 3
    let fault := configFault (applyLocation cfg s) cfg (sectionOf s.bru.image 6) (sectionOf s.bru.image 5) (sectionOf s.bru.image 4)
      (sectionOf s.bru.image 7)
    ∃ t, exec .config s = .next t ∧ t.loess = s.loess ∧ t.marl = s.marl ∧ t.fuses.rstEntry = s.fuses.rstEntry ∧
      (locationOk s cfg = false → t.bru.stage = 15 ∧ t.bru.fault = 8 ∧ t.net.keysIn = false ∧ t.queues = s.queues) ∧
      (locationOk s cfg = true → t.net.idValid = true ∧ some t.net.id = (locationId s).map (BitVec.ofNat 16) ∧
        (∀ code s2, fault = some (code, s2) → t.bru.stage = 14 ∧ t.bru.fault = BitVec.ofNat 8 code ∧ t.svc.cfgFault = true ∧ t.net.keysIn = false ∧
          (code ≤ 0x11 → t.queues = s.queues) ∧ (0x12 ≤ code → ∀ q < 512, t.getQue q = queueOf (sectionOf s.bru.image 5) q)) ∧
        (fault = none → t.bru.stage = 8 ∧ t.net.keysIn = true ∧ t.lss.imageRoles = true ∧
          ∀ q < 512, t.getQue q = queueOf (sectionOf s.bru.image 5) q))) ∧
  (∀ (s : State), bootRuns s = true → s.bru.stage = 8 → s.net.keysIn = true → (∀ p < 4, (s.getPart p).started = true) →
    ∃ t, exec .ready s = .next t ∧
      t = { s with loess := t.loess, loessBad := t.loessBad, slices := t.slices, bru := t.bru, rst := t.rst, parts := t.parts, ports := t.ports, seams := t.seams, routers := t.routers, net := t.net, hst := t.hst, pcie := t.pcie, tx := t.tx } ∧
      t.bru.stage = 9 ∧ t.bru.ready = true ∧ t.bru.readyAt = s.skt.time ∧
      t.rst.token = some { m3 := s.bru.m3, imageId := s.bru.imageId, at_ := s.skt.time } ∧
      (∀ p : Tower, (t.getPart p).kick = s.skt.time) ∧ getBit t.hst.event 0 = true ∧ .ibi 4 ∈ t.tx)

/-- R407 and R408, receiving: a device that seeks an image takes the upstream with the smaller FW_DIST, the lower port among
equals, and asks it; its chunks are kept; where some are missing at the END, or 20 ms pass, it asks with NEED, and after eight that
brought nothing it gives the upstream up. A complete image that verifies is in force.
R407, giving on: a device that offers its verified image sends every chunk and the end to a port that asks, the chunks named to one
that needs some, and announces on every port in service; it holds the copies until all who asked are done or STAGE_HOLD
has passed, and then they read 0. -/
def Obligations.FirmwareOverFabric : Prop :=
  (∀ (port : Port) (x : FwPayload) (s : State), x.kind = 1 → s.bru.opt.source = true → s.bru.stage = 6 → s.bru.upstream = 0xF →
    inService (s.getPort port) = true → (Tbl.get [] s.net.tids 2).length < 4096 →
    ∃ t k o, exec (.fwAnnounce port x) s = .next t ∧ t = { s with net := t.net, bru := t.bru, ports := t.ports, parts := t.parts, seams := t.seams, routers := t.routers, tx := t.tx } ∧
      t.bru.ann = Tbl.ins port.val { dist := x.fwDist.toNat, imageId := x.imageId, size := x.size, chunks := x.chunks } s.bru.ann ∧
      (k, o) ∈ t.bru.ann ∧ inService (s.getPort k) = true ∧ t.bru.upstream = BitVec.ofNat 4 k ∧ t.bru.imageId = o.imageId ∧
      t.bru.fwDist = BitVec.ofNat 8 (o.dist + 1) ∧ t.tx.length = s.tx.length + 1 ∧
      ∀ e ∈ t.bru.ann, inService (s.getPort e.1) = true → o.dist < e.2.dist ∨ (o.dist = e.2.dist ∧ k ≤ e.1)) ∧
  (∀ (port : Port) (x : FwPayload) (s : State), x.kind = 3 → fromUpstream s port x = true → x.seq.toNat < x.chunks.toNat →
    ∃ t, exec (.fwData port x) s = .next t ∧ t = { s with net := t.net, bru := t.bru } ∧ Tbl.get [] t.bru.rx x.seq.toNat = x.body.take 4064 ∧
      t.bru.rxLast = s.skt.time ∧ t.bru.rxNew = true ∧ ∀ n, n ≠ x.seq.toNat → Tbl.get [] t.bru.rx n = Tbl.get [] s.bru.rx n) ∧
  (∀ (port : Port) (x : FwPayload) (s : State), x.kind = 4 → fromUpstream s port x = true → s.bru.rxNew = true →
    (∃ n < x.chunks.toNat, ∀ e ∈ s.bru.rx, e.1 ≠ n) → (Tbl.get [] s.net.tids 2).length < 4096 →
    ∃ t, exec (.fwEnd port x) s = .next t ∧ t = { s with net := t.net, bru := t.bru, ports := t.ports, parts := t.parts, seams := t.seams, routers := t.routers, tx := t.tx } ∧ t.bru.needs = 1 ∧
      t.bru.rx = s.bru.rx ∧ t.bru.stage = s.bru.stage ∧ t.tx.length = s.tx.length + 1) ∧
  (∀ (port : Port) (x : FwPayload) (s : State), x.kind = 4 → fromUpstream s port x = true → s.bru.stage = 6 →
    (∀ n < x.chunks.toNat, ∃ e ∈ s.bru.rx, e.1 = n) →
    let im := joined { s with bru := { s.bru with rxSize := x.size, rxChunks := x.chunks } }
    ∃ t, exec (.fwEnd port x) s = .next t ∧
      match imageFault s im with
      | 0 => t.bru.stage = 7 ∧ t.bru.image = im ∧ t.bru.fabric = true
      | c => t.bru.stage = 15 ∧ t.bru.fault = BitVec.ofNat 8 c ∧ t.bru.image = []) ∧
  (∀ (s : State), s.bru.upstream ≠ 0xF → s.bru.image = [] → s.bru.rxLast.toNat + 20000000 ≤ now s →
    (Tbl.get [] s.net.tids 2).length < 4096 →
    ∃ t, exec .fwChunkTimeout s = .next t ∧ t = { s with bru := t.bru, ports := t.ports, parts := t.parts, seams := t.seams, routers := t.routers, net := t.net, tx := t.tx } ∧
      (s.bru.rxNew = true ∨ s.bru.needs < 8 → t.bru.needs = (if s.bru.rxNew then 0 else s.bru.needs) + 1 ∧ t.bru.rxLast = s.skt.time ∧
        t.tx.length = s.tx.length + 1) ∧
      (s.bru.rxNew = false → 8 ≤ s.bru.needs → ∀ o, (s.bru.upstream.toNat, o) ∉ t.bru.ann)) ∧
  (∀ (s : State), s.bru.stage = 6 → s.bru.upstream = 0xF → s.bru.kaolinAt.toNat + 600000000000 ≤ now s →
    exec .noUpstreamTimeout s = .next { s with bru := { s.bru with fault := 7 } }) ∧
  (∀ (port : Port) (x : FwPayload) (s : State), x.kind = 2 → offersImage s = true → x.imageId = s.bru.imageId →
    ∃ t, exec (.fwRequest port x) s = .next t ∧ t = { s with net := t.net, bru := { s.bru with askers := t.bru.askers }, ports := t.ports, parts := t.parts, seams := t.seams, routers := t.routers, tx := t.tx } ∧
      port.val ∈ t.bru.askers ∧ ((Tbl.get [] s.net.tids 2).length + chunkCount s.bru.image.length < 4096 → t.tx.length = s.tx.length + chunkCount s.bru.image.length + 1)) ∧
  (∀ (port : Port) (x : FwPayload) (s : State), x.kind = 5 → offersImage s = true → x.imageId = s.bru.imageId →
    ∃ t, exec (.fwNeed port x) s = .next t ∧ t = { s with net := t.net, ports := t.ports, parts := t.parts, seams := t.seams, routers := t.routers, tx := t.tx } ∧
      ((Tbl.get [] s.net.tids 2).length + (needChunks x.body x.seq.toNat (chunkCount s.bru.image.length)).length < 4096 →
        t.tx.length = s.tx.length + (needChunks x.body x.seq.toNat (chunkCount s.bru.image.length)).length + 1)) ∧
  (∀ (port : Port) (x : FwPayload) (s : State), x.kind = 6 →
    ∃ t, exec (.fwDone port x) s = .next t ∧ t = { s with net := t.net, bru := { s.bru with askers := s.bru.askers.filter (· ≠ port.val) } }) ∧
  (∀ (s : State), offersImage s = true → periodPassed s s.bru.annAt 100000000 = true → (Tbl.get [] s.net.tids 2).length + 6 ≤ 4096 →
    ∃ t, exec .announceTimer s = .next t ∧ t = { s with bru := { s.bru with annAt := some s.skt.time }, ports := t.ports, parts := t.parts, seams := t.seams, routers := t.routers, net := t.net, tx := t.tx } ∧
      t.tx.length = s.tx.length + ((List.range 6).filter fun k => inService (s.getPort k)).length) ∧
  (∀ (s : State), s.bru.ready = true → s.bru.held = true →
    (s.bru.askers = [] ∨ s.bru.readyAt.toNat + 1000000000 * s.bru.hold.toNat ≤ now s) →
    ∃ t, exec .stageHoldEnd s = .next t ∧ t = { s with marl := t.marl, marlBad := t.marlBad, mrl := { s.mrl with hurt := t.mrl.hurt }, bru := { s.bru with held := false } } ∧
      (∀ cw ∈ t.marlBad, outsideCopy cw = true) ∧
      ∀ a, Tbl.get 0 t.marl a = if 0x23_FD00_0000 ≤ a ∧ a < 0x23_FD00_0000 + copyBytes then 0 else Tbl.get 0 s.marl a)

/-- R400, R445, R446, R464, R465 and R491: what waits for a window. An open fuse window programs the minimum version and the repairs that
are fused, and never the reset entries; an open flash window logs every repair, starts the PERSIST write, whose end leaves the
image in its slot, and issues the host's held operation. -/
def Obligations.WindowsServeWhatWaits : Prop :=
  (∀ (s : State), fuseOpen s = true → s.fuses.repairs.length + s.rst.repairs.length ≤ 2048 →
    ∃ t, exec .fuseWindowOpen s = .next t ∧ t = { s with fuses := t.fuses, rst := { s.rst with repairs := t.rst.repairs }, bru := { s.bru with svnPend := t.bru.svnPend } } ∧
      t.fuses.rstEntry = s.fuses.rstEntry ∧ t.rst.repairs.length = s.rst.repairs.length ∧
      (∀ r ∈ t.rst.repairs, kindFused r.kind.toNat = true → r.fused = true) ∧
      (s.bru.svnPend = true → s.bru.ready = true → t.bru.svnPend = false ∧
        (s.bru.burnSvn = true → t.fuses.svnMin.toNat = max s.fuses.svnMin.toNat s.bru.svn.toNat))) ∧
  (∀ (s : State), flashReady s = true →
    ∃ t, exec .flashWindowOpen s = .next t ∧
      t = { s with board := { s.board with flash := t.board.flash }, rst := t.rst, bru := { s.bru with persRun := s.bru.persPend }, hst := t.hst } ∧
      (∀ r ∈ t.rst.repairs, r.logged = true) ∧ t.hst.flashHeld = false) ∧
  (∀ (s : State), s.bru.persRun = true → s.bru.image.length ≤ copyBytes →
    ∃ t, exec .persistWriteDone s = .next t ∧
      t = { s with board := { s.board with flash := t.board.flash }, bru := { s.bru with persPend := false, persRun := false } } ∧
      ∀ a, Tbl.get 0xFF t.board.flash a =
        if slotBase s.bru.opt.slot ≤ a ∧ a < slotBase s.bru.opt.slot + copyBytes then s.bru.image.getD (a - slotBase s.bru.opt.slot) 0xFF
        else Tbl.get 0xFF s.board.flash a)

/-! ### The host port (chapter 16) -/

/-- R472 to R475 and R485: the function's link, its resets and its power states. A function-level reset keeps the link, a hot reset and
a lost link do not; each resets the BARs, the event enables, and the host's own selectors and translation registers, and no
other requester's. D3hot and D0 change only the power state; an allowed pending vector is sent once.
R485 and R497: the host's write of HST_EVENT clears the bits written 1, and every bit that stays set and enabled sends its vector
again, or leaves it pending; with none such nothing else changes. No other requester's write has an effect. -/
def Obligations.PcieFunctionAndEvents : Prop :=
  (∀ (s : State), s.pcie.perst = false → skotrumHeld s = false →
    exec (.pcieLinkUp true) s = .next { s with pcie := { s.pcie with linkUp := true } }) ∧
  (∀ (s : State), functionUp s = true → ∀ c ∈ [Instr.functionLevelReset, .hotReset, .pcieLinkDown],
    ∃ t, exec c s = .next t ∧
      t = { s with pcie := { linkUp := decide (c = .functionLevelReset), perst := false }, hst := { s.hst with bar2Base := 0, eventEn := 0 }
                   skt := { s.skt with latch := t.skt.latch }, sel := t.sel, xreqs := t.xreqs, aborts := t.aborts, parts := t.parts
                   queues := t.queues, bru := t.bru } ∧
      (∀ u : Fin 16, selOf t 0 u = 0) ∧ (∀ (r : Req) (u : Fin 16), r ≠ 0 → selOf t r u = selOf s r u) ∧
      t.getXrq 0 = {} ∧ (∀ i, i ≠ 0 → t.getXrq i = s.getXrq i) ∧ (∀ p : Tower, ∀ o ∈ (t.getPart p).asm, o.who ≠ .host)) ∧
  (∀ (s : State), functionUp s = true →
    exec .d3hotEntry s = .next { s with pcie := { s.pcie with d3hot := true } } ∧
    exec .d0Return s = .next { s with pcie := { s.pcie with d3hot := false } }) ∧
  (∀ (v : Fin 64) (s : State), functionUp s = true → getBit s.pcie.pba v = true → msixAllowed s v = true →
    ∃ t, exec (.msixPendingSend v) s = .next t ∧
      t = { s with pcie := { s.pcie with pba := t.pcie.pba }, tx := .msix v :: s.tx } ∧ getBit t.pcie.pba v = false ∧
      ∀ w : Fin 64, w ≠ v → getBit t.pcie.pba w = getBit s.pcie.pba w) ∧
  (∀ (val : W32) (s : State), skotrumHeld s = false →
    ∃ t, exec (.hstEventWrite 0 val) s = .next t ∧
      t = { s with hst := { s.hst with event := s.hst.event &&& ~~~(val.truncate 12) }, pcie := { s.pcie with pba := t.pcie.pba }, tx := t.tx } ∧
      (∀ k : Fin 12, getBit t.hst.event k = true → getBit s.hst.eventEn k = true → .msix k.val ∈ t.tx ∨ getBit t.pcie.pba k = true) ∧
      ((∀ k : Fin 12, getBit t.hst.event k = true → getBit s.hst.eventEn k = false) → t.tx = s.tx ∧ t.pcie.pba = s.pcie.pba)) ∧
  (∀ (r : Req) (val : W32) (s : State), r ≠ 0 → exec (.hstEventWrite r val) s = .next s)

/-- R473, R475, R477, R478 and R487: requests. A configuration read returns the register and changes nothing; a command write sets the two
enables. While memory requests are off, both BARs answer Unsupported Request. An aligned DWORD of BAR0 is one register
access of the host. The bit places are PRESUMED from PCI Express (log 25).
R479 to R482: a BAR2 request within one 64-byte piece is one access at its base plus offset; a bus error is counted with its
address and completes a read with Completer Abort; before READY every request meets one; a poisoned write is dropped. -/
def Obligations.HostAccesses : Prop :=
  (∀ (reg : CfgReg) (s : State), functionUp s = true →
    exec (.pcieConfigRequest reg none) s = .next (send (.cfg (BitVec.ofNat 32 (cfgRead s reg))) s)) ∧
  (∀ (v : W32) (s : State), functionUp s = true →
    ∃ t, exec (.pcieConfigRequest .commandStatus (some v)) s = .next t ∧
      t = { s with pcie := { s.pcie with memEnable := getBit v 1, busMaster := getBit v 2 }, tx := .cfg 0 :: s.tx }) ∧
  (∀ (o0 : BitVec 26) (o2 : BitVec 32) (op : BarOp) (ep : Bool) (s : State), functionUp s = true → memoryUp s = false →
    ∀ c ∈ [Instr.bar0Access o0 op, .bar2Access o2 op ep],
      ∃ t, exec c s = .next t ∧ t = { s with pcie := { s.pcie with aerUncor := t.pcie.aerUncor }, tx := .unsupported :: s.tx } ∧
        getBit t.pcie.aerUncor 20 = true) ∧
  (∀ (w : Fin 1024) (o : Fin 16384) (s : State), functionUp s = true → memoryUp s = true →
    exec (.bar0Access (BitVec.ofNat 26 (65536 * w + 4 * o)) (.read 4)) s =
      .next (send (.data .host (leBytes 4 (regRead 0 w (4 * o) s).2.toNat)) (regRead 0 w (4 * o) s).1)) ∧
  (∀ (w : Fin 1024) (o : Fin 16384) (val : W32) (s : State), functionUp s = true → memoryUp s = true →
    exec (.bar0Access (BitVec.ofNat 26 (65536 * w + 4 * o)) (.write (leBytes 4 val.toNat) [true, true, true, true])) s =
      exec (.registerWrite 0 (w.castLE (by decide)) (BitVec.ofNat 16 (4 * o)) val false) s) ∧
  (∀ (off : BitVec 32) (n : Nat) (s t : State) (bs : List Byte), functionUp s = true → memoryUp s = true → bar2Open s = true →
    0 < n → off.toNat % 64 + n ≤ 64 → physRead .host (s.hst.bar2Base.toNat + off.toNat) n backLabel s = (t, none, bs, false) →
    exec (.bar2Access off (.read n) false) s = .next (send (.data .host bs) t)) ∧
  (∀ (off : BitVec 32) (data : List Byte) (s t : State), functionUp s = true → memoryUp s = true → bar2Open s = true →
    data ≠ [] → off.toNat % 64 + data.length ≤ 64 → physWrite .host (s.hst.bar2Base.toNat + off.toNat) data backLabel s = (t, none) →
    exec (.bar2Access off (.write data (List.replicate data.length true)) false) s = .next t) ∧
  (∀ (off : BitVec 32) (n : Nat) (s : State), functionUp s = true → memoryUp s = true → bar2Open s = false →
    0 < n → off.toNat % 64 + n ≤ 64 →
    ∃ t, exec (.bar2Access off (.read n) false) s = .next t ∧ t = { s with hst := t.hst, pcie := t.pcie, tx := t.tx } ∧
      t.hst.busErr = s.hst.busErr + 1 ∧ t.hst.busErrAt = BitVec.ofNat 40 (s.hst.bar2Base.toNat + off.toNat) ∧ getBit t.hst.event 10 = true ∧
      t.tx.head? = some .completerAbort) ∧
  (∀ (off : BitVec 32) (data : List Byte) (en : List Bool) (s : State), functionUp s = true → memoryUp s = true →
    ∃ t, exec (.bar2Access off (.write data en) true) s = .next t ∧
      t = { s with pcie := { s.pcie with aerUncor := t.pcie.aerUncor, aerCor := t.pcie.aerCor } } ∧
      getBit t.pcie.aerUncor 12 = true ∧ getBit t.pcie.aerCor 13 = true)

/-- R488, R489, R414 and R415: the DOE mailbox. Discovery and the identity key answer at once; ATTEST answers NOT_READY before VERIFY, is
taken for signing in its order of arrival, and its signed report empties the mailbox; an abort clears it and drops the
report. -/
def Obligations.DoeMailbox : Prop :=
  (∀ (index : Byte) (s : State), doeOpen s = true →
    ∃ t w, exec (.doeDiscovery index) s = .next t ∧ t = send (.doe 0 [w]) s ∧ (2 < index.toNat → w = 0xFFFF)) ∧
  (∀ (s : State), doeOpen s = true →
    exec (.doeIdkey []) s = .next (send (.doe 0 (words32 (leBytes 64 s.bru.idkey.toNat ++ leBytes 4 (hstId s)))) s)) ∧
  (∀ (payload : List Byte) (s : State), doeOpen s = true →
    (s.bru.stage.toNat < 2 → exec (.doeAttest payload) s = .next (send (.doe 1 []) s)) ∧
    (2 ≤ s.bru.stage.toNat → payload.length ≠ 32 → exec (.doeAttest payload) s = .next (send (.doe 2 []) s)) ∧
    (payload ≠ [] → exec (.doeIdkey payload) s = .next (send (.doe 2 []) s)) ∧
    (2 ≤ s.bru.stage.toNat → payload.length = 32 →
      let ask := (true, BitVec.ofNat 256 (ofLe payload), ([] : List Byte))
      ∃ t, exec (.doeAttest payload) s = .next t ∧
        t = { s with pcie := { s.pcie with doeBusy := true }, bru := { s.bru with signing := t.bru.signing, signQ := t.bru.signQ } } ∧
        (s.bru.signing = none → t.bru.signing = some ask ∧ t.bru.signQ = s.bru.signQ) ∧
        (s.bru.signing ≠ none → t.bru.signing = s.bru.signing ∧ t.bru.signQ = s.bru.signQ ++ [ask]))) ∧
  (∀ (nonce : BitVec 256) (cmd : List Byte) (s : State), s.bru.signing = some (true, nonce, cmd) → s.bru.signDrop = false →
    ∃ t, exec .attestSignDone s = .next t ∧
      t = { s with pcie := { s.pcie with doeBusy := false }, tx := .doe 0 (words32 (report s nonce)) :: s.tx
                   bru := { s.bru with signing := s.bru.signQ.head?, signQ := s.bru.signQ.drop 1, signDrop := false } }) ∧
  (∀ (s : State), functionUp s = true →
    ∃ t, exec .doeAbort s = .next t ∧
      t = { s with pcie := { s.pcie with doeBusy := false }, bru := { s.bru with signQ := t.bru.signQ, signDrop := t.bru.signDrop } } ∧
      (∀ q ∈ t.bru.signQ, q.1 = false) ∧ (∀ n c, s.bru.signing = some (true, n, c) → t.bru.signDrop = true))

/-- R490 and R491: a START of the host runs a read at once and a program or an erase in the write window, holds it with STATUS 1 outside, and
refuses it with STATUS 2 where the device keeps the range or stands before VERIFY. At its end a read has filled the buffer, a program has
cleared bits, an erase has set its bytes to 0xFF. -/
def Obligations.HostFlash : Prop :=
  (∀ (op : Fin 5) (ctrl : W32) (s : State), op ≠ 0 → skotrumHeld s = false → s.hst.flashBusy = false → ctrl.toNat % 8 = op.val →
    getBit ctrl 3 = true →
    let c := if op = 1 then Instr.flashRead 0 ctrl else if op = 2 then .flashProgram 0 ctrl else if op = 3 then .flashErase4k 0 ctrl
      else .flashErase64k 0 ctrl
    let len := ctrl.toNat / 256 % 128 + 1
    ∃ t, exec c s = .next t ∧ t = { s with hst := t.hst } ∧ t.hst.event = s.hst.event ∧ t.hst.flashData = s.hst.flashData ∧
      t.hst.flashOp = BitVec.ofNat 3 op.val ∧
      (flashRefuses s op s.hst.flashAddr.toNat len = true → t.hst.flashStat = 2 ∧ t.hst.flashBusy = false) ∧
      (flashRefuses s op s.hst.flashAddr.toNat len = false → t.hst.flashBusy = true ∧
        t.hst.flashHeld = (decide (op ≠ 1) && !flashOpen s) ∧ t.hst.flashStat = (if t.hst.flashHeld then 1 else 0) ∧
        ∃ x, t.hst.flashRun = some x ∧ x.op = op.val ∧ x.addr = s.hst.flashAddr.toNat ∧ x.len = len)) ∧
  (∀ (r : Req) (ctrl : W32) (s : State), r ≠ 0 →
    ∀ c ∈ [Instr.flashRead r ctrl, .flashProgram r ctrl, .flashErase4k r ctrl, .flashErase64k r ctrl], exec c s = .next s) ∧
  (∀ (x : FlashRun) (s : State), s.hst.flashRun = some x → s.hst.flashHeld = false → s.bru.persRun = false → s.pwr.vioDown = false →
    1 ≤ x.op → x.op ≤ 4 →
    (x.op = 2 → x.data.length = x.len) → 1 ≤ x.len → x.len ≤ 128 →
    ∃ t, exec (.flashOpDone false) s = .next t ∧
      t = { s with hst := t.hst, board := { s.board with flash := t.board.flash }, bru := { s.bru with persRun := s.bru.persPend && flashOpen s } } ∧
      t.hst.flashBusy = false ∧ t.hst.flashStat = 0 ∧ t.hst.event = s.hst.event ∧
      (x.op = 1 → t.board = s.board ∧
        ∀ i < x.len, (flashBytes t 128).getD i 0 = Tbl.get 0xFF s.board.flash (x.addr + i)) ∧
      (x.op = 2 → t.hst.flashData = s.hst.flashData ∧ ∀ a, Tbl.get 0xFF t.board.flash a =
        if x.addr ≤ a ∧ a < x.addr + x.len then Tbl.get 0xFF s.board.flash a &&& x.data.getD (a - x.addr) 0 else Tbl.get 0xFF s.board.flash a) ∧
      (3 ≤ x.op → t.hst.flashData = s.hst.flashData ∧ ∀ a, Tbl.get 0xFF t.board.flash a =
        if x.addr ≤ a ∧ a < x.addr + eraseSize x.op then 0xFF else Tbl.get 0xFF s.board.flash a)) ∧
  (∀ (s : State), s.bru.persRun = true → exec (.flashOpDone false) s = .next s) ∧
  (∀ (x : FlashRun) (s : State), s.hst.flashRun = some x → s.hst.flashHeld = false → s.bru.persRun = false →
    ∃ t, exec (.flashOpDone true) s = .next t ∧ t.hst.flashBusy = false ∧ t.hst.flashStat = 3 ∧ t.hst.flashRun = none)

/-! ### The board interfaces (chapters 16, 17) -/

/-- R492, R493 and R507: the I3C target takes one dynamic address, its index, and returns telemetry words of one refresh, the index advancing by
one per word; a lost VAON ends everything, a lost VIO only undrives its pins until it returns.
R494: the test port. IDCODE, BYPASS and SAMPLE/PRELOAD leave the domains alone; EXTEST and its two AC forms, CLAMP and HIGHZ hold every
domain in reset until Test-Logic-Reset, which starts an L4; register access is requester 6, and reads all ones where the debug
fuse is not programmed. What the outputs do and the instruction register's value are PRESUMED (log 26). -/
def Obligations.I3cSuppliesAndTestPort : Prop :=
  (∀ (setdasa : Bool) (addr : BitVec 7) (s : State), i3cServes s = true → s.board.i3cAddr = none →
    exec (.i3cDynamicAddress setdasa addr) s = .next { s with
      board := { s.board with i3cAddr := some addr }, tx := if setdasa then s.tx else .i3cId (i3cPid s) 6 0 :: s.tx }) ∧
  (∀ (ix : Byte) (s : State), i3cServes s = true → s.board.i3cAddr ≠ none →
    exec (.i3cSetIndex ix) s = .next { s with board := { s.board with i3cIx := ix } }) ∧
  (∀ (n : Fin 257) (s : State), i3cServes s = true → s.board.i3cAddr ≠ none →
    ∃ t w, exec (.i3cRead n) s = .next t ∧
      t = { s with board := { s.board with i3cIx := s.board.i3cIx + BitVec.ofNat 8 n }, tx := .i3c w :: s.tx } ∧ w.length = n.val ∧
      ∀ k < n.val, w.getD k 0 = s.board.i3cTab.getD ((s.board.i3cIx.toNat + k) % 256) 0) ∧
  (∀ (s : State), i3cServes s = true → periodPassed s s.board.i3cAt 1000000 = true →
    ∃ t, exec .i3cTelemetryRefresh s = .next t ∧ t = { s with board := { s.board with i3cTab := t.board.i3cTab, i3cAt := some s.skt.time } } ∧ t.board.i3cTab.length = 12 ∧
      t.board.i3cTab[0]? = some (BitVec.ofNat 32 (hstId s)) ∧ t.board.i3cTab[1]? = some (BitVec.ofNat 32 (bruStatus s)) ∧
      t.board.i3cTab[7]? = some (BitVec.ofNat 32 (now s / 1000000))) ∧
  (∀ (s : State), ∃ t, exec .vaonLoss s = .next t ∧ t.rst.powered = false ∧ t.fuses = s.fuses ∧ t.board.flash = s.board.flash ∧ t.loess = [] ∧
    t.marl = [] ∧ t.thm.trip = false ∧ t.groups = [] ∧ t.queues = [] ∧ t.rst.backup = []) ∧
  (∀ (s : State), exec .vioLoss s = .next { s with pwr := { s.pwr with vioDown := true } }) ∧
  (∀ (s : State), exec .vioReturn s = .next { s with pwr := { s.pwr with vioDown := false } }) ∧
  (∀ (s : State), s.rst.powered = true →
    (∃ t, exec .jtagBypass s = .next t ∧ t = { s with board := { s.board with ir := .bypass, driven := false, floated := false } }) ∧
    (∃ t v, exec .jtagIdcode s = .next t ∧
      t = { s with board := { s.board with ir := .idcode, driven := false, floated := false }, tx := .jtag v :: s.tx } ∧
      v.toNat / 2 ^ 28 = 1 ∧ v.toNat / 2 ^ 12 % 2 ^ 16 = s.fuses.variant.toNat ∧ v.toNat % 2 ^ 12 = 2 * 0x5BD + 1) ∧
    (∃ t v, exec (.jtagSamplePreload none) s = .next t ∧
      t = { s with board := { s.board with ir := .samplePreload, driven := false, floated := false }, tx := .jtag v :: s.tx, tick := s.tick + 1 })) ∧
  (∀ (k : Nat) (b : Bool) (s : State), s.rst.powered = true →
    ∃ t, exec (.jtagSamplePreload (some [(k, b)])) s = .next t ∧
      t = { s with board := { s.board with ir := .samplePreload, driven := false, floated := false, bsr := t.board.bsr } } ∧
      Tbl.get false t.board.bsr k = b ∧ ∀ j, j ≠ k → Tbl.get false t.board.bsr j = Tbl.get false s.board.bsr j) ∧
  (∀ (s : State), s.rst.powered = true →
    ∀ c ∈ [Instr.jtagExtest, .jtagClamp, .jtagHighz, .jtagExtestPulse, .jtagExtestTrain],
      ∃ t, exec c s = .next t ∧ t.board.jhold = true ∧ t.board.bsr = s.board.bsr ∧ t.board.floated = decide (c = .jtagHighz) ∧
        t.board.driven = decide (c ≠ .jtagHighz) ∧ (∀ p : Tower, inReset t p = true) ∧ t.fuses = s.fuses ∧ t.board.flash = s.board.flash ∧
        (s.board.jhold = false → t.groups = [] ∧ t.queues = [] ∧ t.bru.stage = 0)) ∧
  (∀ (win : Fin 4096) (off : BitVec 16) (v : W32) (s : State), s.rst.powered = true → s.fuses.debugFuse = false →
    ∀ w ∈ [none, some v], ∃ t, exec (.jtagRegAccess win off w) s = .next t ∧
      t = { s with board := { s.board with ir := .regAccess, driven := false, floated := false }, tx := .jtag 0xFFFFFFFF :: s.tx }) ∧
  (∀ (win : Fin 4096) (off : BitVec 16) (v : W32) (s : State), s.rst.powered = true → s.fuses.debugFuse = true →
    let s1 : State := { s with board := { s.board with ir := .regAccess, driven := false, floated := false } }
    exec (.jtagRegAccess win off (some v)) s = exec (.registerWrite 6 win off v false) s1 ∧
    exec (.jtagRegAccess win off none) s =
      .next (send (.jtag (regRead 6 win off.toNat s1).2) (regRead 6 win off.toNat s1).1)) ∧
  (∀ (s : State), s.rst.powered = true →
    (s.board.jhold = false →
      exec .jtagTestLogicReset s = .next { s with board := { s.board with ir := .idcode, driven := false, floated := false } }) ∧
    (s.board.jhold = true → ∃ t, exec .jtagTestLogicReset s = .next t ∧ t.board.jhold = false ∧ t.rst.l4held = true ∧ t.rst.l4From = s.skt.time))

/-! ### Queues and sync objects (chapter 10) -/

/-- R78, R306 to R309: a word of a source that is not held, behind which no other waits, joins the source's open packet in the owner's assembly buffers and changes no queue; the
word that closes it links the whole packet into the queue in order, its last word marked, and raises the notice the queue
names.
R305, R310 and R312: a take by the queue's consumer removes and returns the head word (an empty queue
is stated apart); a clear with bit 25 set clears UNDERRUN. No other field of the queue and no other queue changes. -/
def Obligations.QueueWordsAndTakes : Prop :=
  (∀ (who : Agent) (q : Que) (word : Line) (bad : Bool) (s : State), who ≠ .host → wordHeld s who = false → othersHeld s who q = false →
    inReset s (queOwner s q) = false → (s.getPart (queOwner s q)).asm.length < 16 →
    let p := queOwner s q
    let old := (((s.getPart p).asm.find? (isOpen who q none)).map (·.words)).getD []
    old.length < 64 →
    (∃ t, exec (.queueAppend who q word bad) s = .next t ∧ t = { s with parts := t.parts } ∧
      ((t.getPart p).asm.find? (isOpen who q none)).map (·.words) = some (old ++ [(word, stagedParity word bad)]) ∧
      (t.getPart p).asm.filter (fun o => !isOpen who q none o) = (s.getPart p).asm.filter (fun o => !isOpen who q none o) ∧
      (t.getPart p).held_ = (s.getPart p).held_ ∧ ∀ k, k ≠ p → t.getPart k = s.getPart k) ∧
    ((s.getQue q).words.length + old.length + 1 ≤ queCapacity (s.getQue q) →
      ∃ t, exec (.queueClose who q word bad) s = .next t ∧
        (t.getQue q).words.map (fun w => (w.data, w.par)) =
          (s.getQue q).words.map (fun w => (w.data, w.par)) ++ old ++ [(word, stagedParity word bad)] ∧
        (t.getQue q).words.map (·.last) = (s.getQue q).words.map (·.last) ++ List.replicate old.length false ++ [true] ∧
        (t.getQue q).committed = (s.getQue q).committed + 1 ∧ (t.getPart p).asm.find? (isOpen who q none) = none ∧
        (∀ k, k ≠ q.val → t.getQue k = s.getQue k) ∧ ((s.getQue q).notice = 0 → (t.getPart p).notices = (s.getPart p).notices ++ [q.val]) ∧
        (((s.getQue q).words.filter (·.ring.isNone)).length + old.length < 32 →
          (t.getQue q).words.map (·.ring) = (s.getQue q).words.map (·.ring) ++ List.replicate (old.length + 1) none ∧ t.loess = s.loess ∧
          t.marl = s.marl ∧ ((s.getQue q).notice = 0 → t = { s with parts := t.parts, queues := t.queues })) ∧
        (32 ≤ ((s.getQue q).words.filter (·.ring.isNone)).length → old = [] → (s.getQue q).notice = 0 →
          (t.getQue q).words.map (·.ring) = (s.getQue q).words.map (·.ring) ++ [some (s.getQue q).ringNext] ∧
          t = { (memWrite (ringAddr (s.getQue q) (s.getQue q).ringNext) (lineBytes word) backLabel
            (s.modPart p fun x => { x with asm := x.asm.filter fun o => !isOpen who q none o })).1 with parts := t.parts, queues := t.queues }) ∧
        ((s.getQue q).notice = 2 → .msix (s.getQue q).target.toNat ∈ t.tx ∨ getBit t.pcie.pba (s.getQue q).target.toNat = true ∨
          64 ≤ (s.getQue q).target.toNat) ∧
        (∀ ix, (s.getQue q).notice = 1 → (s.getQue q).owed = [] → inReset s (synPart (s.getQue q).target.toNat) = false →
          synStore s (s.getQue q).target.toNat = some ix → (t.getSyn ix).counter = (s.getSyn ix).counter + 1))) ∧
  (∀ (who : Agent) (q : Que) (w : QWord) (r : List QWord) (s : State), inReset s (queOwner s q) = false → isConsumer s who q = true →
    (s.getQue q).words = w :: r → ∀ u d bad, wordRead (s.getQue q) w s = (u, d, bad) →
    (w.ring = none → u = s ∧ d = w.data ∧ (bad = true ↔ w.par ≠ wordParity w.data)) ∧
    ∃ t, exec (.queueTake who q) s = .next t ∧ t = { u with queues := t.queues, tx := t.tx } ∧
      t.tx = (if who = .host ∧ bad = true then .poisonedRead (lineBytes d) else .data who (lineBytes d)) :: u.tx ∧
      t.getQue q = { u.getQue q with words := r, lastWord := d, lastPoison := bad, lastEnd := w.last
                                     poisoned := if bad then (u.getQue q).poisoned + 1 else (u.getQue q).poisoned } ∧
      ∀ k, k ≠ q.val → t.getQue k = u.getQue k) ∧
  (∀ (who : Agent) (q : Que) (val : W64) (s : State), inReset s (queOwner s q) = false → mayClear s who q = true →
    ∃ t, exec (.queueClear who q val) s = .next t ∧ t = { s with queues := t.queues } ∧
      t.getQue q = { s.getQue q with underrun := (s.getQue q).underrun && !getBit val 25 } ∧ ∀ k, k ≠ q.val → t.getQue k = s.getQue k)

/-- R78, R79, R307, R308, R429 and R483: a word that finds no space, or comes while another source waits for the queue. A local
source is held with it and goes on once there is space and its turn has come, by the queue's token; the host's write is
discarded with its packet and recorded, and its further words to that queue go up to the next CLOSE; an open packet that
waits 100 µs for a word is discarded and counted. -/
def Obligations.QueueWordsWait : Prop :=
  (∀ (who : Agent) (q : Que) (word : Line) (bad : Bool) (s : State), who ≠ .host → (∀ a b c, who ≠ .remote a b c) → wordHeld s who = false →
    inReset s (queOwner s q) = false →
    othersHeld s who q = true ∨ ((s.getPart (queOwner s q)).asm = [] ∧ queCapacity (s.getQue q) ≤ (s.getQue q).words.length) →
    ∃ t, exec (.queueClose who q word bad) s = .next t ∧ t = { s with parts := t.parts } ∧
      (t.getPart (queOwner s q)).held_ = (s.getPart (queOwner s q)).held_ ++
        [{ who := who, q := q, word := word, bad := bad, close := true, dest := none, since := s.skt.time }] ∧
      ∀ k, k ≠ queOwner s q → t.getPart k = s.getPart k) ∧
  (∀ (q : Que) (word : Line) (bad : Bool) (s : State), q.val ∉ s.hst.dropping → inReset s (queOwner s q) = false →
    (s.getPart (queOwner s q)).asm = [] → queCapacity (s.getQue q) ≤ (s.getQue q).words.length →
    ∃ t, exec (.queueClose .host q word bad) s = .next t ∧ (t.getQue q).words = (s.getQue q).words ∧
      (t.getQue q).refused = (s.getQue q).refused + 1 ∧ t.hst.refReason = 2 ∧ t.hst.refQueue.toNat = q.val ∧ t.hst.refSeq = s.hst.refSeq + 1 ∧
      getBit t.hst.event 8 = true ∧ t.hst.dropping = s.hst.dropping) ∧
  (∀ (q : Que) (word : Line) (bad : Bool) (s : State), q.val ∈ s.hst.dropping →
    exec (.queueAppend .host q word bad) s = .next s ∧
    exec (.queueClose .host q word bad) s = .next { s with hst := { s.hst with dropping := s.hst.dropping.filter (· ≠ q.val) } }) ∧
  (∀ (p : Tower) (who : Agent) (h : HeldPut) (q : Que) (s : State),
    (s.getPart p).held_.find? (fun h => decide (h.who = who ∧ h.q = q.val) && heldReady s h) = some h → h.close = false → h.dest = none →
    queOwner s q = p.val → inReset s p = false → (s.getPart p).asm = [] → h.label = none →
    (releaseTurn s h = none → exec (.queueSpaceRelease p who q) s = .next s) ∧
    ∀ tok, releaseTurn s h = some tok →
    ∃ t, exec (.queueSpaceRelease p who q) s = .next t ∧
      t = { s with parts := t.parts, queues := t.queues, dmas := t.dmas, groups := t.groups } ∧
      (∀ c, t.getDma c = if decide (who = dmaAgent c) && decide (c < 384) then
        { s.getDma c with inFlight := (s.getDma c).inFlight.map fun e =>
            if e.held && h.elem == some e.k then { e with held := false, sent := true } else e } else s.getDma c) ∧
      (∀ j k, who = .group j k → ∀ a b c, (s.getGrp (gIx j k)).hold = .queue a b c → (s.getGrp (gIx j k)).mode = .held →
        (s.getGrp (gIx j k)).stack = [] → (t.getGrp (gIx j k)).mode = .ready ∧ (t.getGrp (gIx j k)).issued = none ∧
        (t.getGrp (gIx j k)).pc = (s.getGrp (gIx j k)).pc + 8) ∧
      (∀ i, (∀ j k, who = .group j k → i ≠ gIx j k) → t.getGrp i = s.getGrp i) ∧
      (∀ k, t.getQue k = if k = q.val then { s.getQue q with token := tok } else s.getQue k) ∧
      (t.getPart p).held_ = dropFirst (fun a => decide (a = h)) (s.getPart p).held_ ∧
      (t.getPart p).asm = [{ who := sourceOf who, q := q.val, words := [(h.word, stagedParity h.word h.bad)], last := s.skt.time, dest := none }]) ∧
  (∀ (p : Tower) (who : Agent) (q : Que) (o : OpenPkt) (s : State), (s.getPart p).asm = [o] → o.who = sourceOf who → o.q = q.val → o.dest = none →
    (∀ h ∈ (s.getPart p).held_, h.who ≠ o.who) → o.last.toNat + 100000 ≤ now s →
    ∃ t, exec (.packetTimeout p who q) s = .next t ∧ t = { s with parts := t.parts, queues := t.queues } ∧ (t.getPart p).asm = [] ∧
      t.getQue q = { s.getQue q with discard := (s.getQue q).discard + 1 } ∧ ∀ k, k ≠ q.val → t.getQue k = s.getQue k)

/-- R316 to R318, R320 and R484: each operation on a sync object takes one ticket and is logged; a signal adds its value, a reset leaves 0, a test and
an arm leave the counter; waiters that the counter satisfies are released, the others stay; the host waiter fires when
satisfied.
R316 to R319: a wait that the counter satisfies is answered at once with its own ticket; another joins the waiters, in one of 16 hardware
entries or in the overflow; an expired one leaves with satisfying ticket 0xFFFF_FFFF and the counter and tickets stay.
R321 and R443: the storage of an object fails: its waiters are gone, the lowest free spare slot of the partition takes the window over with
counter and ticket 0, a repair is recorded and REPAIR reported; without a spare the window answers with a bus error. -/
def Obligations.SyncObjects : Prop :=
  (∀ (who : Agent) (o : Syn) (v : W64) (ix : Nat) (s : State), inReset s (synPart o) = false → synStore s o = some ix →
    let x := s.getSyn ix
    let after (c : Instr) (op : Nat) (counter : W64) (armed : Option W64) : Prop :=
      ∃ t, exec c s = .next t ∧ (t.getSyn ix).counter = counter ∧ (t.getSyn ix).ticket = x.ticket + 1 ∧
        (t.getSyn ix).waiters = x.waiters.filter (fun w => !decide (w.threshold.toNat ≤ counter.toNat)) ∧
        (t.getSyn ix).log = ({ op := BitVec.ofNat 2 op, source := BitVec.ofNat 6 (synSource who), ticket := BitVec.ofNat 24 x.ticket.toNat } :: x.log).take 4 ∧
        (∀ k, k ≠ ix → t.getSyn k = s.getSyn k) ∧ t.loess = s.loess ∧ t.marl = s.marl ∧ t.queues = s.queues ∧
        (match armed with
          | some th =>
            if th.toNat ≤ counter.toNat then (t.getSyn ix).armed = none ∧ getBit t.hst.event 9 = true ∧
              (s.hst.synFired.length < 256 → t.hst.synFired = s.hst.synFired ++ [BitVec.ofNat 13 o.val])
            else (t.getSyn ix).armed = some th ∧ t.hst = s.hst
          | none => (t.getSyn ix).armed = none ∧ t.hst = s.hst) ∧
        (x.waiters = [] → t = { s with syncs := t.syncs, hst := t.hst, pcie := t.pcie, tx := t.tx })
    after (.syncSignal who o v) 0 (x.counter + v) x.armed ∧ after (.syncTest who o) 2 x.counter x.armed ∧ after (.syncReset who o) 3 0 x.armed ∧
      after (.syncArm who o v) 3 x.counter (some v) ∧
      (x.waiters = [] → x.armed = none →
        ∃ t, exec (.syncTest who o) s = .next t ∧ t.tx = .ticket who x.counter x.ticket x.ticket :: s.tx)) ∧
  (∀ (who : Agent) (o : Syn) (th : W64) (us : BitVec 12) (ix : Nat) (s : State), inReset s (synPart o) = false → synStore s o = some ix →
    (s.getSyn ix).waiters = [] → (s.getSyn ix).armed = none → th.toNat ≤ (s.getSyn ix).counter.toNat →
    ∃ t, exec (.syncWait who o th us) s = .next t ∧
      t = { s with syncs := t.syncs, tx := .ticket who (s.getSyn ix).counter (s.getSyn ix).ticket (s.getSyn ix).ticket :: s.tx } ∧
      (t.getSyn ix).ticket = (s.getSyn ix).ticket + 1 ∧ (t.getSyn ix).counter = (s.getSyn ix).counter ∧ (t.getSyn ix).waiters = []) ∧
  (∀ (who : Agent) (o : Syn) (th : W64) (us : BitVec 12) (ix : Nat) (s : State), inReset s (synPart o) = false → synStore s o = some ix →
    (s.getSyn ix).armed = none → (∀ w ∈ (s.getSyn ix).waiters, (s.getSyn ix).counter.toNat < w.threshold.toNat) →
    (s.getSyn ix).counter.toNat < th.toNat → overflowCount s < 65536 →
    ∃ t w, exec (.syncWait who o th us) s = .next t ∧ t = { s with syncs := t.syncs } ∧
      (t.getSyn ix).waiters = (s.getSyn ix).waiters ++ [w] ∧ w.who = who ∧ w.threshold = th ∧ w.ticket = (s.getSyn ix).ticket ∧
      w.hw = decide (((s.getSyn ix).waiters.filter (·.hw)).length < 16) ∧
      w.until_ = (if us = 0 then none else some (s.skt.time + BitVec.ofNat 64 (1000 * us.toNat))) ∧
      (t.getSyn ix).counter = (s.getSyn ix).counter ∧ (t.getSyn ix).ticket = (s.getSyn ix).ticket + 1) ∧
  (∀ (who : Agent) (o : Syn) (th : W64) (us : BitVec 12) (ix : Nat) (s : State), inReset s (synPart o) = false → synStore s o = some ix →
    (∀ a b c, who ≠ .remote a b c) → (s.getSyn ix).counter.toNat < th.toNat → 16 ≤ ((s.getSyn ix).waiters.filter (·.hw)).length →
    65536 ≤ overflowCount s →
    ∃ t, exec (.syncWait who o th us) s = .next t ∧ t = { s with parts := t.parts } ∧
      (t.getPart (synPart o)).arrivals = (s.getPart (synPart o)).arrivals ++
        [{ who := who, obj := o, threshold := th, us := us.toNat, since := none }]) ∧
  (∀ (o : Syn) (ix : Nat) (w : Waiter) (s : State), synStore s o = some ix → (s.getSyn ix).waiters.find? (expired s w.who) = some w →
    w.pkt = none → (∀ j k, w.who ≠ .group j k) →
    ∃ t, exec (.syncWaitTimeout o w.who) s = .next t ∧
      t = { s with syncs := t.syncs, tx := .ticket w.who (s.getSyn ix).counter 0xFFFFFFFF w.ticket :: s.tx } ∧
      t.getSyn ix = { s.getSyn ix with waiters := dropFirst (fun a => decide (a = w)) (s.getSyn ix).waiters }) ∧
  (∀ (o : Syn) (k : Fin 32) (s : State), (s.getSyn o).failed = false →
    (∀ i < k.val, (s.getSyn (4096 + 32 * synPart o + i)).replacing ≠ none ∨ (s.getSyn (4096 + 32 * synPart o + i)).failed = true) →
    (s.getSyn (4096 + 32 * synPart o + k)).replacing = none → (s.getSyn (4096 + 32 * synPart o + k)).failed = false →
    (∀ i : Fin 32, (s.getSyn (4096 + 32 * synPart o + i)).replacing ≠ some (BitVec.ofNat 12 o.val)) → s.rst.repairs.length < 1023 →
    ∃ t e, exec (.syncObjectFail o) s = .next t ∧ (t.getSyn o).failed = true ∧ (t.getSyn o).waiters = [] ∧
      synStore t o = some (4096 + 32 * synPart o + k.val) ∧ (t.getSyn (4096 + 32 * synPart o + k)).counter = 0 ∧
      (t.getSyn (4096 + 32 * synPart o + k)).ticket = 0 ∧ getBit t.hst.event 6 = true ∧
      t.rst.repairs = s.rst.repairs ++ [e] ∧ e.kind = 0x0F ∧ e.unit.toNat = o.val ∧ e.index.toNat = 4096 + 32 * synPart o + k.val) ∧
  (∀ (o : Syn) (s : State), (s.getSyn o).failed = false →
    (∀ i : Fin 32, (s.getSyn (4096 + 32 * synPart o + i)).failed = true) →
    ∃ t, exec (.syncObjectFail o) s = .next t ∧ synStore t o = none ∧
      (inReset t (synPart o) = false → ∃ u, exec (.syncTest .mgmt o) t = .next u ∧ u = { t with tx := .busError .mgmt :: t.tx }))

/-! ### Tasks (chapters 01, 05, 09, 10) -/

/-- R42 to R45, R288 to R294: the next message is taken whole from its queue and decided. A refused one is counted in its class and answered
with its code; an accepted one stands in the lowest free entry of the task table and is counted, and acknowledged where it asks. An accepted
real-time task has a window of its duration at the floor, no earlier than the setup allowance and no later than its deadline, that
passes every check of R291. -/
def Obligations.TaskAdmission : Prop :=
  ∀ (p : Tower) (q tok : Nat) (s : State), pcRuns s p = true → nextNotice s p = some (q, tok) →
    let d := parseTask s p (headPacket s q)
    let c := d.task.cls.val
    let u := takePacket q s
    localQueue u d.task.reply.toNat ≠ some q →
    ((∀ w ∈ (s.getQue q).words.take (headLeft (s.getQue q)), w.ring = none) → u = { s with queues := u.queues } ∧
      (u.getQue q).words = (s.getQue q).words.drop (headLeft (s.getQue q)) ∧ ∀ k, k ≠ q → u.getQue k = s.getQue k) ∧
    ∃ t, exec (.taskNoticeTake p) s = .next t ∧ (t.getQue q).words = (u.getQue q).words ∧ (t.getPart p).noticeTok = tok ∧ t.skt = u.skt ∧
      match decideTask u p d with
      | .error code =>
        (t.getPart p).tasks = (u.getPart p).tasks ∧ Tbl.get 0 (t.getPart p).refused c = Tbl.get 0 (u.getPart p).refused c + 1 ∧
          (t.getPart p).admitted = (u.getPart p).admitted ∧ .reply d.task.reply (replyWord u p 2 0 code 0 d.task) ∈ t.tx
      | .ok w =>
        (t.getPart p).refused = (u.getPart p).refused ∧ Tbl.get 0 (t.getPart p).admitted c = Tbl.get 0 (u.getPart p).admitted c + 1 ∧
          (d.ack = true → .reply d.task.reply (replyWord u p 1 0 0 0 d.task) ∈ t.tx) ∧
          ∃ x, getTask t p (freeEntry u p) = some x ∧
            (w = none → x = d.task ∧ d.task.rt = false) ∧
            ∀ b e, w = some (b, e) → x = { d.task with winS := b, winE := e } ∧ now u + setupNs ≤ b ∧ e = b + floorDur d.task ∧
              e ≤ d.task.deadline ∧ windowCheck u p d.task b e = 0

/-- R138, R139, R291, R293, R299 and R314: a window's setup chooses its sites and pre-empts the other work on them; a task's next group goes to a
free slot of a site it may use, ready at the entry with its mask, and the task counts it; on a site of its window no array stays stopped for throttle (R299); a group
without a thread has ended at once.
R291: displaced best-effort work returns, oldest first, to its own site where that is free: the site restores from the save's area. -/
def Obligations.PlacementAndRestore : Prop :=
  (∀ (p : Tower) (e : TaskIx) (x : Task) (s : State), pcRuns s p = true → getTask s p e = some x → hasWindow x = true → x.ending = none →
    x.winS ≤ now s + setupNs → now s < x.winE → x.chosen = [] → windows s p = [(e.val, x)] →
    ∃ t, exec (.windowSetup p e) s = .next t ∧ 
      getTask t p e = some { x with chosen := chooseSites s p e x, late := x.late || decide ((chooseSites s p e x).length < x.sites) } ∧
      ((∀ j ∈ chooseSites s p e x, othersOn s j { p := p, e := e } = false) → t = { s with parts := t.parts }) ∧
      ∀ j ∈ chooseSites s p e x, othersOn s j { p := p, e := e } = true → saveAllowed s j = true → (t.getSite j).mode = 1) ∧
  (∀ (p : Tower) (e : TaskIx) (x : Task) (s : State), pcRuns s p = true → getTask s p e = some x → x.ending = none →
    x.placed < x.sites * x.groups → 32 * x.placed < x.threads →
    (∃ j ∈ placeSites s { p := p, e := e } x, (siteRoom s j { p := p, e := e } x).isSome = true) →
    ∃ t j k b, exec (.groupPlace p e) s = .next t ∧
      t = { s with parts := t.parts, groups := t.groups, sites := t.sites, arys := if hasWindow x then t.arys else s.arys } ∧
      (∀ a : Nat, a / 2 ≠ j → t.getAry a = s.getAry a) ∧ (∀ a : Nat, getBit (s.getAry a).cause 1 = false → t.getAry a = s.getAry a) ∧
      (hasWindow x = true → ∀ a : Nat, a / 2 = j → getBit (t.getAry a).cause 1 = false) ∧
      j ∈ placeSites s { p := p, e := e } x ∧ k < 24 ∧ (s.getGrp (gIx j k)).mode = .empty ∧
      t.getGrp (gIx j k) = { mode := .ready, task := some { p := p, e := e }, ctx := BitVec.ofNat 6 x.ctx, cls := BitVec.ofNat 4 x.cls
                             number := x.placed, regs := x.regs, regBase := b, pc := x.entry, exec := ~~~startExited x x.placed
                             exited := startExited x x.placed } ∧
      getTask t p e = some { x with placed := x.placed + 1 } ∧ ∀ i, i ≠ gIx j k → t.getGrp i = s.getGrp i) ∧
  (∀ (p : Tower) (e : TaskIx) (x : Task) (s : State), pcRuns s p = true → getTask s p e = some x → x.ending = none →
    x.placed < x.sites * x.groups → x.threads ≤ 32 * x.placed →
    ∃ t, exec (.groupPlace p e) s = .next t ∧ t = { s with parts := t.parts } ∧
      getTask t p e = some { x with placed := x.placed + 1, ended := x.ended + 1 }) ∧
  (∀ (p : Tower) (sv : Saved) (s : State), pcRuns s p = true → (s.getPart p).saved.find? (saveWaits s) = some sv → sv.site ∈ towerSites p →
    restoreSite s sv.site = true → restoreAllowed s sv.site = true →
    ∃ t, exec (.beWorkRestore p) s = .next t ∧ t = { s with sites := t.sites } ∧ (t.getSite sv.site).mode = 3 ∧
      (t.getSite sv.site).saveBase = sv.base ∧ ∀ j, j ≠ sv.site → t.getSite j = s.getSite j)

/-- R46, R281, R301, R302, R307 and R315: a task whose work has ended signals its sync object, posts its completion message with its outcome, and leaves
the table, after the translations of its context where a fault ended it; a task that did not meet its deadline counts as voided. A message that a full reply queue holds keeps the task in the table until its word is
stored.
R276, R295 to R297, R302: a window that ends with its task unfinished demotes it; a deadline that passes ends it as voided with its reason, or
as a fault message still waiting says; fault messages end it as faulted, with the first reason of Table 9.6 among them; the task stays in the table until its work has stopped. -/
def Obligations.TaskEnds : Prop :=
  (∀ (p : Tower) (e : TaskIx) (x : Task) (o : Nat × Nat × Nat) (s : State), pcRuns s p = true → getTask s p e = some x →
    outcome s { p := p, e := e } x = some o → (x.sync = .done ∨ (x.sync = .due ∧ x.complSync = false)) →
    ∃ t, exec (.taskCompletion p e) s = .next t ∧ (∀ k, k ≠ e.val → getTask t p k = getTask s p k) ∧
      (x.complMsg = true → .reply x.reply (replyWord s p 3 o.1 o.2.1 o.2.2 x) ∈ t.tx) ∧
      (x.complMsg = false → getTask t p e = none ∧
        let s0 := if x.ending.any (fun y => y.1 == 1) then invalidate (wholeCtx x.ctx) s else s
        t = { s0 with parts := t.parts }) ∧
      (getTask t p e = none ∨ getTask t p e = some { x with ending := some o, sync := .posting }) ∧
      Tbl.get 0 (t.getPart p).voided x.cls =
        Tbl.get 0 (s.getPart p).voided x.cls + if o.1 = 3 ∧ getTask t p e = none then 1 else 0) ∧
  (∀ (p : Tower) (e : TaskIx) (x : Task) (o : Nat × Nat × Nat) (q : Nat) (s : State), pcRuns s p = true → getTask s p e = some x →
    outcome s { p := p, e := e } x = some o → x.sync = .done → x.complMsg = true → localQueue s x.reply.toNat = some q →
    inReset s (queOwner s q) = false → (s.getPart (queOwner s q)).asm = [] → (s.getPart (queOwner s q)).held_ = [] →
    othersHeld s (.pc p) q = false →
    ∃ t, exec (.taskCompletion p e) s = .next t ∧
      (if (s.getQue q).words.length < queCapacity (s.getQue q) then
        getTask t p e = none ∧
          (t.getQue q).words.map (·.data) = (s.getQue q).words.map (·.data) ++ [replyWord s p 3 o.1 o.2.1 o.2.2 x]
      else getTask t p e = some { x with ending := some o, sync := .posting } ∧ (t.getQue q).words = (s.getQue q).words ∧
        (t.getPart (queOwner s q)).held_ = [{ who := .pc p, q := q, word := replyWord s p 3 o.1 o.2.1 o.2.2 x, bad := false, close := true
                                              dest := none, since := s.skt.time, task := some { p := p, e := e }, label := some (taskLabel x) }])) ∧
  (∀ (p : Tower) (r : TaskRef) (x : Task) (h : HeldPut) (q : Que) (s : State), (s.getPart p).held_ = [h] → h.who = .pc r.p → h.q = q.val →
    h.dest = none → h.close = true → h.task = some r → getTask s r.p r.e = some x → queOwner s q = p.val → inReset s p = false →
    (releaseTurn s h).isSome = true → lf h.word 0 7 0 = 3 →
    (s.getPart p).asm = [] → (s.getQue q).words.length < queCapacity (s.getQue q) →
    ∃ t, exec (.queueSpaceRelease p (.pc r.p) q) s = .next t ∧ getTask t r.p r.e = none ∧ (t.getPart p).held_ = [] ∧
      (t.getQue q).words.map (·.data) = (s.getQue q).words.map (·.data) ++ [postedWord s h]) ∧
  (∀ (p : Tower) (e : TaskIx) (x : Task) (o : Nat × Nat × Nat) (k : Syn) (ix : Nat) (s : State), pcRuns s p = true →
    getTask s p e = some x → outcome s { p := p, e := e } x = some o → x.sync = .due → x.complSync = true → x.complMsg = false →
    x.syncAddr.toNat = s.net.id.toNat * 2 ^ 40 + syncAddr k 0 → inReset s (synPart k) = false → synStore s k = some ix →
    ∃ t, exec (.taskCompletion p e) s = .next t ∧ getTask t p e = none ∧ (t.getSyn ix).counter = (s.getSyn ix).counter + 1) ∧
  (∀ (p : Tower) (e : TaskIx) (x : Task) (s : State), pcRuns s p = true → getTask s p e = some x → hasWindow x = true → x.ending = none →
    x.winE ≤ now s →
    ∃ t, exec (.windowEndDemote p e) s = .next t ∧ t = { s with parts := t.parts } ∧
      getTask t p e = some { x with demoted := true, chosen := [], late := x.late || capacityLost s p x } ∧ ∀ k, k ≠ e.val → getTask t p k = getTask s p k) ∧
  (∀ (p : Tower) (e : TaskIx) (x : Task) (s : State), pcRuns s p = true → getTask s p e = some x → x.rt = true → x.ending = none →
    x.deadline ≤ now s → workDone s { p := p, e := e } x = false →
    ∃ t y, exec (.deadlineExpiry p e) s = .next t ∧ getTask t p e = some y ∧ y.ending = some ((pendingFault s { p := p, e := e }).getD (3, voidReason s p x, 0)) ∧
      t.skt = s.skt) ∧
  (∀ (p : Tower) (e : TaskIx) (x : Task) (s : State), pcRuns s p = true → getTask s p e = some x → x.ending = none →
    (∃ m ∈ (s.getPart p).faultMsgs, m.task = { p := p, e := e }) →
    ∃ t y m, exec (.taskFaultEnd p e) s = .next t ∧ getTask t p e = some y ∧ m ∈ (s.getPart p).faultMsgs ∧ m.task = { p := p, e := e } ∧
      (∀ n ∈ (s.getPart p).faultMsgs, n.task = { p := p, e := e } → m.reason ≤ n.reason) ∧
      y.ending = some (1, m.reason, if m.reason = 3 then 0 else m.exc) ∧ y.endFrom = s.skt.time ∧
      (∀ n ∈ (t.getPart p).faultMsgs, n.task ≠ { p := p, e := e }) ∧ t.skt = s.skt)

/-! ### Matrix arrays (chapters 03, 04) -/

/-- R104 and R173: a post enters the group's descriptor at the end of the array's FIFO and the group goes on; a full FIFO holds the group, and
so does one that others wait for; once a slot is free the waiter that the FIFO's token names posts its descriptor, and the token goes on.
R112 to R115 and R136: the other writes of an array's control registers. -/
def Obligations.ArrayPostsAndControl : Prop :=
  (∀ (j : Site) (k : Slot) (w : W64) (s : State),
    let i := gIx j k
    let g := s.getGrp i
    let a := 2 * j.val + b2n (bit w.toNat 45)
    runsOp s j k w 0x70 0x70 = true → g.storeErr = none → released g 2 = true →
    ib w 63 46 = 0 → iDst w = 0 → iSb w = 0 → iSc w = 0 → iSa w % 2 = 0 → regsOk g [iSa w + 1] = true → lowEight (actLanes g w) = true →
    ((s.getAry a).fifo.length < 8 → apostWaiters s j a = [] →
      ∃ t d, exec (.apost j k w) s = .next t ∧ t = { s with arys := t.arys, groups := t.groups } ∧ t.getGrp i = advance g ∧
        (t.getAry a) = { s.getAry a with fifo := (s.getAry a).fifo ++ [d] } ∧ d.words = laneWord g (iSa w) ∧ d.ctx.val = g.ctx.toNat ∧
        d.cls.val = g.cls.toNat ∧ d.task = g.task ∧ (∀ b, b ≠ a → t.getAry b = s.getAry b) ∧ ∀ x, x ≠ i → t.getGrp x = s.getGrp x) ∧
    (8 ≤ (s.getAry a).fifo.length ∨ apostWaiters s j a ≠ [] →
      ∃ t, exec (.apost j k w) s = .next t ∧ t = { s with groups := t.groups } ∧ (t.getGrp i).mode = .held ∧ (t.getGrp i).issued = g.issued ∧
        (t.getGrp i).pc = g.pc ∧ ∃ b : Ary, b.val = a ∧ (t.getGrp i).hold = .apost b (laneWord g (iSa w)))) ∧
  (∀ (j : Site) (k : Slot) (a : Ary) (w : Line) (s : State), (s.getGrp (gIx j k)).mode = .held → (s.getGrp (gIx j k)).hold = .apost a w →
    (s.getAry a).fifo.length < 8 → tokenFirst 24 (s.getAry a).fifoTok (apostWaiters s j a) = k.val →
    ∃ t d, exec (.apostSlotFree j k) s = .next t ∧ t = { s with arys := t.arys, groups := t.groups } ∧
      (let losers := (apostWaiters s j a).filter (· ≠ k.val)
       (t.getAry a).fifoTok = if losers = [] then (s.getAry a).fifoTok else tokenFirst 24 (k.val + 1) losers) ∧
      (t.getAry a).fifo = (s.getAry a).fifo ++ [d] ∧ d.words = w ∧ (t.getGrp (gIx j k)).hold = .none ∧
      t.getGrp (gIx j k) = advance (unhold (s.getGrp (gIx j k)))) ∧
  (∀ (r : Req) (a : Ary) (s : State), siteWritable s r (a / 2) (a % 2) = true →
    ((s.getAry a).mode = .parked → getBit (s.getAry a).cause 2 = true → holdsPass (s.getAry a) = true →
      ∃ t, exec (.aryDiscard r a) s = .next t ∧ t = { s with arys := t.arys, parts := t.parts } ∧ (t.getAry a).code = 2 ∧
        holdsPass (t.getAry a) = false ∧ (t.getAry a).fifo.map (·.words) = ((s.getAry a).fifo.drop 1).map (·.words) ∧ getBit (t.getAry a).cause 2 = false ∧
        (t.getAry a).mode = (if (s.getAry a).cause &&& 3#3 = 0 then .halted else .parked)) ∧
    (((s.getAry a).mode = .parked ∨ (s.getAry a).mode = .halted) → (s.getAry a).fifo ≠ [] → holdsPass (s.getAry a) = false →
      ∃ t, exec (.aryFlush r a) s = .next t ∧ t = { s with arys := t.arys } ∧ (t.getAry a).fifo = [] ∧ (t.getAry a).code = 5 ∧
        (∀ d, (s.getAry a).fifo.getLast? = some d → (t.getAry a).nDone = BitVec.ofNat 16 d.made) ∧
        (t.getAry a).mode = (if (s.getAry a).mode = .halted then .idle else .parked)) ∧
    ((s.getAry a).mode = .halted →
      ∃ t, exec (.aryClrHalt r a) s = .next t ∧ t = { s with arys := t.arys } ∧
        t.getAry a = { s.getAry a with mode := if (s.getAry a).fifo.isEmpty then .idle else .running }) ∧
    ((s.getAry a).mode = .idle → ∀ (hi : Bool) (val : W32),
      ∃ t, exec (.arySaveBaseWrite r a hi val) s = .next t ∧ t = { s with arys := t.arys } ∧
        (t.getAry a).saveBase.toNat = if hi then val.toNat % 2 ^ 8 * 2 ^ 32 + (s.getAry a).saveBase.toNat % 2 ^ 32
          else (s.getAry a).saveBase.toNat / 2 ^ 32 * 2 ^ 32 + val.toNat / 2 ^ 16 * 2 ^ 16) ∧
    (∀ (val : W32), ∃ t, exec (.arySrSeedHiWrite r a val) s = .next t ∧ t = { s with arys := t.arys } ∧
      (t.getAry a).seedNew = some (BitVec.ofNat 64 ((s.getAry a).seedLo.toNat + val.toNat * 2 ^ 32)) ∧ (t.getAry a).s0 = (s.getAry a).s0) ∧
    ((s.getAry a).mode = .running → (s.getAry a).cause = 0 →
      ∃ t, exec (.aryClrHalt r a) s = .next t ∧ t = { s with hst := t.hst, pcie := t.pcie, tx := t.tx } ∧
        Tbl.get 0 t.hst.regErr (a / 48) = Tbl.get 0 s.hst.regErr (a / 48) + 1))

/-- R91, R97, R100, R105, R112 and R517: how an idle array takes its next descriptor. A PASS is taken at step 0, with the active tile
where it keeps that, else with its stationary load to come; a bad one ends with a descriptor error, a halt and a message; a SYNC signals its object and ends; an ACC_OUT
starts and invalidates the active tile. -/
def Obligations.ArrayTakesDescriptors : Prop :=
  (∀ (a : Ary) (d : ADesc) (tile : Tile) (s : State), takes (s.getAry a) = true → (s.getAry a).fifo.head? = some d →
    (s.getAry a).cur = none → (s.getAry a).next = [] → (s.getAry a).accRun = none → dOp d.words = 1 → (s.getAry a).active = some tile →
    descOk s a d (some tile) = true → dSKeep d.words = true →
    ∃ t, exec (.arrayPass a) s = .next t ∧ t = { s with arys := t.arys } ∧
      t.getAry a = { seedNow (s.getAry a) with
        mode := .running
        cur := some { desc := d, t := 0, loaded := true, left := 0, tile := tile, psum := []
                      done := if dDest d.words then 0 else d.made, lost := false, bad := false } } ∧
      ∀ b, b ≠ a.val → t.getAry b = s.getAry b) ∧
  (∀ (a : Ary) (d : ADesc) (s : State), takes (s.getAry a) = true → (s.getAry a).fifo.head? = some d →
    (s.getAry a).cur = none → (s.getAry a).next = [] → (s.getAry a).accRun = none → dOp d.words = 1 → dSKeep d.words = false →
    descOk s a d (s.getAry a).active = true →
    let r : PassRun := { desc := d, t := 0, loaded := false, left := loadBytes d.words, tile := noTile, psum := []
                         done := if dDest d.words then 0 else d.made, lost := false, bad := false }
    ∃ t, exec (.arrayPass a) s = .next t ∧ t = s.modAry a fun x => { seedNow x with mode := .running, cur := some r }) ∧
  (∀ (a : Ary) (d : ADesc) (s : State), takes (s.getAry a) = true → (s.getAry a).fifo.head? = some d →
    (s.getAry a).cur = none → (s.getAry a).next = [] → (s.getAry a).accRun = none →
    ∀ c ∈ (if dOp d.words = 2 then [Instr.arraySync a] else if dOp d.words = 3 then [.accOut a] else [.arrayPass a]),
      descOk s a d (if dOp d.words = 2 ∨ dOp d.words = 3 then none else (s.getAry a).active) = false →
      ∃ t, exec c s = .next t ∧ t = { s with arys := t.arys, parts := t.parts } ∧ (t.getAry a).mode = .halted ∧ (t.getAry a).code = 1 ∧
        (t.getAry a).nDone = 0 ∧ (t.getAry a).fifo = (s.getAry a).fifo.drop 1 ∧
        ∀ r, d.task = some r → (t.getPart r.p).faultMsgs = (s.getPart r.p).faultMsgs ++ [{ task := r, reason := 5, exc := 1 }]) ∧
  (∀ (a : Ary) (d : ADesc) (ix : Nat) (s : State), takes (s.getAry a) = true → (s.getAry a).fifo.head? = some d →
    (s.getAry a).cur = none → (s.getAry a).next = [] → (s.getAry a).accRun = none → dOp d.words = 2 → descOk s a d none = true →
    inReset s (synPart (dSyncId d.words)) = false → synStore s (dSyncId d.words) = some ix →
    ∃ t, exec (.arraySync a) s = .next t ∧ (t.getSyn ix).counter = (s.getSyn ix).counter + 1 ∧ (t.getAry a).fifo = (s.getAry a).fifo.drop 1 ∧
      (t.getAry a).code = 0 ∧ (t.getAry a).mode = (if ((s.getAry a).fifo.drop 1).isEmpty then .idle else .running)) ∧
  (∀ (a : Ary) (d : ADesc) (s : State), takes (s.getAry a) = true → (s.getAry a).fifo.head? = some d →
    (s.getAry a).cur = none → (s.getAry a).next = [] → (s.getAry a).accRun = none → dOp d.words = 3 → descOk s a d none = true →
    ∃ t, exec (.accOut a) s = .next t ∧ t = { s with arys := t.arys } ∧
      t.getAry a = { seedNow (s.getAry a) with mode := .running, active := none, accRun := some { desc := d, n := 0, done := 0 } } ∧
      ∀ b, b ≠ a.val → t.getAry b = s.getAry b)

/-- R32, R90 to R93, R101, R120 to R122 and Table 3.16: one step of a pass alone in its array, whose port step brings the bytes it
lacks. Where values it needs have not returned, or its drain cannot take the column that leaves, the whole array stands and
the step is counted; else every column moves one lane on with its sums, and the column that leaves lane 63 goes to the
accumulator, added to what it holds where ACCUM is 1. -/
def Obligations.ArraySteps : Prop :=
  ∀ (a : Ary) (r : PassRun) (s : State), (s.getAry a).mode = .running → (s.getAry a).busy = false → (s.getAry a).cur = some r →
    (s.getAry a).next = [] → (s.getAry a).accRun = none → r.loaded = true → r.bad = false → 0 < dN r.desc.words →
    r.t < dN r.desc.words + 63 → portShort s a = false → paceHolds s (a / 48) (a % 48) = false →
    let got := (s.getAry a).got + feedDemand (s.getAry a)
    (∀ feed scales, stepValues r ≠ [] → (feed = false ∨ (scales = false ∧ feedScaled r.desc.words = true)) →
      drainBlocked (s.getAry a) r = false →
      ∃ t, exec (.arrayStep a feed scales) s = .next t ∧ t = { s with arys := t.arys, sites := t.sites } ∧
        t.getAry a = { s.getAry a with feed := (s.getAry a).feed + 1, got := got } ∧ (∀ b, b ≠ a.val → t.getAry b = s.getAry b) ∧
        ∀ j, j ≠ a.val / 2 → t.getSite j = s.getSite j) ∧
    (drainBlocked (s.getAry a) r = true →
      ∃ t, exec (.arrayStep a true true) s = .next t ∧ t = { s with arys := t.arys, sites := t.sites } ∧
        t.getAry a = { s.getAry a with drain := (s.getAry a).drain + 1, got := got } ∧ (∀ b, b ≠ a.val → t.getAry b = s.getAry b) ∧
        ∀ j, j ≠ a.val / 2 → t.getSite j = s.getSite j) ∧
    (∀ vals s2, drainBlocked (s.getAry a) r = false → feedPass a r (portStep a s) = (s2, .ok vals) →
      s2.getAry a = { (portStep a s).getAry a with far := (s2.getAry a).far, retryFrom := (s2.getAry a).retryFrom } →
      ∃ t q, exec (.arrayStep a true true) s = .next t ∧ t = { s2 with arys := t.arys, govs := t.govs } ∧
        (∀ b, b ≠ a.val → t.getAry b = s2.getAry b) ∧ (t.getAry a).got = 0 ∧
        (t.getAry a).cur = some q ∧ q.t = r.t + 1 ∧ q.psum = nextSums r vals ∧ q.desc = r.desc ∧ q.tile = r.tile ∧
        (t.getAry a).feed = (s.getAry a).feed ∧ (t.getAry a).drain = (s.getAry a).drain ∧
        (r.t < 63 → (t.getAry a).acc = (s.getAry a).acc ∧ (t.getAry a).stA = (s.getAry a).stA ∧ q.done = r.done) ∧
        (63 ≤ r.t → dDest r.desc.words = false → dAccOff r.desc.words + dN r.desc.words ≤ 512 → r.desc.made ≤ r.t - 63 →
          q.done = max r.done (r.t - 62) ∧
          ∀ row < 64, getBit (dMask r.desc.words) row = true →
            let key := 512 * row + dAccOff r.desc.words + (r.t - 63)
            let sum := leaveSum r vals row 63
            Tbl.get 0 (t.getAry a).acc key =
              toF32 (if dAccum r.desc.words then Sys2Proof.Machine.Num.add (ofF32 (Tbl.get 0 (s.getAry a).acc key)) sum else sum)))

/-- R96, R103, R106, R107, R112 and R113: a full block goes to memory, and when all its writes are answered its 64 columns count; a pass with all its work done ends
OK, its count taken and its tile active where it is whole; a fault on a walk stops the array with cause FAULT, and an error of a read ends the pass with
BUS_ERR. -/
def Obligations.ArrayEndsPasses : Prop :=
  (∀ (a : Ary) (r : PassRun) (s : State), (s.getAry a).mode = .running → (s.getAry a).busy = false → (s.getAry a).accRun = none →
    (s.getAry a).cur = some r → 0 < passOpen r → (s.getAry a).out = some [] →
    ∃ t, exec (.drainBlockCommit a) s = .next t ∧ t = { s with arys := t.arys } ∧
      t.getAry a = { s.getAry a with stA := (s.getAry a).stB, stB := [], out := none, retryFrom := none
                                     cur := some { r with done := min (dN r.desc.words) (r.done + 64) } }) ∧
  (∀ (a : Ary) (r : PassRun) (s s1 : State), (s.getAry a).mode = .running → (s.getAry a).busy = false → (s.getAry a).accRun = none →
    (s.getAry a).cur = some r → 0 < passOpen r → (s.getAry a).out = none →
    let b := doneBlocks r.done (dN r.desc.words)
    writeBlock a r.desc b (min 64 (dN r.desc.words - 64 * b)) s = (s1, .ok []) →
    ∃ t, exec (.drainBlockCommit a) s = .next t ∧ t = s1.modAry a (blockDone 1)) ∧
  (∀ (a : Ary) (r : PassRun) (s : State), (s.getAry a).mode = .running → (s.getAry a).busy = false → (s.getAry a).accRun = none →
    (s.getAry a).cur = some r → passDone r = true → dSyncEn r.desc.words = false → (∀ q, (s.getAry a).next.head? = some q → q.bad = false) →
    ∃ t, exec (.arrayPassComplete a) s = .next t ∧ t = { s with arys := t.arys } ∧ (t.getAry a).passes = (s.getAry a).passes + 1 ∧
      (t.getAry a).code = 0 ∧ (t.getAry a).nDone = BitVec.ofNat 16 (dN r.desc.words) ∧ (t.getAry a).active = (if r.lost then none else some r.tile) ∧
      (t.getAry a).cur = (s.getAry a).next.head? ∧ (t.getAry a).next = (s.getAry a).next.drop 1 ∧ (t.getAry a).fifo = (s.getAry a).fifo.drop 1 ∧
      (t.getAry a).mode = (if ((s.getAry a).fifo.drop 1).isEmpty then .idle else .running) ∧ (t.getAry a).acc = (s.getAry a).acc) ∧
  (∀ (a : Ary) (d : ADesc) (kind : ArrayAccess) (va : BitVec 48) (s1 s : State) (c : Nat) (e : W64) (lv : Nat),
    (s.getAry a).mode = .running → (s.getAry a).busy = false → walkDesc (s.getAry a) kind va.toNat = some d →
    translate (a / 2) d.ctx va (if kind = .destination then .write else .read) s = (s1, .fault c e lv) →
    ∃ t, exec (.arrayWalkDone a kind va) s = .next t ∧ (t.getAry a).mode = .stopping ∧ getBit (t.getAry a).cause 2 = true ∧
      (t.getAry a).faultAddr = va ∧ (t.getAry a).faultKind = BitVec.ofNat 3 (faultKindOf kind)) ∧
  (∀ (a : Ary) (r : PassRun) (s : State), (s.getAry a).mode = .running → (s.getAry a).busy = false → (s.getAry a).accRun = none →
    (s.getAry a).cur = some r →
    ∃ t, exec (.arrayReadError a) s = .next t ∧ t = { s with arys := t.arys, parts := t.parts } ∧ (t.getAry a).mode = .halted ∧
      (t.getAry a).code = 3 ∧ (t.getAry a).nDone = BitVec.ofNat 16 r.done ∧ (t.getAry a).cur = none ∧
      ∀ d x, (s.getAry a).fifo.head? = some d → d.task = some x →
        (t.getPart x.p).faultMsgs = (s.getPart x.p).faultMsgs ++ [{ task := x, reason := 3, exc := 0 }])

/-- R108, R109, R110 and R112: a stop of the owning controller or the management core stops the array with its cause, a pass that has completed ending OK first; once saved it stands PARKED;
a resume that clears its last cause restores its pass, or lets an array without one go on, and the pass runs once the restore has
read what the save does not hold. The waiting
entries stay through all of it. -/
def Obligations.ArrayStopsAndResumes : Prop :=
  (∀ (r : Req) (a : Ary) (cause : BitVec 3) (s : State), siteWritable s r (a / 2) (a % 2) = true → (s.getAry a).busy = false →
    cause.toNat % 4 ≠ 0 → ((s.getAry a).mode = .idle ∨ (s.getAry a).mode = .halted ∨
      ((s.getAry a).mode = .running ∧ headDone (s.getAry a) = false)) →
    ∃ t, exec (.aryStop r a cause) s = .next t ∧ t = { s with arys := t.arys } ∧ (t.getAry a).mode = .stopping ∧
      (t.getAry a).cause = (s.getAry a).cause ||| BitVec.ofNat 3 (cause.toNat % 4) ∧
      (t.getAry a).fifo.map (·.words) = (s.getAry a).fifo.map (·.words) ∧
      (t.getAry a).acc = (s.getAry a).acc ∧ ((s.getAry a).mode = .halted → (t.getAry a).haltNext = true)) ∧
  (∀ (r : Req) (a : Ary) (cause : BitVec 3) (q : PassRun) (s : State), siteWritable s r (a / 2) (a % 2) = true → (s.getAry a).busy = false →
    cause.toNat % 4 ≠ 0 → (s.getAry a).mode = .running → (s.getAry a).accRun = none → (s.getAry a).cur = some q → passDone q = true →
    dSyncEn q.desc.words = false → (∀ x ∈ (s.getAry a).next, x.t = 0) →
    ∃ t, exec (.aryStop r a cause) s = .next t ∧ t = { s with arys := t.arys } ∧ (t.getAry a).mode = .stopping ∧
      (t.getAry a).cause = (s.getAry a).cause ||| BitVec.ofNat 3 (cause.toNat % 4) ∧ (t.getAry a).code = 0 ∧
      (t.getAry a).nDone = BitVec.ofNat 16 (dN q.desc.words) ∧ (t.getAry a).passes = (s.getAry a).passes + 1 ∧
      (t.getAry a).fifo.map (·.words) = ((s.getAry a).fifo.drop 1).map (·.words) ∧ holdsPass (t.getAry a) = false ∧
      (t.getAry a).active = (if q.lost then none else some q.tile)) ∧
  (∀ (a : Ary) (s : State), (s.getAry a).mode = .stopping → (s.getAry a).cause ≠ 0 →
    finishing (s.getAry a) = false ∨ getBit (s.getAry a).cause 2 = true →
    ∃ t, exec (.arySaveDone a) s = .next t ∧ (t.getAry a).mode = .parked ∧ (t.getAry a).cause = (s.getAry a).cause ∧
      (t.getAry a).fifo = (s.getAry a).fifo ∧ (t.getAry a).cur = (s.getAry a).cur ∧ (t.getAry a).acc = (s.getAry a).acc ∧ t.marl = s.marl ∧
      (holdsPass (s.getAry a) = true → (t.getAry a).code = 0x10) ∧ ∀ b, b ≠ a.val → t.getAry b = s.getAry b) ∧
  (∀ (r : Req) (a : Ary) (cause : BitVec 3) (s : State), siteWritable s r (a / 2) (a % 2) = true → (s.getAry a).mode = .parked →
    cause ≠ 0 → (getBit cause 2 = true → getBit (s.getAry a).cause 2 = true) →
    ∃ t, exec (.aryResume r a cause) s = .next t ∧ t = { s with arys := t.arys } ∧ (t.getAry a).cause = (s.getAry a).cause &&& ~~~cause ∧
      (t.getAry a).fifo = (s.getAry a).fifo ∧
      (t.getAry a).mode = (if (t.getAry a).cause ≠ 0 then .parked else if holdsPass (s.getAry a) then .restoring
        else if (s.getAry a).haltNext then .halted else if (s.getAry a).fifo.isEmpty then .idle else .running)) ∧
  (∀ (a : Ary) (s : State), (s.getAry a).mode = .restoring → ((s.getAry a).cur = none ∨ (s.getAry a).accRun ≠ none) →
    ∃ t, exec (.aryRestoreDone a true) s = .next t ∧ t = { s with arys := t.arys } ∧
      t.getAry a = { s.getAry a with mode := if (s.getAry a).cause ≠ 0 then .parked else .running }) ∧
  (∀ (a : Ary) (r : PassRun) (s s1 s2 : State) (v : List (Nat × Nat × Sys2Proof.Machine.Num)), (s.getAry a).mode = .restoring →
    (s.getAry a).accRun = none → (s.getAry a).cur = some r → feedValues a r.desc (restoreValues r) s1 = (s2, .ok v) →
    (restoreTile r = none → s1 = s →
      exec (.aryRestoreDone a true) s =
        .next (s2.modAry a fun x => { x with cur := some r, mode := if x.cause ≠ 0 then .parked else .running })) ∧
    (∀ d tile, restoreTile r = some d → loadTile a d s = (s1, .ok tile) →
      exec (.aryRestoreDone a true) s =
        .next (s2.modAry a fun x => { x with cur := some { r with tile := tile, loaded := true, left := 0 }
                                             mode := if x.cause ≠ 0 then .parked else .running })))

/-! ### Thread groups (chapters 05, 06, 07) -/

/-- R141 to R146: an issue step takes a ready slot's fetched instruction, which stands issued with its sources and
destinations cached; the parts of the step that issue nothing are counted; an active group behind a held stage counts its held steps; a
pacer hold stops the whole step, one that does not wait counts anew, and an instruction that needs a register still to be loaded is not taken. A ready resident group takes a free active slot; with none free, the active group held longest, for at
least 32 steps, gives its own up. -/
def Obligations.GroupsIssue : Prop :=
  (∀ (j : Site) (ready : List (Slot × RegUse)) (s : State), siteInService s j = true → siteIssues s j = true → paceHolds s (j / 24) (48 + j % 24) = true →
    ∃ t, exec (.instructionIssue j ready) s = .next t ∧ t = { s with govs := t.govs } ∧ (t.getGov (j / 24)).pacer = true) ∧
  (∀ (j : Site) (s : State), siteInService s j = true → siteIssues s j = true → paceHolds s (j / 24) (48 + j % 24) = false →
    (∃ t, exec (.instructionIssue j []) s = .next t ∧ t = { s with sites := t.sites, groups := t.groups, govs := t.govs } ∧
      t.getSite j = { s.getSite j with idle := (s.getSite j).idle + 2 } ∧
      ∀ k : Slot, t.getGrp (gIx j k) = (if (s.getGrp (gIx j k)).slotted = true
        then { s.getGrp (gIx j k) with heldFor := if waits (s.getGrp (gIx j k)) = true then (s.getGrp (gIx j k)).heldFor + 1 else 0 }
        else s.getGrp (gIx j k))) ∧
    ∀ (k : Slot) (u : RegUse) (w : W64) (s1 : State), canIssue s j k = true → fetchWord j k (paceStart (j / 24) (48 + j % 24) s) = (s1, .word w) →
      (waitsForLoad (s1.getGrp (gIx j k)) u w = true →
        ∃ t, exec (.instructionIssue j [(k, u)]) s = .next t ∧ t = { s1 with sites := t.sites, groups := t.groups } ∧
          (t.getGrp (gIx j k)).issued = (s1.getGrp (gIx j k)).issued ∧ (t.getSite j).idle = (s1.getSite j).idle + 2) ∧
      (waitsForLoad (s1.getGrp (gIx j k)) u w = false →
      ∃ t, exec (.instructionIssue j [(k, u)]) s = .next t ∧ t = { s1 with sites := t.sites, groups := t.groups } ∧
        (t.getGrp (gIx j k)).issued = some w ∧ (t.getGrp (gIx j k)).pc = (s1.getGrp (gIx j k)).pc ∧
        (t.getGrp (gIx j k)).reg = (s1.getGrp (gIx j k)).reg ∧
        (t.getGrp (gIx j k)).cache = cacheAfter (s1.getGrp (gIx j k)).cache u w ∧ (t.getSite j).idle = (s1.getSite j).idle + 1)) ∧
  (∀ (j : Site) (k : Slot) (s : State), activeCount s j < 6 → siteIssues s j = true → waitsForSlot s j k = true →
    ∃ t, exec (.groupActivate j [k]) s = .next t ∧ t = { s with sites := t.sites, groups := t.groups } ∧
      t.getGrp (gIx j k) = { s.getGrp (gIx j k) with slotted := true, cache := [] } ∧ otherGroups (gIx j k) s t) ∧
  (∀ (j : Site) (k w : Slot) (s : State), 6 ≤ activeCount s j → waitsForSlot s j w = true →
    let longHeld (x : Slot) : Prop :=
      (s.getGrp (gIx j x)).slotted = true ∧ waits (s.getGrp (gIx j x)) = true ∧ 32 ≤ (s.getGrp (gIx j x)).heldFor
    longHeld k → (∀ x : Slot, x ≠ k → longHeld x → (s.getGrp (gIx j x)).heldFor < (s.getGrp (gIx j k)).heldFor) →
    ∃ t, exec (.activeSlotRelease j [w]) s = .next t ∧ t = { s with groups := t.groups } ∧
      t.getGrp (gIx j k) = { s.getGrp (gIx j k) with slotted := false, cache := [] } ∧ otherGroups (gIx j k) s t)

/-- R139, R140, R143, R153, R154, R161 to R163, R172 and R178: the instructions that act on a group's own registers write, in their active lanes only, the
result that each rule gives, and the group goes on; nothing else changes. A division by zero gives all ones and the
dividend; the FP32 forms honour subnormals and give one of the FP32 values next to the exact result (which one: the model's
choice, log 7); a result that the manual leaves to the toolchain's listing is free; a field not used that is not 0 is ILLEGAL. -/
def Obligations.GroupArithmetic : Prop :=
  ∀ (j : Site) (k : Slot) (w : W64) (s : State),
    let i := gIx j k
    let g := s.getGrp i
    let m := actLanes g w
    let wrote (t : State) (vs : List Nat) : Prop := wentOn i g t ∧ regsBut g (t.getGrp i) vs m ∧ otherGroups i s t
    let illegal (c : Instr) : Prop := ∃ t, exec c s = .next t ∧ t = { s with groups := t.groups, parts := t.parts } ∧ otherGroups i s t ∧
      (t.getGrp i).mode = .halted ∧ (t.getGrp i).exc = 1 ∧ (t.getGrp i).reg = g.reg
    (runsOp s j k w 0 0x2F = true → ∀ kind : VectorKind, strayField kind w = true → ∀ wide : Bool, illegal (.vectorArith j k w kind wide)) ∧
    (runsOp s j k w 0x30 0x3F = true → ∀ kind : VectorKind, strayField kind w = true → illegal (.specialFunction j k { word := w, kind := kind })) ∧
    (runsOp s j k w 0 0x2F = true → regsOk g [iDst w, iSa w, iSb w, iSc w] = true → ∀ kind : VectorKind, strayField kind w = false →
      ∃ t, exec (.vectorArith j k w kind false) s = .next t ∧ t = { s with groups := t.groups, tick := t.tick } ∧ wrote t [iDst w] ∧
        ∀ l, laneActive g w l →
          let a := (getReg g (iSa w) l).toNat
          let b := (getReg g (iSb w) l).toNat
          let d := (getReg (t.getGrp i) (iDst w) l).toNat
          match kind with
          | .quotient => (b = 0 → d = 2 ^ 32 - 1) ∧ (0 < b → a < 2 ^ 31 → b < 2 ^ 31 → d = a / b)
          | .remainder => (b = 0 → d = a) ∧ (0 < b → a < 2 ^ 31 → b < 2 ^ 31 → d = a % b)
          | .other _ => True
          | fp => ∃ f, d = fpForm fp a b (getReg g (iSc w) l).toNat f % 2 ^ 32) ∧
    (runsOp s j k w 0 0x2F = true → regsOk g [iDst w + 1, iSa w + 1, iSb w + 1, iSc w + 1] = true → ∀ kind : VectorKind, strayField kind w = false →
      ∃ t, exec (.vectorArith j k w kind true) s = .next t ∧ t = { s with groups := t.groups, tick := t.tick } ∧ wrote t [iDst w, iDst w + 1] ∧
        ∀ l, laneActive g w l → getPair g (iSb w) l = 0 →
          match kind with
          | .quotient => getPair (t.getGrp i) (iDst w) l = 2 ^ 64 - 1
          | .remainder => getPair (t.getGrp i) (iDst w) l = getPair g (iSa w) l
          | _ => True) ∧
    (runsOp s j k w 0x30 0x3F = true → regsOk g [iDst w, iSa w, iSb w, iSc w] = true →
      ∀ kind : VectorKind, strayField kind w = false → ∃ t, exec (.specialFunction j k { word := w, kind := kind }) s = .next t ∧ t = { s with groups := t.groups, tick := t.tick } ∧
        wrote t [iDst w] ∧ ∀ l, laneActive g w l → getReg g (iSb w) l = 0 →
          (kind = .quotient → getReg (t.getGrp i) (iDst w) l = BitVec.allOnes 32) ∧
          (kind = .remainder → getReg (t.getGrp i) (iDst w) l = getReg g (iSa w) l)) ∧
    (runsOp s j k w 0x50 0x5F = true → ib w 39 16 = 0 → regsOk g [iDst w] = true → ∀ which : SpecialReg,
      ∃ t, exec (.specialRead j k w which) s = .next t ∧ t = { s with groups := t.groups } ∧ wrote t [iDst w] ∧
        ∀ l, laneActive g w l → getReg (t.getGrp i) (iDst w) l =
          (match which with
            | .lane => BitVec.ofNat 32 l
            | .group => BitVec.ofNat 32 g.number
            | .slot => BitVec.ofNat 32 k
            | .site => BitVec.ofNat 32 j
            | .context => g.ctx.setWidth 32
            | .cls => g.cls.setWidth 32
            | d => BitVec.ofNat 32 (specialValue s j k g d l))) ∧
    (runsOp s j k w 0x60 0x60 = true → ib w 63 54 = 0 → iSc w = 0 → (if bit w.toNat 47 then iSb w = 0 else ib w 52 48 = 0) →
      (bit w.toNat 53 = true → iSa w % 2 = 0 ∧ iDst w % 2 = 0) →
      let d := b2n (bit w.toNat 53)
      regsOk g [iSa w + d, iDst w + d, iSb w] = true →
      ∃ t, exec (.shfl j k w) s = .next t ∧ t = { s with groups := t.groups } ∧ wrote t [iDst w, iDst w + d] ∧
        ∀ l, laneActive g w l →
          let b := if bit w.toNat 47 then ib w 52 48 else (getReg g (iSb w) l).toNat
          ∀ c, shflSource (ib w 46 45) l b = c →
            let from_ := match c with
              | some x => if getBit m x then x else l
              | none => l
            getReg (t.getGrp i) (iDst w) l = getReg g (iSa w) from_ ∧ getReg (t.getGrp i) (iDst w + d) l = getReg g (iSa w + d) from_) ∧
    (runsOp s j k w 0x61 0x61 = true → ib w 63 53 = 0 → iSb w = 0 → iSc w = 0 →
      let p := if bit w.toNat 51 then ~~~(getPred g (ib w 50 47)) else getPred g (ib w 50 47)
      (ib w 46 45 ≤ 1 → ib w 15 12 = 0 → iSa w = 0 → bit w.toNat 52 = false →
        ∃ t, exec (.vote j k w) s = .next t ∧ t = { s with groups := t.groups } ∧
          t.getGrp i = advance { g with pred := (t.getGrp i).pred } ∧ otherGroups i s t ∧
          (∀ x, x ≠ ib w 11 8 → getPred (t.getGrp i) x = getPred g x) ∧
          (ib w 11 8 ≠ 15 → ∀ l, laneActive g w l → (getBit (getPred (t.getGrp i) (ib w 11 8)) l = true ↔
            if ib w 46 45 = 0 then ∀ x, laneActive g w x → getBit p x = true else ∃ x, laneActive g w x ∧ getBit p x = true))) ∧
      (ib w 46 45 = 2 → iSa w = 0 → bit w.toNat 52 = false → regsOk g [iDst w] = true →
        ∃ t, exec (.vote j k w) s = .next t ∧ t = { s with groups := t.groups } ∧ wrote t [iDst w] ∧
          ∀ l, laneActive g w l → getReg (t.getGrp i) (iDst w) l = p &&& m) ∧
      (ib w 46 45 = 3 → ib w 51 47 = 0 → regsOk g [iSa w + b2n (bit w.toNat 52), iDst w] = true →
        ∃ t, exec (.vote j k w) s = .next t ∧ t = { s with groups := t.groups } ∧ wrote t [iDst w] ∧
          ∀ l x, laneActive g w l → x < 32 → (getBit (getReg (t.getGrp i) (iDst w) l) x = true ↔ laneActive g w x ∧
            getReg g (iSa w) x = getReg g (iSa w) l ∧ (bit w.toNat 52 = true → getReg g (iSa w + 1) x = getReg g (iSa w + 1) l)))) ∧
    (runsOp s j k w 0x62 0x62 = true → ib w 63 50 = 0 → ib w 48 45 ≤ 4 → (bit w.toNat 49 = false → iSc w = 0) →
      iSa w % 4 = 0 → iSb w % 4 = 0 → iSc w % 8 = 0 → iDst w % 8 = 0 →
      let n := if ib w 48 45 ≤ 1 then 4 else 2
      overlap (iDst w) 8 (iSa w) n = false → overlap (iDst w) 8 (iSb w) n = false →
      regsOk g ([iSa w + n - 1, iSb w + n - 1, iDst w + 7] ++ (if bit w.toNat 49 then [iSc w + 7] else [])) = true →
      (m = BitVec.allOnes 32 →
        ∃ t, exec (.mma j k w) s = .next t ∧ t = { s with groups := t.groups } ∧ wrote t ((List.range 8).map (iDst w + ·)) ∧
          ∀ row < 16, ∀ col < 16, getReg (t.getGrp i) (iDst w + col % 8) (row + 16 * (col / 8)) = mmaResult g w row col) ∧
      (m ≠ BitVec.allOnes 32 →
        ∃ t, exec (.mma j k w) s = .next t ∧ t = { s with groups := t.groups, parts := t.parts } ∧ (t.getGrp i).mode = .halted ∧
          (t.getGrp i).exc = 2 ∧ (t.getGrp i).reg = g.reg)) ∧
    (runsOp s j k w 0x6E 0x6E = true → ib w 63 45 = 0 → iDst w % 2 = 0 → ib w 39 16 = 0 → regsOk g [iDst w + 1] = true →
      ∃ t, exec (.time j k w) s = .next t ∧ t = { s with groups := t.groups } ∧ wrote t [iDst w, iDst w + 1] ∧
        ∀ l, laneActive g w l → getPair (t.getGrp i) (iDst w) l = now s)

/-- R147 to R149, R165, R174, R185, R191 and R192: loads and stores. In shared space a store puts each active lane's bytes at the task's
allocation, the highest lane's staying where lanes meet, and a load brings the bytes to the destination registers; in context space
the lanes' translated addresses are read at once into a reply that LOAD_REPLY writes, or written with one acknowledge awaited;
a discard changes no register and no byte of memory. -/
def Obligations.GroupLoadsAndStores : Prop :=
  (∀ (j : Site) (k : Slot) (w : W64) (log2 : Fin 5) (s : State), runsOp s j k w 0x48 0x4F = true → iSc w = 0 →
    let i := gIx j k
    let g := s.getGrp i
    let n := 2 ^ log2.val
    let base := (slmAlloc s j g.task).1
    let off (l : Nat) : Nat := (getReg g (iSa w) l).toNat
    (∀ l, laneActive g w l → off l % n = 0 ∧ off l + n ≤ (slmAlloc s j g.task).2) →
    (iDst w = 0 → regsOk g [iSa w, iSb w + ((n + 3) / 4 - 1)] = true →
      ∃ t, exec (.sharedLoadStore j k w true log2) s = .next t ∧ t = { s with groups := t.groups, sites := t.sites } ∧
        t.getGrp i = advance g ∧ otherGroups i s t ∧
        t.getSite j = { s.getSite j with slm := (t.getSite j).slm, replay := (t.getSite j).replay, slmTaken := 0 } ∧
        (∀ x : Nat, x ≠ j → t.getSite x = s.getSite x) ∧
        (∀ a, (∀ l, laneActive g w l → a < base + off l ∨ base + off l + n ≤ a) → slmRead t j a 1 = slmRead s j a 1) ∧
        ∀ l, laneActive g w l → (∀ x, laneActive g w x → l < x → off x ≠ off l) →
          slmRead t j (base + off l) n = storeBytes g (iSb w) l n) ∧
    (iSb w = 0 → regsOk g [iSa w, iDst w + ((n + 3) / 4 - 1)] = true →
      ∃ t, exec (.sharedLoadStore j k w false log2) s = .next t ∧ t = { s with groups := t.groups, sites := t.sites, tick := t.tick } ∧
        wentOn i g t ∧ otherGroups i s t ∧ t.getSite j = { s.getSite j with replay := (t.getSite j).replay, slmTaken := 0 } ∧
        regsBut g (t.getGrp i) ((List.range ((n + 3) / 4)).map (iDst w + ·)) (actLanes g w) ∧
        ∀ l, laneActive g w l →
          (n < 4 → (getReg (t.getGrp i) (iDst w) l).toNat % 2 ^ (8 * n) = ofLe (slmRead s j (base + off l) n)) ∧
          ∀ q < n / 4, (getReg (t.getGrp i) (iDst w + q) l).toNat = ofLe (slmRead s j (base + off l + 4 * q) 4))) ∧
  (∀ (j : Site) (k : Slot) (w : W64) (form : MemForm) (parity : Bool) (s s1 : State) (ls : List (Nat × BitVec 48 × XRes)),
    runsOp s j k w 0x40 0x47 = true →
    let i := gIx j k
    let g := s.getGrp i
    let n := 2 ^ form.log2.val
    waitsReply g = false → iSc w = 0 → (form.store = true ∨ form.discard = true → iDst w = 0) → (form.store = false ∨ form.discard = true → iSb w = 0) →
    (form.discard = true ∨ ∀ l, laneActive g w l → (BitVec.ofNat 48 (getPair g (iSa w) l)).toNat % n = 0) →
    regsOk g ([iSa w + 1] ++ (if form.discard then [] else if form.store then [iSb w + ((n + 3) / 4 - 1)] else [iDst w + ((n + 3) / 4 - 1)])) = true →
    xlateLanes j g.ctx.toNat (if form.discard then .hint else if form.store then .write else .read)
      ((lanesOf (actLanes g w)).map fun l => (l, BitVec.ofNat 48 (getPair g (iSa w) l))) s = (s1, ls) →
    laneFault ls = none → laneResetting s1 ls = false → fabricLanes ls = [] →
    let use : PortUse := if form.store then .l1Write else .l1Fill
    let crosses : Bool := if form.store then touchesMemory (localLanes ls) else fillsLine s1 j parity (localLanes ls)
    (form.discard = true → (∀ e ∈ localLanes ls, ∀ c, (resident s1 c (e.2.2 / 256)).any Tag.locked = false) →
      ∃ t, exec (.contextLoadStore j k w form parity) s = .next t ∧ t.marl = s1.marl ∧ t.loess = s1.loess ∧ t.sites = s1.sites ∧
        t.getGrp i = advance (s1.getGrp i) ∧ otherGroups i s1 t) ∧
    (form.discard = false → crosses = true → portMay s1 j use = false →
      exec (.contextLoadStore j k w form parity) s = .next (stallGroup i (portHold j use s1))) ∧
    ((crosses = true → portMay s1 j use = true) →
    let sp := if crosses then portTake j use s1 else s1
    (form.discard = false → form.store = false → ∀ (s2 : State) (ws : List (Nat × Nat × W32)),
      loadLocal (grpAgent j k) j (iDst w) n (agentLabel sp (grpAgent j k)) parity (localLanes ls) sp = (s2, [], ws) →
      ∃ t p, exec (.contextLoadStore j k w form parity) s = .next t ∧ t = { s2 with groups := t.groups, tick := t.tick } ∧
        t.getGrp i = advance { s2.getGrp i with loads := dropWrites ws (s2.getGrp i).loads ++ [p] } ∧ otherGroups i s2 t ∧
        p.writes = ws ∧ p.tid = none ∧ p.open_ = false) ∧
    (form.discard = false → form.store = true → ∀ (s2 : State) (l : Nat) (va : BitVec 48) (pa : Nat), localLanes ls = [(l, va, pa)] →
      physWrite (grpAgent j k) pa (storeBytes (sp.getGrp i) (iSb w) l n) (agentLabel sp (grpAgent j k)) sp = (s2, none) →
      ∃ t, exec (.contextLoadStore j k w form parity) s = .next t ∧ t = { s2 with groups := t.groups, sites := t.sites } ∧
        t.getGrp i = advance { s2.getGrp i with stores := (s2.getGrp i).stores + 1 } ∧ otherGroups i s2 t))) ∧
  (∀ (j : Site) (k : Slot) (ix : Nat) (p : LoadPend) (s : State), (s.getGrp (gIx j k)).loads[ix]? = some p → p.open_ = false → p.tid = none →
    (s.getGrp (gIx j k)).mode ≠ .held → (s.getGrp (gIx j k)).ends = false →
    ∃ t, exec (.loadReply j k ix) s = .next t ∧ t = { lateAt j s with groups := t.groups } ∧ otherGroups (gIx j k) s t ∧
      t.getGrp (gIx j k) = { s.getGrp (gIx j k) with
        loads := dropWrites p.writes ((s.getGrp (gIx j k)).loads.take ix) ++ (s.getGrp (gIx j k)).loads.drop (ix + 1), reg := (t.getGrp (gIx j k)).reg, stall := false } ∧
      ∀ v l x, p.writes = [(v, l, x)] → getReg (t.getGrp (gIx j k)) v l = x) ∧
  (∀ (j : Site) (k : Slot) (e : Option (BitVec 48)) (s : State), (s.getGrp (gIx j k)).stores ≠ 0 → (s.getGrp (gIx j k)).mode ≠ .held →
    (s.getGrp (gIx j k)).ends = false →
    ∃ t, exec (.storeAcknowledge j k e) s = .next t ∧ t = { lateAt j s with groups := t.groups } ∧ otherGroups (gIx j k) s t ∧
      t.getGrp (gIx j k) = { s.getGrp (gIx j k) with
        stores := (s.getGrp (gIx j k)).stores - 1
        storeErr := if (s.getGrp (gIx j k)).storeErr = none then e else (s.getGrp (gIx j k)).storeErr }) ∧
  (∀ (j : Site) (s : State),
    (∀ use : PortUse, ∃ t, exec (.homePortGuardGrant j use) s = .next t ∧ t = { s with sites := t.sites } ∧
      (∀ x : Nat, x ≠ j → t.getSite x = s.getSite x) ∧
      (portSpare s j use = false → portPassed (s.getSite j) use < 7 →
        t.getSite j = setPassed (portPassed (s.getSite j) use + 1) use (s.getSite j)) ∧
      (portSpare s j use = true ∨ 7 ≤ portPassed (s.getSite j) use →
        portPassed (t.getSite j) use = 0 ∧ portMay t j use = true ∧ (t.getSite j).portWait = (s.getSite j).portWait ∧
        (t.getSite j).portGuard = if portSpare s j use = false ∧ useReads use = true then 3 else (s.getSite j).portGuard)) ∧
    ∀ (bank : Fin 32) (needed : Bool), ∃ t, exec (.slmDmaGuardGrant j bank needed) s = .next t ∧ t = { s with sites := t.sites } ∧
      Tbl.get 0 (t.getSite j).slmPass bank = (if needed = false ∨ 7 ≤ Tbl.get 0 (s.getSite j).slmPass bank then 0
        else Tbl.get 0 (s.getSite j).slmPass bank + 1) ∧
      (t.getSite j).slmTaken = (if needed = true ∧ 7 ≤ Tbl.get 0 (s.getSite j).slmPass bank then setBit (s.getSite j).slmTaken bank true
        else (s.getSite j).slmTaken) ∧
      ∀ b, b ≠ bank.val → Tbl.get 0 (t.getSite j).slmPass b = Tbl.get 0 (s.getSite j).slmPass b)

/-- R155 to R159 and R181: atomics. In shared space a legal atomic changes only the elements its lanes address; an integer add of u32 adds the
sum of the lanes' operands and gives each lane the value before its own addition, lanes in ascending order; an exchange
or compare-and-swap gives the old element. In context space the updates are made at the home, and the old values come with a
reply, or an acknowledge is awaited. -/
def Obligations.GroupAtomics : Prop :=
  ∀ (j : Site) (k : Slot) (w : W64) (c : Instr) (s : State),
    let i := gIx j k
    let g := s.getGrp i
    (c = .atom j k w ∧ iOpc w = 0x68 ∧ aSerial w = false) ∨ (c = .atomSerial j k w ∧ iOpc w = 0x68 ∧ aSerial w = true) ∨
      (c = .red j k w ∧ iOpc w = 0x69) →
    runs s j k w = true → waitsReply g = false → atomLegal g w = true → aOrd w = 0 →
    let n := atomSize (aTy w)
    let base := (slmAlloc s j g.task).1
    let off (l : Nat) : Nat := (getReg g (iSa w) l).toNat
    (aShared w = true → (∀ l, laneActive g w l → off l % n = 0 ∧ off l + n ≤ (slmAlloc s j g.task).2) →
      ∃ t, exec c s = .next t ∧ t = { s with groups := t.groups, sites := t.sites } ∧ wentOn i g t ∧ otherGroups i s t ∧
        regsBut g (t.getGrp i) (if iOpc w = 0x68 then [iDst w, iDst w + b2n (aTy w == 2 || aTy w == 3)] else []) (actLanes g w) ∧
        t.getSite j = { s.getSite j with slm := (t.getSite j).slm, replay := (t.getSite j).replay, slmTaken := 0 } ∧
        (∀ a, (∀ l, laneActive g w l → a < base + off l ∨ base + off l + n ≤ a) → slmRead t j a 1 = slmRead s j a 1) ∧
        (iOpc w = 0x69 → (t.getGrp i).reg = g.reg) ∧
        ∀ o l0, laneActive g w l0 → (∀ l, laneActive g w l → off l = o) →
          let old := ofLe (slmRead s j (base + o) n)
          let new := ofLe (slmRead t j (base + o) n)
          let v (l : Nat) : Nat := (getReg g (iSb w) l).toNat
          (aAop w = 0 → aTy w = 0 → new = (old + ((lanesOf (actLanes g w)).map v).sum) % 2 ^ 32 ∧
            (iOpc w = 0x68 → ∀ l, laneActive g w l → (getReg (t.getGrp i) (iDst w) l).toNat =
              (old + (((lanesOf (actLanes g w)).filter (· < l)).map v).sum) % 2 ^ 32)) ∧
          (iOpc w = 0x68 → 6 ≤ aAop w → aTy w = 0 → (∀ l, laneActive g w l → l = l0) →
            (getReg (t.getGrp i) (iDst w) l0).toNat = old ∧
            new = (if aAop w = 6 ∨ old = (getReg g (iSc w) l0).toNat then v l0 else old))) ∧
    (aShared w = false → (∀ l, laneActive g w l → (BitVec.ofNat 48 (getPair g (iSa w) l)).toNat % n = 0) →
      ∀ (s1 s2 : State) (ls : List (Nat × BitVec 48 × XRes)) (vals : List (Nat × Nat)),
      xlateLanes j g.ctx.toNat .atomic ((lanesOf (actLanes g w)).map fun l => (l, BitVec.ofNat 48 (getPair g (iSa w) l))) s = (s1, ls) →
      laneFault ls = none → laneResetting s1 ls = false → fabricLanes ls = [] →
      let crosses : Bool := touchesMemory (localLanes ls)
      (crosses = true → portMay s1 j .l1Write = true) →
      let sp := if crosses then portTake j .l1Write s1 else s1
      atomLocal (grpAgent j k) j (agentLabel sp (grpAgent j k)) w (sp.getGrp i) (targetsOf (localLanes ls)) sp = (s2, [], vals) →
      localLanes ls ≠ [] →
      ∃ t, exec c s = .next t ∧ t = { s2 with groups := t.groups } ∧ otherGroups i s2 t ∧
        (iOpc w = 0x69 → t.getGrp i = advance { s2.getGrp i with stores := (s2.getGrp i).stores + 1 }) ∧
        (iOpc w = 0x68 → ∃ p, t.getGrp i = advance { s2.getGrp i with loads := dropWrites (retWrites w vals) (s2.getGrp i).loads ++ [p] } ∧
          p.writes = retWrites w vals ∧ p.tid = none ∧ p.open_ = false))

/-- R150 to R152, R140, R168, R169, R171, R176 and R177: control flow. A branch that splits the active lanes keeps the taken ones on the stack; an indirect branch runs its
lanes' targets in turn; the last lane's exit ends the group, and its task counts it; a trap halts the group with exception 0x0A and a message;
a fence waits for the accesses before it and an acquire at partition scope or wider empties L1; a barrier frees its groups when the last
one arrives. -/
def Obligations.GroupControl : Prop :=
  ∀ (j : Site) (k : Slot) (w : W64) (s : State),
    let i := gIx j k
    let g := s.getGrp i
    let m := actLanes g w
    let went (c : Instr) (h : Group) : Prop := ∃ t, exec c s = .next t ∧ t = { s with groups := t.groups } ∧ t.getGrp i = h ∧ otherGroups i s t
    let halts (c : Instr) (code : Byte) : Prop :=
      ∃ t, exec c s = .next t ∧ t = { s with groups := t.groups, parts := t.parts } ∧ otherGroups i s t ∧ (t.getGrp i).mode = .halted ∧
        (t.getGrp i).exc = code ∧ (t.getGrp i).reg = g.reg ∧ (t.getGrp i).pc = g.pc ∧
        ∀ r, g.task = some r → (t.getPart r.p).faultMsgs = (s.getPart r.p).faultMsgs ++ [{ task := r, reason := 1, exc := code.toNat }]
    (runsOp s j k w 0x50 0x5F = true →
      (∀ (target reconv : BitVec 48) (cond : Fin 16) (neg : Bool),
        let join : JoinAt := { at_ := reconv, unused := false }
        halts (.branch j k w target { join with unused := true } cond neg) 1 ∧ halts (.indirectBranch j k w { join with unused := true }) 1 ∧
        let taken := m &&& (if neg then ~~~(getPred g cond) else getPred g cond)
        (taken = 0 → went (.branch j k w target join cond neg) (advance g)) ∧
        (taken = m → taken ≠ 0 → g.stack = [] →
          went (.branch j k w target join cond neg) { g with pc := target, issued := none, heldFor := 0, retryFrom := none, stall := false }) ∧
        (taken ≠ 0 → taken ≠ m → g.stack.length + 2 ≤ 32 → g.pc + 8 ≠ reconv →
          went (.branch j k w target join cond neg) { g with
            pc := g.pc + 8, exec := g.exec &&& ~~~taken, issued := none, heldFor := 0, retryFrom := none, stall := false
            stack := { pc := target, mask := taken, reconv := reconv, join := g.exec, st := 0 }
              :: { pc := reconv, mask := g.exec, reconv := reconv, join := g.exec, st := 2 } :: g.stack }) ∧
        (taken ≠ 0 → taken ≠ m → 32 < g.stack.length + 2 → halts (.branch j k w target join cond neg) 3)) ∧
      (regsOk g [iSa w + 1] = true → ∀ (reconv first : BitVec 48) (lanes : W32),
        (targetSets g (iSa w) m = [(first, lanes)] → g.stack = [] →
          went (.indirectBranch j k w { at_ := reconv, unused := false }) { g with pc := first, issued := none, heldFor := 0, retryFrom := none, stall := false }) ∧
        ∀ b l, targetSets g (iSa w) m = [(first, lanes), (b, l)] → g.stack.length + 1 ≤ 32 → first ≠ reconv →
          went (.indirectBranch j k w { at_ := reconv, unused := false }) { g with
            pc := first, exec := lanes, issued := none, heldFor := 0, retryFrom := none, stall := false
            stack := { pc := b, mask := l, reconv := reconv, join := g.exec, st := 0 } :: g.stack }) ∧
      (ib w 39 8 = 0 → g.exited ||| m ≠ BitVec.allOnes 32 → g.exec &&& ~~~m ≠ 0 →
        went (.exit j k w) (advance { g with exited := g.exited ||| m, exec := g.exec &&& ~~~m })) ∧
      (ib w 39 8 = 0 → g.exited ||| m = BitVec.allOnes 32 → g.storeErr = none → g.stores = 0 → g.loads = [] → g.remote = 0 → ∀ r, g.task = some r →
        ∃ t, exec (.exit j k w) s = .next t ∧ t = { s with groups := t.groups, parts := t.parts, sites := t.sites } ∧ otherGroups i s t ∧
          t.getGrp i = {} ∧ ∀ a, taskAt s r = some a → taskAt t r = some { a with ended := a.ended + 1 }) ∧
      (ib w 39 8 = 0 → m ≠ 0 → halts (.trap j k w) 0x0A)) ∧
    (runsOp s j k w 0x6C 0x6C = true → ib w 63 50 = 0 → ib w 49 47 ≤ 4 → ib w 39 8 = 0 → m ≠ 0 → (ib w 46 45 = 0 ∨ g.storeErr = none) →
      (ib w 46 45 = 0 ∨ released g (ib w 49 47) = true →
        ∃ t, exec (.fence j k w) s = .next t ∧ t = { s with groups := t.groups, sites := t.sites } ∧ t.getGrp i = advance g ∧ otherGroups i s t ∧
          t.getSite j = (if ib w 46 45 ≠ 1 ∧ 2 ≤ ib w 49 47 then { s.getSite j with l1 := [] } else s.getSite j)) ∧
      (ib w 46 45 ≠ 0 → released g (ib w 49 47) = false →
        went (.fence j k w) { g with mode := .held, hold := .fence (decide (ib w 46 45 ≠ 1)) (ib w 49 47), heldFor := 0 })) ∧
    (runsOp s j k w 0x6D 0x6D = true → ib w 63 55 = 0 → ib w 53 49 ≤ 23 → ib w 39 8 = 0 → m ≠ 0 → g.storeErr = none → ∀ r, g.task = some r →
      let mine (b : Barrier) : Bool := decide (b.task = r ∧ b.bid = ib w 48 45)
      ((s.getSite j).bars.find? mine = none → ib w 53 49 ≠ 0 →
        ∃ t, exec (.bar j k w) s = .next t ∧ t = { s with groups := t.groups, sites := t.sites } ∧
          t.getGrp i = { g with mode := .held, hold := .barrier (ib w 48 45), heldFor := 0 } ∧ otherGroups i s t ∧
          { task := r, bid := ib w 48 45, count := ib w 53 49, arrived := [k.val] } ∈ (t.getSite j).bars) ∧
      (∀ b, (s.getSite j).bars.find? mine = some b → b.count ≠ ib w 53 49 → halts (.bar j k w) 4) ∧
      (∀ b, (s.getSite j).bars.find? mine = some b → b.count = ib w 53 49 → b.arrived.length = b.count → (b.arrived ++ [k.val]).Nodup →
        ∃ t, exec (.bar j k w) s = .next t ∧ t = { s with groups := t.groups, sites := t.sites } ∧ t.getGrp i = advance g ∧
          (∀ x ∈ b.arrived, t.getGrp (gIx j x) = advance (unhold (s.getGrp (gIx j x)))) ∧ (t.getSite j).bars.find? mine = none))

/-- R307, R310, R316 to R318, R322 and R323: the queue and sync instructions on this device. A word of lanes 0 to 7 joins the group's open packet or closes it; a take
brings the head word to lanes 0 to 7; a signal, a reset and a test act on the object the address names and return the ticket; a
wait that is not satisfied holds the group. -/
def Obligations.GroupQueueAndSync : Prop :=
  ∀ (j : Site) (k : Slot) (w : W64) (s s0 : State) (r : XRes),
    let i := gIx j k
    let g := s.getGrp i
    let s1 := windowMove j k (winTarget r) s0
    let h := s1.getGrp i
    let m := actLanes g w
    runs s j k w = true → g.storeErr = none → waitsReply g = false → m ≠ 0 → actLanes h w = m →
    (∀ q : Que, winTarget r = .queue q → lowEight m = true → inReset s1 (queOwner s1 q) = false → othersHeld s1 (grpAgent j k) q = false →
      (iOpc w = 0x78 → released g (ib w 48 46) = true → ib w 63 49 = 0 → ib w 48 46 ≤ 4 → iDst w = 0 → iSc w = 0 → iSa w % 2 = 0 →
        regsOk g [iSa w + 1, iSb w + 1] = true → translate j g.ctx.toNat (winAddr g w 0) .write s = (s0, r) →
        (s1.getPart (queOwner s1 q)).asm = [] →
        (bit w.toNat 45 = false →
          ∃ t, exec (.qput j k w) s = .next t ∧ t = { s1 with groups := t.groups, parts := t.parts } ∧ t.getGrp i = advance h ∧
            ∃ o, (t.getPart (queOwner s1 q)).asm = [o] ∧ o.who = grpAgent j k ∧ o.q = q.val ∧ o.words = [(laneWord g (iSa w), wordParity (laneWord g (iSa w)))]) ∧
        (bit w.toNat 45 = true → (s1.getQue q).words.length < queCapacity (s1.getQue q) → (s1.getQue q).notice = 0 →
            ((s1.getQue q).words.filter (·.ring.isNone)).length < 32 →
          ∃ t, exec (.qput j k w) s = .next t ∧ t = { s1 with groups := t.groups, parts := t.parts, queues := t.queues } ∧ t.getGrp i = advance h ∧
            (t.getQue q).words.map (·.data) = (s1.getQue q).words.map (·.data) ++ [laneWord g (iSa w)]) ∧
        (bit w.toNat 45 = true → queCapacity (s1.getQue q) ≤ (s1.getQue q).words.length →
          ∃ t, exec (.qput j k w) s = .next t ∧ t = { s1 with groups := t.groups, parts := t.parts } ∧
            t.getGrp i = { h with mode := .held, hold := .queue q (laneWord g (iSa w)) true, heldFor := 0 })) ∧
      (iOpc w = 0x79 → ib w 63 57 = 0 → iSa w = 0 → iSc w = 0 → iDst w % 2 = 0 → regsOk g [iDst w + 1, iSb w + 1] = true →
        translate j g.ctx.toNat (winAddr g w 0) .read s = (s0, r) → isConsumer s1 (grpAgent j k) q = true →
        ∀ a rest, (s1.getQue q).words = a :: rest → a.ring = none →
          ∃ t, exec (.qget j k w) s = .next t ∧ t = { s1 with groups := t.groups, queues := t.queues } ∧ (t.getQue q).words = rest ∧
            t.getGrp i = advance { h with reg := (t.getGrp i).reg, loads := (t.getGrp i).loads, pred := (t.getGrp i).pred } ∧
            (∀ l < 8, getPair (t.getGrp i) (iDst w) l = (lw a.data l).toNat) ∧
            regsBut h (t.getGrp i) [iDst w, iDst w + 1] 0xFF ∧
            (ib w 56 53 ≠ 15 → ∀ l, laneActive g w l → getBit (getPred (t.getGrp i) (ib w 56 53)) l = false))) ∧
    (∀ (o : Syn) (ix : Nat), winTarget r = .sync o → inReset s1 (synPart o) = false → synStore s1 o = some ix →
      (s1.getSyn ix).waiters = [] → (s1.getSyn ix).armed = none →
      let x := s1.getSyn ix
      let lane := lowLane m
      let ret := bit w.toNat 45
      let moved (t : State) (counter : W64) : Prop :=
        t = { s1 with groups := t.groups, syncs := t.syncs } ∧ (t.getSyn ix).counter = counter ∧ (t.getSyn ix).ticket = x.ticket + 1
      (ib w 63 49 = 0 → ib w 48 46 ≤ 4 → iSc w = 0 → (ret = true ∨ iDst w = 0) → released g (ib w 48 46) = true →
        translate j g.ctx.toNat (winAddr g w lane) .write s = (s0, r) →
        let returned (t : State) : Prop :=
          wentOn i h t ∧ regsBut h (t.getGrp i) (if ret then [iDst w] else []) m ∧
            (ret = true → ∀ l, laneActive g w l → getReg (t.getGrp i) (iDst w) l = x.ticket)
        (iOpc w = 0x7A → regsOk g ([iSb w + 1, iSa w + 1] ++ (if ret then [iDst w] else [])) = true →
          ∃ t, exec (.ssig j k w) s = .next t ∧ moved t (x.counter + BitVec.ofNat 64 (getPair g (iSa w) lane)) ∧ returned t) ∧
        (iOpc w = 0x7D → iSa w = 0 → regsOk g ([iSb w + 1] ++ (if ret then [iDst w] else [])) = true →
          ∃ t, exec (.srst j k w) s = .next t ∧ moved t 0 ∧ returned t)) ∧
      (iOpc w = 0x7B → ib w 63 61 ≤ 4 → iSc w = 0 → iDst w % 4 = 0 → regsOk g [iDst w + 3, iSa w + 1, iSb w + 1] = true →
        translate j g.ctx.toNat (winAddr g w lane) .read s = (s0, r) →
        (getPair g (iSa w) lane ≤ x.counter.toNat → ib w 63 61 ≤ 1 →
          ∃ t, exec (.swait j k w) s = .next t ∧ moved t x.counter ∧
            (∀ l, laneActive g w l → getPair (t.getGrp i) (iDst w) l = x.counter.toNat ∧ getReg (t.getGrp i) (iDst w + 2) l = x.ticket ∧
              getReg (t.getGrp i) (iDst w + 3) l = x.ticket) ∧ (t.getGrp i).mode = .ready ∧
            (ib w 48 45 ≠ 15 → ∀ l, laneActive g w l → getBit (getPred (t.getGrp i) (ib w 48 45)) l = true)) ∧
        (x.counter.toNat < getPair g (iSa w) lane →
          ∃ t, exec (.swait j k w) s = .next t ∧ moved t x.counter ∧
            t.getGrp i = { h with mode := .held, hold := .wait o (iDst w) (ib w 48 45) (ib w 63 61) m, heldFor := 0 } ∧
            ∃ a, (t.getSyn ix).waiters = [a] ∧ a.who = grpAgent j k ∧ a.threshold.toNat = getPair g (iSa w) lane ∧ a.ticket = x.ticket)) ∧
      (iOpc w = 0x7C → ib w 63 48 = 0 → ib w 47 45 ≤ 1 → iSa w = 0 → iSc w = 0 → iDst w % 4 = 0 → regsOk g [iDst w + 2, iSb w + 1] = true →
        translate j g.ctx.toNat (winAddr g w lane) .read s = (s0, r) →
        ∃ t, exec (.stest j k w) s = .next t ∧ moved t x.counter ∧ wentOn i h t ∧
          regsBut h (t.getGrp i) [iDst w, iDst w + 1, iDst w + 2] m ∧
          ∀ l, laneActive g w l → getPair (t.getGrp i) (iDst w) l = x.counter.toNat ∧ getReg (t.getGrp i) (iDst w + 2) l = x.ticket))

/-! ### Loess (chapter 06) -/

/-- R30, R57, R184, R217 to R219 and R221 to R224: a scratch slice that its pacer does not hold. A read gives the stored bytes;
a corrected error is counted and gives the right data; an uncorrectable one, or a poisoned word, gives a bus error and no data,
and the word is poisoned. A write stores its bytes and no others, whole words losing their poison. A slice of a partition in
reset answers target resetting; a held one counts the delay and keeps the request. A scrub access advances the lap. -/
def Obligations.ScratchSlices : Prop :=
  (∀ (j : Slice) (x : BitVec 26) (len : Nat) (who : Agent) (s : State), sliceRole s j = 0 → x.toNat + len ≤ sliceBytes →
    (inReset s (j / 24) = true → exec (.sliceRead j x len who []) s = .next { s with tx := .resetting who :: s.tx }) ∧
    (inReset s (j / 24) = false → paceHolds s (j / 24) (slicePipe j) = true →
      ∃ t, exec (.sliceRead j x len who []) s = .next t ∧ t = { s with govs := t.govs } ∧ (t.getGov (j / 24)).pacer = true) ∧
    (inReset s (j / 24) = false → paceHolds s (j / 24) (slicePipe j) = false → (∀ w ∈ wordsOf x.toNat len, hurtAt s j w = none) →
      ((∀ w ∈ wordsOf x.toNat len, wordBad s j w = false) →
        (∃ t, exec (.sliceRead j x len who []) s = .next t ∧ t.getSlc j = s.getSlc j ∧
          t = { s with slices := t.slices, govs := t.govs, tx := .data who (getBytes 0 s.loess (loessKey j x.toNat) len) :: s.tx }) ∧
        ∀ bitNo, 0 < len →
          (∃ t, exec (.sliceRead j x len who [{ word := x.toNat / 8, err := .correctable, bit := bitNo }]) s = .next t ∧
            t = { s with slices := t.slices, govs := t.govs, tx := .data who (getBytes 0 s.loess (loessKey j x.toNat) len) :: s.tx } ∧
            (t.getSlc j).ce = (s.getSlc j).ce + 1 ∧ (t.getSlc j).errKind = 1) ∧
          (∃ t, exec (.sliceRead j x len who [{ word := x.toNat / 8, err := .uncorrectable, bit := bitNo }]) s = .next t ∧ t.tx = .busError who :: s.tx ∧
            t.loess = s.loess ∧ wordBad t j (x.toNat / 8) = true ∧ (t.getSlc j).ue = (s.getSlc j).ue + 1 ∧ (t.getSlc j).errKind = 2)) ∧
      ((∃ w ∈ wordsOf x.toNat len, wordBad s j w = true) →
        ∃ t, exec (.sliceRead j x len who []) s = .next t ∧ t = { s with slices := t.slices, govs := t.govs, tx := .busError who :: s.tx }))) ∧
  (∀ (j : Slice) (x : BitVec 26) (data : List Byte) (who : Agent) (s : State), sliceRole s j = 0 → x.toNat + data.length ≤ sliceBytes →
    inReset s (j / 24) = false → paceHolds s (j / 24) (slicePipe j) = false →
    (∀ w ∈ wordsOf x.toNat data.length, wordFull x.toNat data.length w = true ∨ (wordBad s j w = false ∧ hurtAt s j w = none)) →
    ∃ t, exec (.sliceWrite j x data who) s = .next t ∧
      t = { s with loess := t.loess, loessBad := t.loessBad, slices := t.slices, govs := t.govs, tx := .ack who :: s.tx } ∧
      (∀ a, Tbl.get 0 t.loess a = if loessKey j x.toNat ≤ a ∧ a < loessKey j x.toNat + data.length then data.getD (a - loessKey j x.toNat) 0
        else Tbl.get 0 s.loess a) ∧
      (∀ w ∈ wordsOf x.toNat data.length, wordBad t j w = false) ∧
      (t.getSlc j).rmw = (if (wordsOf x.toNat data.length).all (wordFull x.toNat data.length) then (s.getSlc j).rmw else (s.getSlc j).rmw + 1)) ∧
  (∀ (j : Slice) (s : State), ∃ t, exec (.loessCorrectionWriteback j) s = .next t ∧ t = { s with slices := t.slices } ∧
    t.getSlc j = { s.getSlc j with
      fix := (s.getSlc j).fix.drop 1, hurt := (s.getSlc j).hurt.filter fun f => !((s.getSlc j).fix.take 1).contains f.word }) ∧
  (∀ (j : Slice) (reserved : Bool) (s : State), sliceVisible s j = true → inReset s (j / 24) = false →
    let x := s.getSlc j
    let late (n : Nat) : Bool := decide (n * (s.lss.target.toNat * 1000000000) < (now s - x.lapFrom.toNat) * 131072)
    let turn := if reserved then late x.scrubAt && sliceReserve s x else (inputReady s j).isEmpty
    let clean := ∀ i < 64, hurtAt s j (x.scrubAt * 64 + i) = none ∧ wordBad s j (x.scrubAt * 64 + i) = false ∧
      ∀ g, lineAt s j (x.scrubAt * 64 + i) = some g → storedBad g ((x.scrubAt * 64 + i) % 32) = false
    (turn = false →
      ∃ t, exec (.scrubAccess j reserved { words := [], tags := 0 }) s = .next t ∧ t = { s with slices := t.slices } ∧ t.getSlc j = { x with behind := late x.scrubAt }) ∧
    (turn = true → paceHolds s (j / 24) (slicePipe j) = false → clean →
      (x.scrubAt + 1 ≠ 131072 →
        ∃ t, exec (.scrubAccess j reserved { words := [], tags := 0 }) s = .next t ∧ t = { s with slices := t.slices, govs := t.govs } ∧
          t.getSlc j = { x with scrubAt := x.scrubAt + 1, behind := late (x.scrubAt + 1), resAt := if reserved then s.skt.time else x.resAt }) ∧
      (x.scrubAt + 1 = 131072 →
        ∃ t, exec (.scrubAccess j reserved { words := [], tags := 0 }) s = .next t ∧ t = { s with slices := t.slices, govs := t.govs } ∧ (t.getSlc j).scrubAt = 0 ∧
          (t.getSlc j).laps = x.laps + 1 ∧ (t.getSlc j).lapFrom = s.skt.time ∧
          (t.getSlc j).lapLast = BitVec.ofNat 32 ((now s - x.lapFrom.toNat) / 1000000)) ∧
      (sliceRole s j = 0 → ∀ bitNo,
        ∃ t, exec (.scrubAccess j reserved { words := [{ word := x.scrubAt * 64, err := .uncorrectable, bit := bitNo }], tags := 0 }) s = .next t ∧
          wordBad t j (x.scrubAt * 64) = true ∧ (t.getSlc j).ue = x.ue + 1 ∧ (t.getSlc j).errKind = 2 ∧ t.loess = s.loess ∧ t.tx = s.tx) ∧
      (sliceRole s j = 1 →
        ∃ t, exec (.scrubAccess j reserved { words := [], tags := 3 }) s = .next t ∧ x.scrubAt / 8 ∈ (t.getSlc j).tagLost ∧ t.loess = s.loess ∧ t.tx = s.tx)))

/-- R197, R200, R202, R203, R205, R207 to R209, R211 and R213: a cache slice. A read of a line held whole gives its bytes; another joins the line's
miss entry, takes a new one, or waits at the slice input; a write or a home operation on a held line changes the bytes it names and
no others, and an operation that returns no value is acknowledged; a request behind those that wait at the slice input waits too; a fill serves the read that joined; a buffered write goes to Marl when
its channel's arbiter takes it;
a hint makes the line a tombstone; a flush leaves no line of the tower dirty. -/
def Obligations.CacheSlices : Prop :=
  (∀ (addr : BitVec 40) (len : Nat) (rq : HomeReq) (j : Nat) (s : State), 0 < len → addr.toNat % 256 + len ≤ 256 → addr.toNat + len ≤ marlBytes →
    copyHeld s addr.toNat = false → homeSlice s (addr.toNat / 256) = some j → inReset s (j / 24) = false →
    paceHolds s (j / 24) (slicePipe j) = false →
    let l := addr.toNat / 256
    let o := addr.toNat % 256
    let x := s.getSlc j
    (∀ g, resident s j l = some g → g.valid = allW → (∀ i ∈ wordsOf o len, getBit g.poison i = false) →
      (∀ i ∈ wordsOf o len, ∀ k ∈ slotWords g i, hurtAt s j (slotWord g k) = none) →
      (∃ t, exec (.cacheRead addr len rq []) s = .next t ∧
        t = { s with slices := t.slices, govs := t.govs, tx := .data rq.who (((tagBytes g).drop o).take len) :: s.tx } ∧
        (resident t j l).map tagBytes = some (tagBytes g)) ∧
      ∀ (k : Slice), k.val = j → inputReady s j = [(.read rq.who addr.toNat len, rq)] →
        ∃ t, exec (.sliceInputRelease k) s = .next t ∧ t = { s with slices := t.slices, govs := t.govs, tx := .data rq.who (((tagBytes g).drop o).take len) :: s.tx } ∧
          (t.getSlc j).input = dropFirst (fun a => decide (a = (.read rq.who addr.toNat len, rq))) x.input) ∧
    (findTag s j l = none →
      (x.miss.find? (fun m => m.line = l) = none → x.miss.length < 128 → behindInput s j l = false →
        ∃ t, exec (.cacheRead addr len rq []) s = .next t ∧ t = { s with slices := t.slices, govs := t.govs } ∧
          t.getSlc j = { x with miss := x.miss ++ [{ line := l, reqs := [.read rq.who addr.toNat len], cls := rq.cls, rt := rq.rt, dl := rq.dl, sent := false, got := [] }] }) ∧
      (∀ m, x.miss = [m] → m.line = l → m.reqs.length < 64 → behindInput s j l = false →
        ∃ t n, exec (.cacheRead addr len rq []) s = .next t ∧ t = { s with slices := t.slices, govs := t.govs } ∧ (t.getSlc j).merged = x.merged + 1 ∧
          (t.getSlc j).miss = [n] ∧ n.line = l ∧ n.sent = m.sent ∧ n.reqs = m.reqs ++ [.read rq.who addr.toNat len]) ∧
      (x.miss.find? (fun m => m.line = l) = none ∧ 128 ≤ x.miss.length ∨ behindInput s j l = true →
        ∃ t, exec (.cacheRead addr len rq []) s = .next t ∧ t = { s with slices := t.slices, govs := t.govs } ∧
          t.getSlc j = { x with input := x.input ++ [(.read rq.who addr.toNat len, rq)], missWait := x.missWait + 1 }))) ∧
  (∀ (addr : BitVec 40) (data : List Byte) (rq : HomeReq) (j : Nat) (g : Tag) (s : State), data ≠ [] → addr.toNat % 256 + data.length ≤ 256 →
    addr.toNat + data.length ≤ marlBytes → copyHeld s addr.toNat = false → homeSlice s (addr.toNat / 256) = some j →
    inReset s (j / 24) = false → paceHolds s (j / 24) (slicePipe j) = false →
    resident s j (addr.toNat / 256) = some g → g.form = none → needsFill (addr.toNat % 256) data.length g = false →
    (∀ i ∈ wordsOf (addr.toNat % 256) data.length, wordFull (addr.toNat % 256) data.length i = true ∨
      (getBit g.poison i = false ∧ hurtAt s j (slotWord g i) = none)) →
    ∃ t h, exec (.cacheWrite addr data rq) s = .next t ∧ t = { s with slices := t.slices, govs := t.govs, tx := .ack rq.who :: s.tx } ∧
      resident t j (addr.toNat / 256) = some h ∧ tagBytes h = setBytes (tagBytes g) (addr.toNat % 256) data ∧
      ∀ i ∈ wordsOf (addr.toNat % 256) data.length, getBit h.dirty i = true) ∧
  (∀ (addr : BitVec 40) (op : HomeOp) (ret : Bool) (rq : HomeReq) (j : Nat) (g : Tag) (s : State),
    let o := addr.toNat % 256
    let l := addr.toNat / 256
    addr.toNat < marlBytes → copyHeld s addr.toNat = false → homeSlice s l = some j → inReset s (j / 24) = false →
    paceHolds s (j / 24) (slicePipe j) = false → resident s j l = some g → g.form = none → g.valid = allW → g.ops = [] → opHeld s j l = false →
    (∀ i ∈ opWords o op, getBit g.poison i = false ∧ hurtAt s j (slotWord g i) = none) →
    ∃ t h, exec (.homeOperation addr { op := op, ret := ret, later := false } rq) s = .next t ∧ t = { s with slices := t.slices, govs := t.govs, tx := t.tx } ∧
      resident t j l = some h ∧ h.ops = [] ∧ tagBytes h = tagBytes (lineOp o op g).1 ∧
      match op with
      | .reduce _ _ _ _ => t.tx = .ack rq.who :: s.tx
      | .atomic a v c =>
        let n := atomSize a.ty.toNat
        let old := ((tagBytes g).drop o).take n
        t.tx = (if ret then .data rq.who old else .ack rq.who) :: s.tx ∧
          (o % n = 0 → tagBytes h = setBytes (tagBytes g) o (leBytes n (atomApply a.aop.toNat a.ty.toNat (ofLe old) v.toNat c.toNat)))) ∧
  (∀ (j : Slice) (line : BitVec 32) (m : Miss) (who : Agent) (a len : Nat) (s : State),
    (s.getSlc j).miss.find? (fun m => m.line = line.toNat && m.sent) = some m →
    m.reqs = [.read who a len] → a / 256 = line.toNat → tagsOf s j (setOf line.toNat) = [] → paceHolds s (j / 24) (slicePipe j) = false →
    let f := (filledLine (.got m.got) j line.toNat m.cls s).2
    (∀ i ∈ wordsOf (a % 256) len, getBit f.poison i = false) →
    ∃ t h, exec (.marlFillReturn j line) s = .next t ∧ t = { s with slices := t.slices, govs := t.govs, tx := .data who (((tagBytes f).drop (a % 256)).take len) :: s.tx } ∧
      (t.getSlc j).miss = (s.getSlc j).miss.filter (fun m => m.line ≠ line.toNat) ∧ resident t j line.toNat = some h ∧ h.valid = allW ∧
      tagBytes h = tagBytes f) ∧
  (∀ (j : Slice) (line : BitVec 32) (e : WbEnt) (s : State), (s.getSlc j).wb.find? (fun e => e.line = line.toNat) = some e →
    stackAsleep s (j / 24) = false →
    ((∀ s1, marlPick s (chanOf s (4 * e.line)) ≠ some (.write e, s1)) → exec (.writebackAck j line) s = .next s) ∧
    ∀ s1, marlPick s (chanOf s (4 * e.line)) = some (.write e, s1) →
    ∃ t, exec (.writebackAck j line) s = .next t ∧ (t.getSlc j).wb = dropFirst (fun a => decide (a = e)) (s.getSlc j).wb ∧ t.loess = s.loess ∧
      t.groups = s.groups ∧ t.tx = s.tx ∧
      ∀ k < 4, mask8 e.dirty k ≠ 0 → mask8 e.valid k = 0xFF →
        marlCw t (4 * line.toNat + k) = (wbBytes e.words k, decide (mask8 e.poison k ≠ 0))) ∧
  (∀ (addr : BitVec 40) (c : Ctx) (j : Nat) (g : Tag) (s : State), addr.toNat < marlBytes → homeSlice s (addr.toNat / 256) = some j →
    resident s j (addr.toNat / 256) = some g → g.ops = [] →
    ∃ t h, exec (.deadLineHint addr c) s = .next t ∧ t = { s with slices := t.slices } ∧ resident t j (addr.toNat / 256) = none ∧
      findTag t j (addr.toNat / 256) = some h ∧ h.st = .tombstone ∧ h.ctx = c.val) ∧
  (∀ (r : Req) (k : Tower) (s : State), (r = 1 ∨ r.val = k.val + 2) →
    ∃ t, exec (.lssFlushStart r (BitVec.ofNat 32 (2 ^ k.val))) s = .next t ∧ t.loess = s.loess ∧ t.lss = { s.lss with busy := setBit s.lss.busy k true } ∧
      (getBit s.lss.busy k = true → t = s) ∧
      (getBit s.lss.busy k = false → ∀ j ∈ cacheSlices s k, ∀ set, ∀ x ∈ tagsOf t j set, x.dirty = 0 ∧ x.st ≠ .tombstone)) ∧
  (∀ (k : Tower) (s : State), exec (.lssFlushDone k) s = .next { s with lss := { s.lss with busy := setBit s.lss.busy k false } })

/-- R213 to R215: pending home operations. An operation that does not commit at once is pending at its line and has changed nothing yet; one that
finds four pending, or a request of its set waiting for a victim, waits at the slice input. A write whose line needs a slot of a set
whose candidates are all locked waits, and the wait is counted once. -/
def Obligations.LineLocks : Prop :=
  (∀ (addr : BitVec 40) (a : AtomOp) (v c : W64) (ret : Bool) (rq : HomeReq) (j : Nat) (g : Tag) (s : State),
    let l := addr.toNat / 256
    addr.toNat < marlBytes → copyHeld s addr.toNat = false → homeSlice s l = some j → inReset s (j / 24) = false →
    paceHolds s (j / 24) (slicePipe j) = false → resident s j l = some g → g.valid = allW →
    (opHeld s j l = false →
      ∃ t h, exec (.homeOperation addr { op := .atomic a v c, ret := ret, later := true } rq) s = .next t ∧ t = { s with slices := t.slices, govs := t.govs } ∧
        resident t j l = some h ∧ h.locked = true ∧ tagBytes h = tagBytes g ∧
        h.ops = g.ops ++ [{ who := rq.who, off := addr.toNat % 256, ret := ret, op := .atomic a v c }]) ∧
    (opHeld s j l = true → ∀ later,
      ∃ t, exec (.homeOperation addr { op := .atomic a v c, ret := ret, later := later } rq) s = .next t ∧ t = { s with slices := t.slices, govs := t.govs } ∧
        t.getSlc j = { s.getSlc j with input := (s.getSlc j).input ++ [(.op rq.who addr.toNat ret (.atomic a v c), rq)] })) ∧
  (∀ (s : State) (j l : Nat), (∀ g, resident s j l = some g → 4 ≤ g.ops.length → opHeld s j l = true) ∧
    (∀ e ∈ (s.getSlc j).held_, e.1 = setOf l → opHeld s j l = true)) ∧
  (∀ (addr : BitVec 40) (data : List Byte) (rq : HomeReq) (j : Nat) (s : State), data ≠ [] → addr.toNat % 256 + data.length ≤ 256 →
    addr.toNat + data.length ≤ marlBytes → copyHeld s addr.toNat = false → homeSlice s (addr.toNat / 256) = some j →
    inReset s (j / 24) = false → paceHolds s (j / 24) (slicePipe j) = false →
    let l := addr.toNat / 256
    let x := s.getSlc j
    resident s j l = none → needsFill (addr.toNat % 256) data.length (newTag l rq.cls) = false →
    slotWait s j false (writtenTag s j l rq.cls (addr.toNat % 256) data) = .locked → (setOf l, l) ∉ x.held_ →
    ∃ t, exec (.cacheWrite addr data rq) s = .next t ∧ t = { s with slices := t.slices, govs := t.govs } ∧
      t.getSlc j = { x with
        input := x.input ++ [(.write rq.who addr.toNat data, rq)], lockWait := x.lockWait + 1, held_ := x.held_ ++ [(setOf l, l)] })

/-! ### Marl (chapter 07) -/

/-- R206, R229, R232 to R234, R238, R239 and R242: codewords of a stack that serves requests. A write is what later reads of its codeword
see, and a queue of 64 other lines sends its oldest to the array first; a read of clean codewords counts nothing; a corrected one is
counted and waits to be written back; an uncorrectable one is counted, its row is due and it is poisoned; a partial write merges its
words, with one still queued where there is one; a scrub access advances the lap. A cache slice's read is served in its turn.
R235 to R237, R240, R241 and R442: the upkeep of Marl. Wire counters decay every 10 ms; a wire whose counter has reached 64 is marked and
recorded, and its channel moves to the stack's spare, or is degraded without one; each row copied, in idle slots or the scrub reservation, advances the move, which ends with
the last row, the spare running degraded where a wire of its own was marked; a refresh advances the bank's row, and in self-refresh
sets the layer's rate from its own sensor; a due row takes a spare row of its bank and layer. -/
def Obligations.MarlStacks : Prop :=
  (∀ (cw : BitVec 34) (data : List Byte) (poison : Bool) (s : State), cw.toNat * 64 < marlBytes → data.length = 64 →
    stackAsleep s (marlStack (cw.toNat * 64)) = false →
    let m := chanOf s cw.toNat
    let q := (s.getMCh m).queue
    let e : MWrite := { cw := cw.toNat, data := data, poison := poison, part := false }
    ∃ t, exec (.marlWrite cw data poison) s = .next t ∧ marlCw t cw.toNat = (data, poison) ∧ (∀ x, x ≠ m → t.getMCh x = s.getMCh x) ∧
      (t.getMCh m).fix = (s.getMCh m).fix.filter (fun f => f.1 ≠ cw.toNat) ∧
      (cw.toNat / 4 ∈ queueLines q ∨ (queueLines q).length < 64 → t = { s with mchans := t.mchans, parts := t.parts } ∧ (t.getMCh m).queue = q ++ [e] ∧
        ∀ c, c ≠ cw.toNat → marlCw t c = marlCw s c) ∧
      (cw.toNat / 4 ∉ queueLines q → 64 ≤ (queueLines q).length → (∀ a ∈ q, a.data.length = 64) →
        t = { s with mchans := t.mchans, parts := t.parts, marl := t.marl, marlBad := t.marlBad, mrl := t.mrl } ∧
        (t.getMCh m).queue = q.filter (fun a => a.cw / 4 ≠ (queueLines q).headD 0) ++ [e] ∧
        ∀ c, c ≠ cw.toNat → chanOf s c = m → marlCw t c = marlCw s c)) ∧
  (∀ (line : BitVec 32) (errs : List (Fin 4 × SymErr)) (s : State), line.toNat * 256 < marlBytes →
    stackAsleep s (marlStack (line.toNat * 256)) = false →
    let cw := 4 * line.toNat
    let m := chanOf s cw
    let o := decodeCw (strikeCw cw (errsOf errs 0) s) cw
    (readWaits s line.toNat = none → (∀ e ∈ errs, e.1 = 0) → (∀ k < 4, 0 < k → (decodeCw s (cw + k)).1 = .clean) →
      ∃ t, exec (.marlRead line errs) s = .next t ∧ (∀ x, x ≠ m → t.getMCh x = s.getMCh x) ∧ t.loess = s.loess ∧ t.tx = s.tx ∧
        (match o.1 with
          | .clean => t = { s with mrl := { s.mrl with hurt := t.mrl.hurt } }
          | .corrected _ => t = { s with mchans := t.mchans, mrl := t.mrl } ∧
            (t.getMCh m).ce = (s.getMCh m).ce + 1 ∧ (t.getMCh m).errKind = 1 ∧ (t.getMCh m).errAddr = BitVec.ofNat 40 (cw * 64) ∧
            (∃ f ∈ (t.getMCh m).fix, f.1 = cw) ∧ ((∀ f ∈ (s.getMCh m).fix, f.1 ≠ cw) → (cw, o.2) ∈ (t.getMCh m).fix) ∧
            (t.getMCh m).queue = (s.getMCh m).queue
          | .poisoned _ => t = { s with mchans := t.mchans, mrl := t.mrl } ∧ (t.getMCh m).poison = (s.getMCh m).poison + 1 ∧
            (t.getMCh m).errKind = 3 ∧ (t.getMCh m).queue = (s.getMCh m).queue
          | .uncorrectable => (line.toNat ∈ queueLines (s.getMCh m).queue ∨ (queueLines (s.getMCh m).queue).length < 64) →
            t = { s with mchans := t.mchans, mrl := t.mrl } ∧ (t.getMCh m).ue = (s.getMCh m).ue + 1 ∧
            (t.getMCh m).errKind = 2 ∧ (marlCw t cw).2 = true ∧ marlRowKey m (marlR (cw * 64 % 0xC_0000_0000)) ∈ t.mrl.rowsDue)) ∧
    (∀ j, readWaits s line.toNat = some j →
      ((∀ r, marlPick s m ≠ some (.read line.toNat, r)) → exec (.marlRead line errs) s = .next s) ∧
      ∀ r, marlPick s m = some (.read line.toNat, r) → ∃ t, exec (.marlRead line errs) s = .next t ∧
        ∀ a ∈ (t.getSlc j).miss, a.line = line.toNat → a.sent = true ∧ a.got = lineNow (strikeLine line.toNat errs r) j line.toNat)) ∧
  (∀ (cw : BitVec 34) (words : BitVec 8) (data : List Byte) (errs : List SymErr) (s : State), cw.toNat * 64 < marlBytes → data.length = 64 →
    stackAsleep s (marlStack (cw.toNat * 64)) = false →
    let o := decodeCw (strikeCw cw.toNat errs s) cw.toNat
    let m := chanOf s cw.toNat
    ∃ t, exec (.marlPartialWrite cw words data errs) s = .next t ∧ (∀ x, x ≠ m → t.getMCh x = s.getMCh x) ∧
      ((queuedCw s cw.toNat).filter (·.part) = none → (t.getMCh m).rmw = (s.getMCh m).rmw + 1 ∧
        marlCw t cw.toNat = ((mergeWords words o.2 data).take 64, o.1.bad)) ∧
      (∀ e, (queuedCw s cw.toNat).filter (·.part) = some e → (t.getMCh m).rmw = (s.getMCh m).rmw ∧
        marlCw t cw.toNat = ((mergeWords words e.data data).take 64, e.poison))) ∧
  (∀ (ch : MCh) (s : State), ∃ t, exec (.marlCorrectionWriteback ch) s = .next t ∧
    t = { s with mchans := t.mchans, marl := t.marl, marlBad := t.marlBad, mrl := { s.mrl with hurt := t.mrl.hurt } } ∧
    t.getMCh ch = { s.getMCh ch with fix := (s.getMCh ch).fix.drop 1 } ∧ (∀ x, x ≠ ch.val → t.getMCh x = s.getMCh x) ∧
    (∀ f, (s.getMCh ch).fix.head? = some f → Tbl.get [] t.mrl.hurt f.1 = [] ∧ (f.2.length = 64 → arrayCw t f.1 = (f.2, false))) ∧
    ∀ c, c ∉ ((s.getMCh ch).fix.take 1).map (·.1) → Tbl.get [] t.mrl.hurt c = Tbl.get [] s.mrl.hurt c ∧ arrayCw t c = arrayCw s c) ∧
  (∀ (ch : MCh) (reserved : Bool) (s : State), stackAsleep s (ch / 17) = false →
    let x := s.getMCh ch
    let late (n : Nat) : Bool := chRole s ch != 1 && decide (n * (s.mrl.target.toNat * 1000000000) < (now s - x.lapFrom.toNat) * 12582912)
    let turn := if reserved then late x.scrubAt && marlReserve s ch 1 else (marlWaiting s ch).isEmpty
    let line := (ch.val / 17 * 0xC_0000_0000 + marlLineOff (chLogical s ch) x.scrubAt) / 256
    ((chRole s ch = 2 ∨ chRole s ch = 3 ∨ chRole s ch = 4) → exec (.marlScrubAccess ch reserved []) s = .next s) ∧
    ((chRole s ch = 0 ∨ chRole s ch = 1 ∨ chRole s ch = 5) → turn = false →
      ∃ t, exec (.marlScrubAccess ch reserved []) s = .next t ∧ t = { s with mchans := t.mchans } ∧ t.getMCh ch = { x with behind := late x.scrubAt }) ∧
    ((chRole s ch = 0 ∨ chRole s ch = 1 ∨ chRole s ch = 5) → turn = true →
      (if chRole s ch = 1 then ∀ k < 4, (arrayCw s (spareCw ch x.scrubAt k)).2 = false ∧ Tbl.get [] s.mrl.hurt (spareCw ch x.scrubAt k) = []
        else ∀ k < 4, (decodeCw s (line * 4 + k)).1 = .clean) →
      (x.scrubAt + 1 ≠ 12582912 →
        ∃ t, exec (.marlScrubAccess ch reserved []) s = .next t ∧ t = { s with mchans := t.mchans, mrl := { s.mrl with hurt := t.mrl.hurt } } ∧
          t.getMCh ch = { x with scrubAt := x.scrubAt + 1, behind := late (x.scrubAt + 1), resAt := if reserved then s.skt.time else x.resAt }) ∧
      (x.scrubAt + 1 = 12582912 →
        ∃ t, exec (.marlScrubAccess ch reserved []) s = .next t ∧ t = { s with mchans := t.mchans, mrl := { s.mrl with hurt := t.mrl.hurt } } ∧
          (t.getMCh ch).scrubAt = 0 ∧ (t.getMCh ch).laps = x.laps + 1 ∧ (t.getMCh ch).lapFrom = s.skt.time))) ∧
  (∀ (s : State), (now s < s.mrl.decayAt.toNat + 10000000 → exec .wireCounterDecay s = .next s) ∧
    (s.mrl.decayAt.toNat + 10000000 ≤ now s → ∃ t, exec .wireCounterDecay s = .next t ∧
      t = { s with mchans := t.mchans, mrl := { s.mrl with decayAt := s.mrl.decayAt + 10000000 } } ∧
      ∀ m < 68, ((s.getMCh m).wires.map (·.1)).Nodup → t.getMCh m = { s.getMCh m with wires := (t.getMCh m).wires } ∧
        ∀ w, Tbl.get 0 (t.getMCh m).wires w = Tbl.get 0 (s.getMCh m).wires w - 1)) ∧
  (∀ (ch : MCh) (w : Fin 68) (s : State),
    let x := s.getMCh ch
    let st := ch.val / 17
    (Tbl.get 0 x.wires w < 64 → exec (.wireMark ch w) s = .next s) ∧
    (64 ≤ Tbl.get 0 x.wires w → x.mark0 = 0xFF → x.mark1.toNat ≠ w → chRole s ch = 0 → migrOf s st = none → s.rst.repairs.length < 1023 →
      ∃ t e, exec (.wireMark ch w) s = .next t ∧ (t.getMCh ch).mark0.toNat = w ∧ (t.getMCh ch).mark1 = x.mark1 ∧
        t.rst.repairs = s.rst.repairs ++ [e] ∧ e.kind = 0x0A ∧ e.unit.toNat = ch.val ∧ e.index.toNat = w.val ∧ getBit t.hst.event 6 = true ∧
        t.marl = s.marl ∧
        (∀ p : Fin 17, chRole s (17 * st + p) = 1 → (∀ q < p.val, chRole s (17 * st + q) ≠ 1) →
          migrOf t st = some { logical := chLogical s ch, src := ch.val, dst := 17 * st + p } ∧ chRole t ch = 3 ∧ chRole t (17 * st + p) = 2 ∧
          t.mrl.degraded = s.mrl.degraded) ∧
        ((∀ p : Fin 17, chRole s (17 * st + p) ≠ 1) → chRole t ch = 5 ∧ migrOf t st = none ∧ getBit t.mrl.degraded st = true)) ∧
    (64 ≤ Tbl.get 0 x.wires w → x.mark0 ≠ 0xFF → x.mark1 ≠ 0xFF → exec (.wireMark ch w) s = .next s)) ∧
  (∀ (st : Tower) (errs : List (BitVec 34 × SymErr)) (reserved : Bool) (g : Migr) (s : State), migrOf s st = some g → stackAsleep s st = false →
    g.src ≠ g.dst →
    let may := if reserved then marlReserve s g.src 16 else (marlWaiting s g.src).isEmpty && (marlWaiting s g.dst).isEmpty
    (may = false → exec (.migrationRowCopy { stack := st, errs := errs, reserved := reserved }) s = .next s) ∧
    (may = true → (s.getMCh g.dst).rows.toNat + 1 < 786432 →
      ∃ t, exec (.migrationRowCopy { stack := st, errs := errs, reserved := reserved }) s = .next t ∧ (t.getMCh g.dst).rows = (s.getMCh g.dst).rows + 1 ∧
        (t.getMCh g.src).rows = (s.getMCh g.src).rows + 1 ∧ (t.getMCh g.src).queue = [] ∧ migrOf t st = some g ∧ t.rst = s.rst) ∧
    (may = true → (s.getMCh g.dst).rows.toNat + 1 = 786432 → s.rst.repairs.length < 1023 →
      ∃ t e, exec (.migrationRowCopy { stack := st, errs := errs, reserved := reserved }) s = .next t ∧ migrOf t st = none ∧ (t.getMCh g.src).role = 4 ∧
        (t.getMCh g.dst).role = (if (s.getMCh g.dst).mark0 = 0xFF then 0 else 5) ∧
        getBit t.mrl.spareUsed st = true ∧ t.rst.repairs = s.rst.repairs ++ [e] ∧ e.kind = 0x0B ∧ getBit t.hst.event 6 = true)) ∧
  (∀ (st : Tower) (layer : Fin 12) (bank : Fin 16) (s : State),
    let k := (st.val * 12 + layer.val) * 16 + bank.val
    let sensor := s.getSen (192 + 12 * st.val + layer.val)
    let temp := sensor.raw.toInt
    ∃ t, exec (.refreshCommand st layer bank) s = .next t ∧
      t = { s with mrl := { s.mrl with refRow := t.mrl.refRow, fast := t.mrl.fast } } ∧
      Tbl.get 0 t.mrl.refRow k = (Tbl.get 0 s.mrl.refRow k + 1) % 4096 ∧ (∀ x, x ≠ k → Tbl.get 0 t.mrl.refRow x = Tbl.get 0 s.mrl.refRow x) ∧
      (getBit s.mrl.selfRef st = false ∨ sensor.invalid = true → t.mrl.fast = s.mrl.fast) ∧
      (getBit s.mrl.selfRef st = true → sensor.invalid = false → getBit (Tbl.get 0 t.mrl.fast st) layer =
        (if 85 * 16 < temp then true else if temp < 82 * 16 then false else getBit (Tbl.get 0 s.mrl.fast st) layer))) ∧
  (∀ (ch : MCh) (layer : Fin 12) (bank : Fin 16) (row : BitVec 12) (s : State),
    let bk := (ch.val * 12 + layer.val) * 16 + bank.val
    let key := bk * 4096 + row.toNat
    (key ∉ s.mrl.rowsDue → exec (.marlRowRepair ch layer bank row) s = .next s) ∧
    (key ∈ s.mrl.rowsDue → s.rst.repairs.length < 1023 →
      ∃ t, exec (.marlRowRepair ch layer bank row) s = .next t ∧ key ∉ t.mrl.rowsDue ∧
        (Tbl.get 0 s.mrl.rowsUsed bk < 16 → chRole s ch ≠ 1 → chRole s ch ≠ 4 → ∀ n < 64,
          let cw := rowCw (ch / 17) (chLogical s ch) ((layer.val * 16 + bank.val) * 4096 + row.toNat) (n / 4) + n % 4
          chanOf s cw = ch.val → Tbl.get [] t.mrl.hurt cw = []) ∧
        (Tbl.get 0 s.mrl.rowsUsed bk < 16 → Tbl.get 0 t.mrl.rowsUsed bk = Tbl.get 0 s.mrl.rowsUsed bk + 1 ∧
          ∃ e, t.rst.repairs = s.rst.repairs ++ [e] ∧ e.kind = 9 ∧ e.unit.toNat = ch.val ∧ e.spare.toNat = Tbl.get 0 s.mrl.rowsUsed bk) ∧
        (16 ≤ Tbl.get 0 s.mrl.rowsUsed bk → t.mrl.rowsUsed = s.mrl.rowsUsed ∧ t.marl = s.marl ∧ t.mchans = s.mchans ∧ getBit t.hst.event 6 = true)))

/-! ### Translation, pre-emption and DMA (chapter 08) -/

/-- R243, R250 to R255 and R516: contexts, walks, invalidations and the end of a group's fault. A walk goes one level at a time to a leaf, which the site's
unit keeps, or to a fault, which parks a group whose fetch it was; an invalidation leaves no entry it names in any unit;
a held fault record of the requester whose turn it is
is delivered once the fault queue takes it; an invalidation is busy until the accesses translated before it have been performed; a resumed group runs its instruction again, a killed one
halts with a message. -/
def Obligations.TranslationAndFaults : Prop :=
  (∀ (r : Req) (c : Ctx) (val : W32) (s : State), (1 ≤ r.val ∧ r.val ≤ 5) →
    (getBit val 0 = true → exec (.xltCtxCfgWrite r c val) s = .next (s.modCtx c fun x => { x with valid := true })) ∧
    (getBit val 0 = false → (s.getCtx c).valid = true → ctxHasTask s c = false → (s.getCtx c).aborting = false →
      exec (.xltCtxCfgWrite r c val) s = .next (s.modCtx c fun x => { x with valid := false })) ∧
    (getBit val 0 = false → (s.getCtx c).valid = true → (ctxHasTask s c = true ∨ (s.getCtx c).aborting = true) →
      ∃ t, exec (.xltCtxCfgWrite r c val) s = .next t ∧ t.ctxs = s.ctxs ∧ Tbl.get 0 t.hst.regErr 4 = Tbl.get 0 s.hst.regErr 4 + 1)) ∧
  (∀ (j : Site) (k : Slot) (c : Ctx) (va : BitVec 48) (acc : Access) (err : Bool) (s : State),
    let who : Agent := .group j k
    let x := s.getSite j
    let lt := walkStart s x.walkc c va.toNat
    let s0 := s.modSite j fun y => { y with tlbMiss := y.tlbMiss + 1 }
    walkerReady s j c va.toNat acc who = true → getBit x.blkBusy 5 = false → x.walks = [] → findLeaf x.tlb c va.toNat = none →
    (∀ s1 table, walkLevel lt.2 lt.1 va.toNat err s0 = (s1, .next table) →
      ∃ t w, exec (.translationWalk j who c va acc err) s = .next t ∧ t = { s1 with sites := t.sites } ∧
        (t.getSite j).walks = [w] ∧ w.level = lt.1 - 1 ∧ w.table = table ∧ w.who = who ∧ w.va = va) ∧
    (∀ s1 e pa, walkLevel lt.2 lt.1 va.toNat err s0 = (s1, .leaf e) → leafCheck s1 acc e lt.1 lt.1 va.toNat = .local_ pa →
      ∃ t, exec (.translationWalk j who c va acc err) s = .next t ∧ t = { s1 with sites := t.sites } ∧ (t.getSite j).walks = [] ∧
        findLeaf (t.getSite j).tlb c va.toNat = some (mkLeaf c va.toNat lt.1 e)) ∧
    (∀ s1 cause e, walkLevel lt.2 lt.1 va.toNat err s0 = (s1, .fault cause e) →
      ∃ t, exec (.translationWalk j who c va acc err) s = .next t ∧ (t.getSite j).walks = [] ∧
        let g := s1.getGrp (gIx j k)
        let h := t.getGrp (gIx j k)
        (acc = .fetch ∧ g.issued = none ∧ g.pc = va → h.mode = .parked ∧ h.exc = 7 ∧ h.excAddr = va ∧ h.pc = g.pc) ∧
        (¬ (acc = .fetch ∧ g.issued = none ∧ g.pc = va) → t = { s1 with sites := t.sites }))) ∧
  (∀ (r : Req) (val : W32) (s : State), getBit val 30 = true → (s.getXrq r).busy = false →
    ∃ t q, exec (.invalidationStart r val) s = .next t ∧ t = { s with xreqs := t.xreqs, sites := t.sites, ports := t.ports } ∧ t.getXrq r = q ∧
      q.busy = true ∧ q.addr = (s.getXrq r).addr ∧ q.all = getBit val 7 ∧ q.ctx.toNat = bits val.toNat 5 0 ∧ q.pages.toNat = bits val.toNat 23 8 ∧ q.waits = invWaits (invRange q) s ∧
      ∀ j < 96, (∀ l ∈ (t.getSite j).tlb, (invRange q).hits l.ctx l.base l.size = false) ∧
        (∀ l ∈ (s.getSite j).tlb, (invRange q).hits l.ctx l.base l.size = false → l ∈ (t.getSite j).tlb)) ∧
  (∀ (r : Req) (s : State),
    let left := (s.getXrq r).waits.filter (stillOwed s)
    ∃ t, exec (.invalidationDone r) s = .next t ∧ t = { s with xreqs := t.xreqs } ∧
      t.getXrq r = { s.getXrq r with waits := left, busy := (s.getXrq r).busy && !left.isEmpty }) ∧
  (∀ (p : Tower) (who : Agent) (rec_ : Line) (task : Option TaskRef) (w tok : Nat) (s : State),
    let q := faultQueue s p
    let l := (s.getPart p).heldRecs
    sourceTurn (s.getQue q).token (l.map (·.1)) = (w, tok) → l.find? (fun e => sourceNo e.1 = w) = some (who, rec_, task) →
    ((s.getQue q).words.length < queCapacity (s.getQue q) → (s.getQue q).notice = 0 → ((s.getQue q).words.filter (·.ring.isNone)).length < 32 →
      ∃ t, exec (.faultRecordDeliver p) s = .next t ∧ t = { s with parts := t.parts, queues := t.queues, tx := .fault p rec_ :: s.tx } ∧
        (t.getPart p).heldRecs = dropFirst (fun a => decide (a = (who, rec_, task))) l ∧ (t.getQue q).words.map (·.data) = (s.getQue q).words.map (·.data) ++ [rec_]) ∧
    (queCapacity (s.getQue q) ≤ (s.getQue q).words.length → exec (.faultRecordDeliver p) s = .next s)) ∧
  (∀ (r : Req) (j : Site) (k : Slot) (s : State), siteWritable s r j 5 = true → (s.getGrp (gIx j k)).mode = .parked →
    (∃ t, exec (.grpResume r j k) s = .next t ∧ t = { s with groups := t.groups } ∧ otherGroups (gIx j k) s t ∧
      t.getGrp (gIx j k) = { s.getGrp (gIx j k) with
        mode := .ready, exc := 0, excLane := 0xFF, excAddr := 0, faultRec := none, issued := none, retryFrom := none }) ∧
    (∃ t, exec (.grpKill r j k) s = .next t ∧ t = { s with groups := t.groups, parts := t.parts } ∧ otherGroups (gIx j k) s t ∧
      t.getGrp (gIx j k) = { s.getGrp (gIx j k) with mode := .halted, faultRec := none } ∧
      ∀ a, (s.getGrp (gIx j k)).task = some a →
        (t.getPart a.p).faultMsgs = (s.getPart a.p).faultMsgs ++ [{ task := a, reason := 1, exc := 7 }]))

/-- R263 to R267: pre-emption. PREEMPT at a running site with valid save areas stops its work, a held post before its instruction, while an issued FENCE completes first; once all has
stopped, the save leaves the site empty and SAVED and its work in the area; RESTORE at an empty site and its end bring the area's
work to the site, and the area still holds it. A PREEMPT or RESTORE that may not start is counted and changes nothing else. -/
def Obligations.Preemption : Prop :=
  (∀ (r : Req) (j : Site) (s : State), siteWritable s r j 5 = true →
    (saveAllowed s j = true →
      ∃ t, exec (.preempt r j) s = .next t ∧ (t.getSite j).mode = 1 ∧ (t.getSite j).saveFrom = s.skt.time ∧
        (∀ b < 2, (s.getAry (2 * j.val + b)).mode = .idle → (t.getAry (2 * j.val + b)).mode = .stopping) ∧
        ∀ k : Slot, (s.getGrp (gIx j k)).mode = .held →
          (∀ c w, (s.getGrp (gIx j k)).hold = .dpost c w →
            t.getGrp (gIx j k) = { s.getGrp (gIx j k) with mode := .ready, hold := .none, heldFor := 0, issued := none }) ∧
          ∀ a sc, (s.getGrp (gIx j k)).hold = .fence a sc → t.getGrp (gIx j k) = s.getGrp (gIx j k)) ∧
    (saveAllowed s j = false →
      ∃ t, exec (.preempt r j) s = .next t ∧ t = { s with hst := t.hst, pcie := t.pcie, tx := t.tx } ∧
        Tbl.get 0 t.hst.regErr (j / 24) = Tbl.get 0 s.hst.regErr (j / 24) + 1) ∧
    (restoreAllowed s j = true → exec (.restore r j) s = .next (s.modSite j fun x => { x with mode := 3 })) ∧
    (restoreAllowed s j = false →
      ∃ t, exec (.restore r j) s = .next t ∧ t = { s with hst := t.hst, pcie := t.pcie, tx := t.tx } ∧
        Tbl.get 0 t.hst.regErr (j / 24) = Tbl.get 0 s.hst.regErr (j / 24) + 1)) ∧
  (∀ (j : Site) (s : State), (s.getSite j).mode = 1 → (s.getSite j).saveDrop = [] → (s.getSite j).dropTasks = [] → (∀ k : Slot, (s.getGrp (gIx j k)).mode ≠ .held) →
    siteQuiet s j = true →
    ∃ t sv, exec (.coreSaveDone j) s = .next t ∧ (t.getSite j).mode = 2 ∧ (t.getSite j).slm = [] ∧ (∀ k : Slot, t.getGrp (gIx j k) = {}) ∧
      (t.getSite j).saveTime = BitVec.ofNat 32 (now s - (s.getSite j).saveFrom.toNat) ∧ sv ∈ (t.getPart (j / 24)).saved ∧
      sv.base = (s.getSite j).saveBase ∧ sv.slm = (s.getSite j).slm ∧ t.marl = s.marl ∧
      (∀ k : Slot, (s.getGrp (gIx j k)).mode ≠ .empty → (k.val, { s.getGrp (gIx j k) with slotted := false }) ∈ sv.groups) ∧
      ∀ i, (∀ k : Slot, i ≠ gIx j k) → t.getGrp i = s.getGrp i) ∧
  (∀ (j : Site) (s : State), (s.getSite j).mode = 3 →
    (areaCore s (j / 24) (s.getSite j).saveBase = none →
      exec (.coreRestoreDone j) s = .next (s.modSite j fun x => { x with mode := 0 })) ∧
    ∀ sv, areaCore s (j / 24) (s.getSite j).saveBase = some sv →
      ∃ t, exec (.coreRestoreDone j) s = .next t ∧
        t = { s with groups := t.groups, arys := t.arys, dmas := t.dmas, sites := t.sites, parts := t.parts } ∧
        (t.getSite j).mode = 0 ∧ (t.getSite j).slm = sv.slm ∧ (t.getSite j).allocs = sv.allocs ∧ (t.getSite j).bars = sv.bars ∧
        (∀ y ∈ (t.getPart (j / 24)).saved, sameCore y sv = false) ∧ areaCore t (j / 24) (s.getSite j).saveBase = some sv ∧
        ∀ k g, sv.groups = [(k, g)] → t.getGrp (gIx j k) = { g with faultRec := g.faultRec.map (renumber j) })

/-- R256 to R263: DMA channels. A post enters a descriptor or holds the group; a descriptor that passes its checks is taken and a bad one halts the channel with a
message; elements are issued in order and their commits counted; the last one ends the descriptor; an error halts the channel at
its element; DMA_CTRL resumes or ends a faulting descriptor and clears a halt. -/
def Obligations.DmaChannels : Prop :=
  (∀ (j : Site) (k : Slot) (w : W64) (s : State),
    let i := gIx j k
    let g := s.getGrp i
    let ch := 4 * j.val + ib w 46 45
    runsOp s j k w 0x71 0x71 = true → g.storeErr = none → released g 2 = true → ib w 63 47 = 0 → iDst w = 0 → iSb w = 0 → iSc w = 0 → iSa w % 2 = 0 →
    regsOk g [iSa w + 1] = true → lowEight (actLanes g w) = true →
    ((s.getDma ch).fifo.length < 8 → dpostWaiters s j ch = [] →
      ∃ t d, exec (.dpost j k w) s = .next t ∧ t = { s with groups := t.groups, dmas := t.dmas } ∧ t.getGrp i = advance g ∧ otherGroups i s t ∧
        t.getDma ch = { s.getDma ch with fifo := (s.getDma ch).fifo ++ [d] } ∧ d.words = laneWord g (iSa w) ∧ d.ctx.val = g.ctx.toNat ∧
        d.cls.val = g.cls.toNat ∧ d.task = g.task) ∧
    (8 ≤ (s.getDma ch).fifo.length ∨ dpostWaiters s j ch ≠ [] →
      ∃ t, exec (.dpost j k w) s = .next t ∧ t = { s with groups := t.groups } ∧ (t.getGrp i).mode = .held ∧
        ∃ c : Chan, c.val = ch ∧ (t.getGrp i).hold = .dpost c (laneWord g (iSa w)))) ∧
  (∀ (j : Site) (k : Slot) (ch : Chan) (w : Line) (s : State), (s.getGrp (gIx j k)).mode = .held → (s.getGrp (gIx j k)).hold = .dpost ch w →
    (s.getDma ch).fifo.length < 8 → tokenFirst 24 (s.getDma ch).fifoTok (dpostWaiters s j ch) = k.val →
    ∃ t d, exec (.dpostSlotFree j k) s = .next t ∧ t = { s with dmas := t.dmas, groups := t.groups } ∧
      (t.getDma ch).fifo = (s.getDma ch).fifo ++ [d] ∧ d.words = w ∧ t.getGrp (gIx j k) = advance (unhold (s.getGrp (gIx j k)))) ∧
  (∀ (ch : Chan) (d : DDesc) (s : State), let x := s.getDma ch
    x.fifo.head? = some d → (x.mode = .idle ∨ x.mode = .running) → x.taken = false → x.cause = 0 → (s.getSite (ch.val / 4)).mode ≠ 1 →
    getBit (s.getSite (ch.val / 4)).blkBusy 2 = false →
    (mOp d.words ≠ 5 → ∀ c ∈ (if mOp d.words = 2 then [Instr.dmaFill ch] else if mOp d.words = 3 then [.dmaReduce ch]
        else if mOp d.words = 4 then [.dmaDiscard ch] else [.dmaCopy ch]),
      (dmaOk s (ch.val / 4) d = true → exec c s = .next (s.modDma ch fun x => { x with mode := .running, taken := true, next := 0 })) ∧
      (dmaOk s (ch.val / 4) d = false →
        ∃ t, exec c s = .next t ∧ t = { s with dmas := t.dmas, parts := t.parts, net := { s.net with tids := t.net.tids } } ∧
          (t.getDma ch).mode = .halted ∧ (t.getDma ch).code = 1 ∧
          (t.getDma ch).fifo = x.fifo.drop 1 ∧
          ∀ r, d.task = some r → (t.getPart r.p).faultMsgs = (s.getPart r.p).faultMsgs ++ [{ task := r, reason := 5, exc := 1 }])) ∧
    (mOp d.words = 5 → dmaOk s (ch.val / 4) d = true → ∀ ix, inReset s (synPart (mSyncId d.words)) = false → synStore s (mSyncId d.words) = some ix →
      ∃ t, exec (.dmaSync ch) s = .next t ∧ (t.getSyn ix).counter = (s.getSyn ix).counter + 1 ∧ (t.getDma ch).fifo = x.fifo.drop 1 ∧
        (t.getDma ch).code = 0 ∧ (t.getDma ch).mode = (if (x.fifo.drop 1).isEmpty then .idle else .running))) ∧
  (∀ (ch : Chan) (d : DDesc) (s : State), let x := s.getDma ch
    x.fifo.head? = some d → x.mode = .running → x.taken = true → x.faultAt = none → x.busAt = none →
    (x.cause = 0 → x.next < mTotal d.words → mDstShm d.words = true → (mOp d.words = 1 → mSrcShm d.words = true) → (mOp d.words = 1 ∨ mOp d.words = 2) →
      paceHolds s (ch.val / 96) (dmaPipe ch) = false →
      ∃ t e, exec (.dmaElementIssue ch) s = .next t ∧ t = { s with dmas := t.dmas, govs := t.govs } ∧
        t.getDma ch = { x with next := x.next + 1, inFlight := x.inFlight ++ [e], retryFrom := none } ∧ e.k = x.next ∧ e.sent = false ∧ e.get = none ∧
        e.to_ = .shm ((slmAlloc s (ch.val / 4) d.task).1 + mDstAt d.words x.next) ∧
        (mOp d.words = 1 → e.data = slmRead s (ch.val / 4) ((slmAlloc s (ch.val / 4) d.task).1 + mSrcAt d.words x.next) (mE d.words))) ∧
    (∀ e, x.inFlight = [e] → e.sent = false → e.get = none → e.held = false → e.bad = false →
      (∀ a, x.cause = 0 → e.to_ = .shm a → (mOp d.words = 1 ∨ mOp d.words = 2) → mSyncEn d.words = false →
        ∃ t, exec (.dmaElementCommit ch e.k) s = .next t ∧ t = { s with dmas := t.dmas, sites := t.sites } ∧
          slmRead t (ch.val / 4) a e.data.length = e.data ∧
          (∀ b, b < a ∨ a + e.data.length ≤ b → slmRead t (ch.val / 4) b 1 = slmRead s (ch.val / 4) b 1) ∧
          (t.getDma ch).elements = x.elements + 1 ∧ (t.getDma ch).inFlight = [] ∧
          (x.next < mTotal d.words → (t.getDma ch).fifo = x.fifo ∧ (t.getDma ch).mode = .running) ∧
          (mTotal d.words ≤ x.next → (t.getDma ch).fifo = x.fifo.drop 1 ∧ (t.getDma ch).code = 0 ∧
            (t.getDma ch).mode = (if (x.fifo.drop 1).isEmpty then .idle else .running))) ∧
      ∃ t, exec (.dmaBusError ch e.k) s = .next t ∧ t = { s with dmas := t.dmas, parts := t.parts, net := { s.net with tids := t.net.tids } } ∧ (t.getDma ch).mode = .halted ∧
        (t.getDma ch).code = 3 ∧ (t.getDma ch).index = BitVec.ofNat 64 e.k ∧ (t.getDma ch).fifo = x.fifo.drop 1 ∧
        ∀ r, d.task = some r → (t.getPart r.p).faultMsgs = (s.getPart r.p).faultMsgs ++ [{ task := r, reason := 3, exc := 0 }])) ∧
  (∀ (r : Req) (ch : Chan) (s : State), let x := s.getDma ch
    siteWritable s r (ch.val / 4) 2 = true →
    (x.mode = .parked → getBit x.cause 1 = true →
      exec (.dmaCtrlResume r ch) s = .next (s.modDma ch fun y =>
        { y with cause := x.cause &&& 1#2, faultRec := none, mode := if x.cause &&& 1#2 = 0 then .running else .parked }) ∧
      ∃ t, exec (.dmaCtrlDiscard r ch) s = .next t ∧ t = { s with dmas := t.dmas, parts := t.parts } ∧ (t.getDma ch).code = 2 ∧
        (t.getDma ch).mode = .halted ∧ (t.getDma ch).fifo = x.fifo.drop 1) ∧
    (x.mode = .halted →
      (∃ t, exec (.dmaCtrlFlush r ch) s = .next t ∧ t = { s with dmas := t.dmas } ∧ (t.getDma ch).fifo = [] ∧ (t.getDma ch).mode = .idle ∧
        (x.fifo ≠ [] → (t.getDma ch).code = 5)) ∧
      ∃ t, exec (.dmaCtrlClrHalt r ch) s = .next t ∧ t = { s with dmas := t.dmas } ∧
        t.getDma ch = (let c := if (s.getSite (ch.val / 4)).mode = 1 then x.cause ||| 1#2 else x.cause
          { x with cause := c, mode := if x.fifo.isEmpty then .idle else if c ≠ 0 then .parked else .running })) ∧
    (x.mode = .running → ∀ c ∈ [Instr.dmaCtrlResume r ch, .dmaCtrlDiscard r ch, .dmaCtrlFlush r ch, .dmaCtrlClrHalt r ch],
      ∃ t, exec c s = .next t ∧ t = { s with hst := t.hst, pcie := t.pcie, tx := t.tx } ∧
        Tbl.get 0 t.hst.regErr (ch / 96) = Tbl.get 0 s.hst.regErr (ch / 96) + 1))

/-! ### Aborts (chapter 08) -/

/-- R220, R269 to R276: an abort command that is accepted marks the contexts it affects, ends the live tasks of its target that have
not succeeded, and shows as started at its requester; a context abort inside a running wider one joins it; a ninth, or one before
READY, is refused; other requesters start none. At 0.3 of its budget a site that still holds the target's work is reset, for a context abort saved first without it, and cut off where that takes over 18 µs; the same for the work of a task that ended with "fault" (its number is the model's, log 84); once nothing is
left the abort ends, its contexts' translations gone and the host told. A tag loss is reported and aborts every context. -/
def Obligations.Aborts : Prop :=
  (∀ (r : Req) (tag : BitVec 16) (ctx : Ctx) (p : Tower) (s : State),
    let cmds : List (Instr × AbortKind) := [(.abortContext r ctx tag, .context ctx), (.abortPartition r (BitVec.ofNat 6 p.val) tag, .partition p),
      (.abortDevice r tag, .device)]
    ∀ c ∈ cmds,
      (2 ≤ r.val → exec c.1 s = .next s) ∧
      (r.val < 2 → (s.bru.ready = false ∨ (8 ≤ s.aborts.length ∧ ∀ x, c.2 = .context x → coverOf s x = none)) →
        ∃ t, exec c.1 s = .next t ∧ t = { s with xreqs := t.xreqs, aborts := t.aborts } ∧ (t.getXrq r).abState = 3 ∧ (t.getXrq r).abTag = tag ∧
          t.aborts.map (·.kind) = s.aborts.map (·.kind)) ∧
      (r.val < 2 → s.bru.ready = true → s.aborts.length < 8 → (∀ x, c.2 = .context x → coverOf s x = none) →
        ∃ t a, exec c.1 s = .next t ∧ t.aborts.getLast? = some a ∧ t.aborts.length = s.aborts.length + 1 ∧ a.kind = c.2 ∧ a.t0 = s.skt.time ∧
          a.phase = 1 ∧ (t.getXrq r).abTag = tag ∧ (t.getXrq r).abState = 1 ∧ (t.getXrq r).abPhase = 1 ∧ a.ctxs = abortCtxs s c.2 ∧
          ∀ x ∈ a.ctxs, (t.getCtx x).aborting = true)) ∧
  (∀ (r : Req) (tag : BitVec 16) (ctx : Ctx) (i : Nat) (a : Abort) (s : State), r.val < 2 → s.bru.ready = true → coverOf s ctx = some i →
    s.aborts[i]? = some a →
    ∃ t, exec (.abortContext r ctx tag) s = .next t ∧ t = { s with xreqs := t.xreqs, aborts := t.aborts } ∧ t.aborts.length = s.aborts.length ∧
      (t.getXrq r).abState = 4 ∧ (t.getXrq r).abTag = tag ∧ (t.getXrq r).abPhase = a.phase) ∧
  (∀ (ix : Nat) (a : Abort) (s : State), s.aborts[ix]? = some a → a.phase = 1 → a.t0.toNat + abortBudget a.kind * 3 / 10 ≤ now s →
    (holdouts s a.kind = [] →
      ∃ t, exec (.abortForceHoldouts ix) s = .next t ∧ t = { s with aborts := t.aborts, xreqs := t.xreqs } ∧
        t.aborts[ix]? = some { a with phase := 2, forced := 0 }) ∧
    (∀ j : Site, holdouts s a.kind = [j.val] → (∀ c, a.kind ≠ .context c) →
      ∃ t, exec (.abortForceHoldouts ix) s = .next t ∧ (t.getSite j).mode = 4 ∧ (t.getSite j).byAbort = true ∧ ∀ k : Slot, t.getGrp (gIx j k) = {}) ∧
    (∀ (j : Site) (c : Ctx), holdouts s a.kind = [j.val] → a.kind = .context c →
      ((s.getSite j).mode = 1 →
        ∃ t, exec (.abortForceHoldouts ix) s = .next t ∧ (t.getSite j).mode = 1 ∧
          (t.getSite j).saveDrop = (s.getSite j).saveDrop ++ [BitVec.ofNat 6 c.val]) ∧
      (saveAllowed s j = true →
        ∃ t, exec (.abortForceHoldouts ix) s = .next t ∧ (t.getSite j).mode = 1 ∧ (t.getSite j).saveDrop = [BitVec.ofNat 6 c.val]))) ∧
  (∀ (ix : Nat) (a : Abort) (c : Ctx) (j : Site) (s : State), s.aborts[ix]? = some a → a.phase ≠ 1 → a.kind = .context c →
    a.t0.toNat + 300000 ≤ now s → (s.getSite j).mode = 1 → (s.getSite j).saveDrop.contains (BitVec.ofNat 6 c.val) = true →
    (∀ i : Site, i ≠ j → (s.getSite i).mode ≠ 1) →
    (now s ≤ (s.getSite j).saveFrom.toNat + 18000 → exec (.abortForceHoldouts ix) s = .next s) ∧
    ((s.getSite j).saveFrom.toNat + 18000 < now s →
      ∃ t, exec (.abortForceHoldouts ix) s = .next t ∧ (t.getSite j).mode = 4 ∧ (t.getSite j).byAbort = true ∧ ∀ k : Slot, t.getGrp (gIx j k) = {})) ∧
  (∀ (ix : Nat) (r : TaskRef) (x : Task) (j : Site) (s : State), s.aborts = [] → (faultEnds s)[ix]? = some (r, x) → x.endForced = false →
    (now s < x.endFrom.toNat + 300000 → exec (.abortForceHoldouts ix) s = .next s) ∧
    (x.endFrom.toNat + 300000 ≤ now s → holdoutsOf s [r] = [j.val] →
      ∃ t, exec (.abortForceHoldouts ix) s = .next t ∧
        ((s.getSite j).mode = 1 → (t.getSite j).mode = 1 ∧ (t.getSite j).dropTasks = (s.getSite j).dropTasks ++ [r]) ∧
        (saveAllowed s j = true → (t.getSite j).mode = 1 ∧ (t.getSite j).dropTasks = [r]) ∧
        ((s.getSite j).mode ≠ 1 → saveAllowed s j = false → (t.getSite j).mode = 4 ∧ (t.getSite j).byAbort = true))) ∧
  (∀ (ix : Nat) (a : Abort) (tag : BitVec 16) (s : State), s.aborts[ix]? = some a → holdouts s a.kind = [] → abortTasks s a.kind = [] →
    (∀ c, a.kind ≠ .context c) → a.asks = [{ req := 0, tag := tag, shown := true, merged := false, remote := none }] →
    ∃ t, exec (.abortComplete ix) s = .next t ∧ t.aborts = s.aborts.eraseIdx ix ∧ (t.getXrq 0).abState = 2 ∧ (t.getXrq 0).abPhase = 3 ∧
      getBit t.hst.event 1 = true ∧ ∀ j < 96, ∀ l ∈ (t.getSite j).tlb, l.base < 2 ^ 48 → 0 < l.size → l.ctx ∉ a.ctxs) ∧
  (∀ (j : Slice) (set : BitVec 14) (s : State), s.bru.ready = true → s.aborts.length < 8 →
    ∃ t a, exec (.tagLoss j set) s = .next t ∧ .notify (2 ^ 24 + j.val * 2 ^ 14 + set.toNat) ∈ t.tx ∧ t.aborts.getLast? = some a ∧ a.kind = .device)

/-! ### Lanes and links (chapter 11) -/

/-- R330 to R332, R336 to R338, R341 to R343: flits. A frame with a codeword that cannot be corrected is discarded whole, counted, and a replay asked for; a good DATA
flit with the expected number joins its lane, one with another number or a bad CRC does not and asks for a replay; a flit sent keeps its
place in the retry buffer until acknowledged; a replay sends the buffer again from its oldest flit and begins at most once in
300 ns; an idle slot carries an empty flit, which takes no number. -/
def Obligations.LinkFlits : Prop :=
  (∀ (k : Port) (ls : List (List Byte)) (dark : BitVec 9) (s : State), let x := s.getPort k
    let code := rxCode x ls
    inService x = true →
    (x.lostLane ≠ none → ∃ t, exec (.frameReceive k ls dark) s = .next t ∧ (t.getPort k).rplAsk = true ∧ (t.getPort k).rxq = x.rxq ∧
      (t.getPort k).rxSeq = x.rxSeq ∧ (t.getPort k).failRun = x.failRun ∧ (t.getPort k).fecUncorr = x.fecUncorr) ∧
    (x.lostLane = none → (∃ c < 8, frameDecode (frameWord code c) = none) →
      ∃ t, exec (.frameReceive k ls dark) s = .next t ∧ t = { s with ports := t.ports, net := t.net } ∧ (t.getPort k).fecUncorr = x.fecUncorr + 1 ∧
        (t.getPort k).failRun = x.failRun + 1 ∧ (t.getPort k).rplAsk = true ∧ (t.getPort k).rxq = x.rxq ∧ (t.getPort k).dark = dark ∧
        (t.getPort k).rxSeq = x.rxSeq ∧ (t.getPort k).retry = x.retry) ∧
    (x.lostLane = none → (∀ c < 8, frameDecode (frameWord code c) ≠ none) →
      ∃ t, exec (.frameReceive k ls dark) s = .next t ∧ t = { s with ports := t.ports, lanes := t.lanes, net := t.net } ∧ (t.getPort k).failRun = 0 ∧
        (t.getPort k).decodeAt = s.skt.time ∧ (t.getPort k).fecUncorr = x.fecUncorr)) ∧
  (∀ (k : Port) (flit : List Byte) (s : State),
    let x := s.getPort k
    let h := flitHdr flit
    let good : Prop := flit.length = 256 ∧ crc32c (flit.take 252) = ofLe (flit.drop 252) ∧ bit (flitNum flit) 11 = false ∧
      flitNum flit / 2 ^ 66 = 0 ∧ h.type ≤ 2
    inService x = true →
    (¬good → ∃ t, exec (.flitReceive k flit) s = .next t ∧ t = { s with ports := t.ports } ∧
      t.getPort k = { x with crcErr := x.crcErr + 1, rplAsk := true }) ∧
    (good → h.type = 1 → h.seq = x.rxSeq.toNat → ∃ t, exec (.flitReceive k flit) s = .next t ∧ t = { s with ports := t.ports } ∧
      (t.getPort k).rxSeq = x.rxSeq + 1 ∧ (t.getPort k).rplAsk = false ∧ Tbl.get [] (t.getPort k).rxq h.vl = Tbl.get [] x.rxq h.vl ++ [flit] ∧
      (∀ v, v ≠ h.vl → Tbl.get [] (t.getPort k).rxq v = Tbl.get [] x.rxq v) ∧ (h.ackV = false → (t.getPort k).retry = x.retry)) ∧
    (good → h.type = 1 → h.seq ≠ x.rxSeq.toNat → ∃ t, exec (.flitReceive k flit) s = .next t ∧ t = { s with ports := t.ports } ∧
      (t.getPort k).rxSeq = x.rxSeq ∧ (t.getPort k).rplAsk = true ∧ (t.getPort k).rxq = x.rxq)) ∧
  (∀ (k : Port) (s : State), let x := s.getPort k
    let sent (t : State) (g : List Byte) : Prop := t = { s with ports := t.ports, tx := t.tx } ∧
      (x.txFrame.length < 4 → t.tx = s.tx ∧ (t.getPort k).txFrame = x.txFrame ++ [g]) ∧
      (x.txFrame.length = 4 → t.tx = .frame k (frameLanes { x with txFrame := x.txFrame ++ [g] }) :: s.tx ∧ (t.getPort k).txFrame = [])
    inService x = true →
    (marksTime (now s) x = false →
      (∀ i f, x.replayAt = some i → x.retry[i]? = some f →
        ∃ t g, exec (.flitSlotTransmit k) s = .next t ∧ sent t g ∧
          (t.getPort k).retry = setAt x.retry i g ∧ (t.getPort k).replayAt = (if i + 1 < x.retry.length then some (i + 1) else none) ∧
          (t.getPort k).txSeq = x.txSeq ∧ (t.getPort k).txq = x.txq) ∧
      (x.replayAt = none → x.retry.length < 512 →
        (∀ second rest, x.initDue = second :: rest →
          ∃ t g, exec (.flitSlotTransmit k) s = .next t ∧ sent t g ∧ (t.getPort k).initDue = rest ∧
            (t.getPort k).retry = x.retry ++ [g] ∧ (t.getPort k).txSeq = x.txSeq + 1 ∧
            (t.getPort k).localReady = (x.localReady || second)) ∧
        (∀ f rest, x.initDue = [] → Tbl.get [] x.txq 5 = f :: rest → creditNeed 5 f ≤ Tbl.get 0 x.avail 5 → (∀ b ∈ x.mgmtRun, b = false) →
          ∃ t g, exec (.flitSlotTransmit k) s = .next t ∧ sent t g ∧
            (t.getPort k).retry = x.retry ++ [g] ∧ (t.getPort k).txSeq = x.txSeq + 1 ∧ Tbl.get [] (t.getPort k).txq 5 = rest ∧
            Tbl.get 0 (t.getPort k).avail 5 = Tbl.get 0 x.avail 5 - 1) ∧
        (∀ vl tier tok f rest, x.initDue = [] → Tbl.get [] x.txq 5 = [] →
          chooseLane (s.modPort k fun x => { x with replayAt := none }) k = some (vl, tier, tok) → vl < 5 → Tbl.get [] x.txq vl = f :: rest →
          ∃ t g, exec (.flitSlotTransmit k) s = .next t ∧ t = { s with ports := t.ports, parts := t.parts, tx := t.tx } ∧
            (t.getPort k).retry = x.retry ++ [g] ∧ (t.getPort k).txSeq = x.txSeq + 1 ∧ Tbl.get [] (t.getPort k).txq vl = rest ∧
            Tbl.get 0 (t.getPort k).avail vl = Tbl.get 0 x.avail vl - 1 ∧ (t.getPort k).vlTok = tok) ∧
        (x.initDue = [] → (∀ v < 6, Tbl.get [] x.txq v = []) →
          ∃ t g, exec (.flitSlotTransmit k) s = .next t ∧ sent t g ∧
            (t.getPort k).retry = x.retry ∧ (t.getPort k).txSeq = x.txSeq ∧ (t.getPort k).txq = x.txq))) ∧
    (x.txFrame = [] → 0x28 ∈ x.txDue → (∀ b ∈ x.txDue, b.toNat / 8 = 5 → b = 0x28) → (x.txRun = 0 ∨ 3 ≤ x.txRun) →
      ∃ t, exec (.flitSlotTransmit k) s = .next t ∧ (t.getPort k).txMark = 0x28) ∧
    (x.rplSeen = true → (x.replays = 0 ∨ 300 ≤ now s - x.replayFrom.toNat) → x.replayRun = 0 → x.retry ≠ [] →
      ∃ t, exec (.replayStart k) s = .next t ∧ (x.txNote = none → t = { s with ports := t.ports }) ∧ (t.getPort k).replayAt = some 0 ∧
        (∀ old sp, x.txNote = some (old, sp) → (t.getPort k).failTx = setBit x.failTx old true ∧ getBit t.hst.event 7 = true) ∧
        (t.getPort k).replays = x.replays + 1 ∧ (t.getPort k).rplSeen = false ∧ (t.getPort k).retry = x.retry) ∧
    (x.replays ≠ 0 → now s - x.replayFrom.toNat < 300 → exec (.replayStart k) s = .next s))

/-- R339, R342 and R345 to R352, R355: the states of a link. A retrain keeps the retry buffer, and the fourth in succession fails the port; training with four healthy lanes or
more each way gives width 8 or 4 on the lowest ones, with fewer it fails; the second INIT makes the peer ready; a failed lane is
replaced by the lowest standby lane and logged, or the port asks for width 4; a standby lane in its retune takes no part; only the
management core writes ABF_LINK_CTRL. -/
def Obligations.LinkStates : Prop :=
  (∀ (k : Port) (s : State), let x := s.getPort k
    inService x = true →
    let fails := if now s - x.upFrom.toNat < 1000000000 then x.retrainFails + 1 else 1
    ∀ c ∈ [Instr.noDecodeTimeout k, .retrain k, .linkRetrain 1 k],
      (c = .noDecodeTimeout k → x.lostLane = none ∧ 10000 ≤ now s - x.decodeAt.toNat) → (c = .retrain k → x.retrainDue = true) → portPresent s k = true →
      x.st ≠ .repair → x.st ≠ .degrade →
      (fails ≤ 3 → ∃ t, exec c s = .next t ∧ (t.getPort k).st = .retrain ∧ (t.getPort k).retrains = x.retrains + 1 ∧ (t.getPort k).retry = x.retry ∧
        (t.getPort k).txSeq = x.txSeq ∧ (t.getPort k).rxSeq = x.rxSeq) ∧
      (3 < fails → ∃ t, exec c s = .next t ∧ (t.getPort k).st = .failed ∧ getBit t.hst.event 7 = true)) ∧
  (∀ (k : Port) (s : State), portPresent s k = true → ((s.getPort k).st = .repair ∨ (s.getPort k).st = .degrade) →
    exec (.linkRetrain 1 k) s = .next (s.modPort k fun x => { x with retrainDue := true })) ∧
  (∀ (k : Port) (s : State), let x := s.getPort k
    portPresent s k = true → s.skt.pllLocked = true → (x.st = .detect ∨ x.st = .train ∨ x.st = .retrain) →
    (∀ seen : BitVec 9, x.trainStep = 0 →
      (4 ≤ (lanesIn seen).length → ∃ t, exec (.portTraining k (.detect seen)) s = .next t ∧ t = { s with ports := t.ports } ∧
        (t.getPort k).trainStep = 1 ∧ (t.getPort k).st = (if x.st = .detect then .train else x.st)) ∧
      ((lanesIn seen).length < 4 → exec (.portTraining k (.detect seen)) s = .next s)) ∧
    (∀ tx rx : BitVec 9, x.trainStep = 1 →
      ∃ t, exec (.portTraining k (.lock tx rx)) s = .next t ∧ t = { s with ports := t.ports } ∧ (t.getPort k).okTx = tx ∧ (t.getPort k).okRx = rx) ∧
    (∀ tx rx : BitVec 9, x.trainStep = 2 →
      ∃ t, exec (.portTraining k (.equalise tx rx)) s = .next t ∧ t = { s with ports := t.ports } ∧ (t.getPort k).okTx = x.okTx &&& tx ∧
        (t.getPort k).okRx = x.okRx &&& rx) ∧
    (∀ (ms : List Byte) (flip : BitVec 9), x.trainStep = 3 →
      ∃ t, exec (.portTraining k (.order ms flip)) s = .next t ∧
        t = { s with ports := t.ports, tx := .frame k ((List.range 9).map fun l => [trainId l]) :: s.tx } ∧ (t.getPort k).rxFlip = flip ∧
        ∀ l < 9, ∀ n < 9, ms[l]? = some (trainId n) → peerLane (t.getPort k) l = n) ∧
    (∀ eTx eRx : List Nat, x.trainStep = 4 →
      let tx := x.okTx &&& fewErrors eTx &&& ~~~x.failTx
      let rx := x.okRx &&& fewErrors eRx &&& ~~~x.failRx
      (4 ≤ (lanesIn tx).length → 4 ≤ (lanesIn rx).length →
        let w := if 8 ≤ (lanesIn tx).length ∧ 8 ≤ (lanesIn rx).length then 8 else 4
        ∃ t, exec (.portTraining k (.verify eTx eRx)) s = .next t ∧ t = { s with ports := t.ports } ∧ (t.getPort k).width.toNat = w ∧
          (t.getPort k).mapTx = (lanesIn tx).take w ∧ (t.getPort k).mapRx = (rxLanesIn x rx).take w) ∧
      (((lanesIn tx).length < 4 ∨ (lanesIn rx).length < 4) →
        ∃ t, exec (.portTraining k (.verify eTx eRx)) s = .next t ∧ (t.getPort k).st = .failed ∧ getBit t.hst.event 7 = true)) ∧
    (∀ a us : W32, x.trainStep = 5 →
      ∃ t, exec (.portTraining k (.timing a us)) s = .next t ∧ (t.getPort k).st = .upNotReady ∧ (t.getPort k).width = x.width ∧
        (t.getPort k).asym = a ∧ (t.getPort k).trainTime = us ∧ (t.getPort k).initWait = true ∧
        (x.kept = false → (t.getPort k).txSeq = 0 ∧ (t.getPort k).rxSeq = 0 ∧ (t.getPort k).retry = [] ∧ (t.getPort k).initDue = [false]) ∧
        (x.kept = true → (t.getPort k).txSeq = x.txSeq ∧ (t.getPort k).rxSeq = x.rxSeq ∧ (t.getPort k).retry = x.retry))) ∧
  (∀ (k : Port) (pay : List Byte) (s : State), let x := s.getPort k
    inService x = true → (x.initWait = false ∨ bit (pay.getD 0xF 0).toNat 0 = false) → x.initWait && x.kept = false →
    (∃ v < 5, initField pay (2 * v) ≠ 0) →
    ∃ t, exec (.initReceive k pay) s = .next t ∧ (t.getPort k).peerReady = true ∧ (t.getPort k).peerId = BitVec.ofNat 16 (initField pay 0xC) ∧
      (∀ v < 5, Tbl.get 0 (t.getPort k).avail v = Tbl.get 0 x.avail v + initField pay (2 * v)) ∧
      (t.getPort k).st = (if x.st = .upNotReady ∧ x.localReady = true then .up else x.st)) ∧
  (∀ (k : Port) (l : Fin 8) (ph : Nat) (s : State), let x := s.getPort k
    inService x = true → x.mapRx[if x.width = 4 then l.val % 4 else l.val]? = some ph →
    (laneFailed s k ph = false → exec (.laneFail k l) s = .next s) ∧ (laneFailed s k ph = true →
    let s1 := s.modPort k fun x => { x with failRx := setBit x.failRx ph true }
    let healthy := lanesIn (x.okRx &&& ~~~(setBit x.failRx ph true))
    (healthy.length < 4 → ∃ t, exec (.laneFail k l) s = .next t ∧ (t.getPort k).st = .failed) ∧
    (4 ≤ healthy.length → x.st ≠ .degrade → x.lostLane = none → spares s1 k true ≠ [] →
      ∃ t, exec (.laneFail k l) s = .next t ∧ t = { s with ports := t.ports } ∧ (t.getPort k).st = .repair ∧
        (t.getPort k).lostLane = some (if x.width = 4 then l.val % 4 else l.val) ∧ (t.getPort k).failRx = setBit x.failRx ph true) ∧
    (4 ≤ healthy.length → x.st ≠ .degrade → x.lostLane = none → spares s1 k true = [] →
      ∃ t, exec (.laneFail k l) s = .next t ∧ t = { s with ports := t.ports } ∧ (t.getPort k).st = .degrade ∧ 0x20 ∈ (t.getPort k).txDue))) ∧
  (∀ (k : Port) (l : Fin 8) (sp : Nat) (rest : List Nat) (s : State), let x := s.getPort k
    x.st = .repair →
    (x.lostLane = some l.val → x.switched = true → standby s k true = sp :: rest → s.rst.repairs.length < 1023 → l.val < x.mapRx.length →
      ∃ t e, exec (.laneReplace k true l) s = .next t ∧ (t.getPort k).mapRx[l.val]? = some sp ∧ (t.getPort k).repairs = x.repairs + 1 ∧
        (t.getPort k).spareRx = true ∧ t.rst.repairs = s.rst.repairs ++ [e] ∧ e.kind = 0x0C ∧ e.unit.toNat = k.val ∧ getBit t.hst.event 7 = true) ∧
    (x.txLost = some l.val → x.txFrame = [] → standby s k false = sp :: rest → l.val < x.mapTx.length →
      ∃ t, exec (.laneReplace k false l) s = .next t ∧ t = { s with ports := t.ports } ∧ (t.getPort k).mapTx[l.val]? = some sp ∧
        (t.getPort k).spareTx = true ∧ (t.getPort k).repairs = x.repairs + 1 ∧ BitVec.ofNat 8 (24 + l.val) ∈ (t.getPort k).txDue ∧
        (t.getPort k).txNote = some (x.mapTx.getD l.val 15, sp)) ∧
    (x.lostLane = some l.val → x.switched = false → exec (.laneReplace k true l) s = .next s)) ∧
  (∀ (k : Port) (s : State), let x := s.getPort k
    x.st = .degrade → x.degSent = true → x.degSeen = true → x.txFrame = [] → x.txNote = none →
    let tx := lanesIn (x.okTx &&& ~~~x.failTx)
    let rx := rxLanesIn x (x.okRx &&& ~~~x.failRx)
    4 ≤ tx.length → 4 ≤ rx.length →
    ∃ t, exec (.widthDegrade k) s = .next t ∧ (t.getPort k).width = 4 ∧ (t.getPort k).mapTx = tx.take 4 ∧ (t.getPort k).mapRx = rx.take 4 ∧
      getBit t.hst.event 7 = true) ∧
  (∀ (k : Port) (l : Fin 9) (s : State), let x := s.getPort k
    let i := 9 * k.val + l.val
    ((s.getLane i).tuning = true → ∃ t, exec (.standbyRetune k l) s = .next t ∧ (t.getLane i).tuning = false ∧ t.ports = s.ports) ∧
    ((s.getLane i).tuning = false → inService x = true → (getBit x.okTx l || getBit x.okRx l) = true → l.val ∉ x.mapTx → l.val ∉ x.mapRx →
      ((s.getLane i).tuneAt = 0 ∨ (s.getLane i).tuneAt.toNat + 100000000 ≤ now s) →
      ∃ t, exec (.standbyRetune k l) s = .next t ∧ (t.getLane i).tuning = true ∧ t.ports = s.ports ∧
        l.val ∉ standby t k true ∧ l.val ∉ standby t k false)) ∧
  (∀ (k : Port) (s : State), let x := s.getPort k
    inService x = true → 3 ≤ x.markRun →
    (x.mark.toNat / 8 = 2 → x.st ≠ .degrade → x.txLost = none → spares s k false ≠ [] →
      ∃ t, exec (.markerCodeAccept k) s = .next t ∧ t = { s with ports := t.ports } ∧ (t.getPort k).st = .repair ∧
        (t.getPort k).txLost = some (if x.width = 4 then x.mark.toNat % 8 % 4 else x.mark.toNat % 8)) ∧
    (x.mark.toNat / 8 = 4 →
      ∃ t, exec (.markerCodeAccept k) s = .next t ∧ t = { s with ports := t.ports } ∧ (t.getPort k).degSeen = true ∧ (t.getPort k).st = .degrade)) ∧
  (∀ (r : Req) (k : Port) (s : State),
    (r ≠ 1 → ∀ c ∈ [Instr.linkEnable r k, .linkDisable r k, .linkRetrain r k], exec c s = .next s) ∧
    (portPresent s k = true → ((s.getPort k).st = .off ∨ (s.getPort k).st = .failed) →
      ∃ t, exec (.linkEnable 1 k) s = .next t ∧ (t.getPort k).st = .detect ∧ (t.getPort k).retrainFails = 0 ∧ (t.getPort k).txSeq = 0) ∧
    (portPresent s k = true →
      ∃ t, exec (.linkDisable 1 k) s = .next t ∧ (t.getPort k).st = .off ∧ (t.getPort k).width = 0 ∧ (t.getPort k).mapTx = []))

/-! ### The fabric (chapter 12) -/

/-- R285, R359 to R361 and R368 to R371, R306, R316: packets at this device. A packet that has arrived whole leaves its lane in its turn and returns its credits, and one for this device is
delivered; a request to a target that is present and not resetting is performed and answered, the kept kinds with a record; a
resend of a recorded request is answered from the record and performs nothing; one to a resetting target is refused "target
resetting". -/
def Obligations.FabricTargets : Prop :=
  (∀ (k : Port) (vl : Fin 6) (pkt : Pkt) (s : State),
    let q := Tbl.get [] (s.getPort k).rxq vl
    headFlits q ≠ [] → flitsPkt (headFlits q) = pkt → badHeader pkt = false → pkt.dst = s.net.id →
    unadvertised (s.getPort k) vl + (headFlits q).length < 128 →
    (routeTurn s k vl pkt = none → exec (.packetRoute (some k) vl pkt) s = .next s) ∧
    ((routeTurn s k vl pkt).isSome = true → ∃ t, exec (.packetRoute (some k) vl pkt) s = .next t ∧
      t = { s with ports := t.ports, parts := t.parts, seams := t.seams, routers := t.routers, net := { s.net with inbox := s.net.inbox ++ [(vl.val, pkt)] }
                   tx := .packet none vl pkt :: s.tx } ∧
      Tbl.get [] (t.getPort k).rxq vl = q.drop (headFlits q).length ∧ (t.getPort k).rxPkts = (s.getPort k).rxPkts + 1 ∧
      Tbl.get 0 (t.getPort k).returned vl = Tbl.get 0 (s.getPort k).returned vl + (headFlits q).length)) ∧
  (∀ (vl : Fin 6) (pkt : Pkt) (s : State) (tow : Nat),
    let u := undeliver vl pkt s
    let who := pktAgent vl pkt
    let a := pkt.addr.toNat
    targetTower u a = some tow →
    (pkt.retry = false → badHeader pkt = false → targetResetting u a = false → recordRoom u tow = true →
      (∀ s1, pkt.op = 1 → inBlock a pkt.payload.length = true → physWrite who a pkt.payload pkt.label u = (s1, none) →
        exec (.fabricPut vl pkt) s = .next (respAck pkt s1)) ∧
      (∀ s1 bs bad, pkt.op = 2 → inBlock a pkt.aux.toNat = true → physRead who a pkt.aux.toNat pkt.label u = (s1, none, bs, bad) →
        exec (.fabricGet vl pkt) s = .next (if bad then respNack pkt 0x10 s1 else respData pkt bs s1)) ∧
      (∀ s1 old, pkt.op = 3 → atomAllowed (bit pkt.arg.toNat 7) (bits pkt.arg.toNat 3 0) (bits pkt.arg.toNat 6 4) = true →
        a % atomSize (bits pkt.arg.toNat 6 4) = 0 → pkt.payload.length = 16 →
        physOp who a pkt.label (.atomic { aop := BitVec.ofNat 4 (bits pkt.arg.toNat 3 0), ty := BitVec.ofNat 3 (bits pkt.arg.toNat 6 4) }
          (BitVec.ofNat 64 (ofLe (pkt.payload.take 8))) (BitVec.ofNat 64 (ofLe (pkt.payload.drop 8)))) u = (s1, none, old) →
        exec (.fabricAtomic vl pkt) s = .next (respondRec tow pkt
          (if bit pkt.arg.toNat 7 then respPkt pkt 0x82 0 (leBytes 8 (ofLe old)) else respPkt pkt 0x81 0 []) s1)) ∧
      (∀ s1 old, pkt.op = 4 → bits pkt.arg.toNat 1 0 ≤ 2 → bits pkt.arg.toNat 3 2 ≤ 2 → a % 256 = 0 → pkt.payload.length = 272 →
        physOp who a pkt.label (.reduce (BitVec.ofNat 2 (bits pkt.arg.toNat 1 0)) (BitVec.ofNat 2 (bits pkt.arg.toNat 3 2))
          (pkt.payload.take 16) (pkt.payload.drop 16)) u = (s1, none, old) →
        exec (.fabricReduce vl pkt) s = .next (respondRec tow pkt (respPkt pkt 0x81 0 []) s1)) ∧
      (∀ (o ix : Nat), pkt.op = 5 → regionOf a = .sync o 0 → pkt.payload.length = 8 → synStore u o = some ix → inReset u (synPart o) = false →
        (u.getSyn ix).waiters = [] → (u.getSyn ix).armed = none →
        let x := u.getSyn ix
        let v := BitVec.ofNat 64 (ofLe pkt.payload)
        let answers (c : Instr) (counter : W64) : Prop :=
          ∃ (t s1 : State) (sat : W32), exec c s = .next t ∧ s1 = { u with syncs := s1.syncs, tick := s1.tick } ∧
            (s1.getSyn ix).counter = counter ∧ (s1.getSyn ix).ticket = x.ticket + 1 ∧ ((pkt.arg = 1 ∨ pkt.arg = 2) → sat = x.ticket) ∧
            t = respondRec tow pkt (respPkt pkt 0x82 0 (leBytes 8 counter.toNat ++ leBytes 4 sat.toNat ++ leBytes 4 x.ticket.toNat)) s1
        (pkt.arg = 0 → answers (.fabricSyncSignal vl pkt) (x.counter + v)) ∧ (pkt.arg = 2 → answers (.fabricSyncTest vl pkt) x.counter) ∧
        (pkt.arg = 3 → answers (.fabricSyncReset vl pkt) 0) ∧
        (pkt.arg = 1 → v.toNat ≤ x.counter.toNat → answers (.fabricSyncWait vl pkt) x.counter) ∧
        (pkt.arg = 1 → x.counter.toNat < v.toNat →
          ∃ t w, exec (.fabricSyncWait vl pkt) s = .next t ∧ t = { u with syncs := t.syncs } ∧ (t.getSyn ix).waiters = [w] ∧ w.pkt = some pkt ∧
            w.threshold = v ∧ w.ticket = x.ticket)) ∧
      (∀ q, pkt.op = 6 → regionOf a = .queue q 0 → 64 ≤ pkt.payload.length → pkt.payload.length ≤ 4096 → pkt.payload.length % 64 = 0 →
        (u.getPart (queOwner u q)).asm.length < 16 →
        let ws := (List.range (pkt.payload.length / 64)).map fun k => (bytesLine ((pkt.payload.drop (64 * k)).take 64), wordParity (bytesLine ((pkt.payload.drop (64 * k)).take 64)))
        (∀ tok, (u.getQue q).words.length + ws.length ≤ queCapacity (u.getQue q) → queueTurn u q (pktAgent vl pkt) = some tok →
          exec (.fabricQmsg vl pkt) s = .next (respondRec tow pkt (respPkt pkt 0x81 0 []) (queCommit q ws (u.modQue q fun x => { x with token := tok })))) ∧
        ((u.getQue q).words.length + ws.length ≤ queCapacity (u.getQue q) → queueTurn u q (pktAgent vl pkt) = none →
          exec (.fabricQmsg vl pkt) s = .next { u with net := { u.net with inbox := u.net.inbox ++ [(vl.val, pkt)] } }) ∧
        (queCapacity (u.getQue q) < (u.getQue q).words.length + ws.length →
          exec (.fabricQmsg vl pkt) s = .next (respNack pkt 2 u)))) ∧
    (∀ r, pkt.retry = true → findRecord u tow pkt = some r →
      ∀ c ∈ (if pkt.op = 3 then [Instr.fabricAtomic vl pkt] else if pkt.op = 4 then [.fabricReduce vl pkt] else if pkt.op = 6 then [.fabricQmsg vl pkt]
        else if pkt.op = 5 ∧ pkt.arg = 0 then [.fabricSyncSignal vl pkt] else if pkt.op = 5 ∧ pkt.arg = 1 then [.fabricSyncWait vl pkt]
        else if pkt.op = 5 ∧ pkt.arg = 2 then [.fabricSyncTest vl pkt] else if pkt.op = 5 ∧ pkt.arg = 3 then [.fabricSyncReset vl pkt]
        else []), exec c s = .next (sendFrom tow r.resp u).1) ∧
    (pkt.retry = false → badHeader pkt = false → targetResetting u a = true →
      (pkt.op = 1 → inBlock a pkt.payload.length = true → exec (.fabricPut vl pkt) s = .next (respNack pkt 1 u)) ∧
      (pkt.op = 2 → inBlock a pkt.aux.toNat = true → exec (.fabricGet vl pkt) s = .next (respNack pkt 1 u))))

/-- R38, R275, R372 to R375, R354, R386, R387 and R427: requests of this device and the management lane. A request takes the lowest free entry, one to this device is delivered here, and one without a route
meets a bus error; its answer frees the entry; a retryable refusal doubles the wait, drawn within a quarter; a resend carries RETRY; giving up frees the entry and counts; an
entry of an agent since reset, or of a task since aborted, is freed without an answer. -/
def Obligations.FabricRequesters : Prop :=
  (∀ (tow : Tower) (who : Agent) (pkt : Pkt) (s : State),
    (freeTid s tow = none → exec (.fabricRequestIssue tow who pkt) s = .next s) ∧
    (∀ n, freeTid s tow = some n →
      let q := { pkt with src := s.net.id, tid := BitVec.ofNat 16 (tow.val * 0x4000 + n), status := 0 }
      let entered (t : State) : Prop := ∃ x, tidEntry t tow n = some x ∧ x.who = who ∧ x.first = s.skt.time ∧ x.last = s.skt.time ∧
        x.wait = 0 ∧ x.dead = none ∧ x.pkt = q
      (∀ k e, route s none pkt.dst.toNat = .port k e →
        ∃ t, exec (.fabricRequestIssue tow who pkt) s = .next t ∧ entered t ∧
          t = { s with ports := t.ports, parts := t.parts, seams := t.seams, routers := t.routers, net := { s.net with tids := t.net.tids }, tx := t.tx }) ∧
      (route s none pkt.dst.toNat = .here →
        ∃ t, exec (.fabricRequestIssue tow who pkt) s = .next t ∧ entered t ∧
          t = { s with parts := t.parts, seams := t.seams, routers := t.routers, net := { s.net with tids := t.net.tids, inbox := s.net.inbox ++ [(baseVl q, q)] }, tx := .packet none (baseVl q) q :: s.tx }) ∧
      (route s none pkt.dst.toNat = .noRoute → exec (.fabricRequestIssue tow who pkt) s = .next (send (.busError who) s)))) ∧
  (∀ (tow : Tower) (pkt : Pkt) (x : TidEnt) (s : State),
    let u := undeliver 2 pkt (undeliver 3 pkt s)
    let n := tidNum pkt.tid
    tidTower pkt.tid = tow.val → tidEntry s tow n = some x →
    (cancelled s x = true →
      (pkt.op = 0x81 → exec (.fabricAck tow pkt) s = .next (freeEntryTid tow n u)) ∧
      (pkt.op = 0x82 → exec (.fabricData tow pkt) s = .next (freeEntryTid tow n u)) ∧
      (pkt.op = 0x83 → exec (.fabricNack tow pkt) s = .next (freeEntryTid tow n u))) ∧
    (cancelled s x = false → x.who = .host → x.pkt.op ≠ 8 →
      (pkt.op = 0x81 → pkt.payload = [] → exec (.fabricAck tow pkt) s = .next (send (.ack .host) (freeEntryTid tow n u))) ∧
      (pkt.op = 0x82 → pkt.payload ≠ [] → exec (.fabricData tow pkt) s = .next (send (.data .host pkt.payload) (freeEntryTid tow n u))) ∧
      (pkt.op = 0x83 → retryWaits pkt.status.toNat = none →
        exec (.fabricNack tow pkt) s = .next (send (.busError .host) (freeEntryTid tow n u)))) ∧
    (cancelled s x = false → pkt.op = 0x83 → ∀ first longest, retryWaits pkt.status.toNat = some (first, longest) →
      let w := if x.wait = 0 then first else min (2 * x.wait) longest
      ∃ t d, exec (.fabricNack tow pkt) s = .next t ∧ t = { u with net := { u.net with tids := t.net.tids, drawn := u.net.drawn + 1 } } ∧
        tidEntry t tow n = some { x with wait := w, until_ := s.skt.time + BitVec.ofNat 64 d } ∧ w * 3 / 4 ≤ d ∧ d ≤ w * 3 / 4 + w / 2)) ∧
  (∀ (tow : Tower) (n : Fin 4096) (x : TidEnt) (s : State), tidEntry s tow n = some x → cancelled s x = false →
    (∀ k e, route s none x.pkt.dst.toNat = .port k e → x.pkt.op ≠ 7 → x.pkt.op ≠ 8 → x.pkt.nbr = false →
      ∀ c ∈ [Instr.requestTimeout tow n, .nackRetry tow n],
        (c = .requestTimeout tow n → x.until_ = 0 ∧ x.last.toNat + 2000000 ≤ now s) → (c = .nackRetry tow n → x.until_ ≠ 0 ∧ x.until_.toNat ≤ now s) →
        ∃ t, exec c s = .next t ∧ t = { s with ports := t.ports, parts := t.parts, seams := t.seams, routers := t.routers, net := { s.net with tids := t.net.tids }, tx := t.tx } ∧
          tidEntry t tow n = some { x with last := s.skt.time, until_ := 0 } ∧
          ∃ vl p, t.tx = .packet (some ⟨k % 6, Nat.mod_lt _ (by omega)⟩) vl p :: s.tx ∧ p = { x.pkt with flags := x.pkt.flags ||| 0x20 }) ∧
    (x.first.toNat + retryLimitNs s ≤ now s → x.pkt.op ≠ 8 → x.who = .host → s.net.mgmtHeld = [] → ∀ k, x.port = some k →
      ∃ t, exec (.requestGiveUp tow n) s = .next t ∧ t = { s with ports := t.ports, net := { s.net with tids := t.net.tids }, tx := .busError .host :: s.tx } ∧
        (t.getPort k).giveUp = (s.getPort k).giveUp + 1)) ∧
  (∀ (src : Fin 7) (pkt : Pkt) (s : State),
    let u := undeliver 5 pkt s
    ((pkt.arg = 0 ∨ 6 < pkt.arg.toNat) →
      ∃ t, exec (.mgmtQueueArrive src pkt) s = .next t ∧ t = { u with net := { u.net with dropped := t.net.dropped } } ∧
        t.net.dropped.toNat = min 255 (s.net.dropped.toNat + 1)) ∧
    (1 ≤ pkt.arg.toNat → pkt.arg.toNat ≤ 6 → (mgmtHeld s src < 2 ∨ mgmtShared s < 18) →
      exec (.mgmtQueueArrive src pkt) s = .next { u with net := { u.net with mgmtq := u.net.mgmtq ++ [(src.val, pkt)] } }) ∧
    (1 ≤ pkt.arg.toNat → pkt.arg.toNat ≤ 6 → 2 ≤ mgmtHeld s src → 18 ≤ mgmtShared s →
      ∃ t, exec (.mgmtQueueArrive src pkt) s = .next t ∧ t.net.mgmtq = s.net.mgmtq ∧ t.net.busySent = s.net.busySent + 1 ∧
        (src = 6 → .mgmtBusy pkt ∈ t.tx))) ∧
  (∀ (n : Fin 4096) (x : TidEnt) (k : Port) (s : State), tidEntry s 2 n = some x → cancelled s x = false → x.pkt.op = 8 → x.port = some k →
    (x.until_ = 0 → x.last.toNat + 2000000 ≤ now s → exec (.requestTimeout 2 n) s = .next (freeEntryTid 2 n s)) ∧
    (x.until_ ≠ 0 → x.until_.toNat ≤ now s → inService (s.getPort k) = false → exec (.nackRetry 2 n) s = .next (freeEntryTid 2 n s)) ∧
    exec (.requestGiveUp 2 n) s = .next s) ∧
  (∀ (k : Port) (pay : List Byte) (s : State), pay.length = 16 →
    ∃ t, exec (.mgmtHello k pay) s = .next t ∧ t = { s with net := { s.net with mgmtq := t.net.mgmtq }, tx := .notify 0x10 :: s.tx } ∧
      t.net.mgmtq = dropFirst (fun e => decide (e.2.arg.toNat = 1 ∧ e.1 = k.val)) s.net.mgmtq) ∧
  (∀ (pay : List Byte) (s : State), pay.length = 16 →
    let id := ofLe (pay.take 2)
    let p := (pay.getD 2 0).toNat
    let d := p / 2
    let c := if p % 2 = 0 then coord id d else (coord id d + dimSize s d - 1) % dimSize s d
    p < 6 → c < 64 → dimSize s d ≠ 0 → Tbl.get {} s.net.rings d = {} →
    ∃ t, exec (.mgmtLink pay) s = .next t ∧ t = { s with net := { s.net with mgmtq := t.net.mgmtq, rings := t.net.rings } } ∧
      linkBroken t d c = bit (pay.getD 5 0).toNat 1)

/-- R40 and R376 to R382: collectives. A post enters the descriptor that memory holds at the end of the engine's FIFO, and a full FIFO counts it; a start checks it, and a bad
one ends with a descriptor error and a message; a READY is kept; a chunk is applied, acknowledged and counted; a round with all its
chunks sent and received gives way to the next; the time-out and a neighbour's cancel end it with their codes, without a
signal. -/
def Obligations.Collectives : Prop :=
  (∀ (r : Req) (k : Port) (val : W32) (s : State), (1 ≤ r.val ∧ r.val ≤ 5) → portPresent s k = true → (s.getPort k).blkBusy = false →
    (s.getPort k).collOff = false →
    let at_ := val.toNat % 256 * 2 ^ 32 + (s.getPort k).collLo.toNat / 64 * 64
    ((s.getPort k).collFifo.length < 8 → ∀ s1 bs x, physRead (.coll k) at_ 64 backLabel s = (s1, none, bs, x) →
      ∃ t p, exec (.abfCollPostHiWrite r k val) s = .next t ∧ t = { s1 with ports := t.ports } ∧
        (t.getPort k).collFifo = (s1.getPort k).collFifo ++ [(bytesLine bs, p)] ∧ (2 ≤ r.val → p.val = r.val - 2)) ∧
    (8 ≤ (s.getPort k).collFifo.length →
      ∃ t, exec (.abfCollPostHiWrite r k val) s = .next t ∧ t = { s with hst := t.hst, pcie := t.pcie, tx := t.tx } ∧
        Tbl.get 0 t.hst.regErr (portTower k) = Tbl.get 0 s.hst.regErr (portTower k) + 1)) ∧
  (∀ (p : Tower) (at_ : BitVec 40) (s : State),
    let q := (s.bru.collQ.getD p 0).toNat % 512
    let t := (takePacket q s).modPart p fun y => { y with notices := dropFirst (fun a => a == q) y.notices }
    pcRuns s p = true → (s.getQue q).words ≠ [] → q ∈ (s.getPart p).notices → (headPacket s q).length ≠ 1 →
      exec (.collQueueTake p at_) s = .next t ∧
      ((∀ w ∈ (s.getQue q).words.take (headLeft (s.getQue q)), w.ring = none) → t = { s with queues := t.queues, parts := t.parts } ∧
        (t.getQue q).words.length + (headPacket s q).length = (s.getQue q).words.length ∧
        (t.getPart p).notices = dropFirst (fun a => a == q) (s.getPart p).notices)) ∧
  (∀ (p : Tower) (at_ : BitVec 40) (w : Line × Bool) (d : Nat) (s : State),
    let q := (s.bru.collQ.getD p 0).toNat % 512
    let s1 := (takePacket q s).modPart p fun y => { y with notices := dropFirst (fun a => a == q) y.notices }
    pcRuns s p = true → q ∈ (s.getPart p).notices → headPacket s q = [w] → w.2 = false → taskOfClass s p (cCtx w.1) (cClass w.1) = true →
    (cDimList w.1).head? = some d → (scratchOf s1 at_.toNat).isSome = true → at_.toNat % 64 = 0 →
    exec (.collQueueTake p at_) s = .next (collPost (2 + p) (2 * d) at_.toNat (physWrite (.pc p) at_.toNat (lineBytes w.1) backLabel s1).1)) ∧
  (∀ (k : Port) (w : Line) (p : Tower) (rest : List (Line × Tower)) (s : State), let x := s.getPort k
    x.collFifo = (w, p) :: rest → x.coll = .idle → x.collNow = none → x.blkBusy = false → x.collOwed = [] → x.collSig = none →
    (collOk s w = false →
      ∃ t, exec (.collStart k) s = .next t ∧ (t.getPort k).collFifo = rest ∧ (t.getPort k).coll = .idle ∧ (t.getPort k).collNow = none ∧
        (t.getPort k).collCode = 1 ∧ .collEnd p (BitVec.ofNat 16 (cId w)) 1 ∈ t.tx ∧ t.syncs = s.syncs) ∧
    (collOk s w = true → ∀ d g r, collPhases s w = (d, g) :: r → portBroken s (2 * d) = false → portBroken s (2 * d + 1) = false →
      ∃ t c, exec (.collStart k) s = .next t ∧ (t.getPort k).collFifo = rest ∧ (t.getPort k).coll = .waitReady ∧ (t.getPort k).collNow = some c ∧
        c.desc = w ∧ c.started = s.skt.time ∧ c.phase = 0 ∧ c.round = 0 ∧ t.marl = s.marl ∧ t.loess = s.loess)) ∧
  (∀ (k : Port) (pkt : Pkt) (s : State), pkt.op = 7 → pkt.arg = 0 → pkt.retry = false →
    ∃ t, exec (.collReady k pkt) s = .next t ∧ (t.getPort k).collReady = (s.getPort k).collReady ++ [pkt.aux.toNat % 2 ^ 16] ∧
      ∀ q, q = { pkt with flags := pkt.flags ||| 0x20 } → ∃ t', exec (.collReady k q) t = .next t' ∧ (t'.getPort k).collReady = (t.getPort k).collReady) ∧
  (∀ (k : Port) (c : Coll) (d : Nat) (g : Bool) (s : State), let x := s.getPort k
    x.collNow = some c → x.collOwed = [] → (collPhases s c.desc)[c.phase]? = some (d, g) →
    (x.coll = .waitReady → cId c.desc ∉ (s.getPort (2 * d)).collReady → exec (.collRound k) s = .next s) ∧
    (x.coll = .running → chunkLen s c.desc d ≤ c.sentPlus → chunkLen s c.desc d ≤ c.sentMinus → chunkLen s c.desc d ≤ recvOf c c.phase c.round 0 →
      chunkLen s c.desc d ≤ recvOf c c.phase c.round 1 → c.round + 2 ≠ dimSize s d →
      ∃ t, exec (.collRound k) s = .next t ∧ t = { s with ports := t.ports } ∧
        t.getPort k = { x with collNow := some { c with round := c.round + 1, sentPlus := 0, sentMinus := 0 } })) ∧
  (∀ (port : Port) (pkt : Pkt) (k : Nat) (c : Coll) (d : Nat) (g : Bool) (s s1 : State), pkt.op = 7 → pkt.arg = 1 → pkt.retry = false →
    let u := undeliver 0 pkt (undeliver 1 pkt (undeliver 4 pkt s))
    recordRoom u (portTower port) = true → collEngine u (pkt.aux.toNat % 2 ^ 16) = some k → (u.getPort k).collNow = some c →
    (collPhases u c.desc)[c.phase]? = some (d, g) → chunkHeld port c.desc g 32 pkt.addr.toNat pkt.payload.length u = false → applyChunk port c.desc g 32 pkt.addr.toNat pkt.payload u = (s1, none) →
    (s1.getPort k).collNow = some c →
    let ix := 256 * c.phase + 2 * bits pkt.aux.toNat 31 16 + b2n (port.val % 2 == 0)
    ∃ t c', exec (.collChunk port pkt) s = .next t ∧ (t.getPort k).collNow = some c' ∧ c'.phase = c.phase ∧ c'.round = c.round ∧ c'.desc = c.desc ∧
      Tbl.get 0 c'.recv ix = Tbl.get 0 c.recv ix + pkt.payload.length ∧
      ∃ r, findRecord t (portTower port) pkt = some r ∧ r.resp = respPkt pkt 0x81 0 []) ∧
  (∀ (k : Port) (c : Coll) (s : State), (s.getPort k).collNow = some c →
    (c.started.toNat + cTimeout c.desc * 1000000 ≤ now s →
      ∃ t, exec (.collTimeout k) s = .next t ∧ (t.getPort k).collNow = none ∧ (t.getPort k).collCode = 6 ∧
        .collEnd c.part (BitVec.ofNat 16 (cId c.desc)) 6 ∈ t.tx ∧ t.syncs = s.syncs) ∧
    (now s < c.started.toNat + cTimeout c.desc * 1000000 → exec (.collTimeout k) s = .next s) ∧
    (∀ (port : Port) (pkt : Pkt), pkt.op = 7 → pkt.arg = 2 → collEngine s (pkt.aux.toNat % 2 ^ 16) = some k.val →
      ∃ t, exec (.collCancel port pkt) s = .next t ∧ (t.getPort k).collNow = none ∧ (t.getPort k).collCode = 7 ∧
        .collEnd c.part (BitVec.ofNat 16 (cId c.desc)) 7 ∈ t.tx ∧ t.syncs = s.syncs))

/-- R388, R389, R409, R415 and R420: authenticated commands. Before CONFIG has loaded the keys a command is refused busy; one that fails a check is refused and counted; a good one is performed and
its counter kept: a register read or write of the management core, an abort, a reset that source 2 permits, or an attestation, one at
a time. -/
def Obligations.FabricCommands : Prop :=
  ∀ (cmd : List Byte) (s : State),
    let c := if cmdCode cmd = 1 then Instr.cmdRegRead cmd else if cmdCode cmd = 2 then .cmdRegWrite cmd else if cmdCode cmd = 3 then .cmdAbort cmd
      else if cmdCode cmd = 4 then .cmdReset cmd else .cmdAttest cmd
    let q := cmdPkt s cmd
    let u := takeCmd cmd s
    let a := keepCounter cmd u
    1 ≤ cmdCode cmd → cmdCode cmd ≤ 5 → skotrumHeld s = false →
    (s.net.keysIn = false → exec c s = .next (respNack q 3 u)) ∧
    (s.net.keysIn = true → cmdGood s cmd = false → exec c s = .next (respNack q 0x13 { u with net := { u.net with authFail := s.net.authFail + 1 } })) ∧
    (s.net.keysIn = true → cmdGood s cmd = true → tableFull s cmd = false →
      lastCounter a cmd = some (cmdField cmd 8 8) ∧
      (cmdCode cmd = 1 → ∀ win off, regPlace (cmdArg cmd 0 8) = some (win, off) →
        let v := regRead 1 win off (mgmtSelect win (cmdArg cmd 8 2) a)
        exec c s = .next (cmdReply cmd (leBytes 8 0 ++ leBytes 4 v.2.toNat) v.1)) ∧
      (cmdCode cmd = 2 → ∀ win off, regPlace (cmdArg cmd 0 8) = some (win, off) →
        exec c s = .next (cmdReply cmd (leBytes 8 0)
          (regWrite 1 win off (BitVec.ofNat 32 (cmdArg cmd 0xC 4)) false (mgmtSelect win (cmdArg cmd 8 2) a)))) ∧
      (cmdCode cmd = 3 → cmdArg cmd 0 4 % 4 = 3 → a.bru.ready = true → a.aborts.length < 8 →
        ∃ t b, exec c s = .next t ∧ t.aborts.getLast? = some b ∧ b.kind = .device ∧ b.asks.map (·.remote) = [some cmd]) ∧
      (cmdCode cmd = 4 → fabricResetOk a (cmdArg cmd 0 1) = true →
        exec c s = .next (startReset 2 (cmdArg cmd 0 1) 0 0 (cmdReply cmd (leBytes 8 0) a))) ∧
      (cmdCode cmd = 5 → a.bru.ready = true → attesting a = false → a.bru.signing = none →
        exec c s = .next { a with bru := { a.bru with signing := some (false, BitVec.ofNat 256 (cmdArg cmd 0 32), cmd) } }) ∧
      (cmdCode cmd = 5 → (a.bru.ready = false ∨ attesting a = true) → exec c s = .next (respNack q 3 a)))

/-! ### Rules over the whole block -/

/-- R311: a take from an empty queue returns the last word that any take returned from it, or 64 bytes of 0 where none has been since the
queue's reset; it sets UNDERRUN and removes nothing. EMPTY is 1 exactly while WORDS is 0. -/
def Obligations.EmptyQueueTake : Prop :=
  (∀ (who : Agent) (q : Que) (s : State), inReset s (queOwner s q) = false → isConsumer s who q = true → (s.getQue q).words = [] →
    let x := s.getQue q
    let w := lineBytes (if x.lastWord = [] then zeroLine else x.lastWord)
    ∃ t, exec (.queueTake who q) s = .next t ∧ t = { s with queues := t.queues, tx := t.tx } ∧
      t.tx = (if who = .host ∧ x.lastPoison = true then .poisonedRead w else .data who w) :: s.tx ∧
      t.getQue q = { x with underrun := true, underruns := x.underruns + 1 } ∧ ∀ k, k ≠ q.val → t.getQue k = s.getQue k) ∧
  (∀ (who : Agent) (q : Que) (w : QWord) (r : List QWord) (s : State), inReset s (queOwner s q) = false → isConsumer s who q = true →
    (s.getQue q).words = w :: r → ∀ u d bad, wordRead (s.getQue q) w s = (u, d, bad) →
    ∃ t, exec (.queueTake who q) s = .next t ∧ (t.getQue q).lastWord = d ∧
      t.tx = (if who = .host ∧ bad = true then .poisonedRead (lineBytes d) else .data who (lineBytes d)) :: u.tx) ∧
  (∀ q : Nat, (State.reset.getQue q).lastWord = []) ∧ (∀ x : Queue, (queReset x).lastWord = []) ∧ lineBytes zeroLine = List.replicate 64 0 ∧
  (∀ x : Queue, x.words.length < 65536 → headLeft x < 256 →
    (getBit (qstate x) 24 = true ↔ x.words.length = 0) ∧ (qstate x).toNat % 65536 = x.words.length)

/-- R419: the fuse entry of each reset source. Bits 2 to 0 are its DEFAULT, a level up to 4 or none, and bit 3 + n permits level n; the entries
at reset are those of Table 14.2; no step changes them. -/
def Obligations.ResetFusesNeverChange : Prop :=
  (∀ (s t : State), step s = .next t → t.fuses.rstEntry = s.fuses.rstEntry) ∧
  (∀ (s : State) (src lvl : Nat), permits s src lvl = bit (s.fuses.rstEntry.getD src 0).toNat (3 + lvl)) ∧
  (∀ (s : State) (src : Nat), resetOverride s src = none →
    sourceLevel s src = (if (s.fuses.rstEntry.getD src 0).toNat % 8 ≤ 4 then some ((s.fuses.rstEntry.getD src 0).toNat % 8) else none)) ∧
  ((List.range 8).map (fun k => (sourceLevel State.reset k, (List.range 5).filter fun n => permits State.reset k n)) =
    [(some 3, [3, 4]), (none, [0, 1, 2, 3, 4]), (none, [3, 4]), (some 2, [2, 3]), (some 3, [3, 4]), (some 1, [1, 2, 3]), (some 4, [4]), (none, [])])

/-- Every step keeps the canonical form of the three memories: addresses rise, and no listed byte equals what an unlisted one reads as. -/
def Obligations.MemoryFormKept : Prop :=
  ∀ (s t : State), s.memWf = true → step s = .next t → t.memWf = true

/-- The reset state: nothing waits, bring-up stands at its first stage and READY is 0, no memory lists anything and its form is canonical, device time is 0,
no group is resident, no queue holds a word, and every partition is held with an empty task table (held at reset is the model's choice, log 9). -/
def Obligations.ResetState : Prop :=
  State.reset.memWf = true ∧ State.reset.pending = [] ∧ State.reset.loess = [] ∧ State.reset.marl = [] ∧ State.reset.board.flash = [] ∧
  State.reset.skt.time = 0 ∧ State.reset.bru.stage = 0 ∧ State.reset.bru.ready = false ∧ State.reset.groups = [] ∧ State.reset.queues = [] ∧
  ∀ p : Tower, (State.reset.getPart p).held = true ∧ (State.reset.getPart p).tasks = []

/-- No command stops the block: the spec gives every command of its table an effect, and one whose occasion is not given leaves the block as
it is (the model's reading, log 3). -/
def Obligations.EveryCommandCompletes : Prop :=
  ∀ (c : Instr) (s : State), ∃ t, exec c s = .next t
end

