-- ==== Sys2Proof/Laws/Table.lean ====
section
/-! SUPPORT. Sparse tables: what a read gives after a write, that writes keep the canonical form, and that equal
readings of canonical tables are equal data. Folds: what every step keeps, the fold keeps. -/

namespace Sys2Proof.Laws
open Sys2Proof Sys2Proof.Machine

/-! ### Reads after writes -/

@[simp] theorem get_nil {α : Type} (d : α) (k : Nat) : Tbl.get d [] k = d := rfl

theorem get_ins {α : Type} (d : α) (k : Nat) (v : α) (t : Tbl α) (j : Nat) :
    Tbl.get d (Tbl.ins k v t) j = if j = k then v else Tbl.get d t j := by
  induction t with
  | nil => simp [Tbl.ins, Tbl.get, eq_comm]
  | cons e t ih =>
    obtain ⟨a, w⟩ := e
    simp only [Tbl.ins]
    split
    · simp only [Tbl.get, ih]; grind
    · split <;> simp only [Tbl.get] <;> grind

theorem get_del {α : Type} (d : α) (k : Nat) (t : Tbl α) (j : Nat) :
    Tbl.get d (Tbl.del k t) j = if j = k then d else Tbl.get d t j := by
  induction t with
  | nil => simp [Tbl.del, Tbl.get]
  | cons e t ih =>
    obtain ⟨a, w⟩ := e
    simp only [Tbl.del]
    split
    · simp only [Tbl.get, ih]; grind
    · simp only [Tbl.get, ih]; grind

/-- A read after a write. -/
theorem get_put {α : Type} [DecidableEq α] (d : α) (t : Tbl α) (k : Nat) (v : α) (j : Nat) :
    Tbl.get d (Tbl.put d t k v) j = if j = k then v else Tbl.get d t j := by
  unfold Tbl.put
  split
  · subst_vars; rw [get_del]
  · rw [get_ins]

@[simp] theorem get_put_self {α : Type} [DecidableEq α] (d : α) (t : Tbl α) (k : Nat) (v : α) :
    Tbl.get d (Tbl.put d t k v) k = v := by simp [get_put]

theorem get_put_ne {α : Type} [DecidableEq α] (d : α) (t : Tbl α) {j k : Nat} (v : α) (h : j ≠ k) :
    Tbl.get d (Tbl.put d t k v) j = Tbl.get d t j := by simp [get_put, h]

@[simp] theorem get_mod_self {α : Type} [DecidableEq α] (d : α) (t : Tbl α) (k : Nat) (f : α → α) :
    Tbl.get d (Tbl.mod d t k f) k = f (Tbl.get d t k) := by simp [Tbl.mod]

theorem get_mod_ne {α : Type} [DecidableEq α] (d : α) (t : Tbl α) {j k : Nat} (f : α → α) (h : j ≠ k) :
    Tbl.get d (Tbl.mod d t k f) j = Tbl.get d t j := by simp [Tbl.mod, get_put, h]

/-- A read elsewhere does not depend on the default the written key has. -/
theorem get_mod_ne' {α : Type} [DecidableEq α] (d d' : α) (t : Tbl α) {j k : Nat} (f : α → α) (h : j ≠ k) :
    Tbl.get d (Tbl.mod d' t k f) j = Tbl.get d t j := by
  unfold Tbl.mod Tbl.put
  split
  · rw [get_del, if_neg h]
  · rw [get_ins, if_neg h]

/-- A byte read after a write of bytes. -/
theorem get_putBytes (d : Byte) (m : Tbl Byte) (a : Nat) (bs : List Byte) (x : Nat) :
    Tbl.get d (putBytes d m a bs) x = if a ≤ x ∧ x < a + bs.length then bs.getD (x - a) d else Tbl.get d m x := by
  induction bs generalizing m a with
  | nil =>
    have : ¬(a ≤ x ∧ x < a + 0) := by omega
    simp only [putBytes, List.length_nil, if_neg this]
  | cons b bs ih =>
    simp only [putBytes, ih, get_put, List.length_cons]
    by_cases h : x = a
    · subst h
      have : ¬(x + 1 ≤ x ∧ x < x + 1 + bs.length) := by omega
      simp only [if_neg this]
      simp
    · by_cases h2 : a + 1 ≤ x ∧ x < a + 1 + bs.length
      · have h3 : a ≤ x ∧ x < a + (bs.length + 1) := by omega
        have h4 : x - a = (x - (a + 1)) + 1 := by omega
        simp [h2, h3, h4]
      · have h3 : ¬(a ≤ x ∧ x < a + (bs.length + 1)) := by omega
        rw [if_neg h2, if_neg h3, if_neg h]

@[simp] theorem getBytes_length (d : Byte) (m : Tbl Byte) (a n : Nat) : (getBytes d m a n).length = n := by simp [getBytes]

/-! ### The canonical form -/

theorem wfFrom_weaken {α : Type} [DecidableEq α] (d : α) {m n : Nat} (t : Tbl α) (h : m ≤ n) (ht : Tbl.wfFrom d n t = true) :
    Tbl.wfFrom d m t = true := by
  cases t with
  | nil => rfl
  | cons e t =>
    obtain ⟨a, v⟩ := e
    simp [Tbl.wfFrom] at ht ⊢
    exact ⟨⟨by omega, ht.1.2⟩, ht.2⟩

theorem wfFrom_ins {α : Type} [DecidableEq α] (d : α) (k : Nat) (v : α) (hv : v ≠ d) (t : Tbl α) (n : Nat) (hn : n ≤ k)
    (ht : Tbl.wfFrom d n t = true) : Tbl.wfFrom d n (Tbl.ins k v t) = true := by
  induction t generalizing n with
  | nil => simp [Tbl.ins, Tbl.wfFrom, hn, hv]
  | cons e t ih =>
    obtain ⟨a, w⟩ := e
    simp [Tbl.wfFrom] at ht
    simp only [Tbl.ins]
    split
    · rename_i h
      simp [Tbl.wfFrom, ht.1]
      exact ih (a + 1) (by omega) ht.2
    · split
      · rename_i h1 h2
        subst h2
        simp [Tbl.wfFrom, hn, hv, ht.2]
      · rename_i h1 h2
        simp [Tbl.wfFrom, hn, hv, ht.1.2, ht.2]
        omega

theorem wfFrom_del {α : Type} [DecidableEq α] (d : α) (k : Nat) (t : Tbl α) (n : Nat) (ht : Tbl.wfFrom d n t = true) :
    Tbl.wfFrom d n (Tbl.del k t) = true := by
  induction t generalizing n with
  | nil => rfl
  | cons e t ih =>
    obtain ⟨a, w⟩ := e
    simp [Tbl.wfFrom] at ht
    simp only [Tbl.del]
    split
    · exact wfFrom_weaken d _ (by omega) (ih (a + 1) ht.2)
    · simp [Tbl.wfFrom, ht.1, ih (a + 1) ht.2]

theorem wfFrom_filter {α : Type} [DecidableEq α] (d : α) (p : Nat × α → Bool) (t : Tbl α) (n : Nat) (ht : Tbl.wfFrom d n t = true) :
    Tbl.wfFrom d n (t.filter p) = true := by
  induction t generalizing n with
  | nil => rfl
  | cons e t ih =>
    obtain ⟨a, w⟩ := e
    simp [Tbl.wfFrom] at ht
    simp only [List.filter_cons]
    split
    · simp [Tbl.wfFrom, ht.1, ih (a + 1) ht.2]
    · exact wfFrom_weaken d _ (by omega) (ih (a + 1) ht.2)

@[simp] theorem wf_nil {α : Type} [DecidableEq α] (d : α) : Tbl.wf d ([] : Tbl α) = true := rfl

theorem wf_put {α : Type} [DecidableEq α] (d : α) (t : Tbl α) (k : Nat) (v : α) (h : Tbl.wf d t = true) :
    Tbl.wf d (Tbl.put d t k v) = true := by
  unfold Tbl.put Tbl.wf
  split
  · exact wfFrom_del d k t 0 h
  · rename_i hv; exact wfFrom_ins d k v hv t 0 (Nat.zero_le k) h

theorem wf_mod {α : Type} [DecidableEq α] (d : α) (t : Tbl α) (k : Nat) (f : α → α) (h : Tbl.wf d t = true) :
    Tbl.wf d (Tbl.mod d t k f) = true := wf_put d t k _ h

theorem wf_filter {α : Type} [DecidableEq α] (d : α) (p : Nat × α → Bool) (t : Tbl α) (h : Tbl.wf d t = true) :
    Tbl.wf d (t.filter p) = true := wfFrom_filter d p t 0 h

theorem wf_putBytes (d : Byte) (m : Tbl Byte) (a : Nat) (bs : List Byte) (h : Tbl.wf d m = true) :
    Tbl.wf d (putBytes d m a bs) = true := by
  induction bs generalizing m a with
  | nil => exact h
  | cons b bs ih => exact ih _ _ (wf_put d m a b h)

theorem get_below {α : Type} [DecidableEq α] (d : α) (n : Nat) (t : Tbl α) (h : Tbl.wfFrom d n t = true) (k : Nat) (hk : k < n) :
    Tbl.get d t k = d := by
  induction t generalizing n with
  | nil => rfl
  | cons e t ih =>
    obtain ⟨a, w⟩ := e
    simp [Tbl.wfFrom] at h
    simp only [Tbl.get, if_neg (by omega : ¬a = k)]
    exact ih (a + 1) h.2 (by omega)

/-- Canonical tables that read alike are equal. -/
theorem wf_ext {α : Type} [DecidableEq α] (d : α) (s t : Tbl α) (hs : Tbl.wf d s = true) (ht : Tbl.wf d t = true)
    (h : ∀ k, Tbl.get d s k = Tbl.get d t k) : s = t := by
  suffices H : ∀ n, Tbl.wfFrom d n s = true → Tbl.wfFrom d n t = true → (∀ k, Tbl.get d s k = Tbl.get d t k) → s = t from H 0 hs ht h
  clear hs ht h
  induction s generalizing t with
  | nil =>
    intro n hs ht h
    cases t with
    | nil => rfl
    | cons e t =>
      obtain ⟨a, w⟩ := e
      simp [Tbl.wfFrom] at ht
      have := h a
      simp [Tbl.get] at this
      exact absurd this.symm ht.1.2
  | cons e s ih =>
    obtain ⟨a, v⟩ := e
    intro n hs ht h
    cases t with
    | nil =>
      simp [Tbl.wfFrom] at hs
      have := h a
      simp [Tbl.get] at this
      exact absurd this hs.1.2
    | cons e' t =>
      obtain ⟨b, w⟩ := e'
      simp [Tbl.wfFrom] at hs ht
      have hab : a = b := by
        rcases Nat.lt_trichotomy a b with hlt | heq | hgt
        · have h1 := h a
          simp only [Tbl.get, if_true, if_neg (by omega : ¬b = a)] at h1
          rw [get_below d (b + 1) t ht.2 a (by omega)] at h1
          exact absurd h1 hs.1.2
        · exact heq
        · have h1 := h b
          simp only [Tbl.get, if_true, if_neg (by omega : ¬a = b)] at h1
          rw [get_below d (a + 1) s hs.2 b (by omega)] at h1
          exact absurd h1.symm ht.1.2
      subst hab
      have hvw : v = w := by have := h a; simpa [Tbl.get] using this
      subst hvw
      congr 1
      refine ih t (a + 1) hs.2 ht.2 fun k => ?_
      by_cases hk : k < a + 1
      · rw [get_below d (a + 1) s hs.2 k hk, get_below d (a + 1) t ht.2 k hk]
      · have h1 := h k
        have h2 : ¬a = k := by omega
        simpa only [Tbl.get, if_neg h2] using h1

/-! ### Folds -/

theorem foldl_keeps {σ α : Type} (P : σ → Prop) (f : σ → α → σ) (l : List α) (s : σ) (hf : ∀ s a, P s → P (f s a)) (h : P s) :
    P (l.foldl f s) := by
  induction l generalizing s with
  | nil => exact h
  | cons a l ih => exact ih _ (hf s a h)

theorem forN_keeps {σ : Type} (P : σ → Prop) (n : Nat) (f : Nat → σ → σ) (s : σ) (hf : ∀ i s, P s → P (f i s)) (h : P s) :
    P (forN n f s) := foldl_keeps P (fun s i => f i s) _ s (fun s i => hf i s) h

theorem forL_keeps {σ α : Type} (P : σ → Prop) (l : List α) (f : α → σ → σ) (s : σ) (hf : ∀ a s, P s → P (f a s)) (h : P s) :
    P (forL l f s) := foldl_keeps P (fun s a => f a s) _ s (fun s a => hf a s) h

end Sys2Proof.Laws
end

