-- ==== Sys2Proof/Laws/State.lean ====
section
/-! SUPPORT. The fields of the state after each update of one unit's record, and each unit's record after each update: a
field or a record of another kind stands, a record of the same kind changes at its own number only. -/

namespace Sys2Proof.Laws
open Sys2Proof Sys2Proof.Machine

/-! #### `modAry` -/

@[simp] theorem getAry_modAry_self (s : State) (i : Nat) (f : Array → Array) : (s.modAry i f).getAry i = f (s.getAry i) := get_mod_self _ _ _ _
theorem getAry_modAry_ne (s : State) {i j : Nat} (f : Array → Array) (h : j ≠ i) : (s.modAry i f).getAry j = s.getAry j := get_mod_ne _ _ _ h
@[simp] theorem modAry_skt (s : State) (i : Nat) (f : Array → Array) : (s.modAry i f).skt = s.skt := rfl
@[simp] theorem modAry_sel (s : State) (i : Nat) (f : Array → Array) : (s.modAry i f).sel = s.sel := rfl
@[simp] theorem modAry_synLatch (s : State) (i : Nat) (f : Array → Array) : (s.modAry i f).synLatch = s.synLatch := rfl
@[simp] theorem modAry_winTok (s : State) (i : Nat) (f : Array → Array) : (s.modAry i f).winTok = s.winTok := rfl
@[simp] theorem modAry_hst (s : State) (i : Nat) (f : Array → Array) : (s.modAry i f).hst = s.hst := rfl
@[simp] theorem modAry_pcie (s : State) (i : Nat) (f : Array → Array) : (s.modAry i f).pcie = s.pcie := rfl
@[simp] theorem modAry_fuses (s : State) (i : Nat) (f : Array → Array) : (s.modAry i f).fuses = s.fuses := rfl
@[simp] theorem modAry_groups (s : State) (i : Nat) (f : Array → Array) : (s.modAry i f).groups = s.groups := rfl
@[simp] theorem modAry_sites (s : State) (i : Nat) (f : Array → Array) : (s.modAry i f).sites = s.sites := rfl
@[simp] theorem modAry_dmas (s : State) (i : Nat) (f : Array → Array) : (s.modAry i f).dmas = s.dmas := rfl
@[simp] theorem modAry_slices (s : State) (i : Nat) (f : Array → Array) : (s.modAry i f).slices = s.slices := rfl
@[simp] theorem modAry_lss (s : State) (i : Nat) (f : Array → Array) : (s.modAry i f).lss = s.lss := rfl
@[simp] theorem modAry_loess (s : State) (i : Nat) (f : Array → Array) : (s.modAry i f).loess = s.loess := rfl
@[simp] theorem modAry_loessBad (s : State) (i : Nat) (f : Array → Array) : (s.modAry i f).loessBad = s.loessBad := rfl
@[simp] theorem modAry_seams (s : State) (i : Nat) (f : Array → Array) : (s.modAry i f).seams = s.seams := rfl
@[simp] theorem modAry_routers (s : State) (i : Nat) (f : Array → Array) : (s.modAry i f).routers = s.routers := rfl
@[simp] theorem modAry_mchans (s : State) (i : Nat) (f : Array → Array) : (s.modAry i f).mchans = s.mchans := rfl
@[simp] theorem modAry_mrl (s : State) (i : Nat) (f : Array → Array) : (s.modAry i f).mrl = s.mrl := rfl
@[simp] theorem modAry_marl (s : State) (i : Nat) (f : Array → Array) : (s.modAry i f).marl = s.marl := rfl
@[simp] theorem modAry_marlBad (s : State) (i : Nat) (f : Array → Array) : (s.modAry i f).marlBad = s.marlBad := rfl
@[simp] theorem modAry_ctxs (s : State) (i : Nat) (f : Array → Array) : (s.modAry i f).ctxs = s.ctxs := rfl
@[simp] theorem modAry_xreqs (s : State) (i : Nat) (f : Array → Array) : (s.modAry i f).xreqs = s.xreqs := rfl
@[simp] theorem modAry_aborts (s : State) (i : Nat) (f : Array → Array) : (s.modAry i f).aborts = s.aborts := rfl
@[simp] theorem modAry_parts (s : State) (i : Nat) (f : Array → Array) : (s.modAry i f).parts = s.parts := rfl
@[simp] theorem modAry_svc (s : State) (i : Nat) (f : Array → Array) : (s.modAry i f).svc = s.svc := rfl
@[simp] theorem modAry_queues (s : State) (i : Nat) (f : Array → Array) : (s.modAry i f).queues = s.queues := rfl
@[simp] theorem modAry_syncs (s : State) (i : Nat) (f : Array → Array) : (s.modAry i f).syncs = s.syncs := rfl
@[simp] theorem modAry_bundles (s : State) (i : Nat) (f : Array → Array) : (s.modAry i f).bundles = s.bundles := rfl
@[simp] theorem modAry_coldSweep (s : State) (i : Nat) (f : Array → Array) : (s.modAry i f).coldSweep = s.coldSweep := rfl
@[simp] theorem modAry_bgroups (s : State) (i : Nat) (f : Array → Array) : (s.modAry i f).bgroups = s.bgroups := rfl
@[simp] theorem modAry_govs (s : State) (i : Nat) (f : Array → Array) : (s.modAry i f).govs = s.govs := rfl
@[simp] theorem modAry_probes (s : State) (i : Nat) (f : Array → Array) : (s.modAry i f).probes = s.probes := rfl
@[simp] theorem modAry_vmons (s : State) (i : Nat) (f : Array → Array) : (s.modAry i f).vmons = s.vmons := rfl
@[simp] theorem modAry_pwr (s : State) (i : Nat) (f : Array → Array) : (s.modAry i f).pwr = s.pwr := rfl
@[simp] theorem modAry_sens (s : State) (i : Nat) (f : Array → Array) : (s.modAry i f).sens = s.sens := rfl
@[simp] theorem modAry_thm (s : State) (i : Nat) (f : Array → Array) : (s.modAry i f).thm = s.thm := rfl
@[simp] theorem modAry_ports (s : State) (i : Nat) (f : Array → Array) : (s.modAry i f).ports = s.ports := rfl
@[simp] theorem modAry_lanes (s : State) (i : Nat) (f : Array → Array) : (s.modAry i f).lanes = s.lanes := rfl
@[simp] theorem modAry_net (s : State) (i : Nat) (f : Array → Array) : (s.modAry i f).net = s.net := rfl
@[simp] theorem modAry_bru (s : State) (i : Nat) (f : Array → Array) : (s.modAry i f).bru = s.bru := rfl
@[simp] theorem modAry_rst (s : State) (i : Nat) (f : Array → Array) : (s.modAry i f).rst = s.rst := rfl
@[simp] theorem modAry_board (s : State) (i : Nat) (f : Array → Array) : (s.modAry i f).board = s.board := rfl
@[simp] theorem modAry_tick (s : State) (i : Nat) (f : Array → Array) : (s.modAry i f).tick = s.tick := rfl
@[simp] theorem modAry_tx (s : State) (i : Nat) (f : Array → Array) : (s.modAry i f).tx = s.tx := rfl
@[simp] theorem modAry_pending (s : State) (i : Nat) (f : Array → Array) : (s.modAry i f).pending = s.pending := rfl
@[simp] theorem getGrp_modAry (s : State) (i j : Nat) (f : Array → Array) : (s.modAry i f).getGrp j = s.getGrp j := rfl
@[simp] theorem getSite_modAry (s : State) (i j : Nat) (f : Array → Array) : (s.modAry i f).getSite j = s.getSite j := rfl
@[simp] theorem getDma_modAry (s : State) (i j : Nat) (f : Array → Array) : (s.modAry i f).getDma j = s.getDma j := rfl
@[simp] theorem getSlc_modAry (s : State) (i j : Nat) (f : Array → Array) : (s.modAry i f).getSlc j = s.getSlc j := rfl
@[simp] theorem getMCh_modAry (s : State) (i j : Nat) (f : Array → Array) : (s.modAry i f).getMCh j = s.getMCh j := rfl
@[simp] theorem getCtx_modAry (s : State) (i j : Nat) (f : Array → Array) : (s.modAry i f).getCtx j = s.getCtx j := rfl
@[simp] theorem getXrq_modAry (s : State) (i j : Nat) (f : Array → Array) : (s.modAry i f).getXrq j = s.getXrq j := rfl
@[simp] theorem getPart_modAry (s : State) (i j : Nat) (f : Array → Array) : (s.modAry i f).getPart j = s.getPart j := rfl
@[simp] theorem getQue_modAry (s : State) (i j : Nat) (f : Array → Array) : (s.modAry i f).getQue j = s.getQue j := rfl
@[simp] theorem getSyn_modAry (s : State) (i j : Nat) (f : Array → Array) : (s.modAry i f).getSyn j = s.getSyn j := rfl
@[simp] theorem getBun_modAry (s : State) (i j : Nat) (f : Array → Array) : (s.modAry i f).getBun j = s.getBun j := rfl
@[simp] theorem getBgr_modAry (s : State) (i j : Nat) (f : Array → Array) : (s.modAry i f).getBgr j = s.getBgr j := rfl
@[simp] theorem getGov_modAry (s : State) (i j : Nat) (f : Array → Array) : (s.modAry i f).getGov j = s.getGov j := rfl
@[simp] theorem getPrb_modAry (s : State) (i j : Nat) (f : Array → Array) : (s.modAry i f).getPrb j = s.getPrb j := rfl
@[simp] theorem getVmn_modAry (s : State) (i j : Nat) (f : Array → Array) : (s.modAry i f).getVmn j = s.getVmn j := rfl
@[simp] theorem getSen_modAry (s : State) (i j : Nat) (f : Array → Array) : (s.modAry i f).getSen j = s.getSen j := rfl
@[simp] theorem getPort_modAry (s : State) (i j : Nat) (f : Array → Array) : (s.modAry i f).getPort j = s.getPort j := rfl
@[simp] theorem getLane_modAry (s : State) (i j : Nat) (f : Array → Array) : (s.modAry i f).getLane j = s.getLane j := rfl
@[simp] theorem memWf_modAry (s : State) (i : Nat) (f : Array → Array) : (s.modAry i f).memWf = s.memWf := rfl

/-! #### `modGrp` -/

@[simp] theorem getGrp_modGrp_self (s : State) (i : Nat) (f : Group → Group) : (s.modGrp i f).getGrp i = f (s.getGrp i) := get_mod_self _ _ _ _
theorem getGrp_modGrp_ne (s : State) {i j : Nat} (f : Group → Group) (h : j ≠ i) : (s.modGrp i f).getGrp j = s.getGrp j := get_mod_ne _ _ _ h
@[simp] theorem modGrp_skt (s : State) (i : Nat) (f : Group → Group) : (s.modGrp i f).skt = s.skt := rfl
@[simp] theorem modGrp_sel (s : State) (i : Nat) (f : Group → Group) : (s.modGrp i f).sel = s.sel := rfl
@[simp] theorem modGrp_synLatch (s : State) (i : Nat) (f : Group → Group) : (s.modGrp i f).synLatch = s.synLatch := rfl
@[simp] theorem modGrp_winTok (s : State) (i : Nat) (f : Group → Group) : (s.modGrp i f).winTok = s.winTok := rfl
@[simp] theorem modGrp_hst (s : State) (i : Nat) (f : Group → Group) : (s.modGrp i f).hst = s.hst := rfl
@[simp] theorem modGrp_pcie (s : State) (i : Nat) (f : Group → Group) : (s.modGrp i f).pcie = s.pcie := rfl
@[simp] theorem modGrp_fuses (s : State) (i : Nat) (f : Group → Group) : (s.modGrp i f).fuses = s.fuses := rfl
@[simp] theorem modGrp_arys (s : State) (i : Nat) (f : Group → Group) : (s.modGrp i f).arys = s.arys := rfl
@[simp] theorem modGrp_sites (s : State) (i : Nat) (f : Group → Group) : (s.modGrp i f).sites = s.sites := rfl
@[simp] theorem modGrp_dmas (s : State) (i : Nat) (f : Group → Group) : (s.modGrp i f).dmas = s.dmas := rfl
@[simp] theorem modGrp_slices (s : State) (i : Nat) (f : Group → Group) : (s.modGrp i f).slices = s.slices := rfl
@[simp] theorem modGrp_lss (s : State) (i : Nat) (f : Group → Group) : (s.modGrp i f).lss = s.lss := rfl
@[simp] theorem modGrp_loess (s : State) (i : Nat) (f : Group → Group) : (s.modGrp i f).loess = s.loess := rfl
@[simp] theorem modGrp_loessBad (s : State) (i : Nat) (f : Group → Group) : (s.modGrp i f).loessBad = s.loessBad := rfl
@[simp] theorem modGrp_seams (s : State) (i : Nat) (f : Group → Group) : (s.modGrp i f).seams = s.seams := rfl
@[simp] theorem modGrp_routers (s : State) (i : Nat) (f : Group → Group) : (s.modGrp i f).routers = s.routers := rfl
@[simp] theorem modGrp_mchans (s : State) (i : Nat) (f : Group → Group) : (s.modGrp i f).mchans = s.mchans := rfl
@[simp] theorem modGrp_mrl (s : State) (i : Nat) (f : Group → Group) : (s.modGrp i f).mrl = s.mrl := rfl
@[simp] theorem modGrp_marl (s : State) (i : Nat) (f : Group → Group) : (s.modGrp i f).marl = s.marl := rfl
@[simp] theorem modGrp_marlBad (s : State) (i : Nat) (f : Group → Group) : (s.modGrp i f).marlBad = s.marlBad := rfl
@[simp] theorem modGrp_ctxs (s : State) (i : Nat) (f : Group → Group) : (s.modGrp i f).ctxs = s.ctxs := rfl
@[simp] theorem modGrp_xreqs (s : State) (i : Nat) (f : Group → Group) : (s.modGrp i f).xreqs = s.xreqs := rfl
@[simp] theorem modGrp_aborts (s : State) (i : Nat) (f : Group → Group) : (s.modGrp i f).aborts = s.aborts := rfl
@[simp] theorem modGrp_parts (s : State) (i : Nat) (f : Group → Group) : (s.modGrp i f).parts = s.parts := rfl
@[simp] theorem modGrp_svc (s : State) (i : Nat) (f : Group → Group) : (s.modGrp i f).svc = s.svc := rfl
@[simp] theorem modGrp_queues (s : State) (i : Nat) (f : Group → Group) : (s.modGrp i f).queues = s.queues := rfl
@[simp] theorem modGrp_syncs (s : State) (i : Nat) (f : Group → Group) : (s.modGrp i f).syncs = s.syncs := rfl
@[simp] theorem modGrp_bundles (s : State) (i : Nat) (f : Group → Group) : (s.modGrp i f).bundles = s.bundles := rfl
@[simp] theorem modGrp_coldSweep (s : State) (i : Nat) (f : Group → Group) : (s.modGrp i f).coldSweep = s.coldSweep := rfl
@[simp] theorem modGrp_bgroups (s : State) (i : Nat) (f : Group → Group) : (s.modGrp i f).bgroups = s.bgroups := rfl
@[simp] theorem modGrp_govs (s : State) (i : Nat) (f : Group → Group) : (s.modGrp i f).govs = s.govs := rfl
@[simp] theorem modGrp_probes (s : State) (i : Nat) (f : Group → Group) : (s.modGrp i f).probes = s.probes := rfl
@[simp] theorem modGrp_vmons (s : State) (i : Nat) (f : Group → Group) : (s.modGrp i f).vmons = s.vmons := rfl
@[simp] theorem modGrp_pwr (s : State) (i : Nat) (f : Group → Group) : (s.modGrp i f).pwr = s.pwr := rfl
@[simp] theorem modGrp_sens (s : State) (i : Nat) (f : Group → Group) : (s.modGrp i f).sens = s.sens := rfl
@[simp] theorem modGrp_thm (s : State) (i : Nat) (f : Group → Group) : (s.modGrp i f).thm = s.thm := rfl
@[simp] theorem modGrp_ports (s : State) (i : Nat) (f : Group → Group) : (s.modGrp i f).ports = s.ports := rfl
@[simp] theorem modGrp_lanes (s : State) (i : Nat) (f : Group → Group) : (s.modGrp i f).lanes = s.lanes := rfl
@[simp] theorem modGrp_net (s : State) (i : Nat) (f : Group → Group) : (s.modGrp i f).net = s.net := rfl
@[simp] theorem modGrp_bru (s : State) (i : Nat) (f : Group → Group) : (s.modGrp i f).bru = s.bru := rfl
@[simp] theorem modGrp_rst (s : State) (i : Nat) (f : Group → Group) : (s.modGrp i f).rst = s.rst := rfl
@[simp] theorem modGrp_board (s : State) (i : Nat) (f : Group → Group) : (s.modGrp i f).board = s.board := rfl
@[simp] theorem modGrp_tick (s : State) (i : Nat) (f : Group → Group) : (s.modGrp i f).tick = s.tick := rfl
@[simp] theorem modGrp_tx (s : State) (i : Nat) (f : Group → Group) : (s.modGrp i f).tx = s.tx := rfl
@[simp] theorem modGrp_pending (s : State) (i : Nat) (f : Group → Group) : (s.modGrp i f).pending = s.pending := rfl
@[simp] theorem getAry_modGrp (s : State) (i j : Nat) (f : Group → Group) : (s.modGrp i f).getAry j = s.getAry j := rfl
@[simp] theorem getSite_modGrp (s : State) (i j : Nat) (f : Group → Group) : (s.modGrp i f).getSite j = s.getSite j := rfl
@[simp] theorem getDma_modGrp (s : State) (i j : Nat) (f : Group → Group) : (s.modGrp i f).getDma j = s.getDma j := rfl
@[simp] theorem getSlc_modGrp (s : State) (i j : Nat) (f : Group → Group) : (s.modGrp i f).getSlc j = s.getSlc j := rfl
@[simp] theorem getMCh_modGrp (s : State) (i j : Nat) (f : Group → Group) : (s.modGrp i f).getMCh j = s.getMCh j := rfl
@[simp] theorem getCtx_modGrp (s : State) (i j : Nat) (f : Group → Group) : (s.modGrp i f).getCtx j = s.getCtx j := rfl
@[simp] theorem getXrq_modGrp (s : State) (i j : Nat) (f : Group → Group) : (s.modGrp i f).getXrq j = s.getXrq j := rfl
@[simp] theorem getPart_modGrp (s : State) (i j : Nat) (f : Group → Group) : (s.modGrp i f).getPart j = s.getPart j := rfl
@[simp] theorem getQue_modGrp (s : State) (i j : Nat) (f : Group → Group) : (s.modGrp i f).getQue j = s.getQue j := rfl
@[simp] theorem getSyn_modGrp (s : State) (i j : Nat) (f : Group → Group) : (s.modGrp i f).getSyn j = s.getSyn j := rfl
@[simp] theorem getBun_modGrp (s : State) (i j : Nat) (f : Group → Group) : (s.modGrp i f).getBun j = s.getBun j := rfl
@[simp] theorem getBgr_modGrp (s : State) (i j : Nat) (f : Group → Group) : (s.modGrp i f).getBgr j = s.getBgr j := rfl
@[simp] theorem getGov_modGrp (s : State) (i j : Nat) (f : Group → Group) : (s.modGrp i f).getGov j = s.getGov j := rfl
@[simp] theorem getPrb_modGrp (s : State) (i j : Nat) (f : Group → Group) : (s.modGrp i f).getPrb j = s.getPrb j := rfl
@[simp] theorem getVmn_modGrp (s : State) (i j : Nat) (f : Group → Group) : (s.modGrp i f).getVmn j = s.getVmn j := rfl
@[simp] theorem getSen_modGrp (s : State) (i j : Nat) (f : Group → Group) : (s.modGrp i f).getSen j = s.getSen j := rfl
@[simp] theorem getPort_modGrp (s : State) (i j : Nat) (f : Group → Group) : (s.modGrp i f).getPort j = s.getPort j := rfl
@[simp] theorem getLane_modGrp (s : State) (i j : Nat) (f : Group → Group) : (s.modGrp i f).getLane j = s.getLane j := rfl
@[simp] theorem memWf_modGrp (s : State) (i : Nat) (f : Group → Group) : (s.modGrp i f).memWf = s.memWf := rfl

/-! #### `modSite` -/

@[simp] theorem getSite_modSite_self (s : State) (i : Nat) (f : Site_ → Site_) : (s.modSite i f).getSite i = f (s.getSite i) := get_mod_self _ _ _ _
theorem getSite_modSite_ne (s : State) {i j : Nat} (f : Site_ → Site_) (h : j ≠ i) : (s.modSite i f).getSite j = s.getSite j := get_mod_ne _ _ _ h
@[simp] theorem modSite_skt (s : State) (i : Nat) (f : Site_ → Site_) : (s.modSite i f).skt = s.skt := rfl
@[simp] theorem modSite_sel (s : State) (i : Nat) (f : Site_ → Site_) : (s.modSite i f).sel = s.sel := rfl
@[simp] theorem modSite_synLatch (s : State) (i : Nat) (f : Site_ → Site_) : (s.modSite i f).synLatch = s.synLatch := rfl
@[simp] theorem modSite_winTok (s : State) (i : Nat) (f : Site_ → Site_) : (s.modSite i f).winTok = s.winTok := rfl
@[simp] theorem modSite_hst (s : State) (i : Nat) (f : Site_ → Site_) : (s.modSite i f).hst = s.hst := rfl
@[simp] theorem modSite_pcie (s : State) (i : Nat) (f : Site_ → Site_) : (s.modSite i f).pcie = s.pcie := rfl
@[simp] theorem modSite_fuses (s : State) (i : Nat) (f : Site_ → Site_) : (s.modSite i f).fuses = s.fuses := rfl
@[simp] theorem modSite_arys (s : State) (i : Nat) (f : Site_ → Site_) : (s.modSite i f).arys = s.arys := rfl
@[simp] theorem modSite_groups (s : State) (i : Nat) (f : Site_ → Site_) : (s.modSite i f).groups = s.groups := rfl
@[simp] theorem modSite_dmas (s : State) (i : Nat) (f : Site_ → Site_) : (s.modSite i f).dmas = s.dmas := rfl
@[simp] theorem modSite_slices (s : State) (i : Nat) (f : Site_ → Site_) : (s.modSite i f).slices = s.slices := rfl
@[simp] theorem modSite_lss (s : State) (i : Nat) (f : Site_ → Site_) : (s.modSite i f).lss = s.lss := rfl
@[simp] theorem modSite_loess (s : State) (i : Nat) (f : Site_ → Site_) : (s.modSite i f).loess = s.loess := rfl
@[simp] theorem modSite_loessBad (s : State) (i : Nat) (f : Site_ → Site_) : (s.modSite i f).loessBad = s.loessBad := rfl
@[simp] theorem modSite_seams (s : State) (i : Nat) (f : Site_ → Site_) : (s.modSite i f).seams = s.seams := rfl
@[simp] theorem modSite_routers (s : State) (i : Nat) (f : Site_ → Site_) : (s.modSite i f).routers = s.routers := rfl
@[simp] theorem modSite_mchans (s : State) (i : Nat) (f : Site_ → Site_) : (s.modSite i f).mchans = s.mchans := rfl
@[simp] theorem modSite_mrl (s : State) (i : Nat) (f : Site_ → Site_) : (s.modSite i f).mrl = s.mrl := rfl
@[simp] theorem modSite_marl (s : State) (i : Nat) (f : Site_ → Site_) : (s.modSite i f).marl = s.marl := rfl
@[simp] theorem modSite_marlBad (s : State) (i : Nat) (f : Site_ → Site_) : (s.modSite i f).marlBad = s.marlBad := rfl
@[simp] theorem modSite_ctxs (s : State) (i : Nat) (f : Site_ → Site_) : (s.modSite i f).ctxs = s.ctxs := rfl
@[simp] theorem modSite_xreqs (s : State) (i : Nat) (f : Site_ → Site_) : (s.modSite i f).xreqs = s.xreqs := rfl
@[simp] theorem modSite_aborts (s : State) (i : Nat) (f : Site_ → Site_) : (s.modSite i f).aborts = s.aborts := rfl
@[simp] theorem modSite_parts (s : State) (i : Nat) (f : Site_ → Site_) : (s.modSite i f).parts = s.parts := rfl
@[simp] theorem modSite_svc (s : State) (i : Nat) (f : Site_ → Site_) : (s.modSite i f).svc = s.svc := rfl
@[simp] theorem modSite_queues (s : State) (i : Nat) (f : Site_ → Site_) : (s.modSite i f).queues = s.queues := rfl
@[simp] theorem modSite_syncs (s : State) (i : Nat) (f : Site_ → Site_) : (s.modSite i f).syncs = s.syncs := rfl
@[simp] theorem modSite_bundles (s : State) (i : Nat) (f : Site_ → Site_) : (s.modSite i f).bundles = s.bundles := rfl
@[simp] theorem modSite_coldSweep (s : State) (i : Nat) (f : Site_ → Site_) : (s.modSite i f).coldSweep = s.coldSweep := rfl
@[simp] theorem modSite_bgroups (s : State) (i : Nat) (f : Site_ → Site_) : (s.modSite i f).bgroups = s.bgroups := rfl
@[simp] theorem modSite_govs (s : State) (i : Nat) (f : Site_ → Site_) : (s.modSite i f).govs = s.govs := rfl
@[simp] theorem modSite_probes (s : State) (i : Nat) (f : Site_ → Site_) : (s.modSite i f).probes = s.probes := rfl
@[simp] theorem modSite_vmons (s : State) (i : Nat) (f : Site_ → Site_) : (s.modSite i f).vmons = s.vmons := rfl
@[simp] theorem modSite_pwr (s : State) (i : Nat) (f : Site_ → Site_) : (s.modSite i f).pwr = s.pwr := rfl
@[simp] theorem modSite_sens (s : State) (i : Nat) (f : Site_ → Site_) : (s.modSite i f).sens = s.sens := rfl
@[simp] theorem modSite_thm (s : State) (i : Nat) (f : Site_ → Site_) : (s.modSite i f).thm = s.thm := rfl
@[simp] theorem modSite_ports (s : State) (i : Nat) (f : Site_ → Site_) : (s.modSite i f).ports = s.ports := rfl
@[simp] theorem modSite_lanes (s : State) (i : Nat) (f : Site_ → Site_) : (s.modSite i f).lanes = s.lanes := rfl
@[simp] theorem modSite_net (s : State) (i : Nat) (f : Site_ → Site_) : (s.modSite i f).net = s.net := rfl
@[simp] theorem modSite_bru (s : State) (i : Nat) (f : Site_ → Site_) : (s.modSite i f).bru = s.bru := rfl
@[simp] theorem modSite_rst (s : State) (i : Nat) (f : Site_ → Site_) : (s.modSite i f).rst = s.rst := rfl
@[simp] theorem modSite_board (s : State) (i : Nat) (f : Site_ → Site_) : (s.modSite i f).board = s.board := rfl
@[simp] theorem modSite_tick (s : State) (i : Nat) (f : Site_ → Site_) : (s.modSite i f).tick = s.tick := rfl
@[simp] theorem modSite_tx (s : State) (i : Nat) (f : Site_ → Site_) : (s.modSite i f).tx = s.tx := rfl
@[simp] theorem modSite_pending (s : State) (i : Nat) (f : Site_ → Site_) : (s.modSite i f).pending = s.pending := rfl
@[simp] theorem getAry_modSite (s : State) (i j : Nat) (f : Site_ → Site_) : (s.modSite i f).getAry j = s.getAry j := rfl
@[simp] theorem getGrp_modSite (s : State) (i j : Nat) (f : Site_ → Site_) : (s.modSite i f).getGrp j = s.getGrp j := rfl
@[simp] theorem getDma_modSite (s : State) (i j : Nat) (f : Site_ → Site_) : (s.modSite i f).getDma j = s.getDma j := rfl
@[simp] theorem getSlc_modSite (s : State) (i j : Nat) (f : Site_ → Site_) : (s.modSite i f).getSlc j = s.getSlc j := rfl
@[simp] theorem getMCh_modSite (s : State) (i j : Nat) (f : Site_ → Site_) : (s.modSite i f).getMCh j = s.getMCh j := rfl
@[simp] theorem getCtx_modSite (s : State) (i j : Nat) (f : Site_ → Site_) : (s.modSite i f).getCtx j = s.getCtx j := rfl
@[simp] theorem getXrq_modSite (s : State) (i j : Nat) (f : Site_ → Site_) : (s.modSite i f).getXrq j = s.getXrq j := rfl
@[simp] theorem getPart_modSite (s : State) (i j : Nat) (f : Site_ → Site_) : (s.modSite i f).getPart j = s.getPart j := rfl
@[simp] theorem getQue_modSite (s : State) (i j : Nat) (f : Site_ → Site_) : (s.modSite i f).getQue j = s.getQue j := rfl
@[simp] theorem getSyn_modSite (s : State) (i j : Nat) (f : Site_ → Site_) : (s.modSite i f).getSyn j = s.getSyn j := rfl
@[simp] theorem getBun_modSite (s : State) (i j : Nat) (f : Site_ → Site_) : (s.modSite i f).getBun j = s.getBun j := rfl
@[simp] theorem getBgr_modSite (s : State) (i j : Nat) (f : Site_ → Site_) : (s.modSite i f).getBgr j = s.getBgr j := rfl
@[simp] theorem getGov_modSite (s : State) (i j : Nat) (f : Site_ → Site_) : (s.modSite i f).getGov j = s.getGov j := rfl
@[simp] theorem getPrb_modSite (s : State) (i j : Nat) (f : Site_ → Site_) : (s.modSite i f).getPrb j = s.getPrb j := rfl
@[simp] theorem getVmn_modSite (s : State) (i j : Nat) (f : Site_ → Site_) : (s.modSite i f).getVmn j = s.getVmn j := rfl
@[simp] theorem getSen_modSite (s : State) (i j : Nat) (f : Site_ → Site_) : (s.modSite i f).getSen j = s.getSen j := rfl
@[simp] theorem getPort_modSite (s : State) (i j : Nat) (f : Site_ → Site_) : (s.modSite i f).getPort j = s.getPort j := rfl
@[simp] theorem getLane_modSite (s : State) (i j : Nat) (f : Site_ → Site_) : (s.modSite i f).getLane j = s.getLane j := rfl
@[simp] theorem memWf_modSite (s : State) (i : Nat) (f : Site_ → Site_) : (s.modSite i f).memWf = s.memWf := rfl

/-! #### `modDma` -/

@[simp] theorem getDma_modDma_self (s : State) (i : Nat) (f : Dma → Dma) : (s.modDma i f).getDma i = f (s.getDma i) := get_mod_self _ _ _ _
theorem getDma_modDma_ne (s : State) {i j : Nat} (f : Dma → Dma) (h : j ≠ i) : (s.modDma i f).getDma j = s.getDma j := get_mod_ne _ _ _ h
@[simp] theorem modDma_skt (s : State) (i : Nat) (f : Dma → Dma) : (s.modDma i f).skt = s.skt := rfl
@[simp] theorem modDma_sel (s : State) (i : Nat) (f : Dma → Dma) : (s.modDma i f).sel = s.sel := rfl
@[simp] theorem modDma_synLatch (s : State) (i : Nat) (f : Dma → Dma) : (s.modDma i f).synLatch = s.synLatch := rfl
@[simp] theorem modDma_winTok (s : State) (i : Nat) (f : Dma → Dma) : (s.modDma i f).winTok = s.winTok := rfl
@[simp] theorem modDma_hst (s : State) (i : Nat) (f : Dma → Dma) : (s.modDma i f).hst = s.hst := rfl
@[simp] theorem modDma_pcie (s : State) (i : Nat) (f : Dma → Dma) : (s.modDma i f).pcie = s.pcie := rfl
@[simp] theorem modDma_fuses (s : State) (i : Nat) (f : Dma → Dma) : (s.modDma i f).fuses = s.fuses := rfl
@[simp] theorem modDma_arys (s : State) (i : Nat) (f : Dma → Dma) : (s.modDma i f).arys = s.arys := rfl
@[simp] theorem modDma_groups (s : State) (i : Nat) (f : Dma → Dma) : (s.modDma i f).groups = s.groups := rfl
@[simp] theorem modDma_sites (s : State) (i : Nat) (f : Dma → Dma) : (s.modDma i f).sites = s.sites := rfl
@[simp] theorem modDma_slices (s : State) (i : Nat) (f : Dma → Dma) : (s.modDma i f).slices = s.slices := rfl
@[simp] theorem modDma_lss (s : State) (i : Nat) (f : Dma → Dma) : (s.modDma i f).lss = s.lss := rfl
@[simp] theorem modDma_loess (s : State) (i : Nat) (f : Dma → Dma) : (s.modDma i f).loess = s.loess := rfl
@[simp] theorem modDma_loessBad (s : State) (i : Nat) (f : Dma → Dma) : (s.modDma i f).loessBad = s.loessBad := rfl
@[simp] theorem modDma_seams (s : State) (i : Nat) (f : Dma → Dma) : (s.modDma i f).seams = s.seams := rfl
@[simp] theorem modDma_routers (s : State) (i : Nat) (f : Dma → Dma) : (s.modDma i f).routers = s.routers := rfl
@[simp] theorem modDma_mchans (s : State) (i : Nat) (f : Dma → Dma) : (s.modDma i f).mchans = s.mchans := rfl
@[simp] theorem modDma_mrl (s : State) (i : Nat) (f : Dma → Dma) : (s.modDma i f).mrl = s.mrl := rfl
@[simp] theorem modDma_marl (s : State) (i : Nat) (f : Dma → Dma) : (s.modDma i f).marl = s.marl := rfl
@[simp] theorem modDma_marlBad (s : State) (i : Nat) (f : Dma → Dma) : (s.modDma i f).marlBad = s.marlBad := rfl
@[simp] theorem modDma_ctxs (s : State) (i : Nat) (f : Dma → Dma) : (s.modDma i f).ctxs = s.ctxs := rfl
@[simp] theorem modDma_xreqs (s : State) (i : Nat) (f : Dma → Dma) : (s.modDma i f).xreqs = s.xreqs := rfl
@[simp] theorem modDma_aborts (s : State) (i : Nat) (f : Dma → Dma) : (s.modDma i f).aborts = s.aborts := rfl
@[simp] theorem modDma_parts (s : State) (i : Nat) (f : Dma → Dma) : (s.modDma i f).parts = s.parts := rfl
@[simp] theorem modDma_svc (s : State) (i : Nat) (f : Dma → Dma) : (s.modDma i f).svc = s.svc := rfl
@[simp] theorem modDma_queues (s : State) (i : Nat) (f : Dma → Dma) : (s.modDma i f).queues = s.queues := rfl
@[simp] theorem modDma_syncs (s : State) (i : Nat) (f : Dma → Dma) : (s.modDma i f).syncs = s.syncs := rfl
@[simp] theorem modDma_bundles (s : State) (i : Nat) (f : Dma → Dma) : (s.modDma i f).bundles = s.bundles := rfl
@[simp] theorem modDma_coldSweep (s : State) (i : Nat) (f : Dma → Dma) : (s.modDma i f).coldSweep = s.coldSweep := rfl
@[simp] theorem modDma_bgroups (s : State) (i : Nat) (f : Dma → Dma) : (s.modDma i f).bgroups = s.bgroups := rfl
@[simp] theorem modDma_govs (s : State) (i : Nat) (f : Dma → Dma) : (s.modDma i f).govs = s.govs := rfl
@[simp] theorem modDma_probes (s : State) (i : Nat) (f : Dma → Dma) : (s.modDma i f).probes = s.probes := rfl
@[simp] theorem modDma_vmons (s : State) (i : Nat) (f : Dma → Dma) : (s.modDma i f).vmons = s.vmons := rfl
@[simp] theorem modDma_pwr (s : State) (i : Nat) (f : Dma → Dma) : (s.modDma i f).pwr = s.pwr := rfl
@[simp] theorem modDma_sens (s : State) (i : Nat) (f : Dma → Dma) : (s.modDma i f).sens = s.sens := rfl
@[simp] theorem modDma_thm (s : State) (i : Nat) (f : Dma → Dma) : (s.modDma i f).thm = s.thm := rfl
@[simp] theorem modDma_ports (s : State) (i : Nat) (f : Dma → Dma) : (s.modDma i f).ports = s.ports := rfl
@[simp] theorem modDma_lanes (s : State) (i : Nat) (f : Dma → Dma) : (s.modDma i f).lanes = s.lanes := rfl
@[simp] theorem modDma_net (s : State) (i : Nat) (f : Dma → Dma) : (s.modDma i f).net = s.net := rfl
@[simp] theorem modDma_bru (s : State) (i : Nat) (f : Dma → Dma) : (s.modDma i f).bru = s.bru := rfl
@[simp] theorem modDma_rst (s : State) (i : Nat) (f : Dma → Dma) : (s.modDma i f).rst = s.rst := rfl
@[simp] theorem modDma_board (s : State) (i : Nat) (f : Dma → Dma) : (s.modDma i f).board = s.board := rfl
@[simp] theorem modDma_tick (s : State) (i : Nat) (f : Dma → Dma) : (s.modDma i f).tick = s.tick := rfl
@[simp] theorem modDma_tx (s : State) (i : Nat) (f : Dma → Dma) : (s.modDma i f).tx = s.tx := rfl
@[simp] theorem modDma_pending (s : State) (i : Nat) (f : Dma → Dma) : (s.modDma i f).pending = s.pending := rfl
@[simp] theorem getAry_modDma (s : State) (i j : Nat) (f : Dma → Dma) : (s.modDma i f).getAry j = s.getAry j := rfl
@[simp] theorem getGrp_modDma (s : State) (i j : Nat) (f : Dma → Dma) : (s.modDma i f).getGrp j = s.getGrp j := rfl
@[simp] theorem getSite_modDma (s : State) (i j : Nat) (f : Dma → Dma) : (s.modDma i f).getSite j = s.getSite j := rfl
@[simp] theorem getSlc_modDma (s : State) (i j : Nat) (f : Dma → Dma) : (s.modDma i f).getSlc j = s.getSlc j := rfl
@[simp] theorem getMCh_modDma (s : State) (i j : Nat) (f : Dma → Dma) : (s.modDma i f).getMCh j = s.getMCh j := rfl
@[simp] theorem getCtx_modDma (s : State) (i j : Nat) (f : Dma → Dma) : (s.modDma i f).getCtx j = s.getCtx j := rfl
@[simp] theorem getXrq_modDma (s : State) (i j : Nat) (f : Dma → Dma) : (s.modDma i f).getXrq j = s.getXrq j := rfl
@[simp] theorem getPart_modDma (s : State) (i j : Nat) (f : Dma → Dma) : (s.modDma i f).getPart j = s.getPart j := rfl
@[simp] theorem getQue_modDma (s : State) (i j : Nat) (f : Dma → Dma) : (s.modDma i f).getQue j = s.getQue j := rfl
@[simp] theorem getSyn_modDma (s : State) (i j : Nat) (f : Dma → Dma) : (s.modDma i f).getSyn j = s.getSyn j := rfl
@[simp] theorem getBun_modDma (s : State) (i j : Nat) (f : Dma → Dma) : (s.modDma i f).getBun j = s.getBun j := rfl
@[simp] theorem getBgr_modDma (s : State) (i j : Nat) (f : Dma → Dma) : (s.modDma i f).getBgr j = s.getBgr j := rfl
@[simp] theorem getGov_modDma (s : State) (i j : Nat) (f : Dma → Dma) : (s.modDma i f).getGov j = s.getGov j := rfl
@[simp] theorem getPrb_modDma (s : State) (i j : Nat) (f : Dma → Dma) : (s.modDma i f).getPrb j = s.getPrb j := rfl
@[simp] theorem getVmn_modDma (s : State) (i j : Nat) (f : Dma → Dma) : (s.modDma i f).getVmn j = s.getVmn j := rfl
@[simp] theorem getSen_modDma (s : State) (i j : Nat) (f : Dma → Dma) : (s.modDma i f).getSen j = s.getSen j := rfl
@[simp] theorem getPort_modDma (s : State) (i j : Nat) (f : Dma → Dma) : (s.modDma i f).getPort j = s.getPort j := rfl
@[simp] theorem getLane_modDma (s : State) (i j : Nat) (f : Dma → Dma) : (s.modDma i f).getLane j = s.getLane j := rfl
@[simp] theorem memWf_modDma (s : State) (i : Nat) (f : Dma → Dma) : (s.modDma i f).memWf = s.memWf := rfl

/-! #### `modSlc` -/

@[simp] theorem getSlc_modSlc_self (s : State) (i : Nat) (f : Slice_ → Slice_) : (s.modSlc i f).getSlc i = f (s.getSlc i) := get_mod_self _ _ _ _
theorem getSlc_modSlc_ne (s : State) {i j : Nat} (f : Slice_ → Slice_) (h : j ≠ i) : (s.modSlc i f).getSlc j = s.getSlc j := get_mod_ne _ _ _ h
@[simp] theorem modSlc_skt (s : State) (i : Nat) (f : Slice_ → Slice_) : (s.modSlc i f).skt = s.skt := rfl
@[simp] theorem modSlc_sel (s : State) (i : Nat) (f : Slice_ → Slice_) : (s.modSlc i f).sel = s.sel := rfl
@[simp] theorem modSlc_synLatch (s : State) (i : Nat) (f : Slice_ → Slice_) : (s.modSlc i f).synLatch = s.synLatch := rfl
@[simp] theorem modSlc_winTok (s : State) (i : Nat) (f : Slice_ → Slice_) : (s.modSlc i f).winTok = s.winTok := rfl
@[simp] theorem modSlc_hst (s : State) (i : Nat) (f : Slice_ → Slice_) : (s.modSlc i f).hst = s.hst := rfl
@[simp] theorem modSlc_pcie (s : State) (i : Nat) (f : Slice_ → Slice_) : (s.modSlc i f).pcie = s.pcie := rfl
@[simp] theorem modSlc_fuses (s : State) (i : Nat) (f : Slice_ → Slice_) : (s.modSlc i f).fuses = s.fuses := rfl
@[simp] theorem modSlc_arys (s : State) (i : Nat) (f : Slice_ → Slice_) : (s.modSlc i f).arys = s.arys := rfl
@[simp] theorem modSlc_groups (s : State) (i : Nat) (f : Slice_ → Slice_) : (s.modSlc i f).groups = s.groups := rfl
@[simp] theorem modSlc_sites (s : State) (i : Nat) (f : Slice_ → Slice_) : (s.modSlc i f).sites = s.sites := rfl
@[simp] theorem modSlc_dmas (s : State) (i : Nat) (f : Slice_ → Slice_) : (s.modSlc i f).dmas = s.dmas := rfl
@[simp] theorem modSlc_lss (s : State) (i : Nat) (f : Slice_ → Slice_) : (s.modSlc i f).lss = s.lss := rfl
@[simp] theorem modSlc_loess (s : State) (i : Nat) (f : Slice_ → Slice_) : (s.modSlc i f).loess = s.loess := rfl
@[simp] theorem modSlc_loessBad (s : State) (i : Nat) (f : Slice_ → Slice_) : (s.modSlc i f).loessBad = s.loessBad := rfl
@[simp] theorem modSlc_seams (s : State) (i : Nat) (f : Slice_ → Slice_) : (s.modSlc i f).seams = s.seams := rfl
@[simp] theorem modSlc_routers (s : State) (i : Nat) (f : Slice_ → Slice_) : (s.modSlc i f).routers = s.routers := rfl
@[simp] theorem modSlc_mchans (s : State) (i : Nat) (f : Slice_ → Slice_) : (s.modSlc i f).mchans = s.mchans := rfl
@[simp] theorem modSlc_mrl (s : State) (i : Nat) (f : Slice_ → Slice_) : (s.modSlc i f).mrl = s.mrl := rfl
@[simp] theorem modSlc_marl (s : State) (i : Nat) (f : Slice_ → Slice_) : (s.modSlc i f).marl = s.marl := rfl
@[simp] theorem modSlc_marlBad (s : State) (i : Nat) (f : Slice_ → Slice_) : (s.modSlc i f).marlBad = s.marlBad := rfl
@[simp] theorem modSlc_ctxs (s : State) (i : Nat) (f : Slice_ → Slice_) : (s.modSlc i f).ctxs = s.ctxs := rfl
@[simp] theorem modSlc_xreqs (s : State) (i : Nat) (f : Slice_ → Slice_) : (s.modSlc i f).xreqs = s.xreqs := rfl
@[simp] theorem modSlc_aborts (s : State) (i : Nat) (f : Slice_ → Slice_) : (s.modSlc i f).aborts = s.aborts := rfl
@[simp] theorem modSlc_parts (s : State) (i : Nat) (f : Slice_ → Slice_) : (s.modSlc i f).parts = s.parts := rfl
@[simp] theorem modSlc_svc (s : State) (i : Nat) (f : Slice_ → Slice_) : (s.modSlc i f).svc = s.svc := rfl
@[simp] theorem modSlc_queues (s : State) (i : Nat) (f : Slice_ → Slice_) : (s.modSlc i f).queues = s.queues := rfl
@[simp] theorem modSlc_syncs (s : State) (i : Nat) (f : Slice_ → Slice_) : (s.modSlc i f).syncs = s.syncs := rfl
@[simp] theorem modSlc_bundles (s : State) (i : Nat) (f : Slice_ → Slice_) : (s.modSlc i f).bundles = s.bundles := rfl
@[simp] theorem modSlc_coldSweep (s : State) (i : Nat) (f : Slice_ → Slice_) : (s.modSlc i f).coldSweep = s.coldSweep := rfl
@[simp] theorem modSlc_bgroups (s : State) (i : Nat) (f : Slice_ → Slice_) : (s.modSlc i f).bgroups = s.bgroups := rfl
@[simp] theorem modSlc_govs (s : State) (i : Nat) (f : Slice_ → Slice_) : (s.modSlc i f).govs = s.govs := rfl
@[simp] theorem modSlc_probes (s : State) (i : Nat) (f : Slice_ → Slice_) : (s.modSlc i f).probes = s.probes := rfl
@[simp] theorem modSlc_vmons (s : State) (i : Nat) (f : Slice_ → Slice_) : (s.modSlc i f).vmons = s.vmons := rfl
@[simp] theorem modSlc_pwr (s : State) (i : Nat) (f : Slice_ → Slice_) : (s.modSlc i f).pwr = s.pwr := rfl
@[simp] theorem modSlc_sens (s : State) (i : Nat) (f : Slice_ → Slice_) : (s.modSlc i f).sens = s.sens := rfl
@[simp] theorem modSlc_thm (s : State) (i : Nat) (f : Slice_ → Slice_) : (s.modSlc i f).thm = s.thm := rfl
@[simp] theorem modSlc_ports (s : State) (i : Nat) (f : Slice_ → Slice_) : (s.modSlc i f).ports = s.ports := rfl
@[simp] theorem modSlc_lanes (s : State) (i : Nat) (f : Slice_ → Slice_) : (s.modSlc i f).lanes = s.lanes := rfl
@[simp] theorem modSlc_net (s : State) (i : Nat) (f : Slice_ → Slice_) : (s.modSlc i f).net = s.net := rfl
@[simp] theorem modSlc_bru (s : State) (i : Nat) (f : Slice_ → Slice_) : (s.modSlc i f).bru = s.bru := rfl
@[simp] theorem modSlc_rst (s : State) (i : Nat) (f : Slice_ → Slice_) : (s.modSlc i f).rst = s.rst := rfl
@[simp] theorem modSlc_board (s : State) (i : Nat) (f : Slice_ → Slice_) : (s.modSlc i f).board = s.board := rfl
@[simp] theorem modSlc_tick (s : State) (i : Nat) (f : Slice_ → Slice_) : (s.modSlc i f).tick = s.tick := rfl
@[simp] theorem modSlc_tx (s : State) (i : Nat) (f : Slice_ → Slice_) : (s.modSlc i f).tx = s.tx := rfl
@[simp] theorem modSlc_pending (s : State) (i : Nat) (f : Slice_ → Slice_) : (s.modSlc i f).pending = s.pending := rfl
@[simp] theorem getAry_modSlc (s : State) (i j : Nat) (f : Slice_ → Slice_) : (s.modSlc i f).getAry j = s.getAry j := rfl
@[simp] theorem getGrp_modSlc (s : State) (i j : Nat) (f : Slice_ → Slice_) : (s.modSlc i f).getGrp j = s.getGrp j := rfl
@[simp] theorem getSite_modSlc (s : State) (i j : Nat) (f : Slice_ → Slice_) : (s.modSlc i f).getSite j = s.getSite j := rfl
@[simp] theorem getDma_modSlc (s : State) (i j : Nat) (f : Slice_ → Slice_) : (s.modSlc i f).getDma j = s.getDma j := rfl
@[simp] theorem getMCh_modSlc (s : State) (i j : Nat) (f : Slice_ → Slice_) : (s.modSlc i f).getMCh j = s.getMCh j := rfl
@[simp] theorem getCtx_modSlc (s : State) (i j : Nat) (f : Slice_ → Slice_) : (s.modSlc i f).getCtx j = s.getCtx j := rfl
@[simp] theorem getXrq_modSlc (s : State) (i j : Nat) (f : Slice_ → Slice_) : (s.modSlc i f).getXrq j = s.getXrq j := rfl
@[simp] theorem getPart_modSlc (s : State) (i j : Nat) (f : Slice_ → Slice_) : (s.modSlc i f).getPart j = s.getPart j := rfl
@[simp] theorem getQue_modSlc (s : State) (i j : Nat) (f : Slice_ → Slice_) : (s.modSlc i f).getQue j = s.getQue j := rfl
@[simp] theorem getSyn_modSlc (s : State) (i j : Nat) (f : Slice_ → Slice_) : (s.modSlc i f).getSyn j = s.getSyn j := rfl
@[simp] theorem getBun_modSlc (s : State) (i j : Nat) (f : Slice_ → Slice_) : (s.modSlc i f).getBun j = s.getBun j := rfl
@[simp] theorem getBgr_modSlc (s : State) (i j : Nat) (f : Slice_ → Slice_) : (s.modSlc i f).getBgr j = s.getBgr j := rfl
@[simp] theorem getGov_modSlc (s : State) (i j : Nat) (f : Slice_ → Slice_) : (s.modSlc i f).getGov j = s.getGov j := rfl
@[simp] theorem getPrb_modSlc (s : State) (i j : Nat) (f : Slice_ → Slice_) : (s.modSlc i f).getPrb j = s.getPrb j := rfl
@[simp] theorem getVmn_modSlc (s : State) (i j : Nat) (f : Slice_ → Slice_) : (s.modSlc i f).getVmn j = s.getVmn j := rfl
@[simp] theorem getSen_modSlc (s : State) (i j : Nat) (f : Slice_ → Slice_) : (s.modSlc i f).getSen j = s.getSen j := rfl
@[simp] theorem getPort_modSlc (s : State) (i j : Nat) (f : Slice_ → Slice_) : (s.modSlc i f).getPort j = s.getPort j := rfl
@[simp] theorem getLane_modSlc (s : State) (i j : Nat) (f : Slice_ → Slice_) : (s.modSlc i f).getLane j = s.getLane j := rfl
@[simp] theorem memWf_modSlc (s : State) (i : Nat) (f : Slice_ → Slice_) : (s.modSlc i f).memWf = s.memWf := rfl

/-! #### `modMCh` -/

@[simp] theorem getMCh_modMCh_self (s : State) (i : Nat) (f : MChan → MChan) : (s.modMCh i f).getMCh i = f (s.getMCh i) := get_mod_self _ _ _ _
theorem getMCh_modMCh_ne (s : State) {i j : Nat} (f : MChan → MChan) (h : j ≠ i) : (s.modMCh i f).getMCh j = s.getMCh j := get_mod_ne _ _ _ h
@[simp] theorem modMCh_skt (s : State) (i : Nat) (f : MChan → MChan) : (s.modMCh i f).skt = s.skt := rfl
@[simp] theorem modMCh_sel (s : State) (i : Nat) (f : MChan → MChan) : (s.modMCh i f).sel = s.sel := rfl
@[simp] theorem modMCh_synLatch (s : State) (i : Nat) (f : MChan → MChan) : (s.modMCh i f).synLatch = s.synLatch := rfl
@[simp] theorem modMCh_winTok (s : State) (i : Nat) (f : MChan → MChan) : (s.modMCh i f).winTok = s.winTok := rfl
@[simp] theorem modMCh_hst (s : State) (i : Nat) (f : MChan → MChan) : (s.modMCh i f).hst = s.hst := rfl
@[simp] theorem modMCh_pcie (s : State) (i : Nat) (f : MChan → MChan) : (s.modMCh i f).pcie = s.pcie := rfl
@[simp] theorem modMCh_fuses (s : State) (i : Nat) (f : MChan → MChan) : (s.modMCh i f).fuses = s.fuses := rfl
@[simp] theorem modMCh_arys (s : State) (i : Nat) (f : MChan → MChan) : (s.modMCh i f).arys = s.arys := rfl
@[simp] theorem modMCh_groups (s : State) (i : Nat) (f : MChan → MChan) : (s.modMCh i f).groups = s.groups := rfl
@[simp] theorem modMCh_sites (s : State) (i : Nat) (f : MChan → MChan) : (s.modMCh i f).sites = s.sites := rfl
@[simp] theorem modMCh_dmas (s : State) (i : Nat) (f : MChan → MChan) : (s.modMCh i f).dmas = s.dmas := rfl
@[simp] theorem modMCh_slices (s : State) (i : Nat) (f : MChan → MChan) : (s.modMCh i f).slices = s.slices := rfl
@[simp] theorem modMCh_lss (s : State) (i : Nat) (f : MChan → MChan) : (s.modMCh i f).lss = s.lss := rfl
@[simp] theorem modMCh_loess (s : State) (i : Nat) (f : MChan → MChan) : (s.modMCh i f).loess = s.loess := rfl
@[simp] theorem modMCh_loessBad (s : State) (i : Nat) (f : MChan → MChan) : (s.modMCh i f).loessBad = s.loessBad := rfl
@[simp] theorem modMCh_seams (s : State) (i : Nat) (f : MChan → MChan) : (s.modMCh i f).seams = s.seams := rfl
@[simp] theorem modMCh_routers (s : State) (i : Nat) (f : MChan → MChan) : (s.modMCh i f).routers = s.routers := rfl
@[simp] theorem modMCh_mrl (s : State) (i : Nat) (f : MChan → MChan) : (s.modMCh i f).mrl = s.mrl := rfl
@[simp] theorem modMCh_marl (s : State) (i : Nat) (f : MChan → MChan) : (s.modMCh i f).marl = s.marl := rfl
@[simp] theorem modMCh_marlBad (s : State) (i : Nat) (f : MChan → MChan) : (s.modMCh i f).marlBad = s.marlBad := rfl
@[simp] theorem modMCh_ctxs (s : State) (i : Nat) (f : MChan → MChan) : (s.modMCh i f).ctxs = s.ctxs := rfl
@[simp] theorem modMCh_xreqs (s : State) (i : Nat) (f : MChan → MChan) : (s.modMCh i f).xreqs = s.xreqs := rfl
@[simp] theorem modMCh_aborts (s : State) (i : Nat) (f : MChan → MChan) : (s.modMCh i f).aborts = s.aborts := rfl
@[simp] theorem modMCh_parts (s : State) (i : Nat) (f : MChan → MChan) : (s.modMCh i f).parts = s.parts := rfl
@[simp] theorem modMCh_svc (s : State) (i : Nat) (f : MChan → MChan) : (s.modMCh i f).svc = s.svc := rfl
@[simp] theorem modMCh_queues (s : State) (i : Nat) (f : MChan → MChan) : (s.modMCh i f).queues = s.queues := rfl
@[simp] theorem modMCh_syncs (s : State) (i : Nat) (f : MChan → MChan) : (s.modMCh i f).syncs = s.syncs := rfl
@[simp] theorem modMCh_bundles (s : State) (i : Nat) (f : MChan → MChan) : (s.modMCh i f).bundles = s.bundles := rfl
@[simp] theorem modMCh_coldSweep (s : State) (i : Nat) (f : MChan → MChan) : (s.modMCh i f).coldSweep = s.coldSweep := rfl
@[simp] theorem modMCh_bgroups (s : State) (i : Nat) (f : MChan → MChan) : (s.modMCh i f).bgroups = s.bgroups := rfl
@[simp] theorem modMCh_govs (s : State) (i : Nat) (f : MChan → MChan) : (s.modMCh i f).govs = s.govs := rfl
@[simp] theorem modMCh_probes (s : State) (i : Nat) (f : MChan → MChan) : (s.modMCh i f).probes = s.probes := rfl
@[simp] theorem modMCh_vmons (s : State) (i : Nat) (f : MChan → MChan) : (s.modMCh i f).vmons = s.vmons := rfl
@[simp] theorem modMCh_pwr (s : State) (i : Nat) (f : MChan → MChan) : (s.modMCh i f).pwr = s.pwr := rfl
@[simp] theorem modMCh_sens (s : State) (i : Nat) (f : MChan → MChan) : (s.modMCh i f).sens = s.sens := rfl
@[simp] theorem modMCh_thm (s : State) (i : Nat) (f : MChan → MChan) : (s.modMCh i f).thm = s.thm := rfl
@[simp] theorem modMCh_ports (s : State) (i : Nat) (f : MChan → MChan) : (s.modMCh i f).ports = s.ports := rfl
@[simp] theorem modMCh_lanes (s : State) (i : Nat) (f : MChan → MChan) : (s.modMCh i f).lanes = s.lanes := rfl
@[simp] theorem modMCh_net (s : State) (i : Nat) (f : MChan → MChan) : (s.modMCh i f).net = s.net := rfl
@[simp] theorem modMCh_bru (s : State) (i : Nat) (f : MChan → MChan) : (s.modMCh i f).bru = s.bru := rfl
@[simp] theorem modMCh_rst (s : State) (i : Nat) (f : MChan → MChan) : (s.modMCh i f).rst = s.rst := rfl
@[simp] theorem modMCh_board (s : State) (i : Nat) (f : MChan → MChan) : (s.modMCh i f).board = s.board := rfl
@[simp] theorem modMCh_tick (s : State) (i : Nat) (f : MChan → MChan) : (s.modMCh i f).tick = s.tick := rfl
@[simp] theorem modMCh_tx (s : State) (i : Nat) (f : MChan → MChan) : (s.modMCh i f).tx = s.tx := rfl
@[simp] theorem modMCh_pending (s : State) (i : Nat) (f : MChan → MChan) : (s.modMCh i f).pending = s.pending := rfl
@[simp] theorem getAry_modMCh (s : State) (i j : Nat) (f : MChan → MChan) : (s.modMCh i f).getAry j = s.getAry j := rfl
@[simp] theorem getGrp_modMCh (s : State) (i j : Nat) (f : MChan → MChan) : (s.modMCh i f).getGrp j = s.getGrp j := rfl
@[simp] theorem getSite_modMCh (s : State) (i j : Nat) (f : MChan → MChan) : (s.modMCh i f).getSite j = s.getSite j := rfl
@[simp] theorem getDma_modMCh (s : State) (i j : Nat) (f : MChan → MChan) : (s.modMCh i f).getDma j = s.getDma j := rfl
@[simp] theorem getSlc_modMCh (s : State) (i j : Nat) (f : MChan → MChan) : (s.modMCh i f).getSlc j = s.getSlc j := rfl
@[simp] theorem getCtx_modMCh (s : State) (i j : Nat) (f : MChan → MChan) : (s.modMCh i f).getCtx j = s.getCtx j := rfl
@[simp] theorem getXrq_modMCh (s : State) (i j : Nat) (f : MChan → MChan) : (s.modMCh i f).getXrq j = s.getXrq j := rfl
@[simp] theorem getPart_modMCh (s : State) (i j : Nat) (f : MChan → MChan) : (s.modMCh i f).getPart j = s.getPart j := rfl
@[simp] theorem getQue_modMCh (s : State) (i j : Nat) (f : MChan → MChan) : (s.modMCh i f).getQue j = s.getQue j := rfl
@[simp] theorem getSyn_modMCh (s : State) (i j : Nat) (f : MChan → MChan) : (s.modMCh i f).getSyn j = s.getSyn j := rfl
@[simp] theorem getBun_modMCh (s : State) (i j : Nat) (f : MChan → MChan) : (s.modMCh i f).getBun j = s.getBun j := rfl
@[simp] theorem getBgr_modMCh (s : State) (i j : Nat) (f : MChan → MChan) : (s.modMCh i f).getBgr j = s.getBgr j := rfl
@[simp] theorem getGov_modMCh (s : State) (i j : Nat) (f : MChan → MChan) : (s.modMCh i f).getGov j = s.getGov j := rfl
@[simp] theorem getPrb_modMCh (s : State) (i j : Nat) (f : MChan → MChan) : (s.modMCh i f).getPrb j = s.getPrb j := rfl
@[simp] theorem getVmn_modMCh (s : State) (i j : Nat) (f : MChan → MChan) : (s.modMCh i f).getVmn j = s.getVmn j := rfl
@[simp] theorem getSen_modMCh (s : State) (i j : Nat) (f : MChan → MChan) : (s.modMCh i f).getSen j = s.getSen j := rfl
@[simp] theorem getPort_modMCh (s : State) (i j : Nat) (f : MChan → MChan) : (s.modMCh i f).getPort j = s.getPort j := rfl
@[simp] theorem getLane_modMCh (s : State) (i j : Nat) (f : MChan → MChan) : (s.modMCh i f).getLane j = s.getLane j := rfl
@[simp] theorem memWf_modMCh (s : State) (i : Nat) (f : MChan → MChan) : (s.modMCh i f).memWf = s.memWf := rfl

/-! #### `modCtx` -/

@[simp] theorem getCtx_modCtx_self (s : State) (i : Nat) (f : Context → Context) : (s.modCtx i f).getCtx i = f (s.getCtx i) := get_mod_self _ _ _ _
theorem getCtx_modCtx_ne (s : State) {i j : Nat} (f : Context → Context) (h : j ≠ i) : (s.modCtx i f).getCtx j = s.getCtx j := get_mod_ne _ _ _ h
@[simp] theorem modCtx_skt (s : State) (i : Nat) (f : Context → Context) : (s.modCtx i f).skt = s.skt := rfl
@[simp] theorem modCtx_sel (s : State) (i : Nat) (f : Context → Context) : (s.modCtx i f).sel = s.sel := rfl
@[simp] theorem modCtx_synLatch (s : State) (i : Nat) (f : Context → Context) : (s.modCtx i f).synLatch = s.synLatch := rfl
@[simp] theorem modCtx_winTok (s : State) (i : Nat) (f : Context → Context) : (s.modCtx i f).winTok = s.winTok := rfl
@[simp] theorem modCtx_hst (s : State) (i : Nat) (f : Context → Context) : (s.modCtx i f).hst = s.hst := rfl
@[simp] theorem modCtx_pcie (s : State) (i : Nat) (f : Context → Context) : (s.modCtx i f).pcie = s.pcie := rfl
@[simp] theorem modCtx_fuses (s : State) (i : Nat) (f : Context → Context) : (s.modCtx i f).fuses = s.fuses := rfl
@[simp] theorem modCtx_arys (s : State) (i : Nat) (f : Context → Context) : (s.modCtx i f).arys = s.arys := rfl
@[simp] theorem modCtx_groups (s : State) (i : Nat) (f : Context → Context) : (s.modCtx i f).groups = s.groups := rfl
@[simp] theorem modCtx_sites (s : State) (i : Nat) (f : Context → Context) : (s.modCtx i f).sites = s.sites := rfl
@[simp] theorem modCtx_dmas (s : State) (i : Nat) (f : Context → Context) : (s.modCtx i f).dmas = s.dmas := rfl
@[simp] theorem modCtx_slices (s : State) (i : Nat) (f : Context → Context) : (s.modCtx i f).slices = s.slices := rfl
@[simp] theorem modCtx_lss (s : State) (i : Nat) (f : Context → Context) : (s.modCtx i f).lss = s.lss := rfl
@[simp] theorem modCtx_loess (s : State) (i : Nat) (f : Context → Context) : (s.modCtx i f).loess = s.loess := rfl
@[simp] theorem modCtx_loessBad (s : State) (i : Nat) (f : Context → Context) : (s.modCtx i f).loessBad = s.loessBad := rfl
@[simp] theorem modCtx_seams (s : State) (i : Nat) (f : Context → Context) : (s.modCtx i f).seams = s.seams := rfl
@[simp] theorem modCtx_routers (s : State) (i : Nat) (f : Context → Context) : (s.modCtx i f).routers = s.routers := rfl
@[simp] theorem modCtx_mchans (s : State) (i : Nat) (f : Context → Context) : (s.modCtx i f).mchans = s.mchans := rfl
@[simp] theorem modCtx_mrl (s : State) (i : Nat) (f : Context → Context) : (s.modCtx i f).mrl = s.mrl := rfl
@[simp] theorem modCtx_marl (s : State) (i : Nat) (f : Context → Context) : (s.modCtx i f).marl = s.marl := rfl
@[simp] theorem modCtx_marlBad (s : State) (i : Nat) (f : Context → Context) : (s.modCtx i f).marlBad = s.marlBad := rfl
@[simp] theorem modCtx_xreqs (s : State) (i : Nat) (f : Context → Context) : (s.modCtx i f).xreqs = s.xreqs := rfl
@[simp] theorem modCtx_aborts (s : State) (i : Nat) (f : Context → Context) : (s.modCtx i f).aborts = s.aborts := rfl
@[simp] theorem modCtx_parts (s : State) (i : Nat) (f : Context → Context) : (s.modCtx i f).parts = s.parts := rfl
@[simp] theorem modCtx_svc (s : State) (i : Nat) (f : Context → Context) : (s.modCtx i f).svc = s.svc := rfl
@[simp] theorem modCtx_queues (s : State) (i : Nat) (f : Context → Context) : (s.modCtx i f).queues = s.queues := rfl
@[simp] theorem modCtx_syncs (s : State) (i : Nat) (f : Context → Context) : (s.modCtx i f).syncs = s.syncs := rfl
@[simp] theorem modCtx_bundles (s : State) (i : Nat) (f : Context → Context) : (s.modCtx i f).bundles = s.bundles := rfl
@[simp] theorem modCtx_coldSweep (s : State) (i : Nat) (f : Context → Context) : (s.modCtx i f).coldSweep = s.coldSweep := rfl
@[simp] theorem modCtx_bgroups (s : State) (i : Nat) (f : Context → Context) : (s.modCtx i f).bgroups = s.bgroups := rfl
@[simp] theorem modCtx_govs (s : State) (i : Nat) (f : Context → Context) : (s.modCtx i f).govs = s.govs := rfl
@[simp] theorem modCtx_probes (s : State) (i : Nat) (f : Context → Context) : (s.modCtx i f).probes = s.probes := rfl
@[simp] theorem modCtx_vmons (s : State) (i : Nat) (f : Context → Context) : (s.modCtx i f).vmons = s.vmons := rfl
@[simp] theorem modCtx_pwr (s : State) (i : Nat) (f : Context → Context) : (s.modCtx i f).pwr = s.pwr := rfl
@[simp] theorem modCtx_sens (s : State) (i : Nat) (f : Context → Context) : (s.modCtx i f).sens = s.sens := rfl
@[simp] theorem modCtx_thm (s : State) (i : Nat) (f : Context → Context) : (s.modCtx i f).thm = s.thm := rfl
@[simp] theorem modCtx_ports (s : State) (i : Nat) (f : Context → Context) : (s.modCtx i f).ports = s.ports := rfl
@[simp] theorem modCtx_lanes (s : State) (i : Nat) (f : Context → Context) : (s.modCtx i f).lanes = s.lanes := rfl
@[simp] theorem modCtx_net (s : State) (i : Nat) (f : Context → Context) : (s.modCtx i f).net = s.net := rfl
@[simp] theorem modCtx_bru (s : State) (i : Nat) (f : Context → Context) : (s.modCtx i f).bru = s.bru := rfl
@[simp] theorem modCtx_rst (s : State) (i : Nat) (f : Context → Context) : (s.modCtx i f).rst = s.rst := rfl
@[simp] theorem modCtx_board (s : State) (i : Nat) (f : Context → Context) : (s.modCtx i f).board = s.board := rfl
@[simp] theorem modCtx_tick (s : State) (i : Nat) (f : Context → Context) : (s.modCtx i f).tick = s.tick := rfl
@[simp] theorem modCtx_tx (s : State) (i : Nat) (f : Context → Context) : (s.modCtx i f).tx = s.tx := rfl
@[simp] theorem modCtx_pending (s : State) (i : Nat) (f : Context → Context) : (s.modCtx i f).pending = s.pending := rfl
@[simp] theorem getAry_modCtx (s : State) (i j : Nat) (f : Context → Context) : (s.modCtx i f).getAry j = s.getAry j := rfl
@[simp] theorem getGrp_modCtx (s : State) (i j : Nat) (f : Context → Context) : (s.modCtx i f).getGrp j = s.getGrp j := rfl
@[simp] theorem getSite_modCtx (s : State) (i j : Nat) (f : Context → Context) : (s.modCtx i f).getSite j = s.getSite j := rfl
@[simp] theorem getDma_modCtx (s : State) (i j : Nat) (f : Context → Context) : (s.modCtx i f).getDma j = s.getDma j := rfl
@[simp] theorem getSlc_modCtx (s : State) (i j : Nat) (f : Context → Context) : (s.modCtx i f).getSlc j = s.getSlc j := rfl
@[simp] theorem getMCh_modCtx (s : State) (i j : Nat) (f : Context → Context) : (s.modCtx i f).getMCh j = s.getMCh j := rfl
@[simp] theorem getXrq_modCtx (s : State) (i j : Nat) (f : Context → Context) : (s.modCtx i f).getXrq j = s.getXrq j := rfl
@[simp] theorem getPart_modCtx (s : State) (i j : Nat) (f : Context → Context) : (s.modCtx i f).getPart j = s.getPart j := rfl
@[simp] theorem getQue_modCtx (s : State) (i j : Nat) (f : Context → Context) : (s.modCtx i f).getQue j = s.getQue j := rfl
@[simp] theorem getSyn_modCtx (s : State) (i j : Nat) (f : Context → Context) : (s.modCtx i f).getSyn j = s.getSyn j := rfl
@[simp] theorem getBun_modCtx (s : State) (i j : Nat) (f : Context → Context) : (s.modCtx i f).getBun j = s.getBun j := rfl
@[simp] theorem getBgr_modCtx (s : State) (i j : Nat) (f : Context → Context) : (s.modCtx i f).getBgr j = s.getBgr j := rfl
@[simp] theorem getGov_modCtx (s : State) (i j : Nat) (f : Context → Context) : (s.modCtx i f).getGov j = s.getGov j := rfl
@[simp] theorem getPrb_modCtx (s : State) (i j : Nat) (f : Context → Context) : (s.modCtx i f).getPrb j = s.getPrb j := rfl
@[simp] theorem getVmn_modCtx (s : State) (i j : Nat) (f : Context → Context) : (s.modCtx i f).getVmn j = s.getVmn j := rfl
@[simp] theorem getSen_modCtx (s : State) (i j : Nat) (f : Context → Context) : (s.modCtx i f).getSen j = s.getSen j := rfl
@[simp] theorem getPort_modCtx (s : State) (i j : Nat) (f : Context → Context) : (s.modCtx i f).getPort j = s.getPort j := rfl
@[simp] theorem getLane_modCtx (s : State) (i j : Nat) (f : Context → Context) : (s.modCtx i f).getLane j = s.getLane j := rfl
@[simp] theorem memWf_modCtx (s : State) (i : Nat) (f : Context → Context) : (s.modCtx i f).memWf = s.memWf := rfl

/-! #### `modXrq` -/

@[simp] theorem getXrq_modXrq_self (s : State) (i : Nat) (f : XltReq → XltReq) : (s.modXrq i f).getXrq i = f (s.getXrq i) := get_mod_self _ _ _ _
theorem getXrq_modXrq_ne (s : State) {i j : Nat} (f : XltReq → XltReq) (h : j ≠ i) : (s.modXrq i f).getXrq j = s.getXrq j := get_mod_ne _ _ _ h
@[simp] theorem modXrq_skt (s : State) (i : Nat) (f : XltReq → XltReq) : (s.modXrq i f).skt = s.skt := rfl
@[simp] theorem modXrq_sel (s : State) (i : Nat) (f : XltReq → XltReq) : (s.modXrq i f).sel = s.sel := rfl
@[simp] theorem modXrq_synLatch (s : State) (i : Nat) (f : XltReq → XltReq) : (s.modXrq i f).synLatch = s.synLatch := rfl
@[simp] theorem modXrq_winTok (s : State) (i : Nat) (f : XltReq → XltReq) : (s.modXrq i f).winTok = s.winTok := rfl
@[simp] theorem modXrq_hst (s : State) (i : Nat) (f : XltReq → XltReq) : (s.modXrq i f).hst = s.hst := rfl
@[simp] theorem modXrq_pcie (s : State) (i : Nat) (f : XltReq → XltReq) : (s.modXrq i f).pcie = s.pcie := rfl
@[simp] theorem modXrq_fuses (s : State) (i : Nat) (f : XltReq → XltReq) : (s.modXrq i f).fuses = s.fuses := rfl
@[simp] theorem modXrq_arys (s : State) (i : Nat) (f : XltReq → XltReq) : (s.modXrq i f).arys = s.arys := rfl
@[simp] theorem modXrq_groups (s : State) (i : Nat) (f : XltReq → XltReq) : (s.modXrq i f).groups = s.groups := rfl
@[simp] theorem modXrq_sites (s : State) (i : Nat) (f : XltReq → XltReq) : (s.modXrq i f).sites = s.sites := rfl
@[simp] theorem modXrq_dmas (s : State) (i : Nat) (f : XltReq → XltReq) : (s.modXrq i f).dmas = s.dmas := rfl
@[simp] theorem modXrq_slices (s : State) (i : Nat) (f : XltReq → XltReq) : (s.modXrq i f).slices = s.slices := rfl
@[simp] theorem modXrq_lss (s : State) (i : Nat) (f : XltReq → XltReq) : (s.modXrq i f).lss = s.lss := rfl
@[simp] theorem modXrq_loess (s : State) (i : Nat) (f : XltReq → XltReq) : (s.modXrq i f).loess = s.loess := rfl
@[simp] theorem modXrq_loessBad (s : State) (i : Nat) (f : XltReq → XltReq) : (s.modXrq i f).loessBad = s.loessBad := rfl
@[simp] theorem modXrq_seams (s : State) (i : Nat) (f : XltReq → XltReq) : (s.modXrq i f).seams = s.seams := rfl
@[simp] theorem modXrq_routers (s : State) (i : Nat) (f : XltReq → XltReq) : (s.modXrq i f).routers = s.routers := rfl
@[simp] theorem modXrq_mchans (s : State) (i : Nat) (f : XltReq → XltReq) : (s.modXrq i f).mchans = s.mchans := rfl
@[simp] theorem modXrq_mrl (s : State) (i : Nat) (f : XltReq → XltReq) : (s.modXrq i f).mrl = s.mrl := rfl
@[simp] theorem modXrq_marl (s : State) (i : Nat) (f : XltReq → XltReq) : (s.modXrq i f).marl = s.marl := rfl
@[simp] theorem modXrq_marlBad (s : State) (i : Nat) (f : XltReq → XltReq) : (s.modXrq i f).marlBad = s.marlBad := rfl
@[simp] theorem modXrq_ctxs (s : State) (i : Nat) (f : XltReq → XltReq) : (s.modXrq i f).ctxs = s.ctxs := rfl
@[simp] theorem modXrq_aborts (s : State) (i : Nat) (f : XltReq → XltReq) : (s.modXrq i f).aborts = s.aborts := rfl
@[simp] theorem modXrq_parts (s : State) (i : Nat) (f : XltReq → XltReq) : (s.modXrq i f).parts = s.parts := rfl
@[simp] theorem modXrq_svc (s : State) (i : Nat) (f : XltReq → XltReq) : (s.modXrq i f).svc = s.svc := rfl
@[simp] theorem modXrq_queues (s : State) (i : Nat) (f : XltReq → XltReq) : (s.modXrq i f).queues = s.queues := rfl
@[simp] theorem modXrq_syncs (s : State) (i : Nat) (f : XltReq → XltReq) : (s.modXrq i f).syncs = s.syncs := rfl
@[simp] theorem modXrq_bundles (s : State) (i : Nat) (f : XltReq → XltReq) : (s.modXrq i f).bundles = s.bundles := rfl
@[simp] theorem modXrq_coldSweep (s : State) (i : Nat) (f : XltReq → XltReq) : (s.modXrq i f).coldSweep = s.coldSweep := rfl
@[simp] theorem modXrq_bgroups (s : State) (i : Nat) (f : XltReq → XltReq) : (s.modXrq i f).bgroups = s.bgroups := rfl
@[simp] theorem modXrq_govs (s : State) (i : Nat) (f : XltReq → XltReq) : (s.modXrq i f).govs = s.govs := rfl
@[simp] theorem modXrq_probes (s : State) (i : Nat) (f : XltReq → XltReq) : (s.modXrq i f).probes = s.probes := rfl
@[simp] theorem modXrq_vmons (s : State) (i : Nat) (f : XltReq → XltReq) : (s.modXrq i f).vmons = s.vmons := rfl
@[simp] theorem modXrq_pwr (s : State) (i : Nat) (f : XltReq → XltReq) : (s.modXrq i f).pwr = s.pwr := rfl
@[simp] theorem modXrq_sens (s : State) (i : Nat) (f : XltReq → XltReq) : (s.modXrq i f).sens = s.sens := rfl
@[simp] theorem modXrq_thm (s : State) (i : Nat) (f : XltReq → XltReq) : (s.modXrq i f).thm = s.thm := rfl
@[simp] theorem modXrq_ports (s : State) (i : Nat) (f : XltReq → XltReq) : (s.modXrq i f).ports = s.ports := rfl
@[simp] theorem modXrq_lanes (s : State) (i : Nat) (f : XltReq → XltReq) : (s.modXrq i f).lanes = s.lanes := rfl
@[simp] theorem modXrq_net (s : State) (i : Nat) (f : XltReq → XltReq) : (s.modXrq i f).net = s.net := rfl
@[simp] theorem modXrq_bru (s : State) (i : Nat) (f : XltReq → XltReq) : (s.modXrq i f).bru = s.bru := rfl
@[simp] theorem modXrq_rst (s : State) (i : Nat) (f : XltReq → XltReq) : (s.modXrq i f).rst = s.rst := rfl
@[simp] theorem modXrq_board (s : State) (i : Nat) (f : XltReq → XltReq) : (s.modXrq i f).board = s.board := rfl
@[simp] theorem modXrq_tick (s : State) (i : Nat) (f : XltReq → XltReq) : (s.modXrq i f).tick = s.tick := rfl
@[simp] theorem modXrq_tx (s : State) (i : Nat) (f : XltReq → XltReq) : (s.modXrq i f).tx = s.tx := rfl
@[simp] theorem modXrq_pending (s : State) (i : Nat) (f : XltReq → XltReq) : (s.modXrq i f).pending = s.pending := rfl
@[simp] theorem getAry_modXrq (s : State) (i j : Nat) (f : XltReq → XltReq) : (s.modXrq i f).getAry j = s.getAry j := rfl
@[simp] theorem getGrp_modXrq (s : State) (i j : Nat) (f : XltReq → XltReq) : (s.modXrq i f).getGrp j = s.getGrp j := rfl
@[simp] theorem getSite_modXrq (s : State) (i j : Nat) (f : XltReq → XltReq) : (s.modXrq i f).getSite j = s.getSite j := rfl
@[simp] theorem getDma_modXrq (s : State) (i j : Nat) (f : XltReq → XltReq) : (s.modXrq i f).getDma j = s.getDma j := rfl
@[simp] theorem getSlc_modXrq (s : State) (i j : Nat) (f : XltReq → XltReq) : (s.modXrq i f).getSlc j = s.getSlc j := rfl
@[simp] theorem getMCh_modXrq (s : State) (i j : Nat) (f : XltReq → XltReq) : (s.modXrq i f).getMCh j = s.getMCh j := rfl
@[simp] theorem getCtx_modXrq (s : State) (i j : Nat) (f : XltReq → XltReq) : (s.modXrq i f).getCtx j = s.getCtx j := rfl
@[simp] theorem getPart_modXrq (s : State) (i j : Nat) (f : XltReq → XltReq) : (s.modXrq i f).getPart j = s.getPart j := rfl
@[simp] theorem getQue_modXrq (s : State) (i j : Nat) (f : XltReq → XltReq) : (s.modXrq i f).getQue j = s.getQue j := rfl
@[simp] theorem getSyn_modXrq (s : State) (i j : Nat) (f : XltReq → XltReq) : (s.modXrq i f).getSyn j = s.getSyn j := rfl
@[simp] theorem getBun_modXrq (s : State) (i j : Nat) (f : XltReq → XltReq) : (s.modXrq i f).getBun j = s.getBun j := rfl
@[simp] theorem getBgr_modXrq (s : State) (i j : Nat) (f : XltReq → XltReq) : (s.modXrq i f).getBgr j = s.getBgr j := rfl
@[simp] theorem getGov_modXrq (s : State) (i j : Nat) (f : XltReq → XltReq) : (s.modXrq i f).getGov j = s.getGov j := rfl
@[simp] theorem getPrb_modXrq (s : State) (i j : Nat) (f : XltReq → XltReq) : (s.modXrq i f).getPrb j = s.getPrb j := rfl
@[simp] theorem getVmn_modXrq (s : State) (i j : Nat) (f : XltReq → XltReq) : (s.modXrq i f).getVmn j = s.getVmn j := rfl
@[simp] theorem getSen_modXrq (s : State) (i j : Nat) (f : XltReq → XltReq) : (s.modXrq i f).getSen j = s.getSen j := rfl
@[simp] theorem getPort_modXrq (s : State) (i j : Nat) (f : XltReq → XltReq) : (s.modXrq i f).getPort j = s.getPort j := rfl
@[simp] theorem getLane_modXrq (s : State) (i j : Nat) (f : XltReq → XltReq) : (s.modXrq i f).getLane j = s.getLane j := rfl
@[simp] theorem memWf_modXrq (s : State) (i : Nat) (f : XltReq → XltReq) : (s.modXrq i f).memWf = s.memWf := rfl

/-! #### `modPart` -/

@[simp] theorem getPart_modPart_self (s : State) (i : Nat) (f : Part → Part) : (s.modPart i f).getPart i = f (s.getPart i) := get_mod_self _ _ _ _
theorem getPart_modPart_ne (s : State) {i j : Nat} (f : Part → Part) (h : j ≠ i) : (s.modPart i f).getPart j = s.getPart j := get_mod_ne _ _ _ h
@[simp] theorem modPart_skt (s : State) (i : Nat) (f : Part → Part) : (s.modPart i f).skt = s.skt := rfl
@[simp] theorem modPart_sel (s : State) (i : Nat) (f : Part → Part) : (s.modPart i f).sel = s.sel := rfl
@[simp] theorem modPart_synLatch (s : State) (i : Nat) (f : Part → Part) : (s.modPart i f).synLatch = s.synLatch := rfl
@[simp] theorem modPart_winTok (s : State) (i : Nat) (f : Part → Part) : (s.modPart i f).winTok = s.winTok := rfl
@[simp] theorem modPart_hst (s : State) (i : Nat) (f : Part → Part) : (s.modPart i f).hst = s.hst := rfl
@[simp] theorem modPart_pcie (s : State) (i : Nat) (f : Part → Part) : (s.modPart i f).pcie = s.pcie := rfl
@[simp] theorem modPart_fuses (s : State) (i : Nat) (f : Part → Part) : (s.modPart i f).fuses = s.fuses := rfl
@[simp] theorem modPart_arys (s : State) (i : Nat) (f : Part → Part) : (s.modPart i f).arys = s.arys := rfl
@[simp] theorem modPart_groups (s : State) (i : Nat) (f : Part → Part) : (s.modPart i f).groups = s.groups := rfl
@[simp] theorem modPart_sites (s : State) (i : Nat) (f : Part → Part) : (s.modPart i f).sites = s.sites := rfl
@[simp] theorem modPart_dmas (s : State) (i : Nat) (f : Part → Part) : (s.modPart i f).dmas = s.dmas := rfl
@[simp] theorem modPart_slices (s : State) (i : Nat) (f : Part → Part) : (s.modPart i f).slices = s.slices := rfl
@[simp] theorem modPart_lss (s : State) (i : Nat) (f : Part → Part) : (s.modPart i f).lss = s.lss := rfl
@[simp] theorem modPart_loess (s : State) (i : Nat) (f : Part → Part) : (s.modPart i f).loess = s.loess := rfl
@[simp] theorem modPart_loessBad (s : State) (i : Nat) (f : Part → Part) : (s.modPart i f).loessBad = s.loessBad := rfl
@[simp] theorem modPart_seams (s : State) (i : Nat) (f : Part → Part) : (s.modPart i f).seams = s.seams := rfl
@[simp] theorem modPart_routers (s : State) (i : Nat) (f : Part → Part) : (s.modPart i f).routers = s.routers := rfl
@[simp] theorem modPart_mchans (s : State) (i : Nat) (f : Part → Part) : (s.modPart i f).mchans = s.mchans := rfl
@[simp] theorem modPart_mrl (s : State) (i : Nat) (f : Part → Part) : (s.modPart i f).mrl = s.mrl := rfl
@[simp] theorem modPart_marl (s : State) (i : Nat) (f : Part → Part) : (s.modPart i f).marl = s.marl := rfl
@[simp] theorem modPart_marlBad (s : State) (i : Nat) (f : Part → Part) : (s.modPart i f).marlBad = s.marlBad := rfl
@[simp] theorem modPart_ctxs (s : State) (i : Nat) (f : Part → Part) : (s.modPart i f).ctxs = s.ctxs := rfl
@[simp] theorem modPart_xreqs (s : State) (i : Nat) (f : Part → Part) : (s.modPart i f).xreqs = s.xreqs := rfl
@[simp] theorem modPart_aborts (s : State) (i : Nat) (f : Part → Part) : (s.modPart i f).aborts = s.aborts := rfl
@[simp] theorem modPart_svc (s : State) (i : Nat) (f : Part → Part) : (s.modPart i f).svc = s.svc := rfl
@[simp] theorem modPart_queues (s : State) (i : Nat) (f : Part → Part) : (s.modPart i f).queues = s.queues := rfl
@[simp] theorem modPart_syncs (s : State) (i : Nat) (f : Part → Part) : (s.modPart i f).syncs = s.syncs := rfl
@[simp] theorem modPart_bundles (s : State) (i : Nat) (f : Part → Part) : (s.modPart i f).bundles = s.bundles := rfl
@[simp] theorem modPart_coldSweep (s : State) (i : Nat) (f : Part → Part) : (s.modPart i f).coldSweep = s.coldSweep := rfl
@[simp] theorem modPart_bgroups (s : State) (i : Nat) (f : Part → Part) : (s.modPart i f).bgroups = s.bgroups := rfl
@[simp] theorem modPart_govs (s : State) (i : Nat) (f : Part → Part) : (s.modPart i f).govs = s.govs := rfl
@[simp] theorem modPart_probes (s : State) (i : Nat) (f : Part → Part) : (s.modPart i f).probes = s.probes := rfl
@[simp] theorem modPart_vmons (s : State) (i : Nat) (f : Part → Part) : (s.modPart i f).vmons = s.vmons := rfl
@[simp] theorem modPart_pwr (s : State) (i : Nat) (f : Part → Part) : (s.modPart i f).pwr = s.pwr := rfl
@[simp] theorem modPart_sens (s : State) (i : Nat) (f : Part → Part) : (s.modPart i f).sens = s.sens := rfl
@[simp] theorem modPart_thm (s : State) (i : Nat) (f : Part → Part) : (s.modPart i f).thm = s.thm := rfl
@[simp] theorem modPart_ports (s : State) (i : Nat) (f : Part → Part) : (s.modPart i f).ports = s.ports := rfl
@[simp] theorem modPart_lanes (s : State) (i : Nat) (f : Part → Part) : (s.modPart i f).lanes = s.lanes := rfl
@[simp] theorem modPart_net (s : State) (i : Nat) (f : Part → Part) : (s.modPart i f).net = s.net := rfl
@[simp] theorem modPart_bru (s : State) (i : Nat) (f : Part → Part) : (s.modPart i f).bru = s.bru := rfl
@[simp] theorem modPart_rst (s : State) (i : Nat) (f : Part → Part) : (s.modPart i f).rst = s.rst := rfl
@[simp] theorem modPart_board (s : State) (i : Nat) (f : Part → Part) : (s.modPart i f).board = s.board := rfl
@[simp] theorem modPart_tick (s : State) (i : Nat) (f : Part → Part) : (s.modPart i f).tick = s.tick := rfl
@[simp] theorem modPart_tx (s : State) (i : Nat) (f : Part → Part) : (s.modPart i f).tx = s.tx := rfl
@[simp] theorem modPart_pending (s : State) (i : Nat) (f : Part → Part) : (s.modPart i f).pending = s.pending := rfl
@[simp] theorem getAry_modPart (s : State) (i j : Nat) (f : Part → Part) : (s.modPart i f).getAry j = s.getAry j := rfl
@[simp] theorem getGrp_modPart (s : State) (i j : Nat) (f : Part → Part) : (s.modPart i f).getGrp j = s.getGrp j := rfl
@[simp] theorem getSite_modPart (s : State) (i j : Nat) (f : Part → Part) : (s.modPart i f).getSite j = s.getSite j := rfl
@[simp] theorem getDma_modPart (s : State) (i j : Nat) (f : Part → Part) : (s.modPart i f).getDma j = s.getDma j := rfl
@[simp] theorem getSlc_modPart (s : State) (i j : Nat) (f : Part → Part) : (s.modPart i f).getSlc j = s.getSlc j := rfl
@[simp] theorem getMCh_modPart (s : State) (i j : Nat) (f : Part → Part) : (s.modPart i f).getMCh j = s.getMCh j := rfl
@[simp] theorem getCtx_modPart (s : State) (i j : Nat) (f : Part → Part) : (s.modPart i f).getCtx j = s.getCtx j := rfl
@[simp] theorem getXrq_modPart (s : State) (i j : Nat) (f : Part → Part) : (s.modPart i f).getXrq j = s.getXrq j := rfl
@[simp] theorem getQue_modPart (s : State) (i j : Nat) (f : Part → Part) : (s.modPart i f).getQue j = s.getQue j := rfl
@[simp] theorem getSyn_modPart (s : State) (i j : Nat) (f : Part → Part) : (s.modPart i f).getSyn j = s.getSyn j := rfl
@[simp] theorem getBun_modPart (s : State) (i j : Nat) (f : Part → Part) : (s.modPart i f).getBun j = s.getBun j := rfl
@[simp] theorem getBgr_modPart (s : State) (i j : Nat) (f : Part → Part) : (s.modPart i f).getBgr j = s.getBgr j := rfl
@[simp] theorem getGov_modPart (s : State) (i j : Nat) (f : Part → Part) : (s.modPart i f).getGov j = s.getGov j := rfl
@[simp] theorem getPrb_modPart (s : State) (i j : Nat) (f : Part → Part) : (s.modPart i f).getPrb j = s.getPrb j := rfl
@[simp] theorem getVmn_modPart (s : State) (i j : Nat) (f : Part → Part) : (s.modPart i f).getVmn j = s.getVmn j := rfl
@[simp] theorem getSen_modPart (s : State) (i j : Nat) (f : Part → Part) : (s.modPart i f).getSen j = s.getSen j := rfl
@[simp] theorem getPort_modPart (s : State) (i j : Nat) (f : Part → Part) : (s.modPart i f).getPort j = s.getPort j := rfl
@[simp] theorem getLane_modPart (s : State) (i j : Nat) (f : Part → Part) : (s.modPart i f).getLane j = s.getLane j := rfl
@[simp] theorem memWf_modPart (s : State) (i : Nat) (f : Part → Part) : (s.modPart i f).memWf = s.memWf := rfl

/-! #### `modQue` -/

@[simp] theorem getQue_modQue_self (s : State) (i : Nat) (f : Queue → Queue) : (s.modQue i f).getQue i = f (s.getQue i) := get_mod_self _ _ _ _
theorem getQue_modQue_ne (s : State) {i j : Nat} (f : Queue → Queue) (h : j ≠ i) : (s.modQue i f).getQue j = s.getQue j := get_mod_ne _ _ _ h
@[simp] theorem modQue_skt (s : State) (i : Nat) (f : Queue → Queue) : (s.modQue i f).skt = s.skt := rfl
@[simp] theorem modQue_sel (s : State) (i : Nat) (f : Queue → Queue) : (s.modQue i f).sel = s.sel := rfl
@[simp] theorem modQue_synLatch (s : State) (i : Nat) (f : Queue → Queue) : (s.modQue i f).synLatch = s.synLatch := rfl
@[simp] theorem modQue_winTok (s : State) (i : Nat) (f : Queue → Queue) : (s.modQue i f).winTok = s.winTok := rfl
@[simp] theorem modQue_hst (s : State) (i : Nat) (f : Queue → Queue) : (s.modQue i f).hst = s.hst := rfl
@[simp] theorem modQue_pcie (s : State) (i : Nat) (f : Queue → Queue) : (s.modQue i f).pcie = s.pcie := rfl
@[simp] theorem modQue_fuses (s : State) (i : Nat) (f : Queue → Queue) : (s.modQue i f).fuses = s.fuses := rfl
@[simp] theorem modQue_arys (s : State) (i : Nat) (f : Queue → Queue) : (s.modQue i f).arys = s.arys := rfl
@[simp] theorem modQue_groups (s : State) (i : Nat) (f : Queue → Queue) : (s.modQue i f).groups = s.groups := rfl
@[simp] theorem modQue_sites (s : State) (i : Nat) (f : Queue → Queue) : (s.modQue i f).sites = s.sites := rfl
@[simp] theorem modQue_dmas (s : State) (i : Nat) (f : Queue → Queue) : (s.modQue i f).dmas = s.dmas := rfl
@[simp] theorem modQue_slices (s : State) (i : Nat) (f : Queue → Queue) : (s.modQue i f).slices = s.slices := rfl
@[simp] theorem modQue_lss (s : State) (i : Nat) (f : Queue → Queue) : (s.modQue i f).lss = s.lss := rfl
@[simp] theorem modQue_loess (s : State) (i : Nat) (f : Queue → Queue) : (s.modQue i f).loess = s.loess := rfl
@[simp] theorem modQue_loessBad (s : State) (i : Nat) (f : Queue → Queue) : (s.modQue i f).loessBad = s.loessBad := rfl
@[simp] theorem modQue_seams (s : State) (i : Nat) (f : Queue → Queue) : (s.modQue i f).seams = s.seams := rfl
@[simp] theorem modQue_routers (s : State) (i : Nat) (f : Queue → Queue) : (s.modQue i f).routers = s.routers := rfl
@[simp] theorem modQue_mchans (s : State) (i : Nat) (f : Queue → Queue) : (s.modQue i f).mchans = s.mchans := rfl
@[simp] theorem modQue_mrl (s : State) (i : Nat) (f : Queue → Queue) : (s.modQue i f).mrl = s.mrl := rfl
@[simp] theorem modQue_marl (s : State) (i : Nat) (f : Queue → Queue) : (s.modQue i f).marl = s.marl := rfl
@[simp] theorem modQue_marlBad (s : State) (i : Nat) (f : Queue → Queue) : (s.modQue i f).marlBad = s.marlBad := rfl
@[simp] theorem modQue_ctxs (s : State) (i : Nat) (f : Queue → Queue) : (s.modQue i f).ctxs = s.ctxs := rfl
@[simp] theorem modQue_xreqs (s : State) (i : Nat) (f : Queue → Queue) : (s.modQue i f).xreqs = s.xreqs := rfl
@[simp] theorem modQue_aborts (s : State) (i : Nat) (f : Queue → Queue) : (s.modQue i f).aborts = s.aborts := rfl
@[simp] theorem modQue_parts (s : State) (i : Nat) (f : Queue → Queue) : (s.modQue i f).parts = s.parts := rfl
@[simp] theorem modQue_svc (s : State) (i : Nat) (f : Queue → Queue) : (s.modQue i f).svc = s.svc := rfl
@[simp] theorem modQue_syncs (s : State) (i : Nat) (f : Queue → Queue) : (s.modQue i f).syncs = s.syncs := rfl
@[simp] theorem modQue_bundles (s : State) (i : Nat) (f : Queue → Queue) : (s.modQue i f).bundles = s.bundles := rfl
@[simp] theorem modQue_coldSweep (s : State) (i : Nat) (f : Queue → Queue) : (s.modQue i f).coldSweep = s.coldSweep := rfl
@[simp] theorem modQue_bgroups (s : State) (i : Nat) (f : Queue → Queue) : (s.modQue i f).bgroups = s.bgroups := rfl
@[simp] theorem modQue_govs (s : State) (i : Nat) (f : Queue → Queue) : (s.modQue i f).govs = s.govs := rfl
@[simp] theorem modQue_probes (s : State) (i : Nat) (f : Queue → Queue) : (s.modQue i f).probes = s.probes := rfl
@[simp] theorem modQue_vmons (s : State) (i : Nat) (f : Queue → Queue) : (s.modQue i f).vmons = s.vmons := rfl
@[simp] theorem modQue_pwr (s : State) (i : Nat) (f : Queue → Queue) : (s.modQue i f).pwr = s.pwr := rfl
@[simp] theorem modQue_sens (s : State) (i : Nat) (f : Queue → Queue) : (s.modQue i f).sens = s.sens := rfl
@[simp] theorem modQue_thm (s : State) (i : Nat) (f : Queue → Queue) : (s.modQue i f).thm = s.thm := rfl
@[simp] theorem modQue_ports (s : State) (i : Nat) (f : Queue → Queue) : (s.modQue i f).ports = s.ports := rfl
@[simp] theorem modQue_lanes (s : State) (i : Nat) (f : Queue → Queue) : (s.modQue i f).lanes = s.lanes := rfl
@[simp] theorem modQue_net (s : State) (i : Nat) (f : Queue → Queue) : (s.modQue i f).net = s.net := rfl
@[simp] theorem modQue_bru (s : State) (i : Nat) (f : Queue → Queue) : (s.modQue i f).bru = s.bru := rfl
@[simp] theorem modQue_rst (s : State) (i : Nat) (f : Queue → Queue) : (s.modQue i f).rst = s.rst := rfl
@[simp] theorem modQue_board (s : State) (i : Nat) (f : Queue → Queue) : (s.modQue i f).board = s.board := rfl
@[simp] theorem modQue_tick (s : State) (i : Nat) (f : Queue → Queue) : (s.modQue i f).tick = s.tick := rfl
@[simp] theorem modQue_tx (s : State) (i : Nat) (f : Queue → Queue) : (s.modQue i f).tx = s.tx := rfl
@[simp] theorem modQue_pending (s : State) (i : Nat) (f : Queue → Queue) : (s.modQue i f).pending = s.pending := rfl
@[simp] theorem getAry_modQue (s : State) (i j : Nat) (f : Queue → Queue) : (s.modQue i f).getAry j = s.getAry j := rfl
@[simp] theorem getGrp_modQue (s : State) (i j : Nat) (f : Queue → Queue) : (s.modQue i f).getGrp j = s.getGrp j := rfl
@[simp] theorem getSite_modQue (s : State) (i j : Nat) (f : Queue → Queue) : (s.modQue i f).getSite j = s.getSite j := rfl
@[simp] theorem getDma_modQue (s : State) (i j : Nat) (f : Queue → Queue) : (s.modQue i f).getDma j = s.getDma j := rfl
@[simp] theorem getSlc_modQue (s : State) (i j : Nat) (f : Queue → Queue) : (s.modQue i f).getSlc j = s.getSlc j := rfl
@[simp] theorem getMCh_modQue (s : State) (i j : Nat) (f : Queue → Queue) : (s.modQue i f).getMCh j = s.getMCh j := rfl
@[simp] theorem getCtx_modQue (s : State) (i j : Nat) (f : Queue → Queue) : (s.modQue i f).getCtx j = s.getCtx j := rfl
@[simp] theorem getXrq_modQue (s : State) (i j : Nat) (f : Queue → Queue) : (s.modQue i f).getXrq j = s.getXrq j := rfl
@[simp] theorem getPart_modQue (s : State) (i j : Nat) (f : Queue → Queue) : (s.modQue i f).getPart j = s.getPart j := rfl
@[simp] theorem getSyn_modQue (s : State) (i j : Nat) (f : Queue → Queue) : (s.modQue i f).getSyn j = s.getSyn j := rfl
@[simp] theorem getBun_modQue (s : State) (i j : Nat) (f : Queue → Queue) : (s.modQue i f).getBun j = s.getBun j := rfl
@[simp] theorem getBgr_modQue (s : State) (i j : Nat) (f : Queue → Queue) : (s.modQue i f).getBgr j = s.getBgr j := rfl
@[simp] theorem getGov_modQue (s : State) (i j : Nat) (f : Queue → Queue) : (s.modQue i f).getGov j = s.getGov j := rfl
@[simp] theorem getPrb_modQue (s : State) (i j : Nat) (f : Queue → Queue) : (s.modQue i f).getPrb j = s.getPrb j := rfl
@[simp] theorem getVmn_modQue (s : State) (i j : Nat) (f : Queue → Queue) : (s.modQue i f).getVmn j = s.getVmn j := rfl
@[simp] theorem getSen_modQue (s : State) (i j : Nat) (f : Queue → Queue) : (s.modQue i f).getSen j = s.getSen j := rfl
@[simp] theorem getPort_modQue (s : State) (i j : Nat) (f : Queue → Queue) : (s.modQue i f).getPort j = s.getPort j := rfl
@[simp] theorem getLane_modQue (s : State) (i j : Nat) (f : Queue → Queue) : (s.modQue i f).getLane j = s.getLane j := rfl
@[simp] theorem memWf_modQue (s : State) (i : Nat) (f : Queue → Queue) : (s.modQue i f).memWf = s.memWf := rfl

/-! #### `modSyn` -/

@[simp] theorem getSyn_modSyn_self (s : State) (i : Nat) (f : SyncObj → SyncObj) : (s.modSyn i f).getSyn i = f (s.getSyn i) := get_mod_self _ _ _ _
theorem getSyn_modSyn_ne (s : State) {i j : Nat} (f : SyncObj → SyncObj) (h : j ≠ i) : (s.modSyn i f).getSyn j = s.getSyn j := get_mod_ne _ _ _ h
@[simp] theorem modSyn_skt (s : State) (i : Nat) (f : SyncObj → SyncObj) : (s.modSyn i f).skt = s.skt := rfl
@[simp] theorem modSyn_sel (s : State) (i : Nat) (f : SyncObj → SyncObj) : (s.modSyn i f).sel = s.sel := rfl
@[simp] theorem modSyn_synLatch (s : State) (i : Nat) (f : SyncObj → SyncObj) : (s.modSyn i f).synLatch = s.synLatch := rfl
@[simp] theorem modSyn_winTok (s : State) (i : Nat) (f : SyncObj → SyncObj) : (s.modSyn i f).winTok = s.winTok := rfl
@[simp] theorem modSyn_hst (s : State) (i : Nat) (f : SyncObj → SyncObj) : (s.modSyn i f).hst = s.hst := rfl
@[simp] theorem modSyn_pcie (s : State) (i : Nat) (f : SyncObj → SyncObj) : (s.modSyn i f).pcie = s.pcie := rfl
@[simp] theorem modSyn_fuses (s : State) (i : Nat) (f : SyncObj → SyncObj) : (s.modSyn i f).fuses = s.fuses := rfl
@[simp] theorem modSyn_arys (s : State) (i : Nat) (f : SyncObj → SyncObj) : (s.modSyn i f).arys = s.arys := rfl
@[simp] theorem modSyn_groups (s : State) (i : Nat) (f : SyncObj → SyncObj) : (s.modSyn i f).groups = s.groups := rfl
@[simp] theorem modSyn_sites (s : State) (i : Nat) (f : SyncObj → SyncObj) : (s.modSyn i f).sites = s.sites := rfl
@[simp] theorem modSyn_dmas (s : State) (i : Nat) (f : SyncObj → SyncObj) : (s.modSyn i f).dmas = s.dmas := rfl
@[simp] theorem modSyn_slices (s : State) (i : Nat) (f : SyncObj → SyncObj) : (s.modSyn i f).slices = s.slices := rfl
@[simp] theorem modSyn_lss (s : State) (i : Nat) (f : SyncObj → SyncObj) : (s.modSyn i f).lss = s.lss := rfl
@[simp] theorem modSyn_loess (s : State) (i : Nat) (f : SyncObj → SyncObj) : (s.modSyn i f).loess = s.loess := rfl
@[simp] theorem modSyn_loessBad (s : State) (i : Nat) (f : SyncObj → SyncObj) : (s.modSyn i f).loessBad = s.loessBad := rfl
@[simp] theorem modSyn_seams (s : State) (i : Nat) (f : SyncObj → SyncObj) : (s.modSyn i f).seams = s.seams := rfl
@[simp] theorem modSyn_routers (s : State) (i : Nat) (f : SyncObj → SyncObj) : (s.modSyn i f).routers = s.routers := rfl
@[simp] theorem modSyn_mchans (s : State) (i : Nat) (f : SyncObj → SyncObj) : (s.modSyn i f).mchans = s.mchans := rfl
@[simp] theorem modSyn_mrl (s : State) (i : Nat) (f : SyncObj → SyncObj) : (s.modSyn i f).mrl = s.mrl := rfl
@[simp] theorem modSyn_marl (s : State) (i : Nat) (f : SyncObj → SyncObj) : (s.modSyn i f).marl = s.marl := rfl
@[simp] theorem modSyn_marlBad (s : State) (i : Nat) (f : SyncObj → SyncObj) : (s.modSyn i f).marlBad = s.marlBad := rfl
@[simp] theorem modSyn_ctxs (s : State) (i : Nat) (f : SyncObj → SyncObj) : (s.modSyn i f).ctxs = s.ctxs := rfl
@[simp] theorem modSyn_xreqs (s : State) (i : Nat) (f : SyncObj → SyncObj) : (s.modSyn i f).xreqs = s.xreqs := rfl
@[simp] theorem modSyn_aborts (s : State) (i : Nat) (f : SyncObj → SyncObj) : (s.modSyn i f).aborts = s.aborts := rfl
@[simp] theorem modSyn_parts (s : State) (i : Nat) (f : SyncObj → SyncObj) : (s.modSyn i f).parts = s.parts := rfl
@[simp] theorem modSyn_svc (s : State) (i : Nat) (f : SyncObj → SyncObj) : (s.modSyn i f).svc = s.svc := rfl
@[simp] theorem modSyn_queues (s : State) (i : Nat) (f : SyncObj → SyncObj) : (s.modSyn i f).queues = s.queues := rfl
@[simp] theorem modSyn_bundles (s : State) (i : Nat) (f : SyncObj → SyncObj) : (s.modSyn i f).bundles = s.bundles := rfl
@[simp] theorem modSyn_coldSweep (s : State) (i : Nat) (f : SyncObj → SyncObj) : (s.modSyn i f).coldSweep = s.coldSweep := rfl
@[simp] theorem modSyn_bgroups (s : State) (i : Nat) (f : SyncObj → SyncObj) : (s.modSyn i f).bgroups = s.bgroups := rfl
@[simp] theorem modSyn_govs (s : State) (i : Nat) (f : SyncObj → SyncObj) : (s.modSyn i f).govs = s.govs := rfl
@[simp] theorem modSyn_probes (s : State) (i : Nat) (f : SyncObj → SyncObj) : (s.modSyn i f).probes = s.probes := rfl
@[simp] theorem modSyn_vmons (s : State) (i : Nat) (f : SyncObj → SyncObj) : (s.modSyn i f).vmons = s.vmons := rfl
@[simp] theorem modSyn_pwr (s : State) (i : Nat) (f : SyncObj → SyncObj) : (s.modSyn i f).pwr = s.pwr := rfl
@[simp] theorem modSyn_sens (s : State) (i : Nat) (f : SyncObj → SyncObj) : (s.modSyn i f).sens = s.sens := rfl
@[simp] theorem modSyn_thm (s : State) (i : Nat) (f : SyncObj → SyncObj) : (s.modSyn i f).thm = s.thm := rfl
@[simp] theorem modSyn_ports (s : State) (i : Nat) (f : SyncObj → SyncObj) : (s.modSyn i f).ports = s.ports := rfl
@[simp] theorem modSyn_lanes (s : State) (i : Nat) (f : SyncObj → SyncObj) : (s.modSyn i f).lanes = s.lanes := rfl
@[simp] theorem modSyn_net (s : State) (i : Nat) (f : SyncObj → SyncObj) : (s.modSyn i f).net = s.net := rfl
@[simp] theorem modSyn_bru (s : State) (i : Nat) (f : SyncObj → SyncObj) : (s.modSyn i f).bru = s.bru := rfl
@[simp] theorem modSyn_rst (s : State) (i : Nat) (f : SyncObj → SyncObj) : (s.modSyn i f).rst = s.rst := rfl
@[simp] theorem modSyn_board (s : State) (i : Nat) (f : SyncObj → SyncObj) : (s.modSyn i f).board = s.board := rfl
@[simp] theorem modSyn_tick (s : State) (i : Nat) (f : SyncObj → SyncObj) : (s.modSyn i f).tick = s.tick := rfl
@[simp] theorem modSyn_tx (s : State) (i : Nat) (f : SyncObj → SyncObj) : (s.modSyn i f).tx = s.tx := rfl
@[simp] theorem modSyn_pending (s : State) (i : Nat) (f : SyncObj → SyncObj) : (s.modSyn i f).pending = s.pending := rfl
@[simp] theorem getAry_modSyn (s : State) (i j : Nat) (f : SyncObj → SyncObj) : (s.modSyn i f).getAry j = s.getAry j := rfl
@[simp] theorem getGrp_modSyn (s : State) (i j : Nat) (f : SyncObj → SyncObj) : (s.modSyn i f).getGrp j = s.getGrp j := rfl
@[simp] theorem getSite_modSyn (s : State) (i j : Nat) (f : SyncObj → SyncObj) : (s.modSyn i f).getSite j = s.getSite j := rfl
@[simp] theorem getDma_modSyn (s : State) (i j : Nat) (f : SyncObj → SyncObj) : (s.modSyn i f).getDma j = s.getDma j := rfl
@[simp] theorem getSlc_modSyn (s : State) (i j : Nat) (f : SyncObj → SyncObj) : (s.modSyn i f).getSlc j = s.getSlc j := rfl
@[simp] theorem getMCh_modSyn (s : State) (i j : Nat) (f : SyncObj → SyncObj) : (s.modSyn i f).getMCh j = s.getMCh j := rfl
@[simp] theorem getCtx_modSyn (s : State) (i j : Nat) (f : SyncObj → SyncObj) : (s.modSyn i f).getCtx j = s.getCtx j := rfl
@[simp] theorem getXrq_modSyn (s : State) (i j : Nat) (f : SyncObj → SyncObj) : (s.modSyn i f).getXrq j = s.getXrq j := rfl
@[simp] theorem getPart_modSyn (s : State) (i j : Nat) (f : SyncObj → SyncObj) : (s.modSyn i f).getPart j = s.getPart j := rfl
@[simp] theorem getQue_modSyn (s : State) (i j : Nat) (f : SyncObj → SyncObj) : (s.modSyn i f).getQue j = s.getQue j := rfl
@[simp] theorem getBun_modSyn (s : State) (i j : Nat) (f : SyncObj → SyncObj) : (s.modSyn i f).getBun j = s.getBun j := rfl
@[simp] theorem getBgr_modSyn (s : State) (i j : Nat) (f : SyncObj → SyncObj) : (s.modSyn i f).getBgr j = s.getBgr j := rfl
@[simp] theorem getGov_modSyn (s : State) (i j : Nat) (f : SyncObj → SyncObj) : (s.modSyn i f).getGov j = s.getGov j := rfl
@[simp] theorem getPrb_modSyn (s : State) (i j : Nat) (f : SyncObj → SyncObj) : (s.modSyn i f).getPrb j = s.getPrb j := rfl
@[simp] theorem getVmn_modSyn (s : State) (i j : Nat) (f : SyncObj → SyncObj) : (s.modSyn i f).getVmn j = s.getVmn j := rfl
@[simp] theorem getSen_modSyn (s : State) (i j : Nat) (f : SyncObj → SyncObj) : (s.modSyn i f).getSen j = s.getSen j := rfl
@[simp] theorem getPort_modSyn (s : State) (i j : Nat) (f : SyncObj → SyncObj) : (s.modSyn i f).getPort j = s.getPort j := rfl
@[simp] theorem getLane_modSyn (s : State) (i j : Nat) (f : SyncObj → SyncObj) : (s.modSyn i f).getLane j = s.getLane j := rfl
@[simp] theorem memWf_modSyn (s : State) (i : Nat) (f : SyncObj → SyncObj) : (s.modSyn i f).memWf = s.memWf := rfl

/-! #### `modBun` -/

@[simp] theorem getBun_modBun_self (s : State) (i : Nat) (f : Bundle → Bundle) : (s.modBun i f).getBun i = f (s.getBun i) := get_mod_self _ _ _ _
theorem getBun_modBun_ne (s : State) {i j : Nat} (f : Bundle → Bundle) (h : j ≠ i) : (s.modBun i f).getBun j = s.getBun j := get_mod_ne' _ _ _ _ h
@[simp] theorem modBun_skt (s : State) (i : Nat) (f : Bundle → Bundle) : (s.modBun i f).skt = s.skt := rfl
@[simp] theorem modBun_sel (s : State) (i : Nat) (f : Bundle → Bundle) : (s.modBun i f).sel = s.sel := rfl
@[simp] theorem modBun_synLatch (s : State) (i : Nat) (f : Bundle → Bundle) : (s.modBun i f).synLatch = s.synLatch := rfl
@[simp] theorem modBun_winTok (s : State) (i : Nat) (f : Bundle → Bundle) : (s.modBun i f).winTok = s.winTok := rfl
@[simp] theorem modBun_hst (s : State) (i : Nat) (f : Bundle → Bundle) : (s.modBun i f).hst = s.hst := rfl
@[simp] theorem modBun_pcie (s : State) (i : Nat) (f : Bundle → Bundle) : (s.modBun i f).pcie = s.pcie := rfl
@[simp] theorem modBun_fuses (s : State) (i : Nat) (f : Bundle → Bundle) : (s.modBun i f).fuses = s.fuses := rfl
@[simp] theorem modBun_arys (s : State) (i : Nat) (f : Bundle → Bundle) : (s.modBun i f).arys = s.arys := rfl
@[simp] theorem modBun_groups (s : State) (i : Nat) (f : Bundle → Bundle) : (s.modBun i f).groups = s.groups := rfl
@[simp] theorem modBun_sites (s : State) (i : Nat) (f : Bundle → Bundle) : (s.modBun i f).sites = s.sites := rfl
@[simp] theorem modBun_dmas (s : State) (i : Nat) (f : Bundle → Bundle) : (s.modBun i f).dmas = s.dmas := rfl
@[simp] theorem modBun_slices (s : State) (i : Nat) (f : Bundle → Bundle) : (s.modBun i f).slices = s.slices := rfl
@[simp] theorem modBun_lss (s : State) (i : Nat) (f : Bundle → Bundle) : (s.modBun i f).lss = s.lss := rfl
@[simp] theorem modBun_loess (s : State) (i : Nat) (f : Bundle → Bundle) : (s.modBun i f).loess = s.loess := rfl
@[simp] theorem modBun_loessBad (s : State) (i : Nat) (f : Bundle → Bundle) : (s.modBun i f).loessBad = s.loessBad := rfl
@[simp] theorem modBun_seams (s : State) (i : Nat) (f : Bundle → Bundle) : (s.modBun i f).seams = s.seams := rfl
@[simp] theorem modBun_routers (s : State) (i : Nat) (f : Bundle → Bundle) : (s.modBun i f).routers = s.routers := rfl
@[simp] theorem modBun_mchans (s : State) (i : Nat) (f : Bundle → Bundle) : (s.modBun i f).mchans = s.mchans := rfl
@[simp] theorem modBun_mrl (s : State) (i : Nat) (f : Bundle → Bundle) : (s.modBun i f).mrl = s.mrl := rfl
@[simp] theorem modBun_marl (s : State) (i : Nat) (f : Bundle → Bundle) : (s.modBun i f).marl = s.marl := rfl
@[simp] theorem modBun_marlBad (s : State) (i : Nat) (f : Bundle → Bundle) : (s.modBun i f).marlBad = s.marlBad := rfl
@[simp] theorem modBun_ctxs (s : State) (i : Nat) (f : Bundle → Bundle) : (s.modBun i f).ctxs = s.ctxs := rfl
@[simp] theorem modBun_xreqs (s : State) (i : Nat) (f : Bundle → Bundle) : (s.modBun i f).xreqs = s.xreqs := rfl
@[simp] theorem modBun_aborts (s : State) (i : Nat) (f : Bundle → Bundle) : (s.modBun i f).aborts = s.aborts := rfl
@[simp] theorem modBun_parts (s : State) (i : Nat) (f : Bundle → Bundle) : (s.modBun i f).parts = s.parts := rfl
@[simp] theorem modBun_svc (s : State) (i : Nat) (f : Bundle → Bundle) : (s.modBun i f).svc = s.svc := rfl
@[simp] theorem modBun_queues (s : State) (i : Nat) (f : Bundle → Bundle) : (s.modBun i f).queues = s.queues := rfl
@[simp] theorem modBun_syncs (s : State) (i : Nat) (f : Bundle → Bundle) : (s.modBun i f).syncs = s.syncs := rfl
@[simp] theorem modBun_coldSweep (s : State) (i : Nat) (f : Bundle → Bundle) : (s.modBun i f).coldSweep = s.coldSweep := rfl
@[simp] theorem modBun_bgroups (s : State) (i : Nat) (f : Bundle → Bundle) : (s.modBun i f).bgroups = s.bgroups := rfl
@[simp] theorem modBun_govs (s : State) (i : Nat) (f : Bundle → Bundle) : (s.modBun i f).govs = s.govs := rfl
@[simp] theorem modBun_probes (s : State) (i : Nat) (f : Bundle → Bundle) : (s.modBun i f).probes = s.probes := rfl
@[simp] theorem modBun_vmons (s : State) (i : Nat) (f : Bundle → Bundle) : (s.modBun i f).vmons = s.vmons := rfl
@[simp] theorem modBun_pwr (s : State) (i : Nat) (f : Bundle → Bundle) : (s.modBun i f).pwr = s.pwr := rfl
@[simp] theorem modBun_sens (s : State) (i : Nat) (f : Bundle → Bundle) : (s.modBun i f).sens = s.sens := rfl
@[simp] theorem modBun_thm (s : State) (i : Nat) (f : Bundle → Bundle) : (s.modBun i f).thm = s.thm := rfl
@[simp] theorem modBun_ports (s : State) (i : Nat) (f : Bundle → Bundle) : (s.modBun i f).ports = s.ports := rfl
@[simp] theorem modBun_lanes (s : State) (i : Nat) (f : Bundle → Bundle) : (s.modBun i f).lanes = s.lanes := rfl
@[simp] theorem modBun_net (s : State) (i : Nat) (f : Bundle → Bundle) : (s.modBun i f).net = s.net := rfl
@[simp] theorem modBun_bru (s : State) (i : Nat) (f : Bundle → Bundle) : (s.modBun i f).bru = s.bru := rfl
@[simp] theorem modBun_rst (s : State) (i : Nat) (f : Bundle → Bundle) : (s.modBun i f).rst = s.rst := rfl
@[simp] theorem modBun_board (s : State) (i : Nat) (f : Bundle → Bundle) : (s.modBun i f).board = s.board := rfl
@[simp] theorem modBun_tick (s : State) (i : Nat) (f : Bundle → Bundle) : (s.modBun i f).tick = s.tick := rfl
@[simp] theorem modBun_tx (s : State) (i : Nat) (f : Bundle → Bundle) : (s.modBun i f).tx = s.tx := rfl
@[simp] theorem modBun_pending (s : State) (i : Nat) (f : Bundle → Bundle) : (s.modBun i f).pending = s.pending := rfl
@[simp] theorem getAry_modBun (s : State) (i j : Nat) (f : Bundle → Bundle) : (s.modBun i f).getAry j = s.getAry j := rfl
@[simp] theorem getGrp_modBun (s : State) (i j : Nat) (f : Bundle → Bundle) : (s.modBun i f).getGrp j = s.getGrp j := rfl
@[simp] theorem getSite_modBun (s : State) (i j : Nat) (f : Bundle → Bundle) : (s.modBun i f).getSite j = s.getSite j := rfl
@[simp] theorem getDma_modBun (s : State) (i j : Nat) (f : Bundle → Bundle) : (s.modBun i f).getDma j = s.getDma j := rfl
@[simp] theorem getSlc_modBun (s : State) (i j : Nat) (f : Bundle → Bundle) : (s.modBun i f).getSlc j = s.getSlc j := rfl
@[simp] theorem getMCh_modBun (s : State) (i j : Nat) (f : Bundle → Bundle) : (s.modBun i f).getMCh j = s.getMCh j := rfl
@[simp] theorem getCtx_modBun (s : State) (i j : Nat) (f : Bundle → Bundle) : (s.modBun i f).getCtx j = s.getCtx j := rfl
@[simp] theorem getXrq_modBun (s : State) (i j : Nat) (f : Bundle → Bundle) : (s.modBun i f).getXrq j = s.getXrq j := rfl
@[simp] theorem getPart_modBun (s : State) (i j : Nat) (f : Bundle → Bundle) : (s.modBun i f).getPart j = s.getPart j := rfl
@[simp] theorem getQue_modBun (s : State) (i j : Nat) (f : Bundle → Bundle) : (s.modBun i f).getQue j = s.getQue j := rfl
@[simp] theorem getSyn_modBun (s : State) (i j : Nat) (f : Bundle → Bundle) : (s.modBun i f).getSyn j = s.getSyn j := rfl
@[simp] theorem getBgr_modBun (s : State) (i j : Nat) (f : Bundle → Bundle) : (s.modBun i f).getBgr j = s.getBgr j := rfl
@[simp] theorem getGov_modBun (s : State) (i j : Nat) (f : Bundle → Bundle) : (s.modBun i f).getGov j = s.getGov j := rfl
@[simp] theorem getPrb_modBun (s : State) (i j : Nat) (f : Bundle → Bundle) : (s.modBun i f).getPrb j = s.getPrb j := rfl
@[simp] theorem getVmn_modBun (s : State) (i j : Nat) (f : Bundle → Bundle) : (s.modBun i f).getVmn j = s.getVmn j := rfl
@[simp] theorem getSen_modBun (s : State) (i j : Nat) (f : Bundle → Bundle) : (s.modBun i f).getSen j = s.getSen j := rfl
@[simp] theorem getPort_modBun (s : State) (i j : Nat) (f : Bundle → Bundle) : (s.modBun i f).getPort j = s.getPort j := rfl
@[simp] theorem getLane_modBun (s : State) (i j : Nat) (f : Bundle → Bundle) : (s.modBun i f).getLane j = s.getLane j := rfl
@[simp] theorem memWf_modBun (s : State) (i : Nat) (f : Bundle → Bundle) : (s.modBun i f).memWf = s.memWf := rfl

/-! #### `modBgr` -/

@[simp] theorem getBgr_modBgr_self (s : State) (i : Nat) (f : BundleGroup → BundleGroup) : (s.modBgr i f).getBgr i = f (s.getBgr i) := get_mod_self _ _ _ _
theorem getBgr_modBgr_ne (s : State) {i j : Nat} (f : BundleGroup → BundleGroup) (h : j ≠ i) : (s.modBgr i f).getBgr j = s.getBgr j := get_mod_ne _ _ _ h
@[simp] theorem modBgr_skt (s : State) (i : Nat) (f : BundleGroup → BundleGroup) : (s.modBgr i f).skt = s.skt := rfl
@[simp] theorem modBgr_sel (s : State) (i : Nat) (f : BundleGroup → BundleGroup) : (s.modBgr i f).sel = s.sel := rfl
@[simp] theorem modBgr_synLatch (s : State) (i : Nat) (f : BundleGroup → BundleGroup) : (s.modBgr i f).synLatch = s.synLatch := rfl
@[simp] theorem modBgr_winTok (s : State) (i : Nat) (f : BundleGroup → BundleGroup) : (s.modBgr i f).winTok = s.winTok := rfl
@[simp] theorem modBgr_hst (s : State) (i : Nat) (f : BundleGroup → BundleGroup) : (s.modBgr i f).hst = s.hst := rfl
@[simp] theorem modBgr_pcie (s : State) (i : Nat) (f : BundleGroup → BundleGroup) : (s.modBgr i f).pcie = s.pcie := rfl
@[simp] theorem modBgr_fuses (s : State) (i : Nat) (f : BundleGroup → BundleGroup) : (s.modBgr i f).fuses = s.fuses := rfl
@[simp] theorem modBgr_arys (s : State) (i : Nat) (f : BundleGroup → BundleGroup) : (s.modBgr i f).arys = s.arys := rfl
@[simp] theorem modBgr_groups (s : State) (i : Nat) (f : BundleGroup → BundleGroup) : (s.modBgr i f).groups = s.groups := rfl
@[simp] theorem modBgr_sites (s : State) (i : Nat) (f : BundleGroup → BundleGroup) : (s.modBgr i f).sites = s.sites := rfl
@[simp] theorem modBgr_dmas (s : State) (i : Nat) (f : BundleGroup → BundleGroup) : (s.modBgr i f).dmas = s.dmas := rfl
@[simp] theorem modBgr_slices (s : State) (i : Nat) (f : BundleGroup → BundleGroup) : (s.modBgr i f).slices = s.slices := rfl
@[simp] theorem modBgr_lss (s : State) (i : Nat) (f : BundleGroup → BundleGroup) : (s.modBgr i f).lss = s.lss := rfl
@[simp] theorem modBgr_loess (s : State) (i : Nat) (f : BundleGroup → BundleGroup) : (s.modBgr i f).loess = s.loess := rfl
@[simp] theorem modBgr_loessBad (s : State) (i : Nat) (f : BundleGroup → BundleGroup) : (s.modBgr i f).loessBad = s.loessBad := rfl
@[simp] theorem modBgr_seams (s : State) (i : Nat) (f : BundleGroup → BundleGroup) : (s.modBgr i f).seams = s.seams := rfl
@[simp] theorem modBgr_routers (s : State) (i : Nat) (f : BundleGroup → BundleGroup) : (s.modBgr i f).routers = s.routers := rfl
@[simp] theorem modBgr_mchans (s : State) (i : Nat) (f : BundleGroup → BundleGroup) : (s.modBgr i f).mchans = s.mchans := rfl
@[simp] theorem modBgr_mrl (s : State) (i : Nat) (f : BundleGroup → BundleGroup) : (s.modBgr i f).mrl = s.mrl := rfl
@[simp] theorem modBgr_marl (s : State) (i : Nat) (f : BundleGroup → BundleGroup) : (s.modBgr i f).marl = s.marl := rfl
@[simp] theorem modBgr_marlBad (s : State) (i : Nat) (f : BundleGroup → BundleGroup) : (s.modBgr i f).marlBad = s.marlBad := rfl
@[simp] theorem modBgr_ctxs (s : State) (i : Nat) (f : BundleGroup → BundleGroup) : (s.modBgr i f).ctxs = s.ctxs := rfl
@[simp] theorem modBgr_xreqs (s : State) (i : Nat) (f : BundleGroup → BundleGroup) : (s.modBgr i f).xreqs = s.xreqs := rfl
@[simp] theorem modBgr_aborts (s : State) (i : Nat) (f : BundleGroup → BundleGroup) : (s.modBgr i f).aborts = s.aborts := rfl
@[simp] theorem modBgr_parts (s : State) (i : Nat) (f : BundleGroup → BundleGroup) : (s.modBgr i f).parts = s.parts := rfl
@[simp] theorem modBgr_svc (s : State) (i : Nat) (f : BundleGroup → BundleGroup) : (s.modBgr i f).svc = s.svc := rfl
@[simp] theorem modBgr_queues (s : State) (i : Nat) (f : BundleGroup → BundleGroup) : (s.modBgr i f).queues = s.queues := rfl
@[simp] theorem modBgr_syncs (s : State) (i : Nat) (f : BundleGroup → BundleGroup) : (s.modBgr i f).syncs = s.syncs := rfl
@[simp] theorem modBgr_bundles (s : State) (i : Nat) (f : BundleGroup → BundleGroup) : (s.modBgr i f).bundles = s.bundles := rfl
@[simp] theorem modBgr_coldSweep (s : State) (i : Nat) (f : BundleGroup → BundleGroup) : (s.modBgr i f).coldSweep = s.coldSweep := rfl
@[simp] theorem modBgr_govs (s : State) (i : Nat) (f : BundleGroup → BundleGroup) : (s.modBgr i f).govs = s.govs := rfl
@[simp] theorem modBgr_probes (s : State) (i : Nat) (f : BundleGroup → BundleGroup) : (s.modBgr i f).probes = s.probes := rfl
@[simp] theorem modBgr_vmons (s : State) (i : Nat) (f : BundleGroup → BundleGroup) : (s.modBgr i f).vmons = s.vmons := rfl
@[simp] theorem modBgr_pwr (s : State) (i : Nat) (f : BundleGroup → BundleGroup) : (s.modBgr i f).pwr = s.pwr := rfl
@[simp] theorem modBgr_sens (s : State) (i : Nat) (f : BundleGroup → BundleGroup) : (s.modBgr i f).sens = s.sens := rfl
@[simp] theorem modBgr_thm (s : State) (i : Nat) (f : BundleGroup → BundleGroup) : (s.modBgr i f).thm = s.thm := rfl
@[simp] theorem modBgr_ports (s : State) (i : Nat) (f : BundleGroup → BundleGroup) : (s.modBgr i f).ports = s.ports := rfl
@[simp] theorem modBgr_lanes (s : State) (i : Nat) (f : BundleGroup → BundleGroup) : (s.modBgr i f).lanes = s.lanes := rfl
@[simp] theorem modBgr_net (s : State) (i : Nat) (f : BundleGroup → BundleGroup) : (s.modBgr i f).net = s.net := rfl
@[simp] theorem modBgr_bru (s : State) (i : Nat) (f : BundleGroup → BundleGroup) : (s.modBgr i f).bru = s.bru := rfl
@[simp] theorem modBgr_rst (s : State) (i : Nat) (f : BundleGroup → BundleGroup) : (s.modBgr i f).rst = s.rst := rfl
@[simp] theorem modBgr_board (s : State) (i : Nat) (f : BundleGroup → BundleGroup) : (s.modBgr i f).board = s.board := rfl
@[simp] theorem modBgr_tick (s : State) (i : Nat) (f : BundleGroup → BundleGroup) : (s.modBgr i f).tick = s.tick := rfl
@[simp] theorem modBgr_tx (s : State) (i : Nat) (f : BundleGroup → BundleGroup) : (s.modBgr i f).tx = s.tx := rfl
@[simp] theorem modBgr_pending (s : State) (i : Nat) (f : BundleGroup → BundleGroup) : (s.modBgr i f).pending = s.pending := rfl
@[simp] theorem getAry_modBgr (s : State) (i j : Nat) (f : BundleGroup → BundleGroup) : (s.modBgr i f).getAry j = s.getAry j := rfl
@[simp] theorem getGrp_modBgr (s : State) (i j : Nat) (f : BundleGroup → BundleGroup) : (s.modBgr i f).getGrp j = s.getGrp j := rfl
@[simp] theorem getSite_modBgr (s : State) (i j : Nat) (f : BundleGroup → BundleGroup) : (s.modBgr i f).getSite j = s.getSite j := rfl
@[simp] theorem getDma_modBgr (s : State) (i j : Nat) (f : BundleGroup → BundleGroup) : (s.modBgr i f).getDma j = s.getDma j := rfl
@[simp] theorem getSlc_modBgr (s : State) (i j : Nat) (f : BundleGroup → BundleGroup) : (s.modBgr i f).getSlc j = s.getSlc j := rfl
@[simp] theorem getMCh_modBgr (s : State) (i j : Nat) (f : BundleGroup → BundleGroup) : (s.modBgr i f).getMCh j = s.getMCh j := rfl
@[simp] theorem getCtx_modBgr (s : State) (i j : Nat) (f : BundleGroup → BundleGroup) : (s.modBgr i f).getCtx j = s.getCtx j := rfl
@[simp] theorem getXrq_modBgr (s : State) (i j : Nat) (f : BundleGroup → BundleGroup) : (s.modBgr i f).getXrq j = s.getXrq j := rfl
@[simp] theorem getPart_modBgr (s : State) (i j : Nat) (f : BundleGroup → BundleGroup) : (s.modBgr i f).getPart j = s.getPart j := rfl
@[simp] theorem getQue_modBgr (s : State) (i j : Nat) (f : BundleGroup → BundleGroup) : (s.modBgr i f).getQue j = s.getQue j := rfl
@[simp] theorem getSyn_modBgr (s : State) (i j : Nat) (f : BundleGroup → BundleGroup) : (s.modBgr i f).getSyn j = s.getSyn j := rfl
@[simp] theorem getBun_modBgr (s : State) (i j : Nat) (f : BundleGroup → BundleGroup) : (s.modBgr i f).getBun j = s.getBun j := rfl
@[simp] theorem getGov_modBgr (s : State) (i j : Nat) (f : BundleGroup → BundleGroup) : (s.modBgr i f).getGov j = s.getGov j := rfl
@[simp] theorem getPrb_modBgr (s : State) (i j : Nat) (f : BundleGroup → BundleGroup) : (s.modBgr i f).getPrb j = s.getPrb j := rfl
@[simp] theorem getVmn_modBgr (s : State) (i j : Nat) (f : BundleGroup → BundleGroup) : (s.modBgr i f).getVmn j = s.getVmn j := rfl
@[simp] theorem getSen_modBgr (s : State) (i j : Nat) (f : BundleGroup → BundleGroup) : (s.modBgr i f).getSen j = s.getSen j := rfl
@[simp] theorem getPort_modBgr (s : State) (i j : Nat) (f : BundleGroup → BundleGroup) : (s.modBgr i f).getPort j = s.getPort j := rfl
@[simp] theorem getLane_modBgr (s : State) (i j : Nat) (f : BundleGroup → BundleGroup) : (s.modBgr i f).getLane j = s.getLane j := rfl
@[simp] theorem memWf_modBgr (s : State) (i : Nat) (f : BundleGroup → BundleGroup) : (s.modBgr i f).memWf = s.memWf := rfl

/-! #### `modGov` -/

@[simp] theorem getGov_modGov_self (s : State) (i : Nat) (f : Gov → Gov) : (s.modGov i f).getGov i = f (s.getGov i) := get_mod_self _ _ _ _
theorem getGov_modGov_ne (s : State) {i j : Nat} (f : Gov → Gov) (h : j ≠ i) : (s.modGov i f).getGov j = s.getGov j := get_mod_ne _ _ _ h
@[simp] theorem modGov_skt (s : State) (i : Nat) (f : Gov → Gov) : (s.modGov i f).skt = s.skt := rfl
@[simp] theorem modGov_sel (s : State) (i : Nat) (f : Gov → Gov) : (s.modGov i f).sel = s.sel := rfl
@[simp] theorem modGov_synLatch (s : State) (i : Nat) (f : Gov → Gov) : (s.modGov i f).synLatch = s.synLatch := rfl
@[simp] theorem modGov_winTok (s : State) (i : Nat) (f : Gov → Gov) : (s.modGov i f).winTok = s.winTok := rfl
@[simp] theorem modGov_hst (s : State) (i : Nat) (f : Gov → Gov) : (s.modGov i f).hst = s.hst := rfl
@[simp] theorem modGov_pcie (s : State) (i : Nat) (f : Gov → Gov) : (s.modGov i f).pcie = s.pcie := rfl
@[simp] theorem modGov_fuses (s : State) (i : Nat) (f : Gov → Gov) : (s.modGov i f).fuses = s.fuses := rfl
@[simp] theorem modGov_arys (s : State) (i : Nat) (f : Gov → Gov) : (s.modGov i f).arys = s.arys := rfl
@[simp] theorem modGov_groups (s : State) (i : Nat) (f : Gov → Gov) : (s.modGov i f).groups = s.groups := rfl
@[simp] theorem modGov_sites (s : State) (i : Nat) (f : Gov → Gov) : (s.modGov i f).sites = s.sites := rfl
@[simp] theorem modGov_dmas (s : State) (i : Nat) (f : Gov → Gov) : (s.modGov i f).dmas = s.dmas := rfl
@[simp] theorem modGov_slices (s : State) (i : Nat) (f : Gov → Gov) : (s.modGov i f).slices = s.slices := rfl
@[simp] theorem modGov_lss (s : State) (i : Nat) (f : Gov → Gov) : (s.modGov i f).lss = s.lss := rfl
@[simp] theorem modGov_loess (s : State) (i : Nat) (f : Gov → Gov) : (s.modGov i f).loess = s.loess := rfl
@[simp] theorem modGov_loessBad (s : State) (i : Nat) (f : Gov → Gov) : (s.modGov i f).loessBad = s.loessBad := rfl
@[simp] theorem modGov_seams (s : State) (i : Nat) (f : Gov → Gov) : (s.modGov i f).seams = s.seams := rfl
@[simp] theorem modGov_routers (s : State) (i : Nat) (f : Gov → Gov) : (s.modGov i f).routers = s.routers := rfl
@[simp] theorem modGov_mchans (s : State) (i : Nat) (f : Gov → Gov) : (s.modGov i f).mchans = s.mchans := rfl
@[simp] theorem modGov_mrl (s : State) (i : Nat) (f : Gov → Gov) : (s.modGov i f).mrl = s.mrl := rfl
@[simp] theorem modGov_marl (s : State) (i : Nat) (f : Gov → Gov) : (s.modGov i f).marl = s.marl := rfl
@[simp] theorem modGov_marlBad (s : State) (i : Nat) (f : Gov → Gov) : (s.modGov i f).marlBad = s.marlBad := rfl
@[simp] theorem modGov_ctxs (s : State) (i : Nat) (f : Gov → Gov) : (s.modGov i f).ctxs = s.ctxs := rfl
@[simp] theorem modGov_xreqs (s : State) (i : Nat) (f : Gov → Gov) : (s.modGov i f).xreqs = s.xreqs := rfl
@[simp] theorem modGov_aborts (s : State) (i : Nat) (f : Gov → Gov) : (s.modGov i f).aborts = s.aborts := rfl
@[simp] theorem modGov_parts (s : State) (i : Nat) (f : Gov → Gov) : (s.modGov i f).parts = s.parts := rfl
@[simp] theorem modGov_svc (s : State) (i : Nat) (f : Gov → Gov) : (s.modGov i f).svc = s.svc := rfl
@[simp] theorem modGov_queues (s : State) (i : Nat) (f : Gov → Gov) : (s.modGov i f).queues = s.queues := rfl
@[simp] theorem modGov_syncs (s : State) (i : Nat) (f : Gov → Gov) : (s.modGov i f).syncs = s.syncs := rfl
@[simp] theorem modGov_bundles (s : State) (i : Nat) (f : Gov → Gov) : (s.modGov i f).bundles = s.bundles := rfl
@[simp] theorem modGov_coldSweep (s : State) (i : Nat) (f : Gov → Gov) : (s.modGov i f).coldSweep = s.coldSweep := rfl
@[simp] theorem modGov_bgroups (s : State) (i : Nat) (f : Gov → Gov) : (s.modGov i f).bgroups = s.bgroups := rfl
@[simp] theorem modGov_probes (s : State) (i : Nat) (f : Gov → Gov) : (s.modGov i f).probes = s.probes := rfl
@[simp] theorem modGov_vmons (s : State) (i : Nat) (f : Gov → Gov) : (s.modGov i f).vmons = s.vmons := rfl
@[simp] theorem modGov_pwr (s : State) (i : Nat) (f : Gov → Gov) : (s.modGov i f).pwr = s.pwr := rfl
@[simp] theorem modGov_sens (s : State) (i : Nat) (f : Gov → Gov) : (s.modGov i f).sens = s.sens := rfl
@[simp] theorem modGov_thm (s : State) (i : Nat) (f : Gov → Gov) : (s.modGov i f).thm = s.thm := rfl
@[simp] theorem modGov_ports (s : State) (i : Nat) (f : Gov → Gov) : (s.modGov i f).ports = s.ports := rfl
@[simp] theorem modGov_lanes (s : State) (i : Nat) (f : Gov → Gov) : (s.modGov i f).lanes = s.lanes := rfl
@[simp] theorem modGov_net (s : State) (i : Nat) (f : Gov → Gov) : (s.modGov i f).net = s.net := rfl
@[simp] theorem modGov_bru (s : State) (i : Nat) (f : Gov → Gov) : (s.modGov i f).bru = s.bru := rfl
@[simp] theorem modGov_rst (s : State) (i : Nat) (f : Gov → Gov) : (s.modGov i f).rst = s.rst := rfl
@[simp] theorem modGov_board (s : State) (i : Nat) (f : Gov → Gov) : (s.modGov i f).board = s.board := rfl
@[simp] theorem modGov_tick (s : State) (i : Nat) (f : Gov → Gov) : (s.modGov i f).tick = s.tick := rfl
@[simp] theorem modGov_tx (s : State) (i : Nat) (f : Gov → Gov) : (s.modGov i f).tx = s.tx := rfl
@[simp] theorem modGov_pending (s : State) (i : Nat) (f : Gov → Gov) : (s.modGov i f).pending = s.pending := rfl
@[simp] theorem getAry_modGov (s : State) (i j : Nat) (f : Gov → Gov) : (s.modGov i f).getAry j = s.getAry j := rfl
@[simp] theorem getGrp_modGov (s : State) (i j : Nat) (f : Gov → Gov) : (s.modGov i f).getGrp j = s.getGrp j := rfl
@[simp] theorem getSite_modGov (s : State) (i j : Nat) (f : Gov → Gov) : (s.modGov i f).getSite j = s.getSite j := rfl
@[simp] theorem getDma_modGov (s : State) (i j : Nat) (f : Gov → Gov) : (s.modGov i f).getDma j = s.getDma j := rfl
@[simp] theorem getSlc_modGov (s : State) (i j : Nat) (f : Gov → Gov) : (s.modGov i f).getSlc j = s.getSlc j := rfl
@[simp] theorem getMCh_modGov (s : State) (i j : Nat) (f : Gov → Gov) : (s.modGov i f).getMCh j = s.getMCh j := rfl
@[simp] theorem getCtx_modGov (s : State) (i j : Nat) (f : Gov → Gov) : (s.modGov i f).getCtx j = s.getCtx j := rfl
@[simp] theorem getXrq_modGov (s : State) (i j : Nat) (f : Gov → Gov) : (s.modGov i f).getXrq j = s.getXrq j := rfl
@[simp] theorem getPart_modGov (s : State) (i j : Nat) (f : Gov → Gov) : (s.modGov i f).getPart j = s.getPart j := rfl
@[simp] theorem getQue_modGov (s : State) (i j : Nat) (f : Gov → Gov) : (s.modGov i f).getQue j = s.getQue j := rfl
@[simp] theorem getSyn_modGov (s : State) (i j : Nat) (f : Gov → Gov) : (s.modGov i f).getSyn j = s.getSyn j := rfl
@[simp] theorem getBun_modGov (s : State) (i j : Nat) (f : Gov → Gov) : (s.modGov i f).getBun j = s.getBun j := rfl
@[simp] theorem getBgr_modGov (s : State) (i j : Nat) (f : Gov → Gov) : (s.modGov i f).getBgr j = s.getBgr j := rfl
@[simp] theorem getPrb_modGov (s : State) (i j : Nat) (f : Gov → Gov) : (s.modGov i f).getPrb j = s.getPrb j := rfl
@[simp] theorem getVmn_modGov (s : State) (i j : Nat) (f : Gov → Gov) : (s.modGov i f).getVmn j = s.getVmn j := rfl
@[simp] theorem getSen_modGov (s : State) (i j : Nat) (f : Gov → Gov) : (s.modGov i f).getSen j = s.getSen j := rfl
@[simp] theorem getPort_modGov (s : State) (i j : Nat) (f : Gov → Gov) : (s.modGov i f).getPort j = s.getPort j := rfl
@[simp] theorem getLane_modGov (s : State) (i j : Nat) (f : Gov → Gov) : (s.modGov i f).getLane j = s.getLane j := rfl
@[simp] theorem memWf_modGov (s : State) (i : Nat) (f : Gov → Gov) : (s.modGov i f).memWf = s.memWf := rfl

/-! #### `modPrb` -/

@[simp] theorem getPrb_modPrb_self (s : State) (i : Nat) (f : Probe → Probe) : (s.modPrb i f).getPrb i = f (s.getPrb i) := get_mod_self _ _ _ _
theorem getPrb_modPrb_ne (s : State) {i j : Nat} (f : Probe → Probe) (h : j ≠ i) : (s.modPrb i f).getPrb j = s.getPrb j := get_mod_ne _ _ _ h
@[simp] theorem modPrb_skt (s : State) (i : Nat) (f : Probe → Probe) : (s.modPrb i f).skt = s.skt := rfl
@[simp] theorem modPrb_sel (s : State) (i : Nat) (f : Probe → Probe) : (s.modPrb i f).sel = s.sel := rfl
@[simp] theorem modPrb_synLatch (s : State) (i : Nat) (f : Probe → Probe) : (s.modPrb i f).synLatch = s.synLatch := rfl
@[simp] theorem modPrb_winTok (s : State) (i : Nat) (f : Probe → Probe) : (s.modPrb i f).winTok = s.winTok := rfl
@[simp] theorem modPrb_hst (s : State) (i : Nat) (f : Probe → Probe) : (s.modPrb i f).hst = s.hst := rfl
@[simp] theorem modPrb_pcie (s : State) (i : Nat) (f : Probe → Probe) : (s.modPrb i f).pcie = s.pcie := rfl
@[simp] theorem modPrb_fuses (s : State) (i : Nat) (f : Probe → Probe) : (s.modPrb i f).fuses = s.fuses := rfl
@[simp] theorem modPrb_arys (s : State) (i : Nat) (f : Probe → Probe) : (s.modPrb i f).arys = s.arys := rfl
@[simp] theorem modPrb_groups (s : State) (i : Nat) (f : Probe → Probe) : (s.modPrb i f).groups = s.groups := rfl
@[simp] theorem modPrb_sites (s : State) (i : Nat) (f : Probe → Probe) : (s.modPrb i f).sites = s.sites := rfl
@[simp] theorem modPrb_dmas (s : State) (i : Nat) (f : Probe → Probe) : (s.modPrb i f).dmas = s.dmas := rfl
@[simp] theorem modPrb_slices (s : State) (i : Nat) (f : Probe → Probe) : (s.modPrb i f).slices = s.slices := rfl
@[simp] theorem modPrb_lss (s : State) (i : Nat) (f : Probe → Probe) : (s.modPrb i f).lss = s.lss := rfl
@[simp] theorem modPrb_loess (s : State) (i : Nat) (f : Probe → Probe) : (s.modPrb i f).loess = s.loess := rfl
@[simp] theorem modPrb_loessBad (s : State) (i : Nat) (f : Probe → Probe) : (s.modPrb i f).loessBad = s.loessBad := rfl
@[simp] theorem modPrb_seams (s : State) (i : Nat) (f : Probe → Probe) : (s.modPrb i f).seams = s.seams := rfl
@[simp] theorem modPrb_routers (s : State) (i : Nat) (f : Probe → Probe) : (s.modPrb i f).routers = s.routers := rfl
@[simp] theorem modPrb_mchans (s : State) (i : Nat) (f : Probe → Probe) : (s.modPrb i f).mchans = s.mchans := rfl
@[simp] theorem modPrb_mrl (s : State) (i : Nat) (f : Probe → Probe) : (s.modPrb i f).mrl = s.mrl := rfl
@[simp] theorem modPrb_marl (s : State) (i : Nat) (f : Probe → Probe) : (s.modPrb i f).marl = s.marl := rfl
@[simp] theorem modPrb_marlBad (s : State) (i : Nat) (f : Probe → Probe) : (s.modPrb i f).marlBad = s.marlBad := rfl
@[simp] theorem modPrb_ctxs (s : State) (i : Nat) (f : Probe → Probe) : (s.modPrb i f).ctxs = s.ctxs := rfl
@[simp] theorem modPrb_xreqs (s : State) (i : Nat) (f : Probe → Probe) : (s.modPrb i f).xreqs = s.xreqs := rfl
@[simp] theorem modPrb_aborts (s : State) (i : Nat) (f : Probe → Probe) : (s.modPrb i f).aborts = s.aborts := rfl
@[simp] theorem modPrb_parts (s : State) (i : Nat) (f : Probe → Probe) : (s.modPrb i f).parts = s.parts := rfl
@[simp] theorem modPrb_svc (s : State) (i : Nat) (f : Probe → Probe) : (s.modPrb i f).svc = s.svc := rfl
@[simp] theorem modPrb_queues (s : State) (i : Nat) (f : Probe → Probe) : (s.modPrb i f).queues = s.queues := rfl
@[simp] theorem modPrb_syncs (s : State) (i : Nat) (f : Probe → Probe) : (s.modPrb i f).syncs = s.syncs := rfl
@[simp] theorem modPrb_bundles (s : State) (i : Nat) (f : Probe → Probe) : (s.modPrb i f).bundles = s.bundles := rfl
@[simp] theorem modPrb_coldSweep (s : State) (i : Nat) (f : Probe → Probe) : (s.modPrb i f).coldSweep = s.coldSweep := rfl
@[simp] theorem modPrb_bgroups (s : State) (i : Nat) (f : Probe → Probe) : (s.modPrb i f).bgroups = s.bgroups := rfl
@[simp] theorem modPrb_govs (s : State) (i : Nat) (f : Probe → Probe) : (s.modPrb i f).govs = s.govs := rfl
@[simp] theorem modPrb_vmons (s : State) (i : Nat) (f : Probe → Probe) : (s.modPrb i f).vmons = s.vmons := rfl
@[simp] theorem modPrb_pwr (s : State) (i : Nat) (f : Probe → Probe) : (s.modPrb i f).pwr = s.pwr := rfl
@[simp] theorem modPrb_sens (s : State) (i : Nat) (f : Probe → Probe) : (s.modPrb i f).sens = s.sens := rfl
@[simp] theorem modPrb_thm (s : State) (i : Nat) (f : Probe → Probe) : (s.modPrb i f).thm = s.thm := rfl
@[simp] theorem modPrb_ports (s : State) (i : Nat) (f : Probe → Probe) : (s.modPrb i f).ports = s.ports := rfl
@[simp] theorem modPrb_lanes (s : State) (i : Nat) (f : Probe → Probe) : (s.modPrb i f).lanes = s.lanes := rfl
@[simp] theorem modPrb_net (s : State) (i : Nat) (f : Probe → Probe) : (s.modPrb i f).net = s.net := rfl
@[simp] theorem modPrb_bru (s : State) (i : Nat) (f : Probe → Probe) : (s.modPrb i f).bru = s.bru := rfl
@[simp] theorem modPrb_rst (s : State) (i : Nat) (f : Probe → Probe) : (s.modPrb i f).rst = s.rst := rfl
@[simp] theorem modPrb_board (s : State) (i : Nat) (f : Probe → Probe) : (s.modPrb i f).board = s.board := rfl
@[simp] theorem modPrb_tick (s : State) (i : Nat) (f : Probe → Probe) : (s.modPrb i f).tick = s.tick := rfl
@[simp] theorem modPrb_tx (s : State) (i : Nat) (f : Probe → Probe) : (s.modPrb i f).tx = s.tx := rfl
@[simp] theorem modPrb_pending (s : State) (i : Nat) (f : Probe → Probe) : (s.modPrb i f).pending = s.pending := rfl
@[simp] theorem getAry_modPrb (s : State) (i j : Nat) (f : Probe → Probe) : (s.modPrb i f).getAry j = s.getAry j := rfl
@[simp] theorem getGrp_modPrb (s : State) (i j : Nat) (f : Probe → Probe) : (s.modPrb i f).getGrp j = s.getGrp j := rfl
@[simp] theorem getSite_modPrb (s : State) (i j : Nat) (f : Probe → Probe) : (s.modPrb i f).getSite j = s.getSite j := rfl
@[simp] theorem getDma_modPrb (s : State) (i j : Nat) (f : Probe → Probe) : (s.modPrb i f).getDma j = s.getDma j := rfl
@[simp] theorem getSlc_modPrb (s : State) (i j : Nat) (f : Probe → Probe) : (s.modPrb i f).getSlc j = s.getSlc j := rfl
@[simp] theorem getMCh_modPrb (s : State) (i j : Nat) (f : Probe → Probe) : (s.modPrb i f).getMCh j = s.getMCh j := rfl
@[simp] theorem getCtx_modPrb (s : State) (i j : Nat) (f : Probe → Probe) : (s.modPrb i f).getCtx j = s.getCtx j := rfl
@[simp] theorem getXrq_modPrb (s : State) (i j : Nat) (f : Probe → Probe) : (s.modPrb i f).getXrq j = s.getXrq j := rfl
@[simp] theorem getPart_modPrb (s : State) (i j : Nat) (f : Probe → Probe) : (s.modPrb i f).getPart j = s.getPart j := rfl
@[simp] theorem getQue_modPrb (s : State) (i j : Nat) (f : Probe → Probe) : (s.modPrb i f).getQue j = s.getQue j := rfl
@[simp] theorem getSyn_modPrb (s : State) (i j : Nat) (f : Probe → Probe) : (s.modPrb i f).getSyn j = s.getSyn j := rfl
@[simp] theorem getBun_modPrb (s : State) (i j : Nat) (f : Probe → Probe) : (s.modPrb i f).getBun j = s.getBun j := rfl
@[simp] theorem getBgr_modPrb (s : State) (i j : Nat) (f : Probe → Probe) : (s.modPrb i f).getBgr j = s.getBgr j := rfl
@[simp] theorem getGov_modPrb (s : State) (i j : Nat) (f : Probe → Probe) : (s.modPrb i f).getGov j = s.getGov j := rfl
@[simp] theorem getVmn_modPrb (s : State) (i j : Nat) (f : Probe → Probe) : (s.modPrb i f).getVmn j = s.getVmn j := rfl
@[simp] theorem getSen_modPrb (s : State) (i j : Nat) (f : Probe → Probe) : (s.modPrb i f).getSen j = s.getSen j := rfl
@[simp] theorem getPort_modPrb (s : State) (i j : Nat) (f : Probe → Probe) : (s.modPrb i f).getPort j = s.getPort j := rfl
@[simp] theorem getLane_modPrb (s : State) (i j : Nat) (f : Probe → Probe) : (s.modPrb i f).getLane j = s.getLane j := rfl
@[simp] theorem memWf_modPrb (s : State) (i : Nat) (f : Probe → Probe) : (s.modPrb i f).memWf = s.memWf := rfl

/-! #### `modVmn` -/

@[simp] theorem getVmn_modVmn_self (s : State) (i : Nat) (f : Vmon → Vmon) : (s.modVmn i f).getVmn i = f (s.getVmn i) := get_mod_self _ _ _ _
theorem getVmn_modVmn_ne (s : State) {i j : Nat} (f : Vmon → Vmon) (h : j ≠ i) : (s.modVmn i f).getVmn j = s.getVmn j := get_mod_ne _ _ _ h
@[simp] theorem modVmn_skt (s : State) (i : Nat) (f : Vmon → Vmon) : (s.modVmn i f).skt = s.skt := rfl
@[simp] theorem modVmn_sel (s : State) (i : Nat) (f : Vmon → Vmon) : (s.modVmn i f).sel = s.sel := rfl
@[simp] theorem modVmn_synLatch (s : State) (i : Nat) (f : Vmon → Vmon) : (s.modVmn i f).synLatch = s.synLatch := rfl
@[simp] theorem modVmn_winTok (s : State) (i : Nat) (f : Vmon → Vmon) : (s.modVmn i f).winTok = s.winTok := rfl
@[simp] theorem modVmn_hst (s : State) (i : Nat) (f : Vmon → Vmon) : (s.modVmn i f).hst = s.hst := rfl
@[simp] theorem modVmn_pcie (s : State) (i : Nat) (f : Vmon → Vmon) : (s.modVmn i f).pcie = s.pcie := rfl
@[simp] theorem modVmn_fuses (s : State) (i : Nat) (f : Vmon → Vmon) : (s.modVmn i f).fuses = s.fuses := rfl
@[simp] theorem modVmn_arys (s : State) (i : Nat) (f : Vmon → Vmon) : (s.modVmn i f).arys = s.arys := rfl
@[simp] theorem modVmn_groups (s : State) (i : Nat) (f : Vmon → Vmon) : (s.modVmn i f).groups = s.groups := rfl
@[simp] theorem modVmn_sites (s : State) (i : Nat) (f : Vmon → Vmon) : (s.modVmn i f).sites = s.sites := rfl
@[simp] theorem modVmn_dmas (s : State) (i : Nat) (f : Vmon → Vmon) : (s.modVmn i f).dmas = s.dmas := rfl
@[simp] theorem modVmn_slices (s : State) (i : Nat) (f : Vmon → Vmon) : (s.modVmn i f).slices = s.slices := rfl
@[simp] theorem modVmn_lss (s : State) (i : Nat) (f : Vmon → Vmon) : (s.modVmn i f).lss = s.lss := rfl
@[simp] theorem modVmn_loess (s : State) (i : Nat) (f : Vmon → Vmon) : (s.modVmn i f).loess = s.loess := rfl
@[simp] theorem modVmn_loessBad (s : State) (i : Nat) (f : Vmon → Vmon) : (s.modVmn i f).loessBad = s.loessBad := rfl
@[simp] theorem modVmn_seams (s : State) (i : Nat) (f : Vmon → Vmon) : (s.modVmn i f).seams = s.seams := rfl
@[simp] theorem modVmn_routers (s : State) (i : Nat) (f : Vmon → Vmon) : (s.modVmn i f).routers = s.routers := rfl
@[simp] theorem modVmn_mchans (s : State) (i : Nat) (f : Vmon → Vmon) : (s.modVmn i f).mchans = s.mchans := rfl
@[simp] theorem modVmn_mrl (s : State) (i : Nat) (f : Vmon → Vmon) : (s.modVmn i f).mrl = s.mrl := rfl
@[simp] theorem modVmn_marl (s : State) (i : Nat) (f : Vmon → Vmon) : (s.modVmn i f).marl = s.marl := rfl
@[simp] theorem modVmn_marlBad (s : State) (i : Nat) (f : Vmon → Vmon) : (s.modVmn i f).marlBad = s.marlBad := rfl
@[simp] theorem modVmn_ctxs (s : State) (i : Nat) (f : Vmon → Vmon) : (s.modVmn i f).ctxs = s.ctxs := rfl
@[simp] theorem modVmn_xreqs (s : State) (i : Nat) (f : Vmon → Vmon) : (s.modVmn i f).xreqs = s.xreqs := rfl
@[simp] theorem modVmn_aborts (s : State) (i : Nat) (f : Vmon → Vmon) : (s.modVmn i f).aborts = s.aborts := rfl
@[simp] theorem modVmn_parts (s : State) (i : Nat) (f : Vmon → Vmon) : (s.modVmn i f).parts = s.parts := rfl
@[simp] theorem modVmn_svc (s : State) (i : Nat) (f : Vmon → Vmon) : (s.modVmn i f).svc = s.svc := rfl
@[simp] theorem modVmn_queues (s : State) (i : Nat) (f : Vmon → Vmon) : (s.modVmn i f).queues = s.queues := rfl
@[simp] theorem modVmn_syncs (s : State) (i : Nat) (f : Vmon → Vmon) : (s.modVmn i f).syncs = s.syncs := rfl
@[simp] theorem modVmn_bundles (s : State) (i : Nat) (f : Vmon → Vmon) : (s.modVmn i f).bundles = s.bundles := rfl
@[simp] theorem modVmn_coldSweep (s : State) (i : Nat) (f : Vmon → Vmon) : (s.modVmn i f).coldSweep = s.coldSweep := rfl
@[simp] theorem modVmn_bgroups (s : State) (i : Nat) (f : Vmon → Vmon) : (s.modVmn i f).bgroups = s.bgroups := rfl
@[simp] theorem modVmn_govs (s : State) (i : Nat) (f : Vmon → Vmon) : (s.modVmn i f).govs = s.govs := rfl
@[simp] theorem modVmn_probes (s : State) (i : Nat) (f : Vmon → Vmon) : (s.modVmn i f).probes = s.probes := rfl
@[simp] theorem modVmn_pwr (s : State) (i : Nat) (f : Vmon → Vmon) : (s.modVmn i f).pwr = s.pwr := rfl
@[simp] theorem modVmn_sens (s : State) (i : Nat) (f : Vmon → Vmon) : (s.modVmn i f).sens = s.sens := rfl
@[simp] theorem modVmn_thm (s : State) (i : Nat) (f : Vmon → Vmon) : (s.modVmn i f).thm = s.thm := rfl
@[simp] theorem modVmn_ports (s : State) (i : Nat) (f : Vmon → Vmon) : (s.modVmn i f).ports = s.ports := rfl
@[simp] theorem modVmn_lanes (s : State) (i : Nat) (f : Vmon → Vmon) : (s.modVmn i f).lanes = s.lanes := rfl
@[simp] theorem modVmn_net (s : State) (i : Nat) (f : Vmon → Vmon) : (s.modVmn i f).net = s.net := rfl
@[simp] theorem modVmn_bru (s : State) (i : Nat) (f : Vmon → Vmon) : (s.modVmn i f).bru = s.bru := rfl
@[simp] theorem modVmn_rst (s : State) (i : Nat) (f : Vmon → Vmon) : (s.modVmn i f).rst = s.rst := rfl
@[simp] theorem modVmn_board (s : State) (i : Nat) (f : Vmon → Vmon) : (s.modVmn i f).board = s.board := rfl
@[simp] theorem modVmn_tick (s : State) (i : Nat) (f : Vmon → Vmon) : (s.modVmn i f).tick = s.tick := rfl
@[simp] theorem modVmn_tx (s : State) (i : Nat) (f : Vmon → Vmon) : (s.modVmn i f).tx = s.tx := rfl
@[simp] theorem modVmn_pending (s : State) (i : Nat) (f : Vmon → Vmon) : (s.modVmn i f).pending = s.pending := rfl
@[simp] theorem getAry_modVmn (s : State) (i j : Nat) (f : Vmon → Vmon) : (s.modVmn i f).getAry j = s.getAry j := rfl
@[simp] theorem getGrp_modVmn (s : State) (i j : Nat) (f : Vmon → Vmon) : (s.modVmn i f).getGrp j = s.getGrp j := rfl
@[simp] theorem getSite_modVmn (s : State) (i j : Nat) (f : Vmon → Vmon) : (s.modVmn i f).getSite j = s.getSite j := rfl
@[simp] theorem getDma_modVmn (s : State) (i j : Nat) (f : Vmon → Vmon) : (s.modVmn i f).getDma j = s.getDma j := rfl
@[simp] theorem getSlc_modVmn (s : State) (i j : Nat) (f : Vmon → Vmon) : (s.modVmn i f).getSlc j = s.getSlc j := rfl
@[simp] theorem getMCh_modVmn (s : State) (i j : Nat) (f : Vmon → Vmon) : (s.modVmn i f).getMCh j = s.getMCh j := rfl
@[simp] theorem getCtx_modVmn (s : State) (i j : Nat) (f : Vmon → Vmon) : (s.modVmn i f).getCtx j = s.getCtx j := rfl
@[simp] theorem getXrq_modVmn (s : State) (i j : Nat) (f : Vmon → Vmon) : (s.modVmn i f).getXrq j = s.getXrq j := rfl
@[simp] theorem getPart_modVmn (s : State) (i j : Nat) (f : Vmon → Vmon) : (s.modVmn i f).getPart j = s.getPart j := rfl
@[simp] theorem getQue_modVmn (s : State) (i j : Nat) (f : Vmon → Vmon) : (s.modVmn i f).getQue j = s.getQue j := rfl
@[simp] theorem getSyn_modVmn (s : State) (i j : Nat) (f : Vmon → Vmon) : (s.modVmn i f).getSyn j = s.getSyn j := rfl
@[simp] theorem getBun_modVmn (s : State) (i j : Nat) (f : Vmon → Vmon) : (s.modVmn i f).getBun j = s.getBun j := rfl
@[simp] theorem getBgr_modVmn (s : State) (i j : Nat) (f : Vmon → Vmon) : (s.modVmn i f).getBgr j = s.getBgr j := rfl
@[simp] theorem getGov_modVmn (s : State) (i j : Nat) (f : Vmon → Vmon) : (s.modVmn i f).getGov j = s.getGov j := rfl
@[simp] theorem getPrb_modVmn (s : State) (i j : Nat) (f : Vmon → Vmon) : (s.modVmn i f).getPrb j = s.getPrb j := rfl
@[simp] theorem getSen_modVmn (s : State) (i j : Nat) (f : Vmon → Vmon) : (s.modVmn i f).getSen j = s.getSen j := rfl
@[simp] theorem getPort_modVmn (s : State) (i j : Nat) (f : Vmon → Vmon) : (s.modVmn i f).getPort j = s.getPort j := rfl
@[simp] theorem getLane_modVmn (s : State) (i j : Nat) (f : Vmon → Vmon) : (s.modVmn i f).getLane j = s.getLane j := rfl
@[simp] theorem memWf_modVmn (s : State) (i : Nat) (f : Vmon → Vmon) : (s.modVmn i f).memWf = s.memWf := rfl

/-! #### `modSen` -/

@[simp] theorem getSen_modSen_self (s : State) (i : Nat) (f : Sens → Sens) : (s.modSen i f).getSen i = f (s.getSen i) := get_mod_self _ _ _ _
theorem getSen_modSen_ne (s : State) {i j : Nat} (f : Sens → Sens) (h : j ≠ i) : (s.modSen i f).getSen j = s.getSen j := get_mod_ne _ _ _ h
@[simp] theorem modSen_skt (s : State) (i : Nat) (f : Sens → Sens) : (s.modSen i f).skt = s.skt := rfl
@[simp] theorem modSen_sel (s : State) (i : Nat) (f : Sens → Sens) : (s.modSen i f).sel = s.sel := rfl
@[simp] theorem modSen_synLatch (s : State) (i : Nat) (f : Sens → Sens) : (s.modSen i f).synLatch = s.synLatch := rfl
@[simp] theorem modSen_winTok (s : State) (i : Nat) (f : Sens → Sens) : (s.modSen i f).winTok = s.winTok := rfl
@[simp] theorem modSen_hst (s : State) (i : Nat) (f : Sens → Sens) : (s.modSen i f).hst = s.hst := rfl
@[simp] theorem modSen_pcie (s : State) (i : Nat) (f : Sens → Sens) : (s.modSen i f).pcie = s.pcie := rfl
@[simp] theorem modSen_fuses (s : State) (i : Nat) (f : Sens → Sens) : (s.modSen i f).fuses = s.fuses := rfl
@[simp] theorem modSen_arys (s : State) (i : Nat) (f : Sens → Sens) : (s.modSen i f).arys = s.arys := rfl
@[simp] theorem modSen_groups (s : State) (i : Nat) (f : Sens → Sens) : (s.modSen i f).groups = s.groups := rfl
@[simp] theorem modSen_sites (s : State) (i : Nat) (f : Sens → Sens) : (s.modSen i f).sites = s.sites := rfl
@[simp] theorem modSen_dmas (s : State) (i : Nat) (f : Sens → Sens) : (s.modSen i f).dmas = s.dmas := rfl
@[simp] theorem modSen_slices (s : State) (i : Nat) (f : Sens → Sens) : (s.modSen i f).slices = s.slices := rfl
@[simp] theorem modSen_lss (s : State) (i : Nat) (f : Sens → Sens) : (s.modSen i f).lss = s.lss := rfl
@[simp] theorem modSen_loess (s : State) (i : Nat) (f : Sens → Sens) : (s.modSen i f).loess = s.loess := rfl
@[simp] theorem modSen_loessBad (s : State) (i : Nat) (f : Sens → Sens) : (s.modSen i f).loessBad = s.loessBad := rfl
@[simp] theorem modSen_seams (s : State) (i : Nat) (f : Sens → Sens) : (s.modSen i f).seams = s.seams := rfl
@[simp] theorem modSen_routers (s : State) (i : Nat) (f : Sens → Sens) : (s.modSen i f).routers = s.routers := rfl
@[simp] theorem modSen_mchans (s : State) (i : Nat) (f : Sens → Sens) : (s.modSen i f).mchans = s.mchans := rfl
@[simp] theorem modSen_mrl (s : State) (i : Nat) (f : Sens → Sens) : (s.modSen i f).mrl = s.mrl := rfl
@[simp] theorem modSen_marl (s : State) (i : Nat) (f : Sens → Sens) : (s.modSen i f).marl = s.marl := rfl
@[simp] theorem modSen_marlBad (s : State) (i : Nat) (f : Sens → Sens) : (s.modSen i f).marlBad = s.marlBad := rfl
@[simp] theorem modSen_ctxs (s : State) (i : Nat) (f : Sens → Sens) : (s.modSen i f).ctxs = s.ctxs := rfl
@[simp] theorem modSen_xreqs (s : State) (i : Nat) (f : Sens → Sens) : (s.modSen i f).xreqs = s.xreqs := rfl
@[simp] theorem modSen_aborts (s : State) (i : Nat) (f : Sens → Sens) : (s.modSen i f).aborts = s.aborts := rfl
@[simp] theorem modSen_parts (s : State) (i : Nat) (f : Sens → Sens) : (s.modSen i f).parts = s.parts := rfl
@[simp] theorem modSen_svc (s : State) (i : Nat) (f : Sens → Sens) : (s.modSen i f).svc = s.svc := rfl
@[simp] theorem modSen_queues (s : State) (i : Nat) (f : Sens → Sens) : (s.modSen i f).queues = s.queues := rfl
@[simp] theorem modSen_syncs (s : State) (i : Nat) (f : Sens → Sens) : (s.modSen i f).syncs = s.syncs := rfl
@[simp] theorem modSen_bundles (s : State) (i : Nat) (f : Sens → Sens) : (s.modSen i f).bundles = s.bundles := rfl
@[simp] theorem modSen_coldSweep (s : State) (i : Nat) (f : Sens → Sens) : (s.modSen i f).coldSweep = s.coldSweep := rfl
@[simp] theorem modSen_bgroups (s : State) (i : Nat) (f : Sens → Sens) : (s.modSen i f).bgroups = s.bgroups := rfl
@[simp] theorem modSen_govs (s : State) (i : Nat) (f : Sens → Sens) : (s.modSen i f).govs = s.govs := rfl
@[simp] theorem modSen_probes (s : State) (i : Nat) (f : Sens → Sens) : (s.modSen i f).probes = s.probes := rfl
@[simp] theorem modSen_vmons (s : State) (i : Nat) (f : Sens → Sens) : (s.modSen i f).vmons = s.vmons := rfl
@[simp] theorem modSen_pwr (s : State) (i : Nat) (f : Sens → Sens) : (s.modSen i f).pwr = s.pwr := rfl
@[simp] theorem modSen_thm (s : State) (i : Nat) (f : Sens → Sens) : (s.modSen i f).thm = s.thm := rfl
@[simp] theorem modSen_ports (s : State) (i : Nat) (f : Sens → Sens) : (s.modSen i f).ports = s.ports := rfl
@[simp] theorem modSen_lanes (s : State) (i : Nat) (f : Sens → Sens) : (s.modSen i f).lanes = s.lanes := rfl
@[simp] theorem modSen_net (s : State) (i : Nat) (f : Sens → Sens) : (s.modSen i f).net = s.net := rfl
@[simp] theorem modSen_bru (s : State) (i : Nat) (f : Sens → Sens) : (s.modSen i f).bru = s.bru := rfl
@[simp] theorem modSen_rst (s : State) (i : Nat) (f : Sens → Sens) : (s.modSen i f).rst = s.rst := rfl
@[simp] theorem modSen_board (s : State) (i : Nat) (f : Sens → Sens) : (s.modSen i f).board = s.board := rfl
@[simp] theorem modSen_tick (s : State) (i : Nat) (f : Sens → Sens) : (s.modSen i f).tick = s.tick := rfl
@[simp] theorem modSen_tx (s : State) (i : Nat) (f : Sens → Sens) : (s.modSen i f).tx = s.tx := rfl
@[simp] theorem modSen_pending (s : State) (i : Nat) (f : Sens → Sens) : (s.modSen i f).pending = s.pending := rfl
@[simp] theorem getAry_modSen (s : State) (i j : Nat) (f : Sens → Sens) : (s.modSen i f).getAry j = s.getAry j := rfl
@[simp] theorem getGrp_modSen (s : State) (i j : Nat) (f : Sens → Sens) : (s.modSen i f).getGrp j = s.getGrp j := rfl
@[simp] theorem getSite_modSen (s : State) (i j : Nat) (f : Sens → Sens) : (s.modSen i f).getSite j = s.getSite j := rfl
@[simp] theorem getDma_modSen (s : State) (i j : Nat) (f : Sens → Sens) : (s.modSen i f).getDma j = s.getDma j := rfl
@[simp] theorem getSlc_modSen (s : State) (i j : Nat) (f : Sens → Sens) : (s.modSen i f).getSlc j = s.getSlc j := rfl
@[simp] theorem getMCh_modSen (s : State) (i j : Nat) (f : Sens → Sens) : (s.modSen i f).getMCh j = s.getMCh j := rfl
@[simp] theorem getCtx_modSen (s : State) (i j : Nat) (f : Sens → Sens) : (s.modSen i f).getCtx j = s.getCtx j := rfl
@[simp] theorem getXrq_modSen (s : State) (i j : Nat) (f : Sens → Sens) : (s.modSen i f).getXrq j = s.getXrq j := rfl
@[simp] theorem getPart_modSen (s : State) (i j : Nat) (f : Sens → Sens) : (s.modSen i f).getPart j = s.getPart j := rfl
@[simp] theorem getQue_modSen (s : State) (i j : Nat) (f : Sens → Sens) : (s.modSen i f).getQue j = s.getQue j := rfl
@[simp] theorem getSyn_modSen (s : State) (i j : Nat) (f : Sens → Sens) : (s.modSen i f).getSyn j = s.getSyn j := rfl
@[simp] theorem getBun_modSen (s : State) (i j : Nat) (f : Sens → Sens) : (s.modSen i f).getBun j = s.getBun j := rfl
@[simp] theorem getBgr_modSen (s : State) (i j : Nat) (f : Sens → Sens) : (s.modSen i f).getBgr j = s.getBgr j := rfl
@[simp] theorem getGov_modSen (s : State) (i j : Nat) (f : Sens → Sens) : (s.modSen i f).getGov j = s.getGov j := rfl
@[simp] theorem getPrb_modSen (s : State) (i j : Nat) (f : Sens → Sens) : (s.modSen i f).getPrb j = s.getPrb j := rfl
@[simp] theorem getVmn_modSen (s : State) (i j : Nat) (f : Sens → Sens) : (s.modSen i f).getVmn j = s.getVmn j := rfl
@[simp] theorem getPort_modSen (s : State) (i j : Nat) (f : Sens → Sens) : (s.modSen i f).getPort j = s.getPort j := rfl
@[simp] theorem getLane_modSen (s : State) (i j : Nat) (f : Sens → Sens) : (s.modSen i f).getLane j = s.getLane j := rfl
@[simp] theorem memWf_modSen (s : State) (i : Nat) (f : Sens → Sens) : (s.modSen i f).memWf = s.memWf := rfl

/-! #### `modPort` -/

@[simp] theorem getPort_modPort_self (s : State) (i : Nat) (f : PortSt → PortSt) : (s.modPort i f).getPort i = f (s.getPort i) := get_mod_self _ _ _ _
theorem getPort_modPort_ne (s : State) {i j : Nat} (f : PortSt → PortSt) (h : j ≠ i) : (s.modPort i f).getPort j = s.getPort j := get_mod_ne _ _ _ h
@[simp] theorem modPort_skt (s : State) (i : Nat) (f : PortSt → PortSt) : (s.modPort i f).skt = s.skt := rfl
@[simp] theorem modPort_sel (s : State) (i : Nat) (f : PortSt → PortSt) : (s.modPort i f).sel = s.sel := rfl
@[simp] theorem modPort_synLatch (s : State) (i : Nat) (f : PortSt → PortSt) : (s.modPort i f).synLatch = s.synLatch := rfl
@[simp] theorem modPort_winTok (s : State) (i : Nat) (f : PortSt → PortSt) : (s.modPort i f).winTok = s.winTok := rfl
@[simp] theorem modPort_hst (s : State) (i : Nat) (f : PortSt → PortSt) : (s.modPort i f).hst = s.hst := rfl
@[simp] theorem modPort_pcie (s : State) (i : Nat) (f : PortSt → PortSt) : (s.modPort i f).pcie = s.pcie := rfl
@[simp] theorem modPort_fuses (s : State) (i : Nat) (f : PortSt → PortSt) : (s.modPort i f).fuses = s.fuses := rfl
@[simp] theorem modPort_arys (s : State) (i : Nat) (f : PortSt → PortSt) : (s.modPort i f).arys = s.arys := rfl
@[simp] theorem modPort_groups (s : State) (i : Nat) (f : PortSt → PortSt) : (s.modPort i f).groups = s.groups := rfl
@[simp] theorem modPort_sites (s : State) (i : Nat) (f : PortSt → PortSt) : (s.modPort i f).sites = s.sites := rfl
@[simp] theorem modPort_dmas (s : State) (i : Nat) (f : PortSt → PortSt) : (s.modPort i f).dmas = s.dmas := rfl
@[simp] theorem modPort_slices (s : State) (i : Nat) (f : PortSt → PortSt) : (s.modPort i f).slices = s.slices := rfl
@[simp] theorem modPort_lss (s : State) (i : Nat) (f : PortSt → PortSt) : (s.modPort i f).lss = s.lss := rfl
@[simp] theorem modPort_loess (s : State) (i : Nat) (f : PortSt → PortSt) : (s.modPort i f).loess = s.loess := rfl
@[simp] theorem modPort_loessBad (s : State) (i : Nat) (f : PortSt → PortSt) : (s.modPort i f).loessBad = s.loessBad := rfl
@[simp] theorem modPort_seams (s : State) (i : Nat) (f : PortSt → PortSt) : (s.modPort i f).seams = s.seams := rfl
@[simp] theorem modPort_routers (s : State) (i : Nat) (f : PortSt → PortSt) : (s.modPort i f).routers = s.routers := rfl
@[simp] theorem modPort_mchans (s : State) (i : Nat) (f : PortSt → PortSt) : (s.modPort i f).mchans = s.mchans := rfl
@[simp] theorem modPort_mrl (s : State) (i : Nat) (f : PortSt → PortSt) : (s.modPort i f).mrl = s.mrl := rfl
@[simp] theorem modPort_marl (s : State) (i : Nat) (f : PortSt → PortSt) : (s.modPort i f).marl = s.marl := rfl
@[simp] theorem modPort_marlBad (s : State) (i : Nat) (f : PortSt → PortSt) : (s.modPort i f).marlBad = s.marlBad := rfl
@[simp] theorem modPort_ctxs (s : State) (i : Nat) (f : PortSt → PortSt) : (s.modPort i f).ctxs = s.ctxs := rfl
@[simp] theorem modPort_xreqs (s : State) (i : Nat) (f : PortSt → PortSt) : (s.modPort i f).xreqs = s.xreqs := rfl
@[simp] theorem modPort_aborts (s : State) (i : Nat) (f : PortSt → PortSt) : (s.modPort i f).aborts = s.aborts := rfl
@[simp] theorem modPort_parts (s : State) (i : Nat) (f : PortSt → PortSt) : (s.modPort i f).parts = s.parts := rfl
@[simp] theorem modPort_svc (s : State) (i : Nat) (f : PortSt → PortSt) : (s.modPort i f).svc = s.svc := rfl
@[simp] theorem modPort_queues (s : State) (i : Nat) (f : PortSt → PortSt) : (s.modPort i f).queues = s.queues := rfl
@[simp] theorem modPort_syncs (s : State) (i : Nat) (f : PortSt → PortSt) : (s.modPort i f).syncs = s.syncs := rfl
@[simp] theorem modPort_bundles (s : State) (i : Nat) (f : PortSt → PortSt) : (s.modPort i f).bundles = s.bundles := rfl
@[simp] theorem modPort_coldSweep (s : State) (i : Nat) (f : PortSt → PortSt) : (s.modPort i f).coldSweep = s.coldSweep := rfl
@[simp] theorem modPort_bgroups (s : State) (i : Nat) (f : PortSt → PortSt) : (s.modPort i f).bgroups = s.bgroups := rfl
@[simp] theorem modPort_govs (s : State) (i : Nat) (f : PortSt → PortSt) : (s.modPort i f).govs = s.govs := rfl
@[simp] theorem modPort_probes (s : State) (i : Nat) (f : PortSt → PortSt) : (s.modPort i f).probes = s.probes := rfl
@[simp] theorem modPort_vmons (s : State) (i : Nat) (f : PortSt → PortSt) : (s.modPort i f).vmons = s.vmons := rfl
@[simp] theorem modPort_pwr (s : State) (i : Nat) (f : PortSt → PortSt) : (s.modPort i f).pwr = s.pwr := rfl
@[simp] theorem modPort_sens (s : State) (i : Nat) (f : PortSt → PortSt) : (s.modPort i f).sens = s.sens := rfl
@[simp] theorem modPort_thm (s : State) (i : Nat) (f : PortSt → PortSt) : (s.modPort i f).thm = s.thm := rfl
@[simp] theorem modPort_lanes (s : State) (i : Nat) (f : PortSt → PortSt) : (s.modPort i f).lanes = s.lanes := rfl
@[simp] theorem modPort_net (s : State) (i : Nat) (f : PortSt → PortSt) : (s.modPort i f).net = s.net := rfl
@[simp] theorem modPort_bru (s : State) (i : Nat) (f : PortSt → PortSt) : (s.modPort i f).bru = s.bru := rfl
@[simp] theorem modPort_rst (s : State) (i : Nat) (f : PortSt → PortSt) : (s.modPort i f).rst = s.rst := rfl
@[simp] theorem modPort_board (s : State) (i : Nat) (f : PortSt → PortSt) : (s.modPort i f).board = s.board := rfl
@[simp] theorem modPort_tick (s : State) (i : Nat) (f : PortSt → PortSt) : (s.modPort i f).tick = s.tick := rfl
@[simp] theorem modPort_tx (s : State) (i : Nat) (f : PortSt → PortSt) : (s.modPort i f).tx = s.tx := rfl
@[simp] theorem modPort_pending (s : State) (i : Nat) (f : PortSt → PortSt) : (s.modPort i f).pending = s.pending := rfl
@[simp] theorem getAry_modPort (s : State) (i j : Nat) (f : PortSt → PortSt) : (s.modPort i f).getAry j = s.getAry j := rfl
@[simp] theorem getGrp_modPort (s : State) (i j : Nat) (f : PortSt → PortSt) : (s.modPort i f).getGrp j = s.getGrp j := rfl
@[simp] theorem getSite_modPort (s : State) (i j : Nat) (f : PortSt → PortSt) : (s.modPort i f).getSite j = s.getSite j := rfl
@[simp] theorem getDma_modPort (s : State) (i j : Nat) (f : PortSt → PortSt) : (s.modPort i f).getDma j = s.getDma j := rfl
@[simp] theorem getSlc_modPort (s : State) (i j : Nat) (f : PortSt → PortSt) : (s.modPort i f).getSlc j = s.getSlc j := rfl
@[simp] theorem getMCh_modPort (s : State) (i j : Nat) (f : PortSt → PortSt) : (s.modPort i f).getMCh j = s.getMCh j := rfl
@[simp] theorem getCtx_modPort (s : State) (i j : Nat) (f : PortSt → PortSt) : (s.modPort i f).getCtx j = s.getCtx j := rfl
@[simp] theorem getXrq_modPort (s : State) (i j : Nat) (f : PortSt → PortSt) : (s.modPort i f).getXrq j = s.getXrq j := rfl
@[simp] theorem getPart_modPort (s : State) (i j : Nat) (f : PortSt → PortSt) : (s.modPort i f).getPart j = s.getPart j := rfl
@[simp] theorem getQue_modPort (s : State) (i j : Nat) (f : PortSt → PortSt) : (s.modPort i f).getQue j = s.getQue j := rfl
@[simp] theorem getSyn_modPort (s : State) (i j : Nat) (f : PortSt → PortSt) : (s.modPort i f).getSyn j = s.getSyn j := rfl
@[simp] theorem getBun_modPort (s : State) (i j : Nat) (f : PortSt → PortSt) : (s.modPort i f).getBun j = s.getBun j := rfl
@[simp] theorem getBgr_modPort (s : State) (i j : Nat) (f : PortSt → PortSt) : (s.modPort i f).getBgr j = s.getBgr j := rfl
@[simp] theorem getGov_modPort (s : State) (i j : Nat) (f : PortSt → PortSt) : (s.modPort i f).getGov j = s.getGov j := rfl
@[simp] theorem getPrb_modPort (s : State) (i j : Nat) (f : PortSt → PortSt) : (s.modPort i f).getPrb j = s.getPrb j := rfl
@[simp] theorem getVmn_modPort (s : State) (i j : Nat) (f : PortSt → PortSt) : (s.modPort i f).getVmn j = s.getVmn j := rfl
@[simp] theorem getSen_modPort (s : State) (i j : Nat) (f : PortSt → PortSt) : (s.modPort i f).getSen j = s.getSen j := rfl
@[simp] theorem getLane_modPort (s : State) (i j : Nat) (f : PortSt → PortSt) : (s.modPort i f).getLane j = s.getLane j := rfl
@[simp] theorem memWf_modPort (s : State) (i : Nat) (f : PortSt → PortSt) : (s.modPort i f).memWf = s.memWf := rfl

/-! #### `modLane` -/

@[simp] theorem getLane_modLane_self (s : State) (i : Nat) (f : LaneSt → LaneSt) : (s.modLane i f).getLane i = f (s.getLane i) := get_mod_self _ _ _ _
theorem getLane_modLane_ne (s : State) {i j : Nat} (f : LaneSt → LaneSt) (h : j ≠ i) : (s.modLane i f).getLane j = s.getLane j := get_mod_ne _ _ _ h
@[simp] theorem modLane_skt (s : State) (i : Nat) (f : LaneSt → LaneSt) : (s.modLane i f).skt = s.skt := rfl
@[simp] theorem modLane_sel (s : State) (i : Nat) (f : LaneSt → LaneSt) : (s.modLane i f).sel = s.sel := rfl
@[simp] theorem modLane_synLatch (s : State) (i : Nat) (f : LaneSt → LaneSt) : (s.modLane i f).synLatch = s.synLatch := rfl
@[simp] theorem modLane_winTok (s : State) (i : Nat) (f : LaneSt → LaneSt) : (s.modLane i f).winTok = s.winTok := rfl
@[simp] theorem modLane_hst (s : State) (i : Nat) (f : LaneSt → LaneSt) : (s.modLane i f).hst = s.hst := rfl
@[simp] theorem modLane_pcie (s : State) (i : Nat) (f : LaneSt → LaneSt) : (s.modLane i f).pcie = s.pcie := rfl
@[simp] theorem modLane_fuses (s : State) (i : Nat) (f : LaneSt → LaneSt) : (s.modLane i f).fuses = s.fuses := rfl
@[simp] theorem modLane_arys (s : State) (i : Nat) (f : LaneSt → LaneSt) : (s.modLane i f).arys = s.arys := rfl
@[simp] theorem modLane_groups (s : State) (i : Nat) (f : LaneSt → LaneSt) : (s.modLane i f).groups = s.groups := rfl
@[simp] theorem modLane_sites (s : State) (i : Nat) (f : LaneSt → LaneSt) : (s.modLane i f).sites = s.sites := rfl
@[simp] theorem modLane_dmas (s : State) (i : Nat) (f : LaneSt → LaneSt) : (s.modLane i f).dmas = s.dmas := rfl
@[simp] theorem modLane_slices (s : State) (i : Nat) (f : LaneSt → LaneSt) : (s.modLane i f).slices = s.slices := rfl
@[simp] theorem modLane_lss (s : State) (i : Nat) (f : LaneSt → LaneSt) : (s.modLane i f).lss = s.lss := rfl
@[simp] theorem modLane_loess (s : State) (i : Nat) (f : LaneSt → LaneSt) : (s.modLane i f).loess = s.loess := rfl
@[simp] theorem modLane_loessBad (s : State) (i : Nat) (f : LaneSt → LaneSt) : (s.modLane i f).loessBad = s.loessBad := rfl
@[simp] theorem modLane_seams (s : State) (i : Nat) (f : LaneSt → LaneSt) : (s.modLane i f).seams = s.seams := rfl
@[simp] theorem modLane_routers (s : State) (i : Nat) (f : LaneSt → LaneSt) : (s.modLane i f).routers = s.routers := rfl
@[simp] theorem modLane_mchans (s : State) (i : Nat) (f : LaneSt → LaneSt) : (s.modLane i f).mchans = s.mchans := rfl
@[simp] theorem modLane_mrl (s : State) (i : Nat) (f : LaneSt → LaneSt) : (s.modLane i f).mrl = s.mrl := rfl
@[simp] theorem modLane_marl (s : State) (i : Nat) (f : LaneSt → LaneSt) : (s.modLane i f).marl = s.marl := rfl
@[simp] theorem modLane_marlBad (s : State) (i : Nat) (f : LaneSt → LaneSt) : (s.modLane i f).marlBad = s.marlBad := rfl
@[simp] theorem modLane_ctxs (s : State) (i : Nat) (f : LaneSt → LaneSt) : (s.modLane i f).ctxs = s.ctxs := rfl
@[simp] theorem modLane_xreqs (s : State) (i : Nat) (f : LaneSt → LaneSt) : (s.modLane i f).xreqs = s.xreqs := rfl
@[simp] theorem modLane_aborts (s : State) (i : Nat) (f : LaneSt → LaneSt) : (s.modLane i f).aborts = s.aborts := rfl
@[simp] theorem modLane_parts (s : State) (i : Nat) (f : LaneSt → LaneSt) : (s.modLane i f).parts = s.parts := rfl
@[simp] theorem modLane_svc (s : State) (i : Nat) (f : LaneSt → LaneSt) : (s.modLane i f).svc = s.svc := rfl
@[simp] theorem modLane_queues (s : State) (i : Nat) (f : LaneSt → LaneSt) : (s.modLane i f).queues = s.queues := rfl
@[simp] theorem modLane_syncs (s : State) (i : Nat) (f : LaneSt → LaneSt) : (s.modLane i f).syncs = s.syncs := rfl
@[simp] theorem modLane_bundles (s : State) (i : Nat) (f : LaneSt → LaneSt) : (s.modLane i f).bundles = s.bundles := rfl
@[simp] theorem modLane_coldSweep (s : State) (i : Nat) (f : LaneSt → LaneSt) : (s.modLane i f).coldSweep = s.coldSweep := rfl
@[simp] theorem modLane_bgroups (s : State) (i : Nat) (f : LaneSt → LaneSt) : (s.modLane i f).bgroups = s.bgroups := rfl
@[simp] theorem modLane_govs (s : State) (i : Nat) (f : LaneSt → LaneSt) : (s.modLane i f).govs = s.govs := rfl
@[simp] theorem modLane_probes (s : State) (i : Nat) (f : LaneSt → LaneSt) : (s.modLane i f).probes = s.probes := rfl
@[simp] theorem modLane_vmons (s : State) (i : Nat) (f : LaneSt → LaneSt) : (s.modLane i f).vmons = s.vmons := rfl
@[simp] theorem modLane_pwr (s : State) (i : Nat) (f : LaneSt → LaneSt) : (s.modLane i f).pwr = s.pwr := rfl
@[simp] theorem modLane_sens (s : State) (i : Nat) (f : LaneSt → LaneSt) : (s.modLane i f).sens = s.sens := rfl
@[simp] theorem modLane_thm (s : State) (i : Nat) (f : LaneSt → LaneSt) : (s.modLane i f).thm = s.thm := rfl
@[simp] theorem modLane_ports (s : State) (i : Nat) (f : LaneSt → LaneSt) : (s.modLane i f).ports = s.ports := rfl
@[simp] theorem modLane_net (s : State) (i : Nat) (f : LaneSt → LaneSt) : (s.modLane i f).net = s.net := rfl
@[simp] theorem modLane_bru (s : State) (i : Nat) (f : LaneSt → LaneSt) : (s.modLane i f).bru = s.bru := rfl
@[simp] theorem modLane_rst (s : State) (i : Nat) (f : LaneSt → LaneSt) : (s.modLane i f).rst = s.rst := rfl
@[simp] theorem modLane_board (s : State) (i : Nat) (f : LaneSt → LaneSt) : (s.modLane i f).board = s.board := rfl
@[simp] theorem modLane_tick (s : State) (i : Nat) (f : LaneSt → LaneSt) : (s.modLane i f).tick = s.tick := rfl
@[simp] theorem modLane_tx (s : State) (i : Nat) (f : LaneSt → LaneSt) : (s.modLane i f).tx = s.tx := rfl
@[simp] theorem modLane_pending (s : State) (i : Nat) (f : LaneSt → LaneSt) : (s.modLane i f).pending = s.pending := rfl
@[simp] theorem getAry_modLane (s : State) (i j : Nat) (f : LaneSt → LaneSt) : (s.modLane i f).getAry j = s.getAry j := rfl
@[simp] theorem getGrp_modLane (s : State) (i j : Nat) (f : LaneSt → LaneSt) : (s.modLane i f).getGrp j = s.getGrp j := rfl
@[simp] theorem getSite_modLane (s : State) (i j : Nat) (f : LaneSt → LaneSt) : (s.modLane i f).getSite j = s.getSite j := rfl
@[simp] theorem getDma_modLane (s : State) (i j : Nat) (f : LaneSt → LaneSt) : (s.modLane i f).getDma j = s.getDma j := rfl
@[simp] theorem getSlc_modLane (s : State) (i j : Nat) (f : LaneSt → LaneSt) : (s.modLane i f).getSlc j = s.getSlc j := rfl
@[simp] theorem getMCh_modLane (s : State) (i j : Nat) (f : LaneSt → LaneSt) : (s.modLane i f).getMCh j = s.getMCh j := rfl
@[simp] theorem getCtx_modLane (s : State) (i j : Nat) (f : LaneSt → LaneSt) : (s.modLane i f).getCtx j = s.getCtx j := rfl
@[simp] theorem getXrq_modLane (s : State) (i j : Nat) (f : LaneSt → LaneSt) : (s.modLane i f).getXrq j = s.getXrq j := rfl
@[simp] theorem getPart_modLane (s : State) (i j : Nat) (f : LaneSt → LaneSt) : (s.modLane i f).getPart j = s.getPart j := rfl
@[simp] theorem getQue_modLane (s : State) (i j : Nat) (f : LaneSt → LaneSt) : (s.modLane i f).getQue j = s.getQue j := rfl
@[simp] theorem getSyn_modLane (s : State) (i j : Nat) (f : LaneSt → LaneSt) : (s.modLane i f).getSyn j = s.getSyn j := rfl
@[simp] theorem getBun_modLane (s : State) (i j : Nat) (f : LaneSt → LaneSt) : (s.modLane i f).getBun j = s.getBun j := rfl
@[simp] theorem getBgr_modLane (s : State) (i j : Nat) (f : LaneSt → LaneSt) : (s.modLane i f).getBgr j = s.getBgr j := rfl
@[simp] theorem getGov_modLane (s : State) (i j : Nat) (f : LaneSt → LaneSt) : (s.modLane i f).getGov j = s.getGov j := rfl
@[simp] theorem getPrb_modLane (s : State) (i j : Nat) (f : LaneSt → LaneSt) : (s.modLane i f).getPrb j = s.getPrb j := rfl
@[simp] theorem getVmn_modLane (s : State) (i j : Nat) (f : LaneSt → LaneSt) : (s.modLane i f).getVmn j = s.getVmn j := rfl
@[simp] theorem getSen_modLane (s : State) (i j : Nat) (f : LaneSt → LaneSt) : (s.modLane i f).getSen j = s.getSen j := rfl
@[simp] theorem getPort_modLane (s : State) (i j : Nat) (f : LaneSt → LaneSt) : (s.modLane i f).getPort j = s.getPort j := rfl
@[simp] theorem memWf_modLane (s : State) (i : Nat) (f : LaneSt → LaneSt) : (s.modLane i f).memWf = s.memWf := rfl

/-! #### `send` -/

@[simp] theorem send_tx (x : Sent) (s : State) : (send x s).tx = x :: s.tx := rfl
@[simp] theorem send_skt (x : Sent) (s : State) : (send x s).skt = s.skt := rfl
@[simp] theorem send_sel (x : Sent) (s : State) : (send x s).sel = s.sel := rfl
@[simp] theorem send_synLatch (x : Sent) (s : State) : (send x s).synLatch = s.synLatch := rfl
@[simp] theorem send_winTok (x : Sent) (s : State) : (send x s).winTok = s.winTok := rfl
@[simp] theorem send_hst (x : Sent) (s : State) : (send x s).hst = s.hst := rfl
@[simp] theorem send_pcie (x : Sent) (s : State) : (send x s).pcie = s.pcie := rfl
@[simp] theorem send_fuses (x : Sent) (s : State) : (send x s).fuses = s.fuses := rfl
@[simp] theorem send_arys (x : Sent) (s : State) : (send x s).arys = s.arys := rfl
@[simp] theorem send_groups (x : Sent) (s : State) : (send x s).groups = s.groups := rfl
@[simp] theorem send_sites (x : Sent) (s : State) : (send x s).sites = s.sites := rfl
@[simp] theorem send_dmas (x : Sent) (s : State) : (send x s).dmas = s.dmas := rfl
@[simp] theorem send_slices (x : Sent) (s : State) : (send x s).slices = s.slices := rfl
@[simp] theorem send_lss (x : Sent) (s : State) : (send x s).lss = s.lss := rfl
@[simp] theorem send_loess (x : Sent) (s : State) : (send x s).loess = s.loess := rfl
@[simp] theorem send_loessBad (x : Sent) (s : State) : (send x s).loessBad = s.loessBad := rfl
@[simp] theorem send_seams (x : Sent) (s : State) : (send x s).seams = s.seams := rfl
@[simp] theorem send_routers (x : Sent) (s : State) : (send x s).routers = s.routers := rfl
@[simp] theorem send_mchans (x : Sent) (s : State) : (send x s).mchans = s.mchans := rfl
@[simp] theorem send_mrl (x : Sent) (s : State) : (send x s).mrl = s.mrl := rfl
@[simp] theorem send_marl (x : Sent) (s : State) : (send x s).marl = s.marl := rfl
@[simp] theorem send_marlBad (x : Sent) (s : State) : (send x s).marlBad = s.marlBad := rfl
@[simp] theorem send_ctxs (x : Sent) (s : State) : (send x s).ctxs = s.ctxs := rfl
@[simp] theorem send_xreqs (x : Sent) (s : State) : (send x s).xreqs = s.xreqs := rfl
@[simp] theorem send_aborts (x : Sent) (s : State) : (send x s).aborts = s.aborts := rfl
@[simp] theorem send_parts (x : Sent) (s : State) : (send x s).parts = s.parts := rfl
@[simp] theorem send_svc (x : Sent) (s : State) : (send x s).svc = s.svc := rfl
@[simp] theorem send_queues (x : Sent) (s : State) : (send x s).queues = s.queues := rfl
@[simp] theorem send_syncs (x : Sent) (s : State) : (send x s).syncs = s.syncs := rfl
@[simp] theorem send_bundles (x : Sent) (s : State) : (send x s).bundles = s.bundles := rfl
@[simp] theorem send_coldSweep (x : Sent) (s : State) : (send x s).coldSweep = s.coldSweep := rfl
@[simp] theorem send_bgroups (x : Sent) (s : State) : (send x s).bgroups = s.bgroups := rfl
@[simp] theorem send_govs (x : Sent) (s : State) : (send x s).govs = s.govs := rfl
@[simp] theorem send_probes (x : Sent) (s : State) : (send x s).probes = s.probes := rfl
@[simp] theorem send_vmons (x : Sent) (s : State) : (send x s).vmons = s.vmons := rfl
@[simp] theorem send_pwr (x : Sent) (s : State) : (send x s).pwr = s.pwr := rfl
@[simp] theorem send_sens (x : Sent) (s : State) : (send x s).sens = s.sens := rfl
@[simp] theorem send_thm (x : Sent) (s : State) : (send x s).thm = s.thm := rfl
@[simp] theorem send_ports (x : Sent) (s : State) : (send x s).ports = s.ports := rfl
@[simp] theorem send_lanes (x : Sent) (s : State) : (send x s).lanes = s.lanes := rfl
@[simp] theorem send_net (x : Sent) (s : State) : (send x s).net = s.net := rfl
@[simp] theorem send_bru (x : Sent) (s : State) : (send x s).bru = s.bru := rfl
@[simp] theorem send_rst (x : Sent) (s : State) : (send x s).rst = s.rst := rfl
@[simp] theorem send_board (x : Sent) (s : State) : (send x s).board = s.board := rfl
@[simp] theorem send_tick (x : Sent) (s : State) : (send x s).tick = s.tick := rfl
@[simp] theorem send_pending (x : Sent) (s : State) : (send x s).pending = s.pending := rfl
@[simp] theorem getAry_send (x : Sent) (s : State) (j : Nat) : (send x s).getAry j = s.getAry j := rfl
@[simp] theorem getGrp_send (x : Sent) (s : State) (j : Nat) : (send x s).getGrp j = s.getGrp j := rfl
@[simp] theorem getSite_send (x : Sent) (s : State) (j : Nat) : (send x s).getSite j = s.getSite j := rfl
@[simp] theorem getDma_send (x : Sent) (s : State) (j : Nat) : (send x s).getDma j = s.getDma j := rfl
@[simp] theorem getSlc_send (x : Sent) (s : State) (j : Nat) : (send x s).getSlc j = s.getSlc j := rfl
@[simp] theorem getMCh_send (x : Sent) (s : State) (j : Nat) : (send x s).getMCh j = s.getMCh j := rfl
@[simp] theorem getCtx_send (x : Sent) (s : State) (j : Nat) : (send x s).getCtx j = s.getCtx j := rfl
@[simp] theorem getXrq_send (x : Sent) (s : State) (j : Nat) : (send x s).getXrq j = s.getXrq j := rfl
@[simp] theorem getPart_send (x : Sent) (s : State) (j : Nat) : (send x s).getPart j = s.getPart j := rfl
@[simp] theorem getQue_send (x : Sent) (s : State) (j : Nat) : (send x s).getQue j = s.getQue j := rfl
@[simp] theorem getSyn_send (x : Sent) (s : State) (j : Nat) : (send x s).getSyn j = s.getSyn j := rfl
@[simp] theorem getBun_send (x : Sent) (s : State) (j : Nat) : (send x s).getBun j = s.getBun j := rfl
@[simp] theorem getBgr_send (x : Sent) (s : State) (j : Nat) : (send x s).getBgr j = s.getBgr j := rfl
@[simp] theorem getGov_send (x : Sent) (s : State) (j : Nat) : (send x s).getGov j = s.getGov j := rfl
@[simp] theorem getPrb_send (x : Sent) (s : State) (j : Nat) : (send x s).getPrb j = s.getPrb j := rfl
@[simp] theorem getVmn_send (x : Sent) (s : State) (j : Nat) : (send x s).getVmn j = s.getVmn j := rfl
@[simp] theorem getSen_send (x : Sent) (s : State) (j : Nat) : (send x s).getSen j = s.getSen j := rfl
@[simp] theorem getPort_send (x : Sent) (s : State) (j : Nat) : (send x s).getPort j = s.getPort j := rfl
@[simp] theorem getLane_send (x : Sent) (s : State) (j : Nat) : (send x s).getLane j = s.getLane j := rfl
@[simp] theorem memWf_send (x : Sent) (s : State) : (send x s).memWf = s.memWf := rfl

end Sys2Proof.Laws
end

