-- ==== Sys2Proof/Laws/Memory.lean ====
section
/-! SUPPORT. Every memory operation keeps the canonical form of the byte memories (`State.memWf`), and what the operations
that do not write leave of them. -/

namespace Sys2Proof.Laws
open Sys2Proof Sys2Proof.Machine

/-- The form rests on three fields only. -/
theorem memWf_of_eq {s t : State} (h1 : t.loess = s.loess) (h2 : t.marl = s.marl) (h3 : t.board.flash = s.board.flash) :
    t.memWf = s.memWf := by simp [State.memWf, h1, h2, h3]

theorem memWf_loess {s : State} (a : Nat) (bs : List Byte) (h : s.memWf = true) :
    ({ s with loess := putBytes 0 s.loess a bs } : State).memWf = true := by
  simp [State.memWf] at h ⊢
  exact ⟨⟨wf_putBytes _ _ _ _ h.1.1, h.1.2⟩, h.2⟩

theorem memWf_flash {s : State} (a : Nat) (bs : List Byte) (h : s.memWf = true) :
    ({ s with board := { s.board with flash := putBytes 0xFF s.board.flash a bs } } : State).memWf = true := by
  simp [State.memWf] at h ⊢
  exact ⟨h.1, wf_putBytes _ _ _ _ h.2⟩

/-! ### Errors and repair feeds -/

@[simp] theorem memWf_setWordBad (j w : Nat) (b : Bool) (s : State) : (setWordBad j w b s).memWf = s.memWf := rfl
@[simp] theorem memWf_sliceErr (j k off : Nat) (s : State) : (sliceErr j k off s).memWf = s.memWf := rfl
@[simp] theorem memWf_loessRepairFeed (j off b : Nat) (u : Bool) (s : State) : (loessRepairFeed j off b u s).memWf = s.memWf := by
  unfold loessRepairFeed; rw [memWf_modSlc]
@[simp] theorem memWf_sliceCorrectable (j off b : Nat) (s : State) : (sliceCorrectable j off b s).memWf = s.memWf := by
  unfold sliceCorrectable; simp
@[simp] theorem memWf_sliceUncorrectable (j off b : Nat) (s : State) : (sliceUncorrectable j off b s).memWf = s.memWf := by
  unfold sliceUncorrectable; simp
@[simp] theorem memWf_slicePoisonRead (j off : Nat) (s : State) : (slicePoisonRead j off s).memWf = s.memWf := by
  unfold slicePoisonRead; simp
@[simp] theorem memWf_marlRowCorrected (k : Nat) (s : State) : (marlRowCorrected k s).memWf = s.memWf := rfl
@[simp] theorem memWf_marlRowDue (k : Nat) (s : State) : (marlRowDue k s).memWf = s.memWf := by unfold marlRowDue; split <;> rfl

@[simp] theorem memWf_strikeSlice (j : Nat) (e : List WordFault) (s : State) : (strikeSlice j e s).memWf = s.memWf := rfl
@[simp] theorem memWf_wordsWritten (j : Nat) (ws : List Nat) (s : State) : (wordsWritten j ws s).memWf = s.memWf := rfl
@[simp] theorem memWf_strikeCw (cw : Nat) (e : List SymErr) (s : State) : (strikeCw cw e s).memWf = s.memWf := rfl
@[simp] theorem memWf_wiresSeen (m : Nat) (ps : List Nat) (s : State) : (wiresSeen m ps s).memWf = s.memWf := rfl
@[simp] theorem memWf_marlCount (a : BitVec 40) (m : Nat) (o : MarlOutcome) (s : State) : (marlCount a m o s).memWf = s.memWf := by
  unfold marlCount; split <;> simp

/-! ### Scratch slices -/

@[simp] theorem memWf_scratchMeet (j w : Nat) (sb : State × Bool) : (scratchMeet j w sb).1.memWf = sb.1.memWf := by
  unfold scratchMeet; split
  · rfl
  · split <;> simp

@[simp] theorem memWf_scratchReadWord (j w : Nat) (sb : State × Bool) : (scratchReadWord j w sb).1.memWf = sb.1.memWf := by
  unfold scratchReadWord; split <;> simp

/-- Reading the words of a scratch slice changes no byte. -/
theorem memWf_scratchWords (j : Nat) (ws : List Nat) (sb : State × Bool) (h : sb.1.memWf = true) :
    (ws.foldl (fun sb w => scratchReadWord j w sb) sb).1.memWf = true :=
  foldl_keeps (fun sb : State × Bool => sb.1.memWf = true) _ ws sb (fun sb w hw => by rw [memWf_scratchReadWord]; exact hw) h

theorem memWf_scratchRead (j x len : Nat) (s : State) (h : s.memWf = true) : (scratchRead j x len s).1.memWf = true := by
  unfold scratchRead
  dsimp only
  split <;> exact memWf_scratchWords _ _ _ h

theorem memWf_scratchWriteWord (j x : Nat) (data : List Byte) (w : Nat) (sb : State × Bool) (h : sb.1.memWf = true) :
    (scratchWriteWord j x data w sb).1.memWf = true := by
  unfold scratchWriteWord
  dsimp only
  split
  · rw [memWf_wordsWritten]; exact memWf_loess _ _ (by simpa using h)
  · split
    · exact h
    · split
      · simpa using h
      · rw [memWf_wordsWritten]; exact memWf_loess _ _ (by simpa using h)

theorem memWf_scratchWrite (j x : Nat) (data : List Byte) (s : State) (h : s.memWf = true) :
    (scratchWrite j x data s).1.memWf = true := by
  have key := foldl_keeps (fun sb : State × Bool => sb.1.memWf = true) (fun sb w => scratchWriteWord j x data w sb) (wordsOf x data.length)
    (s, false) (fun sb w hw => memWf_scratchWriteWord j x data w sb hw) h
  unfold scratchWrite
  dsimp only
  split
  · exact key
  · rw [memWf_modSlc]; exact key

/-! ### Marl codewords -/

theorem memWf_putArrayCw (cw : Nat) (d : List Byte) (p : Bool) (s : State) (h : s.memWf = true) :
    (putArrayCw cw d p s).memWf = true := by
  simp [State.memWf, putArrayCw] at h ⊢
  exact ⟨⟨h.1.1, wf_putBytes _ _ _ _ h.1.2⟩, h.2⟩

theorem memWf_drainWrites (q : List MWrite) (s : State) (h : s.memWf = true) :
    (forL q (fun e s => putArrayCw e.cw e.data e.poison s) s).memWf = true :=
  forL_keeps (fun s => s.memWf = true) _ _ s (fun _ s hs => memWf_putArrayCw _ _ _ s hs) h

theorem memWf_drainChannel (m : Nat) (s : State) (h : s.memWf = true) : (drainChannel m s).memWf = true := by
  unfold drainChannel
  rw [memWf_modMCh]
  exact memWf_drainWrites _ _ h

theorem memWf_queueRoom (m l : Nat) (s : State) (h : s.memWf = true) : (queueRoom m l s).memWf = true := by
  unfold queueRoom
  dsimp only
  split
  · exact h
  · rw [memWf_modMCh]; exact memWf_drainWrites _ _ h

theorem memWf_marlEnqueue (cw : Nat) (d : List Byte) (p part : Bool) (s : State) (h : s.memWf = true) :
    (marlEnqueue cw d p part s).memWf = true := by
  unfold marlEnqueue
  dsimp only
  rw [memWf_modMCh]
  exact memWf_queueRoom _ _ _ h

theorem memWf_marlAccept (cw : Nat) (d : List Byte) (p : Bool) (s : State) (h : s.memWf = true) : (marlAccept cw d p s).memWf = true :=
  memWf_marlEnqueue _ _ _ _ _ h

theorem memWf_marlReadCw (cw : Nat) (s : State) (h : s.memWf = true) : (marlReadCw cw s).memWf = true := by
  unfold marlReadCw marlOutcomeActs
  dsimp only
  split
  · simpa using h
  · simpa using h
  · simpa using h
  · rw [memWf_marlRowDue]; exact memWf_marlAccept _ _ _ _ (by simpa using h)

theorem memWf_marlPartial (cw : Nat) (w : BitVec 8) (d : List Byte) (p : Bool) (s : State) (h : s.memWf = true) :
    (marlPartial cw w d p s).memWf = true := by
  unfold marlPartial
  dsimp only
  split
  · rw [memWf_modMCh]; exact h
  · exact memWf_marlEnqueue _ _ _ _ _ (by rw [memWf_modMCh]; exact memWf_marlReadCw _ _ h)

/-! ### Cache lines -/

@[simp] theorem memWf_setTags (j k : Nat) (ts : List Tag) (s : State) : (setTags j k ts s).memWf = s.memWf := rfl

theorem memWf_writeBack (l : Nat) (v d p : W32) (ws : Tbl W64) (s : State) (h : s.memWf = true) : (writeBack l v d p ws s).memWf = true := by
  unfold writeBack
  refine forN_keeps (fun s => s.memWf = true) _ _ s (fun k s hs => ?_) h
  dsimp only
  split
  · exact hs
  · split
    · exact memWf_marlAccept _ _ _ _ hs
    · exact memWf_marlPartial _ _ _ _ _ hs

@[simp] theorem memWf_countSurplus (p c tier : Nat) (s : State) : (countSurplus p c tier s).memWf = s.memWf := by
  unfold countSurplus; split <;> rfl

@[simp] theorem memWf_marlTake (m : Nat) (c : Cand) (s : State) : (marlTake m c s).memWf = s.memWf := by
  unfold marlTake marlServe
  cases arbServe (marlShare s (m / 17)) 160 24 s.skt.time (fun c => (Tbl.get {} s.svc.classes c).marlW) (s.getMCh m).arb [c] <;> simp

theorem memWf_wbPut (j : Nat) (e : WbEnt) (s : State) (h : s.memWf = true) : (wbPut j e s).memWf = true := by
  unfold wbPut; rw [memWf_modSlc]; exact memWf_writeBack _ _ _ _ _ _ h

theorem memWf_wbDone (j : Nat) (e : WbEnt) (s : State) (h : s.memWf = true) : (wbDone j e s).memWf = true :=
  memWf_wbPut _ _ _ (by rw [memWf_marlTake]; exact h)

theorem memWf_wbRoom (j : Nat) (s : State) (h : s.memWf = true) : (wbRoom j s).memWf = true := by
  unfold wbRoom; split
  · split
    · exact memWf_wbDone _ _ _ h
    · exact h
  · exact h

/-- A fetch from below leaves the bytes in their form. -/
theorem memWf_marlFetch (j : Nat) (lab : Label) (cw : Nat) (s : State) (h : s.memWf = true) : (marlFetch j lab cw s).1.memWf = true :=
  memWf_marlReadCw _ _ (by rw [memWf_marlTake]; exact h)

theorem memWf_fetchWords (src : FillSrc) (j : Nat) (ws : List Nat) (t : Tag) (s : State) (h : s.memWf = true) :
    (fetchWords src j ws t s).1.memWf = true := by
  unfold fetchWords
  refine foldl_keeps (fun a : State × Tag => a.1.memWf = true) _ (List.range 4) _ (fun a k ha => ?_) h
  dsimp only
  split
  · exact ha
  · split
    · exact ha
    · exact memWf_marlFetch _ _ _ _ ha

theorem memWf_fillTag (src : FillSrc) (j : Nat) (t : Tag) (s : State) (h : s.memWf = true) : (fillTag src j t s).1.memWf = true :=
  memWf_fetchWords _ _ _ _ _ h

theorem memWf_lineMeet (lab : Label) (j : Nat) (held : W32) (ws : List Nat) (t : Tag) (s : State) (h : s.memWf = true) :
    (lineMeet lab j held ws t s).1.memWf = true := by
  unfold lineMeet
  dsimp only
  refine memWf_fetchWords _ _ _ _ _ ?_
  refine foldl_keeps (fun a : State × List Nat => a.1.memWf = true) _ _ _ (fun a k ha => ?_) h
  split
  · exact ha
  · split
    · rw [memWf_sliceCorrectable]; exact ha
    · rw [memWf_wordsWritten, memWf_sliceUncorrectable]; exact ha

theorem memWf_lineCheck (lab : Label) (j : Nat) (held : W32) (ws : List Nat) (t : Tag) (s : State) (h : s.memWf = true) :
    (lineCheck lab j held ws t s).1.memWf = true := by
  unfold lineCheck
  dsimp only
  exact memWf_lineMeet _ _ _ _ _ _ (forL_keeps (fun s => s.memWf = true) _ _ s (fun i s hs => by rw [memWf_slicePoisonRead]; exact hs) h)

theorem memWf_evictLine (j k l : Nat) (s : State) (h : s.memWf = true) : (evictLine j k l s).memWf = true := by
  unfold evictLine; split
  · exact h
  · dsimp only; split
    · simpa using h
    · rw [memWf_modSlc, memWf_setTags]; exact memWf_lineMeet _ _ _ _ _ _ (memWf_wbRoom _ _ h)

theorem memWf_tagRoom (j k : Nat) (s : State) (h : s.memWf = true) : (tagRoom j k s).memWf = true := by
  unfold tagRoom; dsimp only; split
  · exact h
  · split
    · simpa using h
    · exact h

@[simp] theorem memWf_slotWritten (j : Nat) (t : Tag) (s : State) : (slotWritten j t s).memWf = s.memWf := rfl

theorem memWf_placeLine (j : Nat) (t : Tag) (s u : State) (h : s.memWf = true) (hp : placeLine j t s = some u) : u.memWf = true := by
  unfold placeLine at hp
  dsimp only at hp
  split at hp
  · cases hp
  · cases hp
    rw [memWf_slotWritten, memWf_setTags]
    refine memWf_tagRoom _ _ _ (forL_keeps (fun s : State => s.memWf = true) _ _ _ (fun l s hs => memWf_evictLine _ _ _ _ hs) ?_)
    simpa using h

@[simp] theorem memWf_keepLine (j : Nat) (t : Tag) (s : State) : (keepLine j t s).memWf = s.memWf := rfl

theorem memWf_leaveLine (j : Nat) (t : Tag) (s : State) (h : s.memWf = true) : (leaveLine j t s).memWf = true := by
  unfold leaveLine
  dsimp only
  split
  · simpa using h
  · rw [memWf_modSlc]; exact memWf_wbRoom _ _ (by simpa using h)

@[simp] theorem memWf_keepSlot (j : Nat) (ws : List Nat) (t : Tag) (all : Bool) (s : State) : (keepSlot j ws t all s).memWf = s.memWf := by
  unfold keepSlot; extract_lets u s1; split <;> rfl

theorem memWf_settleLine (j : Nat) (was : Bool) (ws : List Nat) (t : Tag) (s : State) (h : s.memWf = true) :
    (settleLine j was ws t s).memWf = true := by
  unfold settleLine
  split
  · split
    · rename_i s' hp; exact memWf_placeLine _ _ _ _ h hp
    · exact memWf_leaveLine _ _ _ h
  · split
    · simpa using h
    · simpa using h

/-! ### Pending home operations -/

theorem memWf_homeOn (lab : Label) (j : Nat) (held : W32) (o : Nat) (op : HomeOp) (t : Tag) (s : State) (h : s.memWf = true) :
    (homeOn lab j held o op t s).1.memWf = true := by
  unfold homeOn
  dsimp only
  exact memWf_lineCheck _ _ _ _ _ _ (memWf_lineMeet _ _ _ _ _ _ h)

@[simp] theorem memWf_reply (w : Agent) (e : Option MemErr) (b : List Byte) (s : State) : (reply w e b s).memWf = s.memWf := by
  unfold reply; split <;> rfl
@[simp] theorem memWf_replyWrite (w : Agent) (e : Option MemErr) (s : State) : (replyWrite w e s).memWf = s.memWf := by
  unfold replyWrite; split <;> rfl
@[simp] theorem memWf_replyOp (w : Agent) (r : Bool) (e : Option MemErr) (b : List Byte) (s : State) :
    (replyOp w r e b s).memWf = s.memWf := by
  unfold replyOp; split <;> simp

theorem memWf_applyOps (j n : Nat) (t : Tag) (s : State) (h : s.memWf = true) : (applyOps j n t s).1.memWf = true := by
  unfold applyOps
  dsimp only
  refine foldl_keeps (fun a : State × Tag => a.1.memWf = true) _ _ _ (fun a p ha => ?_) h
  rw [memWf_replyOp]; exact memWf_homeOn _ _ _ _ _ _ _ ha

theorem memWf_applyPend (j l n : Nat) (s : State) (h : s.memWf = true) : (applyPend j l n s).memWf = true := by
  unfold applyPend; split
  · exact h
  · dsimp only
    rw [memWf_keepLine]
    exact memWf_applyOps _ _ _ _ h

theorem memWf_resettle (j l : Nat) (s : State) (h : s.memWf = true) : (resettle j l s).memWf = true := by
  unfold resettle; split
  · exact h
  · exact memWf_settleLine _ _ _ _ _ h

theorem memWf_unlockSet (j k l : Nat) (s : State) (h : s.memWf = true) : (unlockSet j k l s).memWf = true := by
  unfold unlockSet
  exact forL_keeps (fun s : State => s.memWf = true) _ _ _ (fun l s hs => memWf_resettle _ _ _ hs)
    (forL_keeps (fun s : State => s.memWf = true) _ _ _ (fun l s hs => memWf_applyPend _ _ _ _ hs) h)

@[simp] theorem memWf_lockWaits (j k l : Nat) (s : State) : (lockWaits j k l s).memWf = s.memWf := by unfold lockWaits; split <;> rfl
@[simp] theorem memWf_lockOver (j l : Nat) (s : State) : (lockOver j l s).memWf = s.memWf := rfl

theorem memWf_storeLine (j : Nat) (was : Bool) (ws : List Nat) (t : Tag) (s : State) (h : s.memWf = true) :
    (storeLine j was ws t s).memWf = true := by
  have key : ∀ r : State × Tag, r.1.memWf = true →
      (match slotWait r.1 j was r.2 with
      | .locked => lockOver j r.2.line (settleLine j was ws r.2 (unlockSet j (setOf r.2.line) r.2.line (lockWaits j (setOf r.2.line) r.2.line r.1)))
      | .ready => lockOver j r.2.line (settleLine j was ws r.2 r.1)
      | .buffer => lockOver j r.2.line (settleLine j was ws r.2 r.1)).memWf = true := by
    intro r hr
    split
    · rw [memWf_lockOver]; exact memWf_settleLine _ _ _ _ _ (memWf_unlockSet _ _ _ _ (by simpa using hr))
    · rw [memWf_lockOver]; exact memWf_settleLine _ _ _ _ _ hr
    · rw [memWf_lockOver]; exact memWf_settleLine _ _ _ _ _ hr
  unfold storeLine
  refine key (if leaves s j was t then applyOps j 4 t s else (s, t)) ?_
  split
  · exact memWf_applyOps _ _ _ _ h
  · exact h

theorem memWf_commitAll (j l : Nat) (s : State) (h : s.memWf = true) : (commitAll j l s).memWf = true := by
  unfold commitAll; split
  · dsimp only; split
    · exact memWf_applyPend _ _ _ _ h
    · exact memWf_storeLine _ _ _ _ _ (memWf_applyPend _ _ _ _ h)
  · exact h

theorem memWf_commitOps (j l n : Nat) (s : State) (h : s.memWf = true) : (commitOps j l n s).memWf = true := by
  unfold commitOps
  refine forN_keeps (fun s => s.memWf = true) _ _ s (fun _ s hs => ?_) h
  unfold commitOne
  split
  · dsimp only; split
    · exact memWf_applyPend _ _ _ _ hs
    · split
      · exact memWf_storeLine _ _ _ _ _ (memWf_applyPend _ _ _ _ hs)
      · exact hs
      · simpa using hs
  · exact hs

theorem memWf_tombstoneRead (j l : Nat) (s : State) : (tombstoneRead j l s).1.memWf = s.memWf := by
  unfold tombstoneRead; split
  · split <;> rfl
  · rfl

theorem memWf_deadLine (pa c : Nat) (s : State) (h : s.memWf = true) : (deadLine pa c s).memWf = true := by
  unfold deadLine; split
  · exact h
  · dsimp only; split
    · exact h
    · split
      · exact memWf_commitAll _ _ _ h
      · rw [memWf_setTags]; exact memWf_commitAll _ _ _ h

theorem memWf_filledLine (src : FillSrc) (j l cls : Nat) (s : State) (h : s.memWf = true) : (filledLine src j l cls s).1.memWf = true :=
  memWf_fillTag _ _ _ _ h

theorem memWf_writeOn (lab : Label) (j : Nat) (held : W32) (o : Nat) (d : List Byte) (t : Tag) (s : State) (h : s.memWf = true) :
    (writeOn lab j held o d t s).1.memWf = true := by
  unfold writeOn
  dsimp only
  exact memWf_lineMeet _ _ _ _ _ _ h

/-! ### Misses that an access meets -/

theorem memWf_applyJoined (lab : Label) (j : Nat) (held : W32) (jn : Joined) (st : State × Tag) (h : st.1.memWf = true) :
    (applyJoined lab j held jn st).1.memWf = true := by
  unfold applyJoined; split
  · rw [memWf_reply]; exact memWf_lineCheck _ _ _ _ _ _ h
  · rw [memWf_replyWrite]; exact memWf_writeOn _ _ _ _ _ _ _ h
  · rw [memWf_replyOp]; exact memWf_homeOn _ _ _ _ _ _ _ h

theorem memWf_fillEntry (j : Nat) (m : Miss) (s : State) (h : s.memWf = true) : (fillEntry j m s).1.memWf = true := by
  unfold fillEntry
  dsimp only
  refine forL_keeps (fun a : State × Tag => a.1.memWf = true) _ _ _ (fun _ a ha => memWf_applyJoined _ _ _ _ _ ha) ?_
  rw [memWf_modSlc]; exact memWf_filledLine _ _ _ _ _ h

theorem memWf_fillNow (j l : Nat) (s : State) (h : s.memWf = true) : (fillNow j l s).memWf = true := by
  unfold fillNow; split
  · exact h
  · exact memWf_storeLine _ _ _ _ _ (memWf_fillEntry _ _ _ h)

theorem memWf_meetMiss (j l : Nat) (s : State) (h : s.memWf = true) : (meetMiss j l s).memWf = true := by
  unfold meetMiss; dsimp only; split
  · exact memWf_fillNow _ _ _ (by simpa using h)
  · split
    · exact h
    · exact memWf_fillNow _ _ _ (by simpa using h)

theorem memWf_freeSet (j l : Nat) (s : State) (h : s.memWf = true) : (freeSet j l s).memWf = true := by
  unfold freeSet
  refine forL_keeps (fun s : State => s.memWf = true) _ _ _ (fun e s hs => ?_) h
  rw [memWf_lockOver]
  exact memWf_fillNow _ _ _ (memWf_unlockSet _ _ _ _ hs)

theorem memWf_cacheReadNow (l o len : Nat) (lab : Label) (s : State) (h : s.memWf = true) : (cacheReadNow l o len lab s).1.memWf = true := by
  unfold cacheReadNow; split
  · exact h
  · rename_i j _
    dsimp only; split
    · rw [memWf_tombstoneRead]; exact h
    · have h0 : (tombstoneRead j l s).1.memWf = true := (memWf_tombstoneRead j l s).trans h
      have h1 : (if lineFull (tombstoneRead j l s).1 j l then (tombstoneRead j l s).1
          else meetMiss j l (tombstoneRead j l s).1).memWf = true := by
        split
        · exact h0
        · exact memWf_meetMiss _ _ _ h0
      generalize (if lineFull (tombstoneRead j l s).1 j l then (tombstoneRead j l s).1
          else meetMiss j l (tombstoneRead j l s).1) = s1 at h1 ⊢
      have h2 := memWf_lineCheck lab j (((resident s1 j l).map (·.valid)).getD 0) (wordsOf o len)
        (filledLine (.marl lab) j l lab.1 s1).2 _ (memWf_filledLine (.marl lab) j l lab.1 s1 h1)
      split
      · rw [memWf_keepLine]; exact h2
      · exact memWf_storeLine _ _ _ _ _ h2

theorem memWf_cacheWriteNow (l o : Nat) (lab : Label) (d : List Byte) (s : State) (h : s.memWf = true) :
    (cacheWriteNow l o lab d s).1.memWf = true := by
  unfold cacheWriteNow; split
  · exact h
  · rename_i j _
    dsimp only
    have h1 : (if needsFill o d.length ((resident s j l).getD (newTag l lab.1)) then meetMiss j l s else s).memWf = true := by
      split
      · exact memWf_meetMiss _ _ _ h
      · exact h
    generalize (if needsFill o d.length ((resident s j l).getD (newTag l lab.1)) then meetMiss j l s else s) = s1 at h1 ⊢
    have h2 : (if needsFill o d.length ((resident s1 j l).getD (newTag l lab.1)) then
        fillTag (.marl lab) j ((resident s1 j l).getD (newTag l lab.1)) s1 else (s1, (resident s1 j l).getD (newTag l lab.1))).1.memWf = true := by
      split
      · exact memWf_fillTag _ _ _ _ h1
      · exact h1
    generalize (if needsFill o d.length ((resident s1 j l).getD (newTag l lab.1)) then
        fillTag (.marl lab) j ((resident s1 j l).getD (newTag l lab.1)) s1 else (s1, (resident s1 j l).getD (newTag l lab.1))) = r at h2 ⊢
    have h3 := fun was ws hd => memWf_storeLine j was ws (writeOn lab j hd o d r.2 r.1).2.1 _ (memWf_writeOn lab j hd o d r.2 r.1 h2)
    split
    · rw [memWf_modSlc]; exact h3 _ _ _
    · exact h3 _ _ _

theorem memWf_cacheOpNow (l o : Nat) (lab : Label) (op : HomeOp) (s : State) (h : s.memWf = true) :
    (cacheOpNow l o lab op s).1.memWf = true := by
  unfold cacheOpNow; split
  · exact h
  · rename_i j _
    dsimp only
    have h0 : (if setHeld s j l then freeSet j l s else s).memWf = true := by
      split
      · exact memWf_freeSet _ _ _ h
      · exact h
    generalize (if setHeld s j l then freeSet j l s else s) = s0 at h0 ⊢
    have ht : (tombstoneRead j l (commitAll j l s0)).1.memWf = true := (memWf_tombstoneRead j l _).trans (memWf_commitAll j l s0 h0)
    generalize tombstoneRead j l (commitAll j l s0) = r at ht ⊢
    split
    · exact ht
    · have h1 : (if lineFull r.1 j l then r.1 else meetMiss j l r.1).memWf = true := by
        split
        · exact ht
        · exact memWf_meetMiss _ _ _ ht
      generalize (if lineFull r.1 j l then r.1 else meetMiss j l r.1) = s1 at h1 ⊢
      exact memWf_storeLine _ _ _ _ _ (memWf_homeOn _ _ _ _ _ _ _ (memWf_filledLine _ _ _ _ _ h1))

theorem memWf_scratchOp (j x : Nat) (op : HomeOp) (s : State) (h : s.memWf = true) : (scratchOp j x op s).1.memWf = true := by
  unfold scratchOp
  dsimp only
  have hr := memWf_scratchWords j ((opWords (x % 256) op).map (x / 256 * 256 / 8 + ·)) (s, false) h
  rw [List.foldl_map] at hr
  generalize (opWords (x % 256) op).foldl (fun sb i => scratchReadWord j (x / 256 * 256 / 8 + i) sb) (s, false) = r at hr ⊢
  refine forN_keeps (fun s : State => s.memWf = true) 32 _ r.1 (fun i s hs => ?_) hr
  split
  · rw [memWf_wordsWritten]; exact memWf_loess _ _ hs
  · exact hs

/-! ### Local memory -/

@[simp] theorem memWf_sliceStart (j : Nat) (s : State) : (sliceStart j s).memWf = s.memWf := by
  unfold sliceStart; dsimp only; split <;> rfl

theorem memWf_sliceStarts (pa len : Nat) (s : State) (h : s.memWf = true) : (sliceStarts pa len s).memWf = true :=
  forL_keeps (fun s : State => s.memWf = true) _ _ s (fun e s hs => by rw [memWf_sliceStart]; exact hs) h

theorem memWf_memRead (pa len : Nat) (lab : Label) (s : State) (h : s.memWf = true) : (memRead pa len lab s).1.memWf = true := by
  unfold memRead
  refine foldl_keeps (fun a : State × Option MemErr × List Byte => a.1.memWf = true) _ (pieces pa len) _ (fun a p ha => ?_)
    (memWf_sliceStarts _ _ _ h)
  obtain ⟨s, e, bs⟩ := a
  dsimp only at ha ⊢
  split
  · exact ha
  · split
    · exact memWf_cacheReadNow _ _ _ _ _ ha
    · split
      · exact memWf_scratchRead _ _ _ _ ha
      · exact ha

theorem memWf_memWrite (pa : Nat) (d : List Byte) (lab : Label) (s : State) (h : s.memWf = true) : (memWrite pa d lab s).1.memWf = true := by
  unfold memWrite
  refine foldl_keeps (fun a : State × Option MemErr => a.1.memWf = true) _ (pieces pa d.length) _ (fun a p ha => ?_)
    (memWf_sliceStarts _ _ _ h)
  obtain ⟨s, e⟩ := a
  dsimp only at ha ⊢
  split
  · exact ha
  · split
    · exact memWf_cacheWriteNow _ _ _ _ _ ha
    · split
      · exact memWf_scratchWrite _ _ _ _ ha
      · exact ha

theorem memWf_memOp (pa : Nat) (lab : Label) (op : HomeOp) (s : State) (h : s.memWf = true) : (memOp pa lab op s).1.memWf = true := by
  have h' := memWf_sliceStarts pa 1 s h
  unfold memOp
  dsimp only
  split
  · exact h'
  · split
    · exact memWf_cacheOpNow _ _ _ _ _ h'
    · split
      · exact h'
      · exact memWf_scratchOp _ _ _ _ h'

/-! ### Flash -/

theorem memWf_zeroRange_flash {s : State} (a n : Nat) (h : s.memWf = true) :
    ({ s with board := { s.board with flash := zeroRange s.board.flash a n } } : State).memWf = true := by
  simp [State.memWf] at h ⊢
  exact ⟨h.1, wf_filter _ _ _ h.2⟩

theorem memWf_logAppend (k : Nat) (r : Repair) (s : State) (h : s.memWf = true) : (logAppend k r s).memWf = true := by
  simp [State.memWf, logAppend] at h ⊢
  exact ⟨h.1, wf_putBytes _ _ _ _ h.2⟩

theorem memWf_logErase (b : Bool) (s : State) (h : s.memWf = true) : (logErase b s).memWf = true := by
  simp [State.memWf, logErase] at h ⊢
  exact ⟨h.1, wf_filter _ _ _ h.2⟩

end Sys2Proof.Laws
end

