-- ==== Sys2Proof/Laws/Ops.lean ====
section
/-! SUPPORT. One lemma for each shared operation that says what it can do, so that a proof cites it in place of unfolding
the operation: bits and bytes, registers of a group, events and counted refusals, packets sent, the step. -/

namespace Sys2Proof.Laws
open Sys2Proof Sys2Proof.Machine

/-! ### Bits and bytes -/

theorem getBit_setBit {n : Nat} (v : BitVec n) (i j : Nat) (b : Bool) :
    getBit (setBit v i b) j = if j = i ∧ j < n then b else getBit v j := by
  unfold getBit setBit
  by_cases hj : j < n
  · cases b <;> by_cases h : j = i <;> simp [h, hj] <;> grind
  · have : n ≤ j := by omega
    simp [hj, BitVec.getLsbD_of_ge _ _ this]

@[simp] theorem leBytes_length (n v : Nat) : (leBytes n v).length = n := by
  induction n generalizing v with
  | zero => rfl
  | succ n ih => simp [leBytes, ih]

@[simp] theorem lineBytes_length (l : Line) : (lineBytes l).length = 64 := by
  simp only [lineBytes, List.length_flatMap, leBytes_length]; rfl

/-- The bytes of a number, read back. -/
theorem ofLe_leBytes (n v : Nat) : ofLe (leBytes n v) = v % 256 ^ n := by
  induction n generalizing v with
  | zero => simp [leBytes, ofLe, Nat.mod_one]
  | succ n ih =>
    have h : 256 ^ (n + 1) = 256 * 256 ^ n := by rw [Nat.pow_succ, Nat.mul_comm]
    simp only [leBytes, ofLe, ih, BitVec.toNat_ofNat, h, Nat.mod_mul]

/-! ### Registers of a group -/

theorem getReg_setReg (g : Group) (v l : Nat) (x : W32) (u k : Nat) (hl : l < 32) (hk : k < 32) :
    getReg (setReg g v l x) u k = if u = v ∧ k = l then x else getReg g u k := by
  unfold getReg setReg
  rw [get_put]
  by_cases h : u = v ∧ k = l
  · rw [if_pos h, if_pos (by omega)]
  · rw [if_neg h, if_neg (by omega)]

theorem getReg_setRegs (g : Group) (v : Nat) (m : W32) (f : Nat → W32) (u k : Nat) (hk : k < 32) :
    getReg (setRegs g v m f) u k = if u = v ∧ getBit m k = true then f k else getReg g u k := by
  have key : ∀ (ls : List Nat) (g : Group), (∀ l ∈ ls, l < 32) →
      getReg (ls.foldl (fun g l => setReg g v l (f l)) g) u k = if u = v ∧ k ∈ ls then f k else getReg g u k := by
    intro ls
    induction ls with
    | nil => simp
    | cons a ls ih =>
      intro g h
      rw [List.foldl_cons, ih _ (fun l hl => h l (List.mem_cons_of_mem _ hl)), getReg_setReg _ _ _ _ _ _ (h a List.mem_cons_self) hk]
      grind
  unfold setRegs
  rw [key _ _ (fun l hl => by simp [lanesOf] at hl; exact hl.1)]
  simp [lanesOf, hk]

@[simp] theorem setReg_reg_only (g : Group) (v l : Nat) (x : W32) : { setReg g v l x with reg := g.reg, loads := g.loads } = g := rfl

/-- Continuing at a reconvergence point moves only the pc, the execution mask and the stack. -/
theorem unwind_eq (n : Nat) (g : Group) :
    unwind n g = { g with pc := (unwind n g).pc, exec := (unwind n g).exec, stack := (unwind n g).stack } := by
  induction n generalizing g with
  | zero => rfl
  | succ n ih =>
    have again : ∀ x : Group, { x with pc := g.pc, exec := g.exec, stack := g.stack } = g →
        ∀ y, y = (if x.exec = 0 then unwind n x else match x.stack with
          | a :: _ => if a.reconv = x.pc ∧ a.st ≠ 2 then unwind n x else x
          | [] => x) → y = { g with pc := y.pc, exec := y.exec, stack := y.stack } := by
      intro x hx y hy
      have hu : unwind n x = { g with pc := (unwind n x).pc, exec := (unwind n x).exec, stack := (unwind n x).stack } := by
        rw [← hx]; exact ih x
      have hx2 : x = { g with pc := x.pc, exec := x.exec, stack := x.stack } := by rw [← hx]
      subst hy
      split
      · exact hu
      · split
        · split
          · exact hu
          · exact hx2
        · exact hx2
    suffices H : ∀ y, y = unwind (n + 1) g → y = { g with pc := y.pc, exec := y.exec, stack := y.stack } from H _ rfl
    intro y hy
    rw [unwind] at hy
    split at hy
    · subst hy; rfl
    · extract_lets go at hy
      split at hy
      · exact again _ (by rfl) y hy
      · split at hy
        · split at hy
          · subst hy; rfl
          · split at hy
            · exact again _ (by rfl) y hy
            · split at hy
              · exact again _ (by rfl) y hy
              · exact again _ (by rfl) y hy
        · exact again _ (by rfl) y hy

/-- Going on to another word changes only where the group stands. -/
theorem goTo_eq (pc : BitVec 48) (g : Group) :
    goTo pc g = { g with pc := (goTo pc g).pc, exec := (goTo pc g).exec, stack := (goTo pc g).stack, issued := none, heldFor := 0
                         stall := false, retryFrom := none } := by
  unfold goTo
  dsimp only
  split
  · split
    · rw [unwind_eq]
    · rfl
  · rfl

@[simp] theorem advance_reg (g : Group) : (advance g).reg = g.reg := by unfold advance; rw [goTo_eq]
@[simp] theorem advance_pred (g : Group) : (advance g).pred = g.pred := by unfold advance; rw [goTo_eq]
@[simp] theorem advance_mode (g : Group) : (advance g).mode = g.mode := by unfold advance; rw [goTo_eq]
@[simp] theorem advance_issued (g : Group) : (advance g).issued = none := by unfold advance; rw [goTo_eq]

/-- With no path waiting, the next word is 8 bytes on and the mask stands. -/
theorem advance_plain (g : Group) (h : g.stack = []) : advance g = { g with pc := g.pc + 8, issued := none, heldFor := 0, stall := false, retryFrom := none } := by
  simp [advance, goTo, h]

@[simp] theorem getGrp_finish (i : Nat) (f : Group → Group) (s : State) : (finish i f s).getGrp i = advance (f (s.getGrp i)) := by simp [finish]

/-! ### Events, refusals, repairs -/

/-- A vector is sent, or it is pending. -/
theorem sendVector_spec (v : Nat) (s : State) :
    sendVector v s = { s with pcie := { s.pcie with pba := (sendVector v s).pcie.pba }, tx := (sendVector v s).tx } ∧
      ((sendVector v s).tx = .msix v :: s.tx ∨ (sendVector v s).tx = s.tx ∧ (sendVector v s).pcie.pba = setBit s.pcie.pba v true) := by
  unfold sendVector; split <;> simp [send]

/-- Raising an event sets its bit, and touches nothing but the event register, the pending vectors and what is sent. -/
theorem raiseEvent_spec (k : Nat) (s : State) :
    raiseEvent k s = { s with hst := { s.hst with event := (raiseEvent k s).hst.event }
                              pcie := { s.pcie with pba := (raiseEvent k s).pcie.pba }, tx := (raiseEvent k s).tx } ∧
      (k < 12 → getBit (raiseEvent k s).hst.event k = true) := by
  unfold raiseEvent
  split
  · rename_i h; exact ⟨rfl, fun _ => h⟩
  · dsimp only
    split
    · unfold sendVector; split <;> exact ⟨rfl, fun hk => by simp [send, getBit_setBit, hk]⟩
    · exact ⟨rfl, fun hk => by simp [getBit_setBit, hk]⟩

@[simp] theorem memWf_raiseEvent (k : Nat) (s : State) : (raiseEvent k s).memWf = s.memWf := by rw [(raiseEvent_spec k s).1]; rfl
@[simp] theorem memWf_sendVector (v : Nat) (s : State) : (sendVector v s).memWf = s.memWf := by rw [(sendVector_spec v s).1]; rfl

/-- A refused register write is counted once, against its partition or the device. -/
theorem countRegErr_count (r win off : Nat) (part : Option Nat) (s : State) :
    Tbl.get 0 (countRegErr r win off part s).hst.regErr (part.getD 4) = Tbl.get 0 s.hst.regErr (part.getD 4) + 1 := by
  unfold countRegErr
  rw [(raiseEvent_spec 11 _).1]
  simp

/-- A repair is added at the end of the map, while it has room. -/
theorem addRepair_spec (kind unit index spare : Nat) (s : State) :
    addRepair kind unit index spare s = { s with rst := { s.rst with repairs := (addRepair kind unit index spare s).rst.repairs } } := by
  unfold addRepair; split <;> rfl

/-! ### Packets -/

theorem enqueuePkt_spec (k vl : Nat) (e : Bool) (p : Pkt) (s : State) :
    enqueuePkt k vl e p s = { s with ports := (enqueuePkt k vl e p s).ports
                                     tx := .packet (some ⟨k % 6, Nat.mod_lt _ (by omega)⟩) vl p :: s.tx } := rfl

/-- A seam direction that serves a request touches its arbiter and the counts of its class. -/
theorem seamServe_spec (k : Nat) (cs : List Cand) (s : State) (r : Cand × State) (h : seamServe k cs s = some r) :
    r.2 = { s with parts := r.2.parts, seams := r.2.seams } := by
  unfold seamServe at h
  simp only [Option.map_eq_some_iff] at h
  obtain ⟨a, _, rfl⟩ := h
  unfold countSurplus
  dsimp only
  split <;> rfl

theorem routerServe_spec (t : Nat) (cs : List Cand) (s : State) (r : Cand × State) (h : routerServe t cs s = some r) :
    r.2 = { s with routers := r.2.routers } := by
  unfold routerServe at h
  simp only [Option.map_eq_some_iff] at h
  obtain ⟨a, _, rfl⟩ := h
  rfl

/-- What moves from tower to tower touches the arbiters on its way and the counts of its class only. -/
theorem crossBytes_spec (a b : Nat) (lab : Label) (n : Nat) (s : State) :
    crossBytes a b lab n s = { s with parts := (crossBytes a b lab n s).parts, seams := (crossBytes a b lab n s).seams, routers := (crossBytes a b lab n s).routers } := by
  have seam : ∀ (k : Nat) (cs : List Cand) (u : State), u = { s with parts := u.parts, seams := u.seams, routers := u.routers } →
      ((seamServe k cs u).map (·.2)).getD u = { s with parts := (((seamServe k cs u).map (·.2)).getD u).parts, seams := (((seamServe k cs u).map (·.2)).getD u).seams, routers := (((seamServe k cs u).map (·.2)).getD u).routers } := by
    intro k cs u hu
    cases h : seamServe k cs u with
    | none => exact hu
    | some r =>
      have := seamServe_spec _ _ _ _ h
      simp only [Option.map_some, Option.getD_some]
      rw [this]
      rw [hu]
  unfold crossBytes crossRest
  refine forL_keeps (fun u : State => u = { s with parts := u.parts, seams := u.seams, routers := u.routers }) _ _ _ ?_ ?_
  · intro h u hu
    refine seam _ _ _ ?_
    cases hr : routerServe h.1 [lab.cand 6 n] u with
    | none => exact hu
    | some r =>
      have := routerServe_spec _ _ _ _ hr
      simp only [Option.map_some, Option.getD_some]
      rw [this]
      rw [hu]
  · split
    · rfl
    · exact seam _ _ _ rfl

theorem crossSeams_spec (a b : Nat) (p : Pkt) (s : State) :
    crossSeams a b p s = { s with parts := (crossSeams a b p s).parts, seams := (crossSeams a b p s).seams, routers := (crossSeams a b p s).routers } := crossBytes_spec _ _ _ _ _

/-- Sending a packet touches the port's queues, the arbiters on its way, this device's inbox where it is the target, and what
is sent; nothing else. -/
theorem sendFrom_spec (t : Nat) (p : Pkt) (s : State) :
    (sendFrom t p s).1 = { s with ports := (sendFrom t p s).1.ports, parts := (sendFrom t p s).1.parts, seams := (sendFrom t p s).1.seams, routers := (sendFrom t p s).1.routers
                                  net := { s.net with inbox := (sendFrom t p s).1.net.inbox }, tx := (sendFrom t p s).1.tx } := by
  unfold sendFrom
  split
  · dsimp only
    rw [crossSeams_spec]
    rfl
  · rfl
  · dsimp only
    rw [enqueuePkt_spec, crossSeams_spec]

theorem sendPkt_spec (p : Pkt) (s : State) :
    (sendPkt p s).1 = { s with ports := (sendPkt p s).1.ports, parts := (sendPkt p s).1.parts, seams := (sendPkt p s).1.seams, routers := (sendPkt p s).1.routers
                               net := { s.net with inbox := (sendPkt p s).1.net.inbox }, tx := (sendPkt p s).1.tx } := sendFrom_spec 2 p s

theorem respond_spec (q : Pkt) (op st : Byte) (b : List Byte) (s : State) :
    respond q op st b s = { s with ports := (respond q op st b s).ports, parts := (respond q op st b s).parts, seams := (respond q op st b s).seams, routers := (respond q op st b s).routers
                                   net := { s.net with inbox := (respond q op st b s).net.inbox }, tx := (respond q op st b s).tx } :=
  sendFrom_spec _ _ _

/-- A recorded response is sent, and found again for the same request. -/
theorem respondRec_spec (t : Nat) (q r : Pkt) (s : State) :
    respondRec t q r s = { s with ports := (respondRec t q r s).ports, parts := (respondRec t q r s).parts, seams := (respondRec t q r s).seams
                                  routers := (respondRec t q r s).routers
                                  net := { s.net with recs := (respondRec t q r s).net.recs, inbox := (respondRec t q r s).net.inbox }
                                  tx := (respondRec t q r s).tx } ∧
      (findRecord (respondRec t q r s) t q).map (·.resp) = some r := by
  unfold respondRec
  dsimp only
  refine ⟨?_, ?_⟩
  · rw [sendFrom_spec]
  · unfold findRecord
    rw [sendFrom_spec]
    simp

@[simp] theorem memWf_sendPkt (p : Pkt) (s : State) : (sendPkt p s).1.memWf = s.memWf := by rw [sendPkt_spec]; rfl
@[simp] theorem memWf_respondRec (t : Nat) (q r : Pkt) (s : State) : (respondRec t q r s).memWf = s.memWf := by
  rw [(respondRec_spec t q r s).1]; rfl

/-! ### The step -/

/-- With a command at the front, the step is that command on the rest of the queue. -/
theorem step_front (s : State) (c : Instr) (rest : List Instr) (h : s.pending = c :: rest) : step s = exec c { s with pending := rest } := by
  simp [step, h]

/-- With none, time passes. -/
theorem step_empty (s : State) (h : s.pending = []) : step s = idleTick s := by simp [step, h]

end Sys2Proof.Laws
end

