-- ==== Sys2Proof/Tests/Slice0.lean ====
section
/-! SUPPORT. Tests: for each statement with hypotheses a state and operands that meet them, clause by clause and at the ends of
their ranges; an ill-formed command for each check of `WellFormed`; and single steps whose results the spec gives. -/

namespace Sys2Proof.Tests
open Sys2Proof Sys2Proof.Machine

-- One theorem at a time: many waiting together need more threads than the memory limit allows.
set_option Elab.async false

/-! ### States that the tests start from -/

/-- The block in service: bring-up is done, the partitions are released and their controllers run. -/
def up : State :=
  { State.reset with
    bru := { State.reset.bru with stage := 9, ready := true }
    parts := forN 4 (fun p t => Tbl.put {} t p { held := false, started := true }) []
    net := { State.reset.net with keysIn := true }
    mrl := { State.reset.mrl with selfRef := 0 }
    pcie := { State.reset.pcie with perst := false, linkUp := true } }

/-- `up` with port `k` in service. -/
def linked (k : Nat) (s : State) : State := s.modPort k fun x => { x with st := .up }

/-! ### Device time and registers -/

/-- `up` with `n`/16 ns of phase owed at device time `t`. -/
def slewing (n : Int) (t : Nat) : State := { up with skt := { up.skt with slew := n, time := BitVec.ofNat 64 t } }

theorem witness_deviceTime_idle :
    ∀ s ∈ [slewing 15 0, slewing (-16) 10000, up.modSlc 0 fun x => { x with sets := [(0, [(filledLine (.got []) 0 5 0 up).2])] }],
      s.pending = [] ∧ (∀ j < 96, (s.getSite j).retireDue = false) ∧ s.rst.owed = [] ∧
      (∀ p < 4, (s.getPart p).arrivals = []) ∧ (∀ x ∈ s.queues, x.2.owed = []) ∧
      (∀ x ∈ s.slices, ∀ e ∈ x.2.sets, ∀ t ∈ e.2, t.ops = []) ∧ now s + 2 < 2 ^ 64 := by decide +kernel

/-- R66: 1 ns of phase is slewed, and device time does not decrease. -/
theorem test_tick_slews : (match step (slewing (-16) 10000) with | .next t => decide (now t = 10000) | _ => false) = true ∧
    (match step (slewing 16 10000) with | .next t => decide (now t = 10002) | _ => false) = true ∧
    (match step (slewing 15 10000) with | .next t => decide (now t = 10001) | _ => false) = true := by decide +kernel

/-- TS_MARK is due on port 0. -/
def marking : State := (linked 0 up).modPort 0 fun x => { x with markDue := some 0, txDue := [0x30] }
/-- A mark was last sent on port 0, one millisecond ago. -/
def marked : State := { (linked 0 up).modPort 0 fun x => { x with markDue := some 5 } with skt := { up.skt with time := 1000005 } }
theorem witness_deviceTime_mark : inService ((linked 0 up).getPort 0) = true ∧ ((linked 0 up).getPort 0).markDue = none ∧
    inService (marked.getPort 0) = true ∧ (marked.getPort 0).markDue.all (fun d => decide (d.toNat + 1000000 ≤ now marked)) = true := by
  decide +kernel
theorem witness_deviceTime_marking :
    inService (marking.getPort 0) = true ∧ (marking.getPort 0).txFrame = [] ∧ (marking.getPort 0).txDue = [0x30] ∧ (marking.getPort 0).txRun = 0 ∧
    (marking.getPort 0).markDue.all (fun d => decide (now marking ≤ d.toNat + 500000)) = true ∧ (marking.getPort 0).replayAt = none ∧
    (marking.getPort 0).retry.length < 512 ∧ (marking.getPort 0).initDue = [] ∧ (∀ v < 6, Tbl.get [] (marking.getPort 0).txq v = []) ∧
    (Tbl.get [] marking.net.tids 2).length < 4096 := by decide +kernel

/-- A time exchange from the upstream neighbour of port 0: it names the mark that this device sent last. -/
def exch : TimeXPayload := { txTs := 0, rxTs := 0, txSeq := 1, rxSeq := 1, asym := 0, root := 0, dist := 0 }
def timed : State :=
  (linked 0 { up with net := { up.net with placed := true, idValid := true, id := 1 }, skt := { up.skt with synced := true } }).modPort 0 fun x =>
    { x with markSeq := 1, peerReady := true, peerDist := 0, heard := some 16 }

theorem witness_deviceTime_exchange :
    inService (timed.getPort 0) = true ∧ timed.bru.stage.toNat = 9 ∧
    (timed.getPort 0).heard = some 16 ∧ (chooseUpstream ((takeMgmt 2 (some 0) timed).modPort 0 (hearTime exch 16))).skt.upstream.toNat = 0 ∧
    exch.rxSeq = (timed.getPort 0).markSeq ∧ (timed.getPort 0).markSeq ≠ 0 := by decide +kernel
/-- Before READY, with no step yet. -/
def unready : State := { timed with bru := { timed.bru with stage := 8, ready := false } }
theorem witness_deviceTime_step :
    inService (unready.getPort 0) = true ∧ unready.bru.stage.toNat < 9 ∧ unready.skt.stepped = false ∧
    (unready.getPort 0).heard = some 16 ∧ (chooseUpstream ((takeMgmt 2 (some 0) unready).modPort 0 (hearTime exch 16))).skt.upstream.toNat = 0 ∧
    exch.rxSeq = (unready.getPort 0).markSeq ∧ (unready.getPort 0).markSeq ≠ 0 := by decide +kernel

theorem witness_registers : skotrumHeld up = false ∧ selOf up 6 15 < 4224 ∧ (0 : Req).val ≤ 1 ∧ (1 : Req).val ≤ 1 := by decide +kernel

/-- A fired host waiter is at the head of the FIFO. -/
def fired : State := { up with hst := { up.hst with synFired := [5, 6] } }
theorem witness_registers_fired : skotrumHeld fired = false ∧ fired.hst.synFired = 5 :: [6] := by decide +kernel

/-- Requester 0's selector of unit 3 names instance 0x8000, which nothing has. -/
def absent : State := selWrite 0 3 0x7FFF up
theorem witness_absent : getBit (regValue absent 0 3 0) 31 = true ∧ 0x100 ≤ (0x100 : BitVec 16).toNat := by decide +kernel

/-! ### Vertical bundles -/

def rotating (ph : RotPhase) : State := up.modBgr 0 fun x => { x with rot := some { bundle := 0, phase := ph, again := false } }

theorem witness_rotationStart : up.bru.ready = true ∧ (up.getBgr 0).lost = false ∧ (up.getBgr 0).rot = none ∧ (up.getBgr 0).repair = [] ∧
    periodPassed up (up.getBgr 0).lastRot 250000 = true ∧
    (let s := { up.modBgr 0 fun x => { x with lastRot := some 0 } with skt := { up.skt with time := 250000 } };
      decide (periodPassed s (s.getBgr 0).lastRot 250000 = true)) = true ∧
    (∃ b < 32, (up.getBun (bundleIx 0 0 b)).out = false) := by decide +kernel
theorem witness_rotationCompare :
    ((rotating .mirror).getBgr 0).rot = some { bundle := 0, phase := .mirror, again := false } ∧
    ((rotating .verify).getBgr 0).rot = some { bundle := 0, phase := .verify, again := false } ∧ ((rotating .verify).getBgr 0).repair = [] := by
  decide +kernel
/-- The window at its end: t0 + ⌈w ÷ 4⌉ is the last tap. -/
theorem witness_sweep : ((rotating .sweep).getBgr 0).rot = some { bundle := 0, phase := .sweep, again := false } ∧
    ((rotating .sweep).getBgr 0).repair = [] ∧ (95 : BitVec 7).toNat + max 8 (((128 : Byte).toNat + 3) / 4) ≤ 127 := by decide +kernel

def toRepair (bonds : Nat) : State := (up.modBgr 0 fun x => { x with repair := [0] }).modBun 0 fun x => { x with bonds := bonds }
theorem witness_bundleRepair : ((toRepair 0).getBgr 0).repair.head? = some 0 ∧
    ((toRepair 0).getBun (bundleIx 0 0 0)).bonds + ([3, 4] : List (Fin 34)).eraseDups.length ≤ 2 ∧ (toRepair 0).rst.repairs.length + 2 ≤ 1023 := by
  decide +kernel
theorem witness_bundleLoss : ((toRepair 2).getBgr 0).repair.head? = some 0 ∧ ((toRepair 2).getSite 0).half = false ∧
    siteInService (toRepair 2) 0 = true ∧ 2 < ((toRepair 2).getBun (bundleIx 0 0 0)).bonds + ([3] : List (Fin 34)).eraseDups.length ∧
    (let s := up.modBgr 0 fun x => { x with spareBad := true };
      decide ((s.getBgr 0).lost = false ∧ (s.getBgr 0).spareBad = true ∧ (s.getSite 0).half = false ∧ siteInService s 0 = true)) = true := by decide +kernel

/-- R72: the sweep sets the line to t0 + max(8, ⌈w ÷ 4⌉). -/
theorem test_sweep_sets_tap : (match exec (.bundleSweep 0 0 0 (some (10, 41))) (rotating .sweep) with
    | .next t => (t.getBun 0).tap | _ => 0) = 21 := by decide +kernel

/-! ### Rates, power -/

def hot (t : Nat) : State := { up with skt := { up.skt with time := BitVec.ofNat 64 t } }
/-- The governor of partition 0 at `c` mV on VCORE and `l` mV on VLOESS. -/
def governed (c l : Nat) : State := up.modGov 0 fun x => { x with vcore := BitVec.ofNat 10 c, vloess := BitVec.ofNat 10 l }

theorem witness_governor :
    (650 ≤ ((governed 650 700).getGov 0).vcore.toNat ∧ ((governed 650 700).getGov 0).vcore.toNat ≤ 900 ∧
      700 ≤ ((governed 650 700).getGov 0).vloess.toNat ∧ ((governed 650 700).getGov 0).vloess.toNat ≤ 900) ∧
    (((governed 900 900).getPart 0).held = false ∧ inReset (governed 900 900) 0 = false ∧
      650 ≤ ((governed 900 900).getGov 0).vcore.toNat ∧ ((governed 900 900).getGov 0).vcore.toNat ≤ 900 ∧
      5 ∣ ((governed 900 900).getGov 0).vcore.toNat ∧ 5 ∣ ((governed 900 900).getGov 0).vloess.toNat ∧
      periodPassed (governed 900 900) ((governed 900 900).getGov 0).lastAt 10000 = true) ∧
    periodPassed up (some 0) 0 = true ∧ periodPassed (hot 10000) (some 0) 10000 = true := by decide +kernel

def probed : State := up.modPrb 191 fun x => { x with fresh := true }
def paced : State := up.modGov 0 fun x => { x with waits := [(7, 1)] }
def bad (n : Nat) (fault : Bool) : State :=
  (up.modGov 0 fun x => { x with floorBad := BitVec.ofNat 2 n }).modPart 0 fun x => { x with floorFault := fault, clearRun := 100 }
def hotHour : State := { up with skt := { up.skt with time := 3600000000000 } }.modGov 0 fun x => { x with highFrom := some 0 }

theorem witness_reports :
    (probed.getPrb 191).fresh = true ∧
    (0 < Tbl.get 0 (paced.getGov 0).waits 7 ∧ (recentStarts paced 0 7).length < 1800) ∧
    (((bad 3 false).getGov 0).floorBad = 3 ∧ ((bad 3 false).getPart 0).floorFault = false) ∧
    (((bad 0 true).getPart 0).floorFault = true ∧ ((bad 0 true).getPart 0).floorFixed = false ∧ 100 ≤ ((bad 0 true).getPart 0).clearRun) ∧
    (((up.modVmn 29 fun x => { x with outRun := 9 }).getVmn 29).outRun ≤ 9 ∧ periodPassed up (up.getVmn 29).at_ 1000 = true) ∧
    ((hotHour.getGov 0).highFrom = some 0 ∧ (hotHour.getGov 0).ageing = false ∧ (0 : W64).toNat + 3600000000000 ≤ now hotHour) := by
  decide +kernel

theorem witness_allotment : otherPower up ≤ 5900 ∧ periodPassed up up.pwr.allotAt 100000 = true ∧
    (∀ p < 4, getBit up.thm.throttle p = false ∧ ∀ i ∈ partJunctions p, effOf up i < 1520) ∧ (up.getGov 0).periods = 0 := by decide +kernel
theorem witness_ladder : ((up.modPart 3 fun x => { x with stage := 2, calm := 10 }).getPart 3).stage ≠ 0 ∧
    10 ≤ ((up.modPart 3 fun x => { x with stage := 2, calm := 10 }).getPart 3).calm := by decide +kernel

def dueVolt : State := up.modGov 1 fun x => { x with due := [(1, 905)] }
def tried (n : Nat) : State := { up with pwr := { up.pwr with tries := [(4, n)] } }
theorem witness_avs :
    (dueVolt.pwr.vioDown = false ∧ (dueVolt.getGov 1).due = (1, 905) :: []) ∧ avsIssues up 4 4 3 0 = true ∧
    avsIssues { up with bru := { up.bru with stage := 8 } } 3 1 2 10 = true ∧ (up.pwr.vioDown = false ∧ (up.getGov 0).due = []) ∧
    Tbl.get 0 (tried 2).pwr.tries 4 < 3 ∧ (Tbl.get 0 (tried 3).pwr.tries 4 = 3 ∧ avsFault (tried 3) 4 = false) ∧
    (1 < up.bru.stage.toNat ∧ pollDue up 3 1 = true ∧ pollDue up 4 4 = true ∧ up.thm.stopping = false ∧ up.thm.halted = false ∧ up.thm.trip = false) := by decide +kernel

/-! ### Temperature -/

theorem witness_sensor :
    ((191 : Sensor).val < 192 ∧ -640 ≤ (BitVec.ofInt 16 (-640)).toInt ∧ (1583 : BitVec 16).toInt < 1584 ∧ (up.getSen 191).suspect = false ∧
      (up.getSen 191).bad.toNat < 2 ∧ sampleDue up 191 = true) ∧ ((255 : Sensor) ≠ 254 ∧ sampleDue up 255 = true ∧ up.thm.trip = false) := by decide +kernel
def doubted : State := up.modSen 0 fun x => { x with bad := 3, events := 2 }
def mended : State := up.modSen 0 fun x => { x with suspect := true, good := 100, raw := 1583 }
theorem witness_suspicion :
    ((doubted.getSen 0).suspect = false ∧ 3 ≤ (doubted.getSen 0).bad.toNat ∧ doubted.thm.trip = false ∧ (doubted.getSen 0).events = 2) ∧
    (100 ≤ (mended.getSen 0).good ∧ (mended.getSen 0).suspect = true ∧ (mended.getSen 0).latched = false ∧ (mended.getSen 0).invalid = false ∧
      (mended.getSen 0).raw.toInt < 1584) := by decide +kernel
theorem witness_thresholds :
    (junction 0 = true ∧ 1632 ≤ (1632 : BitVec 16).toInt ∧ (1759 : BitVec 16).toInt < 1760 ∧ (up.getSen 0).suspect = false ∧
      (up.getSen 0).bad.toNat < 2 ∧ sampleDue up 0 = true ∧ up.thm.stopping = false ∧ up.thm.halted = false ∧ up.thm.trip = false) ∧
    (1760 ≤ (1760 : BitVec 16).toInt ∧ (2400 : BitVec 16).toInt ≤ 2400) := by decide +kernel

def stopping (t : Nat) : State := { up with thm := { up.thm with stopping := true, haltAt := 1000 }, skt := { up.skt with time := BitVec.ofNat 64 t } }
def halted : State := { up with thm := { up.thm with halted := true, coolFrom := some 0, trip := true, tripFrom := some 0 }
                                skt := { up.skt with time := 10000000000 } }
theorem witness_stop :
    ((stopping 1000).thm.stopping = true ∧ (stopping 1000).thm.cut = false ∧ (stopping 1000).thm.haltAt - flushNs (stopping 1000) ≤ now (stopping 1000) ∧
      (stopping 1000).thm.haltAt ≤ now (stopping 1000)) ∧
    (halted.thm.coolFrom = some 0 ∧ halted.thm.halted = true ∧ (0 : W64).toNat + 10000000000 ≤ now halted ∧ halted.rst.l4held = false ∧
      (∀ r ∈ halted.rst.running, r.level < 3)) ∧
    (halted.thm.tripFrom = some 0 ∧ halted.thm.trip = true ∧ (0 : W64).toNat + 1000000000 ≤ now halted) := by decide +kernel
/-- The cut-off, with a live task. -/
def stoppingTask : State := (stopping 1000).modPart 0 fun x => { x with tasks := [(3, some { (parseTask up 0 []).task with sites := 1, groups := 1 })] }
theorem witness_cutoff_task : ∃ k, getTask stoppingTask 0 3 = some k ∧ k.ending = none ∧ k.ended ≠ k.sites * k.groups :=
  ⟨{ (parseTask up 0 []).task with sites := 1, groups := 1 }, by decide +kernel⟩

/-! ### Resets -/

theorem witness_siteReset : mayReset up 0 0 0 ∧ mayReset up 1 0 3 ∧ mayReset up 5 1 3 ∧ mayReset up 1 3 4 ∧ mayReset up 0 4 4 ∧ mayReset up 0 2 4 :=
  ⟨.inl (by decide +kernel), .inr (.inl (by decide)), .inr (.inr (by decide)), .inr (.inl (by decide)), .inl (by decide +kernel),
    .inl (by decide +kernel)⟩
theorem witness_resets :
    (up.fuses.sitesOff.contains 95 = false ∧ 9 ≤ up.bru.stage.toNat ∧ siteResetting up 95 = false) ∧
    ((∃ j ∈ clusterSites 15, up.fuses.sitesOff.contains j = false) ∧ (∀ j ∈ clusterSites 15, siteResetting up j = false)) ∧
    (up.rst.l4held = false ∧ up.rst.running = []) ∧ (∀ p : Tower, inReset up p = false) ∧ ((0xA4 : Byte) ≠ 0xA5 ∧ (5 : Req) ≠ 6) := by
  decide +kernel

/-- R424: the host's request at L0 resets the site, and a wrong key only counts. -/
theorem test_reset_key :
    (match exec (.rstRequestL0 0 0xA5 5) up with | .next t => (t.getSite 5).mode == 4 | _ => false) = true ∧
    (match exec (.rstRequestL0 0 0xA4 5) up with | .next t => (t.getSite 5).mode == 0 && Tbl.get 0 t.hst.regErr 4 == 1 | _ => false) = true := by
  decide +kernel

def resetting (lvl : Nat) : State :=
  { up with rst := { up.rst with running := [{ level := lvl, target := 1, source := 1, t0 := 0, drained := true }], inReset := 2 } }
def heldL4 : State := { up with rst := { up.rst with l4held := true, l4From := 0 }, skt := { up.skt with time := 1000000 } }
def siteL0 : State := up.modSite 7 fun x => { x with mode := 4 }
/-- The thermal halt stands. -/
def atHalt (s : State) : State := { s with thm := { s.thm with halted := true } }
theorem witness_resetEnds :
    (∃ x, x ∈ (resetting 2).rst.running ∧ x.level = 2 ∧ x.target = (1 : Tower).val ∧ (∀ y ∈ (resetting 2).rst.running, y.level = 2) ∧
      (resetting 2).rst.l4held = false) ∧
    (∃ x, x ∈ (resetting 3).rst.running ∧ x.level = 3 ∧ (resetting 3).thm.trip = false) ∧
    (heldL4.rst.l4held = true ∧ heldL4.rst.l4From.toNat + 1000000 ≤ now heldL4 ∧ heldL4.thm.trip = false) ∧
    ((siteL0.getSite 7).mode = 4 ∧ inReset siteL0 0 = false ∧ siteL0.thm.halted = false ∧ (siteL0.getSite 7).restoreDue = none) ∧
    (∃ x, x ∈ (atHalt (resetting 2)).rst.running ∧ x.level = 2 ∧ x.target = (1 : Tower).val ∧ (atHalt (resetting 2)).thm.halted = true ∧
      (resetting 2).thm.halted = false) := by
  refine ⟨⟨{ level := 2, target := 1, source := 1, t0 := 0, drained := true }, by decide +kernel⟩,
    ⟨{ level := 3, target := 1, source := 1, t0 := 0, drained := true }, by decide +kernel⟩, by decide +kernel, by decide +kernel,
    ⟨{ level := 2, target := 1, source := 1, t0 := 0, drained := true }, by decide +kernel⟩⟩

/-- R460: at halt an L2 that ends leaves its partition held. -/
theorem test_halt_holds : (match exec (.partitionResetRelease 1 true) (atHalt ((resetting 2).modPart 1 fun x => { x with held := true })) with
    | .next t => (t.getPart 1).held && !getBit t.rst.inReset 1 | _ => false) = true := by decide +kernel

def late : State := { up with skt := { up.skt with time := 1000000000 } }
def stuck : State := late.modSite 0 fun x => { x with mode := 4, byAbort := true, readySince := 0 }
theorem witness_resetSources :
    (up.pcie.perst = false ∧ up.rst.powered = true ∧ sourceLevel up 0 = some 3 ∧ permits up 0 3 = true) ∧
    (late.bru.ready = true ∧ 9 ≤ late.bru.stage.toNat ∧ inReset late 3 = false ∧ late.rst.running = [] ∧
      (late.getPart 3).kick.toNat + late.rst.timeout.toNat * 1000000 ≤ now late ∧ sourceLevel late 3 = some 2 ∧ permits late 3 2 = true) ∧
    (late.rst.mgmtKick.toNat + 1000000000 ≤ now late ∧ sourceLevel late 6 = some 4 ∧ permits late 6 4 = true) ∧
    (escalates stuck 0 = true ∧ sourceLevel stuck 5 = some 1 ∧ permits stuck 5 1 = true ∧ stuck.rst.l4held = false ∧ stuck.rst.running = [] ∧
      (∃ k ∈ clusterSites 0, siteResetting stuck k = false)) := by decide +kernel

theorem witness_blockResets :
    (ctrlAllowed 1 3 = true ∧ ctrlAllowed 5 3 = true ∧ up.fuses.sitesOff.contains 95 = false ∧ (∀ a < 2, blockIdle up 95 a = true) ∧
      dmasIdle up 95 = true ∧ noGroups up 95 = true ∧ blockIdle up 95 5 = true) ∧
    noGroups (up.modGrp (gIx 95 23) fun g => { g with mode := .ready }) 95 = false ∧
    (portPresent up 5 = true ∧ (up.getPort 5).coll = .idle ∧ (up.getPort 5).collFifo = [] ∧ ctrlAllowed 1 (portTower 5) = true) := by decide +kernel

def retiring (m : Nat) (to_ : Option Nat) : State := up.modSite 0 fun x => { x with retiring := true, mode := BitVec.ofNat 3 m, retireTo := to_ }
theorem witness_retirement :
    (siteInService up 0 = true ∧ (up.getSite 0).retiring = false ∧ inWindow up 0 = false) ∧
    (((retiring 2 (some 5)).getSite 0).retiring = true ∧ ((retiring 2 (some 5)).getSite 0).mode = 2 ∧
      ((retiring 2 (some 5)).getSite 0).retireTo = some 5 ∧ (retiring 2 (some 5)).rst.repairs.length < 1023) ∧
    (((retiring 4 none).getSite 0).mode = 4 ∧ ((retiring 4 none).getSite 0).retireTo = none) := by decide +kernel

def dueRow (used : Nat) : State := up.modSlc 0 fun x => { x with due := [(63, 9)], rowsUsed := [(63, used)] }
def dueCol (used : Nat) : State := up.modSlc 0 fun x => { x with colDue := [(63, 9)], colsUsed := [(63, used)] }
def aRepair : Repair := { kind := 1, logged := false, fused := false, unit := 0, index := 0, spare := 0 }
/-- The board and the package at 25 °C, with a sample of each of their sensors. -/
def temperate (s : State) : State :=
  (s.modSen 254 fun x => { x with raw := 400, eff := 400, hist := [(0, 400)] }).modSen 255 fun x => { x with raw := 400, eff := 400, hist := [(0, 400)] }
def toLog : State := temperate { up with rst := { up.rst with repairs := [aRepair] } }
theorem witness_repairs :
    ((1 : BitVec 2) ≠ agentGen up (.dma 0)) ∧
    ((63, 9) ∈ ((dueRow 31).getSlc 0).due ∧ (∀ c ∈ ((dueRow 31).getSlc 0).colDue, c.1 ≠ 63) ∧
      (∀ d ∈ ((dueRow 31).getSlc 0).due, d.1 = 63 → 9 ≤ d.2) ∧ (dueRow 31).rst.repairs.length < 1023 ∧
      Tbl.get 0 ((dueRow 31).getSlc 0).rowsUsed 63 < 32 ∧ 32 ≤ Tbl.get 0 ((dueRow 32).getSlc 0).rowsUsed 63) ∧
    ((63, 9) ∈ ((dueCol 7).getSlc 0).colDue ∧ Tbl.get 0 ((dueCol 7).getSlc 0).colsUsed 63 < 8 ∧ 8 ≤ Tbl.get 0 ((dueCol 8).getSlc 0).colsUsed 63) ∧
    (flashReady toLog = true ∧ toLog.rst.logPos < logRecords ∧ toLog.rst.repairs[0]? = some aRepair ∧ aRepair.logged = false) := by decide +kernel

/-! ### Bring-up -/

/-- Bring-up in stage `n`. -/
def boot (n : Nat) : State := { State.reset with bru := { State.reset.bru with stage := BitVec.ofNat 4 n } }

theorem witness_powerOn : ({ State.reset with rst := { State.reset.rst with powered := false } } : State).rst.powered = false ∧
    (State.reset.bru.stage = 0 ∧ State.reset.skt.time = 0) := by decide +kernel
theorem witness_options :
    (bootRuns (boot 1) = true ∧ (boot 1).bru.stage.toNat ≤ 1 ∧ (boot 1).bru.optIn = false ∧ (boot 1).pwr.down = [] ∧ (boot 1).pwr.noResp ||| (boot 1).pwr.regFault = 0) ∧
    ({ boot 0 with pwr := { (boot 0).pwr with down := [(0, 1)] } } : State).pwr.down ≠ [] ∧
    (let s : State := { boot 1 with bru := { (boot 1).bru with optIn := true } }; decide (bootRuns s = true ∧ s.bru.stage = 1 ∧ s.bru.optIn = true)) = true := by
  decide +kernel
theorem witness_stages : (∀ n ∈ [2, 3, 4, 5, 7], bootRuns (boot n) = true ∧ (boot n).bru.stage.toNat = n) ∧ siteInService (boot 5) 0 = true := by
  decide +kernel
theorem witness_memoryTest : (∀ f ∈ [MemFail.loessRow 0 0 0], (∀ c, f ≠ .marlChannel c) ∧ ∀ d, f ≠ .loessDie d) ∧
    MemFail.loessDie 3 ∈ [MemFail.loessDie 3] := by decide +kernel
theorem witness_bundleCal : pointKept (boot 4) 0 0 0 = false ∧ (128 : Byte) ≠ 0 ∧
    (95 : BitVec 7).toNat + max 8 (((127 : BitVec 7).toNat + 3) / 4) ≤ 127 := by decide +kernel

/-- R405, R437: a site without a usable spare that fails Kaolin is retired, with an entry in the repair map. -/
theorem test_kaolin_retires : (match exec (.kaolin [.site 0, .site 5]) (boot 5) with
    | .next t => (siteStatus t 0, siteStatus t 5, t.rst.repairs.map fun r => (r.kind, r.unit.toNat)) | _ => (0, 0, [])) = (5, 5, [(2, 0)]) := by decide +kernel

/-- R401: MEMORY_TEST leaves zeros and goes on to BUNDLE_CAL. -/
theorem test_memoryTest : (match exec (.memoryTest []) { boot 3 with marl := [(5, 7)] } with
    | .next t => (t.bru.stage, t.marl) | _ => (0, [])) = (4, []) := by decide +kernel

/-- Bytes of a location record of device (0, 0, 0): MAGIC, VERSION, DEVICE_ID, the rest, CRC. -/
def location : List Byte := let b := leBytes 4 0x524C5843 ++ leBytes 2 1 ++ leBytes 2 0 ++ List.replicate 52 0; b ++ leBytes 4 (crc32c b)
/-- Stage CONFIG with that record in the flash. -/
def atConfig : State := let s := boot 8; { s with board := { s.board with flash := putBytes 0xFF [] 0x1000 location } }
theorem witness_config : bootRuns atConfig = true ∧ atConfig.bru.stage = 8 ∧ atConfig.net.keysIn = false ∧
    locationOk atConfig [1, 1, 1] = true ∧ locationOk atConfig [] = false := by decide +kernel
def toReady : State := { up with bru := { up.bru with stage := 8, ready := false } }
theorem witness_ready : bootRuns toReady = true ∧ toReady.bru.stage = 8 ∧ toReady.net.keysIn = true ∧ (∀ p < 4, (toReady.getPart p).started = true) := by
  decide +kernel

/-! ### Firmware over the fabric -/

/-- A FW payload of image 9, of `n` chunks. -/
def fwOf (kind seq n : Nat) (body : List Byte) : FwPayload :=
  { kind := BitVec.ofNat 8 kind, fwDist := 0, seq := BitVec.ofNat 32 seq, imageId := 9, size := 4065, chunks := BitVec.ofNat 32 n, body := body }
/-- A device at WAIT_IMAGE; `u` names its upstream. -/
def seeking (u : Nat) : State :=
  linked 5 { boot 6 with bru := { (boot 6).bru with opt := { (boot 6).bru.opt with source := true }, upstream := BitVec.ofNat 4 u, imageId := 9, rxNew := true } }
theorem witness_announce : (fwOf 1 0 2 []).kind = 1 ∧ (seeking 15).bru.opt.source = true ∧ (seeking 15).bru.stage = 6 ∧ (seeking 15).bru.upstream = 0xF ∧
    inService ((seeking 15).getPort 5) = true ∧ (Tbl.get [] (seeking 15).net.tids 2).length < 4096 := by decide +kernel
/-- Chunk 0 of 2 has come. -/
def halfImage : State := { seeking 5 with bru := { (seeking 5).bru with rx := [(0, [1])] } }
def wholeImage : State := { seeking 5 with bru := { (seeking 5).bru with rx := [(0, [1]), (1, [2])] } }
theorem witness_chunks :
    (fromUpstream (seeking 5) 5 (fwOf 3 1 2 [7]) = true ∧ (fwOf 3 1 2 [7]).seq.toNat < (fwOf 3 1 2 [7]).chunks.toNat) ∧
    (fromUpstream halfImage 5 (fwOf 4 0 2 []) = true ∧ halfImage.bru.rxNew = true ∧
      (∃ n < (fwOf 4 0 2 []).chunks.toNat, ∀ e ∈ halfImage.bru.rx, e.1 ≠ n) ∧ (Tbl.get [] halfImage.net.tids 2).length < 4096) ∧
    (fromUpstream wholeImage 5 (fwOf 4 0 2 []) = true ∧ wholeImage.bru.stage = 6 ∧
      (∀ n < (fwOf 4 0 2 []).chunks.toNat, ∃ e ∈ wholeImage.bru.rx, e.1 = n)) := by decide +kernel
def waited (needs : Nat) (t : Nat) (u : Nat) : State :=
  { seeking u with bru := { (seeking u).bru with needs := needs, rxNew := false }, skt := { (seeking u).skt with time := BitVec.ofNat 64 t } }
theorem witness_timeouts :
    ((waited 7 20000000 5).bru.upstream ≠ 0xF ∧ (waited 7 20000000 5).bru.image = [] ∧ (waited 7 20000000 5).bru.rxLast.toNat + 20000000 ≤ now (waited 7 20000000 5) ∧
      (waited 7 20000000 5).bru.needs < 8 ∧ (Tbl.get [] (waited 7 20000000 5).net.tids 2).length < 4096 ∧ (waited 8 20000000 5).bru.rxNew = false ∧ 8 ≤ (waited 8 20000000 5).bru.needs) ∧
    ((waited 0 600000000000 15).bru.stage = 6 ∧ (waited 0 600000000000 15).bru.upstream = 0xF ∧
      (waited 0 600000000000 15).bru.kaolinAt.toNat + 600000000000 ≤ now (waited 0 600000000000 15)) := by decide +kernel
/-- A device that holds an image of 5,000 bytes, ready for 1 s. -/
def offering : State := linked 0 { up with bru := { up.bru with image := [1, 2, 3], imageId := 9, held := true }, skt := { up.skt with time := 1000000000 } }
theorem witness_giving : offersImage offering = true ∧ periodPassed offering offering.bru.annAt 100000000 = true ∧ (Tbl.get [] offering.net.tids 2).length + chunkCount offering.bru.image.length + 6 ≤ 4096 ∧
    (Tbl.get [] offering.net.tids 2).length + (needChunks [1] 0 (chunkCount offering.bru.image.length)).length < 4096 ∧ (fwOf 2 0 2 []).imageId = offering.bru.imageId ∧ (fwOf 5 0 2 []).kind = 5 ∧ (fwOf 6 0 2 []).kind = 6 ∧
    (offering.bru.ready = true ∧ offering.bru.held = true ∧ offering.bru.readyAt.toNat + 1000000000 * offering.bru.hold.toNat ≤ now offering) := by
  decide +kernel

theorem witness_windows :
    (fuseOpen toLog = true ∧ toLog.fuses.repairs.length + toLog.rst.repairs.length ≤ 2048 ∧ flashReady toLog = true) ∧
    (let s : State := { up with bru := { up.bru with persRun := true, image := [1] } }; decide (s.bru.persRun = true ∧ s.bru.image.length ≤ copyBytes)) = true := by
  decide +kernel

/-- R445: the log is read back from its records; a record whose CRC fails is ignored. -/
def logged : State := match exec .repairLogWrite toLog with | .next t => t | _ => toLog
theorem test_readLog :
    (let s := readLog logged; (s.logTail.map (·.kind), s.logSeq, s.logPos)) = (logged.rst.logTail.map (·.kind), 1, 1) ∧
    (let s := readLog { logged with board := { logged.board with flash := putBytes 0xFF logged.board.flash 0x10001F [0x00] } }; (s.logTail, s.logPos)) = ([], 1) := by
  decide +kernel

/-! ### The host port -/

/-- The function answers memory requests and sends vectors. -/
def hosted : State := { up with pcie := { up.pcie with memEnable := true, busMaster := true, msixOn := true, pba := 1, msix := [(0, { mask := false })] } }
theorem witness_function :
    (up.pcie.perst = false ∧ skotrumHeld up = false) ∧ functionUp up = true ∧
    (functionUp hosted = true ∧ getBit hosted.pcie.pba 0 = true ∧ msixAllowed hosted 0 = true) ∧ (1 : Req) ≠ 0 := by decide +kernel
theorem witness_requests : (functionUp up = true ∧ memoryUp up = false) ∧ (functionUp hosted = true ∧ memoryUp hosted = true) := by decide +kernel
/-- The host reads the last byte of a piece of the scratch window, and writes there. -/
theorem witness_bar2 :
    (bar2Open hosted = true ∧ (63 : BitVec 32).toNat % 64 + 1 ≤ 64 ∧
      (physRead .host (({ hosted with hst := { hosted.hst with bar2Base := 0x40_0000_0000 } } : State).hst.bar2Base.toNat + 63) 1 backLabel hosted).2 = (none, [0], false)) ∧
    ((physWrite .host 0x40_0000_0000 (List.replicate 64 1) backLabel hosted).2 = none) ∧
    bar2Open { hosted with bru := { hosted.bru with ready := false } } = false := by decide +kernel
/-- R480: a write through BAR2 is read back. -/
theorem test_bar2 :
    (match exec (.bar2Access 8 (.write [0xA5] [true]) false) { hosted with hst := { hosted.hst with bar2Base := 0x40_0000_0000 } } with
      | .next t => (match exec (.bar2Access 8 (.read 1) false) t with | .next u => u.tx.head? | _ => none) | _ => none) =
    some (.data .host [0xA5]) := by decide +kernel

theorem witness_doe : doeOpen up = true ∧ 2 ≤ up.bru.stage.toNat ∧ (doeOpen { up with bru := { up.bru with stage := 1 } } = true) ∧ functionUp up = true ∧
    (let s : State := { up with bru := { up.bru with signing := some (true, 0, []) } }; decide (s.bru.signing = some (true, 0, []) ∧ s.bru.signDrop = false)) = true := by
  decide +kernel

theorem witness_flashStart :
    (skotrumHeld up = false ∧ up.hst.flashBusy = false ∧ (0x7F0C : W32).toNat % 8 = (4 : Fin 5).val ∧ getBit (0x7F0C : W32) 3 = true) ∧
    flashRefuses up 4 0 128 = false ∧ flashRefuses up 4 1 128 = true ∧ flashRefuses up 3 0x100000 1 = true ∧ flashRefuses up 1 0 1 = false := by
  decide +kernel
def flashing (op len : Nat) : State :=
  { up with hst := { up.hst with flashBusy := true, flashRun := some { op := op, addr := 0, len := len, data := List.replicate len 0x5A } } }
theorem witness_flashEnd : (∀ op ∈ [1, 2, 3, 4], ∃ x, (flashing op 128).hst.flashRun = some x ∧ (flashing op 128).hst.flashHeld = false ∧ (flashing op 128).bru.persRun = false ∧ (flashing op 128).pwr.vioDown = false ∧
    x.op = op ∧ (x.op = 2 → x.data.length = x.len) ∧ 1 ≤ x.len ∧ x.len ≤ 128) := by
  intro op h
  exact ⟨{ op := op, addr := 0, len := 128, data := List.replicate 128 0x5A }, rfl, rfl, rfl, rfl, rfl, fun _ => by simp, by simp, by simp⟩

/-! ### The board interfaces -/

theorem witness_board : i3cServes up = true ∧ up.board.i3cAddr = none ∧ periodPassed up up.board.i3cAt 1000000 = true ∧
    ({ up with board := { up.board with i3cAddr := some 8 } } : State).board.i3cAddr ≠ none ∧ up.rst.powered = true ∧ up.fuses.debugFuse = false ∧
    ({ up with fuses := { up.fuses with debugFuse := true } } : State).fuses.debugFuse = true ∧ up.board.jhold = false := by decide +kernel

/-! ### Queues and sync objects -/

/-- A queue word of 8 zero words. -/
def zeroWord : Line := List.replicate 8 0
/-- A word staged with its parity. -/
def stagedWord (d : Line) (last : Bool) : QWord := { data := d, last := last, par := wordParity d }
/-- `up` with the words `ws` in queue 0, of partition 0. -/
def holding (ws : List QWord) : State := up.modQue 0 fun x => { x with words := ws }
def fullQueue : State := holding (List.replicate 32 { data := zeroWord, last := true, par := 0 })
/-- The host has an open packet of 63 words for queue 0. -/
def staged (who : Agent) (n : Nat) : State :=
  (up.modPart 0 fun x => { x with asm := [{ who := who, q := 0, words := List.replicate n (zeroWord, 0), last := 0, dest := none }] })

theorem witness_queueWords : ((.mgmt : Agent) ≠ .host) ∧ (∀ n ∈ [0, 63], wordHeld (staged .mgmt n) .mgmt = false ∧
      othersHeld (staged .mgmt n) .mgmt 0 = false ∧ inReset (staged .mgmt n) (queOwner (staged .mgmt n) 0) = false ∧
    ((staged .mgmt n).getPart 0).asm.length < 16 ∧ ((((staged .mgmt n).getPart 0).asm.find? (isOpen .mgmt 0 none)).map (·.words)).getD [] = List.replicate n (zeroWord, 0) ∧ n < 64) ∧
    ((staged .mgmt 31).getQue 0).words.length + 31 + 1 ≤ queCapacity ((staged .mgmt 31).getQue 0) ∧
    (((staged .mgmt 31).getQue 0).words.filter (·.ring.isNone)).length + 31 < 32 ∧ ((staged .mgmt 31).getQue 0).owed = [] ∧
    (let s := fullQueue.modQue 0 fun x => { x with ringUnits := 1 };
      decide (32 ≤ ((s.getQue 0).words.filter (·.ring.isNone)).length ∧ (s.getQue 0).words.length + 1 ≤ queCapacity (s.getQue 0) ∧ (s.getQue 0).notice = 0)) = true ∧
    ((staged .mgmt 31).getQue 0).notice = 0 ∧ ((up.modQue 511 fun x => { x with notice := 2, target := 63 }).getQue 511).notice = 2 := by decide +kernel

def heldHere (who : Agent) : State :=
  up.modPart 0 fun x => { x with held_ := [{ who := who, q := 0, word := zeroWord, bad := false, close := false, dest := none, since := 0 }] }
/-- The controller's word waits too, and the token stands at it. -/
def twoHeld : State := ((heldHere .mgmt).modPart 0 fun x => { x with held_ := x.held_ ++
  [{ who := .pc 0, q := 0, word := zeroWord, bad := false, close := false, dest := none, since := 0 }] }).modQue 0 fun x => { x with token := 2 }
def later (t : Nat) (s : State) : State := { s with skt := { s.skt with time := BitVec.ofNat 64 t } }
theorem witness_queueWait :
    (wordHeld fullQueue .mgmt = false ∧ inReset fullQueue (queOwner fullQueue 0) = false ∧ (fullQueue.getPart (queOwner fullQueue 0)).asm = [] ∧
      queCapacity (fullQueue.getQue 0) ≤ (fullQueue.getQue 0).words.length ∧ 0 ∉ fullQueue.hst.dropping) ∧
    (0 ∈ ({ up with hst := { up.hst with dropping := [0, 3] } } : State).hst.dropping) ∧
    (((heldHere .mgmt).getPart 0).held_.find? (fun h => decide (h.who = .mgmt ∧ h.q = 0) && heldReady (heldHere .mgmt) h) =
        some { who := .mgmt, q := 0, word := zeroWord, bad := false, close := false, dest := none, since := 0 } ∧
      queOwner (heldHere .mgmt) 0 = 0 ∧ inReset (heldHere .mgmt) 0 = false ∧ ((heldHere .mgmt).getPart 0).asm = [] ∧
      othersHeld (heldHere (.pc 0)) .mgmt 0 = true ∧ wordHeld (heldHere (.pc 0)) .mgmt = false ∧
      (releaseTurn (heldHere .mgmt) { who := .mgmt, q := 0, word := zeroWord, bad := false, close := false, dest := none, since := 0 }).isSome = true ∧
      releaseTurn twoHeld { who := .mgmt, q := 0, word := zeroWord, bad := false, close := false, dest := none, since := 0 } = none) ∧
    (((later 100000 (staged .host 1)).getPart 0).asm = [{ who := .host, q := 0, words := [(zeroWord, 0)], last := 0, dest := none }] ∧
      ((later 100000 (staged .host 1)).getPart 0).held_ = [] ∧ (0 : W64).toNat + 100000 ≤ now (later 100000 (staged .host 1))) := by decide +kernel

/-- A group held on QPUT, and a DMA element, with their words at queue 0. -/
def groupHeld : State := (heldHere (.group 0 0)).modGrp 0 fun g => { g with mode := .held, hold := .queue 0 zeroWord false, issued := some 0x78 }
def dmaHeld : State := { (up.modDma 3 fun x => { x with inFlight := [{ k := 6, to_ := .mem 0x70_0000_0000, data := [], get := none, sent := false, put := none, held := true }] }) with
  parts := ((heldHere (.dma 3)).modPart 0 fun x => { x with held_ := x.held_.map fun h => { h with elem := some 6 } }).parts }
theorem witness_heldRelease :
    ((groupHeld.getPart 0).held_.head?.any fun h => (releaseTurn groupHeld h).isSome && heldReady groupHeld h) = true ∧
    ((dmaHeld.getPart 0).held_.head?.any fun h => (releaseTurn dmaHeld h).isSome && heldReady dmaHeld h && decide (h.elem = some 6)) = true ∧
    (groupHeld.getGrp (gIx 0 0)).stack = [] ∧ (groupHeld.getGrp (gIx 0 0)).mode = .held := by decide +kernel
/-- R307: once its word is stored, the element may commit. -/
theorem test_elementReleased : (match exec (.queueSpaceRelease 0 (.dma 3) 0) dmaHeld with
    | .next t => ((t.getDma 3).inFlight.map fun e => (e.held, e.sent), (t.getPart 0).held_.length) | _ => ([], 9)) = ([(false, true)], 0) := by decide +kernel

def oneWord (poison : Bool) : State := (holding [{ data := zeroWord, last := true, par := if poison then 0xFF else 0 }]).modQue 0 fun x => { x with consumer := 2 }
theorem witness_queueTakes : inReset (oneWord true) (queOwner (oneWord true) 0) = false ∧ isConsumer (oneWord true) .host 0 = true ∧
    ((oneWord true).getQue 0).words = { data := zeroWord, last := true, par := 0xFF } :: [] ∧ ({ data := zeroWord, last := true, par := 0xFF } : QWord).ring = none ∧ mayClear (oneWord true) .host 0 = true := by decide +kernel
theorem witness_emptyTake : inReset up (queOwner up 0) = false ∧ isConsumer up (.pc 0) 0 = true ∧ (up.getQue 0).words = [] := by decide +kernel

/-- R311: the empty queue returns the last word that a TAKE returned. -/
theorem test_emptyTake : (match exec (.queueTake .host 0) (oneWord false) with
    | .next t => (match exec (.queueTake .host 0) t with | .next u => (u.tx.head?, (u.getQue 0).underrun) | _ => (none, false)) | _ => (none, false)) =
    (some (.data .host (lineBytes zeroWord)), true) := by decide +kernel

/-- Object 5 with counter `c` and a local waiter at threshold 2 with a deadline of 1 µs. -/
def waitsFor (c : Nat) : State :=
  up.modSyn 5 fun x => { x with counter := BitVec.ofNat 64 c, ticket := 0xFFFFFFFF, waiters :=
    [{ who := .pc 0, threshold := 2, ticket := 7, until_ := some 1000, hw := true, pkt := none }] }
theorem witness_syncOperations :
    (inReset (waitsFor 1) (synPart 5) = false ∧ synStore (waitsFor 1) 5 = some 5) ∧ (up.getSyn 4095).waiters = [] ∧ (up.getSyn 4095).armed = none := by
  decide +kernel
theorem witness_syncWaits :
    (inReset up (synPart 4095) = false ∧ synStore up 4095 = some 4095 ∧ (up.getSyn 4095).waiters = [] ∧ (up.getSyn 4095).armed = none ∧
      (0 : W64).toNat ≤ (up.getSyn 4095).counter.toNat) ∧
    ((waitsFor 1).getSyn 5).armed = none ∧ (∀ w ∈ ((waitsFor 1).getSyn 5).waiters, ((waitsFor 1).getSyn 5).counter.toNat < w.threshold.toNat) ∧
    ((waitsFor 1).getSyn 5).counter.toNat < (2 : W64).toNat ∧ overflowCount (waitsFor 1) < 65536 ∧
    (((later 1000 (waitsFor 1)).getSyn 5).waiters.find? (expired (later 1000 (waitsFor 1)) (.pc 0)) =
      some { who := .pc 0, threshold := 2, ticket := 7, until_ := some 1000, hw := true, pkt := none }) := by decide +kernel

/-- A waiter in a hardware entry, or in the overflow pool. -/
def waiter (hw : Bool) : Waiter := { who := .pc 0, threshold := 2, ticket := 7, until_ := none, hw := hw, pkt := none }
/-- Object 5 with its 16 hardware entries in use and `n` waiters in the overflow pool. -/
def pooled (n : Nat) : State := { up with syncs := [(5, { waiters := List.replicate 16 (waiter true) ++ List.replicate n (waiter false) })] }
theorem pooled_waiters (n : Nat) : (((pooled n).getSyn 5).waiters.filter (·.hw)).length = 16 ∧ overflowCount (pooled n) = n := by
  have h : (pooled n).getSyn 5 = { waiters := List.replicate 16 (waiter true) ++ List.replicate n (waiter false) } := rfl
  constructor
  · rw [h]; simp [waiter]
  · simp [overflowCount, pooled, waiter]
theorem witness_poolFull : ((pooled 65536).getSyn 5).counter.toNat < (2 : W64).toNat ∧ (((pooled 65536).getSyn 5).waiters.filter (·.hw)).length = 16 ∧
    overflowCount (pooled 65536) = 65536 ∧ inReset (pooled 65536) (synPart 5) = false ∧ synStore (pooled 65536) 5 = some 5 :=
  ⟨(by decide : (0 : Nat) < 2), (pooled_waiters _).1, (pooled_waiters _).2, by decide +kernel, by rfl⟩

/-- R316, R317: a signal that reaches the threshold releases the waiter with the ticket of the signal. -/
theorem test_signal_releases : (match exec (.syncSignal .mgmt 5 1) (waitsFor 1) with
    | .next t => (t.tx.head?, (t.getSyn 5).ticket, (t.getSyn 5).counter) | _ => (none, 0, 0)) = (some (.ticket (.pc 0) 2 0xFFFFFFFF 7), 0, 2) := by
  decide +kernel

/-- Every spare slot of partition 0 has failed. -/
def noSpares : State := { up with syncs := (List.range 32).map fun i => (4096 + i, { failed := true }) }
theorem witness_syncFailure :
    ((up.getSyn 0).failed = false ∧ (up.getSyn 4096).replacing = none ∧ (up.getSyn 4096).failed = false ∧
      (∀ i : Fin 32, (up.getSyn (4096 + 32 * synPart 0 + i)).replacing ≠ some (BitVec.ofNat 12 0)) ∧ up.rst.repairs.length < 1023) ∧
    ((noSpares.getSyn 0).failed = false ∧ ∀ i : Fin 32, (noSpares.getSyn (4096 + 32 * synPart 0 + i)).failed = true) := by decide +kernel

/-! ### Tasks -/

/-- A task of one group on one site; a real-time one runs 1,200 steps by 100 µs. -/
def job (rt : Bool) : Task :=
  { ctx := 1, cls := 2, sites := 1, groups := 1, regs := 4, slm := 1, deadline := if rt then 100000 else 0, steps := if rt then 1200 else 0
    marl := [0, 0, 0, 0], seam := [0, 0, 0, 0], port := [0, 0, 0, 0, 0, 0], entry := 0x1000, threads := 20, complMsg := true, complSync := false
    reply := 0x70_0000_5000, syncAddr := 0x71_0000_0140, tag := 3, args := [], rt := rt, demoted := false, winS := 20000, winE := 21000
    chosen := [], placed := 0, ended := 0, ending := none, late := false, sync := .due }
/-- `up` with the task at entry 0 of partition 0. -/
def tasked (x : Task) : State := up.modPart 0 fun y => { y with tasks := [(0, some x)] }

/-- The two words of a task message for `job`, which asks for an acknowledgement (Tables 9.3, 10.2). -/
def message (rt : Bool) : List QWord :=
  [stagedWord [1 + 2 ^ 6 + 2 * 2 ^ 8 + 2 ^ 16 + 2 ^ 24 + 4 * 2 ^ 29 + 2 ^ 34, if rt then 100000 else 0, if rt then 1200 else 0, 0, 0, 0, 0, 0] false,
   stagedWord [0x1000, 20 + 2 ^ 32, 0x70_0000_5000, 0, 3, 0, 0, 0] true]
/-- `up` with context 1 and class 2 as the message needs them. -/
def serving (rt : Bool) : State :=
  { up.modCtx 1 fun x => { x with valid := true } with
    svc := { up.svc with classes := [(2, { enabled := true, realtime := rt })] } }
/-- Its message at the head of queue 7. -/
def notified (rt : Bool) : State :=
  ((serving rt).modQue 7 fun x => { x with words := message rt }).modPart 0 fun x => { x with notices := [7] }

theorem witness_admission : (∀ rt ∈ [true, false], pcRuns (notified rt) 0 = true ∧ nextNotice (notified rt) 0 = some (7, 0) ∧
    (parseTask (notified rt) 0 (headPacket (notified rt) 7)).task.cls.val = 2 ∧
    localQueue (takePacket 7 (notified rt)) (parseTask (notified rt) 0 (headPacket (notified rt) 7)).task.reply.toNat ≠ some 7 ∧
      ∀ w ∈ ((notified rt).getQue 7).words.take (headLeft ((notified rt).getQue 7)), w.ring = none) ∧
    (decideTask (takePacket 7 (notified false)) 0 (parseTask (notified false) 0 (headPacket (notified false) 7))).toOption = some none ∧
    (decideTask (takePacket 7 (notified true)) 0 (parseTask (notified true) 0 (headPacket (notified true) 7))).toOption = some (some (20000, 21000)) ∧
    (decideTask (takePacket 7 { notified false with thm := { up.thm with halted := true } }) 0 (parseTask (notified false) 0 (headPacket (notified false) 7))).toOption =
      none := by decide +kernel

/-- R291: the admitted task's window starts at the setup allowance and lasts its steps at the floor rate. -/
theorem test_admission : (match exec (.taskNoticeTake 0) (notified true) with
    | .next t => (getTask t 0 0).map (fun x => (x.winS, x.winE, x.sites, x.entry, x.threads)) | _ => none) = some (20000, 21000, 1, 0x1000, 20) := by
  decide +kernel

/-- Site `j` and its arrays have save areas in scratch of their own tower. -/
def areas (j : Nat) (s : State) : State :=
  ((s.modSite j fun x => { x with saveBase := 0x40_0000_0000 }).modAry (2 * j) fun x => { x with saveBase := 0x40_0010_0000 }).modAry (2 * j + 1)
    fun x => { x with saveBase := 0x40_0020_0000 }
/-- A group of another task stands on site 0. -/
def crowded (s : State) : State := (areas 0 s).modGrp (gIx 0 3) fun g => { g with mode := .ready, task := some { p := 0, e := 9 } }
theorem witness_placement :
    (let x := job true; let s := tasked x
      decide (pcRuns s 0 = true ∧ getTask s 0 0 = some x ∧ hasWindow x = true ∧ x.ending = none ∧ x.winS ≤ now s + setupNs ∧ now s < x.winE ∧
        x.chosen = [] ∧ windows s 0 = [(0, x)] ∧ chooseSites s 0 0 x = [0] ∧ (∀ j ∈ chooseSites s 0 0 x, othersOn s j { p := 0, e := 0 } = false) ∧
        othersOn (crowded s) 0 { p := 0, e := 0 } = true ∧ saveAllowed (crowded s) 0 = true)) = true ∧
    (let x := job false; let s := tasked x
      decide (getTask s 0 0 = some x ∧ x.placed < x.sites * x.groups ∧ 32 * x.placed < x.threads ∧ 0 ∈ placeSites s { p := 0, e := 0 } x ∧
        (siteRoom s 0 { p := 0, e := 0 } x).isSome = true)) = true ∧
    (let x := { job false with groups := 2, placed := 1 }; let s := tasked x
      decide (getTask s 0 0 = some x ∧ x.ending = none ∧ x.placed < x.sites * x.groups ∧ x.threads ≤ 32 * x.placed)) = true := by decide +kernel

/-- R437: a site inside a window waits with its retirement. -/
theorem witness_retirementDue : (let s := later 20500 (tasked { job true with chosen := [0] });
    decide (inWindow s 0 = true ∧ siteInService s 0 = true ∧ (s.getSite 0).retiring = false)) = true := by decide +kernel

/-- R140: the lanes past the task's threads start exited. -/
theorem test_placement : (match exec (.groupPlace 0 0) (tasked (job false)) with
    | .next t => ((t.getGrp 0).exec, (t.getGrp 0).exited, (t.getGrp 0).pc) | _ => (0, 0, 0)) = (0xFFFFF, 0xFFF00000, 0x1000) := by decide +kernel

def doneJob (rt sync : Bool) : Task := { job rt with placed := 1, ended := 1, complSync := sync, complMsg := !sync }
theorem witness_completion :
    (pcRuns (tasked (doneJob true false)) 0 = true ∧ getTask (tasked (doneJob true false)) 0 0 = some (doneJob true false) ∧
      outcome (tasked (doneJob true false)) { p := 0, e := 0 } (doneJob true false) = some (0, 0, 0) ∧ (doneJob true false).sync = .due ∧
      (doneJob true false).complSync = false ∧
      outcome (later 100001 (tasked (doneJob true false))) { p := 0, e := 0 } (doneJob true false) = some (3, 0x10, 0)) ∧
    ((doneJob false true).complMsg = false ∧ (doneJob false true).complSync = true ∧
      (doneJob false true).syncAddr.toNat = (tasked (doneJob false true)).net.id.toNat * 2 ^ 40 + syncAddr 5 0 ∧
      inReset (tasked (doneJob false true)) (synPart 5) = false ∧ synStore (tasked (doneJob false true)) 5 = some 5) := by decide +kernel

def signalled : Task := { doneJob false false with sync := .done }
def fullReply (x : Task) : State := (tasked x).modQue 5 fun y => { y with words := List.replicate 32 { data := zeroWord, last := true, par := 0 } }
def posting (s : State) : State := s.modPart 0 fun y => { y with held_ :=
  [{ who := .pc 0, q := 5, word := 3 :: List.replicate 7 0, bad := false, close := true, dest := none, since := 0, task := some { p := 0, e := 0 } }] }
theorem witness_completionPosted :
    (∀ s ∈ [tasked signalled, fullReply signalled], pcRuns s 0 = true ∧ getTask s 0 0 = some signalled ∧
      outcome s { p := 0, e := 0 } signalled = some (0, 0, 0) ∧ signalled.complMsg = true ∧ localQueue s signalled.reply.toNat = some 5 ∧
      inReset s (queOwner s 5) = false ∧ (s.getPart (queOwner s 5)).asm = [] ∧ (s.getPart (queOwner s 5)).held_ = [] ∧
      othersHeld s (.pc 0) 5 = false) ∧
    ((tasked signalled).getQue 5).words.length < queCapacity ((tasked signalled).getQue 5) ∧
    ¬ ((fullReply signalled).getQue 5).words.length < queCapacity ((fullReply signalled).getQue 5) ∧
    (getTask (posting (tasked signalled)) 0 0 = some signalled ∧ queOwner (posting (tasked signalled)) 5 = 0 ∧ inReset (posting (tasked signalled)) 0 = false ∧
      ((posting (tasked signalled)).getPart 0).asm = [] ∧
      (releaseTurn (posting (tasked signalled)) { who := .pc 0, q := 5, word := 3 :: List.replicate 7 0, bad := false, close := true, dest := none, since := 0, task := some { p := 0, e := 0 } }).isSome = true ∧ lf (3 :: List.replicate 7 0) 0 7 0 = 3 ∧
      (∃ h, ((posting (tasked signalled)).getPart 0).held_ = [h] ∧ h.who = .pc 0 ∧ h.q = 5 ∧ h.dest = none ∧ h.close = true ∧
        h.task = some { p := 0, e := 0 }) ∧
      ((posting (tasked signalled)).getQue 5).words.length < queCapacity ((posting (tasked signalled)).getQue 5)) := by
  refine ⟨by decide +kernel, by decide +kernel, by decide +kernel, by decide +kernel, by decide +kernel, by decide +kernel, by decide +kernel,
    by decide +kernel, by decide, ⟨_, rfl, rfl, rfl, rfl, rfl, rfl⟩, by decide +kernel⟩
/-- R281, R307: a completion that its full reply queue holds keeps the task's slot. -/
theorem test_completionHeld : (match exec (.taskCompletion 0 0) (fullReply signalled) with
    | .next t => ((getTask t 0 0).map (·.sync), ((t.getPart 0).held_).length, slotsHeld t 0 2) | _ => (none, 0, 0)) = (some .posting, 1, 1) := by decide +kernel

/-- Its work ended with a fault, and nothing is to be sent. -/
def ended : Task := { doneJob false false with complMsg := false, ending := some (1, 1, 5), sync := .done }
def faulty : State := (tasked (job false)).modPart 0 fun x => { x with faultMsgs := [{ task := { p := 0, e := 0 }, reason := 3, exc := 0 }, { task := { p := 0, e := 0 }, reason := 1, exc := 5 }] }
theorem witness_earlyEnds :
    ((job true).winE ≤ now (later 21000 (tasked (job true))) ∧ pcRuns (later 21000 (tasked (job true))) 0 = true ∧ hasWindow (job true) = true) ∧
    ((job true).deadline ≤ now (later 100000 (tasked (job true))) ∧
      workDone (later 100000 (tasked (job true))) { p := 0, e := 0 } (job true) = false) ∧
    (pcRuns faulty 0 = true ∧ getTask faulty 0 0 = some (job false) ∧
      (∃ m ∈ (faulty.getPart 0).faultMsgs, m.task = { p := 0, e := 0 })) ∧
    (outcome (tasked ended) { p := 0, e := 0 } ended = some (1, 1, 5) ∧ ended.sync = .done ∧ ended.complMsg = false) := by
  decide +kernel
/-- R302: of two fault messages the first reason of Table 9.6 ends the task. -/
theorem test_firstReason : pendingFault faulty { p := 0, e := 0 } = some (1, 1, 5) := by decide +kernel

def displaced : Saved := { site := 2, base := 0x40_0040_0000, groups := [], arrays := [], dmas := [], slm := [], allocs := [], bars := [], be := true }
def awaiting : State := (areas 2 up).modPart 0 fun x => { x with saved := [displaced] }
theorem witness_restore : pcRuns awaiting 0 = true ∧ (awaiting.getPart 0).saved.find? (saveWaits awaiting) = some displaced ∧ displaced.site ∈ towerSites 0 ∧
    restoreSite awaiting displaced.site = true ∧ restoreAllowed (awaiting.modSite 2 fun x => { x with saveBase := 0x40_0040_0000 }) displaced.site = true := by
  decide +kernel

/-! ### Thread groups -/

/-- An instruction word of Table 5.6, guarded by p15; `x` holds its bits from 45 on. -/
def ins (opc dst sa sb sc x : Nat) : W64 := BitVec.ofNat 64 (opc + dst * 2 ^ 8 + sa * 2 ^ 16 + sb * 2 ^ 24 + sc * 2 ^ 32 + 15 * 2 ^ 40 + x * 2 ^ 45)
/-- A group of task 0 with 32 registers of 0 and its instruction issued. -/
def group (w : W64) : Group :=
  { mode := .ready, slotted := true, task := some { p := 0, e := 0 }, ctx := 1, regs := 4, exec := BitVec.allOnes 32, issued := some w }
/-- It stands in slot 0 of site 0 with an allocation; page 0 of its context maps to the local address `pa`. -/
def issued (w : W64) (pa : Nat) (f : Group → Group) : State :=
  (((tasked (job false)).modCtx 1 fun x => { x with valid := true }).modSite 0 fun x => { x with
    allocs := [{ task := { p := 0, e := 0 }, first := 0, granules := 1 }]
    tlb := [{ ctx := 1, base := 0, size := 0x1000, pte := BitVec.ofNat 64 (0x1F + pa) }] }).modGrp 0 fun _ => f (group w)

/-- A load's reply of one write, to v4. -/
def answered : LoadPend := { writes := [(4, 0, 9)], tid := none, log2 := 2, dst := 4, lanes := 1, addr := 0, atom := false, open_ := false }
def noRegs : RegUse := { reads := [], writes := [] }
theorem witness_issue :
    (let s := (up.modGov 0 fun x => { x with waits := [(48, 1)] });
      decide (siteInService s 0 = true ∧ siteIssues s 0 = true ∧ paceHolds s 0 48 = true)) = true ∧
    (let s := issued 0 0x40_0000_0000 fun g => { g with issued := none };
      decide (siteInService s 0 = true ∧ siteIssues s 0 = true ∧ paceHolds s 0 48 = false ∧ canIssue s 0 0 = true ∧
        (fetchWord 0 0 (paceStart 0 48 s)).2 = .word 0 ∧
        waitsForLoad ((fetchWord 0 0 (paceStart 0 48 s)).1.getGrp 0) noRegs 0 = false ∧
        waitsForLoad { group 0 with loads := [answered] } { reads := [4], writes := [] } 0 = true)) = true ∧
    (let s := issued 0 0 (fun g => { g with slotted := false });
      decide (activeCount s 0 < 6 ∧ siteIssues s 0 = true ∧ waitsForSlot s 0 0 = true)) = true := by
  decide +kernel

/-- Six active groups, the first of them held for 32 steps, and a seventh ready one. -/
def sixHeld : State := forN 6 (fun k s => s.modGrp k fun _ => { group 0 with mode := .held, heldFor := if k = 0 then 32 else 31 })
  (up.modGrp 6 fun _ => { group 0 with slotted := false })
theorem witness_release : 6 ≤ activeCount sixHeld 0 ∧ waitsForSlot sixHeld 0 6 = true ∧
    ((sixHeld.getGrp 0).slotted = true ∧ waits (sixHeld.getGrp 0) = true ∧ 32 ≤ (sixHeld.getGrp 0).heldFor) ∧
    waits { group 0 with stall := true } = true ∧ waits { group 0 with retryFrom := some 0 } = true ∧
    (∀ x : Slot, x ≠ 0 → (sixHeld.getGrp (gIx 0 x)).slotted = true → waits (sixHeld.getGrp (gIx 0 x)) = true →
      32 ≤ (sixHeld.getGrp (gIx 0 x)).heldFor → (sixHeld.getGrp (gIx 0 x)).heldFor < (sixHeld.getGrp 0).heldFor) := by decide +kernel

/-- Instruction `w` runs in the state, with the registers `rs` in the group's allocation. -/
def ready (w : W64) (lo hi : Nat) (rs : List Nat) : Bool := runsOp (issued w 0 id) 0 0 w lo hi && regsOk (group w) rs

theorem witness_arithmetic :
    (∀ kind ∈ [VectorKind.fadd, .frecip, .quotient], strayField kind (ins 0x2F 31 1 2 3 0) = true ∧ strayField kind (ins 0x2F 31 1 0 0 0) = false) ∧
    strayField (.other true) (ins 0x2F 31 1 2 3 0) = true ∧ strayField .fma (ins 0x2F 31 1 2 3 0) = false ∧ ready (ins 0x2F 31 1 0 0 0) 0 0x2F [31, 1, 0, 0] = true ∧
    ready (ins 0x2F 31 1 2 3 0) 0 0x2F [31, 1, 2, 3] = true ∧ ready (ins 0 30 28 26 3 0) 0 0x2F [31, 29, 27, 3] = true ∧
    ready (ins 0x3F 31 1 2 3 0) 0x30 0x3F [31, 1, 2, 3] = true ∧ ready (ins 0x50 31 0 0 0 0) 0x50 0x5F [31] = true ∧ ib (ins 0x50 31 0 0 0 0) 39 16 = 0 ∧
    (let w := ins 0x60 30 28 0 0 (2 ^ 2 + 31 * 2 ^ 3 + 2 ^ 8);
      decide (ready w 0x60 0x60 [29, 31, 0] = true ∧ ib w 63 54 = 0 ∧ iSc w = 0 ∧ iSb w = 0 ∧ bit w.toNat 47 = true ∧ bit w.toNat 53 = true ∧
        iSa w % 2 = 0 ∧ iDst w % 2 = 0)) = true ∧
    (∀ mode ∈ [0, 1, 2, 3], let w := ins 0x61 (if mode ≤ 1 then 3 else 4) 0 0 0 mode;
      decide (ready w 0x61 0x61 [iDst w, 1] = true ∧ ib w 63 53 = 0 ∧ ib w 46 45 = mode ∧ ib w 51 47 = 0 ∧ bit w.toNat 52 = false ∧ ib w 15 12 = 0) = true) ∧
    (let w := ins 0x62 8 0 4 16 (2 ^ 4);
      decide (ready w 0x62 0x62 [3, 7, 15, 23] = true ∧ ib w 63 50 = 0 ∧ ib w 48 45 = 0 ∧ bit w.toNat 49 = true ∧ iSa w % 4 = 0 ∧ iSb w % 4 = 0 ∧
        iSc w % 8 = 0 ∧ iDst w % 8 = 0 ∧ overlap (iDst w) 8 (iSa w) 4 = false ∧ overlap (iDst w) 8 (iSb w) 4 = false ∧
        actLanes (group w) w = BitVec.allOnes 32 ∧ actLanes { group w with exec := 1 } w ≠ BitVec.allOnes 32)) = true ∧
    (let w := ins 0x6E 30 0 0 0 0;
      decide (ready w 0x6E 0x6E [31] = true ∧ ib w 63 45 = 0 ∧ iDst w % 2 = 0 ∧ ib w 39 16 = 0)) = true := by decide +kernel

/-- R178: a sum that needs no rounding is exact: 1.5 + 2 = 3.5. -/
theorem test_sum : (match exec (.vectorArith 0 0 (ins 0x10 4 1 2 0 0) .fadd false)
      (issued (ins 0x10 4 1 2 0 0) 0 fun g => setRegs (setRegs g 1 1 fun _ => 0x3FC00000) 2 1 fun _ => 0x40000000) with
    | .next t => getReg (t.getGrp 0) 4 0 | _ => 0) = 0x40600000 := by decide +kernel
/-- R178, DIV by 0 gives all ones; R172, TIME gives the device time of the step. -/
theorem test_quotient_by_zero : (match exec (.vectorArith 0 0 (ins 0x10 4 1 2 0 0) .quotient false) (issued (ins 0x10 4 1 2 0 0) 0 id) with
    | .next t => (getReg (t.getGrp 0) 4 31, (t.getGrp 0).pc) | _ => (0, 0)) = (0xFFFFFFFF, 8) := by decide +kernel
theorem test_time : (match exec (.time 0 0 (ins 0x6E 30 0 0 0 0)) (later (2 ^ 32 + 5) (issued (ins 0x6E 30 0 0 0 0) 0 id)) with
    | .next t => (getReg (t.getGrp 0) 30 0, getReg (t.getGrp 0) 31 0) | _ => (0, 0)) = (5, 1) := by decide +kernel

def form (log2 : Fin 5) (store discard : Bool) : MemForm := { log2 := log2, store := store, discard := discard }
theorem witness_shared : (∀ e ∈ [(0x48, 31, 0), (0x4F, 0, 2)], let w := ins e.1 e.2.1 0 e.2.2 0 0; let s := issued w 0 fun g => { g with exec := 1 }
    decide (runsOp s 0 0 w 0x48 0x4F = true ∧ iSc w = 0 ∧ iDst w = e.2.1 ∧ iSb w = e.2.2 ∧ regsOk (group w) [iSa w, iDst w, iSb w] = true ∧
      (getReg (s.getGrp 0) (iSa w) 0).toNat % 4 = 0 ∧ (getReg (s.getGrp 0) (iSa w) 0).toNat + 4 ≤ (slmAlloc s 0 (s.getGrp 0).task).2) = true) := by
  decide +kernel
/-- A staging block of array 0 stands: it takes the write side of the port. -/
def portShut (s : State) : State := s.modAry 0 fun x => { x with
  cur := some { desc := { words := [BitVec.ofNat 64 (1 + 2 ^ 22 + 9 * 2 ^ 16), 64, 1, 0, 0, 0, 0, 0], ctx := 1, cls := 0, task := none }, t := 127
                loaded := true, left := 0, tile := noTile, psum := [], done := 0, lost := false, bad := false } }
theorem witness_context : (∀ acc ∈ [Access.hint, .read, .write], let w := ins 0x40 (if acc = .read then 4 else 0) 0 (if acc = .write then 2 else 0) 0 0; let s := issued w 0x40_0000_0000 fun g => { g with exec := 1 }
    let r := xlateLanes 0 1 acc [(0, 0)] s
    decide (runsOp s 0 0 w 0x40 0x47 = true ∧ iSc w = 0 ∧ (BitVec.ofNat 48 (getPair (s.getGrp 0) (iSa w) 0)).toNat % 4 = 0 ∧ waitsReply (s.getGrp 0) = false ∧ regsOk (s.getGrp 0) [1, 4, 2] = true ∧
      (lanesOf (actLanes (s.getGrp 0) w)).map (fun l => (l, BitVec.ofNat 48 (getPair (s.getGrp 0) (iSa w) l))) = [(0, 0)] ∧
      laneFault r.2 = none ∧ laneResetting r.1 r.2 = false ∧ fabricLanes r.2 = [] ∧ localLanes r.2 = [(0, 0, 0x40_0000_0000)] ∧
      r.1.slices = [] ∧
      fillsLine r.1 0 false (localLanes r.2) = true ∧ touchesMemory (localLanes r.2) = true ∧ portMay r.1 0 .l1Fill = true ∧ portMay r.1 0 .l1Write = true ∧
      portMay (portShut r.1) 0 .l1Write = false ∧
      (loadLocal (grpAgent 0 0) 0 4 4 (agentLabel r.1 (grpAgent 0 0)) false (localLanes r.2) (portTake 0 .l1Fill r.1)).2.1 = [] ∧
      (physWrite (grpAgent 0 0) 0x40_0000_0000 (storeBytes (r.1.getGrp 0) 2 0 4) (agentLabel r.1 (grpAgent 0 0)) (portTake 0 .l1Write r.1)).2 = none) = true) := by decide +kernel
/-- R81: an access that the port passes over for the seventh time goes first. -/
theorem witness_port : (∀ n ∈ [0, 6, 7], let s := (portShut up).modSite 0 fun x => setPassed n .l1Write x
      decide (portSpare s 0 .l1Write = false ∧ portPassed (s.getSite 0) .l1Write = n) = true) ∧ portSpare up 0 .dmaRead = true := by decide +kernel
theorem witness_replies : (let s := issued 0 0 fun g => { g with loads := [answered], stores := 1 }
    decide ((s.getGrp 0).loads[0]? = some answered ∧ answered.open_ = false ∧ answered.tid = none ∧ (s.getGrp 0).mode ≠ .held ∧ (s.getGrp 0).ends = false ∧ (s.getGrp 0).stores ≠ 0)) = true := by
  decide +kernel

/-- Atomics: `op` of u32 in shared or context space. -/
def atomIns (opc op : Nat) (shared : Bool) : W64 := ins opc (if opc = 0x68 then 4 else 0) 0 2 (if op = 7 then 5 else 0) (op + if shared then 2 ^ 7 else 0)
theorem witness_atomics : (∀ e ∈ [(0x68, 0), (0x68, 6), (0x68, 7), (0x69, 0)], ∀ shared ∈ [true, false], let w := atomIns e.1 e.2 shared
    let s := issued w 0x40_0000_0000 fun g => { g with exec := 1 }
    let r := xlateLanes 0 1 .atomic [(0, 0)] s
    decide (runs s 0 0 w = true ∧ iOpc w = e.1 ∧ waitsReply (s.getGrp 0) = false ∧ atomLegal (s.getGrp 0) w = true ∧ aOrd w = 0 ∧ aTy w = 0 ∧ aAop w = e.2 ∧
      aShared w = shared ∧ aSerial w = (e.1 == 0x68 && decide (6 ≤ e.2)) ∧ (getReg (s.getGrp 0) (iSa w) 0).toNat % 4 = 0 ∧
      (getReg (s.getGrp 0) (iSa w) 0).toNat + 4 ≤ (slmAlloc s 0 (s.getGrp 0).task).2 ∧ laneFault r.2 = none ∧ laneResetting r.1 r.2 = false ∧ fabricLanes r.2 = [] ∧
      localLanes r.2 ≠ [] ∧ touchesMemory (localLanes r.2) = true ∧ portMay r.1 0 .l1Write = true ∧
      (atomLocal (grpAgent 0 0) 0 (agentLabel r.1 (grpAgent 0 0)) w (r.1.getGrp 0) (targetsOf (localLanes r.2)) (portTake 0 .l1Write r.1)).2.1 = []) = true) := by decide +kernel

/-- R157: each lane of an add with return gets the value before its own addition. -/
theorem test_atom_add : (match exec (.atom 0 0 (atomIns 0x68 0 true)) (issued (atomIns 0x68 0 true) 0 fun g => setRegs g 2 (BitVec.allOnes 32) fun _ => 3) with
    | .next t => (getReg (t.getGrp 0) 4 0, getReg (t.getGrp 0) 4 31, ofLe (slmRead t 0 0 4)) | _ => (0, 0, 0)) = (0, 93, 96) := by decide +kernel

theorem witness_control :
    (let w := ins 0x50 0 2 0 0 0
      let s := issued w 0 fun g => { g with pred := [(0, 0), (1, 1)] }
      let g := s.getGrp 0;
      decide (runsOp s 0 0 w 0x50 0x5F = true ∧ actLanes g w &&& getPred g 0 = 0 ∧ actLanes g w &&& getPred g 15 = actLanes g w ∧ actLanes g w ≠ 0 ∧
        (actLanes g w &&& getPred g 1 ≠ 0 ∧ actLanes g w &&& getPred g 1 ≠ actLanes g w) ∧ g.stack.length + 2 ≤ 32 ∧ g.pc + 8 ≠ 0x100 ∧ regsOk g [3] = true ∧
        targetSets g 2 (actLanes g w) = [(0, BitVec.allOnes 32)] ∧
        targetSets (setRegs g 2 1 fun _ => 8) 2 (actLanes g w) = [(8, 1), (0, 0xFFFFFFFE)] ∨
        targetSets (setRegs g 2 1 fun _ => 8) 2 (actLanes g w) = [(0, 0xFFFFFFFE), (8, 1)])) = true ∧
    (let e : StackEnt := { pc := 0, mask := 1, reconv := 8, join := 1, st := 0 };
      decide (32 < ({ group 0 with stack := List.replicate 31 e } : Group).stack.length + 2)) = true ∧
    (let w := ins 0x50 0 0 0 0 0
      let s := issued w 0 id
      let p := issued w 0 (fun g => { g with pred := [(3, 1)] })
      let v := ins 0x50 0 0 0 0 0 - 12 * 2 ^ 40;
      decide (taskAt s { p := 0, e := 0 } = some (job false) ∧ (s.getGrp 0).exited ||| actLanes (s.getGrp 0) w = BitVec.allOnes 32 ∧ (s.getGrp 0).storeErr = none ∧
        (s.getGrp 0).stores = 0 ∧ (s.getGrp 0).loads = [] ∧ (s.getGrp 0).remote = 0 ∧
        (p.getGrp 0).exited ||| actLanes (p.getGrp 0) v ≠ BitVec.allOnes 32 ∧ (p.getGrp 0).exec &&& ~~~(actLanes (p.getGrp 0) v) ≠ 0)) = true := by decide +kernel

def barred (l : List Barrier) (w : W64) : State := (issued w 0 id).modSite 0 fun x => { x with bars := l }
theorem witness_barrier :
    (∀ n ∈ [0, 1, 4], let w := ins 0x6C 0 0 0 0 (2 + 4 * n); let s := issued w 0 fun g => { g with stores := n };
      decide (runsOp s 0 0 w 0x6C 0x6C = true ∧ ib w 63 50 = 0 ∧ ib w 49 47 = n ∧ ib w 46 45 = 2 ∧ ib w 39 8 = 0 ∧ actLanes (s.getGrp 0) w ≠ 0 ∧ (s.getGrp 0).storeErr = none ∧
        released (s.getGrp 0) n = decide (n ≤ 1)) = true) ∧
    (let w := ins 0x6D 0 0 0 0 (15 + 16 * 1); let b : Barrier := { task := { p := 0, e := 0 }, bid := 15, count := 1, arrived := [3] };
      decide (runsOp (barred [] w) 0 0 w 0x6D 0x6D = true ∧ ib w 63 55 = 0 ∧ ib w 53 49 = 1 ∧ ib w 39 8 = 0 ∧ actLanes ((barred [] w).getGrp 0) w ≠ 0 ∧
        ((barred [] w).getGrp 0).storeErr = none ∧ ((barred [] w).getSite 0).bars.find? (fun b => decide (b.task = { p := 0, e := 0 } ∧ b.bid = ib w 48 45)) = none ∧
        ((barred [b] w).getSite 0).bars.find? (fun b => decide (b.task = { p := 0, e := 0 } ∧ b.bid = ib w 48 45)) = some b ∧
        b.count = ib w 53 49 ∧ b.arrived.length = b.count ∧ (b.arrived ++ [(0 : Slot).val]).Nodup ∧
        ib (ins 0x6D 0 0 0 0 (15 + 16 * 2)) 53 49 ≠ b.count)) = true := by decide +kernel

/-- R171: the last of two groups frees both. -/
theorem test_barrier : (let w := ins 0x6D 0 0 0 0 (15 + 16 * 1)
    let s := (barred [{ task := { p := 0, e := 0 }, bid := 15, count := 1, arrived := [3] }] w).modGrp 3 fun _ => { group w with mode := .held, hold := .barrier 15 }
    match exec (.bar 0 0 w) s with | .next t => ((t.getGrp 3).mode, (t.getGrp 3).pc, (t.getSite 0).bars) | _ => (.empty, 0, [])) = (.ready, 8, []) := by decide +kernel

/-- Queue 0 through page 0. -/
def atQueue (w : W64) : State := (issued w 0x70_0000_0000 id).modQue 0 fun x => { x with consumer := 1 }
theorem witness_groupQueue :
    (∀ last ∈ [0, 1], let w := ins 0x78 0 0 2 0 last; let s := atQueue w; let r0 := translate 0 1 (winAddr (s.getGrp 0) w 0) .write s
      let r := (windowMove 0 0 (winTarget r0.2) r0.1, r0.2);
      decide (runs s 0 0 w = true ∧ (s.getGrp 0).storeErr = none ∧ waitsReply (s.getGrp 0) = false ∧ actLanes (r.1.getGrp 0) w = actLanes (s.getGrp 0) w ∧
        winTarget r.2 = .queue 0 ∧ lowEight (actLanes (s.getGrp 0) w) = true ∧ inReset r.1 (queOwner r.1 0) = false ∧ othersHeld r.1 (grpAgent 0 0) 0 = false ∧ iDst w = 0 ∧ iSc w = 0 ∧ released (s.getGrp 0) (ib w 48 46) = true ∧
        ib w 63 49 = 0 ∧ ib w 48 46 ≤ 4 ∧ iSa w % 2 = 0 ∧ regsOk (s.getGrp 0) [iSa w + 1, iSb w + 1] = true ∧ (r.1.getPart 0).asm = [] ∧
        (r.1.getQue 0).words.length < queCapacity (r.1.getQue 0) ∧ ((r.1.getQue 0).words.filter (·.ring.isNone)).length < 32 ∧ actLanes (s.getGrp 0) w ≠ 0 ∧ (r.1.getQue 0).notice = 0 ∧ bit w.toNat 45 = decide (last = 1)) = true) ∧
    (let w := ins 0x79 4 0 2 0 (3 * 2 ^ 8); let s := (atQueue w).modQue 0 fun x => { x with words := [{ data := zeroWord, last := true, par := 0 }] }
      let r0 := translate 0 1 (winAddr (s.getGrp 0) w 0) .read s
      let r := (windowMove 0 0 (winTarget r0.2) r0.1, r0.2);
      decide (runs s 0 0 w = true ∧ winTarget r.2 = .queue 0 ∧ ib w 63 57 = 0 ∧ iSa w = 0 ∧ iSc w = 0 ∧ othersHeld r.1 (grpAgent 0 0) 0 = false ∧ ib w 56 53 = 3 ∧ iDst w % 2 = 0 ∧ regsOk (s.getGrp 0) [iDst w + 1, iSb w + 1] = true ∧
        isConsumer r.1 (grpAgent 0 0) 0 = true ∧ (r.1.getQue 0).words = { data := zeroWord, last := true, par := 0 } :: [])) = true := by decide +kernel
theorem witness_groupSync : (∀ e ∈ [(0x7A, 4, 1), (0x7D, 4, 1), (0x7B, 4, 0), (0x7C, 4, 0)], let w := ins e.1 e.2.1 0 2 0 e.2.2; let s := issued w 0x71_0000_0000 id
    let r0 := translate 0 1 (winAddr (s.getGrp 0) w 0) (if e.2.2 = 1 then .write else .read) s
    let r := (windowMove 0 0 (winTarget r0.2) r0.1, r0.2)
    decide (runs s 0 0 w = true ∧ (s.getGrp 0).storeErr = none ∧ waitsReply (s.getGrp 0) = false ∧ actLanes (s.getGrp 0) w ≠ 0 ∧
      actLanes (r.1.getGrp 0) w = actLanes (s.getGrp 0) w ∧ winTarget r.2 = .sync 0 ∧ inReset r.1 (synPart 0) = false ∧ synStore r.1 0 = some 0 ∧
      (r.1.getSyn 0).waiters = [] ∧ (r.1.getSyn 0).armed = none ∧ bit w.toNat 45 = decide (e.2.2 = 1) ∧ ib w 63 49 = 0 ∧ ib w 48 46 ≤ 4 ∧ iSc w = 0 ∧
      released (s.getGrp 0) (ib w 48 46) = true ∧ regsOk (s.getGrp 0) [iDst w + 3, iSa w + 1, iSb w + 1] = true ∧ iDst w % 4 = 0 ∧
      getPair (s.getGrp 0) (iSa w) 0 ≤ (r.1.getSyn 0).counter.toNat ∧
      getPair (setRegs (s.getGrp 0) 0 1 fun _ => 1) (iSa w) 0 > (r.1.getSyn 0).counter.toNat) = true) := by decide +kernel

/-! ### Matrix arrays -/

/-- A descriptor of operation `op`, one column, K = 32, row 0, with SYNC_EN; `x` adds bits of its first word. -/
def desc (op x : Nat) : ADesc :=
  { words := [BitVec.ofNat 64 (op + x + 2 ^ 26 + 32 * 2 ^ 44), 1, 1, 0, 0, 0, 0, 0], ctx := 1, cls := 0, task := some { p := 0, e := 0 } }
def tile : Tile := { noTile with w0 := BitVec.ofNat 64 (1 + 32 * 2 ^ 44), mask := 1 }
/-- Array 0 as `f` leaves it, with its save area. -/
def arrayed (f : Array → Array) : State := (areas 0 (tasked (job false))).modAry 0 f
def run (x t done : Nat) : PassRun := { desc := desc 1 x, t := t, loaded := true, left := 0, tile := tile, psum := [], done := done, lost := false, bad := false }

theorem witness_apost :
    (let w := ins 0x70 0 2 0 0 0; let s := issued w 0 id
      let full := s.modAry 0 fun x => { x with fifo := List.replicate 8 (desc 1 0) };
      decide (runsOp s 0 0 w 0x70 0x70 = true ∧ (s.getGrp 0).storeErr = none ∧ released (s.getGrp 0) 2 = true ∧ ib w 63 46 = 0 ∧ iDst w = 0 ∧ iSb w = 0 ∧ iSc w = 0 ∧
        iSa w % 2 = 0 ∧ regsOk (s.getGrp 0) [iSa w + 1] = true ∧ lowEight (actLanes (s.getGrp 0) w) = true ∧ (s.getAry 0).fifo.length < 8 ∧ apostWaiters s 0 0 = [] ∧
        8 ≤ (full.getAry 0).fifo.length ∧ apostWaiters (s.modGrp 5 fun _ => { group 0 with mode := .held, hold := .apost 0 zeroWord }) 0 0 ≠ [])) = true ∧
    (let s := up.modGrp 5 fun _ => { group 0 with mode := .held, hold := .apost 0 zeroWord };
      decide ((s.getGrp 5).hold = .apost 0 zeroWord ∧ (s.getAry 0).fifo.length < 8 ∧ tokenFirst 24 (s.getAry 0).fifoTok (apostWaiters s 0 0) = 5)) = true := by
  decide +kernel

def posted (d : ADesc) : State := arrayed fun x => { x with fifo := [d], active := some tile }
theorem witness_arrayTakes :
    (∀ op ∈ [1, 2, 3], takes ((posted (desc op 0)).getAry 0) = true ∧ ((posted (desc op 0)).getAry 0).fifo.head? = some (desc op 0) ∧
      ((posted (desc op 0)).getAry 0).cur = none ∧ ((posted (desc op 0)).getAry 0).next = [] ∧ ((posted (desc op 0)).getAry 0).accRun = none ∧
      dOp (desc op 0).words = op) ∧
    descOk (posted (desc 1 128)) 0 (desc 1 128) (some tile) = true ∧ dSKeep (desc 1 128).words = true ∧ dSKeep (desc 1 0).words = false ∧
    descOk (posted (desc 1 0)) 0 (desc 1 0) (some tile) = true ∧ descOk (posted (desc 2 0)) 0 (desc 2 0) none = true ∧ descOk (posted (desc 3 0)) 0 (desc 3 0) none = true ∧
    (∀ op ∈ [1, 2, 3], descOk (posted (desc op (2 ^ 62))) 0 (desc op (2 ^ 62)) none = false) ∧
    inReset (posted (desc 2 0)) (synPart (dSyncId (desc 2 0).words)) = false ∧ synStore (posted (desc 2 0)) (dSyncId (desc 2 0).words) = some 0 := by decide +kernel

/-- R105: S_KEEP without a valid active tile ends with a descriptor error. -/
theorem test_keep_without_tile : (match exec (.arrayPass 0) (arrayed fun x => { x with fifo := [desc 1 128] }) with
    | .next t => ((t.getAry 0).mode, (t.getAry 0).code) | _ => (.idle, 0)) = (.halted, 1) := by decide +kernel

/-- FP32 output to memory. -/
def toMem : Nat := 2 ^ 22 + 9 * 2 ^ 16
def passing (r : PassRun) : State := arrayed fun x => { x with mode := .running, fifo := [r.desc], cur := some r }
/-- A pass that streams MXFP8 elements with scale records. -/
def mxRun : PassRun :=
  { run 0 5 0 with desc := { desc 1 0 with words := ((desc 1 0).words.set 0 (BitVec.ofNat 64 (1 + 2 ^ 13 + 2 ^ 26 + 32 * 2 ^ 44))).set 5 1 } }
theorem witness_scaleReads : feedScaled mxRun.desc.words = true ∧ decide (stepValues mxRun ≠ []) = true ∧
    drainBlocked ((passing mxRun).getAry 0) mxRun = false ∧ portShort (passing mxRun) 0 = false := by decide +kernel
theorem witness_arraySteps : (∀ t ∈ [40, 63], let r := run 0 t 0; let s := passing r
    decide ((s.getAry 0).mode = .running ∧ (s.getAry 0).busy = false ∧ (s.getAry 0).cur = some r ∧ (s.getAry 0).next = [] ∧ (s.getAry 0).accRun = none ∧
      r.loaded = true ∧ r.bad = false ∧ r.desc.made ≤ r.t - 63 ∧ portShort s 0 = false ∧ 0 < dN r.desc.words ∧ r.t < dN r.desc.words + 63 ∧ paceHolds s (0 / 48) (0 % 48) = false ∧ drainBlocked (s.getAry 0) r = false ∧
      feedPass 0 r (portStep 0 s) = (portStep 0 s, .ok []) ∧ dDest r.desc.words = false ∧ dAccOff r.desc.words + dN r.desc.words ≤ 512) = true) ∧
    getBit (dMask (run 0 63 0).desc.words) 0 = true ∧
    (let r := run 0 5 0; let s := passing r; decide (stepValues r ≠ [] ∧ drainBlocked (s.getAry 0) r = false ∧ portShort s 0 = false)) = true ∧
    (let r := { run toMem 191 0 with desc := { desc 1 toMem with words := (desc 1 toMem).words.set 1 129 } }
      let s := passing r;
      decide (drainBlocked (s.getAry 0) r = true ∧ r.t < dN r.desc.words + 63 ∧ portShort s 0 = false)) = true := by decide +kernel

def mapped (s : State) : State := (s.modCtx 1 fun x => { x with valid := true }).modSite 0 fun x => { x with
  tlb := [{ ctx := 1, base := 0, size := 0x200000, pte := BitVec.ofNat 64 (0x1F + 0x40_0000_0000) }] }
theorem witness_arrayEnds :
    (let r := run toMem 64 0; let s := mapped (passing r);
      decide (0 < passOpen r ∧ (s.getAry 0).out = none ∧ ((s.modAry 0 fun x => { x with out := some [] }).getAry 0).out = some [] ∧ (writeBlock 0 r.desc 0 1 s).2 = .ok [] ∧ doneBlocks r.done (dN r.desc.words) = 0)) = true ∧
    (passDone { run 0 64 0 with desc := { desc 1 0 with words := (desc 1 0).words.set 0 (BitVec.ofNat 64 (1 + 32 * 2 ^ 44)) } } = true ∧
      dSyncEn [BitVec.ofNat 64 (1 + 32 * 2 ^ 44)] = false) ∧
    (walkDesc ((passing { run 0 0 0 with loaded := false, left := 64 }).getAry 0) .stationary 0 = some (desc 1 0) ∧
      (match (translate 0 1 0 .read (passing (run 0 0 0))).2 with | .fault _ _ _ => true | _ => false) = true) := by decide +kernel

theorem witness_arrayStops :
    (siteWritable up 1 0 0 = true ∧ siteWritable up 2 0 0 = true ∧ (3 : BitVec 3).toNat % 4 ≠ 0 ∧ headDone ((passing (run 0 5 0)).getAry 0) = false) ∧
    (let r := { run 0 64 0 with desc := { desc 1 0 with words := (desc 1 0).words.set 0 (BitVec.ofNat 64 (1 + 32 * 2 ^ 44)) } }; let s := passing r;
      decide ((s.getAry 0).busy = false ∧ (s.getAry 0).accRun = none ∧ (s.getAry 0).cur = some r ∧ passDone r = true ∧ dSyncEn r.desc.words = false ∧
        (s.getAry 0).next = [])) = true ∧
    (let s := arrayed fun x => { x with mode := .stopping, cause := 1, cur := some (run 0 5 0) };
      decide ((s.getAry 0).mode = .stopping ∧ (s.getAry 0).cause ≠ 0 ∧ holdsPass (s.getAry 0) = true ∧ finishing (s.getAry 0) = false)) = true ∧
    (let s := arrayed fun x => { x with mode := .parked, cause := 5, cur := some (run 0 5 0) };
      decide ((s.getAry 0).mode = .parked ∧ (5 : BitVec 3) ≠ 0 ∧ getBit (s.getAry 0).cause 2 = true ∧ holdsPass (s.getAry 0) = true ∧ siteWritable s 1 0 0 = true)) = true ∧
    (let s := arrayed fun x => { x with mode := .restoring }; decide ((s.getAry 0).mode = .restoring ∧ (s.getAry 0).cur = none)) = true ∧
    (let r := run 0 64 0; let s := arrayed fun x => { x with mode := .restoring, cur := some r };
      decide ((s.getAry 0).mode = .restoring ∧ (s.getAry 0).accRun = none ∧ restoreTile r = none ∧ feedValues 0 r.desc (restoreValues r) s = (s, .ok []))) = true := by
  decide +kernel
/-- A restore of a pass that had not swapped its tile in loads it again. -/
theorem witness_restoredTile :
    (let r := run 0 0 0; let s := mapped (arrayed fun x => { x with mode := .restoring, cur := some r });
      restoreTile r = some r.desc ∧ restoreValues r = [] ∧ (match (loadTile 0 r.desc s).2 with | .ok _ => true | _ => false) = true) := by decide +kernel
theorem witness_arrayControl :
    (let s := arrayed fun x => { x with mode := .parked, fifo := [desc 1 0] };
      decide (siteWritable s 2 0 0 = true ∧ (s.getAry 0).mode = .parked ∧ (s.getAry 0).fifo.getLast? = some (desc 1 0) ∧ holdsPass (s.getAry 0) = false)) = true ∧
    ((arrayed fun x => { x with mode := .halted }).getAry 0).mode = .halted ∧ ((arrayed id).getAry 0).mode = .idle ∧
    (((passing (run 0 5 0)).getAry 0).mode = .running ∧ ((passing (run 0 5 0)).getAry 0).cause = 0) := by decide +kernel

/-! ### Loess -/

/-- The cache slice of line 0. -/
def homeOf0 : Nat := (homeSlice up 0).getD 0
/-- Slice 0 waits for its pacer; word 3 of it meets an error at its next read. -/
def slicePaced : State := up.modGov 0 fun x => { x with waits := [(slicePipe 0, 1)] }
def struck : State := up.modSlc 0 fun x => { x with hurt := [{ word := 3, err := .correctable, bit := 7 }] }
theorem witness_scratch :
    (sliceRole up 0 = 0 ∧ (0x3FFFFF8 : BitVec 26).toNat + 8 ≤ sliceBytes ∧ inReset up (0 / 24) = false ∧ paceHolds up (0 / 24) (slicePipe 0) = false ∧
      (∀ w ∈ wordsOf 0x3FFFFF8 8, wordBad up 0 w = false ∧ hurtAt up 0 w = none) ∧
      (∃ w ∈ wordsOf 0 8, wordBad { up with loessBad := [0] } 0 w = true) ∧ wordFull 0 8 0 = true ∧ wordFull 0 4 0 = false) ∧
    (sliceRole slicePaced 0 = 0 ∧ inReset slicePaced (0 / 24) = false ∧ paceHolds slicePaced (0 / 24) (slicePipe 0) = true) ∧
    (sliceRole ({ up with rst := { up.rst with inReset := 1 } } : State) 0 = 0 ∧ inReset { up with rst := { up.rst with inReset := 1 } } (0 / 24) = true) ∧
    hurtAt struck 0 3 ≠ none := by decide +kernel
theorem witness_scrub :
    (∀ j ∈ [0, 95], sliceVisible up j = true ∧ inReset up (j / 24) = false ∧ paceHolds up (j / 24) (slicePipe j) = false ∧ (inputReady up j).isEmpty = true ∧
      ∀ i < 64, hurtAt up j ((up.getSlc j).scrubAt * 64 + i) = none ∧ wordBad up j ((up.getSlc j).scrubAt * 64 + i) = false ∧
        lineAt up j ((up.getSlc j).scrubAt * 64 + i) = none) ∧
    sliceRole up 0 = 0 ∧ sliceRole up homeOf0 = 1 ∧
    (decide ((up.getSlc 95).scrubAt * (up.lss.target.toNat * 1000000000) < (now up - (up.getSlc 95).lapFrom.toNat) * 131072) = false) ∧
    (decide (((hot 1000000000).getSlc 95).scrubAt * (up.lss.target.toNat * 1000000000) < (now (hot 1000000000) - (up.getSlc 95).lapFrom.toNat) * 131072) = true) ∧
    sliceReserve (hot 1000000000) ((hot 1000000000).getSlc 95) = true ∧
    (up.getSlc 95).scrubAt + 1 ≠ 131072 ∧
    (let s := up.modSlc 0 fun x => { x with scrubAt := 131071 };
      decide ((s.getSlc 0).scrubAt + 1 = 131072 ∧ ∀ i ∈ List.range 64, (hurtAt s 0 (131071 * 64 + i)).isNone = true ∧ wordBad s 0 (131071 * 64 + i) = false ∧
        (lineAt s 0 (131071 * 64 + i)).isNone = true)) = true := by decide +kernel

/-- R219: a poisoned word answers with a bus error. -/
theorem test_poisoned_read : (match exec (.sliceRead 0 0 8 (.pc 0) []) { up with loessBad := [0] } with | .next t => t.tx.head? | _ => none) = some (.busError (.pc 0)) := by
  decide +kernel

/-- A request of the management core. -/
def ask : HomeReq := { who := .mgmt, cls := 0, rt := false, dl := 0 }
/-- A tag of line 0 with every word valid. -/
def tag0 : Tag := { line := 0, st := .clean, cls := 0, valid := allW, dirty := 0, poison := 0, words := [], form := none, ops := [], slot := 0, half := 0, ctx := 0 }
def caching (f : Slice_ → Slice_) : State := up.modSlc homeOf0 f
def holdsLine : State := caching fun x => { x with sets := [(setOf 0, [tag0])] }
def missing (sent : Bool) (l : Nat) (reqs : List Joined) : Miss := { line := l, reqs := reqs, cls := 0, rt := false, dl := 0, sent := sent, got := [] }
/-- The home of line 0 is a cache slice of a running partition that its pacer does not hold. -/
theorem witness_home : homeSlice up 0 = some homeOf0 ∧ copyHeld up 0 = false ∧ inReset up (homeOf0 / 24) = false ∧
    paceHolds up (homeOf0 / 24) (slicePipe homeOf0) = false ∧ 0 % 256 + 256 ≤ 256 ∧ 0 + 256 ≤ marlBytes := by decide +kernel
theorem witness_cache :
    (resident holdsLine homeOf0 0 = some tag0 ∧ tag0.valid = allW ∧ (∀ i ∈ wordsOf 0 256, getBit tag0.poison i = false) ∧
      (∀ i ∈ wordsOf 0 256, ∀ k ∈ slotWords tag0 i, hurtAt holdsLine homeOf0 (slotWord tag0 k) = none) ∧
      copyHeld holdsLine 0 = false ∧ homeSlice holdsLine 0 = some homeOf0 ∧ inReset holdsLine (homeOf0 / 24) = false ∧
      paceHolds holdsLine (homeOf0 / 24) (slicePipe homeOf0) = false) ∧
    (let s := caching fun x => { x with sets := [(setOf 0, [tag0])], input := [(.read .mgmt 0 8, ask)] }; decide (inputReady s homeOf0 = [(.read .mgmt 0 8, ask)])) = true ∧
    (findTag up homeOf0 0 = none ∧ (up.getSlc homeOf0).miss.find? (fun m => m.line = 0) = none ∧ (up.getSlc homeOf0).miss.length < 128 ∧ behindInput up homeOf0 0 = false) ∧
    (let s := caching fun x => { x with miss := [missing false 0 [.read .mgmt 0 8]] };
      decide (findTag s homeOf0 0 = none ∧ (s.getSlc homeOf0).miss = [missing false 0 [.read .mgmt 0 8]] ∧ (missing false 0 [.read .mgmt 0 8]).reqs.length < 64 ∧ behindInput s homeOf0 0 = false)) = true ∧
    (let s := caching fun x => { x with input := [(.read .mgmt 0 8, ask)] }; decide (findTag s homeOf0 0 = none ∧ behindInput s homeOf0 0 = true)) = true ∧
    (let s := caching fun x => { x with miss := List.replicate 128 (missing true 1 []) };
      decide ((s.getSlc homeOf0).miss.find? (fun m => m.line = 0) = none ∧ 128 ≤ (s.getSlc homeOf0).miss.length)) = true := by decide +kernel
theorem witness_fill :
    (let s := caching fun x => { x with miss := [missing true 0 [.read .mgmt 0 8]] }; let f := (filledLine (.got []) homeOf0 0 0 s).2;
      decide (paceHolds s (homeOf0 / 24) (slicePipe homeOf0) = false ∧ (s.getSlc homeOf0).miss.find? (fun m => m.line = 0 && m.sent) = some (missing true 0 [.read .mgmt 0 8]) ∧ tagsOf s homeOf0 (setOf 0) = [] ∧
        ∀ i ∈ wordsOf 0 8, getBit f.poison i = false)) = true := by decide +kernel
def flushable : WbEnt := { line := 0, valid := allW, dirty := 1, poison := 0, words := [], cls := 0 }
theorem witness_cacheWrites :
    (resident holdsLine homeOf0 0 = some tag0 ∧ tag0.form = none ∧ needsFill 0 256 tag0 = false ∧ tag0.ops = [] ∧ opHeld holdsLine homeOf0 0 = false ∧
      (∀ i ∈ wordsOf 248 8, wordFull 248 8 i = true) ∧ (∀ i ∈ wordsOf 3 2, getBit tag0.poison i = false ∧ hurtAt holdsLine homeOf0 (slotWord tag0 i) = none) ∧
      (∀ i ∈ opWords 248 (.atomic { aop := 0, ty := 2 } 1 0), getBit tag0.poison i = false ∧ hurtAt holdsLine homeOf0 (slotWord tag0 i) = none)) ∧
    ((caching fun x => { x with wb := [flushable] }).getSlc homeOf0).wb.find? (fun e => e.line = (0 : BitVec 32).toNat) = some flushable ∧
    (let s := caching fun x => { x with wb := [flushable] };
      decide (stackAsleep s (homeOf0 / 24) = false ∧ (marlPick s (chanOf s 0)).map (·.1) = some (.write flushable))) = true ∧
    (let s := caching fun x => { x with wb := [flushable], miss := [{ missing false 0 [] with rt := true }] };
      decide ((marlPick s (chanOf s 0)).map (·.1) = some (.read 0))) = true ∧
    mask8 flushable.dirty 0 ≠ 0 ∧ mask8 flushable.valid 0 = 0xFF ∧ ((1 : Req) = 1) ∧ getBit up.lss.busy 0 = false ∧
    getBit ({ up with lss := { up.lss with busy := 15 } } : State).lss.busy 3 = true := by decide +kernel

/-! #### Locks (R214, R215) -/

def pendingOp : PendOp := { who := .mgmt, off := 0, ret := true, op := .atomic { aop := 0, ty := 0 } 1 0 }
def locked (n : Nat) : Tag := { tag0 with ops := List.replicate n pendingOp }
/-- The set of line 0 holds 16 other lines, each in a full slot; all are locked. -/
def allLocked : State := caching fun x => { x with sets := [(setOf 0, (List.range 16).map fun k =>
  { tag0 with line := 0x10000000 + k, slot := k, ops := [pendingOp] })] }
theorem witness_locks :
    (∀ n ∈ [0, 3, 4], let s := caching fun x => { x with sets := [(setOf 0, [locked n])] }
      decide (resident s homeOf0 0 = some (locked n) ∧ (locked n).valid = allW ∧ opHeld s homeOf0 0 = decide (4 ≤ n) ∧
        (4 ≤ (locked n).ops.length ∨ n < 4)) = true) ∧
    (let s := caching fun x => { x with held_ := [(setOf 0, 9)] }; decide (∃ e ∈ (s.getSlc homeOf0).held_, e.1 = setOf 0)) = true ∧
    (resident allLocked homeOf0 0 = none ∧ needsFill 8 8 (newTag 0 ask.cls) = false ∧
      slotWait allLocked homeOf0 false (writtenTag allLocked homeOf0 0 ask.cls 8 (List.replicate 8 0x5A)) = .locked ∧
      (setOf 0, 0) ∉ (allLocked.getSlc homeOf0).held_) := by decide +kernel
/-- R214: an operation that does not commit at once changes nothing and locks its line; R215: a write that finds every candidate locked waits. -/
theorem test_locks :
    (match exec (.homeOperation 0 { op := .atomic { aop := 0, ty := 0 } 1 0, ret := true, later := true } ask) holdsLine with
      | .next t => ((resident t homeOf0 0).map (fun h => (h.ops.length, h.words)), t.tx.length) | _ => (none, 9)) = (some (1, []), 0) ∧
    (match exec (.cacheWrite 8 (List.replicate 8 0x5A) ask) allLocked with
      | .next t => ((t.getSlc homeOf0).lockWait, (t.getSlc homeOf0).input.length) | _ => (0, 0)) = (1, 1) := by decide +kernel

/-! ### Marl -/

def queuedAt (cw : Nat) (part : Bool) : MWrite := { cw := cw, data := List.replicate 64 0, poison := false, part := part }
/-- Writes of 64 lines of codeword 0's channel; of codeword 0 itself, from a partial write. -/
def fullQueueOf (s : State) : List MWrite := (((List.range 2000).filter fun l => chanOf s (4 * (l + 1)) == chanOf s 0).take 64).map fun l => queuedAt (4 * (l + 1)) false
def channelFull : State := up.modMCh (chanOf up 0) fun x => { x with queue := fullQueueOf up }
def partQueued : State := up.modMCh (chanOf up 0) fun x => { x with queue := [queuedAt 0 true] }
theorem witness_codewords :
    ((0 : BitVec 34).toNat * 64 < marlBytes ∧ stackAsleep up (marlStack (0 * 64)) = false ∧ (queueLines (up.getMCh (chanOf up 0)).queue).length < 64 ∧
      0 / 4 ∈ queueLines (partQueued.getMCh (chanOf partQueued 0)).queue) ∧
    (stackAsleep channelFull (marlStack 0) = false ∧ 0 / 4 ∉ queueLines (channelFull.getMCh (chanOf channelFull 0)).queue ∧
      64 ≤ (queueLines (channelFull.getMCh (chanOf channelFull 0)).queue).length ∧ ∀ a ∈ (channelFull.getMCh (chanOf channelFull 0)).queue, a.data.length = 64) ∧
    (readWaits up 0 = none ∧ (∀ k < 4, 0 < k → (decodeCw up (0 + k)).1 = .clean) ∧ (decodeCw up 0).1 = .clean ∧
      (decodeCw (strikeCw 0 [{ pos := 3, val := 1 }] up) 0).1 = .corrected [3] ∧
      (decodeCw (strikeCw 0 [{ pos := 3, val := 1 }, { pos := 9, val := 1 }, { pos := 20, val := 7 }] up) 0).1 = .uncorrectable ∧
      (decodeCw { up with marlBad := [0] } 0).1 = .poisoned []) ∧
    ((queuedCw up 0).filter (·.part) = none ∧ (queuedCw partQueued 0).filter (·.part) = some (queuedAt 0 true)) := by decide +kernel
/-- Two reads wait at the channel of line 0, and the arbiter takes one. -/
def twoReads (a b : Nat) : State := caching fun x => { x with miss := [missing false a [], { missing false b [] with rt := true, dl := 9 }] }
theorem witness_marlPick :
    (readWaits (twoReads 0 1) 0 = some homeOf0 ∧ ((marlPick (twoReads 0 1) (chanOf up 0)).map (·.1)).isSome = true) ∧
    (readWaits (caching fun x => { x with miss := [missing false 0 []] }) 0 = some homeOf0 ∧
      (marlPick (caching fun x => { x with miss := [missing false 0 []] }) (chanOf up 0)).map (·.1) = some (.read 0)) ∧
    (marlPick (caching fun x => { x with miss := [missing true 0 []] }) (chanOf up 0)).map (·.1) ≠ some (.read 0) := by decide +kernel
theorem witness_marlScrub :
    stackAsleep up (0 / 17) = false ∧ chRole up 0 = 0 ∧ chRole up 16 = 1 ∧ (marlWaiting up 0).isEmpty = true ∧
    (∀ k < 4, (decodeCw up ((0 / 17 * 0xC_0000_0000 + marlLineOff (chLogical up 0) 0) / 256 * 4 + k)).1 = .clean) ∧
    (up.getMCh 0).scrubAt + 1 ≠ 12582912 ∧ ((up.modMCh 16 fun x => { x with scrubAt := 12582911 }).getMCh 16).scrubAt + 1 = 12582912 ∧
    (∀ r ∈ [2, 3, 4], chRole (up.modMCh 0 fun x => { x with given := true, role := BitVec.ofNat 4 r }) 0 = r) ∧
    (∀ k < 4, (arrayCw up (spareCw 16 0 k)).2 = false ∧ Tbl.get [] up.mrl.hurt (spareCw 16 0 k) = []) ∧ marlReserve (hot 1000000000) 0 1 = true ∧
    (decide (0 * (up.mrl.target.toNat * 1000000000) < (now (hot 1000000000) - ((hot 1000000000).getMCh 0).lapFrom.toNat) * 12582912) = true) := by decide +kernel

def worn (ch : Nat) : State := up.modMCh ch fun x => { x with wires := [(67, 64)] }
theorem witness_upkeep :
    (now up < up.mrl.decayAt.toNat + 10000000 ∧ (hot 10000000).mrl.decayAt.toNat + 10000000 ≤ now (hot 10000000)) ∧
    ((∀ m < 68, (((worn 0).getMCh m).wires.map (·.1)).Nodup) ∧ 64 ≤ Tbl.get 0 ((worn 0).getMCh 0).wires 67 ∧ ((worn 0).getMCh 0).mark0 = 0xFF ∧
      ((worn 0).getMCh 0).mark1.toNat ≠ 67 ∧ chRole (worn 0) 0 = 0 ∧ migrOf (worn 0) 0 = none ∧ (worn 0).rst.repairs.length < 1023 ∧ chRole (worn 0) 16 = 1 ∧
      (∀ q < 16, chRole (worn 0) q ≠ 1) ∧ Tbl.get 0 ((worn 0).getMCh 0).wires 0 < 64) ∧
    (let s := (worn 0).modMCh 16 fun x => { x with given := true, role := 4 }; decide (∀ p : Fin 17, chRole s (17 * 0 + p) ≠ 1)) = true ∧
    (let s := up.modMCh 0 fun x => { x with wires := [(67, 64)], mark0 := 1, mark1 := 2 };
      decide (64 ≤ Tbl.get 0 (s.getMCh 0).wires 67 ∧ (s.getMCh 0).mark0 ≠ 0xFF ∧ (s.getMCh 0).mark1 ≠ 0xFF)) = true := by decide +kernel

/-- A move of logical channel 0 of stack 0 to its spare, `n` rows copied. -/
def moving (n : Nat) : State :=
  let m : Migr := { logical := 0, src := 0, dst := 16 }
  { (up.modMCh 16 fun x => { x with rows := BitVec.ofNat 20 n }).modMCh 0 fun x => { x with rows := BitVec.ofNat 20 n } with mrl := { up.mrl with migr := [(0, some m)] } }
theorem witness_migration :
    (∀ n ∈ [0, 786431], migrOf (moving n) 0 = some { logical := 0, src := 0, dst := 16 } ∧ stackAsleep (moving n) 0 = false ∧ (0 : Nat) ≠ 16) ∧
    (marlWaiting (moving 0) 0).isEmpty = true ∧ (marlWaiting (moving 0) 16).isEmpty = true ∧ marlReserve { moving 0 with skt := (hot 1000000).skt } 0 16 = true ∧
    marlReserve { (moving 0).modMCh 0 (fun x => { x with resAt := 1000000 }) with skt := (hot 1000000).skt } 0 16 = false ∧
    ((moving 0).getMCh 16).rows.toNat + 1 < 786432 ∧ ((moving 786431).getMCh 16).rows.toNat + 1 = 786432 ∧ (moving 786431).rst.repairs.length < 1023 ∧
    (let s := { up with mrl := { up.mrl with selfRef := 1, rowsDue := [4095], rowsUsed := [(0, 16)] } };
      decide (getBit s.mrl.selfRef 0 = true ∧ 4095 ∈ s.mrl.rowsDue ∧ 16 ≤ Tbl.get 0 s.mrl.rowsUsed 0 ∧ Tbl.get 0 up.mrl.rowsUsed 0 < 16 ∧ 0 ∉ s.mrl.rowsDue)) = true ∧
    chRole up 0 ≠ 1 ∧ chRole up 0 ≠ 4 ∧ chanOf up (rowCw 0 (chLogical up 0) 4095 15 + 3) = 0 := by
  decide +kernel

/-! ### Translation, pre-emption, DMA and aborts -/

theorem witness_contexts :
    (1 ≤ (5 : Req).val ∧ (5 : Req).val ≤ 5 ∧ getBit (1 : W32) 0 = true ∧ getBit (0 : W32) 0 = false) ∧
    (let s := up.modCtx 1 fun x => { x with valid := true }; decide ((s.getCtx 1).valid = true ∧ ctxHasTask s 1 = false ∧ (s.getCtx 1).aborting = false)) = true ∧
    (let s := (tasked (job false)).modCtx 1 fun x => { x with valid := true }; decide ((s.getCtx 1).valid = true ∧ ctxHasTask s 1 = true)) = true ∧
    (getBit (0x40000000 : W32) 30 = true ∧ (up.getXrq 6).busy = false) ∧
    (let s := up.modPart 3 fun x => { x with heldRecs := [(.pc 0, zeroWord, none)] };
      decide ((s.getPart 3).heldRecs = (.pc 0, zeroWord, none) :: [] ∧ (s.getQue (faultQueue s 3)).words.length < queCapacity (s.getQue (faultQueue s 3)) ∧
        (s.getQue (faultQueue s 3)).notice = 0 ∧ ((s.getQue (faultQueue s 3)).words.filter (·.ring.isNone)).length < 32 ∧
        sourceTurn (s.getQue (faultQueue s 3)).token [.pc 0] = (sourceNo (.pc 0), (sourceTurn (s.getQue (faultQueue s 3)).token [.pc 0]).2))) = true ∧
    (let s := fullQueue.modPart 3 fun x => { x with heldRecs := [(.pc 0, zeroWord, none)] };
      decide (queCapacity (s.getQue (faultQueue s 3)) ≤ (s.getQue (faultQueue s 3)).words.length)) = true ∧
    (let s := up.modGrp 0 fun _ => { group 0 with mode := .parked }; decide (siteWritable s 1 0 5 = true ∧ (s.getGrp 0).mode = .parked ∧ (s.getGrp 0).task ≠ none)) = true := by
  decide +kernel

/-- Context 1's root is at the start of scratch; its entry 0 is `e`. -/
def rooted (e : Nat) (root : Nat) : State :=
  let s := (up.modCtx 1 fun x => { x with valid := true, root := BitVec.ofNat 40 root }).modGrp 0 fun _ => { group 0 with issued := none }
  { s with loess := putBytes 0 [] 0 (leBytes 8 e) }
theorem witness_walk :
    (let s := rooted (1 + 0x40_0000_1000) 0x40_0000_0000
      let s0 := s.modSite 0 fun y => { y with tlbMiss := y.tlbMiss + 1 };
      decide (walkerReady s 0 1 0 .read (.group 0 0) = true ∧ getBit (s.getSite 0).blkBusy 5 = false ∧ (s.getSite 0).walks = [] ∧ findLeaf (s.getSite 0).tlb 1 0 = none ∧
        walkStart s (s.getSite 0).walkc 1 0 = (3, 0x40_0000_0000) ∧ (walkLevel 0x40_0000_0000 3 0 false s0).2 = .next 0x40_0000_1000 ∧
        (walkLevel 0x40_0000_0000 0 0 false (rooted (0x1F + 0x40_0000_0000) 0x40_0000_0000)).2 = .leaf (0x1F + 0x40_0000_0000) ∧
        leafCheck s .read (0x1F + 0x40_0000_0000) 0 0 0 = .local_ 0x40_0000_0000)) = true ∧
    (let s := (rooted (0x1F + 0x40_0000_0000) 0x40_0000_0000).modSite 0 fun x => { x with walkc := [{ ctx := 1, level := 0, base := walkKey 0 0, table := 0x40_0000_0000 }] };
      decide (walkStart s (s.getSite 0).walkc 1 0 = (0, 0x40_0000_0000))) = true ∧
    (walkLevel 0x40_0000_0000 3 0 false (rooted 0 0x40_0000_0000)).2 = .fault 1 0 := by decide +kernel

/-- R253, R516: an entry with V 0 parks the group that fetches there, with NOT_MAPPED in its record; no group for a load's walk ahead. -/
theorem test_walk_fault :
    (match exec (.translationWalk 0 (.group 0 0) 1 0 .fetch false) (rooted 0 0x40_0000_0000) with
      | .next t => ((t.getGrp 0).mode, (t.getSite 0).faults, t.tx.length) | _ => (.empty, 0, 0)) = (.parked, 1, 1) ∧
    (match exec (.translationWalk 0 (.group 0 0) 1 0 .read false) (rooted 0 0x40_0000_0000) with
      | .next t => ((t.getGrp 0).mode, (t.getSite 0).faults) | _ => (.empty, 9)) = (.ready, 0) := by decide +kernel

def savable : State := areas 0 (tasked (job false))
/-- Its site saves, with nothing left to stop. -/
def saving : State := ((savable.modSite 0 fun x => { x with mode := 1 }).modAry 0 fun x => { x with mode := .parked }).modAry 1 fun x => { x with mode := .parked }
theorem witness_preemption :
    (siteWritable savable 1 0 5 = true ∧ saveAllowed savable 0 = true ∧ (savable.getAry 0).mode = .idle ∧ restoreAllowed savable 0 = true ∧ saveAllowed saving 0 = false ∧
      restoreAllowed saving 0 = false ∧
      (let s := savable.modGrp 4 fun _ => { group 0 with mode := .held, hold := .fence true 2 }; decide ((s.getGrp 4).hold = .fence true 2 ∧ saveAllowed s 0 = true)) = true ∧
      (let s := savable.modGrp 4 fun _ => { group 0 with mode := .held, hold := .dpost 1 zeroWord }; decide ((s.getGrp 4).hold = .dpost 1 zeroWord ∧ saveAllowed s 0 = true)) = true) ∧
    ((saving.getSite 0).mode = 1 ∧ (saving.getSite 0).saveDrop = [] ∧ (saving.getSite 0).dropTasks = [] ∧ (∀ k : Slot, (saving.getGrp (gIx 0 k)).mode ≠ .held) ∧ siteQuiet saving 0 = true) ∧
    (let s := { (savable.modSite 0 fun x => { x with mode := 3 }).modPart 0 fun x => { x with saved := [{ displaced with groups := [(4, group 0)] }] } with
        loess := putBytes 0 [] 0 (leBytes 4 0x20001) };
      decide ((s.getSite 0).mode = 3 ∧ (areaCore s 0 (s.getSite 0).saveBase).map (fun y => y.groups.map (·.1)) = some [4])) = true ∧
    areaCore (savable.modSite 0 fun x => { x with mode := 3 }) 0 (savable.getSite 0).saveBase = none := by decide +kernel

/-- A DMA descriptor of operation `op`: `rows` elements of 16 bytes in shared memory. -/
def ddesc (op rows x : Nat) : DDesc :=
  { words := [BitVec.ofNat 64 (op + 4 * 2 ^ 4 + (if op ≤ 2 then 2 ^ 9 else 0) + (if op = 1 then 2 ^ 8 else 0) + (if op = 5 then 2 ^ 14 else 0) + x), 0, 0,
              BitVec.ofNat 64 (16 * rows + 2 ^ 24 + 2 ^ 40), 0, 0, 0, 0]
    ctx := 1, cls := 0, task := some { p := 0, e := 0 } }
def dmaAt (f : Dma → Dma) : State := (issued 0 0 id).modDma 0 f
theorem witness_dma :
    (let w := ins 0x71 0 2 0 0 0; let s := issued w 0 id; let full := s.modDma 0 fun x => { x with fifo := List.replicate 8 (ddesc 1 1 0) };
      decide (runsOp s 0 0 w 0x71 0x71 = true ∧ released (s.getGrp 0) 2 = true ∧ ib w 63 47 = 0 ∧ iDst w = 0 ∧ iSb w = 0 ∧ iSc w = 0 ∧ iSa w % 2 = 0 ∧ regsOk (s.getGrp 0) [iSa w + 1] = true ∧ dpostWaiters s 0 0 = [] ∧
        dpostWaiters (s.modGrp 5 fun _ => { group 0 with mode := .held, hold := .dpost 0 zeroWord }) 0 0 ≠ [] ∧ lowEight (actLanes (s.getGrp 0) w) = true ∧ (s.getDma 0).fifo.length < 8 ∧ 8 ≤ (full.getDma 0).fifo.length)) = true ∧
    (let s := up.modGrp 5 fun _ => { group 0 with mode := .held, hold := .dpost 0 zeroWord };
      decide ((s.getGrp 5).hold = .dpost 0 zeroWord ∧ (s.getDma 0).fifo.length < 8 ∧ tokenFirst 24 (s.getDma 0).fifoTok (dpostWaiters s 0 0) = 5)) = true ∧
    (∀ op ∈ [1, 2, 5], let d := ddesc op 2 0; let s := dmaAt fun x => { x with fifo := [d] };
      decide ((s.getDma 0).fifo.head? = some d ∧ (s.getDma 0).mode = .idle ∧ (s.getDma 0).taken = false ∧ (s.getDma 0).cause = 0 ∧ (s.getSite 0).mode ≠ 1 ∧
        getBit (s.getSite 0).blkBusy 2 = false ∧ dmaOk s 0 d = true ∧ mOp d.words = op ∧ dmaOk s 0 (ddesc op 2 (2 ^ 16)) = false ∧
        inReset s (synPart (mSyncId d.words)) = false ∧ synStore s (mSyncId d.words) = some 0) = true) ∧
    (∀ op ∈ [3, 4], mOp (ddesc op 2 0).words = op) := by decide +kernel
def element : DmaEl := { k := 0, data := List.replicate 16 7, get := none, sent := false, put := none, to_ := .shm 0 }
theorem witness_dmaElements :
    (∀ next ∈ [1, 2], let d := ddesc 1 2 0; let s := dmaAt fun x => { x with fifo := [d], mode := .running, taken := true, next := next, inFlight := [element] };
      decide ((s.getDma 0).fifo.head? = some d ∧ (s.getDma 0).mode = .running ∧ (s.getDma 0).taken = true ∧ (s.getDma 0).faultAt = none ∧ (s.getDma 0).busAt = none ∧ (s.getDma 0).cause = 0 ∧
        paceHolds s 0 (dmaPipe 0) = false ∧
        (decide ((s.getDma 0).next < mTotal d.words) = decide (next = 1)) ∧ mDstShm d.words = true ∧ mSrcShm d.words = true ∧ mSyncEn d.words = false ∧
        (s.getDma 0).inFlight = [element] ∧ element.sent = false ∧ element.get = none ∧ element.held = false ∧ element.bad = false) = true) ∧
    (let s := dmaAt fun x => { x with mode := .parked, cause := 2 }; decide (siteWritable s 2 0 2 = true ∧ (s.getDma 0).mode = .parked ∧ getBit (s.getDma 0).cause 1 = true)) = true ∧
    (let s := dmaAt fun x => { x with mode := .halted, fifo := [ddesc 1 1 0] }; decide (siteWritable s 1 0 2 = true ∧ (s.getDma 0).mode = .halted ∧ (s.getDma 0).fifo ≠ [])) = true := by
  decide +kernel

/-- An abort of `kind` in phase 1, ordered by the host at time 0. -/
def abort (kind : AbortKind) : Abort :=
  { kind := kind, t0 := 0, phase := 1, forced := 0, ctxs := [1], asks := [{ req := 0, tag := 9, shown := true, merged := false, remote := none }] }
/-- A task that ended with a fault and still has its group. -/
def ending : Task := { job false with placed := 1, ending := some (1, 1, 5) }
theorem witness_aborts :
    ((0 : Req).val < 2 ∧ up.bru.ready = true ∧ up.aborts.length < 8 ∧ (∀ x ∈ [(5 : Ctx)], coverOf up x = none) ∧ 2 ≤ (2 : Req).val ∧ State.reset.bru.ready = false) ∧
    (let s := { up with aborts := List.replicate 8 (abort (.context 3)) }; decide (8 ≤ s.aborts.length ∧ coverOf s 1 = none)) = true ∧
    (let s := { up with aborts := [abort .device] }; decide (coverOf s 1 = some 0 ∧ s.aborts[0]? = some (abort .device) ∧ holdouts s .device = [] ∧ abortTasks s .device = [])) = true ∧
    (let s := { later 3000000 (issued 0 0 id) with aborts := [abort .device] };
      decide (s.aborts[0]? = some (abort .device) ∧ (abort .device).phase = 1 ∧ (abort .device).t0.toNat + abortBudget (abort .device).kind * 3 / 10 ≤ now s ∧
        holdouts s .device = [0])) = true ∧
    (let a := { abort (.context 1) with phase := 2 }; let s := { later 300000 saving with aborts := [a] }.modSite 0 fun x => { x with saveDrop := [1] };
      decide (s.aborts[0]? = some a ∧ a.phase ≠ 1 ∧ a.t0.toNat + 300000 ≤ now s ∧ (s.getSite 0).mode = 1 ∧ (s.getSite 0).saveDrop.contains 1 = true ∧
        (∀ i < 96, i ≠ 0 → (s.getSite i).mode ≠ 1) ∧ (s.getSite 0).saveFrom.toNat + 18000 < now s)) = true ∧
    (∀ t ∈ [299999, 300000], let s := later t ((areas 0 (issued 0 0 id)).modPart 0 fun x => { x with tasks := [(0, some ending)] });
      decide (s.aborts = [] ∧ (faultEnds s)[0]? = some ({ p := 0, e := 0 }, ending) ∧ ending.endForced = false ∧ ending.endFrom = 0 ∧
        holdoutsOf s [{ p := 0, e := 0 }] = [0] ∧ saveAllowed s 0 = true) = true) := by decide +kernel

/-! ### Links -/

/-- Port 0 in service, changed by `f`. -/
def port0 (f : PortSt → PortSt) : State := (linked 0 up).modPort 0 f
/-- A flit of type `ty` with sequence number `seq` on lane 2. -/
def flitOf (ty seq : Nat) : List Byte :=
  mkFlit { type := ty, vl := 2, first := true, last := true, rpl := false, ackV := false, seq := seq, ack := 0, craVl := 0, craCnt := 0, crbVl := 0, crbCnt := 0, len := 0 } []
/-- The lanes of a frame of zeros but for the last byte of logical lanes 0 to 3. -/
def badLanes : List (List Byte) := (List.range 9).map fun l => List.replicate 164 0 ++ (List.range 4).map fun i => BitVec.ofNat 8 (4 * l + i + 1)
/-- Port 0 at width 8 with its lanes mapped. -/
def wide : State := port0 fun x => { x with width := 8, mapRx := List.range 8, mapTx := List.range 8 }
theorem witness_frames_bad :
    inService (wide.getPort 0) = true ∧ (wide.getPort 0).lostLane = none ∧ frameDecode (frameWord (rxCode (wide.getPort 0) badLanes) 0) = none ∧
    ((wide.modPort 0 fun x => { x with lostLane := some 1 }).getPort 0).lostLane.isSome = true := by decide +kernel
theorem witness_frames_zero : ∀ c < 8, frameWord (rxCode ((port0 id).getPort 0) []) c = List.replicate 167 0 := by
  have h : ((List.range 8).map fun l => rxStream ((port0 id).getPort 0) [] l) = List.replicate 8 [] := by decide +kernel
  have e (l : List (List Byte)) (hl : ∀ x ∈ l, x = []) (i j : Nat) : (l.getD i []).getD j 0 = 0 := by
    rw [List.getD_eq_getElem?_getD (l := l)]
    cases hx : l[i]? with
    | none => rfl
    | some x => rw [hl x (List.mem_of_getElem? hx)]; rfl
  have z : rxCode ((port0 id).getPort 0) [] = List.replicate 1336 0 := by
    unfold rxCode
    rw [h, List.eq_replicate_iff]
    refine ⟨by rw [List.length_map, List.length_range], fun b hb => ?_⟩
    obtain ⟨i, -, rfl⟩ := List.mem_map.1 hb
    exact e _ (fun x hx => List.eq_of_mem_replicate hx) _ _
  intro c _
  rw [z, List.eq_replicate_iff]
  unfold frameWord
  refine ⟨by rw [List.length_map, List.length_range], fun b hb => ?_⟩
  obtain ⟨i, -, rfl⟩ := List.mem_map.1 hb
  rw [List.getD_eq_getElem?_getD, List.getElem?_replicate]
  split <;> rfl
theorem witness_frames_good : (frameDecode (List.replicate 167 0)).isSome = true := by decide +kernel
/-- R334: at width 4 a lane carries the streams of two logical lanes alternately, and the receiver takes them apart. -/
theorem test_two_streams : zip2 [1, 2, 3] [4, 5, 6] = [1, 4, 2, 5, 3, 6] ∧ unzip2 [1, 4, 2, 5, 3, 6] = ([1, 2, 3], [4, 5, 6]) := by decide
/-- R333: RETRAIN_REQ goes before a TS_MARK, and neither cuts short a code of which two frames have begun. -/
theorem test_marker_order :
    let x : PortSt := { txDue := [0x30, 0x28] }
    (pickMark 0 x).txMark = 0x28 ∧ (pickMark 0 { x with txMark := 0x08, txRun := 2 }).txMark = 0x08 ∧
    (pickMark 500001 { x with txDue := [0x30], markDue := some 0 }).txMark = 0x08 := by decide +kernel

theorem witness_flitReceive :
    (∀ seq ∈ [0, 5], (flitOf 1 seq).length = 256 ∧ crc32c ((flitOf 1 seq).take 252) = ofLe ((flitOf 1 seq).drop 252) ∧ bit (flitNum (flitOf 1 seq)) 11 = false ∧
      flitNum (flitOf 1 seq) / 2 ^ 66 = 0 ∧ (flitHdr (flitOf 1 seq)).type = 1 ∧ (flitHdr (flitOf 1 seq)).seq = seq ∧ (flitHdr (flitOf 1 seq)).ackV = false) ∧
    ((port0 id).getPort 0).rxSeq.toNat = 0 ∧ ([] : List Byte).length ≠ 256 := by decide +kernel
theorem witness_flitSend :
    (let s := port0 fun x => { x with retry := [[0]], replayAt := some 0, rplSeen := true };
      decide (inService (s.getPort 0) = true ∧ (s.getPort 0).replayAt = some 0 ∧ (s.getPort 0).retry[0]? = some [0] ∧ (s.getPort 0).rplSeen = true ∧
        (s.getPort 0).replays = 0 ∧ (s.getPort 0).replayRun = 0 ∧ (s.getPort 0).retry ≠ [])) = true ∧
    marksTime (now (port0 id)) ((port0 id).getPort 0) = false ∧
    (let s := port0 fun x => { x with txDue := [0x28], txFrame := [] }; decide ((∀ b ∈ (s.getPort 0).txDue, b.toNat / 8 = 5 → b = 0x28) ∧ (s.getPort 0).txRun = 0)) = true ∧
    (let s := port0 fun x => { x with initDue := [true] }; decide ((s.getPort 0).initDue = true :: [] ∧ (s.getPort 0).replayAt = none ∧ (s.getPort 0).retry.length < 512)) = true ∧
    (let f : List Byte := [0]; let s := port0 fun x => { x with txq := [(5, [f])], avail := [(5, 1)] };
      decide ((Tbl.get [] (s.getPort 0).txq 5).head? = some f ∧ creditNeed 5 f ≤ Tbl.get 0 (s.getPort 0).avail 5 ∧ (∀ b ∈ (s.getPort 0).mgmtRun, b = false))) = true ∧
    (let f : List Byte := [0]; let s := port0 fun x => { x with txq := [(2, [f])], avail := [(2, 40)] };
      decide (Tbl.get [] (s.getPort 0).txq 5 = [] ∧ ((chooseLane (s.modPort 0 fun x => { x with replayAt := none }) 0).map (·.1)) = some 2 ∧
        Tbl.get [] (s.getPort 0).txq 2 = f :: [])) = true ∧
    (((port0 id).getPort 0).initDue = [] ∧ (∀ v < 6, Tbl.get [] ((port0 id).getPort 0).txq v = [])) ∧
    (let s := later 299 (port0 fun x => { x with replays := 1 }); decide ((s.getPort 0).replays ≠ 0 ∧ now s - (s.getPort 0).replayFrom.toNat < 300)) = true := by decide +kernel
theorem witness_states :
    (let s := later 10000 (port0 fun x => { x with retrainDue := true, retrainFails := 2 });
      decide (inService (s.getPort 0) = true ∧ now s - (s.getPort 0).upFrom.toNat < 1000000000 ∧ (s.getPort 0).retrainFails + 1 ≤ 3 ∧ (s.getPort 0).lostLane = none ∧
        10000 ≤ now s - (s.getPort 0).decodeAt.toNat ∧ (s.getPort 0).retrainDue = true ∧ portPresent s 0 = true ∧ (s.getPort 0).st = .up)) = true ∧
    3 < ((port0 fun x => { x with retrainFails := 3 }).getPort 0).retrainFails + 1 ∧
    (∀ n < 6, let s := ({ up with skt := { up.skt with pllLocked := true } }).modPort 5 fun x => { x with
          st := if n = 0 then .detect else .train, trainStep := n, okTx := 0x1FF, okRx := 0x1FF };
      decide (portPresent s 5 = true ∧ s.skt.pllLocked = true ∧ ((s.getPort 5).st = .detect ∨ (s.getPort 5).st = .train) ∧ (s.getPort 5).trainStep = n ∧
        (lanesIn 0xF).length = 4 ∧ (lanesIn ((s.getPort 5).okTx &&& fewErrors (List.replicate 9 2240) &&& ~~~(s.getPort 5).failTx)).length = 9 ∧
        (lanesIn ((s.getPort 5).okRx &&& fewErrors (List.replicate 9 2241) &&& ~~~(s.getPort 5).failRx)).length < 4) = true) ∧
    (([trainId 4] : List Byte)[0]? = some (trainId 4)) ∧
    (((port0 id).getPort 0).kept = false ∧ ((port0 id).getPort 0).initWait = false ∧ initField [1] 0 ≠ 0) := by decide +kernel
/-- Nine healthy lanes, eight of them in use; receive lane 2 fails. -/
def nine (st : LinkSt) : State := port0 fun x => { x with
  st := st, width := 8, mapRx := List.range 8, mapTx := List.range 8, okRx := 0x1FF, okTx := 0x1FF, lostLane := if st = .repair then some 2 else none
  degSent := decide (st = .degrade), degSeen := decide (st = .degrade), markRun := 3, dark := 4, failRun := 4, switched := true
  txLost := if st = .repair then some 2 else none }
theorem witness_lanes :
    (inService ((nine .up).getPort 0) = true ∧ ((nine .up).getPort 0).mapRx[2]? = some 2 ∧ ((nine .up).getPort 0).lostLane = none ∧ laneFailed (nine .up) 0 2 = true ∧ laneFailed (nine .up) 0 3 = false ∧
      spares ((nine .up).modPort 0 fun x => { x with failRx := setBit x.failRx 2 true }) 0 true = [8] ∧
      4 ≤ (lanesIn (((nine .up).getPort 0).okRx &&& ~~~(setBit ((nine .up).getPort 0).failRx 2 true))).length ∧
      (lanesIn ((0xF : BitVec 9) &&& ~~~(setBit (0 : BitVec 9) 2 true))).length < 4) ∧
    spares ((port0 fun x => { x with okRx := 0xFF, mapRx := List.range 8, failRx := 4 })) 0 true = [] ∧
    (((nine .repair).getPort 0).st = .repair ∧ ((nine .repair).getPort 0).lostLane = some (2 : Fin 8).val ∧ standby (nine .repair) 0 true = 8 :: [] ∧
      ((nine .repair).getPort 0).switched = true ∧ ((nine .repair).getPort 0).txLost = some (2 : Fin 8).val ∧ standby (nine .repair) 0 false = 8 :: [] ∧
      ((nine .repair).getPort 0).txFrame = [] ∧ (2 : Fin 8).val < ((nine .repair).getPort 0).mapTx.length ∧
      (nine .repair).rst.repairs.length < 1023 ∧ (2 : Fin 8).val < ((nine .repair).getPort 0).mapRx.length) ∧
    (((nine .degrade).getPort 0).degSent = true ∧ ((nine .degrade).getPort 0).degSeen = true ∧
      ((nine .degrade).getPort 0).txNote = none ∧
      4 ≤ (lanesIn (((nine .degrade).getPort 0).okTx &&& ~~~((nine .degrade).getPort 0).failTx)).length ∧
      4 ≤ (rxLanesIn ((nine .degrade).getPort 0) (((nine .degrade).getPort 0).okRx &&& ~~~((nine .degrade).getPort 0).failRx)).length) ∧
    (((nine .up).getLane 8).tuning = false ∧ ((nine .up).getLane 8).tuneAt = 0 ∧ getBit ((nine .up).getPort 0).okTx 8 = true ∧ 8 ∉ ((nine .up).getPort 0).mapTx ∧ 8 ∉ ((nine .up).getPort 0).mapRx) ∧
    ((((nine .up).modLane 8 fun x => { x with tuning := true }).getLane 8).tuning = true) ∧
    ((18 : Byte).toNat / 8 = 2 ∧ (32 : Byte).toNat / 8 = 4 ∧ 3 ≤ ((nine .up).getPort 0).markRun ∧ ((nine .up).getPort 0).txLost = none ∧ spares (nine .up) 0 false ≠ []) ∧
    ((2 : Req) ≠ 1 ∧ ((up.modPort 3 fun x => { x with st := .failed }).getPort 3).st = .failed) := by decide +kernel

/-- R336: a flit whose CRC does not match is discarded and counted. -/
theorem test_bad_crc : (match exec (.flitReceive 0 ((flitOf 1 0).set 20 1)) (port0 id) with
    | .next t => ((t.getPort 0).crcErr, (t.getPort 0).rplAsk, (t.getPort 0).rxSeq) | _ => (0, false, 0)) = (1, true, 0) := by decide +kernel

/-! ### The fabric -/

/-- A packet of operation `op` to `addr` of this device. -/
def pktOf (op : Nat) (arg : Nat) (addr aux : Nat) (bytes : Nat) : Pkt :=
  { op := BitVec.ofNat 8 op, flags := 0, dl := 0, dst := 0, src := 1, tid := 7, status := 0, arg := BitVec.ofNat 8 arg, addr := BitVec.ofNat 64 addr
    aux := BitVec.ofNat 64 aux, payload := List.replicate bytes 0 }
def arriving : Pkt := pktOf 1 0 0x40_0000_0000 0 64
def queued : State := port0 fun x => { x with rxq := [(2, (pktFlits 2 false arriving))] }
theorem witness_route : headFlits (Tbl.get [] (queued.getPort 0).rxq 2) ≠ [] ∧ flitsPkt (headFlits (Tbl.get [] (queued.getPort 0).rxq 2)) = arriving ∧
    badHeader arriving = false ∧ arriving.dst = queued.net.id ∧ unadvertised (queued.getPort 0) 2 + (headFlits (Tbl.get [] (queued.getPort 0).rxq 2)).length < 128 ∧
    (routeTurn queued 0 2 arriving).isSome = true := by decide +kernel
/-- A packet of the real-time lane goes first. -/
theorem witness_routeTurn : (routeTurn (queued.modPort 0 fun x => { x with rxq := x.rxq ++ [(4, pktFlits 4 false { arriving with flags := 0x10 })] }) 0 2 arriving).isNone = true := by
  decide +kernel

/-- Partition 0 is in its L2. -/
def inL2 : State := { up with rst := { up.rst with inReset := 1 } }
theorem witness_targets :
    (∀ pkt ∈ [arriving, pktOf 2 0 0x40_0000_0FFF 1 0, pktOf 3 0x80 0x40_0000_0FF8 0 16, pktOf 4 0 0x40_0000_0100 0 272, pktOf 5 0 (syncAddr 3 0) 0 8,
        pktOf 6 0 (queueAddr 4 0) 0 64],
      targetTower up pkt.addr.toNat = some 0 ∧ pkt.retry = false ∧ badHeader pkt = false ∧ targetResetting up pkt.addr.toNat = false ∧ recordRoom up 0 = true) ∧
    inBlock 0x40_0000_0000 64 = true ∧ inBlock 0x40_0000_0FFF 1 = true ∧ (physWrite (.remote 1 2 7) 0x40_0000_0000 (List.replicate 64 0) arriving.label up).2 = none ∧
    (physRead (.remote 1 2 7) 0x40_0000_0FFF 1 arriving.label up).2 = (none, [0], false) ∧
    atomAllowed true 0 0 = true ∧
    (physOp (.remote 1 2 7) 0x40_0000_0FF8 arriving.label (.atomic { aop := 0, ty := 0 } 0 0) up).2.1 = none ∧ (physOp (.remote 1 2 7) 0x40_0000_0100 arriving.label (.reduce 0 0 (List.replicate 16 0) (List.replicate 256 0)) up).2.1 = none ∧
    regionOf (syncAddr 3 0) = .sync 3 0 ∧ regionOf (queueAddr 4 0) = .queue 4 0 ∧ synStore up 3 = some 3 ∧ (up.getSyn 3).waiters = [] ∧ (up.getSyn 3).armed = none ∧
    (queueTurn up 4 (.remote 1 2 7)).isSome = true ∧ queueTurn (heldHere .mgmt) 0 (.remote 1 2 7) = none ∧
    (up.getPart (queOwner up 4)).asm.length < 16 ∧ (up.getQue 4).words.length + 1 ≤ queCapacity (up.getQue 4) ∧
    queCapacity (fullQueue.getQue 0) < (fullQueue.getQue 0).words.length + 1 := by decide +kernel
theorem witness_targetsApart :
    (let p := { pktOf 3 0 0x40_0000_0000 0 16 with flags := 0x20 }; let r : RespRec := { src := 1, tid := 7, resp := respPkt p 0x81 0 [], at_ := 0 }
      let s := { up with net := { up.net with recs := [(0, [r])] } }; decide (p.retry = true ∧ targetTower s p.addr.toNat = some 0 ∧ findRecord s 0 p = some r)) = true ∧
    targetResetting inL2 0x40_0000_0000 = true ∧ targetTower inL2 0x40_0000_0000 = some 0 := by decide +kernel

/-- Device 0 of a ring of two in X; device 0x0800 is its neighbour. -/
def ringed : State := { linked 0 (linked 1 up) with net := { up.net with idValid := true, placed := true, dx := 1 } }
def outward : Pkt := { arriving with dst := 0x0800 }
def entry (who : Agent) (until_ gen : Nat) : TidEnt :=
  { pkt := outward, who := who, first := 0, last := 0, wait := 0, until_ := BitVec.ofNat 64 until_, gen := BitVec.ofNat 2 gen, port := some 0, dead := none }
def asked (x : TidEnt) (t : Nat) : State := later t { ringed with net := { ringed.net with tids := [(0, [(0, x)])] } }
def response (op st bytes : Nat) : Pkt := { pktOf op 0 0 0 bytes with tid := 0, status := BitVec.ofNat 8 st }
theorem witness_requesters :
    freeTid up 0 = some 0 ∧
    (match route ringed none ringed.net.id.toNat with | .here => true | _ => false) = true ∧ (match route up none outward.dst.toNat with | .noRoute => true | _ => false) = true ∧
    (match route ringed none outward.dst.toNat with | .port _ _ => true | _ => false) = true ∧
    (tidTower (response 0x81 0 0).tid = (0 : Tower).val ∧ tidNum (response 0x81 0 0).tid = 0 ∧ tidEntry (asked (entry .mgmt 0 0) 0) 0 0 = some (entry .mgmt 0 0) ∧
      cancelled (asked (entry .mgmt 0 0) 0) (entry .mgmt 0 0) = false ∧ cancelled (asked (entry (.pc 0) 0 1) 0) (entry (.pc 0) 0 1) = true ∧
      cancelled (asked (entry .host 0 0) 0) (entry .host 0 0) = false ∧ (response 0x81 0 0).payload = [] ∧
      (response 0x82 0 4).payload ≠ [] ∧ retryWaits (response 0x83 0x10 0).status.toNat = none ∧ (∀ st ∈ [1, 2, 3], (retryWaits st).isSome = true)) ∧
    ((entry .mgmt 0 0).last.toNat + 2000000 ≤ now (asked (entry .mgmt 0 0) 2000000) ∧ (entry .mgmt 5 0).until_ ≠ 0 ∧
      (entry .mgmt 5 0).until_.toNat ≤ now (asked (entry .mgmt 5 0) 5) ∧
      (entry .mgmt 0 0).first.toNat + retryLimitNs (asked (entry .mgmt 0 0) 20000000) ≤ now (asked (entry .mgmt 0 0) 20000000) ∧
      (entry .mgmt 0 0).pkt.op ≠ 8 ∧ (entry .mgmt 0 0).pkt.op ≠ 7 ∧ (entry .mgmt 0 0).pkt.nbr = false ∧ ringed.net.mgmtHeld = [] ∧
      inService ((asked (entry .mgmt 5 0) 5).getPort 3) = false ∧ (entry .mgmt 0 0).port = some 0) := by decide +kernel
/-- Every entry of tower 0 is in use. -/
def noEntry : State := { up with net := { up.net with tids := [(0, (List.range 4096).map fun i => (i, entry .mgmt 0 0))] } }
theorem witness_noEntry : freeTid noEntry 0 = none := by
  have h (m : Nat) : ((List.range m).map fun i => (i, entry .mgmt 0 0)).foldl (fun n e => if e.1 = n then n + 1 else n) 0 = m := by
    induction m with
    | zero => rfl
    | succ m ih => simp [List.range_succ, List.foldl_append, ih]
  have g : Tbl.get [] noEntry.net.tids 0 = (List.range 4096).map fun i => (i, entry .mgmt 0 0) := rfl
  simp only [freeTid, g, h]
  rfl
theorem witness_management :
    ((pktOf 8 7 0 0 16).arg.toNat > 6 ∧ 1 ≤ (pktOf 8 6 0 0 16).arg.toNat ∧ mgmtHeld up 0 < 2) ∧
    (let s := { up with net := { up.net with mgmtq := List.replicate 20 (0, pktOf 8 3 0 0 16) } }; decide (2 ≤ mgmtHeld s 0 ∧ 18 ≤ mgmtShared s)) = true ∧
    ((List.replicate 16 (0 : Byte)).length = 16 ∧ dimSize up 0 ≠ 0 ∧ Tbl.get {} up.net.rings 0 = ({} : Ring)) := by decide +kernel

/-! ### Collectives -/

/-- An all-reduce in X with identifier 3, of 1,024 bytes at 0x40_0000_0000 (Table 12.9). -/
def collDesc : Line := [BitVec.ofNat 64 (1 + 2 ^ 8 + 2 ^ 16 + 3 * 2 ^ 44), 0, 1024, 0, 10, 0, 0, 0]
theorem witness_collPost :
    (portPresent ringed 0 = true ∧ (ringed.getPort 0).blkBusy = false ∧ (ringed.getPort 0).collOff = false ∧ (ringed.getPort 0).collFifo.length < 8 ∧
      (physRead (.coll 0) 0x40_0000_0000 64 backLabel ringed).2.1 = none ∧ 8 ≤ ((port0 fun x => { x with collFifo := List.replicate 8 (collDesc, 0) }).getPort 0).collFifo.length) ∧
    (collOk ringed collDesc = true ∧ collOk ringed [] = false ∧ (collPhases ringed collDesc).head? = some (0, false) ∧ portBroken ringed 0 = false ∧ portBroken ringed 1 = false ∧
      ((port0 fun x => { x with collFifo := [(collDesc, 0)] }).getPort 0).collFifo = (collDesc, 0) :: [] ∧
      ((port0 id).getPort 0).collOwed = [] ∧ ((port0 id).getPort 0).collSig = none) ∧
    ((pktOf 7 0 0 3 0).op = 7 ∧ (pktOf 7 0 0 3 0).arg = 0 ∧ (pktOf 7 0 0 3 0).retry = false) := by decide +kernel
def collRun : Coll := { desc := collDesc, started := 0, phase := 0, round := 0, sentPlus := 256, sentMinus := 256, recv := [(0, 256), (1, 256)], out := [], part := 0 }
def collAt (m : CollMode) (t : Nat) : State := later t (ringed.modPort 0 fun x => { x with coll := m, collNow := some collRun, collTlb :=
  [{ ctx := 1, base := 0, size := 0x1000, pte := BitVec.ofNat 64 (0x1F + 0x40_0000_0000) }] })
theorem witness_collRun :
    (((collAt .waitReady 0).getPort 0).collNow = some collRun ∧ (collPhases (collAt .waitReady 0) collDesc)[0]? = some (0, false) ∧
      cId collDesc ∉ ((collAt .waitReady 0).getPort 0).collReady) ∧
    (chunkLen (collAt .running 0) collDesc 0 ≤ 256 ∧ recvOf collRun 0 0 0 = 256 ∧ recvOf collRun 0 0 1 = 256) ∧
    (let s := { collAt .running 0 with net := { ringed.net with dx := 3 } };
      decide (collRun.round + 2 ≠ dimSize s 0 ∧ chunkLen s collDesc 0 ≤ collRun.sentPlus)) = true ∧
    (let pkt := pktOf 7 1 0 3 64; decide (pkt.op = 7 ∧ pkt.arg = 1 ∧ pkt.retry = false ∧ chunkHeld 0 collDesc false 32 0 64 (collAt .running 0) = false ∧ recordRoom (collAt .running 0) (portTower 0) = true ∧
      collEngine (collAt .running 0) (pkt.aux.toNat % 2 ^ 16) = some 0 ∧ (applyChunk 0 collDesc false 32 0 pkt.payload (collAt .running 0)).2 = none ∧
      ((applyChunk 0 collDesc false 32 0 pkt.payload (collAt .running 0)).1.getPort 0).collNow = some collRun)) = true ∧
    (collRun.started.toNat + cTimeout collDesc * 1000000 ≤ now (collAt .running 10000000) ∧ now (collAt .running 0) < collRun.started.toNat + cTimeout collDesc * 1000000 ∧
      (pktOf 7 2 0 3 0).arg = 2 ∧ collEngine (collAt .running 0) ((pktOf 7 2 0 3 0).aux.toNat % 2 ^ 16) = some (0 : Port).val) := by decide +kernel

/-- The collective queue of partition 0 is queue 9; it holds `ws`. -/
def collQueued (ws : List QWord) : State :=
  let s := (((tasked (job false)).modQue 9 fun x => { x with words := ws }).modPart 0 fun x => { x with notices := [9] })
  { s with bru := { s.bru with collQ := [9, 9, 9, 9] } }
theorem witness_collQueue :
    (let w : QWord := { data := zeroWord, last := false, par := 0 }; let s := collQueued [w, { w with last := true }];
      decide (pcRuns s 0 = true ∧ (s.getQue 9).words ≠ [] ∧ 9 ∈ (s.getPart 0).notices ∧ (headPacket s 9).length = 2 ∧ (∀ x ∈ (s.getQue 9).words, x.ring = none) ∧ (s.bru.collQ.getD 0 0).toNat % 512 = 9)) = true ∧
    (let w : QWord := stagedWord (collDesc.set 0 (BitVec.ofNat 64 (1 + 2 ^ 8 + 2 * 2 ^ 12 + 2 ^ 16 + 3 * 2 ^ 44))) true; let s := collQueued [w];
      decide (headPacket s 9 = [(w.data, false)] ∧ taskOfClass s 0 (cCtx w.data) (cClass w.data) = true ∧ (cDimList w.data).head? = some 0 ∧
        (scratchOf ((takePacket 9 s).modPart 0 fun y => { y with notices := dropFirst (fun a => a == 9) y.notices }) 0x40_0000_0000).isSome = true)) = true := by decide +kernel

/-! ### Authenticated commands -/

/-- The first 64 bytes of command `code`, counter 1, with its first argument `arg` (Table 12.10). -/
def cmdBody (code arg : Nat) : List Byte :=
  leBytes 4 0 ++ leBytes 2 0 ++ leBytes 2 code ++ leBytes 8 1 ++ leBytes 16 0 ++ leBytes 8 arg ++ leBytes 24 0
/-- The command, authenticated with key 0. -/
def command (code arg : Nat) : List Byte := cmdBody code arg ++ leBytes 32 (kmac 0 false (cmdBody code arg)).toNat
/-- Key 0 may send every command. -/
def keyed : State := { up with net := { up.net with keys := [(0, { valid := true, permit := 0x3E, key := 0 })] } }

theorem mac_reads (b : List Byte) (m : BitVec 256) (h : b.length = 64) : numAt (b ++ leBytes 32 m.toNat) 0x40 32 = m.toNat := by
  have := m.isLt
  simp only [numAt, List.drop_append, h]
  simp [List.drop_eq_nil_of_le (by omega : b.length ≤ 64), List.take_of_length_le, Laws.ofLe_leBytes]
  omega

theorem command_good (code arg : Nat) (h : (cmdBody code arg).length = 64)
    (hr : cmdField (command code arg) 1 1 = 0 ∧ cmdField (command code arg) 4 2 = 0 ∧ cmdCode (command code arg) < 32 ∧
      getBit (0x3E : W32) (cmdCode (command code arg)) = true ∧ cmdField (command code arg) 0x10 8 = 0) : cmdGood keyed (command code arg) = true := by
  obtain ⟨h1, h2, h3, h4, h5⟩ := hr
  have hk : Tbl.get {} keyed.net.keys 0 = ({ valid := true, permit := 0x3E, key := 0 } : CmdKey) := by decide
  have ht : (command code arg).take 0x40 = cmdBody code arg := by simp [command, h]
  have hm : numAt (command code arg) 0x40 32 = (kmac 0 false (cmdBody code arg)).toNat := mac_reads _ _ h
  have hl : (command code arg).length = 0x60 := by simp [command, h]
  have hc : lastCounter keyed (command code arg) = none := by
    have : keyed.rst.cmds = [] := by decide
    simp [lastCounter, this]
  have hi : keyed.net.id.toNat = 0 := by decide
  have hn : now keyed = 0 := by decide
  unfold cmdGood
  simp only [h1, hk]
  simp [h2, h3, h5, ht, hm, hl, hc, hi, hn]
  exact h4

theorem witness_commands :
    (∀ e ∈ [(1, 0x60_0000_0000), (2, 0x60_0000_0000), (3, 3), (4, 3), (5, 0)], cmdGood keyed (command e.1 e.2) = true ∧ cmdCode (command e.1 e.2) = e.1) ∧
    (skotrumHeld keyed = false ∧ keyed.net.keysIn = true ∧ State.reset.net.keysIn = false ∧ cmdGood keyed [0, 0, 0, 0, 0, 0, 1] = false ∧ regPlace 0x60_0000_0000 = some (0, 0) ∧
      keyed.bru.ready = true ∧ keyed.aborts.length < 8 ∧ fabricResetOk keyed 3 = true ∧ attesting keyed = false ∧ keyed.bru.signing = none ∧ keyed.rst.cmds = []) := by
  refine ⟨?_, by decide +kernel⟩
  intro e he
  simp only [List.mem_cons, List.not_mem_nil, or_false] at he
  rcases he with rfl | rfl | rfl | rfl | rfl <;> exact ⟨command_good _ _ (by decide) (by decide +kernel), by decide +kernel⟩

/-! ### Ill-formed commands, one for each check of `WellFormed` -/

theorem wellFormed_opcode : (Instr.apost 0 0 (ins 0x70 0 2 0 0 0)).wellFormed = true ∧ (Instr.apost 0 0 (ins 0x71 0 2 0 0 0)).wellFormed = false ∧
    (Instr.vectorArith 0 0 (ins 0x30 0 0 0 0 0) (.other false) false).wellFormed = false := by decide +kernel
theorem wellFormed_ranges :
    (Instr.sliceRead 0 0x3FFFFF8 9 (.pc 0) []).wellFormed = false ∧
    (Instr.sliceWrite 0 0 [] (.pc 0)).wellFormed = false ∧ (Instr.cacheRead 250 8 ask []).wellFormed = false ∧ (Instr.cacheRead 248 8 ask []).wellFormed = true ∧
    (Instr.sliceRead 0 0 8 (.pc 0) [{ word := 8388608, bit := 0, err := .correctable }]).wellFormed = false ∧ (Instr.abortComplete 8).wellFormed = false ∧
    (Instr.blockResetDone true 6 0).wellFormed = false ∧ (Instr.i3cRead 257).wellFormed = false := by decide +kernel
theorem wellFormed_codewords :
    (Instr.marlRead 0 [(0, { pos := 68, val := 1 })]).wellFormed = false ∧ (Instr.marlRead 0 [(0, { pos := 67, val := 0 })]).wellFormed = false ∧
    (Instr.marlWrite 0 [] false).wellFormed = false ∧ (Instr.marlRead 0 [(0, { pos := 67, val := 1 })]).wellFormed = true := by decide +kernel
theorem wellFormed_packets :
    (Instr.fabricPut 2 (pktOf 2 0 0 0 0)).wellFormed = false ∧ (Instr.fabricSyncTest 2 (pktOf 5 1 0 0 8)).wellFormed = false ∧
    (Instr.fabricSyncTest 2 (pktOf 5 2 0 0 8)).wellFormed = true ∧ (Instr.homeOperation 0 { op := .reduce 0 0 [] [], ret := false, later := false } ask).wellFormed = false ∧
    (Instr.flitReceive 0 []).wellFormed = false ∧ (Instr.initReceive 0 []).wellFormed = false ∧ (Instr.frameReceive 0 [] 0).wellFormed = false ∧
    (Instr.cmdAbort [3]).wellFormed = false ∧ (Instr.fwNeed 0 (fwOf 6 0 1 [])).wellFormed = false := by decide +kernel
theorem wellFormed_lists :
    (Instr.queueAppend .mgmt 0 [] false).wellFormed = false ∧ (Instr.bundleRepair 0 0 0 [1, 1]).wellFormed = false ∧ (Instr.bundleCal { listed := [], rest := (0, 0) }).wellFormed = false ∧
    (Instr.bundleSweep 0 0 0 (some (1, 128))).wellFormed = false ∧ (Instr.bundleSweep 0 0 0 (some (0, 128))).wellFormed = true ∧ (Instr.instructionIssue 0 [(1, noRegs), (1, noRegs)]).wellFormed = false ∧
    (Instr.memoryTest [.loessDie 0, .loessDie 0]).wellFormed = false ∧ (Instr.doeAttest [0]).wellFormed = false ∧ (Instr.bar2Access 0 (.write [1] []) false).wellFormed = false ∧
    (Instr.bar0Access 0 (.read 0)).wellFormed = false ∧ (Instr.flashRead 0 2).wellFormed = false := by decide +kernel

/-! ### The step and the table -/

/-- The front command runs on the state with the queue's rest; an empty queue is one nanosecond of device time. -/
theorem test_step : (match step { up with pending := [.tbRefLoss, .wireCounterDecay] } with | .next t => (t.pending, t.skt.refLoss) | _ => ([], false)) =
    ([.wireCounterDecay], true) ∧ (match step State.reset with | .next t => t.skt.time | _ => 0) = 1 ∧ decodeTableWord 16 0 = none := by decide +kernel

/-- R18: while the selected instance is absent, a read above 0x100 returns 0. -/
theorem test_absent : (regRead 0 3 0x100 absent).2 = 0 := by decide +kernel

theorem witness_invariants : State.reset.memWf = true ∧ (match step State.reset with | .next t => t.memWf | _ => false) = true ∧
    up.memWf = true ∧ resetOverride up 0 = none ∧ resetOverride up 7 = none := by decide +kernel

end Sys2Proof.Tests
end

/-! ### Selectors and absent instances (R16 to R19)

ABSENT, as a requester reads it, is exactly "the selected instance is not there". Every access to a register of an
instance asks the same question, so that the one fact gives both halves of R18. -/

namespace Sys2Proof.Proofs
open Sys2Proof Sys2Proof.Machine

theorem selOf_lt (s : State) (r u : Nat) : selOf s r u < 2 ^ 16 := (Tbl.get 0 s.sel (16 * r + u)).isLt

/-- Table 0.6: bit 31 of a selector is ABSENT, since INSTANCE takes the low 16 bits only. -/
theorem getBit_selReg (s : State) (r u : Nat) :
    getBit (BitVec.ofNat 32 (selReg s r u)) 31 = !instHere s u (selOf s r u) := by
  have hlow : (selOf s r u).testBit 31 = false :=
    Nat.testBit_lt_two_pow (Nat.lt_trans (selOf_lt s r u) (by decide))
  unfold getBit selReg
  rw [BitVec.getLsbD_ofNat]
  cases instHere s u (selOf s r u) with
  | false =>
    have habsent : (selOf s r u + 2 ^ 31).testBit 31 = true := by
      rw [Nat.add_comm, Nat.testBit_two_pow_add_eq, hlow, Bool.not_false]
    simpa [b2n] using habsent
  | true => simpa [b2n] using hlow

/-- R15: offset 0 of a unit's window holds the selector; a held Skotrum answers 0. -/
theorem regValue_selector (s : State) (r : Nat) {u : Nat} (hu : u < 16) :
    regValue s r u 0 = if skotrumHeld s then 0 else BitVec.ofNat 32 (selReg s r u) := by
  have hmsix : u ≠ 1023 := by omega
  simp [regValue, hmsix, Nat.not_le.mpr hu]

/-- A requester reads ABSENT as 1 only where the instance it selected is not there. -/
theorem instHere_eq_false_of_absent {s : State} {r u : Nat} (hu : u < 16) (habsent : getBit (regValue s r u 0) 31 = true) :
    instHere s u (selOf s r u) = false := by
  rw [regValue_selector s r hu] at habsent
  split at habsent
  · simp [getBit] at habsent
  · simpa [getBit_selReg] using habsent

theorem regValue_of_not_instHere {s : State} {r u off : Nat} (hu : u < 16) (hoff : 0x100 ≤ off)
    (hinst : instHere s u (selOf s r u) = false) : regValue s r u off = 0 := by
  have hmsix : u ≠ 1023 := by omega
  have hsel : off ≠ 0 := by omega
  simp [regValue, hmsix, Nat.not_le.mpr hu, hsel, Nat.not_lt.mpr hoff, hinst]

theorem regWrite_of_not_instHere {s : State} {r u off : Nat} (val : W32) (narrow : Bool) (hu : u < 16) (hoff : 0x100 ≤ off)
    (hinst : instHere s u (selOf s r u) = false) : regWrite r u off val narrow s = s := by
  have hmsix : u ≠ 1023 := by omega
  have hsel : off ≠ 0 := by omega
  simp [regWrite, hmsix, Nat.not_le.mpr hu, hsel, Nat.not_lt.mpr hoff, hinst]

theorem exec_registerWrite (r : Req) (win : Fin 4096) (off : BitVec 16) (val : W32) (narrow : Bool) (s : State) :
    exec (.registerWrite r win off val narrow) s = .next (regWrite r.val win.val off.toNat val narrow s) := rfl

/-- Settles O4: ABSENT says that the selected instance is not there, and the access finds the same; a read in the middle
of a word (R9) reads that word, which lies from 0x100 up too. -/
theorem absentInstanceSilent : Obligations.AbsentInstanceSilent := by
  unfold Obligations.AbsentInstanceSilent
  intro r u off val narrow s habsent hoff
  have hinst := instHere_eq_false_of_absent u.isLt habsent
  constructor
  · have hword : 0x100 ≤ off.toNat / 4 * 4 := by omega
    exact regValue_of_not_instHere u.isLt hword hinst
  · rw [exec_registerWrite, Fin.val_castLE, regWrite_of_not_instHere val narrow u.isLt hoff hinst]

end Sys2Proof.Proofs

/-! ### The governor's voltages (R56)

A control period either leaves both commanded voltages as they are (no period is due, the partition is in reset, or its
interface is in AVSBus fault) or commands exactly the next voltages of the listing. R56 is then a fact of the two numbers
`nextVcore` and `nextVloess`. -/

namespace Sys2Proof.Proofs
open Sys2Proof Sys2Proof.Machine Sys2Proof.Laws

/-! #### What a voltage command does to the governor's record -/

@[simp] theorem avsFault_modGov (s : State) (p q : Nat) (f : Gov → Gov) : avsFault (s.modGov p f) q = avsFault s q := rfl

theorem command_of_avsFault {s : State} {p : Nat} (rail mv : Nat) (hfault : avsFault s p = true) : command p rail mv s = s :=
  if_pos hfault

@[simp] theorem avsFault_command (p rail mv : Nat) (s : State) (q : Nat) : avsFault (command p rail mv s) q = avsFault s q := by
  unfold command
  split
  · rfl
  · exact avsFault_modGov s p q _

/-- R62: the rail commanded takes the new voltage, whether or not a write is needed for it. -/
theorem vcore_command_core {s : State} {p : Nat} (mv : Nat) (hlive : avsFault s p = false) :
    ((command p 0 mv s).getGov p).vcore = BitVec.ofNat 10 mv := by
  unfold avsFault at hlive
  by_cases hsame : (s.getGov p).vcore.toNat = mv
  · simp [command, hlive, ← hsame]
  · simp [command, hlive, hsame]

theorem vloess_command_core {s : State} {p : Nat} (mv : Nat) : ((command p 0 mv s).getGov p).vloess = (s.getGov p).vloess := by
  unfold command
  split
  · rfl
  · rw [getGov_modGov_self, if_pos rfl]
    split <;> rfl

theorem vloess_command_loess {s : State} {p : Nat} (mv : Nat) (hlive : avsFault s p = false) :
    ((command p 1 mv s).getGov p).vloess = BitVec.ofNat 10 mv := by
  unfold avsFault at hlive
  by_cases hsame : (s.getGov p).vloess.toNat = mv
  · simp [command, hlive, ← hsame]
  · simp [command, hlive, hsame]

theorem vcore_command_loess {s : State} {p : Nat} (mv : Nat) : ((command p 1 mv s).getGov p).vcore = (s.getGov p).vcore := by
  unfold command
  split
  · rfl
  · rw [getGov_modGov_self, if_neg Nat.one_ne_zero]
    split <;> rfl

/-! #### What the rest of a control period leaves unchanged -/

theorem getGov_compareMonitors (p q : Nat) (s : State) : (compareMonitors p s).getGov q = s.getGov q :=
  forN_keeps (fun u => u.getGov q = s.getGov q) 6 _ s (fun _ u hu => (getGov_modVmn u _ q _).trans hu) rfl

theorem getGov_forL_modPrb (l : List Nat) (f : Probe → Probe) (q : Nat) (s : State) :
    (forL l (fun i u => u.modPrb i f) s).getGov q = s.getGov q :=
  forL_keeps (fun u => u.getGov q = s.getGov q) l _ s (fun i u hu => (getGov_modPrb u i q f).trans hu) rfl

theorem getGov_ite_notifyMgmt (b : Bool) (what q : Nat) (s : State) :
    (if b then notifyMgmt what s else s).getGov q = s.getGov q := by
  split <;> rfl

/-! #### A control period -/

/-- Power above the allotment (R58). -/
def overAllotment (s : State) (p : Nat) : Bool := decide ((s.getGov p).allot.toNat < railPower (s.getGov p))

/-- Some probe of the partition reads above the ceiling (R57). -/
def aboveCeiling (s : State) (p : Nat) : Bool := decide (1800 < highest s (govSites s p ++ govSlices s p))

/-- Both lowest readings leave room to lower a voltage (R56). -/
def roomToLower (s : State) (p : Nat) : Bool := decide (1320 < lowest s (govSites s p)) && decide (1320 < lowest s (govSlices s p))

theorem roomToLower_eq_false {s : State} {p : Nat} (h : lowest s (govSites s p) ≤ 1320 ∨ lowest s (govSlices s p) ≤ 1320) :
    roomToLower s p = false := by
  unfold roomToLower
  rcases h with h | h <;> simp [Nat.not_lt.mpr h]

/-- VCORE that the listing of chapter 2 gives for this period. -/
def vcoreDue (s : State) (p : Nat) : Nat :=
  nextVcore (s.getGov p).vcore.toNat (lowest s (govSites s p)) (roomToLower s p) (overAllotment s p) (aboveCeiling s p)

/-- VLOESS that the listing of chapter 2 gives for this period. -/
def vloessDue (s : State) (p : Nat) : Nat :=
  nextVloess (s.getGov p).vloess.toNat (lowest s (govSlices s p)) (roomToLower s p) (overAllotment s p)

theorem exec_governorPeriod (p : Tower) (s : State) : exec (.governorPeriod p) s = execGovernorPeriod p s := rfl

/-- The voltages after a control period: both as before, or both as the listing gives them. -/
theorem voltages_governorPeriod {p : Tower} {s t : State} (h : exec (.governorPeriod p) s = .next t) :
    ((t.getGov p).vcore = (s.getGov p).vcore ∧ (t.getGov p).vloess = (s.getGov p).vloess) ∨
    ((t.getGov p).vcore = BitVec.ofNat 10 (vcoreDue s p) ∧ (t.getGov p).vloess = BitVec.ofNat 10 (vloessDue s p)) := by
  rw [exec_governorPeriod, execGovernorPeriod] at h
  split at h
  · cases h
    exact .inl ⟨rfl, rfl⟩
  · cases h
    rw [getGov_compareMonitors, getGov_forL_modPrb, getGov_modPart, getGov_ite_notifyMgmt, getGov_modGov_self]
    cases hfault : avsFault s p with
    | true =>
      left
      simp [periodRecord, command_of_avsFault, hfault]
    | false =>
      right
      simp only [periodRecord]
      rw [vcore_command_loess, vcore_command_core _ (by simpa using hfault), vloess_command_loess _ (by simpa using hfault)]
      exact ⟨rfl, rfl⟩

/-! #### R56 for the two numbers -/

theorem nextVcore_range {v : Nat} (rMin : Nat) (room excess fast : Bool) (hlo : 650 ≤ v) (hhi : v ≤ 900) :
    650 ≤ nextVcore v rMin room excess fast ∧ nextVcore v rMin room excess fast ≤ 900 := by
  unfold nextVcore
  split
  · omega
  · split <;> omega

theorem nextVloess_range {v : Nat} (sMin : Nat) (room excess : Bool) (hlo : 700 ≤ v) (hhi : v ≤ 900) :
    700 ≤ nextVloess v sMin room excess ∧ nextVloess v sMin room excess ≤ 900 := by
  unfold nextVloess
  split
  · omega
  · split <;> omega

/-- Without room to lower, or with a raise due, VCORE does not fall. -/
theorem le_nextVcore {v rMin : Nat} {room : Bool} (excess fast : Bool) (hhi : v ≤ 900) (hkeep : room = false ∨ rMin < 1260) :
    v ≤ nextVcore v rMin room excess fast := by
  unfold nextVcore
  split
  · omega
  · next hnoraise =>
    have hroom : room = false := hkeep.resolve_right hnoraise
    exact Nat.le_of_eq (by rw [hroom, Bool.false_and, Bool.false_and, if_neg Bool.false_ne_true])

/-- Without room to lower, or with a raise due, VLOESS does not fall. -/
theorem le_nextVloess {v sMin : Nat} {room : Bool} (excess : Bool) (hhi : v ≤ 900) (hkeep : room = false ∨ sMin < 1260) :
    v ≤ nextVloess v sMin room excess := by
  unfold nextVloess
  split
  · omega
  · next hnoraise =>
    have hroom : room = false := hkeep.resolve_right hnoraise
    exact Nat.le_of_eq (by rw [hroom, Bool.false_and, Bool.false_and, if_neg Bool.false_ne_true])

/-- Settles O6: voltages held stay in range and do not fall; voltages commanded are those of the listing, whose raise comes
before its reduction, and whose reduction asks for room. -/
theorem governorNeverLowersBelowMargin : Obligations.GovernorNeverLowersBelowMargin := by
  unfold Obligations.GovernorNeverLowersBelowMargin
  intro p s t h hclo hchi hllo hlhi
  rcases voltages_governorPeriod h with ⟨hcore, hloess⟩ | ⟨hcore, hloess⟩
  · rw [hcore, hloess]
    exact ⟨fun _ => ⟨Nat.le_refl _, Nat.le_refl _⟩, ⟨hclo, hchi⟩, ⟨hllo, hlhi⟩, fun _ => Nat.le_refl _, fun _ => Nat.le_refl _⟩
  · have hcrange : 650 ≤ vcoreDue s p ∧ vcoreDue s p ≤ 900 := nextVcore_range _ _ _ _ hclo hchi
    have hlrange : 700 ≤ vloessDue s p ∧ vloessDue s p ≤ 900 := nextVloess_range _ _ _ hllo hlhi
    have hcval : (t.getGov p).vcore.toNat = vcoreDue s p := by
      rw [hcore, BitVec.toNat_ofNat, Nat.mod_eq_of_lt (by omega)]
    have hlval : (t.getGov p).vloess.toNat = vloessDue s p := by
      rw [hloess, BitVec.toNat_ofNat, Nat.mod_eq_of_lt (by omega)]
    rw [hcval, hlval]
    refine ⟨fun hmargin => ?_, hcrange, hlrange, fun hraise => le_nextVcore _ _ hchi (.inr hraise),
      fun hraise => le_nextVloess _ hlhi (.inr hraise)⟩
    have hroom := roomToLower_eq_false hmargin
    exact ⟨le_nextVcore _ _ hchi (.inl hroom), le_nextVloess _ hlhi (.inl hroom)⟩

end Sys2Proof.Proofs

/-! ### Takes from a queue (R310 to R312)

The consumer's take is `takeWord`, answered with the word it gives. `takeWord` has two cases, the empty queue and the one
with a head word; only the second moves the last word. -/

namespace Sys2Proof.Proofs
open Sys2Proof Sys2Proof.Machine Sys2Proof.Laws

/-- What a take answers with a word: a host read shows the poison (R312), every other agent gets the bytes. -/
def takeAnswer (who : Agent) (poison : Bool) (w : Line) : Sent :=
  if who = .host ∧ poison = true then .poisonedRead (lineBytes w) else .data who (lineBytes w)

theorem exec_queueTake {who : Agent} {q : Que} {s s1 : State} {w : Line} {poison last empty : Bool}
    (hup : inReset s (queOwner s q) = false) (hcons : isConsumer s who q = true)
    (htake : takeWord q s = (s1, w, poison, last, empty)) :
    exec (.queueTake who q) s = .next (send (takeAnswer who poison w) s1) := by
  change execQueueTake who q s = _
  simp only [execQueueTake, hup, hcons, htake, takeAnswer]
  cases who with
  | host => cases poison <;> rfl
  | _ => simp [ok]

/-- R311: UNDERRUN is set and counted, nothing is removed, and the last word is given again. -/
theorem takeWord_of_empty {q : Nat} {s : State} (hempty : (s.getQue q).words = []) :
    takeWord q s = (s.modQue q fun y => { y with underrun := true, underruns := y.underruns + 1 },
      if (s.getQue q).lastWord = [] then zeroLine else (s.getQue q).lastWord,
      (s.getQue q).lastPoison, (s.getQue q).lastEnd, true) := by
  simp only [takeWord, hempty]

/-- R310, R312: the head word is removed, and becomes the last word as it was read. -/
theorem takeWord_of_head {q : Nat} {s u : State} {w : QWord} {r : List QWord} {d : Line} {bad : Bool}
    (hhead : (s.getQue q).words = w :: r) (hread : wordRead (s.getQue q) w s = (u, d, bad)) :
    takeWord q s = (u.modQue q fun y => { y with
      words := r, lastWord := d, lastPoison := bad, lastEnd := w.last
      poisoned := if bad then y.poisoned + 1 else y.poisoned }, d, bad, w.last, false) := by
  simp only [takeWord, hhead, hread]

/-! #### QSTATE (Table 10.1) -/

theorem b2n_le_one (b : Bool) : b2n b ≤ 1 := by cases b <;> decide

theorem b2n_isEmpty {α : Type} (l : List α) : b2n l.isEmpty = 1 ↔ l.length = 0 := by
  cases l <;> simp [b2n]

/-- The fields of QSTATE do not overlap: WORDS is below bit 16 and HEAD_LEFT below bit 24. -/
theorem toNat_qstate {x : Queue} (hwords : x.words.length < 65536) (hleft : headLeft x < 256) :
    (qstate x).toNat = x.words.length + headLeft x * 2 ^ 16 + b2n x.words.isEmpty * 2 ^ 24
      + (b2n x.underrun + b2n x.lastPoison * 2 + b2n x.lastEnd * 2 ^ 2) * 2 ^ 25 := by
  have hempty := b2n_le_one x.words.isEmpty
  have hunder := b2n_le_one x.underrun
  have hpoison := b2n_le_one x.lastPoison
  have hend := b2n_le_one x.lastEnd
  rw [qstate, BitVec.toNat_ofNat]
  omega

theorem qstate_words {x : Queue} (hwords : x.words.length < 65536) (hleft : headLeft x < 256) :
    (qstate x).toNat % 65536 = x.words.length := by
  rw [toNat_qstate hwords hleft]
  omega

theorem qstate_empty {x : Queue} (hwords : x.words.length < 65536) (hleft : headLeft x < 256) :
    getBit (qstate x) 24 = true ↔ x.words.length = 0 := by
  have hempty := b2n_le_one x.words.isEmpty
  have hbit : (qstate x).toNat / 2 ^ 24 % 2 = b2n x.words.isEmpty := by
    rw [toNat_qstate hwords hleft]
    omega
  rw [getBit, BitVec.getLsbD, Nat.testBit_eq_decide_div_mod_eq, hbit, decide_eq_true_iff, b2n_isEmpty]

/-- Settles O56: the two cases of `takeWord`, the last word of a queue at reset, and the fields of QSTATE. -/
theorem emptyQueueTake : Obligations.EmptyQueueTake := by
  unfold Obligations.EmptyQueueTake
  refine ⟨fun who q s hup hcons hempty => ?_, fun who q w r s hup hcons hhead u d bad hread => ?_,
    fun _ => rfl, fun _ => rfl, by decide, fun x hwords hleft => ⟨qstate_empty hwords hleft, qstate_words hwords hleft⟩⟩
  · refine ⟨_, exec_queueTake hup hcons (takeWord_of_empty hempty), rfl, rfl, ?_, fun k hk => ?_⟩
    · rw [getQue_send, getQue_modQue_self]
    · rw [getQue_send, getQue_modQue_ne _ _ hk]
  · refine ⟨_, exec_queueTake hup hcons (takeWord_of_head hhead hread), ?_, rfl⟩
    rw [getQue_send, getQue_modQue_self]

end Sys2Proof.Proofs

/-! ### The fuses under every step (O57)

Only CONFIG and the fuse window write fuse bits, and neither writes a reset source's entry. Every other function of the model that returns a
state carries the fuses over whole, so each has one frame lemma, named `fuses_f` (the state `f` returns), `fuses_of_f` (the state in its
result, where it has one), `keepsFuses_f` (its outcome) or `…Carries_f` (the states in a result type of its own), in the order of the
model's files. -/

namespace Sys2Proof.Proofs
open Sys2Proof Sys2Proof.Machine Sys2Proof.Laws

/-! #### States, outcomes and results that carry the fuses of `s` -/

/-- The next state of the outcome, where it has one, has the fuses of `s`. -/
def KeepsFuses (s : State) (o : Host.Outcome State Fault Refusal) : Prop := ∀ t, o = .next t → t.fuses = s.fuses

@[simp] theorem keepsFuses_ok (s t : State) : KeepsFuses s (ok t) ↔ t.fuses = s.fuses := by
  simp [KeepsFuses, ok]

@[simp] theorem keepsFuses_next (s t : State) : KeepsFuses s (.next t) ↔ t.fuses = s.fuses := by
  simp [KeepsFuses]

theorem eq_of_ok_eq_next {u t : State} (h : ok u = .next t) : t = u := by
  cases h
  rfl

@[simp] theorem fuses_ite (c : Prop) [Decidable c] (s t : State) : (if c then s else t).fuses = if c then s.fuses else t.fuses :=
  apply_ite State.fuses c s t

@[simp] theorem fst_ite {α β} (c : Prop) [Decidable c] (s t : α × β) : (if c then s else t).1 = if c then s.1 else t.1 :=
  apply_ite Prod.fst c s t

theorem fuses_of_fst {α : Type} {x : Fuses} {r : State × α} {t a} (hr : r.1.fuses = x) (h : r = (t, a)) : t.fuses = x := by
  subst h
  exact hr

/-- The state's fuses are `x`. A loop's invariant: `x` stays while the loop runs, and comparing two states' `Carries` never evaluates them. -/
def Carries (x : Fuses) (s : State) : Prop := s.fuses = x

@[simp] theorem carries_iff {x s} : Carries x s ↔ s.fuses = x := Iff.rfl
theorem Carries.step {x s t} (hs : Carries x s) (h : t.fuses = s.fuses) : Carries x t := h.trans hs
theorem Carries.withThm {x s} (hs : Carries x s) (t : Thm) : Carries x { s with thm := t } := hs
theorem Carries.withMrlSel {x s} (hs : Carries x s) (m : Mrl) (l : Tbl (BitVec 16)) : Carries x { s with mrl := m, sel := l } := hs

theorem Carries.forL {x s} {α : Type} {l : List α} {f : α → State → State} (hs : Carries x s)
    (h : ∀ a u, Carries x u → Carries x (f a u)) : Carries x (forL l f s) :=
  forL_keeps (Carries x) l f s h hs

theorem Carries.forN {x s} {n} {f : Nat → State → State} (hs : Carries x s) (h : ∀ a u, Carries x u → Carries x (f a u)) :
    Carries x (forN n f s) :=
  hs.forL h

@[simp] theorem fuses_forL {α : Type} {l : List α} {f : α → State → State} {s : State} (h : ∀ a u x, Carries x u → Carries x (f a u)) :
    (forL l f s).fuses = s.fuses :=
  forL_keeps (fun u => Carries s.fuses u) l f s (fun a u => h a u _) rfl

@[simp] theorem fuses_forN {n} {f : Nat → State → State} {s : State} (h : ∀ a u x, Carries x u → Carries x (f a u)) :
    (forN n f s).fuses = s.fuses :=
  fuses_forL h

@[simp] theorem fuses_foldl {α : Type} {l : List α} {f : State → α → State} {s : State} (h : ∀ u a x, Carries x u → Carries x (f u a)) :
    (l.foldl f s).fuses = s.fuses :=
  fuses_forL (f := fun a u => f u a) fun a u => h u a

@[simp] theorem fuses_foldl_pair {α β : Type} {l : List α} {f : State × β → α → State × β} {s : State × β}
    (h : ∀ u a x, Carries x u.1 → Carries x (f u a).1) : (l.foldl f s).1.fuses = s.1.fuses := by
  induction l generalizing s with
  | nil => rfl
  | cons a l ih => rw [List.foldl_cons, ih, h s a s.1.fuses rfl]

@[simp] theorem fuses_forL_pair {α β : Type} {l : List α} {f : α → State × β → State × β} {s : State × β}
    (h : ∀ a u x, Carries x u.1 → Carries x (f a u).1) : (forL l f s).1.fuses = s.1.fuses :=
  fuses_foldl_pair fun u a => h a u

/-- The state a synchronisation operation leaves has the fuses `x`. -/
def SynCarries (x : Fuses) : SynRes → Prop
  | .done t _ _ => t.fuses = x
  | _ => True

/-- The state after a request's issue has the fuses `x`. -/
def IssueCarries (x : Fuses) : Issue → Prop
  | .sent t _ => t.fuses = x
  | _ => True

/-- The state after the issue of several requests has the fuses `x`. -/
def IssueAllCarries (x : Fuses) : IssueAll → Prop
  | .sent t _ _ => t.fuses = x
  | _ => True

/-- The state after a wait has the fuses `x`, whether the wait is met or stored. -/
def WaitCarries (x : Fuses) : WaitRes → Prop
  | .released t _ _ => t.fuses = x
  | .waiting t => t.fuses = x
  | _ => True

/-- The state after a queue word's append has the fuses `x`. -/
def PutCarries (x : Fuses) : PutRes → Prop
  | .stored t => t.fuses = x
  | .overlong t => t.fuses = x
  | .bus t => t.fuses = x
  | _ => True

/-- The state after an element's read has the fuses `x`. -/
def ReadCarries (x : Fuses) : MRead → Prop
  | .data t _ => t.fuses = x
  | .asked t _ => t.fuses = x
  | .wait t => t.fuses = x
  | .bus t => t.fuses = x
  | .fault t _ _ _ _ => t.fuses = x

/-- The state after an element's commit has the fuses `x`. -/
def CommitCarries (x : Fuses) : MCommit → Prop
  | .done t _ => t.fuses = x
  | .sent t => t.fuses = x
  | .wait t => t.fuses = x
  | .bus t _ => t.fuses = x
  | .fault t _ _ _ _ => t.fuses = x

theorem fuses_of_synDone {x r t c k} (hr : SynCarries x r) (h : r = .done t c k) : t.fuses = x := by
  subst h
  exact hr

theorem fuses_of_issueSent {x r t n} (hr : IssueCarries x r) (h : r = .sent t n) : t.fuses = x := by
  subst h
  exact hr

theorem fuses_of_allSent {x r t l b} (hr : IssueAllCarries x r) (h : r = .sent t l b) : t.fuses = x := by
  subst h
  exact hr

/-! #### Ops -/

@[simp] theorem fuses_draw (s) : (draw s).2.fuses = s.fuses := rfl
@[simp] theorem fuses_sendVector (v s) : (sendVector v s).fuses = s.fuses := by simp [sendVector]
@[simp] theorem fuses_raiseEvent (k s) : (raiseEvent k s).fuses = s.fuses := by simp [raiseEvent]
@[simp] theorem fuses_hostBusError (addr s) : (hostBusError addr s).fuses = s.fuses := by simp [hostBusError]
@[simp] theorem fuses_countRegErr (r win off part s) : (countRegErr r win off part s).fuses = s.fuses := by simp [countRegErr]
@[simp] theorem fuses_setSiteStatus (j v s) : (setSiteStatus j v s).fuses = s.fuses := rfl
@[simp] theorem fuses_addRepair (kind unit index spare s) : (addRepair kind unit index spare s).fuses = s.fuses := by simp [addRepair]
@[simp] theorem fuses_notifyMgmt (what s) : (notifyMgmt what s).fuses = s.fuses := rfl

/-! #### Arbiter -/

@[simp] theorem fuses_countSurplus (p c tier s) : (countSurplus p c tier s).fuses = s.fuses := by simp [countSurplus]

/-! #### Marl -/

@[simp] theorem fuses_putArrayCw (cw data poison s) : (putArrayCw cw data poison s).fuses = s.fuses := rfl
@[simp] theorem fuses_drainChannel (m s) : (drainChannel m s).fuses = s.fuses := by simp [drainChannel]
@[simp] theorem fuses_queueRoom (m l s) : (queueRoom m l s).fuses = s.fuses := by simp [queueRoom]
@[simp] theorem fuses_marlEnqueue (cw data poison part s) : (marlEnqueue cw data poison part s).fuses = s.fuses := by simp [marlEnqueue]
@[simp] theorem fuses_marlAccept (cw data poison s) : (marlAccept cw data poison s).fuses = s.fuses := by simp [marlAccept]
@[simp] theorem fuses_strikeCw (cw errs s) : (strikeCw cw errs s).fuses = s.fuses := rfl
@[simp] theorem fuses_marlRowCorrected (key s) : (marlRowCorrected key s).fuses = s.fuses := rfl
@[simp] theorem fuses_marlRowDue (key s) : (marlRowDue key s).fuses = s.fuses := by simp [marlRowDue]
@[simp] theorem fuses_wiresSeen (m ps s) : (wiresSeen m ps s).fuses = s.fuses := rfl

@[simp] theorem fuses_marlCount (addr m o s) : (marlCount addr m o s).fuses = s.fuses := by
  unfold marlCount
  split <;> simp

@[simp] theorem fuses_marlOutcomeActs (cw m o s) : (marlOutcomeActs cw m o s).fuses = s.fuses := by
  unfold marlOutcomeActs
  split <;> simp

@[simp] theorem fuses_marlReadCw (cw s) : (marlReadCw cw s).fuses = s.fuses := by simp [marlReadCw]
@[simp] theorem fuses_degradeChannel (m s) : (degradeChannel m s).fuses = s.fuses := by simp [degradeChannel]
@[simp] theorem fuses_copyFromStart (m d s) : (copyFromStart m d s).fuses = s.fuses := rfl

@[simp] theorem fuses_startMigration (m s) : (startMigration m s).fuses = s.fuses := by
  unfold startMigration
  split <;> simp

@[simp] theorem fuses_endMigration (st g s) : (endMigration st g s).fuses = s.fuses := by
  unfold endMigration
  dsimp only
  (repeat' split) <;> simp

theorem fuses_of_marlServe {m cs s r} (h : marlServe m cs s = some r) : r.2.fuses = s.fuses := by
  obtain ⟨a, -, rfl⟩ := Option.map_eq_some_iff.mp h
  simp

theorem fuses_of_marlPick {s m r} (h : marlPick s m = some r) : r.2.fuses = s.fuses := by
  obtain ⟨a, ha, h⟩ := Option.bind_eq_some_iff.mp h
  obtain ⟨e, -, rfl⟩ := Option.map_eq_some_iff.mp h
  exact fuses_of_marlServe ha

@[simp] theorem fuses_marlTake (m c s) : (marlTake m c s).fuses = s.fuses := by
  unfold marlTake
  grind [→ fuses_of_marlServe]

@[simp] theorem fuses_strikeLine (line errs s) : (strikeLine line errs s).fuses = s.fuses := by simp [strikeLine]
@[simp] theorem fuses_readLine (line errs s) : (readLine line errs s).fuses = s.fuses := by simp [readLine]
@[simp] theorem fuses_missSent (j line ws s) : (missSent j line ws s).fuses = s.fuses := rfl

@[simp] theorem keepsFuses_execMarlRead (line errs s) : KeepsFuses s (execMarlRead line errs s) := by
  unfold execMarlRead
  grind [keepsFuses_ok, !fuses_readLine, → fuses_of_marlPick, !fuses_strikeLine, !fuses_missSent]

@[simp] theorem keepsFuses_execMarlWrite (cw data poison s) : KeepsFuses s (execMarlWrite cw data poison s) := by
  unfold execMarlWrite
  split <;> simp

@[simp] theorem fuses_marlPartial (cw words data poison s) : (marlPartial cw words data poison s).fuses = s.fuses := by
  unfold marlPartial
  split <;> simp

@[simp] theorem keepsFuses_execMarlPartialWrite (cw words data errs s) : KeepsFuses s (execMarlPartialWrite cw words data errs s) := by
  unfold execMarlPartialWrite
  split <;> simp

@[simp] theorem keepsFuses_execMarlCorrectionWriteback (ch s) : KeepsFuses s (execMarlCorrectionWriteback ch s) := by
  unfold execMarlCorrectionWriteback
  split <;> simp

@[simp] theorem keepsFuses_execWireCounterDecay (s) : KeepsFuses s (execWireCounterDecay s) := by
  unfold execWireCounterDecay
  split <;> simp

@[simp] theorem fuses_wireMarkNow (m w s) : (wireMarkNow m w s).fuses = s.fuses := by simp [wireMarkNow]
@[simp] theorem keepsFuses_execWireMark (ch wire s) : KeepsFuses s (execWireMark ch wire s) := by simp [execWireMark]
@[simp] theorem fuses_copyCw (src cw s) : (copyCw src cw s).fuses = s.fuses := by simp [copyCw]

@[simp] theorem fuses_copyRow (st errs s) : (copyRow st errs s).fuses = s.fuses := by
  unfold copyRow
  split <;> simp

@[simp] theorem fuses_marlReserved (m reserved s) : (marlReserved m reserved s).fuses = s.fuses := by simp [marlReserved]

@[simp] theorem keepsFuses_execMigrationRowCopy (copy s) : KeepsFuses s (execMigrationRowCopy copy s) := by
  unfold execMigrationRowCopy
  dsimp only
  (repeat' split) <;> simp

@[simp] theorem fuses_resumeMarks (s) : (resumeMarks s).fuses = s.fuses := by
  refine fuses_forL fun m u x hu => ?_
  split
  · exact hu
  · split
    · exact hu.step (fuses_copyFromStart ..)
    · exact hu

@[simp] theorem fuses_refreshRate (stack layer t16 s) : (refreshRate stack layer t16 s).fuses = s.fuses := by simp [refreshRate]

@[simp] theorem keepsFuses_execRefreshCommand (stack layer bank s) : KeepsFuses s (execRefreshCommand stack layer bank s) := by
  unfold execRefreshCommand
  split <;> simp

@[simp] theorem fuses_marlLapEnd (m s) : (marlLapEnd m s).fuses = s.fuses := rfl

@[simp] theorem fuses_spareCheck (m r errs k s) : (spareCheck m r errs k s).fuses = s.fuses := by
  unfold spareCheck
  dsimp only
  (repeat' split) <;> simp

@[simp] theorem keepsFuses_execMarlScrubAccess (ch reserved errs s) : KeepsFuses s (execMarlScrubAccess ch reserved errs s) := by
  unfold execMarlScrubAccess
  dsimp only
  (repeat' split) <;> simp

@[simp] theorem fuses_copyToSpareRow (ch row s) : (copyToSpareRow ch row s).fuses = s.fuses := by simp [copyToSpareRow]
@[simp] theorem fuses_repairMarlRow (ch layer bank row s) : (repairMarlRow ch layer bank row s).fuses = s.fuses := by simp [repairMarlRow]

@[simp] theorem keepsFuses_execMarlRowRepair (ch layer bank row s) :
    KeepsFuses s (execMarlRowRepair ch layer bank row s) := by simp [execMarlRowRepair]

@[simp] theorem fuses_drainStack (st s) : (drainStack st s).fuses = s.fuses := by simp [drainStack]

/-! #### Pacer -/

@[simp] theorem fuses_paceDelay (p pipe s) : (paceDelay p pipe s).fuses = s.fuses := rfl
@[simp] theorem fuses_paceStart (p pipe s) : (paceStart p pipe s).fuses = s.fuses := rfl
@[simp] theorem fuses_sliceStart (j s) : (sliceStart j s).fuses = s.fuses := by simp [sliceStart]

@[simp] theorem keepsFuses_execPacerRelease (p pipe s) : KeepsFuses s (execPacerRelease p pipe s) := by
  unfold execPacerRelease
  split <;> simp

/-! #### Loess -/

@[simp] theorem fuses_setWordBad (j w b s) : (setWordBad j w b s).fuses = s.fuses := rfl
@[simp] theorem fuses_sliceErr (j kind off s) : (sliceErr j kind off s).fuses = s.fuses := rfl
@[simp] theorem fuses_loessRepairFeed (j off bitNo uncorr s) : (loessRepairFeed j off bitNo uncorr s).fuses = s.fuses := rfl
@[simp] theorem fuses_sliceCorrectable (j off bitNo s) : (sliceCorrectable j off bitNo s).fuses = s.fuses := by simp [sliceCorrectable]
@[simp] theorem fuses_sliceUncorrectable (j off bitNo s) : (sliceUncorrectable j off bitNo s).fuses = s.fuses := rfl
@[simp] theorem fuses_slicePoisonRead (j off s) : (slicePoisonRead j off s).fuses = s.fuses := rfl
@[simp] theorem fuses_strikeSlice (j errs s) : (strikeSlice j errs s).fuses = s.fuses := rfl
@[simp] theorem fuses_wordsWritten (j ws s) : (wordsWritten j ws s).fuses = s.fuses := rfl

@[simp] theorem fuses_scratchMeet (j w sb) : (scratchMeet j w sb).1.fuses = sb.1.fuses := by
  unfold scratchMeet
  (repeat' split) <;> simp

@[simp] theorem fuses_scratchReadWord (j w sb) : (scratchReadWord j w sb).1.fuses = sb.1.fuses := by simp [scratchReadWord]
@[simp] theorem fuses_scratchRead (j x len s) : (scratchRead j x len s).1.fuses = s.fuses := by simp [scratchRead]
@[simp] theorem fuses_scratchWriteWord (j x data w sb) : (scratchWriteWord j x data w sb).1.fuses = sb.1.fuses := by simp [scratchWriteWord]
@[simp] theorem fuses_scratchWrite (j x data s) : (scratchWrite j x data s).1.fuses = s.fuses := by simp [scratchWrite]
@[simp] theorem fuses_setTags (j set ts s) : (setTags j set ts s).fuses = s.fuses := rfl
@[simp] theorem fuses_writeBack (l valid dirty poison ws s) : (writeBack l valid dirty poison ws s).fuses = s.fuses := by simp [writeBack]
@[simp] theorem fuses_wbPut (j e s) : (wbPut j e s).fuses = s.fuses := by simp [wbPut]
@[simp] theorem fuses_wbDone (j e s) : (wbDone j e s).fuses = s.fuses := by simp [wbDone]
@[simp] theorem fuses_wbDrain (j l s) : (wbDrain j l s).fuses = s.fuses := by simp [wbDrain]

@[simp] theorem fuses_wbRoom (j s) : (wbRoom j s).fuses = s.fuses := by
  unfold wbRoom
  split <;> simp

@[simp] theorem fuses_marlFetch (j lab cw s0) : (marlFetch j lab cw s0).1.fuses = s0.fuses := by simp [marlFetch]

@[simp] theorem fuses_fetchWords (src j ws t s) : (fetchWords src j ws t s).1.fuses = s.fuses := by
  refine fuses_foldl_pair fun a k x ha => ?_
  dsimp only
  split
  · exact ha
  · split <;> simpa using ha

@[simp] theorem fuses_fillTag (src j t s) : (fillTag src j t s).1.fuses = s.fuses := by simp [fillTag]

@[simp] theorem fuses_lineMeet (lab j held ws t s) : (lineMeet lab j held ws t s).1.fuses = s.fuses := by
  simp only [lineMeet, fuses_fetchWords]
  refine fuses_foldl_pair fun a k x ha => ?_
  split
  · exact ha
  · split <;> simpa using ha

@[simp] theorem fuses_lineCheck (lab j held ws t s) : (lineCheck lab j held ws t s).1.fuses = s.fuses := by simp [lineCheck]

@[simp] theorem fuses_evictLine (j set l s) : (evictLine j set l s).fuses = s.fuses := by
  unfold evictLine
  split <;> simp

@[simp] theorem fuses_tagRoom (j set s) : (tagRoom j set s).fuses = s.fuses := by
  unfold tagRoom
  dsimp only
  (repeat' split) <;> simp

@[simp] theorem fuses_slotWritten (j t s) : (slotWritten j t s).fuses = s.fuses := rfl

theorem fuses_of_placeLine {j t s u} (h : placeLine j t s = some u) : u.fuses = s.fuses := by
  simp only [placeLine] at h
  split at h
  · cases h
  · cases h
    simp

@[simp] theorem fuses_keepLine (j t s) : (keepLine j t s).fuses = s.fuses := rfl
@[simp] theorem fuses_leaveLine (j t s) : (leaveLine j t s).fuses = s.fuses := by simp [leaveLine]
@[simp] theorem fuses_keepSlot (j ws t all s) : (keepSlot j ws t all s).fuses = s.fuses := by simp [keepSlot]

@[simp] theorem fuses_settleLine (j was ws t s) : (settleLine j was ws t s).fuses = s.fuses := by
  unfold settleLine
  grind [→ fuses_of_placeLine, !fuses_leaveLine, !fuses_keepSlot]

@[simp] theorem fuses_filledLine (src j l cls s) : (filledLine src j l cls s).1.fuses = s.fuses := by simp [filledLine]
@[simp] theorem fuses_homeOn (lab j held o op t s) : (homeOn lab j held o op t s).1.fuses = s.fuses := by simp [homeOn]

@[simp] theorem fuses_reply (who e bs s) : (reply who e bs s).fuses = s.fuses := by
  unfold reply
  split <;> simp

@[simp] theorem fuses_replyWrite (who e s) : (replyWrite who e s).fuses = s.fuses := by
  unfold replyWrite
  split <;> simp

@[simp] theorem fuses_replyOp (who ret e old s) : (replyOp who ret e old s).fuses = s.fuses := by simp [replyOp]
@[simp] theorem fuses_applyOps (j n t s) : (applyOps j n t s).1.fuses = s.fuses := by simp [applyOps]

@[simp] theorem fuses_applyPend (j l n s) : (applyPend j l n s).fuses = s.fuses := by
  unfold applyPend
  split <;> simp

@[simp] theorem fuses_resettle (j l s) : (resettle j l s).fuses = s.fuses := by
  unfold resettle
  split <;> simp

@[simp] theorem fuses_unlockSet (j set l s) : (unlockSet j set l s).fuses = s.fuses := by simp [unlockSet]
@[simp] theorem fuses_lockWaits (j set l s) : (lockWaits j set l s).fuses = s.fuses := by simp [lockWaits]
@[simp] theorem fuses_lockOver (j l s) : (lockOver j l s).fuses = s.fuses := rfl

@[simp] theorem fuses_storeLine (j was ws t0 s0) : (storeLine j was ws t0 s0).fuses = s0.fuses := by
  unfold storeLine
  dsimp only
  (repeat' split) <;> simp

@[simp] theorem fuses_commitAll (j l s) : (commitAll j l s).fuses = s.fuses := by
  unfold commitAll
  dsimp only
  (repeat' split) <;> simp

@[simp] theorem fuses_commitOne (j l s) : (commitOne j l s).fuses = s.fuses := by
  unfold commitOne
  dsimp only
  (repeat' split) <;> simp

@[simp] theorem fuses_commitOps (j l n s) : (commitOps j l n s).fuses = s.fuses := by simp [commitOps]

@[simp] theorem fuses_tombstoneRead (j l s) : (tombstoneRead j l s).1.fuses = s.fuses := by
  unfold tombstoneRead
  split <;> simp

@[simp] theorem fuses_deadLine (pa c s) : (deadLine pa c s).fuses = s.fuses := by
  unfold deadLine
  dsimp only
  (repeat' split) <;> simp

@[simp] theorem fuses_writeOn (lab j held o data t s) : (writeOn lab j held o data t s).1.fuses = s.fuses := by simp [writeOn]

@[simp] theorem fuses_applyJoined (lab j held jn st) : (applyJoined lab j held jn st).1.fuses = st.1.fuses := by
  unfold applyJoined
  split <;> simp

@[simp] theorem fuses_fillEntry (j m s) : (fillEntry j m s).1.fuses = s.fuses := by simp [fillEntry]

@[simp] theorem fuses_fillNow (j l s) : (fillNow j l s).fuses = s.fuses := by
  unfold fillNow
  split <;> simp

@[simp] theorem fuses_meetMiss (j l s) : (meetMiss j l s).fuses = s.fuses := by
  unfold meetMiss
  dsimp only
  (repeat' split) <;> simp

@[simp] theorem fuses_freeSet (j l s) : (freeSet j l s).fuses = s.fuses := by simp [freeSet]

@[simp] theorem fuses_cacheReadNow (l o len lab s) : (cacheReadNow l o len lab s).1.fuses = s.fuses := by
  unfold cacheReadNow
  split <;> simp

@[simp] theorem fuses_cacheWriteNow (l o lab data s0) : (cacheWriteNow l o lab data s0).1.fuses = s0.fuses := by
  unfold cacheWriteNow
  split <;> simp

@[simp] theorem fuses_cacheOpNow (l o lab op s) : (cacheOpNow l o lab op s).1.fuses = s.fuses := by
  unfold cacheOpNow
  split <;> simp

@[simp] theorem fuses_sliceStarts (pa len s) : (sliceStarts pa len s).fuses = s.fuses := by simp [sliceStarts]

@[simp] theorem fuses_memRead (pa len lab s) : (memRead pa len lab s).1.fuses = s.fuses := by
  refine (fuses_foldl_pair fun a p x ha => ?_).trans (fuses_sliceStarts ..)
  dsimp only
  (repeat' split) <;> simpa using ha

@[simp] theorem fuses_memWrite (pa data lab s) : (memWrite pa data lab s).1.fuses = s.fuses := by
  refine (fuses_foldl_pair fun a p x ha => ?_).trans (fuses_sliceStarts ..)
  dsimp only
  (repeat' split) <;> simpa using ha

@[simp] theorem fuses_scratchOp (j x op s) : (scratchOp j x op s).1.fuses = s.fuses := by simp [scratchOp]

@[simp] theorem fuses_memOp (pa lab op s0) : (memOp pa lab op s0).1.fuses = s0.fuses := by
  unfold memOp
  dsimp only
  (repeat' split) <;> simp

/-! #### Fabric -/

theorem fuses_of_seamServe {k cs s r} (h : seamServe k cs s = some r) : r.2.fuses = s.fuses := by
  rw [seamServe_spec _ _ _ _ h]

theorem fuses_of_routerServe {t cs s r} (h : routerServe t cs s = some r) : r.2.fuses = s.fuses := by
  rw [routerServe_spec _ _ _ _ h]

@[simp] theorem fuses_crossRest (hs lab bytes s) : (crossRest hs lab bytes s).fuses = s.fuses := by
  refine fuses_forL fun h u x hu => ?_
  extract_lets s1
  have h1 : s1.fuses = u.fuses := by
    cases hr : routerServe h.1 [lab.cand 6 bytes] u with
    | none => simp [s1, hr]
    | some r => simpa [s1, hr] using fuses_of_routerServe hr
  cases hr : seamServe (seamIx h) [lab.cand 6 bytes] s1 with
  | none => exact h1.trans hu
  | some r => exact (fuses_of_seamServe hr).trans (h1.trans hu)

@[simp] theorem fuses_crossBytes (a b lab bytes s) : (crossBytes a b lab bytes s).fuses = s.fuses := by
  rw [crossBytes_spec]

@[simp] theorem fuses_crossSeams (a b p s) : (crossSeams a b p s).fuses = s.fuses := by
  rw [crossSeams_spec]

@[simp] theorem fuses_enqueuePkt (k vl enters p s) : (enqueuePkt k vl enters p s).fuses = s.fuses := rfl
@[simp] theorem fuses_deliver (vl p s) : (deliver vl p s).fuses = s.fuses := rfl

@[simp] theorem fuses_sendFrom (t p s) : (sendFrom t p s).1.fuses = s.fuses := by
  rw [sendFrom_spec]

@[simp] theorem fuses_sendPkt (p s) : (sendPkt p s).1.fuses = s.fuses := by simp [sendPkt]
@[simp] theorem fuses_respond (q op status payload s) : (respond q op status payload s).fuses = s.fuses := by simp [respond]
@[simp] theorem fuses_respAck (q s) : (respAck q s).fuses = s.fuses := by simp [respAck]
@[simp] theorem fuses_respData (q b s) : (respData q b s).fuses = s.fuses := by simp [respData]
@[simp] theorem fuses_respNack (q st s) : (respNack q st s).fuses = s.fuses := by simp [respNack]

@[simp] theorem fuses_respondRec (t q r s) : (respondRec t q r s).fuses = s.fuses := by
  rw [(respondRec_spec t q r s).1]

theorem issueCarries_issueRequest (t who p s) : IssueCarries s.fuses (issueRequest t who p s) := by
  unfold issueRequest
  grind [IssueCarries, !fuses_crossSeams, !fuses_deliver, !fuses_enqueuePkt]

theorem issueAllCarries_issueAll (t who l s) : IssueAllCarries s.fuses (issueAll t who l s) := by
  induction l generalizing s with
  | nil => rfl
  | cons a l ih =>
    unfold issueAll
    grind [IssueAllCarries, IssueCarries, !issueCarries_issueRequest]

@[simp] theorem fuses_issueMgmt (port p s) : (issueMgmt port p s).fuses = s.fuses := by
  unfold issueMgmt
  dsimp only
  (repeat' split) <;> simp

@[simp] theorem fuses_killRequests (t who p task s) : (killRequests t who p task s).fuses = s.fuses := rfl

/-! #### GroupBase -/

@[simp] theorem fuses_finish (i f s) : (finish i f s).fuses = s.fuses := rfl
@[simp] theorem fuses_holdGroup (i h s) : (holdGroup i h s).fuses = s.fuses := rfl
@[simp] theorem fuses_stallGroup (i s) : (stallGroup i s).fuses = s.fuses := rfl

theorem fuses_retryOr {run : State → State} (hrun : ∀ u, (run u).fuses = u.fuses) (i resetting s) : (retryOr i resetting run s).fuses = s.fuses := by
  unfold retryOr
  grind [!modGrp_fuses]

@[simp] theorem fuses_noteStoreErr (i va s) : (noteStoreErr i va s).fuses = s.fuses := rfl
@[simp] theorem fuses_acquire (site scope s) : (acquire site scope s).fuses = s.fuses := by simp [acquire]

@[simp] theorem fuses_faultMessage (t reason exc s) : (faultMessage t reason exc s).fuses = s.fuses := by
  unfold faultMessage
  split <;> simp

@[simp] theorem fuses_groupHalt (i code lane addr s) : (groupHalt i code lane addr s).fuses = s.fuses := by simp [groupHalt]
@[simp] theorem fuses_groupPark (i lane addr s) : (groupPark i lane addr s).fuses = s.fuses := rfl
@[simp] theorem fuses_storeHalt (i w addr s) : (storeHalt i w addr s).fuses = s.fuses := by simp [storeHalt]

@[simp] theorem fuses_tryRelease (site slot s) : (tryRelease site slot s).fuses = s.fuses := by
  unfold tryRelease
  dsimp only
  (repeat' split) <;> simp

theorem fuses_withRelease {run : State → State} (hrun : ∀ u, (run u).fuses = u.fuses) (site slot scope s) :
    (withRelease site slot scope run s).fuses = s.fuses := by
  unfold withRelease
  grind [!fuses_storeHalt, !fuses_holdGroup]

/-! #### Queues -/

@[simp] theorem fuses_errorTo (who addr s) : (errorTo who addr s).fuses = s.fuses := by
  unfold errorTo
  split <;> simp

@[simp] theorem fuses_nackTo (who st s) : (nackTo who st s).fuses = s.fuses := by
  unfold nackTo
  split <;> simp

@[simp] theorem fuses_groupWaitEnd (site slot counter sat own met s) : (groupWaitEnd site slot counter sat own met s).fuses = s.fuses := by
  unfold groupWaitEnd
  dsimp only
  (repeat' split) <;> simp

@[simp] theorem fuses_answerWait (o w counter sat met s) : (answerWait o w counter sat met s).fuses = s.fuses := by
  unfold answerWait
  (repeat' split) <;> simp

@[simp] theorem fuses_synFire (o s) : (synFire o s).fuses = s.fuses := by simp [synFire]

@[simp] theorem fuses_releaseWaiters (ix o sat s) : (releaseWaiters ix o sat s).fuses = s.fuses := by
  unfold releaseWaiters
  dsimp only
  (repeat' split) <;> simp

theorem synCarries_synApply (o src op f arm s) : SynCarries s.fuses (synApply o src op f arm s) := by
  unfold synApply
  grind [SynCarries, !fuses_releaseWaiters, !modSyn_fuses]

theorem synCarries_synSignal (o src v s) : SynCarries s.fuses (synSignal o src v s) := synCarries_synApply ..
theorem synCarries_synTest (o src s) : SynCarries s.fuses (synTest o src s) := synCarries_synApply ..
theorem synCarries_synReset (o src s) : SynCarries s.fuses (synReset o src s) := synCarries_synApply ..
theorem synCarries_synArm (o src th s) : SynCarries s.fuses (synArm o src th s) := synCarries_synApply ..

theorem waitCarries_synWait (o who th us pkt s) : WaitCarries s.fuses (synWait o who th us pkt s) := by
  unfold synWait
  grind [WaitCarries, SynCarries, !synCarries_synApply, !modSyn_fuses]

@[simp] theorem fuses_holdWait (who o th us since s) : (holdWait who o th us since s).fuses = s.fuses := rfl

@[simp] theorem fuses_arriveAgain (h s) : (arriveAgain h s).fuses = s.fuses := by
  have hwait := waitCarries_synWait h.obj h.who h.threshold h.us none s
  unfold arriveAgain
  dsimp only
  split
  · next heq => simpa [heq, WaitCarries] using hwait
  · next heq => simpa [heq, WaitCarries] using hwait
  · exact fuses_holdWait ..
  · exact fuses_errorTo ..
  · split
    · exact fuses_holdWait ..
    · split
      · exact fuses_errorTo ..
      · exact fuses_holdWait ..

@[simp] theorem fuses_arriveTick (p s) : (arriveTick p s).fuses = s.fuses := by simp [arriveTick]

@[simp] theorem fuses_synRefused (who o off resetting s) : (synRefused who o off resetting s).fuses = s.fuses := by
  unfold synRefused
  (repeat' split) <;> simp

@[simp] theorem keepsFuses_execSyncSignal (who o val s) : KeepsFuses s (execSyncSignal who o val s) := by
  unfold execSyncSignal
  grind [SynCarries, !synCarries_synSignal, keepsFuses_ok, !fuses_synRefused]

@[simp] theorem keepsFuses_execSyncWait (who o threshold timeout s) : KeepsFuses s (execSyncWait who o threshold timeout s) := by
  unfold execSyncWait
  grind [WaitCarries, !waitCarries_synWait, keepsFuses_ok, !send_fuses, !fuses_nackTo, !fuses_holdWait, !fuses_synRefused]

@[simp] theorem keepsFuses_execSyncTest (who o s) : KeepsFuses s (execSyncTest who o s) := by
  unfold execSyncTest
  grind [SynCarries, !synCarries_synTest, keepsFuses_ok, !send_fuses, !fuses_synRefused]

@[simp] theorem keepsFuses_execSyncReset (who o s) : KeepsFuses s (execSyncReset who o s) := by
  unfold execSyncReset
  grind [SynCarries, !synCarries_synReset, keepsFuses_ok, !fuses_synRefused]

@[simp] theorem keepsFuses_execSyncArm (who o threshold s) : KeepsFuses s (execSyncArm who o threshold s) := by
  unfold execSyncArm
  grind [SynCarries, !synCarries_synArm, keepsFuses_ok, !fuses_synRefused]

@[simp] theorem keepsFuses_execSyncWaitTimeout (o who s) : KeepsFuses s (execSyncWaitTimeout o who s) := by
  unfold execSyncWaitTimeout
  (repeat' split) <;> simp

@[simp] theorem fuses_dropWaiters (ix p s) : (dropWaiters ix p s).fuses = s.fuses := rfl

@[simp] theorem fuses_failWaiter (o w s) : (failWaiter o w s).fuses = s.fuses := by
  unfold failWaiter
  (repeat' split) <;> simp

@[simp] theorem keepsFuses_execSyncObjectFail (o s) : KeepsFuses s (execSyncObjectFail o s) := by
  unfold execSyncObjectFail
  dsimp only
  (repeat' split) <;> simp

@[simp] theorem fuses_ringRead (at_ par s) : (ringRead at_ par s).1.fuses = s.fuses := by simp [ringRead]

@[simp] theorem fuses_wordRead (x w s) : (wordRead x w s).1.fuses = s.fuses := by
  unfold wordRead
  split <;> simp

@[simp] theorem fuses_noticeSignal (q t s) : (noticeSignal q t s).fuses = s.fuses := by
  unfold noticeSignal
  split
  · next h => exact fuses_of_synDone (synCarries_synSignal ..) h
  · rfl
  · split <;> rfl

@[simp] theorem fuses_noticeTick (s) : (noticeTick s).fuses = s.fuses := by simp [noticeTick]
@[simp] theorem fuses_queNotice (q s) : (queNotice q s).fuses = s.fuses := by simp [queNotice]
@[simp] theorem fuses_pushWord (q w par last s) : (pushWord q w par last s).fuses = s.fuses := by simp [pushWord]
@[simp] theorem fuses_queCommit (q ws s) : (queCommit q ws s).fuses = s.fuses := by simp [queCommit]

theorem putCarries_putWord (who q word bad close dest s label) : PutCarries s.fuses (putWord who q word bad close dest s label) := by
  unfold putWord
  grind [PutCarries, IssueCarries, !issueCarries_issueRequest, !modPart_fuses, !modGrp_fuses, !modQue_fuses, !fuses_queCommit]

@[simp] theorem fuses_hostRefuse (q reason close s) : (hostRefuse q reason close s).fuses = s.fuses := by simp [hostRefuse]

@[simp] theorem fuses_hostPut (q word bad close s) : (hostPut q word bad close s).fuses = s.fuses := by
  unfold hostPut
  grind [PutCarries, !putCarries_putWord, !fuses_hostRefuse, !fuses_hostBusError]

@[simp] theorem fuses_holdWord (who q word bad close dest s task label elem) :
    (holdWord who q word bad close dest s task label elem).fuses = s.fuses := rfl

theorem putCarries_putNew (who q word bad close dest s label) : PutCarries s.fuses (putNew who q word bad close dest s label) := by
  unfold putNew
  split
  · trivial
  · exact putCarries_putWord ..

@[simp] theorem fuses_agentPut (who q word bad close s) : (agentPut who q word bad close s).fuses = s.fuses := by
  unfold agentPut
  grind [!fuses_hostPut, PutCarries, !putCarries_putNew, !fuses_errorTo, !fuses_nackTo, !fuses_holdWord]

@[simp] theorem keepsFuses_execQueueAppend (who q word bad s) : KeepsFuses s (execQueueAppend who q word bad s) := by simp [execQueueAppend]
@[simp] theorem keepsFuses_execQueueClose (who q word bad s) : KeepsFuses s (execQueueClose who q word bad s) := by simp [execQueueClose]
@[simp] theorem fuses_lostReply (p s) : (lostReply p s).fuses = s.fuses := rfl

@[simp] theorem fuses_releaseTask (r voided s) : (releaseTask r voided s).fuses = s.fuses := by
  unfold releaseTask
  split <;> simp

@[simp] theorem fuses_countLost (s) : (countLost s).fuses = s.fuses := rfl

@[simp] theorem fuses_endPosting (h s) : (endPosting h s).fuses = s.fuses := by
  unfold endPosting
  (repeat' split) <;> simp

@[simp] theorem fuses_endHold (h s) : (endHold h s).fuses = s.fuses := by
  unfold endHold
  dsimp only
  (repeat' split) <;> simp

@[simp] theorem fuses_failHold (h s) : (failHold h s).fuses = s.fuses := by
  unfold failHold
  generalize h.who = who
  cases who with
  | group site slot => rw [fuses_endHold, fuses_noteStoreErr]
  | dma ch => rfl
  | pc t => rfl
  | mgmt =>
    dsimp only
    split
    · rw [fuses_countLost]
    · rw [fuses_errorTo]
  | _ => rw [fuses_errorTo]

@[simp] theorem keepsFuses_execQueueSpaceRelease (p who q s) : KeepsFuses s (execQueueSpaceRelease p who q s) := by
  unfold execQueueSpaceRelease
  split
  · simp
  · next h _ =>
    dsimp only
    split
    · simp
    · next tok _ =>
      have hput := putCarries_putWord h.who h.q (postedWord s h) h.bad h.close h.dest
        (s.modQue h.q fun x => { x with token := tok }) h.label
      split
      · next heq => simpa [heq, PutCarries] using hput
      · next heq => simpa [heq, PutCarries] using hput
      · next heq => simpa [heq, PutCarries] using hput
      · split <;> simp
      · simp

@[simp] theorem keepsFuses_execPacketTimeout (p who q s) : KeepsFuses s (execPacketTimeout p who q s) := by
  unfold execPacketTimeout
  dsimp only
  (repeat' split) <;> simp

@[simp] theorem fuses_takeWord (q s) : (takeWord q s).1.fuses = s.fuses := by
  unfold takeWord
  dsimp only
  (repeat' split) <;> simp

@[simp] theorem keepsFuses_execQueueTake (who q s) : KeepsFuses s (execQueueTake who q s) := by
  unfold execQueueTake
  dsimp only
  (repeat' split) <;> simp

@[simp] theorem fuses_queClear (who q val s) : (queClear who q val s).fuses = s.fuses := by simp [queClear]

@[simp] theorem keepsFuses_execQueueClear (who q val s) : KeepsFuses s (execQueueClear who q val s) := by
  unfold execQueueClear
  (repeat' split) <;> simp

@[simp] theorem fuses_discardOpen (p s) : (discardOpen p s).fuses = s.fuses := by simp [discardOpen]

/-! #### Phys -/

@[simp] theorem fuses_moveBytes (who pa n back lab s) : (moveBytes who pa n back lab s).fuses = s.fuses := by
  unfold moveBytes
  split <;> simp

@[simp] theorem fuses_physRead (who pa len lab s0) : (physRead who pa len lab s0).1.fuses = s0.fuses := by
  unfold physRead
  grind -lia -linarith -ring [SynCarries, !synCarries_synTest, !fuses_moveBytes, !fuses_memRead, !fuses_takeWord]

@[simp] theorem fuses_synWritten {s r} (h : SynCarries s.fuses r) : (synWritten s r).1.fuses = s.fuses := by
  cases r with
  | done => exact h
  | bus => rfl
  | resetting => rfl

@[simp] theorem fuses_physWrite (who pa data lab s0) : (physWrite who pa data lab s0).1.fuses = s0.fuses := by
  unfold physWrite
  grind [!fuses_moveBytes, !fuses_hostPut, PutCarries, !putCarries_putNew, !fuses_queClear, !fuses_synWritten, SynCarries,
    !synCarries_synSignal, !synCarries_synArm, !synCarries_synReset, !fuses_memWrite]

@[simp] theorem fuses_physOp (who pa lab op s0) : (physOp who pa lab op s0).1.fuses = s0.fuses := by
  unfold physOp
  split <;> simp

@[simp] theorem fuses_probeRead (pa len lab s) : (probeRead pa len lab s).fuses = s.fuses := by
  unfold probeRead
  split <;> simp

@[simp] theorem fuses_probeWrite (pa len lab s) : (probeWrite pa len lab s).fuses = s.fuses := by simp [probeWrite]

/-! #### Translate -/

@[simp] theorem fuses_readEntry (table ix err s) : (readEntry table ix err s).1.fuses = s.fuses := by
  unfold readEntry
  split <;> simp

@[simp] theorem fuses_walkLevel (table level va err s) : (walkLevel table level va err s).1.fuses = s.fuses := by
  unfold walkLevel
  dsimp only
  (repeat' split) <;> simp

@[simp] theorem fuses_walkDown (fuel ctx va table level s) : (walkDown fuel ctx va table level s).1.fuses = s.fuses := by
  induction fuel generalizing table level s with
  | zero => rfl
  | succ fuel ih =>
    unfold walkDown
    grind [!fuses_walkLevel]

@[simp] theorem fuses_translate (site ctx va acc s) : (Machine.translate site ctx va acc s).1.fuses = s.fuses := by
  unfold Machine.translate
  dsimp only
  split
  · rfl
  · rw [modSite_fuses, fuses_walkDown]

@[simp] theorem fuses_translateColl (port ctx va acc s) : (translateColl port ctx va acc s).1.fuses = s.fuses := by
  unfold translateColl
  dsimp only
  (repeat' split) <;> simp

@[simp] theorem fuses_postFault (p who rec t s) : (postFault p who rec t s).fuses = s.fuses := by
  unfold postFault
  (repeat' split) <;> simp

@[simp] theorem keepsFuses_execFaultRecordDeliver (p s) : KeepsFuses s (execFaultRecordDeliver p s) := by
  unfold execFaultRecordDeliver
  dsimp only
  (repeat' split) <;> simp

@[simp] theorem fuses_countFault (site s) : (countFault site s).fuses = s.fuses := rfl

@[simp] theorem fuses_groupFault (site slot lane va acc cause entry level s) :
    (groupFault site slot lane va acc cause entry level s).fuses = s.fuses := by simp [groupFault]

/-! #### Arrays -/

@[simp] theorem fuses_aryRetry (a s) : (aryRetry a s).1.fuses = s.fuses := by
  unfold aryRetry
  split <;> simp

@[simp] theorem fuses_aryFar (a d dest len s) : (aryFar a d dest len s).1.fuses = s.fuses := by
  unfold aryFar
  grind [IssueCarries, !issueCarries_issueRequest, !modAry_fuses]

@[simp] theorem fuses_aryGet1 (a d va len s) : (aryGet1 a d va len s).1.fuses = s.fuses := by
  unfold aryGet1
  dsimp only
  (repeat' split) <;> simp

@[simp] theorem fuses_aryGetFrom (fuel a d va len s) : (aryGetFrom fuel a d va len s).1.fuses = s.fuses := by
  induction fuel generalizing va len s with
  | zero => rfl
  | succ fuel ih =>
    unfold aryGetFrom
    grind [!fuses_aryGet1]

@[simp] theorem fuses_aryGet (a d va len s) : (aryGet a d va len s).1.fuses = s.fuses := by simp [aryGet]

theorem fuses_gather {α : Type} {l : List (State → State × Got α)} (hl : ∀ f ∈ l, ∀ u, (f u).1.fuses = u.fuses) (s) :
    (gather l s).1.fuses = s.fuses := by
  induction l generalizing s with
  | nil => rfl
  | cons f r ih =>
    have hf := hl f List.mem_cons_self s
    have hr := ih fun g hg => hl g (List.mem_cons_of_mem f hg)
    unfold gather
    grind

@[simp] theorem fuses_loadRow (a d i ra s) : (loadRow a d i ra s).1.fuses = s.fuses := by
  unfold loadRow
  grind [fuses_gather, !fuses_aryGet]

@[simp] theorem fuses_loadScales (a d s) : (loadScales a d s).1.fuses = s.fuses := by
  unfold loadScales
  grind [fuses_gather, !fuses_aryGet]

@[simp] theorem fuses_loadTile (a d s) : (loadTile a d s).1.fuses = s.fuses := by
  have hrows (l : List (Nat × Nat)) : (gather (l.map fun e => loadRow a d e.1 e.2) s).1.fuses = s.fuses := by
    refine fuses_gather (fun f hf u => ?_) s
    obtain ⟨e, -, rfl⟩ := List.mem_map.mp hf
    exact fuses_loadRow ..
  unfold loadTile
  grind [!fuses_loadScales]

@[simp] theorem fuses_feedValue (a d l i n s) : (feedValue a d l i n s).1.fuses = s.fuses := by
  unfold feedValue
  dsimp only
  (repeat' split) <;> simp

@[simp] theorem fuses_feedValues (a d need s) : (feedValues a d need s).1.fuses = s.fuses := by
  unfold feedValues
  grind [fuses_gather, !fuses_feedValue]

@[simp] theorem fuses_feedPass (a r s) : (feedPass a r s).1.fuses = s.fuses := by simp [feedPass]

@[simp] theorem fuses_xlatePieces (a d l s) : (xlatePieces a d l s).1.fuses = s.fuses := by
  induction l generalizing s with
  | nil => rfl
  | cons p r ih =>
    unfold xlatePieces
    grind [!fuses_translate]

@[simp] theorem fuses_readTails (a d l s) : (readTails a d l s).1.fuses = s.fuses := by
  induction l generalizing s with
  | nil => rfl
  | cons t r ih =>
    unfold readTails
    grind [!fuses_aryFar, !fuses_physRead, !fuses_aryRetry]

@[simp] theorem fuses_writeTargets (a d ts s) : (writeTargets a d ts s).1.fuses = s.fuses := by simp [writeTargets]

@[simp] theorem fuses_writeBlock (a d b cols s) : (writeBlock a d b cols s).1.fuses = s.fuses := by
  unfold writeBlock
  dsimp only
  split
  · next heq1 =>
    have h1 := fuses_of_fst (fuses_xlatePieces ..) heq1
    split
    · split
      all_goals
        next heq => exact (fuses_of_fst (fuses_aryRetry ..) heq).trans h1
    · split
      · next heq2 =>
        have h2 := (fuses_of_fst (fuses_readTails ..) heq2).trans h1
        split
        · exact h2
        · next heq3 =>
          have h3 := (fuses_of_allSent (issueAllCarries_issueAll ..) heq3).trans h2
          split
          · simp [h2]
          · simp [h3]
      all_goals
        next heq2 => exact (fuses_of_fst (fuses_readTails ..) heq2).trans h1
  all_goals
    next heq1 => exact fuses_of_fst (fuses_xlatePieces ..) heq1

/-! #### GroupIssue -/

@[simp] theorem fuses_fetchWord (site k s) : (fetchWord site k s).1.fuses = s.fuses := by
  unfold fetchWord
  dsimp only
  (repeat' split) <;> simp

@[simp] theorem fuses_issueOne (site k u w before s) : (issueOne site k u w before s).1.fuses = s.fuses := rfl

@[simp] theorem fuses_issueLoop (ready fuel site cand used banks n s) : (issueLoop ready fuel site cand used banks n s).1.fuses = s.fuses := by
  induction fuel generalizing cand used banks n s with
  | zero => rfl
  | succ fuel ih =>
    unfold issueLoop
    grind [!fuses_fetchWord, !fuses_stallGroup, !fuses_issueOne, !modSite_fuses]

@[simp] theorem keepsFuses_execInstructionIssue (site ready s) : KeepsFuses s (execInstructionIssue site ready s) := by
  unfold execInstructionIssue
  dsimp only
  (repeat' split) <;> simp

@[simp] theorem keepsFuses_execGroupActivate (site ready s) : KeepsFuses s (execGroupActivate site ready s) := by
  unfold execGroupActivate
  dsimp only
  (repeat' split) <;> simp

@[simp] theorem keepsFuses_execActiveSlotRelease (site ready s) : KeepsFuses s (execActiveSlotRelease site ready s) := by
  unfold execActiveSlotRelease
  dsimp only
  (repeat' split) <;> simp

/-! #### GroupExec -/

@[simp] theorem fuses_illegal (i w s) : (illegal i w s).fuses = s.fuses := by simp [illegal]
@[simp] theorem fuses_raise (i code w s) : (raise i code w s).fuses = s.fuses := by simp [raise]
@[simp] theorem fuses_useFree (n s) : (useFree n s).fuses = s.fuses := rfl

@[simp] theorem keepsFuses_execVectorArith (site slot w kind wide s) : KeepsFuses s (execVectorArith site slot w kind wide s) := by
  unfold execVectorArith
  dsimp only
  (repeat' split) <;> simp

@[simp] theorem keepsFuses_execSpecialFunction (site slot op s) : KeepsFuses s (execSpecialFunction site slot op s) := by
  unfold execSpecialFunction
  dsimp only
  (repeat' split) <;> simp

@[simp] theorem keepsFuses_execSpecialRead (site slot w which s) : KeepsFuses s (execSpecialRead site slot w which s) := by
  unfold execSpecialRead
  dsimp only
  (repeat' split) <;> simp

@[simp] theorem keepsFuses_execShfl (site slot w s) : KeepsFuses s (execShfl site slot w s) := by
  unfold execShfl
  dsimp only
  (repeat' split) <;> simp

@[simp] theorem keepsFuses_execVote (site slot w s) : KeepsFuses s (execVote site slot w s) := by
  unfold execVote
  dsimp only
  (repeat' split) <;> simp

@[simp] theorem keepsFuses_execMma (site slot w s) : KeepsFuses s (execMma site slot w s) := by
  unfold execMma
  dsimp only
  (repeat' split) <;> simp

@[simp] theorem keepsFuses_execBranch (site slot w target join cond neg s) : KeepsFuses s (execBranch site slot w target join cond neg s) := by
  unfold execBranch
  dsimp only
  (repeat' split) <;> simp

@[simp] theorem keepsFuses_execIndirectBranch (site slot w join s) : KeepsFuses s (execIndirectBranch site slot w join s) := by
  unfold execIndirectBranch
  dsimp only
  (repeat' split) <;> simp

@[simp] theorem fuses_releaseAlloc (site t s) : (releaseAlloc site t s).fuses = s.fuses := by simp [releaseAlloc]

@[simp] theorem fuses_endGroup (site slot s) : (endGroup site slot s).fuses = s.fuses := by
  unfold endGroup
  dsimp only
  (repeat' split) <;> simp

@[simp] theorem fuses_answered (site slot s) : (answered site slot s).fuses = s.fuses := by simp [answered]

@[simp] theorem keepsFuses_execExit (site slot w s) : KeepsFuses s (execExit site slot w s) := by
  unfold execExit
  dsimp only
  (repeat' split) <;> simp

@[simp] theorem keepsFuses_execTrap (site slot w s) : KeepsFuses s (execTrap site slot w s) := by
  unfold execTrap
  dsimp only
  (repeat' split) <;> simp

@[simp] theorem keepsFuses_execFence (site slot w s) : KeepsFuses s (execFence site slot w s) := by
  unfold execFence
  dsimp only
  (repeat' split) <;> simp

@[simp] theorem fuses_barArrive (site slot bid count t w s) : (barArrive site slot bid count t w s).fuses = s.fuses := by
  unfold barArrive
  dsimp only
  (repeat' split) <;> simp

@[simp] theorem keepsFuses_execBar (site slot w s) : KeepsFuses s (execBar site slot w s) := by
  unfold execBar
  grind [keepsFuses_ok, !fuses_illegal, !fuses_finish, !fuses_barArrive, fuses_withRelease]

@[simp] theorem keepsFuses_execTime (site slot w s) : KeepsFuses s (execTime site slot w s) := by
  unfold execTime
  dsimp only
  (repeat' split) <;> simp

/-! #### ArrayCmds -/

@[simp] theorem fuses_failHead (a code reason exc done s) : (failHead a code reason exc done s).fuses = s.fuses := by simp [failHead]
@[simp] theorem fuses_descErr (a s) : (descErr a s).fuses = s.fuses := by simp [descErr]
@[simp] theorem fuses_busErr (a s) : (busErr a s).fuses = s.fuses := by simp [busErr]
@[simp] theorem fuses_faultStop (a d kind va cause entry level s) : (faultStop a d kind va cause entry level s).fuses = s.fuses := by simp [faultStop]
@[simp] theorem fuses_aryEnter (a g w s) : (aryEnter a g w s).fuses = s.fuses := rfl

@[simp] theorem keepsFuses_execApost (site slot w s) : KeepsFuses s (execApost site slot w s) := by
  unfold execApost
  grind [keepsFuses_ok, fuses_withRelease, !fuses_illegal, !fuses_raise, !fuses_finish, !fuses_aryEnter, !fuses_holdGroup]

@[simp] theorem keepsFuses_execApostSlotFree (site slot s) : KeepsFuses s (execApostSlotFree site slot s) := by
  unfold execApostSlotFree
  dsimp only
  (repeat' split) <;> simp

@[simp] theorem fuses_passErr (a i s) : (passErr a i s).fuses = s.fuses := by simp [passErr]

@[simp] theorem fuses_tryLoad (a s) : (tryLoad a s).fuses = s.fuses := by
  unfold tryLoad
  grind [!fuses_loadTile, !modAry_fuses, !fuses_faultStop, !fuses_passErr]

@[simp] theorem keepsFuses_execArrayPass (a s) : KeepsFuses s (execArrayPass a s) := by
  unfold execArrayPass
  dsimp only
  (repeat' split) <;> simp

@[simp] theorem keepsFuses_execArraySync (a s) : KeepsFuses s (execArraySync a s) := by
  unfold execArraySync
  grind [keepsFuses_ok, !fuses_descErr, !modAry_fuses, SynCarries, !synCarries_synSignal]

@[simp] theorem keepsFuses_execAccOut (a s) : KeepsFuses s (execAccOut a s) := by
  unfold execAccOut
  dsimp only
  (repeat' split) <;> simp

@[simp] theorem fuses_freezeFeed (a s) : (freezeFeed a s).fuses = s.fuses := rfl
@[simp] theorem fuses_portStep (a s) : (portStep a s).fuses = s.fuses := rfl
@[simp] theorem fuses_portTake (j use s) : (portTake j use s).fuses = s.fuses := rfl
@[simp] theorem fuses_portHold (j use s) : (portHold j use s).fuses = s.fuses := rfl

@[simp] theorem keepsFuses_execHomePortGuardGrant (site use s) : KeepsFuses s (execHomePortGuardGrant site use s) := by
  unfold execHomePortGuardGrant
  dsimp only
  (repeat' split) <;> simp

@[simp] theorem fuses_feedAll (a l s) : (feedAll a l s).1.fuses = s.fuses := by
  induction l generalizing s with
  | nil => rfl
  | cons p rest ih =>
    unfold feedAll
    grind [!fuses_feedPass]

@[simp] theorem fuses_cellStep (a feed scales short s) : (cellStep a feed scales short s).fuses = s.fuses := by
  unfold cellStep
  grind [!modAry_fuses, !fuses_feedAll, !fuses_freezeFeed, !fuses_passErr, !fuses_faultStop]

@[simp] theorem keepsFuses_execArrayStep (a feed scales s) : KeepsFuses s (execArrayStep a feed scales s) := by
  unfold execArrayStep
  dsimp only
  (repeat' split) <;> simp

@[simp] theorem keepsFuses_execDrainBlockCommit (a s) : KeepsFuses s (execDrainBlockCommit a s) := by
  unfold execDrainBlockCommit
  grind [keepsFuses_ok, !modAry_fuses, !fuses_writeBlock, !fuses_busErr, !fuses_passErr, !fuses_faultStop]

@[simp] theorem fuses_passEnds (a isPass d s) : (passEnds a isPass d s).fuses = s.fuses := by
  unfold passEnds
  grind [!modAry_fuses, !fuses_busErr, SynCarries, !synCarries_synSignal]

@[simp] theorem fuses_completeHead (a s) : (completeHead a s).fuses = s.fuses := by
  unfold completeHead
  dsimp only
  (repeat' split) <;> simp

@[simp] theorem keepsFuses_execArrayPassComplete (a s) : KeepsFuses s (execArrayPassComplete a s) := by
  unfold execArrayPassComplete
  dsimp only
  (repeat' split) <;> simp

@[simp] theorem keepsFuses_execArrayWalkDone (a kind va s) : KeepsFuses s (execArrayWalkDone a kind va s) := by
  unfold execArrayWalkDone
  dsimp only
  (repeat' split) <;> simp

@[simp] theorem keepsFuses_execArrayReadError (a s) : KeepsFuses s (execArrayReadError a s) := by
  unfold execArrayReadError
  dsimp only
  (repeat' split) <;> simp

@[simp] theorem fuses_writeSave (base ps s) : (writeSave base ps s).fuses = s.fuses := by
  unfold writeSave
  split <;> simp

@[simp] theorem fuses_parkArray (a s) : (parkArray a s).fuses = s.fuses := by simp [parkArray]
@[simp] theorem fuses_aryRegErr (r a off s) : (aryRegErr r a off s).fuses = s.fuses := by simp [aryRegErr]

@[simp] theorem fuses_stopArray (a cause s) : (stopArray a cause s).fuses = s.fuses := by
  unfold stopArray
  dsimp only
  (repeat' split) <;> simp

@[simp] theorem fuses_resumeArray (a cause s) : (resumeArray a cause s).fuses = s.fuses := rfl

@[simp] theorem keepsFuses_execArySaveDone (a s) : KeepsFuses s (execArySaveDone a s) := by
  unfold execArySaveDone
  dsimp only
  (repeat' split) <;> simp

@[simp] theorem fuses_clearCause (a cause s) : (clearCause a cause s).fuses = s.fuses := by simp [clearCause]
@[simp] theorem fuses_discardPass (a s) : (discardPass a s).fuses = s.fuses := by simp [discardPass]
@[simp] theorem fuses_flushArray (a s) : (flushArray a s).fuses = s.fuses := rfl
@[simp] theorem fuses_aryCtrl (r a val s) : (aryCtrl r a val s).fuses = s.fuses := by simp [aryCtrl]

@[simp] theorem keepsFuses_execAryStop (r a cause s) : KeepsFuses s (execAryStop r a cause s) := by
  unfold execAryStop
  split <;> simp

@[simp] theorem keepsFuses_execAryResume (r a cause s) : KeepsFuses s (execAryResume r a cause s) := by
  unfold execAryResume
  split <;> simp

@[simp] theorem keepsFuses_execAryDiscard (r a s) : KeepsFuses s (execAryDiscard r a s) := by simp [execAryDiscard]
@[simp] theorem keepsFuses_execAryFlush (r a s) : KeepsFuses s (execAryFlush r a s) := by simp [execAryFlush]
@[simp] theorem keepsFuses_execAryClrHalt (r a s) : KeepsFuses s (execAryClrHalt r a s) := by simp [execAryClrHalt]
@[simp] theorem fuses_restoreFault (a kind va s) : (restoreFault a kind va s).fuses = s.fuses := by simp [restoreFault]

@[simp] theorem fuses_restoreRecord (a d va cause entry level s) :
    (restoreRecord a d va cause entry level s).fuses = s.fuses := by simp [restoreRecord]

@[simp] theorem fuses_restoreStops (a d kind va cause entry level s) :
    (restoreStops a d kind va cause entry level s).fuses = s.fuses := by simp [restoreStops]

@[simp] theorem keepsFuses_execAryRestoreDone (a returned s) : KeepsFuses s (execAryRestoreDone a returned s) := by
  unfold execAryRestoreDone
  extract_lets x
  split
  · simp
  · split
    · next columns _ _ _ _ _ _ =>
      have hcolumns (r : PassRun) (u : State) : (columns r u).fuses = u.fuses := by
        dsimp only [columns]
        split
        all_goals
          next heq => simp [fuses_of_fst (fuses_feedValues ..) heq]
      split
      · simp [hcolumns]
      · split
        all_goals
          next heq => simp [hcolumns, fuses_of_fst (fuses_loadTile ..) heq]
    · simp

@[simp] theorem keepsFuses_execArySaveBaseWrite (r a hi val s) : KeepsFuses s (execArySaveBaseWrite r a hi val s) := by
  unfold execArySaveBaseWrite
  dsimp only
  (repeat' split) <;> simp

@[simp] theorem keepsFuses_execArySrSeedHiWrite (r a val s) : KeepsFuses s (execArySrSeedHiWrite r a val s) := by
  unfold execArySrSeedHiWrite
  split <;> simp

@[simp] theorem fuses_aryAnswer (a tid bs s) : (aryAnswer a tid bs s).fuses = s.fuses := rfl

@[simp] theorem fuses_aryError (a tid s) : (aryError a tid s).fuses = s.fuses := by
  unfold aryError
  dsimp only
  (repeat' split) <;> simp

@[simp] theorem fuses_abortArray (a p s) : (abortArray a p s).fuses = s.fuses := by
  unfold abortArray
  dsimp only
  (repeat' split) <;> simp

/-! #### GroupMem -/

@[simp] theorem fuses_l1Drop (site pa s) : (l1Drop site pa s).fuses = s.fuses := rfl
@[simp] theorem fuses_l1Put (site line data s) : (l1Put site line data s).fuses = s.fuses := rfl

@[simp] theorem fuses_l1Store (site pa bs s) : (l1Store site pa bs s).fuses = s.fuses := by
  unfold l1Store
  split <;> simp

@[simp] theorem fuses_l1Load (who site pa n lab parity s) : (l1Load who site pa n lab parity s).1.fuses = s.fuses := by
  unfold l1Load
  dsimp only
  (repeat' split) <;> simp

@[simp] theorem fuses_xlateLanes (site ctx acc addrs s) : (xlateLanes site ctx acc addrs s).1.fuses = s.fuses := by simp [xlateLanes]

@[simp] theorem fuses_groupRetry (i lane addr posted s) : (groupRetry i lane addr posted s).fuses = s.fuses := by
  unfold groupRetry
  grind [fuses_retryOr, !fuses_finish, !fuses_noteStoreErr, !fuses_groupHalt]

@[simp] theorem fuses_laneHalt (site slot lane va acc e s) : (laneHalt site slot lane va acc e s).fuses = s.fuses := by
  unfold laneHalt
  split <;> simp

@[simp] theorem fuses_loadLocal (who site dst n lab parity l s) : (loadLocal who site dst n lab parity l s).1.fuses = s.fuses := by
  refine fuses_foldl_pair fun a e x ha => ?_
  dsimp only
  split <;> simpa using ha

theorem fuses_atPort {run : State → State} (hrun : ∀ u, (run u).fuses = u.fuses) (i j use crosses s) :
    (atPort i j use crosses run s).fuses = s.fuses := by
  unfold atPort
  grind [!fuses_portTake, !fuses_portHold, !fuses_stallGroup]

@[simp] theorem fuses_groupLoad (site slot w log2 parity ls s) : (groupLoad site slot w log2 parity ls s).fuses = s.fuses := by
  unfold groupLoad
  grind [!fuses_loadLocal, IssueAllCarries, !issueAllCarries_issueAll, !fuses_stallGroup, !fuses_laneHalt, !fuses_useFree, !fuses_finish,
    !modGrp_fuses]

@[simp] theorem fuses_groupStore (site slot w log2 ls s) : (groupStore site slot w log2 ls s).fuses = s.fuses := by
  unfold groupStore
  extract_lets i g n who far near pk
  split
  · simp
  · next s1 tids bad h =>
    have h1 : s1.fuses = s.fuses := fuses_of_allSent (issueAllCarries_issueAll ..) h
    extract_lets s2 s3
    have h2 : Carries s.fuses s2 := Carries.forL h1 fun lane u hu => hu.step (fuses_noteStoreErr ..)
    have h3 : Carries s.fuses s3 := h2.forL fun e u hu => by
      extract_lets bs
      split
      next s4 err hw =>
      have h4 : Carries s.fuses s4 := hu.step (fuses_of_fst (fuses_physWrite ..) hw)
      split
      · exact h4.step (fuses_l1Store ..)
      · exact h4.step (fuses_noteStoreErr ..)
    exact (fuses_finish ..).trans h3

@[simp] theorem keepsFuses_execContextLoadStore (site slot w form parity s) : KeepsFuses s (execContextLoadStore site slot w form parity s) := by
  unfold execContextLoadStore
  split
  · simp
  · extract_lets i g n k
    split
    · simp
    · split
      · simp
      · generalize [iSa w + 1] ++ _ = regs
        split
        · simp
        · generalize (if form.discard = true then (none : Option (Nat × BitVec 48)) else _) = odd
          split
          · simp
          · split
            next s1 ls hx =>
            have h1 : s1.fuses = s.fuses := fuses_of_fst (fuses_xlateLanes ..) hx
            split
            · simp [h1]
            · refine (keepsFuses_ok ..).2 ((fuses_retryOr (fun u => ?_) ..).trans h1)
              split
              · exact (fuses_finish ..).trans (fuses_forL fun e v x hv => hv.step (fuses_deadLine ..))
              · split
                · exact fuses_stallGroup ..
                · split
                  · exact fuses_atPort (fun v => fuses_groupStore ..) ..
                  · exact fuses_atPort (fun v => fuses_groupLoad ..) ..

@[simp] theorem fuses_slmWrite (site a bs s) : (slmWrite site a bs s).fuses = s.fuses := rfl
@[simp] theorem fuses_slmStep (site words s) : (slmStep site words s).fuses = s.fuses := rfl

@[simp] theorem keepsFuses_execSharedLoadStore (site slot w store log2 s) : KeepsFuses s (execSharedLoadStore site slot w store log2 s) := by
  unfold execSharedLoadStore
  dsimp only
  (repeat' split) <;> simp

@[simp] theorem fuses_atomShared (site base w g l s) : (atomShared site base w g l s).1.fuses = s.fuses := by simp [atomShared]

@[simp] theorem fuses_atomLocal (who site lab w g l s) : (atomLocal who site lab w g l s).1.fuses = s.fuses := by
  refine fuses_foldl_pair fun a e x ha => ha.step (fuses_foldl_pair fun b u y hb => ?_)
  dsimp only
  split <;> simpa using hb

@[simp] theorem fuses_atomAcquire (site w s) : (atomAcquire site w s).fuses = s.fuses := by simp [atomAcquire]
@[simp] theorem fuses_atomNotes (n lab l s) : (atomNotes n lab l s).fuses = s.fuses := by simp [atomNotes]

@[simp] theorem fuses_sendDue (site slot w s) : (sendDue site slot w s).fuses = s.fuses := by
  refine fuses_forL fun l u x hu => ?_
  extract_lets
  split
  · exact hu
  · exact hu
  · next h =>
    have h1 := fuses_of_issueSent (issueCarries_issueRequest ..) h
    exact (hu.step h1).step (modGrp_fuses ..)

@[simp] theorem fuses_atomContext (site slot w ls s) : (atomContext site slot w ls s).fuses = s.fuses := by
  unfold atomContext
  grind [IssueAllCarries, !issueAllCarries_issueAll, !fuses_stallGroup, !fuses_atomLocal, !fuses_laneHalt, !fuses_atomNotes, !modGrp_fuses,
    !fuses_atomAcquire, !fuses_finish]

@[simp] theorem fuses_atomRun (site slot w s) : (atomRun site slot w s).fuses = s.fuses := by
  unfold atomRun
  extract_lets i g n m offs addrs
  split
  · simp
  · split
    · split
      next base size _ =>
      split
      · simp
      · split
        · simp
        · simp
    · split
      · simp
      · split
        next s1 ls hx =>
        have h1 : s1.fuses = s.fuses := fuses_of_fst (fuses_xlateLanes ..) hx
        split
        · simp [h1]
        · refine (fuses_retryOr (fun u => ?_) ..).trans h1
          split
          · exact fuses_stallGroup ..
          · exact fuses_atPort (fun v => fuses_atomContext ..) ..

@[simp] theorem fuses_groupSettle (site slot w s) : (groupSettle site slot w s).fuses = s.fuses := by
  unfold groupSettle
  dsimp only
  (repeat' split) <;> simp

@[simp] theorem fuses_atomWith (site slot w s) : (atomWith site slot w s).fuses = s.fuses := by
  unfold atomWith
  split
  · simp
  · split
    · exact fuses_withRelease (fun u => fuses_atomRun ..) ..
    · exact fuses_atomRun ..

@[simp] theorem keepsFuses_execAtom (site slot w s) : KeepsFuses s (execAtom site slot w s) := by
  unfold execAtom
  split <;> simp

@[simp] theorem keepsFuses_execRed (site slot w s) : KeepsFuses s (execRed site slot w s) := by
  unfold execRed
  split <;> simp

@[simp] theorem keepsFuses_execAtomSerial (site slot w s) : KeepsFuses s (execAtomSerial site slot w s) := by
  unfold execAtomSerial
  split <;> simp

@[simp] theorem fuses_lateAt (j s) : (lateAt j s).fuses = s.fuses := by simp [lateAt]

@[simp] theorem keepsFuses_execLoadReply (site slot ix s) : KeepsFuses s (execLoadReply site slot ix s) := by
  unfold execLoadReply
  dsimp only
  (repeat' split) <;> simp

@[simp] theorem keepsFuses_execStoreAcknowledge (site slot err s) : KeepsFuses s (execStoreAcknowledge site slot err s) := by
  unfold execStoreAcknowledge
  dsimp only
  (repeat' split) <;> simp

@[simp] theorem keepsFuses_execSlmDmaGuardGrant (site bank needed s) :
    KeepsFuses s (execSlmDmaGuardGrant site bank needed s) := by simp [execSlmDmaGuardGrant]

/-! #### GroupSync -/

@[simp] theorem fuses_windowMove (site slot t s) : (windowMove site slot t s).fuses = s.fuses := by
  unfold windowMove
  split <;> simp

theorem fuses_withWindow {run : WinTarget → State → State} (hrun : ∀ t u, (run t u).fuses = u.fuses) (site slot w lane acc isQueue s) :
    (withWindow site slot w lane acc isQueue run s).fuses = s.fuses := by
  unfold withWindow
  grind [!fuses_translate, !fuses_groupFault, !fuses_groupHalt, !fuses_windowMove]

@[simp] theorem fuses_qputRun (site slot w s) : (qputRun site slot w s).fuses = s.fuses := by
  unfold qputRun
  grind [fuses_withWindow, PutCarries, !putCarries_putNew, !fuses_finish, !fuses_noteStoreErr, !fuses_holdGroup, !fuses_holdWord]

@[simp] theorem keepsFuses_execQput (site slot w s) : KeepsFuses s (execQput site slot w s) := by
  unfold execQput
  grind [keepsFuses_ok, fuses_withRelease, !fuses_illegal, !fuses_raise, !fuses_qputRun]

@[simp] theorem keepsFuses_execQget (site slot w s) : KeepsFuses s (execQget site slot w s) := by
  unfold execQget
  grind [keepsFuses_ok, !fuses_illegal, !fuses_raise, fuses_withWindow, !fuses_groupHalt, !fuses_groupRetry, !fuses_takeWord, !fuses_finish]

@[simp] theorem fuses_remoteSync (site slot w dest arg aux val posted hold s) :
    (remoteSync site slot w dest arg aux val posted hold s).fuses = s.fuses := by
  unfold remoteSync
  grind [!fuses_stallGroup, IssueCarries, !issueCarries_issueRequest, !fuses_finish, !fuses_noteStoreErr, !fuses_groupHalt, !modGrp_fuses,
    !fuses_holdGroup]

@[simp] theorem fuses_sigRun (site slot w s) : (sigRun site slot w s).fuses = s.fuses := by
  unfold sigRun
  grind [fuses_withWindow, SynCarries, !synCarries_synSignal, !synCarries_synReset, !fuses_finish, !fuses_groupHalt, !fuses_noteStoreErr,
    !fuses_groupRetry, !fuses_remoteSync]

@[simp] theorem fuses_sigInstr (site slot w s) : (sigInstr site slot w s).fuses = s.fuses := by
  unfold sigInstr
  grind [fuses_withRelease, !fuses_illegal, !fuses_finish, !fuses_sigRun]

@[simp] theorem keepsFuses_execSsig (site slot w s) : KeepsFuses s (execSsig site slot w s) := by
  unfold execSsig
  split <;> simp

@[simp] theorem keepsFuses_execSrst (site slot w s) : KeepsFuses s (execSrst site slot w s) := by
  unfold execSrst
  split <;> simp

@[simp] theorem keepsFuses_execSwait (site slot w s) : KeepsFuses s (execSwait site slot w s) := by
  unfold execSwait
  grind [keepsFuses_ok, !fuses_illegal, !fuses_finish, fuses_withWindow, WaitCarries, !waitCarries_synWait, !fuses_groupWaitEnd,
    !fuses_holdGroup, !fuses_groupHalt, fuses_retryOr, !fuses_remoteSync]

@[simp] theorem keepsFuses_execStest (site slot w s) : KeepsFuses s (execStest site slot w s) := by
  unfold execStest
  grind [keepsFuses_ok, !fuses_illegal, !fuses_finish, fuses_withWindow, SynCarries, !synCarries_synTest, !fuses_acquire, !fuses_groupHalt,
    !fuses_groupRetry, !fuses_remoteSync]

@[simp] theorem fuses_groupData (site slot tid bs s) : (groupData site slot tid bs s).fuses = s.fuses := by
  unfold groupData
  dsimp only
  (repeat' split) <;> simp

@[simp] theorem fuses_groupError (site slot tid s) : (groupError site slot tid s).fuses = s.fuses := by
  unfold groupError
  dsimp only
  (repeat' split) <;> simp

/-! #### LoessCmds -/

theorem keepsFuses_sliceAccess {f : State → State} (hf : ∀ u, (f u).fuses = u.fuses) (j s) : KeepsFuses s (sliceAccess j s f) := by
  unfold sliceAccess
  split
  · simp
  · simp [hf]

@[simp] theorem keepsFuses_execSliceRead (slice x len who errs s) : KeepsFuses s (execSliceRead slice x len who errs s) := by
  unfold execSliceRead
  grind [keepsFuses_ok, !send_fuses, keepsFuses_sliceAccess, !fuses_scratchRead, !fuses_strikeSlice, !fuses_reply]

@[simp] theorem keepsFuses_execSliceWrite (slice x data who s) : KeepsFuses s (execSliceWrite slice x data who s) := by
  unfold execSliceWrite
  grind [keepsFuses_ok, !send_fuses, keepsFuses_sliceAccess, !fuses_scratchWrite, !fuses_replyWrite]

@[simp] theorem fuses_putInput (j jn rq s) : (putInput j jn rq s).fuses = s.fuses := rfl
@[simp] theorem fuses_waitInput (j jn rq s) : (waitInput j jn rq s).fuses = s.fuses := rfl
@[simp] theorem fuses_joinMiss (j jn rq fresh s) : (joinMiss j jn rq fresh s).fuses = s.fuses := by simp [joinMiss]

@[simp] theorem fuses_slotHeld (j l w s) : (slotHeld j l w s).fuses = s.fuses := by
  unfold slotHeld
  split <;> simp

@[simp] theorem fuses_queueOp (j l t p later s) : (queueOp j l t p later s).fuses = s.fuses := by simp [queueOp]

@[simp] theorem fuses_cacheRequest (j jn rq later fresh s) : (cacheRequest j jn rq later fresh s).fuses = s.fuses := by
  unfold cacheRequest
  dsimp only
  (repeat' split) <;> simp

theorem keepsFuses_atHome {f : Nat → State → State} (hf : ∀ j u, (f j u).fuses = u.fuses) (addr who s) : KeepsFuses s (atHome addr who f s) := by
  unfold atHome
  split
  · simp
  · split
    · simp
    · split
      · simp
      · exact keepsFuses_sliceAccess (hf _) _ s

@[simp] theorem keepsFuses_execCacheRead (addr len rq errs s) : KeepsFuses s (execCacheRead addr len rq errs s) := by
  unfold execCacheRead
  grind [keepsFuses_ok, keepsFuses_atHome, !fuses_cacheRequest, !fuses_strikeSlice]

@[simp] theorem keepsFuses_execCacheWrite (addr data rq s) : KeepsFuses s (execCacheWrite addr data rq s) := by
  unfold execCacheWrite
  grind [keepsFuses_ok, keepsFuses_atHome, !fuses_cacheRequest]

@[simp] theorem keepsFuses_execHomeOperation (addr ask rq s) : KeepsFuses s (execHomeOperation addr ask rq s) := by
  unfold execHomeOperation
  grind [keepsFuses_atHome, !fuses_cacheRequest, keepsFuses_ok, !send_fuses, keepsFuses_sliceAccess, !fuses_scratchOp, !fuses_replyOp]

@[simp] theorem fuses_fillReturn (j l s) : (fillReturn j l s).fuses = s.fuses := by
  unfold fillReturn
  dsimp only
  (repeat' split) <;> simp

@[simp] theorem keepsFuses_execMarlFillReturn (slice line s) : KeepsFuses s (execMarlFillReturn slice line s) := by
  unfold execMarlFillReturn
  grind [keepsFuses_sliceAccess, !fuses_fillReturn]

@[simp] theorem keepsFuses_execWritebackAck (slice line s) : KeepsFuses s (execWritebackAck slice line s) := by
  unfold execWritebackAck
  grind [keepsFuses_ok, → fuses_of_marlPick, !fuses_wbPut]

@[simp] theorem keepsFuses_execSliceInputRelease (slice s) : KeepsFuses s (execSliceInputRelease slice s) := by
  unfold execSliceInputRelease
  grind [keepsFuses_ok, keepsFuses_sliceAccess, !fuses_cacheRequest, !modSlc_fuses]

@[simp] theorem fuses_commitDue (s) : (commitDue s).fuses = s.fuses := by simp [commitDue]
@[simp] theorem keepsFuses_execDeadLineHint (addr ctx s) : KeepsFuses s (execDeadLineHint addr ctx s) := by simp [execDeadLineHint]
@[simp] theorem fuses_flushLine (j t s) : (flushLine j t s).fuses = s.fuses := by simp [flushLine]
@[simp] theorem fuses_flushSet (j set s) : (flushSet j set s).fuses = s.fuses := by simp [flushSet]
@[simp] theorem fuses_flushTower (t s) : (flushTower t s).fuses = s.fuses := by simp [flushTower]
@[simp] theorem fuses_drainWb (t s) : (drainWb t s).fuses = s.fuses := by simp [drainWb]
@[simp] theorem fuses_invalidateTower (t s) : (invalidateTower t s).fuses = s.fuses := by simp [invalidateTower]
@[simp] theorem fuses_lssFlushWrite (r val s) : (lssFlushWrite r val s).fuses = s.fuses := by simp [lssFlushWrite]
@[simp] theorem keepsFuses_execLssFlushStart (r val s) : KeepsFuses s (execLssFlushStart r val s) := by simp [execLssFlushStart]
@[simp] theorem keepsFuses_execLssFlushDone (t s) : KeepsFuses s (execLssFlushDone t s) := by simp [execLssFlushDone]

@[simp] theorem keepsFuses_execLoessCorrectionWriteback (slice s) : KeepsFuses s (execLoessCorrectionWriteback slice s) := by
  unfold execLoessCorrectionWriteback
  split <;> simp

@[simp] theorem fuses_scrubWord (j scratch w s) : (scrubWord j scratch w s).fuses = s.fuses := by
  unfold scrubWord
  dsimp only
  (repeat' split) <;> simp

@[simp] theorem fuses_scrubTags (j set tags s) : (scrubTags j set tags s).fuses = s.fuses := by simp [scrubTags]
@[simp] theorem fuses_sliceLapEnd (j s) : (sliceLapEnd j s).fuses = s.fuses := rfl

@[simp] theorem keepsFuses_execScrubAccess (slice reserved errs s) : KeepsFuses s (execScrubAccess slice reserved errs s) := by
  unfold execScrubAccess
  dsimp only
  split
  · simp
  · split
    · simp
    · exact keepsFuses_sliceAccess (fun u => by simp) _ s

@[simp] theorem fuses_sliceExhausted (j s) : (sliceExhausted j s).fuses = s.fuses := by simp [sliceExhausted]
@[simp] theorem fuses_repairRow (j bank row s) : (repairRow j bank row s).fuses = s.fuses := by simp [repairRow]
@[simp] theorem keepsFuses_execLoessRowRepair (slice bank row s) : KeepsFuses s (execLoessRowRepair slice bank row s) := by simp [execLoessRowRepair]
@[simp] theorem fuses_repairColumn (j bank grp s) : (repairColumn j bank grp s).fuses = s.fuses := by simp [repairColumn]

@[simp] theorem keepsFuses_execLoessColumnRepair (slice bank group s) :
    KeepsFuses s (execLoessColumnRepair slice bank group s) := by simp [execLoessColumnRepair]

/-! #### Dma -/

@[simp] theorem fuses_dmaFail (ch code reason exc k s) : (dmaFail ch code reason exc k s).fuses = s.fuses := by simp [dmaFail]

@[simp] theorem fuses_dmaSettle (ch s) : (dmaSettle ch s).fuses = s.fuses := by
  unfold dmaSettle
  dsimp only
  (repeat' split) <;> simp

@[simp] theorem fuses_dmaFault (ch k va cause acc entry level s) : (dmaFault ch k va cause acc entry level s).fuses = s.fuses := by
  unfold dmaFault
  split <;> simp

@[simp] theorem fuses_dmaRetry (ch s) : (dmaRetry ch s).1.fuses = s.fuses := by
  unfold dmaRetry
  split <;> simp

@[simp] theorem fuses_dmaEnter (ch g w s) : (dmaEnter ch g w s).fuses = s.fuses := rfl

@[simp] theorem keepsFuses_execDpost (site slot w s) : KeepsFuses s (execDpost site slot w s) := by
  unfold execDpost
  grind [keepsFuses_ok, fuses_withRelease, !fuses_illegal, !fuses_raise, !fuses_finish, !fuses_dmaEnter, !fuses_holdGroup]

@[simp] theorem keepsFuses_execDpostSlotFree (site slot s) : KeepsFuses s (execDpostSlotFree site slot s) := by
  unfold execDpostSlotFree
  dsimp only
  (repeat' split) <;> simp

@[simp] theorem fuses_dmaTake (ch want s) : (dmaTake ch want s).fuses = s.fuses := by
  unfold dmaTake
  dsimp only
  (repeat' split) <;> simp

@[simp] theorem keepsFuses_execDmaCopy (ch s) : KeepsFuses s (execDmaCopy ch s) := by simp [execDmaCopy]
@[simp] theorem keepsFuses_execDmaFill (ch s) : KeepsFuses s (execDmaFill ch s) := by simp [execDmaFill]
@[simp] theorem keepsFuses_execDmaReduce (ch s) : KeepsFuses s (execDmaReduce ch s) := by simp [execDmaReduce]
@[simp] theorem keepsFuses_execDmaDiscard (ch s) : KeepsFuses s (execDmaDiscard ch s) := by simp [execDmaDiscard]

@[simp] theorem fuses_dmaEndOk (ch d s) : (dmaEndOk ch d s).fuses = s.fuses := by
  unfold dmaEndOk
  grind [!modDma_fuses, SynCarries, !synCarries_synSignal, !fuses_dmaRetry]

@[simp] theorem keepsFuses_execDmaSync (ch s) : KeepsFuses s (execDmaSync ch s) := by
  unfold execDmaSync
  dsimp only
  (repeat' split) <;> simp

@[simp] theorem fuses_mTarget (ch d shm addr acc s) : (mTarget ch d shm addr acc s).1.fuses = s.fuses := by
  unfold mTarget
  grind [!fuses_translate]

@[simp] theorem fuses_markSent (ch lo hi tid s) : (markSent ch lo hi tid s).fuses = s.fuses := rfl
@[simp] theorem fuses_dropPart (ch lo hi k s) : (dropPart ch lo hi k s).fuses = s.fuses := rfl

@[simp] theorem fuses_holdElement (ch k pa data s) : (holdElement ch k pa data s).fuses = s.fuses := by
  unfold holdElement
  split <;> simp

@[simp] theorem fuses_dropHeld (ch gone s) : (dropHeld ch gone s).fuses = s.fuses := by simp [dropHeld]

theorem commitCarries_mWrite (ch d e s) : CommitCarries s.fuses (mWrite ch d e s) := by
  unfold mWrite
  extract_lets w who red lo hi all els
  split
  · rfl
  · split
    · exact fuses_slmWrite ..
    · grind [CommitCarries, !fuses_portHold, !fuses_portTake, !fuses_physWrite, !fuses_physOp, !fuses_dmaRetry, !fuses_deadLine, !fuses_holdElement]
    · grind [CommitCarries, IssueCarries, !issueCarries_issueRequest, !fuses_markSent]

@[simp] theorem fuses_dmaBus (ch k s) : (dmaBus ch k s).fuses = s.fuses := by simp [dmaBus]

theorem readCarries_mRead (ch d k t s) : ReadCarries s.fuses (mRead ch d k t s) := by
  unfold mRead
  grind [ReadCarries, IssueCarries, !issueCarries_issueRequest, !fuses_portHold, !fuses_portTake, !fuses_physRead, !fuses_dmaRetry]

@[simp] theorem fuses_dmaIssue (ch k d s) : (dmaIssue ch k d s).fuses = s.fuses := by
  unfold dmaIssue
  grind [!fuses_mTarget, !fuses_dmaFault, !modDma_fuses, ReadCarries, !readCarries_mRead, !fuses_dmaBus]

@[simp] theorem keepsFuses_execDmaElementIssue (ch s) : KeepsFuses s (execDmaElementIssue ch s) := by
  unfold execDmaElementIssue
  dsimp only
  (repeat' split) <;> simp

@[simp] theorem fuses_dmaCommitted (ch lo hi d s) : (dmaCommitted ch lo hi d s).fuses = s.fuses := by simp [dmaCommitted]

@[simp] theorem keepsFuses_execDmaElementCommit (ch k s) : KeepsFuses s (execDmaElementCommit ch k s) := by
  unfold execDmaElementCommit
  dsimp only
  split
  · simp
  · split
    · simp
    · split
      · split <;> simp
      · next d _ _ _ _ e _ =>
        have hwrite := commitCarries_mWrite ch d e s
        split
        · simp
        · split
          · simp
          · split
            · split <;> simp
            · split
              all_goals
                next heq => simpa [heq, CommitCarries] using hwrite

@[simp] theorem keepsFuses_execDmaBusError (ch k s) : KeepsFuses s (execDmaBusError ch k s) := by
  unfold execDmaBusError
  dsimp only
  (repeat' split) <;> simp

@[simp] theorem fuses_dmaCtrl (r ch val s) : (dmaCtrl r ch val s).fuses = s.fuses := by simp [dmaCtrl]
@[simp] theorem keepsFuses_execDmaCtrlResume (r ch s) : KeepsFuses s (execDmaCtrlResume r ch s) := by simp [execDmaCtrlResume]
@[simp] theorem keepsFuses_execDmaCtrlDiscard (r ch s) : KeepsFuses s (execDmaCtrlDiscard r ch s) := by simp [execDmaCtrlDiscard]
@[simp] theorem keepsFuses_execDmaCtrlFlush (r ch s) : KeepsFuses s (execDmaCtrlFlush r ch s) := by simp [execDmaCtrlFlush]
@[simp] theorem keepsFuses_execDmaCtrlClrHalt (r ch s) : KeepsFuses s (execDmaCtrlClrHalt r ch s) := by simp [execDmaCtrlClrHalt]
@[simp] theorem fuses_dmaAnswer (ch tid bs s) : (dmaAnswer ch tid bs s).fuses = s.fuses := rfl

@[simp] theorem fuses_dmaError (ch tid s) : (dmaError ch tid s).fuses = s.fuses := by
  unfold dmaError
  dsimp only
  (repeat' split) <;> simp

@[simp] theorem fuses_dmaPreempt (ch s) : (dmaPreempt ch s).fuses = s.fuses := by simp [dmaPreempt]
@[simp] theorem fuses_abortDma (ch p s) : (abortDma ch p s).fuses = s.fuses := by simp [abortDma]

/-! #### Site -/

@[simp] theorem keepsFuses_execXltCtxCfgWrite (r ctx val s) : KeepsFuses s (execXltCtxCfgWrite r ctx val s) := by
  unfold execXltCtxCfgWrite
  (repeat' split) <;> simp

@[simp] theorem fuses_walkFault (site who va acc cause entry level s) : (walkFault site who va acc cause entry level s).fuses = s.fuses := by
  unfold walkFault
  (repeat' split) <;> simp

@[simp] theorem keepsFuses_execTranslationWalk (site who ctx va acc err s) : KeepsFuses s (execTranslationWalk site who ctx va acc err s) := by
  unfold execTranslationWalk
  dsimp only
  (repeat' split) <;> simp

@[simp] theorem fuses_invalidate (v s) : (invalidate v s).fuses = s.fuses := by simp [invalidate]
@[simp] theorem keepsFuses_execInvalidationStart (r val s) : KeepsFuses s (execInvalidationStart r val s) := by simp [execInvalidationStart]
@[simp] theorem keepsFuses_execInvalidationDone (r s) : KeepsFuses s (execInvalidationDone r s) := by simp [execInvalidationDone]
@[simp] theorem fuses_siteRegErr (r site s) : (siteRegErr r site s).fuses = s.fuses := by simp [siteRegErr]
@[simp] theorem fuses_groupResume (r site slot s) : (groupResume r site slot s).fuses = s.fuses := by simp [groupResume]
@[simp] theorem fuses_groupKill (r site slot s) : (groupKill r site slot s).fuses = s.fuses := by simp [groupKill]
@[simp] theorem keepsFuses_execGrpResume (r site slot s) : KeepsFuses s (execGrpResume r site slot s) := by simp [execGrpResume]
@[simp] theorem keepsFuses_execGrpKill (r site slot s) : KeepsFuses s (execGrpKill r site slot s) := by simp [execGrpKill]

@[simp] theorem fuses_stopHeld (site slot s) : (stopHeld site slot s).fuses = s.fuses := by
  unfold stopHeld
  dsimp only
  (repeat' split) <;> simp

@[simp] theorem fuses_stopSiteArrays (site cause s) : (stopSiteArrays site cause s).fuses = s.fuses := by simp [stopSiteArrays]
@[simp] theorem fuses_startSave (site be drop gone s) : (startSave site be drop gone s).fuses = s.fuses := by simp [startSave]
@[simp] theorem fuses_sitePreempt (r site s) : (sitePreempt r site s).fuses = s.fuses := by simp [sitePreempt]
@[simp] theorem keepsFuses_execPreempt (r site s) : KeepsFuses s (execPreempt r site s) := by simp [execPreempt]
@[simp] theorem fuses_clearSite (site s) : (clearSite site s).fuses = s.fuses := by simp [clearSite]
@[simp] theorem fuses_finishSave (site s) : (finishSave site s).fuses = s.fuses := by simp [finishSave]
@[simp] theorem fuses_siteRestore (r site s) : (siteRestore r site s).fuses = s.fuses := by simp [siteRestore]
@[simp] theorem keepsFuses_execRestore (r site s) : KeepsFuses s (execRestore r site s) := by simp [execRestore]

@[simp] theorem fuses_placeSaved (site sv s) : (placeSaved site sv s).fuses = s.fuses := by
  simp [placeSaved]

@[simp] theorem keepsFuses_execCoreRestoreDone (site s) : KeepsFuses s (execCoreRestoreDone site s) := by
  unfold execCoreRestoreDone
  dsimp only
  (repeat' split) <;> simp

/-! #### Tasks -/

@[simp] theorem fuses_postWord (p t w task s0) : (postWord p t w task s0).1.fuses = s0.fuses := by
  unfold postWord
  grind [!send_fuses, !fuses_holdWord, PutCarries, !putCarries_putNew, !fuses_lostReply]

@[simp] theorem fuses_postReply (p t w r s) : (postReply p t w r s).fuses = s.fuses := by simp [postReply]
@[simp] theorem fuses_takePacket (q s) : (takePacket q s).fuses = s.fuses := by simp [takePacket]

@[simp] theorem keepsFuses_execTaskNoticeTake (p s) : KeepsFuses s (execTaskNoticeTake p s) := by
  unfold execTaskNoticeTake
  dsimp only
  (repeat' split) <;> simp

@[simp] theorem fuses_modTask (p e f s) : (modTask p e f s).fuses = s.fuses := rfl
@[simp] theorem fuses_preemptFor (p j s) : (preemptFor p j s).fuses = s.fuses := by simp [preemptFor]

@[simp] theorem keepsFuses_execWindowSetup (p e s) : KeepsFuses s (execWindowSetup p e s) := by
  unfold execWindowSetup
  (repeat' split) <;> simp

@[simp] theorem fuses_placeOn (r t n j room s) : (placeOn r t n j room s).fuses = s.fuses := by simp [placeOn]
@[simp] theorem fuses_unthrottle (j s) : (unthrottle j s).fuses = s.fuses := by simp [unthrottle]

@[simp] theorem keepsFuses_execGroupPlace (p e s) : KeepsFuses s (execGroupPlace p e s) := by
  unfold execGroupPlace
  dsimp only
  (repeat' split) <;> simp

@[simp] theorem fuses_stopGroup (j k s) : (stopGroup j k s).fuses = s.fuses := by simp [stopGroup]
@[simp] theorem fuses_stopSaved (p q s) : (stopSaved p q s).fuses = s.fuses := by simp [stopSaved]
@[simp] theorem fuses_stopWork (p q s) : (stopWork p q s).fuses = s.fuses := by simp [stopWork]
@[simp] theorem fuses_endTask (r status reason exc s) : (endTask r status reason exc s).fuses = s.fuses := by simp [endTask]

@[simp] theorem fuses_signalAs (who src p t s) : (signalAs who src p t s).1.fuses = s.fuses := by
  unfold signalAs
  extract_lets a x lost since
  have hlost : lost.1.fuses = s.fuses := fuses_lostReply ..
  split
  · rfl
  · split
    · split
      · rfl
      · exact hlost
      · next h => exact fuses_of_issueSent (issueCarries_issueRequest ..) h
    · split
      · exact hlost
      · split
        · next h => exact fuses_of_synDone (synCarries_synSignal ..) h
        · exact hlost
        · split
          · exact hlost
          · rfl

@[simp] theorem fuses_signalSync (r t s) : (signalSync r t s).1.fuses = s.fuses := by simp [signalSync]
@[simp] theorem fuses_postCompletion (r t x s) : (postCompletion r t x s).fuses = s.fuses := by simp [postCompletion]

@[simp] theorem fuses_completeTask (r t x s) : (completeTask r t x s).fuses = s.fuses := by
  unfold completeTask
  split <;> simp

@[simp] theorem keepsFuses_execTaskCompletion (p e s) : KeepsFuses s (execTaskCompletion p e s) := by
  unfold execTaskCompletion
  dsimp only
  (repeat' split) <;> simp

@[simp] theorem fuses_pcAnswer (p tid lost s) : (pcAnswer p tid lost s).fuses = s.fuses := by simp [pcAnswer]
@[simp] theorem fuses_mgmtAnswer (tid lost s) : (mgmtAnswer tid lost s).fuses = s.fuses := by simp [mgmtAnswer]

@[simp] theorem keepsFuses_execWindowEndDemote (p e s) : KeepsFuses s (execWindowEndDemote p e s) := by
  unfold execWindowEndDemote
  (repeat' split) <;> simp

@[simp] theorem keepsFuses_execDeadlineExpiry (p e s) : KeepsFuses s (execDeadlineExpiry p e s) := by
  unfold execDeadlineExpiry
  dsimp only
  (repeat' split) <;> simp

@[simp] theorem keepsFuses_execTaskFaultEnd (p e s) : KeepsFuses s (execTaskFaultEnd p e s) := by
  unfold execTaskFaultEnd
  dsimp only
  (repeat' split) <;> simp

@[simp] theorem keepsFuses_execBeWorkRestore (p s) : KeepsFuses s (execBeWorkRestore p s) := by
  unfold execBeWorkRestore
  dsimp only
  (repeat' split) <;> simp

/-! #### SiteReset -/

@[simp] theorem fuses_histAdd (src lvl tgt discarded s) : (histAdd src lvl tgt discarded s).fuses = s.fuses := rfl
@[simp] theorem fuses_faultRecord (src lvl tgt detail s) : (faultRecord src lvl tgt detail s).fuses = s.fuses := rfl
@[simp] theorem fuses_noteReset (src lvl tgt detail s) : (noteReset src lvl tgt detail s).fuses = s.fuses := by simp [noteReset]
@[simp] theorem fuses_discardInBoot (src lvl tgt s) : (discardInBoot src lvl tgt s).fuses = s.fuses := rfl
@[simp] theorem fuses_rstErr (r part refused s) : (rstErr r part refused s).fuses = s.fuses := by simp [rstErr]

theorem fuses_of_checkReset {r key lvl tgt s u} (h : checkReset r key lvl tgt s = .error u) : u.fuses = s.fuses := by
  unfold checkReset at h
  grind [!fuses_rstErr]

@[simp] theorem fuses_clearUnits (j s) : (clearUnits j s).fuses = s.fuses := by simp [clearUnits]
@[simp] theorem fuses_collateralEnd (r s) : (collateralEnd r s).fuses = s.fuses := by simp [collateralEnd]

@[simp] theorem fuses_siteReset (j s) : (siteReset j s).fuses = s.fuses := by
  unfold siteReset
  split <;> simp

@[simp] theorem fuses_startSiteReset (src lvl tgt js s) : (startSiteReset src lvl tgt js s).fuses = s.fuses := by simp [startSiteReset]

@[simp] theorem keepsFuses_execRstRequestL0 (r key target s) : KeepsFuses s (execRstRequestL0 r key target s) := by
  unfold execRstRequestL0
  grind [→ fuses_of_checkReset, keepsFuses_ok, !fuses_startSiteReset]

@[simp] theorem keepsFuses_execRstRequestL1 (r key target s) : KeepsFuses s (execRstRequestL1 r key target s) := by
  unfold execRstRequestL1
  grind [→ fuses_of_checkReset, keepsFuses_ok, !fuses_startSiteReset]

@[simp] theorem fuses_forcedReset (j took s) : (forcedReset j took s).fuses = s.fuses := by
  unfold forcedReset
  dsimp only
  (repeat' split) <;> simp

@[simp] theorem fuses_cutSaves (mine s) : (cutSaves mine s).fuses = s.fuses := by simp [cutSaves]

@[simp] theorem keepsFuses_execCoreSaveDone (site s) : KeepsFuses s (execCoreSaveDone site s) := by
  unfold execCoreSaveDone
  dsimp only
  (repeat' split) <;> simp

@[simp] theorem keepsFuses_execSiteResetDone (site s) : KeepsFuses s (execSiteResetDone site s) := by
  unfold execSiteResetDone
  dsimp only
  (repeat' split) <;> simp

@[simp] theorem keepsFuses_execSiltTrapDiscard (who gen s) : KeepsFuses s (execSiltTrapDiscard who gen s) := by
  unfold execSiltTrapDiscard
  split <;> simp

@[simp] theorem fuses_blockClear (j b s) : (blockClear j b s).fuses = s.fuses := by
  unfold blockClear
  split <;> simp

@[simp] theorem fuses_blockReset (r j bs s) : (blockReset r j bs s).fuses = s.fuses := by simp [blockReset]
@[simp] theorem keepsFuses_execBlockResetAry0 (r site s) : KeepsFuses s (execBlockResetAry0 r site s) := by simp [execBlockResetAry0]
@[simp] theorem keepsFuses_execBlockResetAry1 (r site s) : KeepsFuses s (execBlockResetAry1 r site s) := by simp [execBlockResetAry1]
@[simp] theorem keepsFuses_execBlockResetDma (r site s) : KeepsFuses s (execBlockResetDma r site s) := by simp [execBlockResetDma]
@[simp] theorem keepsFuses_execBlockResetTge (r site s) : KeepsFuses s (execBlockResetTge r site s) := by simp [execBlockResetTge]
@[simp] theorem keepsFuses_execBlockResetL1 (r site s) : KeepsFuses s (execBlockResetL1 r site s) := by simp [execBlockResetL1]
@[simp] theorem keepsFuses_execBlockResetXlt (r site s) : KeepsFuses s (execBlockResetXlt r site s) := by simp [execBlockResetXlt]
@[simp] theorem fuses_collBlockReset (r k s) : (collBlockReset r k s).fuses = s.fuses := by simp [collBlockReset]
@[simp] theorem keepsFuses_execBlockResetColl (r port s) : KeepsFuses s (execBlockResetColl r port s) := by simp [execBlockResetColl]

@[simp] theorem keepsFuses_execBlockResetDone (coll unit block s) : KeepsFuses s (execBlockResetDone coll unit block s) := by
  unfold execBlockResetDone
  split <;> simp

@[simp] theorem fuses_retireSite (j s) : (retireSite j s).fuses = s.fuses := by simp [retireSite]
@[simp] theorem fuses_retireWrite (r j s) : (retireWrite r j s).fuses = s.fuses := by simp [retireWrite]
@[simp] theorem keepsFuses_execSiteRetire (r site s) : KeepsFuses s (execSiteRetire r site s) := by simp [execSiteRetire]
@[simp] theorem fuses_retired (j spare s) : (retired j spare s).fuses = s.fuses := by simp [retired]

@[simp] theorem keepsFuses_execRetireSpareReady (site pass s) : KeepsFuses s (execRetireSpareReady site pass s) := by
  unfold execRetireSpareReady
  dsimp only
  (repeat' split) <;> simp

/-! #### Links -/

@[simp] theorem fuses_sendNbr (k sub payload s) : (sendNbr k sub payload s).fuses = s.fuses := by simp [sendNbr]
@[simp] theorem fuses_sendHello (k s) : (sendHello k s).fuses = s.fuses := by simp [sendHello]
@[simp] theorem fuses_setStage (v s) : (setStage v s).fuses = s.fuses := by simp [setStage]
@[simp] theorem fuses_linkNotice (k was s) : (linkNotice k was s).fuses = s.fuses := by simp [linkNotice]
@[simp] theorem fuses_answerWaiting (k s) : (answerWaiting k s).fuses = s.fuses := by simp [answerWaiting]
@[simp] theorem fuses_changePort (k f s) : (changePort k f s).fuses = s.fuses := by simp [changePort]

@[simp] theorem fuses_recordReplaced (k s) : (recordReplaced k s).fuses = s.fuses := by
  unfold recordReplaced
  split <;> simp

@[simp] theorem fuses_failPort (k s) : (failPort k s).fuses = s.fuses := by simp [failPort]
@[simp] theorem fuses_takeFlit (k flit s) : (takeFlit k flit s).fuses = s.fuses := by simp [takeFlit]

@[simp] theorem fuses_noteMarker (k lanes s) : (noteMarker k lanes s).fuses = s.fuses := by
  unfold noteMarker
  dsimp only
  (repeat' split) <;> simp

@[simp] theorem keepsFuses_execFrameReceive (port lanes dark s) : KeepsFuses s (execFrameReceive port lanes dark s) := by
  unfold execFrameReceive
  dsimp only
  (repeat' split) <;> simp

@[simp] theorem keepsFuses_execFlitReceive (port flit s) : KeepsFuses s (execFlitReceive port flit s) := by
  unfold execFlitReceive
  split <;> simp

@[simp] theorem fuses_beginFrame (k s) : (beginFrame k s).fuses = s.fuses := by simp [beginFrame]
@[simp] theorem fuses_putFlit (port f s) : (putFlit port f s).fuses = s.fuses := by simp [putFlit]
@[simp] theorem fuses_emit (port h payload s) : (emit port h payload s).1.fuses = s.fuses := by simp [emit]
@[simp] theorem fuses_sendNull (port s) : (sendNull port s).fuses = s.fuses := by simp [sendNull]

@[simp] theorem fuses_sendLane (port vl tier tok s) : (sendLane port vl tier tok s).fuses = s.fuses := by
  unfold sendLane
  dsimp only
  (repeat' split) <;> simp

@[simp] theorem keepsFuses_execFlitSlotTransmit (port s) : KeepsFuses s (execFlitSlotTransmit port s) := by
  unfold execFlitSlotTransmit
  dsimp only
  (repeat' split) <;> simp

@[simp] theorem fuses_leaveService (k s) : (leaveService k s).fuses = s.fuses := by simp [leaveService]
@[simp] theorem fuses_fillFrame (port s) : (fillFrame port s).fuses = s.fuses := by simp [fillFrame]
@[simp] theorem fuses_askPeerRetrain (port s) : (askPeerRetrain port s).fuses = s.fuses := by simp [askPeerRetrain]
@[simp] theorem fuses_startRetrain (port s) : (startRetrain port s).fuses = s.fuses := by simp [startRetrain]

@[simp] theorem keepsFuses_execReplayStart (port s) : KeepsFuses s (execReplayStart port s) := by
  unfold execReplayStart
  dsimp only
  (repeat' split) <;> simp

@[simp] theorem keepsFuses_execNoDecodeTimeout (port s) : KeepsFuses s (execNoDecodeTimeout port s) := by
  unfold execNoDecodeTimeout
  dsimp only
  (repeat' split) <;> simp

@[simp] theorem fuses_askRetrain (port own s) : (askRetrain port own s).fuses = s.fuses := by simp [askRetrain]

@[simp] theorem keepsFuses_execRetrain (port s) : KeepsFuses s (execRetrain port s) := by
  unfold execRetrain
  dsimp only
  (repeat' split) <;> simp

@[simp] theorem fuses_measureEye (i s) : (measureEye i s).fuses = s.fuses := rfl
@[simp] theorem fuses_verifyLanes (k errTx errRx s) : (verifyLanes k errTx errRx s).fuses = s.fuses := by simp [verifyLanes]
@[simp] theorem fuses_enterService (k asym micros s) : (enterService k asym micros s).fuses = s.fuses := by simp [enterService]

@[simp] theorem keepsFuses_execPortTraining (port x s) : KeepsFuses s (execPortTraining port x s) := by
  unfold execPortTraining
  dsimp only
  (repeat' split) <;> simp

@[simp] theorem fuses_checkWiring (k s) : (checkWiring k s).fuses = s.fuses := by simp [checkWiring]

@[simp] theorem keepsFuses_execInitReceive (port payload s) : KeepsFuses s (execInitReceive port payload s) := by
  unfold execInitReceive
  grind [keepsFuses_ok, !modPort_fuses, !fuses_checkWiring, !fuses_sendHello]

@[simp] theorem keepsFuses_execLaneFail (port logical s) : KeepsFuses s (execLaneFail port logical s) := by
  unfold execLaneFail
  dsimp only
  (repeat' split) <;> simp

@[simp] theorem keepsFuses_execLaneReplace (port rx logical s) : KeepsFuses s (execLaneReplace port rx logical s) := by
  unfold execLaneReplace
  dsimp only
  (repeat' split) <;> simp

@[simp] theorem keepsFuses_execWidthDegrade (port s) : KeepsFuses s (execWidthDegrade port s) := by
  unfold execWidthDegrade
  dsimp only
  (repeat' split) <;> simp

@[simp] theorem keepsFuses_execStandbyRetune (port lane s) : KeepsFuses s (execStandbyRetune port lane s) := by
  unfold execStandbyRetune
  dsimp only
  (repeat' split) <;> simp

@[simp] theorem fuses_peerLost (k arg s) : (peerLost k arg s).fuses = s.fuses := by simp [peerLost]

@[simp] theorem keepsFuses_execMarkerCodeAccept (port s) : KeepsFuses s (execMarkerCodeAccept port s) := by
  unfold execMarkerCodeAccept
  grind [keepsFuses_ok, !modPort_fuses, !fuses_peerLost, !fuses_askRetrain]

@[simp] theorem fuses_linkCtrl (r port val s) : (linkCtrl r port val s).fuses = s.fuses := by simp [linkCtrl]
@[simp] theorem keepsFuses_execLinkEnable (r port s) : KeepsFuses s (execLinkEnable r port s) := by simp [execLinkEnable]
@[simp] theorem keepsFuses_execLinkDisable (r port s) : KeepsFuses s (execLinkDisable r port s) := by simp [execLinkDisable]
@[simp] theorem keepsFuses_execLinkRetrain (r port s) : KeepsFuses s (execLinkRetrain r port s) := by simp [execLinkRetrain]

/-! #### CollBase -/

theorem fuses_of_collIssue {k arg w round addr payload s r} (h : collIssue k arg w round addr payload s = some r) : r.1.fuses = s.fuses := by
  simp only [collIssue] at h
  split at h
  · cases h
  · split at h
    · cases h
    · cases h
      simp

@[simp] theorem fuses_collPost1 (k p arg w s) : (collPost1 k p arg w s).fuses = s.fuses := by
  unfold collPost1
  grind [→ fuses_of_collIssue, !modPort_fuses]

@[simp] theorem fuses_collPayOwed (k s) : (collPayOwed k s).fuses = s.fuses := by simp [collPayOwed]

@[simp] theorem fuses_collSignal (k id from_ s) : (collSignal k id from_ s).fuses = s.fuses := by
  unfold collSignal
  split
  · next h => exact fuses_of_synDone (synCarries_synSignal ..) h
  · rfl
  · split <;> rfl

@[simp] theorem fuses_collLeave (k code w part s) : (collLeave k code w part s).fuses = s.fuses := by simp [collLeave]

@[simp] theorem fuses_collEnd (k code s) : (collEnd k code s).fuses = s.fuses := by
  unfold collEnd
  split <;> simp

@[simp] theorem fuses_collAcked (tid s) : (collAcked tid s).fuses = s.fuses := by
  unfold collAcked
  split <;> simp

@[simp] theorem fuses_collFail (tid s) : (collFail tid s).fuses = s.fuses := by
  unfold collFail
  split <;> simp

/-! #### Network -/

@[simp] theorem fuses_crossFrom (inp b p s) : (crossFrom inp b p s).fuses = s.fuses := by
  unfold crossFrom
  dsimp only
  split
  · exact fuses_crossRest ..
  · exact fuses_crossSeams ..

@[simp] theorem fuses_forward (inp vl p s) : (forward inp vl p s).fuses = s.fuses := by
  unfold forward
  dsimp only
  (repeat' split) <;> simp

theorem fuses_of_routeTurn {s k vl p u} (h : routeTurn s k vl p = some u) : u.fuses = s.fuses := by
  obtain ⟨r, hr, h⟩ := Option.bind_eq_some_iff.mp h
  split at h
  · cases h
    split at hr
    · exact fuses_of_seamServe hr
    · exact fuses_of_routerServe hr
  · cases h

@[simp] theorem keepsFuses_execPacketRoute (inPort vl pkt s) : KeepsFuses s (execPacketRoute inPort vl pkt s) := by
  unfold execPacketRoute
  grind [keepsFuses_ok, !fuses_forward, → fuses_of_routeTurn, !modPort_fuses, !fuses_respNack]

@[simp] theorem fuses_undeliver (vl p s) : (undeliver vl p s).fuses = s.fuses := rfl

@[simp] theorem fuses_respErr (e q s) : (respErr e q s).fuses = s.fuses := by
  unfold respErr
  split <;> simp

theorem fuses_atTarget {run : Nat → State → State} (hrun : ∀ t u, (run t u).fuses = u.fuses) (op kept vl q okAddr s) :
    (atTarget op kept vl q okAddr run s).fuses = s.fuses := by
  unfold atTarget
  grind [!fuses_undeliver, !fuses_respNack, !fuses_sendFrom]

@[simp] theorem keepsFuses_execFabricPut (vl pkt s) : KeepsFuses s (execFabricPut vl pkt s) := by
  unfold execFabricPut
  grind [keepsFuses_ok, fuses_atTarget, !fuses_physWrite, !fuses_respAck, !fuses_respErr]

@[simp] theorem keepsFuses_execFabricGet (vl pkt s) : KeepsFuses s (execFabricGet vl pkt s) := by
  unfold execFabricGet
  grind [keepsFuses_ok, fuses_atTarget, !fuses_physRead, !fuses_respNack, !fuses_respData, !fuses_respErr]

@[simp] theorem keepsFuses_execFabricAtomic (vl pkt s) : KeepsFuses s (execFabricAtomic vl pkt s) := by
  unfold execFabricAtomic
  grind [keepsFuses_ok, fuses_atTarget, !fuses_physOp, !fuses_respondRec, !fuses_respErr]

@[simp] theorem keepsFuses_execFabricReduce (vl pkt s) : KeepsFuses s (execFabricReduce vl pkt s) := by
  unfold execFabricReduce
  grind [keepsFuses_ok, fuses_atTarget, !fuses_physOp, !fuses_respondRec, !fuses_respErr]

theorem fuses_syncDone {s r} (h : SynCarries s.fuses r) (test t q) : (syncDone test t q s r).fuses = s.fuses := by
  cases r with
  | done u c tk => cases test <;> exact (fuses_respondRec ..).trans h
  | bus => exact fuses_respNack ..
  | resetting => exact fuses_respNack ..

@[simp] theorem keepsFuses_execFabricSyncSignal (vl pkt s) : KeepsFuses s (execFabricSyncSignal vl pkt s) := by
  unfold execFabricSyncSignal
  grind [keepsFuses_ok, fuses_atTarget, fuses_syncDone, SynCarries, !synCarries_synSignal]

@[simp] theorem keepsFuses_execFabricSyncWait (vl pkt s) : KeepsFuses s (execFabricSyncWait vl pkt s) := by
  unfold execFabricSyncWait
  grind [keepsFuses_ok, fuses_atTarget, WaitCarries, !waitCarries_synWait, !fuses_respondRec, !fuses_respNack]

@[simp] theorem keepsFuses_execFabricSyncTest (vl pkt s) : KeepsFuses s (execFabricSyncTest vl pkt s) := by
  unfold execFabricSyncTest
  grind [keepsFuses_ok, fuses_atTarget, fuses_syncDone, SynCarries, !synCarries_synTest]

@[simp] theorem keepsFuses_execFabricSyncReset (vl pkt s) : KeepsFuses s (execFabricSyncReset vl pkt s) := by
  unfold execFabricSyncReset
  grind [keepsFuses_ok, fuses_atTarget, fuses_syncDone, SynCarries, !synCarries_synReset]

@[simp] theorem keepsFuses_execFabricQmsg (vl pkt s) : KeepsFuses s (execFabricQmsg vl pkt s) := by
  unfold execFabricQmsg
  grind [keepsFuses_ok, fuses_atTarget, !fuses_respondRec, !fuses_queCommit, !modQue_fuses, !fuses_respNack]

@[simp] theorem fuses_freeEntryTid (t n s) : (freeEntryTid t n s).fuses = s.fuses := by
  unfold freeEntryTid
  dsimp only
  (repeat' split) <;> simp

@[simp] theorem fuses_setEntryTid (t n e s) : (setEntryTid t n e s).fuses = s.fuses := rfl

@[simp] theorem fuses_agentAnswer (e t n bs s) : (agentAnswer e t n bs s).fuses = s.fuses := by
  unfold agentAnswer
  generalize e.who = who
  split
  · rfl
  · cases who with
    | group site slot => rw [fuses_groupData]
    | array a => rw [fuses_aryAnswer]
    | dma c => rw [fuses_dmaAnswer]
    | pc p => rw [fuses_pcAnswer]
    | coll port => rw [fuses_collAcked]
    | mgmt => rw [fuses_mgmtAnswer]
    | _ => rfl

@[simp] theorem fuses_agentError (e t n s) : (agentError e t n s).fuses = s.fuses := by
  unfold agentError
  generalize e.who = who
  split
  · rfl
  · cases who with
    | group site slot => rw [fuses_groupError]
    | array a => rw [fuses_aryError]
    | dma c => rw [fuses_dmaError]
    | pc p => rw [fuses_pcAnswer]
    | coll port => rw [fuses_collFail]
    | mgmt => rw [fuses_mgmtAnswer]
    | _ => rfl

@[simp] theorem fuses_lateReply (who s) : (lateReply who s).fuses = s.fuses := by
  unfold lateReply
  split <;> simp

@[simp] theorem fuses_response (op t pkt s0) : (response op t pkt s0).fuses = s0.fuses := by
  unfold response
  dsimp only
  (repeat' split) <;> simp

@[simp] theorem keepsFuses_execFabricRequestIssue (t who pkt s) : KeepsFuses s (execFabricRequestIssue t who pkt s) := by
  unfold execFabricRequestIssue
  grind [IssueCarries, !issueCarries_issueRequest, keepsFuses_ok, !send_fuses]

@[simp] theorem keepsFuses_execFabricAck (t pkt s) : KeepsFuses s (execFabricAck t pkt s) := by simp [execFabricAck]
@[simp] theorem keepsFuses_execFabricData (t pkt s) : KeepsFuses s (execFabricData t pkt s) := by simp [execFabricData]

@[simp] theorem keepsFuses_execFabricNack (t pkt s) : KeepsFuses s (execFabricNack t pkt s) := by
  unfold execFabricNack
  dsimp only
  (repeat' split) <;> simp

@[simp] theorem fuses_resend (t n e s) : (resend t n e s).fuses = s.fuses := by
  unfold resend
  dsimp only
  (repeat' split) <;> simp

@[simp] theorem keepsFuses_execRequestTimeout (t tid s) : KeepsFuses s (execRequestTimeout t tid s) := by
  unfold execRequestTimeout
  (repeat' split) <;> simp

@[simp] theorem keepsFuses_execNackRetry (t tid s) : KeepsFuses s (execNackRetry t tid s) := by
  unfold execNackRetry
  (repeat' split) <;> simp

@[simp] theorem keepsFuses_execRequestGiveUp (t tid s) : KeepsFuses s (execRequestGiveUp t tid s) := by
  unfold execRequestGiveUp
  (repeat' split) <;> simp

@[simp] theorem keepsFuses_execMgmtQueueArrive (src pkt s) : KeepsFuses s (execMgmtQueueArrive src pkt s) := by
  unfold execMgmtQueueArrive
  dsimp only
  (repeat' split) <;> simp

@[simp] theorem fuses_takeMgmt (sub src s) : (takeMgmt sub src s).fuses = s.fuses := rfl

@[simp] theorem keepsFuses_execMgmtHello (port payload s) : KeepsFuses s (execMgmtHello port payload s) := by
  unfold execMgmtHello
  split <;> simp

@[simp] theorem keepsFuses_execMgmtLink (payload s) : KeepsFuses s (execMgmtLink payload s) := by
  unfold execMgmtLink
  dsimp only
  (repeat' split) <;> simp

/-! #### Collectives -/

@[simp] theorem fuses_collPost (r k addr s) : (collPost r k addr s).fuses = s.fuses := by
  unfold collPost
  grind [!fuses_countRegErr, !fuses_physRead, !modPort_fuses]

@[simp] theorem keepsFuses_execAbfCollPostHiWrite (r port val s) :
    KeepsFuses s (execAbfCollPostHiWrite r port val s) := by simp [execAbfCollPostHiWrite]

@[simp] theorem keepsFuses_execCollQueueTake (p copyAt s) : KeepsFuses s (execCollQueueTake p copyAt s) := by
  unfold execCollQueueTake
  dsimp only
  (repeat' split) <;> simp

@[simp] theorem fuses_enterPhase (k s) : (enterPhase k s).fuses = s.fuses := by
  unfold enterPhase
  (repeat' split) <;> simp

@[simp] theorem keepsFuses_execCollStart (port s) : KeepsFuses s (execCollStart port s) := by
  unfold execCollStart
  dsimp only
  (repeat' split) <;> simp

@[simp] theorem keepsFuses_execCollReady (port pkt s) : KeepsFuses s (execCollReady port pkt s) := by
  unfold execCollReady
  split <;> simp

theorem fuses_of_bothReady {k d id s u} (h : bothReady k d id s = some u) : u.fuses = s.fuses := by
  unfold bothReady at h
  grind [!modPort_fuses]

@[simp] theorem fuses_collRead (k w fuel off n s) : (collRead k w fuel off n s).1.fuses = s.fuses := by
  induction fuel generalizing off n s with
  | zero => rfl
  | succ fuel ih =>
    unfold collRead
    grind [!fuses_translateColl, !fuses_physRead]

@[simp] theorem fuses_sendRing (k c d gather minus fuel sent s) : (sendRing k c d gather minus fuel sent s).1.fuses = s.fuses := by
  induction fuel generalizing sent s with
  | zero => rfl
  | succ fuel ih =>
    unfold sendRing
    grind [!fuses_collRead, → fuses_of_collIssue, !modPort_fuses]

@[simp] theorem keepsFuses_execCollRound (port s) : KeepsFuses s (execCollRound port s) := by
  unfold execCollRound
  extract_lets k s'
  have hs : s'.fuses = s.fuses := fuses_collPayOwed ..
  split
  · split
    · simp [hs]
    · split <;> simp [hs]
  · next c0 _ =>
    split
    · simp [hs]
    · next d gather _ =>
      extract_lets st
      have hst : ∀ s0, st = some s0 → s0.fuses = s.fuses := by
        intro s0 h
        simp only [st] at h
        split at h
        · cases h
        · split at h
          · exact (fuses_of_bothReady h).trans hs
          · cases h
            exact hs
      clear_value st
      cases st with
      | none => simp [hs]
      | some s0 =>
        have h0 := hst s0 rfl
        have hgo (c : Bool) (minus fuel sent : _) (u : State) :
            (if c then sendRing k c0 d gather minus fuel sent u else (u, Except.ok sent)).1.fuses = u.fuses := by
          split <;> simp
        dsimp only
        split
        · next heq =>
          have h1 := fuses_of_fst (hgo ..) heq
          rw [keepsFuses_ok, fuses_collEnd, h1, h0]
        · next s1 p heq =>
          have h1 := fuses_of_fst (hgo ..) heq
          split
          · next heq2 =>
            have h2 := fuses_of_fst (hgo ..) heq2
            rw [keepsFuses_ok, fuses_collEnd, h2, h1, h0]
          · next heq2 =>
            have h2 := fuses_of_fst (hgo ..) heq2
            rw [keepsFuses_ok]
            split
            · rw [fuses_enterPhase, modPort_fuses, h2, h1, h0]
            · rw [modPort_fuses, h2, h1, h0]

@[simp] theorem fuses_applyChunk (k w gather fuel off bs s) : (applyChunk k w gather fuel off bs s).1.fuses = s.fuses := by
  induction fuel generalizing off bs s with
  | zero => rfl
  | succ fuel ih =>
    unfold applyChunk
    grind [!fuses_translateColl, !fuses_physWrite, !fuses_physOp]

@[simp] theorem keepsFuses_execCollChunk (port pkt s0) : KeepsFuses s0 (execCollChunk port pkt s0) := by
  unfold execCollChunk
  extract_lets s t id round ring
  have hs : s.fuses = s0.fuses := by simp [s]
  split
  · simp
  · split
    · simp [hs]
    · split
      · simp [hs]
      · split
        · simp [hs]
        · split
          · simp [hs]
          · split
            · simp [hs]
            · split
              · simp [hs]
              · split
                · next heq => simp [fuses_of_fst (fuses_applyChunk ..) heq, hs]
                · next heq => simp [fuses_of_fst (fuses_applyChunk ..) heq, hs]
                · next heq => simp [fuses_of_fst (fuses_applyChunk ..) heq, hs]

@[simp] theorem keepsFuses_execCollTimeout (port s) : KeepsFuses s (execCollTimeout port s) := by
  unfold execCollTimeout
  (repeat' split) <;> simp

@[simp] theorem keepsFuses_execCollCancel (port pkt s) : KeepsFuses s (execCollCancel port pkt s) := by
  unfold execCollCancel
  dsimp only
  (repeat' split) <;> simp

@[simp] theorem fuses_abortColls (q s) : (abortColls q s).fuses = s.fuses := by
  refine fuses_forN fun k u x hu => ?_
  extract_lets y s1 s2 s3
  have h2 : Carries x s2 := by
    dsimp only [s2]
    split
    · split
      · exact hu.step (fuses_collEnd ..)
      · exact hu
    · exact hu
  have h3 : Carries x s3 := h2.step (fuses_forL fun _ _ _ hv => hv.step (fuses_collLeave ..))
  split
  · exact h3
  · exact h3

/-! #### Abort -/

@[simp] theorem fuses_cmdReply (cmd args s) : (cmdReply cmd args s).fuses = s.fuses := by simp [cmdReply]
@[simp] theorem fuses_setAborting (s) : (setAborting s).fuses = s.fuses := by simp [setAborting]
@[simp] theorem fuses_showAbort (r tag state phase forced s) : (showAbort r tag state phase forced s).fuses = s.fuses := rfl

@[simp] theorem fuses_abortReply (cmd tag state phase forced s) : (abortReply cmd tag state phase forced s).fuses = s.fuses := by
  unfold abortReply
  split <;> simp

@[simp] theorem fuses_stopTarget (k s) : (stopTarget k s).fuses = s.fuses := by
  simp [stopTarget]

@[simp] theorem fuses_abortStart (r k tag remote s) : (abortStart r k tag remote s).fuses = s.fuses := by
  unfold abortStart
  dsimp only
  (repeat' split) <;> simp

@[simp] theorem fuses_abortCmd (r v remote s) : (abortCmd r v remote s).fuses = s.fuses := by
  unfold abortCmd
  (repeat' split) <;> simp

@[simp] theorem keepsFuses_execAbortContext (r ctx tag s) : KeepsFuses s (execAbortContext r ctx tag s) := by simp [execAbortContext]
@[simp] theorem keepsFuses_execAbortPartition (r target tag s) : KeepsFuses s (execAbortPartition r target tag s) := by simp [execAbortPartition]
@[simp] theorem keepsFuses_execAbortDevice (r tag s) : KeepsFuses s (execAbortDevice r tag s) := by simp [execAbortDevice]
@[simp] theorem fuses_refreshAbort (a s) : (refreshAbort a s).fuses = s.fuses := by simp [refreshAbort]
@[simp] theorem fuses_forceReset (j s) : (forceReset j s).fuses = s.fuses := by simp [forceReset]
@[simp] theorem fuses_forceSaving (cs ts j s) : (forceSaving cs ts j s).fuses = s.fuses := by simp [forceSaving]

@[simp] theorem fuses_forceSite (k j s) : (forceSite k j s).fuses = s.fuses := by
  unfold forceSite
  split <;> simp

@[simp] theorem fuses_forceTask (r t s) : (forceTask r t s).fuses = s.fuses := by simp [forceTask]

@[simp] theorem keepsFuses_execAbortForceHoldouts (ix s) : KeepsFuses s (execAbortForceHoldouts ix s) := by
  unfold execAbortForceHoldouts
  (repeat' split) <;> simp

@[simp] theorem fuses_abortDone (a s) : (abortDone a s).fuses = s.fuses := by simp [abortDone]

@[simp] theorem keepsFuses_execAbortComplete (ix s) : KeepsFuses s (execAbortComplete ix s) := by
  unfold execAbortComplete
  split
  · simp
  · extract_lets saving
    split
    · simp
    · next s1 s2 a1 _ =>
      have h2 : s2.fuses = s.fuses := by
        refine (fuses_forL fun e u x hu => ?_).trans (fuses_forL fun c u x hu => hu.step (fuses_invalidate ..))
        extract_lets r
        split
        · split
          · exact hu.step (fuses_completeTask ..)
          · exact hu
        · exact hu
      split
      · simp [h2]
      · simp [h2]

@[simp] theorem keepsFuses_execTagLoss (slice set s) : KeepsFuses s (execTagLoss slice set s) := by simp [execTagLoss]

/-! #### Lifecycle -/

theorem fuses_mgmtPut {lost : State → State} (hlost : ∀ u, (lost u).fuses = u.fuses) (inside q d w label s) :
    (mgmtPut inside q d w label lost s).fuses = s.fuses := by
  unfold mgmtPut
  grind [PutCarries, !putCarries_putNew, !fuses_holdWord]

theorem fuses_mgmtPost {lost : State → State} (hlost : ∀ u, (lost u).fuses = u.fuses) (inside t w s) :
    (mgmtPost inside t w lost s).fuses = s.fuses := by
  unfold mgmtPost
  grind [fuses_mgmtPut hlost, !send_fuses]

@[simp] theorem fuses_postOwed (inside e s) : (postOwed inside e s).fuses = s.fuses := by
  unfold postOwed
  grind [fuses_mgmtPost, !fuses_countLost]

@[simp] theorem fuses_oweEnd (inside e s) : (oweEnd inside e s).fuses = s.fuses := by
  unfold oweEnd
  split <;> simp

@[simp] theorem fuses_owedTick (s) : (owedTick s).fuses = s.fuses := by simp [owedTick]
@[simp] theorem fuses_loseOwed (s) : (loseOwed s).fuses = s.fuses := by simp [loseOwed]
@[simp] theorem fuses_takeOver (inside p t w s) : (takeOver inside p t w s).fuses = s.fuses := by simp [takeOver]

@[simp] theorem fuses_refuseHeld (p inside s) : (refuseHeld p inside s).fuses = s.fuses := by
  refine (fuses_forL fun a u x hu => ?_).trans (modPart_fuses ..)
  refine Carries.step ?_ (fuses_mgmtPost (fun _ => rfl) ..)
  split <;> exact hu

@[simp] theorem fuses_endPartTasks (p drain inside s) : (endPartTasks p drain inside s).fuses = s.fuses := by simp [endPartTasks]

@[simp] theorem fuses_waiterReset (o w s) : (waiterReset o w s).fuses = s.fuses := by
  unfold waiterReset
  (repeat' split) <;> simp

@[simp] theorem fuses_waitersLeave (p s) : (waitersLeave p s).fuses = s.fuses := by simp [waitersLeave]
@[simp] theorem fuses_inboxLost (p s) : (inboxLost p s).fuses = s.fuses := by simp [inboxLost]

@[simp] theorem fuses_stopPartition (p drain inside s) : (stopPartition p drain inside s).fuses = s.fuses := by
  suffices h : ∀ x, Carries x s → Carries x (stopPartition p drain inside s) from h _ rfl
  intro x hs
  unfold stopPartition
  extract_lets s0 s1 s2 s3 s4 s5 s6 s7 s8
  have h0 : Carries x s0 := by
    dsimp only [s0]
    split
    · exact hs.step (fuses_refuseHeld ..)
    · exact hs
  have h1 : Carries x (endPartTasks p drain inside s0) := h0.step (fuses_endPartTasks ..)
  have h2 : Carries x (waitersLeave p (inboxLost p (discardOpen (agentIn p) s1))) :=
    ((Carries.step h1 (fuses_discardOpen ..)).step (fuses_inboxLost ..)).step (fuses_waitersLeave ..)
  have h3 : Carries x s3 := by
    refine Carries.forL h2 fun j u hu => ?_
    split
    · exact hu
    · exact hu.step (fuses_clearUnits ..)
  have h4 : Carries x s4 := by
    refine h3.forN fun q u hu => ?_
    split
    · exact hu.step (modQue_fuses ..)
    · exact hu
  have h5 : Carries x s5 := by
    dsimp only [s5]
    split
    · exact (h4.step (fuses_flushTower ..)).step (fuses_drainWb ..)
    · exact h4
  have h6 : Carries x s6 :=
    ((h5.step (fuses_invalidateTower ..)).step (fuses_drainStack ..)).forN fun _ _ hu => hu.step (modMCh_fuses ..)
  have h7 : Carries x s7 := h6.forL fun _ _ hu => hu.step (modSlc_fuses ..)
  have h8 : Carries x ((s7.modPart p fun x => partReset { x with held_ := x.held_.map fun h => { h with since := s.skt.time } }).modGov p govReset) :=
    (h7.step (modPart_fuses ..)).step (modGov_fuses ..)
  exact Carries.withMrlSel h8 ..

@[simp] theorem fuses_releasePartition (p s) : (releasePartition p s).fuses = s.fuses := by simp [releasePartition]
@[simp] theorem fuses_deviceReset (cause s0) : (deviceReset cause s0).fuses = s0.fuses := rfl

@[simp] theorem fuses_applyRepair (r s) : (applyRepair r s).fuses = s.fuses := by
  unfold applyRepair
  split <;> simp

@[simp] theorem fuses_coldReset (s) : (coldReset s).fuses = s.fuses := by simp [coldReset]
@[simp] theorem fuses_writeRates (s) : (writeRates s).fuses = s.fuses := by simp [writeRates]
@[simp] theorem fuses_startL2 (src p detail s) : (startL2 src p detail s).fuses = s.fuses := by simp [startL2]
@[simp] theorem fuses_startL3 (src detail s) : (startL3 src detail s).fuses = s.fuses := by simp [startL3]
@[simp] theorem fuses_startL4 (src detail s) : (startL4 src detail s).fuses = s.fuses := by simp [startL4]

@[simp] theorem fuses_startReset (src lvl tgt detail s) : (startReset src lvl tgt detail s).fuses = s.fuses := by
  unfold startReset
  (repeat' split) <;> simp

@[simp] theorem fuses_raiseSource (src tgtOf detail s) : (raiseSource src tgtOf detail s).fuses = s.fuses := by
  unfold raiseSource
  split <;> simp

/-! #### Resets -/

@[simp] theorem fuses_requestReset (r key lvl tgt s) : (requestReset r key lvl tgt s).fuses = s.fuses := by
  unfold requestReset
  grind [→ fuses_of_checkReset, !fuses_startReset]

@[simp] theorem keepsFuses_execRstRequestL2 (r key target s) : KeepsFuses s (execRstRequestL2 r key target s) := by simp [execRstRequestL2]
@[simp] theorem keepsFuses_execRstRequestL3 (r key s) : KeepsFuses s (execRstRequestL3 r key s) := by simp [execRstRequestL3]
@[simp] theorem keepsFuses_execRstRequestL4 (r key s) : KeepsFuses s (execRstRequestL4 r key s) := by simp [execRstRequestL4]

@[simp] theorem keepsFuses_execPartitionResetRelease (p hashOk s) : KeepsFuses s (execPartitionResetRelease p hashOk s) := by
  unfold execPartitionResetRelease
  (repeat' split) <;> simp

@[simp] theorem keepsFuses_execL3DrainEnd (s) : KeepsFuses s (execL3DrainEnd s) := by
  unfold execL3DrainEnd
  (repeat' split) <;> simp

@[simp] theorem keepsFuses_execL4Release (s) : KeepsFuses s (execL4Release s) := by
  unfold execL4Release
  split <;> simp

@[simp] theorem keepsFuses_execRstWdogKick (r val s) : KeepsFuses s (execRstWdogKick r val s) := by
  unfold execRstWdogKick
  split <;> simp

@[simp] theorem keepsFuses_execPartitionWatchdogExpiry (p s) : KeepsFuses s (execPartitionWatchdogExpiry p s) := by
  unfold execPartitionWatchdogExpiry
  split <;> simp

@[simp] theorem keepsFuses_execMgmtWatchdogRearm (s) : KeepsFuses s (execMgmtWatchdogRearm s) := by simp [execMgmtWatchdogRearm]

@[simp] theorem keepsFuses_execMgmtWatchdogExpiry (s) : KeepsFuses s (execMgmtWatchdogExpiry s) := by
  unfold execMgmtWatchdogExpiry
  split <;> simp

@[simp] theorem keepsFuses_execAbortEscalation (site s) : KeepsFuses s (execAbortEscalation site s) := by
  unfold execAbortEscalation
  split <;> simp

@[simp] theorem fuses_logAppend (kind r s) : (logAppend kind r s).fuses = s.fuses := rfl
@[simp] theorem fuses_logErase (second s) : (logErase second s).fuses = s.fuses := rfl
@[simp] theorem fuses_logSwitch (s) : (logSwitch s).fuses = s.fuses := by simp [logSwitch]

@[simp] theorem fuses_logOne (s) : (logOne s).fuses = s.fuses := by
  unfold logOne
  (repeat' split) <;> simp

@[simp] theorem keepsFuses_execRepairLogWrite (s) : KeepsFuses s (execRepairLogWrite s) := by
  unfold execRepairLogWrite
  split <;> simp

@[simp] theorem rstEntry_programRepairs (s) : (programRepairs s).fuses.rstEntry = s.fuses.rstEntry := by
  refine forL_keeps (fun u => u.fuses.rstEntry = s.fuses.rstEntry) _ _ s (fun i u hu => ?_) rfl
  split
  · exact hu
  · split <;> exact hu

/-! #### Thermal -/

@[simp] theorem fuses_voidTasks (q s) : (voidTasks q s).fuses = s.fuses := by
  unfold voidTasks
  refine fuses_forN fun p u x hu => hu.forL fun e v hv => ?_
  extract_lets r
  split
  · exact hv
  · split
    · exact hv.step (fuses_endTask r _ _ _ v)
    · next s1 _ _ _ _ =>
      have h0 : Carries x (endTask r 3 0x13 0 v) := hv.step (fuses_endTask ..)
      have h1 : Carries x s1 := h0
      exact h1.withThm _

@[simp] theorem fuses_replan (s) : (replan s).fuses = s.fuses := by simp [replan]
@[simp] theorem fuses_startStop (cause sensor s) : (startStop cause sensor s).fuses = s.fuses := by simp [startStop]

@[simp] theorem keepsFuses_execOrderlyStopCutoff (s) : KeepsFuses s (execOrderlyStopCutoff s) := by
  unfold execOrderlyStopCutoff
  split <;> simp

@[simp] theorem fuses_haltTasks (p s) : (haltTasks p s).fuses = s.fuses := by simp [haltTasks]
@[simp] theorem fuses_command (p rail mv s) : (command p rail mv s).fuses = s.fuses := by simp [command]

@[simp] theorem keepsFuses_execOrderlyStopHalt (s) : KeepsFuses s (execOrderlyStopHalt s) := by
  unfold execOrderlyStopHalt
  split <;> simp

@[simp] theorem keepsFuses_execHaltRecovery (s) : KeepsFuses s (execHaltRecovery s) := by
  unfold execHaltRecovery
  (repeat' split) <;> simp

@[simp] theorem keepsFuses_execTripLatchClear (s) : KeepsFuses s (execTripLatchClear s) := by
  unfold execTripLatchClear
  (repeat' split) <;> simp

@[simp] theorem fuses_trackCool (s) : (trackCool s).fuses = s.fuses := rfl
@[simp] theorem fuses_hardwareTrip (i s) : (hardwareTrip i s).fuses = s.fuses := by simp [hardwareTrip]
@[simp] theorem fuses_thresholds (i s) : (thresholds i s).fuses = s.fuses := by simp [thresholds]

@[simp] theorem keepsFuses_execSensorSample (i raw s) : KeepsFuses s (execSensorSample i raw s) := by
  unfold execSensorSample
  dsimp only
  (repeat' split) <;> simp

@[simp] theorem keepsFuses_execSensorSuspect (i s) : KeepsFuses s (execSensorSuspect i s) := by
  unfold execSensorSuspect
  dsimp only
  (repeat' split) <;> simp

@[simp] theorem keepsFuses_execSensorRecover (i s) : KeepsFuses s (execSensorRecover i s) := by
  unfold execSensorRecover
  dsimp only
  (repeat' split) <;> simp

/-! #### Power -/

@[simp] theorem keepsFuses_execProbeReading (probe last low s) : KeepsFuses s (execProbeReading probe last low s) := by simp [execProbeReading]
@[simp] theorem fuses_compareMonitors (p s) : (compareMonitors p s).fuses = s.fuses := by simp [compareMonitors]

@[simp] theorem keepsFuses_execGovernorPeriod (p s) : KeepsFuses s (execGovernorPeriod p s) := by
  unfold execGovernorPeriod
  dsimp only
  (repeat' split) <;> simp

@[simp] theorem keepsFuses_execFloorFault (p s) : KeepsFuses s (execFloorFault p s) := by
  unfold execFloorFault
  split <;> simp

@[simp] theorem keepsFuses_execFloorFaultClear (p s) : KeepsFuses s (execFloorFaultClear p s) := by
  unfold execFloorFaultClear
  dsimp only
  (repeat' split) <;> simp

@[simp] theorem keepsFuses_execAgeingDetect (p s) : KeepsFuses s (execAgeingDetect p s) := by
  unfold execAgeingDetect
  dsimp only
  (repeat' split) <;> simp

@[simp] theorem fuses_capUpdate (p share s) : (capUpdate p share s).fuses = s.fuses := by simp [capUpdate]
@[simp] theorem fuses_stageUp (p s) : (stageUp p s).fuses = s.fuses := by simp [stageUp]
@[simp] theorem fuses_ladderUpdate (p s) : (ladderUpdate p s).fuses = s.fuses := by simp [ladderUpdate]

@[simp] theorem keepsFuses_execAllotmentUpdate (s) : KeepsFuses s (execAllotmentUpdate s) := by
  unfold execAllotmentUpdate
  split <;> simp

@[simp] theorem keepsFuses_execLadderStageDown (p s) : KeepsFuses s (execLadderStageDown p s) := by
  unfold execLadderStageDown
  dsimp only
  (repeat' split) <;> simp

@[simp] theorem keepsFuses_execAvsCommand (iface rail cmd data s) : KeepsFuses s (execAvsCommand iface rail cmd data s) := by
  unfold execAvsCommand
  dsimp only
  (repeat' split) <;> simp

@[simp] theorem keepsFuses_execAvsResponseTimeout (iface s) : KeepsFuses s (execAvsResponseTimeout iface s) := by
  unfold execAvsResponseTimeout
  dsimp only
  (repeat' split) <;> simp

@[simp] theorem fuses_railHolds (iface rail fault s) : (railHolds iface rail fault s).fuses = s.fuses := by simp [railHolds]

@[simp] theorem keepsFuses_execRegulatorStatusPoll (iface rail fault s) : KeepsFuses s (execRegulatorStatusPoll iface rail fault s) := by
  unfold execRegulatorStatusPoll
  dsimp only
  (repeat' split) <;> simp

@[simp] theorem keepsFuses_execVmonSample (t m mv s) : KeepsFuses s (execVmonSample t m mv s) := by
  unfold execVmonSample
  (repeat' split) <;> simp

/-! #### TimeBase -/

@[simp] theorem keepsFuses_execTbRefLoss (s) : KeepsFuses s (execTbRefLoss s) := by simp [execTbRefLoss]
@[simp] theorem keepsFuses_execTbRefRestore (s) : KeepsFuses s (execTbRefRestore s) := by simp [execTbRefRestore]

@[simp] theorem keepsFuses_execTimeMarkSend (port s) : KeepsFuses s (execTimeMarkSend port s) := by
  unfold execTimeMarkSend
  dsimp only
  (repeat' split) <;> simp

@[simp] theorem fuses_chooseUpstream (s) : (chooseUpstream s).fuses = s.fuses := by
  unfold chooseUpstream
  dsimp only
  (repeat' split) <;> simp

@[simp] theorem fuses_trimFrequency (s) : (trimFrequency s).fuses = s.fuses := rfl
@[simp] theorem fuses_steer (th s) : (steer th s).fuses = s.fuses := by simp [steer]

@[simp] theorem keepsFuses_execTimeX (port x _flags s) : KeepsFuses s (execTimeX port x _flags s) := by
  unfold execTimeX
  dsimp only
  (repeat' split) <;> simp

/-! #### Bundles -/

@[simp] theorem fuses_sweepPass (j k b t0 w s) : (sweepPass j k b t0 w s).fuses = s.fuses := rfl

@[simp] theorem keepsFuses_execBundleRotationStart (site group low s) : KeepsFuses s (execBundleRotationStart site group low s) := by
  unfold execBundleRotationStart
  dsimp only
  (repeat' split) <;> simp

@[simp] theorem keepsFuses_execRotationCompare (site group equal s) : KeepsFuses s (execRotationCompare site group equal s) := by
  unfold execRotationCompare
  dsimp only
  (repeat' split) <;> simp

@[simp] theorem keepsFuses_execBundleSweep (site group bundle pass s) : KeepsFuses s (execBundleSweep site group bundle pass s) := by
  unfold execBundleSweep
  dsimp only
  (repeat' split) <;> simp

@[simp] theorem fuses_portLoss (j s) : (portLoss j s).fuses = s.fuses := by simp [portLoss]
@[simp] theorem fuses_takeBonds (j k b used n s) : (takeBonds j k b used n s).fuses = s.fuses := by simp [takeBonds]

@[simp] theorem keepsFuses_execBundleRepair (site group bundle failing s) : KeepsFuses s (execBundleRepair site group bundle failing s) := by
  unfold execBundleRepair
  dsimp only
  (repeat' split) <;> simp

@[simp] theorem keepsFuses_execGroupSpareLost (site group s) : KeepsFuses s (execGroupSpareLost site group s) := by
  unfold execGroupSpareLost
  dsimp only
  (repeat' split) <;> simp

/-! #### Image -/

@[simp] theorem fuses_enterFlash (b s) : (enterFlash b s).fuses = s.fuses := by simp [enterFlash]
@[simp] theorem fuses_applyLocation (cfg s) : (applyLocation cfg s).fuses = s.fuses := rfl
@[simp] theorem fuses_applyRoles (b s) : (applyRoles b s).fuses = s.fuses := rfl
@[simp] theorem fuses_applyQueues (b s) : (applyQueues b s).fuses = s.fuses := by simp [applyQueues]
@[simp] theorem fuses_applyClasses (b s) : (applyClasses b s).fuses = s.fuses := rfl
@[simp] theorem fuses_applyKeys (image b s) : (applyKeys image b s).fuses = s.fuses := rfl
@[simp] theorem fuses_applyDeviceCfg (b s) : (applyDeviceCfg b s).fuses = s.fuses := by simp [applyDeviceCfg]

/-! #### BringUp -/

@[simp] theorem fuses_enterFault (stage code unit s) : (enterFault stage code unit s).fuses = s.fuses := by simp [enterFault]

@[simp] theorem keepsFuses_execPowerOn (tbRef straps s) : KeepsFuses s (execPowerOn tbRef straps s) := by
  unfold execPowerOn
  split <;> simp

@[simp] theorem fuses_partitionsUp (s) : (partitionsUp s).fuses = s.fuses := by simp [partitionsUp]
@[simp] theorem fuses_takeOptions (s) : (takeOptions s).fuses = s.fuses := by simp [takeOptions]

@[simp] theorem keepsFuses_execOptionsRead (s) : KeepsFuses s (execOptionsRead s) := by
  unfold execOptionsRead
  (repeat' split) <;> simp

@[simp] theorem fuses_askSlot (b s) : (askSlot b s).fuses = s.fuses := rfl
@[simp] theorem fuses_imageIn (im s) : (imageIn im s).fuses = s.fuses := rfl
@[simp] theorem fuses_announce (s) : (announce s).fuses = s.fuses := by simp [announce]

@[simp] theorem keepsFuses_execImageVerify (s) : KeepsFuses s (execImageVerify s) := by
  unfold execImageVerify
  dsimp only
  (repeat' split) <;> simp

theorem fuses_of_swapChannel {m s u} (h : swapChannel m s = some u) : u.fuses = s.fuses := by
  unfold swapChannel at h
  grind [!fuses_addRepair, !modMCh_fuses]

@[simp] theorem fuses_testFailure (f s) : (testFailure f s).1.fuses = s.fuses := by
  unfold testFailure
  grind [!modSlc_fuses, !fuses_repairRow, !fuses_repairColumn, !fuses_repairMarlRow, !fuses_marlRowDue, → fuses_of_swapChannel]

@[simp] theorem fuses_zeroMemories (s) : (zeroMemories s).fuses = s.fuses := rfl

@[simp] theorem keepsFuses_execMemoryTest (fails s) : KeepsFuses s (execMemoryTest fails s) := by
  unfold execMemoryTest
  dsimp only
  (repeat' split) <;> simp

@[simp] theorem fuses_coldSweepAll (t0 w s) : (coldSweepAll t0 w s).fuses = s.fuses := by simp [coldSweepAll]

@[simp] theorem fuses_warmSweepAll (t0 w s0) : (warmSweepAll t0 w s0).fuses = s0.fuses := by
  refine fuses_forN fun j u x hu => hu.step (fuses_forN fun k v y hv => hv.step (fuses_forN fun b r z hr => ?_))
  split
  · exact hr
  · exact hr.step (fuses_sweepPass ..)

@[simp] theorem keepsFuses_execBundleCal (sweeps s) : KeepsFuses s (execBundleCal sweeps s) := by
  unfold execBundleCal
  split <;> simp

@[simp] theorem fuses_chooseFw (s) : (chooseFw s).fuses = s.fuses := by
  unfold chooseFw
  (repeat' split) <;> simp

@[simp] theorem fuses_kaolinBit (t k s) : (kaolinBit t k s).fuses = s.fuses := rfl

@[simp] theorem fuses_kaolinFailure (sites f s) : (kaolinFailure sites f s).fuses = s.fuses := by
  unfold kaolinFailure
  dsimp only
  (repeat' split) <;> simp

@[simp] theorem keepsFuses_execKaolin (fails s) : KeepsFuses s (execKaolin fails s) := by
  unfold execKaolin
  (repeat' split) <;> simp

@[simp] theorem fuses_copyWritten (s) : (copyWritten s).fuses = s.fuses := rfl

@[simp] theorem fuses_stagingWritten (s) : (stagingWritten s).fuses = s.fuses := by
  refine fuses_forN fun t u x hu => ?_
  split <;> exact hu

@[simp] theorem keepsFuses_execDistribute (s) : KeepsFuses s (execDistribute s) := by
  unfold execDistribute
  split <;> simp

@[simp] theorem rstEntry_burnFuses (s) : (burnFuses s).fuses.rstEntry = s.fuses.rstEntry := rfl
@[simp] theorem fuses_grantCredits (s) : (grantCredits s).fuses = s.fuses := by simp [grantCredits]

theorem fuses_of_configFault {s cfg roles queues classes keys r} (h : configFault s cfg roles queues classes keys = some r) :
    r.2.fuses = s.fuses := by
  unfold configFault at h
  grind [!fuses_applyRoles, !fuses_applyQueues]

theorem rstEntry_execConfig {s t} (h : execConfig s = .next t) : t.fuses.rstEntry = s.fuses.rstEntry := by
  unfold execConfig at h
  split at h
  · cases h
    rfl
  · extract_lets im cfg keys b s0 s1 s2 s3 at h
    have h0 : s0.fuses = s.fuses := rfl
    clear_value s0
    split at h
    · cases h
      rw [fuses_enterFault, h0]
    · have h1 : s1.fuses = s.fuses := (fuses_applyLocation cfg s0).trans h0
      split at h
      · next code u hu =>
        have h2 : u.fuses = s1.fuses := fuses_of_configFault hu
        rw [eq_of_ok_eq_next h]
        simp [h1, h2]
      · have h3 : s3.fuses = s.fuses := by simp [s3, s2, h1]
        rw [eq_of_ok_eq_next h]
        clear_value s3
        simp only [fuses_ite]
        split
        · rw [h3]
        · split
          · rw [rstEntry_burnFuses, h3]
          · rw [h3]

@[simp] theorem keepsFuses_execReady (s) : KeepsFuses s (execReady s) := by
  unfold execReady
  split <;> simp

/-! #### Firmware -/

@[simp] theorem keepsFuses_execFwAnnounce (port x s) : KeepsFuses s (execFwAnnounce port x s) := by
  unfold execFwAnnounce
  split <;> simp

@[simp] theorem keepsFuses_execFwData (port x s) : KeepsFuses s (execFwData port x s) := by
  unfold execFwData
  dsimp only
  (repeat' split) <;> simp

@[simp] theorem fuses_dropUpstream (s) : (dropUpstream s).fuses = s.fuses := by simp [dropUpstream]
@[simp] theorem fuses_sendNeed (s) : (sendNeed s).fuses = s.fuses := by simp [sendNeed]
@[simp] theorem fuses_startPersist (s) : (startPersist s).fuses = s.fuses := by simp [startPersist]
@[simp] theorem fuses_fabricImage (im s) : (fabricImage im s).fuses = s.fuses := by simp [fabricImage]

@[simp] theorem keepsFuses_execFwEnd (port x s) : KeepsFuses s (execFwEnd port x s) := by
  unfold execFwEnd
  dsimp only
  (repeat' split) <;> simp

@[simp] theorem keepsFuses_execFwChunkTimeout (s) : KeepsFuses s (execFwChunkTimeout s) := by
  unfold execFwChunkTimeout
  split <;> simp

@[simp] theorem keepsFuses_execNoUpstreamTimeout (s) : KeepsFuses s (execNoUpstreamTimeout s) := by
  unfold execNoUpstreamTimeout
  split <;> simp

@[simp] theorem fuses_sendFwChunk (k n s) : (sendFwChunk k n s).fuses = s.fuses := by simp [sendFwChunk]
@[simp] theorem fuses_streamChunks (k ns s) : (streamChunks k ns s).fuses = s.fuses := by simp [streamChunks]

@[simp] theorem keepsFuses_execFwRequest (port x s) : KeepsFuses s (execFwRequest port x s) := by
  unfold execFwRequest
  dsimp only
  (repeat' split) <;> simp

@[simp] theorem keepsFuses_execFwNeed (port x s) : KeepsFuses s (execFwNeed port x s) := by
  unfold execFwNeed
  dsimp only
  (repeat' split) <;> simp

@[simp] theorem keepsFuses_execFwDone (port x s) : KeepsFuses s (execFwDone port x s) := by
  unfold execFwDone
  split <;> simp

@[simp] theorem keepsFuses_execAnnounceTimer (s) : KeepsFuses s (execAnnounceTimer s) := by
  unfold execAnnounceTimer
  split <;> simp

@[simp] theorem keepsFuses_execStageHoldEnd (s) : KeepsFuses s (execStageHoldEnd s) := by
  unfold execStageHoldEnd
  split <;> simp

theorem rstEntry_execFuseWindowOpen {s t} (h : execFuseWindowOpen s = .next t) : t.fuses.rstEntry = s.fuses.rstEntry := by
  unfold execFuseWindowOpen at h
  split at h <;> cases h
  · rfl
  · rw [rstEntry_programRepairs]
    split
    · exact rstEntry_burnFuses s
    · rfl

@[simp] theorem fuses_logAll (s) : (logAll s).fuses = s.fuses := by simp [logAll]

@[simp] theorem keepsFuses_execFlashWindowOpen (s) : KeepsFuses s (execFlashWindowOpen s) := by
  unfold execFlashWindowOpen
  split <;> simp

@[simp] theorem keepsFuses_execPersistWriteDone (s) : KeepsFuses s (execPersistWriteDone s) := by
  unfold execPersistWriteDone
  split <;> simp

/-! #### RegRead -/

@[simp] theorem fuses_popSynFired (s) : (popSynFired s).fuses = s.fuses := rfl
@[simp] theorem fuses_readEffect (r win off s) : (readEffect r win off s).fuses = s.fuses := by simp [readEffect]
@[simp] theorem fuses_regRead (r win off s) : (regRead r win off s).1.fuses = s.fuses := by simp [regRead]
@[simp] theorem keepsFuses_execSktTimeLoRead (r s) : KeepsFuses s (execSktTimeLoRead r s) := by simp [execSktTimeLoRead]
@[simp] theorem keepsFuses_execSynValueLoRead (r s) : KeepsFuses s (execSynValueLoRead r s) := by simp [execSynValueLoRead]
@[simp] theorem keepsFuses_execHstSynFiredRead (r s) : KeepsFuses s (execHstSynFiredRead r s) := by simp [execHstSynFiredRead]

/-! #### RegWrite -/

@[simp] theorem fuses_hstEventWrite (r val s) : (hstEventWrite r val s).fuses = s.fuses := by simp [hstEventWrite]

@[simp] theorem keepsFuses_execHstEventWrite (r val s) : KeepsFuses s (execHstEventWrite r val s) := by
  unfold execHstEventWrite
  split <;> simp

@[simp] theorem fuses_flashCtrl (val s) : (flashCtrl val s).fuses = s.fuses := by simp [flashCtrl]
@[simp] theorem fuses_flashStart (r op ctrl s) : (flashStart r op ctrl s).fuses = s.fuses := by simp [flashStart]
@[simp] theorem keepsFuses_execFlashRead (r ctrl s) : KeepsFuses s (execFlashRead r ctrl s) := by simp [execFlashRead]
@[simp] theorem keepsFuses_execFlashProgram (r ctrl s) : KeepsFuses s (execFlashProgram r ctrl s) := by simp [execFlashProgram]
@[simp] theorem keepsFuses_execFlashErase4k (r ctrl s) : KeepsFuses s (execFlashErase4k r ctrl s) := by simp [execFlashErase4k]
@[simp] theorem keepsFuses_execFlashErase64k (r ctrl s) : KeepsFuses s (execFlashErase64k r ctrl s) := by simp [execFlashErase64k]
@[simp] theorem fuses_fillBuffer (bs s) : (fillBuffer bs s).fuses = s.fuses := rfl
@[simp] theorem fuses_flashEffect (x error s) : (flashEffect x error s).fuses = s.fuses := by simp [flashEffect]
@[simp] theorem fuses_persistNext (s) : (persistNext s).fuses = s.fuses := by simp [persistNext]

@[simp] theorem keepsFuses_execFlashOpDone (error s) : KeepsFuses s (execFlashOpDone error s) := by
  unfold execFlashOpDone
  (repeat' split) <;> simp

@[simp] theorem fuses_hstWrite (r off val s) : (hstWrite r off val s).fuses = s.fuses := by
  unfold hstWrite
  (repeat' split) <;> simp

@[simp] theorem fuses_rstWrite (r i off val s) : (rstWrite r i off val s).fuses = s.fuses := by
  unfold rstWrite
  split <;> simp

@[simp] theorem fuses_svcWrite (r off val s) : (svcWrite r off val s).fuses = s.fuses := by simp [svcWrite]
@[simp] theorem fuses_abfWrite (r i off val s) : (abfWrite r i off val s).fuses = s.fuses := by simp [abfWrite]
@[simp] theorem fuses_siteCtrl (r j v s) : (siteCtrl r j v s).fuses = s.fuses := by simp [siteCtrl]

@[simp] theorem fuses_ctxCfgWrite (r c val s) : (ctxCfgWrite r c val s).fuses = s.fuses := by
  unfold ctxCfgWrite
  split
  · exact keepsFuses_execXltCtxCfgWrite _ _ _ _ _ ‹_›
  · rfl

@[simp] theorem fuses_invalCtrl (r val s) : (invalCtrl r val s).fuses = s.fuses := by
  unfold invalCtrl
  split
  · exact keepsFuses_execInvalidationStart _ _ _ _ ‹_›
  · rfl

@[simp] theorem fuses_xltWrite (r i off val s) : (xltWrite r i off val s).fuses = s.fuses := by
  unfold xltWrite
  extract_lets v
  split
  · exact modXrq_fuses ..
  · exact modXrq_fuses ..
  · exact fuses_invalCtrl ..
  · exact fuses_abortCmd ..
  all_goals
    simp only [fuses_ite, modCtx_fuses, modSite_fuses, fuses_siteCtrl, fuses_ctxCfgWrite, ite_self]

@[simp] theorem fuses_arySaveBase (r a hi val s) : (arySaveBase r a hi val s).fuses = s.fuses := by
  unfold arySaveBase
  split
  · exact keepsFuses_execArySaveBaseWrite _ _ _ _ _ _ ‹_›
  · rfl

@[simp] theorem fuses_arySeedHi (r a val s) : (arySeedHi r a val s).fuses = s.fuses := by
  unfold arySeedHi
  split
  · exact keepsFuses_execArySrSeedHiWrite _ _ _ _ _ ‹_›
  · rfl

@[simp] theorem fuses_aryWrite (r i off val s) : (aryWrite r i off val s).fuses = s.fuses := by
  unfold aryWrite
  split <;> simp

@[simp] theorem fuses_lssWrite (r i off val s) : (lssWrite r i off val s).fuses = s.fuses := by
  unfold lssWrite
  split <;> simp

@[simp] theorem fuses_mrlWrite (r off val s) : (mrlWrite r off val s).fuses = s.fuses := by simp [mrlWrite]

@[simp] theorem fuses_queWrite (r i off val s) : (queWrite r i off val s).fuses = s.fuses := by
  unfold queWrite
  split <;> simp

@[simp] theorem fuses_msixWrite (off val s) : (msixWrite off val s).fuses = s.fuses := by
  unfold msixWrite
  (repeat' split) <;> simp

@[simp] theorem fuses_unitWrite (r u i off val s) : (unitWrite r u i off val s).fuses = s.fuses := by
  unfold unitWrite
  split <;> simp

@[simp] theorem fuses_selWrite (r u val s) : (selWrite r u val s).fuses = s.fuses := rfl
@[simp] theorem fuses_regWrite (r win off val narrow s) : (regWrite r win off val narrow s).fuses = s.fuses := by simp [regWrite]

@[simp] theorem keepsFuses_execRegisterWrite (r win off val narrow s) :
    KeepsFuses s (execRegisterWrite r win off val narrow s) := by simp [execRegisterWrite]

@[simp] theorem keepsFuses_execSelectorWrite (r unit val s) : KeepsFuses s (execSelectorWrite r unit val s) := by
  unfold execSelectorWrite
  split <;> simp

/-! #### Pcie -/

@[simp] theorem fuses_doeAbort (s) : (doeAbort s).fuses = s.fuses := rfl
@[simp] theorem fuses_hostSelectors (s) : (hostSelectors s).fuses = s.fuses := rfl
@[simp] theorem fuses_hideHostAborts (s) : (hideHostAborts s).fuses = s.fuses := rfl
@[simp] theorem fuses_functionReset (up s) : (functionReset up s).fuses = s.fuses := by simp [functionReset]

@[simp] theorem keepsFuses_execPerstNAssert (s) : KeepsFuses s (execPerstNAssert s) := by
  unfold execPerstNAssert
  split <;> simp

@[simp] theorem keepsFuses_execPerstNDeassert (s) : KeepsFuses s (execPerstNDeassert s) := by
  unfold execPerstNDeassert
  split <;> simp

@[simp] theorem keepsFuses_execPcieLinkUp (flitMode s) : KeepsFuses s (execPcieLinkUp flitMode s) := by
  unfold execPcieLinkUp
  split <;> simp

@[simp] theorem keepsFuses_execFunctionLevelReset (s) : KeepsFuses s (execFunctionLevelReset s) := by
  unfold execFunctionLevelReset
  split <;> simp

@[simp] theorem keepsFuses_execHotReset (s) : KeepsFuses s (execHotReset s) := by
  unfold execHotReset
  split <;> simp

@[simp] theorem keepsFuses_execPcieLinkDown (s) : KeepsFuses s (execPcieLinkDown s) := by
  unfold execPcieLinkDown
  split <;> simp

@[simp] theorem keepsFuses_execD3hotEntry (s) : KeepsFuses s (execD3hotEntry s) := by
  unfold execD3hotEntry
  split <;> simp

@[simp] theorem keepsFuses_execD0Return (s) : KeepsFuses s (execD0Return s) := by
  unfold execD0Return
  split <;> simp

@[simp] theorem keepsFuses_execMsixPendingSend (v s) : KeepsFuses s (execMsixPendingSend v s) := by
  unfold execMsixPendingSend
  split <;> simp

@[simp] theorem fuses_cfgWrite (reg val s) : (cfgWrite reg val s).fuses = s.fuses := by
  unfold cfgWrite
  split <;> simp

@[simp] theorem keepsFuses_execPcieConfigRequest (reg write s) : KeepsFuses s (execPcieConfigRequest reg write s) := by
  unfold execPcieConfigRequest
  (repeat' split) <;> simp

@[simp] theorem fuses_aerUncorrectable (k s) : (aerUncorrectable k s).fuses = s.fuses := rfl
@[simp] theorem fuses_aerCorrectable (k s) : (aerCorrectable k s).fuses = s.fuses := rfl
@[simp] theorem fuses_unsupported (s) : (unsupported s).fuses = s.fuses := rfl
@[simp] theorem fuses_bar0Read (l s) : (bar0Read l s).1.fuses = s.fuses := by simp [bar0Read]
@[simp] theorem fuses_bar0Write (a data en o s) : (bar0Write a data en o s).fuses = s.fuses := by simp [bar0Write]

@[simp] theorem keepsFuses_execBar0Access (off op s) : KeepsFuses s (execBar0Access off op s) := by
  unfold execBar0Access
  (repeat' split) <;> simp

@[simp] theorem fuses_bar2Read (base l s) : (bar2Read base l s).1.fuses = s.fuses := by
  refine fuses_foldl_pair fun a p x ha => ?_
  rw [carries_iff] at ha ⊢
  grind [!fuses_physRead, !fuses_hostBusError]

@[simp] theorem fuses_bar2Put (a bs s) : (bar2Put a bs s).fuses = s.fuses := by
  unfold bar2Put
  grind [!fuses_hostBusError, !fuses_physWrite]

@[simp] theorem fuses_bar2Piece (base off data en p s) : (bar2Piece base off data en p s).fuses = s.fuses := by simp [bar2Piece]

@[simp] theorem keepsFuses_execBar2Access (off op ep s) : KeepsFuses s (execBar2Access off op ep s) := by
  unfold execBar2Access
  (repeat' split) <;> simp

/-! #### Attest -/

@[simp] theorem fuses_askReport (doe nonce cmd s) : (askReport doe nonce cmd s).fuses = s.fuses := by simp [askReport]
@[simp] theorem fuses_nextReport (s) : (nextReport s).fuses = s.fuses := rfl

@[simp] theorem keepsFuses_execAttestSignDone (s) : KeepsFuses s (execAttestSignDone s) := by
  unfold execAttestSignDone
  split <;> simp

@[simp] theorem keepsFuses_execDoeDiscovery (index s) : KeepsFuses s (execDoeDiscovery index s) := by
  unfold execDoeDiscovery
  split <;> simp

@[simp] theorem keepsFuses_execDoeAttest (payload s) : KeepsFuses s (execDoeAttest payload s) := by
  unfold execDoeAttest
  (repeat' split) <;> simp

@[simp] theorem keepsFuses_execDoeIdkey (payload s) : KeepsFuses s (execDoeIdkey payload s) := by
  unfold execDoeIdkey
  (repeat' split) <;> simp

@[simp] theorem keepsFuses_execDoeAbort (s) : KeepsFuses s (execDoeAbort s) := by
  unfold execDoeAbort
  split <;> simp

@[simp] theorem fuses_takeCmd (cmd s) : (takeCmd cmd s).fuses = s.fuses := rfl
@[simp] theorem fuses_keepCounter (cmd s) : (keepCounter cmd s).fuses = s.fuses := rfl

theorem fuses_command12 {run : State → State} (hrun : ∀ u, (run u).fuses = u.fuses) (code cmd s) : (command12 code cmd run s).fuses = s.fuses := by
  unfold command12
  grind [!fuses_takeCmd, !fuses_respNack, !fuses_keepCounter]

@[simp] theorem fuses_mgmtSelect (win inst s) : (mgmtSelect win inst s).fuses = s.fuses := by simp [mgmtSelect]

@[simp] theorem keepsFuses_execCmdRegRead (cmd s) : KeepsFuses s (execCmdRegRead cmd s) := by
  unfold execCmdRegRead
  grind [keepsFuses_ok, fuses_command12, !fuses_cmdReply, !fuses_regRead, !fuses_mgmtSelect]

@[simp] theorem keepsFuses_execCmdRegWrite (cmd s) : KeepsFuses s (execCmdRegWrite cmd s) := by
  unfold execCmdRegWrite
  grind [keepsFuses_ok, fuses_command12, !fuses_cmdReply, !fuses_regWrite, !fuses_mgmtSelect]

@[simp] theorem keepsFuses_execCmdAbort (cmd s) : KeepsFuses s (execCmdAbort cmd s) := by
  unfold execCmdAbort
  grind [keepsFuses_ok, fuses_command12, !fuses_cmdReply, !fuses_abortCmd]

@[simp] theorem keepsFuses_execCmdReset (cmd s) : KeepsFuses s (execCmdReset cmd s) := by
  unfold execCmdReset
  grind [keepsFuses_ok, fuses_command12, !fuses_startReset, !fuses_cmdReply, !fuses_rstErr]

@[simp] theorem keepsFuses_execCmdAttest (cmd s) : KeepsFuses s (execCmdAttest cmd s) := by
  unfold execCmdAttest
  grind [keepsFuses_ok, fuses_command12, !fuses_respNack, !fuses_askReport]

/-! #### Board -/

@[simp] theorem keepsFuses_execI3cDynamicAddress (setdasa addr s) : KeepsFuses s (execI3cDynamicAddress setdasa addr s) := by
  unfold execI3cDynamicAddress
  split <;> simp

@[simp] theorem keepsFuses_execI3cSetIndex (ix s) : KeepsFuses s (execI3cSetIndex ix s) := by
  unfold execI3cSetIndex
  split <;> simp

@[simp] theorem keepsFuses_execI3cRead (words s) : KeepsFuses s (execI3cRead words s) := by
  unfold execI3cRead
  split <;> simp

@[simp] theorem keepsFuses_execI3cTelemetryRefresh (s) : KeepsFuses s (execI3cTelemetryRefresh s) := by
  unfold execI3cTelemetryRefresh
  split <;> simp

@[simp] theorem fuses_loadIr (ir s) : (loadIr ir s).fuses = s.fuses := rfl

@[simp] theorem keepsFuses_execJtagBypass (s) : KeepsFuses s (execJtagBypass s) := by
  unfold execJtagBypass
  split <;> simp

@[simp] theorem keepsFuses_execJtagIdcode (s) : KeepsFuses s (execJtagIdcode s) := by
  unfold execJtagIdcode
  split <;> simp

@[simp] theorem keepsFuses_execJtagSamplePreload (preload s) : KeepsFuses s (execJtagSamplePreload preload s) := by
  unfold execJtagSamplePreload
  (repeat' split) <;> simp

@[simp] theorem fuses_testHold (ir drive float s) : (testHold ir drive float s).fuses = s.fuses := by simp [testHold]

@[simp] theorem keepsFuses_execJtagExtest (s) : KeepsFuses s (execJtagExtest s) := by
  unfold execJtagExtest
  split <;> simp

@[simp] theorem keepsFuses_execJtagClamp (s) : KeepsFuses s (execJtagClamp s) := by
  unfold execJtagClamp
  split <;> simp

@[simp] theorem keepsFuses_execJtagHighz (s) : KeepsFuses s (execJtagHighz s) := by
  unfold execJtagHighz
  split <;> simp

@[simp] theorem keepsFuses_execJtagExtestPulse (s) : KeepsFuses s (execJtagExtestPulse s) := by
  unfold execJtagExtestPulse
  split <;> simp

@[simp] theorem keepsFuses_execJtagExtestTrain (s) : KeepsFuses s (execJtagExtestTrain s) := by
  unfold execJtagExtestTrain
  split <;> simp

@[simp] theorem keepsFuses_execJtagRegAccess (win off write s) : KeepsFuses s (execJtagRegAccess win off write s) := by
  unfold execJtagRegAccess
  dsimp only
  (repeat' split) <;> simp

@[simp] theorem keepsFuses_execJtagTestLogicReset (s) : KeepsFuses s (execJtagTestLogicReset s) := by
  unfold execJtagTestLogicReset
  (repeat' split) <;> simp

@[simp] theorem keepsFuses_execVaonLoss (s) : KeepsFuses s (execVaonLoss s) := by simp [execVaonLoss]
@[simp] theorem keepsFuses_execVioLoss (s) : KeepsFuses s (execVioLoss s) := by simp [execVioLoss]
@[simp] theorem keepsFuses_execVioReturn (s) : KeepsFuses s (execVioReturn s) := by simp [execVioReturn]

/-! #### Tick -/

@[simp] theorem keepsFuses_idleTick (s) : KeepsFuses s (idleTick s) := by simp [idleTick]

/-! #### The step -/

/-- CONFIG and the fuse window write other fuses; every other command leaves them all. -/
theorem rstEntry_exec {c s t} (h : exec c s = .next t) : t.fuses.rstEntry = s.fuses.rstEntry := by
  unfold exec at h
  cases c
  case config => exact rstEntry_execConfig h
  case fuseWindowOpen => exact rstEntry_execFuseWindowOpen h
  all_goals exact congrArg Fuses.rstEntry ((by simp : KeepsFuses s _) t h)

theorem rstEntry_step {s t} (h : step s = .next t) : t.fuses.rstEntry = s.fuses.rstEntry := by
  cases hp : s.pending with
  | nil =>
    rw [step_empty s hp] at h
    exact congrArg Fuses.rstEntry (keepsFuses_idleTick s t h)
  | cons c rest =>
    rw [step_front s c rest hp] at h
    exact rstEntry_exec (s := { s with pending := rest }) h

/-- R419: with no override in force, a source's level is the DEFAULT of its fuse entry. -/
theorem sourceLevel_of_no_override {s : State} {src : Nat} (h : resetOverride s src = none) :
    sourceLevel s src = if (s.fuses.rstEntry.getD src 0).toNat % 8 ≤ 4
      then some ((s.fuses.rstEntry.getD src 0).toNat % 8) else none := by
  rw [sourceLevel, h]

/-- Settles O57: the entries by `rstEntry_step`, their meaning by the definitions, and Table 14.2 evaluated at reset. -/
theorem resetFusesNeverChange : Obligations.ResetFusesNeverChange :=
  ⟨fun _ _ => rstEntry_step, fun _ _ _ => rfl, fun _ _ => sourceLevel_of_no_override, by decide⟩

end Sys2Proof.Proofs
